-- ==== Sys2Proof/Word.lean ====
section
/-!
DEFINITION. The word types of the HJ-8192 model and the type of sparse tables.
-/

namespace Sys2Proof

/-- A byte of memory. -/
abbrev Byte := BitVec 8

/-- A sparse table: pairs of key and value, keys strictly rising, no value equal to the table's default. -/
abbrev SMap (α : Type) := List (Nat × α)

/-- Bits `[lo + n - 1 : lo]` of a little-endian number (R4: bit 0 is the least significant bit). -/
def bits (w lo n : Nat) : Nat := (w >>> lo) % 2 ^ n

/-- Bit `i` of a little-endian number, as a truth value. -/
def bit (w i : Nat) : Bool := bits w i 1 == 1

end Sys2Proof
end

