-- ==== Sys2Proof/Syntax.lean ====
section
/-!
DEFINITION. The commands of the HJ-8192 block: one constructor of `Instr` for every row of opcode_table.json, with
the operands the row's event carries.
-/

namespace Sys2Proof

/-- What the host answers to the device's reads of host memory during a row: the bytes the host holds (those it has changed are
listed), a failed completion of every read (R441, R310), poisoned data in every one (R441), or bytes with the addresses whose read
fails, each with whether its data are poisoned instead. -/
inductive HostReply where
  | data (cells : List (Nat × Byte))
  | error
  | poisoned
  | partly (cells : List (Nat × Byte)) (bad : List (Nat × Bool))
  deriving DecidableEq, Repr

/-- The operation a row acts on: a queue and a tag (R327), with the host's answers. -/
structure OpRef where
  q : Nat
  tag : Nat
  host : HostReply := .data []
  deriving DecidableEq, Repr

/-- A host memory request: the function it reaches (R428), whether its data are poisoned (R444), and the selective
IDE stream it arrives in, if any (R446). -/
structure Req where
  fn : Nat
  poisoned : Bool := false
  ide : Option Nat := none
  deriving DecidableEq, Repr

/-- What a scrubber finds in a sector or row (R484, R485, R488). -/
inductive Finding where
  | clean
  | correctable
  | uncorrectable
  deriving DecidableEq, Repr

/-- The transports of the SPDM responder (R448). -/
inductive Transport where
  | doe
  | mctp
  deriving DecidableEq, Repr

/-- An SPDM request: its transport, the session it travels in, and its bytes after the message code. -/
structure SpdmReq where
  via : Transport
  session : Option Nat := none
  body : List Byte := []
  deriving DecidableEq, Repr

/-- What a start sequence meets (R514, R518): the spindles and lathes that fail self-test. -/
structure StartIn where
  badSpindles : List Nat := []
  badLathes : List Nat := []
  deriving DecidableEq, Repr

/-- A fabric packet: its 512-bit header and its data flits' bytes (R384). -/
structure Packet where
  hdr : Nat
  data : List Byte := []
  deriving DecidableEq, Repr

/-- How a frame's two codewords decode (R383): with a number of codewords corrected, or not at all. -/
inductive Fec where
  | corrected (n : Nat)
  | uncorrectable
  deriving DecidableEq, Repr

/-- A HELLO's fields (R389). -/
structure Hello where
  podId : Nat
  devId : Nat
  shape : Nat
  port : Nat
  epoch : Nat
  gateway : Bool
  deriving DecidableEq, Repr

/-- One link of the pod's map (R393): a device, its port, and whether the link is live. -/
structure LinkNews where
  dev : Nat
  port : Nat
  live : Bool
  deriving DecidableEq, Repr

/-- A ROUTE flit (R393, R397): links and whether they are live, devices and whether they carry the gateway bit (R408), and
devices with their reset epochs. -/
structure RouteNews where
  links : List LinkNews
  gateways : List (Nat × Bool) := []
  epochs : List (Nat × Nat) := []
  deriving DecidableEq, Repr

/-- What a COLL packet carries (R413, R416 to R420). -/
inductive CollBody where
  /-- A part of a member's contribution: its descriptor summary (format, extents, partial count, form), the bytes of the
  whole, and the part's offset and bytes. -/
  | contribution (summary : List Nat) (total off : Nat) (bytes : List Byte)
  /-- A member reports its staging complete. -/
  | staged
  /-- The lowest-numbered member orders the commit. -/
  | commit
  /-- A member reports its copy finished. -/
  | done
  /-- A failure of the collective: its status code, and the address on the failing member when there is one. -/
  | failed (code : Nat) (addr : Option Nat)
  deriving DecidableEq, Repr

/-- What a COLL packet says: its source, the identity of R413, how many collectives the source's queue had issued whose masks
hold the receiver, by which a disagreement shows (DESIGN CHOICE, log 36), and what it carries. -/
structure CollMsg where
  src : Nat
  queue : Nat
  kind : Nat
  members : Nat
  count : Nat
  ord : Nat
  body : CollBody
  deriving DecidableEq, Repr

/-- What the governor's sensors read (R463, R478): draw in 1/16 W, input in 0.1 V, the 32 junction sensors and the
8 stacks in degrees (DESIGN CHOICE, log 33). -/
structure Sample where
  inputP : Nat
  vinDv : Nat
  junctions : List Nat
  hbmTemps : List Nat
  deriving DecidableEq, Repr

/-- One step of a spindle row with its adder group (R73, R78): the spindle, the row, and the error a fault puts on a column
lane's tree sum (0: none). -/
structure StepArgs where
  spindle : Nat
  row : Nat
  errLane : Nat := 0
  err : Int := 0
  deriving DecidableEq, Repr

/-- One group register's rescale (R81): its spindle, slot and entry, and the error a fault puts on the register (0:
none). -/
structure RescaleArgs where
  spindle : Nat
  slot : Nat
  entry : Nat
  err : Int := 0
  deriving DecidableEq, Repr

/-- Why the module shuts down (R593, R594). -/
inductive ShutdownCause where
  | undervoltage
  | overvoltage
  | railFault
  deriving DecidableEq, Repr

/-- The commands: one constructor per row of opcode_table.json, in the table's order. -/
inductive Instr where
  | mmDense (r : OpRef)
  | mmSparse24 (r : OpRef)
  | mmCsr (r : OpRef)
  | mmRough (r : OpRef)
  | mmFinish (r : OpRef)
  | mmAccRead (r : OpRef)
  | mmAccWrite (r : OpRef)
  | mmDrain (r : OpRef)
  | veElementwise (r : OpRef)
  | veReduce (r : OpRef)
  | veSoftmax (r : OpRef)
  | veSoftmaxBwd (r : OpRef)
  | veNorm (r : OpRef)
  | veNormBwd (r : OpRef)
  | veSumPartials (r : OpRef)
  | veKnotFix (r : OpRef)
  | veAmax (r : OpRef)
  | veQuantize (r : OpRef)
  | veTopkMerge (r : OpRef)
  | veOptStep (r : OpRef)
  | ceCopy (r : OpRef)
  | copyCompressPair24 (r : OpRef)
  | copyCompressRows (r : OpRef)
  | copyCompressRoute (r : OpRef)
  | copyCompressActive (r : OpRef)
  | ceTranspose (r : OpRef)
  | ceGather (r : OpRef)
  | ceScatter (r : OpRef)
  | ceFill (r : OpRef)
  | fePut (r : OpRef)
  | feGet (r : OpRef)
  | feAllreduce (r : OpRef)
  | alltoallDispatch (r : OpRef)
  | alltoallCombine (r : OpRef)
  | feWindowOpen (r : OpRef)
  | feWindowClose (r : OpRef)
  | feRelay (r : OpRef)
  | syWait (r : OpRef)
  | sySignal (r : OpRef)
  | syFence (r : OpRef)
  | syPodBarrier (r : OpRef)
  | mgQuery (r : OpRef)
  | mgPowerDomain (r : OpRef)
  | reserveHbm (r : OpRef)
  | reserveBench (r : OpRef)
  | freeHbm (r : OpRef)
  | freeBench (r : OpRef)
  | limitQueue (r : OpRef)
  | limitFunc (r : OpRef)
  | tallyRange (r : OpRef)
  | mgPowerCap (r : OpRef)
  | snapshotSave (r : OpRef)
  | snapshotRestore (r : OpRef)
  | mgStreamBind (r : OpRef)
  | mgPatternLoad (r : OpRef)
  | mgKeepWrite (r : OpRef)
  | mgFwStage (r : OpRef)
  /-- `readBack`: whether the running slot reads back whole at event 5 of R548. -/
  | mgFwActivate (r : OpRef) (readBack : Bool)
  | mgFwConfirm (r : OpRef)
  | fenceUnit (r : OpRef)
  /-- `pass`: whether the unit passes its self-test (R507). -/
  | unfenceUnit (r : OpRef) (pass : Bool)
  | packetAccept (q : Nat) (host : HostReply)
  | commandStart (r : OpRef)
  | commandComplete (r : OpRef)
  | replyWrite (q : Nat)
  | sqTailDoorbell (rq : Req) (q : Nat) (value : BitVec 16)
  | stqHeadDoorbell (rq : Req) (q : Nat) (value : BitVec 16)
  | queueEnable (rq : Req) (q : Nat) (value : BitVec 64)
  | queueReset (rq : Req) (q : Nat) (value : BitVec 64)
  | queueResetForce (rq : Req) (q : Nat) (value : BitVec 64)
  | queueResume (rq : Req) (q : Nat) (value : BitVec 64)
  | tallyWrite (rq : Req) (i : Nat) (value : BitVec 32)
  | keepRegisterWrite (rq : Req) (i : Nat) (value : BitVec 32)
  | engReset (rq : Req) (mask : BitVec 4)
  | engineResetDone (cls : Nat)
  | perfFreeze (rq : Req) (freeze : Bool)
  | perfClear (rq : Req)
  | vlogRelease (rq : Req) (head : BitVec 8)
  | tripClear (rq : Req)
  | regionEntryWrite (rq : Req) (lathe k : Nat) (value : BitVec 64)
  | bar2WinWrite (rq : Req) (f : Nat) (base : BitVec 32)
  | qstatWrite (rq : Req) (q : Nat) (value : BitVec 32)
  | timestampLatchRead (rq : Req)
  | registerWrite (rq : Req) (offset size : Nat) (value : BitVec 64)
  | bar2Read (rq : Req) (offset len : Nat)
  | bar2Write (rq : Req) (offset : Nat) (bytes : List Byte)
  | vfFunctionLevelReset (f : Nat)
  | pfFunctionLevelReset
  | vfEnableClear
  | d3hotEntry (f : Nat)
  | d0Return (f : Nat)
  | busMasterEnableChange (f : Nat) (on : Bool)
  | bar2Resize (f log2GiB : Nat)
  | ideStreamExit (stream : Nat)
  | ideKm (m : SpdmReq) (stream : Nat)
  | doeDiscovery (index : Nat)
  | getVersion (m : SpdmReq)
  | getCapabilities (m : SpdmReq)
  | negotiateAlgorithms (m : SpdmReq)
  | getDigests (m : SpdmReq)
  | getCertificate (m : SpdmReq) (slot : Nat)
  | challenge (m : SpdmReq) (slot : Nat)
  | getMeasurements (m : SpdmReq) (signed : Bool)
  | keyExchange (m : SpdmReq) (slot : Nat)
  | finish (m : SpdmReq) (session : Nat)
  | heartbeat (m : SpdmReq)
  | keyUpdate (m : SpdmReq)
  | endSession (m : SpdmReq)
  | chunkSend (m : SpdmReq)
  | chunkGet (m : SpdmReq)
  | getPqSig (m : SpdmReq)
  | recoveryStage (block : Nat) (data : List Byte)
  | recoveryActivate (readBack : Bool)
  | setdasa (addr : BitVec 7)
  | entdaa (addr : BitVec 7)
  | readTelemetry
  | readId
  | identify
  | powerOn (vinDv : Nat) (slotId : BitVec 3)
  | perstDeassert (st : StartIn)
  | perstAssert
  | hotReset (st : StartIn)
  | pcieLinkLoss (st : StartIn)
  | pwrEnFall
  | powerShutdown (cause : ShutdownCause)
  | padIdentifyTouch
  | padHold3s
  | padQuiesceRelease
  | padSelftestRequest
  | padSelftestDone (st : StartIn)
  | identifyExpiry
  | frameReceive (port : Nat) (fec : Fec) (message : Nat)
  | linkFlit (port : Nat) (flit : Nat)
  | replayLimitRetrain (port : Nat)
  | helloFlit (port : Nat) (h : Hello)
  | routeFlit (port : Nat) (news : RouteNews)
  | routeRecompute
  | writePacket (p : Packet)
  | readPacket (p : Packet)
  | dataPacket (p : Packet)
  | respPacket (p : Packet)
  | collPacket (p : Packet)
  | relayPacket (p : Packet)
  | replyPacket (p : Packet)
  | retransmitTimeout (dst txn : Nat)
  | laneFailure (port : Nat) (whole : BitVec 8)
  | cablePull (port : Nat)
  | cableInsert (port : Nat)
  | portQuiesced (port : Nat)
  | portRejoinTimer (port : Nat)
  | fabricWindowTick
  | bridgeCrcFail
  | bridgeRetrain
  | bridgeRetrainFail
  | governorSample (x : Sample)
  | hotTimer
  | thermalTrip
  | domainDrainDone (d : Nat)
  | domainDrainTimeout (d addr : Nat)
  | domainOnComplete (d : Nat)
  | patrolScrub (addr : Nat) (found : Finding)
  | benchScrub (lathe row : Nat) (found : Finding)
  | watchdogExpiry
  | spindleStep (x : StepArgs)
  | chuckSwap (spindle : Nat)
  | groupRescale (x : RescaleArgs)
  | tileDrain (spindle set : Nat)
  | bar0Read (rq : Req) (offset size : Nat)
  | portTrainingComplete (port : Nat) (whole : BitVec 8)
  deriving DecidableEq, Repr

end Sys2Proof
end

