-- ==== Sys2Proof/Decode.lean ====
section
/-!
DEFINITION. The block's commands are events, not words: no row of opcode_table.json gives bits, so that no word
spells a command.
-/

namespace Sys2Proof

/-- The command a word of `nbits` bits spells: none, since the table gives no row any bits. -/
def decodeTableWord (_nbits _w : Nat) : Option Instr := none

end Sys2Proof
end

