-- ==== Sys2Proof/Machine/Table.lean ====
section
/-!
DEFINITION. Sparse tables and byte lists: the one place where a table is read and written, and where bytes become
little-endian numbers (R4).
-/

namespace Sys2Proof.Machine

/-- The value at key `k`, or the default `d`. -/
def tget {α : Type} (d : α) (t : SMap α) (k : Nat) : α :=
  match t with
  | [] => d
  | (i, v) :: r => if i = k then v else tget d r k

/-- The table without key `k`. -/
def tdel {α : Type} (t : SMap α) (k : Nat) : SMap α :=
  match t with
  | [] => []
  | (i, v) :: r => if i = k then tdel r k else (i, v) :: tdel r k

/-- The table with `v` at key `k`, keys kept rising; `v` need not differ from the default. -/
def tins {α : Type} (t : SMap α) (k : Nat) (v : α) : SMap α :=
  match t with
  | [] => [(k, v)]
  | (i, w) :: r => if i = k then (k, v) :: r else if k < i then (k, v) :: (i, w) :: r else (i, w) :: tins r k v

/-- Write `v` at key `k`; a value equal to the default removes the entry. -/
def tput {α : Type} [DecidableEq α] (d : α) (t : SMap α) (k : Nat) (v : α) : SMap α :=
  if v = d then tdel t k else tins t k v

/-- Every entry whose key satisfies `p`. -/
def tkeep {α : Type} (p : Nat → Bool) (t : SMap α) : SMap α := t.filter fun e => p e.1

/-! ### Bytes -/

/-- The little-endian number of a list of bytes (R4). -/
def leNat : List Byte → Nat
  | [] => 0
  | b :: r => b.toNat + 256 * leNat r

/-- The `n` little-endian bytes of a number (R4). -/
def leBytes : Nat → Nat → List Byte
  | 0, _ => []
  | n + 1, w => BitVec.ofNat 8 w :: leBytes n (w / 256)

/-- A two's-complement field of `n` bits as an integer. -/
def sext (n w : Nat) : Int := if w % 2 ^ n < 2 ^ (n - 1) then ((w % 2 ^ n : Nat) : Int) else ((w % 2 ^ n : Nat) : Int) - 2 ^ n

/-- Replace bits `[lo + n - 1 : lo]` of `w` by the low `n` bits of `v`. -/
def setBits (w lo n v : Nat) : Nat := w - bits w lo n * 2 ^ lo + (v % 2 ^ n) * 2 ^ lo

/-- Ceiling division. -/
def cdiv (a b : Nat) : Nat := if b = 0 then 0 else (a + b - 1) / b

/-- The bit of a truth value. -/
def b2n (b : Bool) : Nat := if b then 1 else 0

/-! ### Byte memories -/

/-- A byte of a sparse memory; an unlisted byte reads zero. -/
def memByte (m : List Host.Cell) (a : Nat) : Byte := tget 0#8 m a

/-- Write one byte; a zero removes the entry, so that equal memories are equal lists. -/
def memPut (m : List Host.Cell) (a : Nat) (b : Byte) : List Host.Cell := tput 0#8 m a b

/-- `n` bytes from address `a`. -/
def memRead (m : List Host.Cell) (a : Nat) : Nat → List Byte
  | 0 => []
  | n + 1 => memByte m a :: memRead m (a + 1) n

/-- The cells of a list of bytes from address `a`; a zero byte has none. -/
def cellsOf (a : Nat) : List Byte → List Host.Cell
  | [] => []
  | b :: r => if b = 0#8 then cellsOf (a + 1) r else (a, b) :: cellsOf (a + 1) r

/-- Write a list of bytes from address `a`. -/
def memWrite (m : List Host.Cell) (a : Nat) (bs : List Byte) : List Host.Cell :=
  match m with
  | [] => cellsOf a bs
  | c :: r => if c.1 < a then c :: memWrite r a bs else cellsOf a bs ++ (c :: r).filter fun d => a + bs.length ≤ d.1

/-- The memory with every byte outside the range `[lo, hi)`. -/
def memClear (m : List Host.Cell) (lo hi : Nat) : List Host.Cell := m.filter fun c => c.1 < lo || hi ≤ c.1

/-- The canonical form of a sparse memory: addresses strictly rising, no byte listed that reads as unlisted. -/
def memWf (m : List Host.Cell) : Bool :=
  match m with
  | [] => true
  | [c] => c.2 != 0#8
  | c :: d :: r => c.2 != 0#8 && decide (c.1 < d.1) && memWf (d :: r)

end Sys2Proof.Machine
end

