-- ==== Sys2Proof/Machine/Crc.lean ====
section
/-!
DEFINITION. The checks on bytes: CRC-32C (R48, R376, R384, R538) and the CRC-16 of a link frame (R382). The spec names
the codes; their bit order and initial and final values are the usual ones of their names (PRESUMED, log 34).
-/

namespace Sys2Proof.Machine

/-- `n` bits of a reflected CRC-32C. -/
def crc32cBits : Nat → BitVec 32 → BitVec 32
  | 0, c => c
  | n + 1, c => crc32cBits n (if c.getLsbD 0 then (c >>> 1) ^^^ 0x82F63B78#32 else c >>> 1)

/-- CRC-32C (Castagnoli) of a list of bytes. -/
def crc32c (bs : List Byte) : Nat :=
  (~~~(bs.foldl (fun c b => crc32cBits 8 (c ^^^ (b.setWidth 32 : BitVec 32))) 0xFFFFFFFF#32)).toNat

/-- A linear map on CRC states, as what it makes of each bit. -/
abbrev CrcMap := List (BitVec 32)

/-- Apply a linear map. -/
def CrcMap.app (m : CrcMap) (c : BitVec 32) : BitVec 32 :=
  (m.zipIdx.filter fun x => c.getLsbD x.2).foldl (fun r x => r ^^^ x.1) 0#32

/-- What a zero byte makes of a state. -/
def crcZero : CrcMap := (List.range 32).map fun i => crc32cBits 8 (BitVec.ofNat 32 (2 ^ i))

/-- What `n` zero bytes make of a state, by repeated squaring; `k` bounds the bits of `n`. -/
def crcZeros : Nat → CrcMap → Nat → BitVec 32 → BitVec 32
  | 0, _, _, c => c
  | k + 1, m, n, c =>
    if n = 0 then c else crcZeros k (m.map m.app) (n / 2) (if n % 2 = 1 then m.app c else c)

/-- CRC-32C of the bytes at `[lo, hi)` of a sparse memory. -/
def crc32cCells (m : List Host.Cell) (lo hi : Nat) : Nat :=
  let x := (m.filter fun c => lo ≤ c.1 && c.1 < hi).foldl (fun (x : BitVec 32 × Nat) c =>
    (crc32cBits 8 (crcZeros 64 crcZero (c.1 - x.2) x.1 ^^^ (c.2.setWidth 32 : BitVec 32)), c.1 + 1)) (0xFFFFFFFF#32, lo)
  (~~~(crcZeros 64 crcZero (hi - x.2) x.1)).toNat

/-- `n` bits of the CRC of R382. -/
def crc16Bits : Nat → BitVec 16 → BitVec 16
  | 0, c => c
  | n + 1, c => crc16Bits n (if c.getLsbD 15 then (c <<< 1) ^^^ 0x1021#16 else c <<< 1)

/-- CRC-16 with polynomial 0x1021 and initial value 0xFFFF of the low `n` bytes of a number, lowest first. -/
def crc16 (n w : Nat) : Nat :=
  ((leBytes n w).foldl (fun c b => crc16Bits 8 (c ^^^ ((b.setWidth 16 : BitVec 16) <<< (8 : Nat)))) 0xFFFF#16).toNat

end Sys2Proof.Machine
end

