-- ==== Sys2Proof/Machine/Num.lean ====
section
/-!
DEFINITION. Exact arithmetic and its roundings: rationals, the nearest integer with ties away from zero, canonical
signed digits (R72), and the extended values (infinities and NaN) of R110 and R129.
-/

namespace Sys2Proof.Machine

/-- 2 to the power `e`. -/
def pow2 (e : Int) : Rat := if 0 ≤ e then ((2 ^ e.toNat : Nat) : Rat) else mkRat 1 (2 ^ (-e).toNat)

/-- The magnitude of a rational. -/
def rabs (x : Rat) : Rat := if x < 0 then -x else x

/-- The greatest integer at or below `x`. -/
def rfloor (x : Rat) : Int := x.num / (x.den : Int)

/-- The least integer at or above `x`. -/
def rceil (x : Rat) : Int := -rfloor (-x)

/-- The nearest natural number to a magnitude, ties away from zero. -/
def rndMag (x : Rat) : Nat := (rfloor (x + mkRat 1 2)).toNat

/-- The nearest integer, ties away from zero. -/
def rnd (x : Rat) : Int := if x < 0 then -(rndMag (-x) : Int) else (rndMag x : Int)

/-- floor(log2 x) of a positive rational. -/
def ilog2 (x : Rat) : Int :=
  let k : Int := (Nat.log2 x.num.natAbs : Int) - (Nat.log2 x.den : Int)
  if pow2 k ≤ x then (if pow2 (k + 1) ≤ x then k + 1 else k) else k - 1

/-- Bit length. -/
def bitLen (n : Nat) : Nat := if n = 0 then 0 else Nat.log2 n + 1

/-- The canonical signed digits of a magnitude, most significant first: sign and position. `n` bounds the bits. -/
def csdGo : Nat → Nat → Nat → List (Bool × Nat) → List (Bool × Nat)
  | 0, _, _, acc => acc
  | n + 1, x, pos, acc =>
    if x % 2 = 1 then
      if x % 4 = 1 then csdGo n ((x - 1) / 2) (pos + 1) ((false, pos) :: acc)
      else csdGo n ((x + 1) / 2) (pos + 1) ((true, pos) :: acc)
    else csdGo n (x / 2) (pos + 1) acc

def csd (mag : Nat) : List (Bool × Nat) := csdGo (bitLen mag + 1) mag 0 []

/-- An extended exact value: the exact arithmetic of R127 gives zero no sign (R610). -/
inductive Ext where
  | fin (x : Rat)
  | pinf
  | ninf
  | nan
  deriving DecidableEq, Repr

/-- The infinity of a sign. -/
def infOf (neg : Bool) : Ext := if neg then .ninf else .pinf

/-- A sum of extended values, and whether it makes a NaN from non-NaN operands (R110, R112). -/
def extAdd (a b : Ext) : Ext × Bool :=
  match a, b with
  | .nan, _ => (.nan, false)
  | _, .nan => (.nan, false)
  | .fin x, .fin y => (.fin (x + y), false)
  | .fin _, y => (y, false)
  | x, .fin _ => (x, false)
  | .pinf, .pinf => (.pinf, false)
  | .ninf, .ninf => (.ninf, false)
  | _, _ => (.nan, true)

/-- A product of extended values, and whether it makes a NaN from non-NaN operands (0 × inf, R128). -/
def extMul (a b : Ext) : Ext × Bool :=
  match a, b with
  | .nan, _ => (.nan, false)
  | _, .nan => (.nan, false)
  | .fin x, .fin y => (.fin (x * y), false)
  | .fin x, .pinf => if x = 0 then (.nan, true) else (infOf (x < 0), false)
  | .fin x, .ninf => if x = 0 then (.nan, true) else (infOf (0 < x), false)
  | .pinf, .fin x => if x = 0 then (.nan, true) else (infOf (x < 0), false)
  | .ninf, .fin x => if x = 0 then (.nan, true) else (infOf (0 < x), false)
  | .pinf, .pinf => (.pinf, false)
  | .ninf, .ninf => (.pinf, false)
  | .pinf, .ninf => (.ninf, false)
  | .ninf, .pinf => (.ninf, false)

/-- The negation of an extended value. -/
def extNeg (a : Ext) : Ext :=
  match a with
  | .fin x => .fin (-x)
  | .pinf => .ninf
  | .ninf => .pinf
  | .nan => .nan

/-- `a < b` for extended values; a NaN is below nothing and above nothing. -/
def extLt (a b : Ext) : Bool :=
  match a, b with
  | .nan, _ => false
  | _, .nan => false
  | .fin x, .fin y => decide (x < y)
  | .ninf, .ninf => false
  | .ninf, _ => true
  | _, .ninf => false
  | .pinf, _ => false
  | _, .pinf => true

/-! ### Roundings to significant bits -/

/-- `x` rounded to `p` significant bits, to nearest with ties away from zero (R82). -/
def roundSig (p : Nat) (x : Rat) : Rat :=
  if x = 0 then 0
  else
    let l := ilog2 (rabs x) - ((p : Int) - 1)
    pow2 l * ((rnd (x / pow2 l) : Int) : Rat)

end Sys2Proof.Machine
end

