-- ==== Sys2Proof/Config.lean ====
section
/-!
DEFINITION. What an implementation fixes and the spec does not give: free values. Each is opaque, so that a claim
holds whatever it is. The constants the spec states stand in the definitions that use them.
-/

namespace Sys2Proof.Config

/-- A free number, one for each index: a value the spec leaves open after a step (DESIGN CHOICE, log 6). -/
opaque freeNat : Nat → Nat

/-- The code a Vector Engine element takes where the spec states no value, by the operation and its operands' codes: the
reciprocal root of a number that is not positive (0), the ADAMW step whose quotient is not stated (1) (DESIGN CHOICE, log 6). -/
opaque undefCode : Nat → List Nat → Nat

/-- Bytes of a range that the spec leaves as any mixture: byte `b` of the range at index `n` (R512, DESIGN CHOICE, log 43). -/
opaque freeByte : Nat → Nat → Byte

/-- The low bits of a shaved group register at free index `n` (R271, DESIGN CHOICE, log 13). -/
opaque shavedBits : Nat → Nat → Nat

/-- The value of entry `i` of the default pattern table in slot `s`, by the digest of the component 6 that carries it (R53, R541,
DESIGN CHOICE, log 9). -/
opaque defaultEntry : List Byte → Nat → Nat → Nat

/-- The code width, value width and digits bit of that table (DESIGN CHOICE, log 9). -/
opaque defaultShape : List Byte → Nat → Nat

/-- Scerad's PCI-SIG vendor ID (R571, DESIGN CHOICE, log 10). -/
opaque vendorId : BitVec 16
/-- STEPPING of R571 (DESIGN CHOICE, log 10). -/
opaque stepping : BitVec 8
/-- SERIAL of R571 (DESIGN CHOICE, log 10). -/
opaque serial : BitVec 64
/-- ID_MFG of R571 (DESIGN CHOICE, log 10). -/
opaque mfg : BitVec 64
/-- FLEET_ID of R561 (DESIGN CHOICE, log 10). -/
opaque fleetId : BitVec 32
/-- The signed portion (payload bytes 0 to 831) of the image the module ships with (R540 to R542, DESIGN CHOICE, log 10). -/
opaque shippedCutlist : List Byte
/-- The cell values of the loader region (R564 index 1), as their digest (DESIGN CHOICE, log 10). -/
opaque loaderDigest : List Byte

/-- SHA-384, as an opaque function (R541, R564, DESIGN CHOICE, log 11). -/
opaque sha384 : List Byte → List Byte
/-- Whether a 64-byte Ed25519 signature verifies under the loader's key (R542, DESIGN CHOICE, log 11). -/
opaque ed25519Ok : List Byte → List Byte → Bool
/-- Whether an ML-DSA-65 signature verifies under the loader's key (R542, DESIGN CHOICE, log 11). -/
opaque mlDsaOk : List Byte → List Byte → Bool
/-- The content key unwrapped from a 40-byte wrapped key under the fleet key, when it unwraps (R540, R544, DESIGN CHOICE, log 11). -/
opaque unwrapKey : List Byte → Option (List Byte)
/-- AES-256-GCM opening: key, nonce, additional data, ciphertext with tag; the plaintext when the tag is valid (R543, DESIGN CHOICE, log 11). -/
opaque gcmOpen : List Byte → Nat → List Byte → List Byte → Option (List Byte)
/-- The 256-bit device secret in the fuses (R562, DESIGN CHOICE, log 11). -/
opaque deviceSecret : BitVec 256
/-- The Ed25519 signature of a message under the key of a seed (R449, R562, DESIGN CHOICE, log 11). -/
opaque edSign : List Byte → List Byte → List Byte
/-- The ML-DSA-65 signature under the key of a seed ξ, of a context string and a message (R449, R562, DESIGN CHOICE, log 11). -/
opaque pqSign : List Byte → List Byte → List Byte → List Byte
/-- The body of an SPDM response, which the SPDM specification fixes and this spec does not (R448, DESIGN CHOICE, log 11). -/
opaque spdmBody : Nat → List Byte → List Byte
/-- The certificate chain of slot 0 or 1 (R563): of the DeviceID seed, the alias seed and the signed portion of the image that
runs (DESIGN CHOICE, log 11). -/
opaque certChain : Nat → List Byte → List Byte → List Byte → List Byte
/-- Records that the journal's ring holds beside the two newest, a number that the spec does not state (R550; DESIGN CHOICE, log 10). -/
opaque journalRecords : Nat
/-- The flits that the receive buffers of a virtual channel of an N-port hold (R386, DESIGN CHOICE, log 36). -/
opaque rxBuffer : Nat → Nat
/-- The 300 parity bits of a Reed–Solomon RS(544,514) codeword over a message of 5,140 bits, whose field and generator
polynomials R382 does not give (DESIGN CHOICE, log 36). -/
opaque rsParity : Nat → Nat

end Sys2Proof.Config
end

