-- ==== Sys2Proof/Machine/State.lean ====
section
/-!
DEFINITION. The state of the HJ-8192 block: every register, store, queue, counter, mode and pin the spec names, as
plain data, and the state after reset. A sparse table lists only what differs from its default.
-/

namespace Sys2Proof.Machine

/-- No row of the model ends in a fault: every fault of the spec is answered and logged (R334, R482). The one
constructor is raised by no row; it is safe. -/
inductive Fault where
  /-- Raised by no row; safe. -/
  | unreachable
  deriving DecidableEq, Repr

/-- Why a row has no effect to give. -/
inductive Refusal where
  /-- An arm of `exec` that has no meaning yet; safe. -/
  | notModelled (mnemonic : String)
  /-- The row is an event of something that is not there in this state (an operation that is not started, a timer
  that is not running, a pin that is already at its level), so it cannot occur; raised by the event's meaning; safe
  (DEDUCED, log 7). -/
  | notEnabled
  deriving DecidableEq, Repr

/-! ### Sections of the state -/

/-- Module pins and power input (R589 to R596). -/
structure Pins where
  pwrEn : Bool
  perstN : Bool
  /-- Every rail is up; PWR_GOOD is released high exactly then (R589). -/
  railsUp : Bool
  /-- The shutdown latch (R594). -/
  shutdown : Bool
  slotId : BitVec 3
  i3cAddr : Option (BitVec 7)
  deriving DecidableEq, Repr

/-- Global control and status (R525, R502, R574, R447, R460, R575, R389). -/
structure Glob where
  /-- Configuration requests complete normally (event 4 of R424). -/
  cfgUp : Bool
  ready : Bool
  selftest : Bool
  warm : Bool
  rolledBack : Bool
  fwPending : Bool
  stFenced : BitVec 8
  engBusy : BitVec 4
  /-- The next start is a cold one (R513). -/
  coldPending : Bool
  /-- The running self-test was asked for by the pad (R528). -/
  padTest : Bool
  /-- This start's self-test completed (R555). -/
  selftestDone : Bool
  devEvent : BitVec 4
  vlogVec : BitVec 11
  devVec : BitVec 11
  ideEnforce : Bool
  timestamp : BitVec 64
  tsLatch : Option (BitVec 32)
  seed : SMap (BitVec 32)
  bar2Win : SMap (BitVec 9)
  epoch : BitVec 16
  deriving DecidableEq, Repr

/-- One PCI Express function: its Command register's bits, its power state, its Device and Link Control settings and its error
registers (R421, R427, R435, R440 to R444; the settings' reset values are PRESUMED, log 69). -/
structure Func where
  busMaster : Bool
  memSpace : Bool
  d3hot : Bool
  /-- Enable Relaxed Ordering (R442). -/
  relaxed : Bool
  bar2Log : Nat
  /-- Max Payload Size and Max Read Request Size in bytes, 14-bit tags as requester, the Completion Timeout Value, and ASPM L1
  (R421, R441). -/
  maxPayload : Nat
  maxRead : Nat
  tags14 : Bool
  timeout : BitVec 4
  aspmL1 : Bool
  /-- Advanced Error Reporting: the status registers of uncorrectable and of correctable errors (R421, R444). -/
  aerUncor : BitVec 32
  aerCor : BitVec 32
  deriving DecidableEq, Repr

/-- A selective IDE stream (R446, R447): whether keys have been programmed, whether it is in its secure state, the ranges of
BAR0 and of BAR2 that its address association registers cover (each with its BAR, first offset and end), and the ranges of
host addresses. -/
structure IdeStream where
  keyed : Bool
  secure : Bool
  bars : List (Nat × Nat × Nat)
  host : List (Nat × Nat)
  deriving DecidableEq, Repr

/-- A stream after reset: no keys, and the whole of BAR0 and BAR2 in its registers, which the host's configuration writes set
and no row does (DESIGN CHOICE, log 69). -/
def IdeStream.reset : IdeStream := ⟨false, false, [(0, 0, 2 ^ 64), (2, 0, 2 ^ 64)], []⟩

/-- The PCI Express port (R428 to R447). -/
structure Pcie where
  /-- Functions 0 to 16, where they differ from `Func.reset`. -/
  funcs : SMap Func
  vfEnable : Bool
  /-- MSI-X table entries, 128 bits each, at key 4096 × function + vector (R432, R433). -/
  msix : SMap (BitVec 128)
  /-- MSI-X pending bits, at the same keys (R432, R440). -/
  pba : SMap Bool
  /-- Selective IDE streams 0 to 3 (R446, R447). -/
  ide : SMap IdeStream
  deriving DecidableEq, Repr

/-- A word of the core domain's state that SECDED guards (R491). -/
inductive CoreWord where
  | tally (i : Nat)
  | window (i : Nat)
  | queue (q : Nat)
  | route (dev : Nat)
  | tag (q t : Nat)
  deriving DecidableEq, Repr

/-- A latent error that a guard will find (R483 to R491, DESIGN CHOICE, log 16): in HBM a wrong 16-bit symbol of a sector,
data or check symbol; in a store that SECDED guards a wrong bit of a 64-bit word or of its check bits, in a store with parity
a word of wrong parity. -/
inductive Upset where
  | hbm (sector symbol : Nat)
  | bench (word bit : Nat)
  | acc (spindle slot entry bit : Nat)
  | core (w : CoreWord) (bit : Nat)
  | pattern (lathe slot : Nat)
  | region (lathe k : Nat)
  | matchUnit (lathe : Nat)
  /-- A buffer of a tailstock: of the held operand's channel or the fed one's, the second buffer or the first (R279, R490). -/
  | tailstock (lathe : Nat) (held second : Bool)
  deriving DecidableEq, Repr

/-- The memories: device addresses (HBM of R16 and benches of R147) and the host's. -/
structure Mems where
  /-- HBM and benches by device address; an unlisted byte reads zero (R514 event 8, R149). -/
  dev : List Host.Cell
  /-- The host's memory as the device has it, in each function's own bus addresses: byte `a` of function `f` at key
  2⁶⁴ × f + a (R431). -/
  host : List Host.Cell
  /-- First addresses of poisoned HBM sectors (R486). -/
  poison : List Nat
  upsets : List Upset
  deriving DecidableEq, Repr

/-- A circular region's table entry and its slots' counts of consuming reads (R165, R168). -/
structure Region where
  base : BitVec 12
  slots : BitVec 12
  slotRowsM1 : BitVec 8
  readersM1 : BitVec 6
  enable : Bool
  head : BitVec 12
  tail : BitVec 12
  fill : BitVec 12
  counts : SMap Nat
  deriving DecidableEq, Repr

/-- A pattern slot (R48, R49): empty, the default table of the image, or a loaded image's header and entries. -/
inductive PatSlot where
  | empty
  | preset
  | table (header : BitVec 128) (entries : List (BitVec 64))
  deriving DecidableEq, Repr

/-- The state of an accumulator set (R100). -/
inductive SetState where
  | free
  | working
  | opened
  | draining
  deriving DecidableEq, Repr

/-- A tile of an open set: its slot and the output positions it holds (R195). -/
structure Tile where
  slot : Nat
  batch : Nat
  /-- First index along the fed dimension. -/
  fed0 : Nat
  /-- First index along the held dimension. -/
  held0 : Nat
  deriving DecidableEq, Repr

/-- An open set: which set, whose queue, and the descriptor pointer of the `MM.ROUGH` that left it, if one did
(R117, R118, R261). -/
structure OpenSet where
  set : Nat
  q : Nat
  rough : Option Nat
  deriving DecidableEq, Repr

/-- The words of a chuck, at key 16 × row + column (R70), in a 2:4 chuck the metadata index of every held lane, at key
128 × row + lane (R216, R218), and the residue modulo 7 of every held lane's integer, at the same keys (R493). -/
structure ChuckWords where
  words : SMap (BitVec 32)
  sel : SMap Nat
  res : SMap Nat
  deriving DecidableEq, Repr

/-- A group register that waits in the draining set (R95): its key, the chuck that completed it, its sum and its running
residue (R493). -/
structure Waiting where
  key : Nat
  chuck : Nat
  reg : Int
  res : Nat
  deriving DecidableEq, Repr

/-- The command a spindle steps through (R76): its queue and tag, the number of chucks that have swapped in, each set's
round of tiles (counted from 1), the steps and empty advances it has counted, and the sets as they stood when it began. -/
structure Job where
  q : Nat
  tag : Nat
  chuck : Nat
  rounds : SMap Nat
  steps : Nat
  empty : Nat
  acc0 : SMap (BitVec 64)
  tags0 : SMap (BitVec 16)
  set00 : SetState
  set10 : SetState
  next0 : Bool
  opened0 : Option OpenSet
  tiles0 : List Tile
  deriving DecidableEq, Repr

/-- One spindle's stores (R70, R74, R76, R79, R95, R100, R114, R122). -/
structure Spindle where
  /-- The working chuck, and the loading one when it is complete. -/
  held : ChuckWords
  loading : Option ChuckWords
  job : Option Job
  /-- By adder group: the fed vectors it has finished, the steps it has taken over the next one, and those it has taken
  over the chuck (R78, R79). -/
  pos : SMap (Nat × Nat × Nat)
  /-- Group registers, at key 256 × slot + entry (R74), and their running residues modulo 7 (R493). -/
  regs : SMap Int
  resids : SMap Nat
  /-- The draining set of group registers (R95). -/
  drain : List Waiting
  /-- An A16 entry's group result that waits for its pair, as its mantissa m coded 2 m + 1 and its
  exponent, or (2, 0) for NaN, at the same keys (R107). -/
  pair : SMap (Int × Int)
  /-- Accumulator entries, at key 256 × slot + entry (R103, R105, R107, R253). -/
  acc : SMap (BitVec 64)
  tags : SMap (BitVec 16)
  set0 : SetState
  set1 : SetState
  /-- The next-set pointer (R122): false names set 0. -/
  next1 : Bool
  opened : Option OpenSet
  tiles : List Tile
  /-- When its first residue failure and first accumulator failure were, for R503. -/
  firstResidue : Option (BitVec 64)
  firstAccErr : Option (BitVec 64)
  deriving DecidableEq, Repr

/-- A lathe's match unit (R237): the command and the match pass it is filled for (its bench tile's first indices, its
K extent's first index and its number), and its entries, at key 4 × set + way: a K index, its chuck in the pass and its
row. -/
structure MatchUnit where
  q : Nat
  tag : Nat
  pass : List Nat
  entries : SMap (Nat × Nat × Nat)
  deriving DecidableEq, Repr

/-- A channel of a lathe's tailstock: two buffers of up to 16 stored lines of 512 bytes, and whether the second one is filled
next (R279). -/
structure TailChannel where
  first : List (List Byte)
  second : List (List Byte)
  next1 : Bool
  deriving DecidableEq, Repr

/-- An open set that its queue lost with a spindle (R120): the spindle, the queue and its tiles. -/
structure LostSet where
  spindle : Nat
  q : Nat
  tiles : List Tile
  deriving DecidableEq, Repr

/-- The compute dies: region tables, pattern stores, spindles and the fence map. -/
structure Dies where
  /-- Regions at key 64 × lathe + k. -/
  regions : SMap Region
  /-- Pattern slots at key 64 × lathe + slot, where they differ from the state after a start. -/
  patterns : SMap PatSlot
  spindles : SMap Spindle
  /-- Match units by lathe, where they are filled (R237). -/
  matches_ : SMap MatchUnit
  /-- Tailstock channels, at key 2 × lathe for the held operand's and 2 × lathe + 1 for the fed one's (R279). -/
  tails : SMap TailChannel
  fencedSpindles : List Nat
  fencedLathes : List Nat
  /-- Lost open sets that the queue has not written again. -/
  lost : List LostSet
  deriving DecidableEq, Repr

/-- The moments of a command's life (R314 to R317): taken from the ring, started, its body waiting for something
outside (answers, a domain's drain), and ended with its status. -/
inductive Phase where
  | accepted
  | started
  | waiting
  | ended
  deriving DecidableEq, Repr

/-- A collective's place among those that its queue has issued (R413). -/
structure CollPlace where
  members : Nat
  count : Nat
  ords : List (Nat × Nat)
  deriving DecidableEq, Repr

/-- An operation in flight (R327). -/
structure Op where
  q : Nat
  tag : Nat
  /-- The packet's 64 bytes as a little-endian number (R311). -/
  packet : Nat
  phase : Phase
  /-- The layer descriptor and reference block, as read at the start (R313, R351). -/
  desc : Nat
  aux : Nat
  /-- The row count read at `m_ptr`, when `m_dyn` is set (R352). -/
  mCount : Option Nat
  /-- The device seed as read at the start (R575). -/
  seed : Nat
  /-- Resident-operand mapping, fixed at acceptance (R197). -/
  resident : Bool
  /-- The default grit level as it stood at the start (R270, R534). -/
  grit : Nat
  /-- The default scale policy as it stood at the start (R61, R534). -/
  policy : Nat
  /-- The consumer index given at acceptance, or named by a replay (R298, R301), and the epoch it draws under. -/
  ci : Nat
  epoch : Nat
  /-- The status, sticky flags and fault address so far (R329 to R332). -/
  status : Nat
  flags : BitVec 8
  faultAddr : Nat
  addrKind : Nat
  remoteId : Nat
  /-- The signals have been applied already (`SY.SIGNAL`, R321). -/
  signalled : Bool
  /-- The packet came into its ring by a relay (R409, R410). -/
  relayed : Bool
  /-- A collective's place among those its queue has issued, fixed at acceptance (R413): the mask it was counted under, its
  number, and how many collectives with each other member the queue had issued before (DESIGN CHOICE, log 36). -/
  place : Option CollPlace
  deriving DecidableEq, Repr

/-- The registers and rings of one queue (R304 to R309, R266, R579). -/
structure Queue where
  enable : Bool
  loc : Bool
  forerunner : Bool
  haltOnErr : Bool
  weight : BitVec 4
  confine : Bool
  halted : Bool
  func : BitVec 5
  sqLog2 : BitVec 5
  stqLog2 : BitVec 5
  msix : BitVec 11
  sqBase : BitVec 64
  stqBase : BitVec 64
  sqTail : BitVec 16
  sqHead : BitVec 16
  stqHead : BitVec 16
  stqTail : BitVec 16
  phase : Bool
  /-- A queue reset waits for its replies to be written (R525). -/
  resetting : Bool
  /-- A function-level reset waits for the queue reset; whether `FUNC` is kept then (R522). -/
  returning : Option Bool
  /-- Replies that wait for room, oldest first, each with whether it raises the vector (R308, R309). -/
  deferred : List (BitVec 128 × Bool)
  /-- Slots of the ring that hold relayed packets (R409). -/
  relaySlots : List Nat
  amax : BitVec 32
  decided : BitVec 32
  skipped : BitVec 32
  audited : BitVec 32
  missed : BitVec 32
  deriving DecidableEq, Repr

/-- A reservation (R336): of HBM bytes or of bench rows. -/
structure Reservation where
  queue : Nat
  func : Nat
  bench : Bool
  base : Nat
  size : Nat
  deriving DecidableEq, Repr

/-- The limits of a queue or a function (R338). -/
structure Limits where
  bench : Nat
  hbm : Nat
  tags : Nat
  share : Nat
  deriving DecidableEq, Repr

/-- A random stream's record (R297). -/
structure Stream where
  epoch : BitVec 64
  owner : BitVec 6
  bound : Bool
  share : Bool
  nextCi : BitVec 25
  deriving DecidableEq, Repr

/-- The experts a dispatch assigned to this device's slots (R419). -/
structure ExpertMap where
  queue : Nat
  members : Nat
  experts : List (Nat × Nat)
  deriving DecidableEq, Repr

/-- The headstock: queues, operations, tallies, quotas, streams (R304 to R344, R297, R413, R376). -/
structure Head where
  queues : SMap Queue
  /-- Operations in flight, in acceptance order. -/
  ops : List Op
  tallies : SMap (BitVec 32)
  /-- Limits at key q for queue q and 64 + f for function f, where they differ from R338. -/
  limits : SMap Limits
  /-- Tally ranges (base, count) of functions 1 to 16. -/
  tallyRange : SMap (Nat × Nat)
  reservations : List Reservation
  streams : SMap Stream
  /-- The queue whose packet was accepted last, and the one whose command started last (R314). -/
  turn : BitVec 6
  served : BitVec 6
  /-- Collectives issued, by queue, kind and mask (R413). -/
  collCount : List ((Nat × Nat × Nat) × Nat)
  expertMaps : List ExpertMap
  deriving DecidableEq, Repr

/-- An N-port's state field (R390). -/
inductive PortState where
  | disabled
  | down
  | training
  | hello
  | up
  | isolated
  | quiesced
  | quiescing
  deriving DecidableEq, Repr

/-- One N-port (R380 to R391, R398). -/
structure Port where
  state : PortState
  laneDegraded : Bool
  nbrId : BitVec 6
  nbrPort : BitVec 3
  podMismatch : Bool
  miswired : Bool
  lanesUp : BitVec 8
  nbrPod : BitVec 32
  fecCorr : BitVec 32
  discard : BitVec 16
  downs : BitVec 16
  cable : Bool
  /-- The POD_ID and position words of the last training (R391). -/
  podAt : BitVec 32
  posAt : BitVec 32
  /-- Link layer of R383: the sequence number expected, whether frames are being discarded until a replay, the
  sequence number of the next frame sent, the frames kept for replay (newest first), and when the latest replays
  were requested (newest first). -/
  expSeq : BitVec 12
  discarding : Bool
  sendSeq : BitVec 12
  sent : List Nat
  replays : List (BitVec 64)
  /-- Credits of the four virtual channels (R386). -/
  credits : SMap (BitVec 16)
  /-- Data flits that are still to come of the packet being received, and whether they are discarded (R384). -/
  rxLeft : Nat
  rxDrop : Bool
  /-- The virtual channel of that packet, its flits so far, newest first, the packets that stand whole in the receive buffers,
  oldest first, each with whether it lies in its channel's upper class, and the flits taken from each channel's buffers whose
  credit is still to be returned (R386). -/
  rxVc : Nat
  rxFlits : List Nat
  rxHeld : List (List Nat × Bool)
  rxTaken : SMap (BitVec 16)
  /-- When a quiesced port retrains (event 6 of R398). -/
  rejoinAt : Option (BitVec 64)
  deriving DecidableEq, Repr

/-- A remote window (R401), with the queue that opened it (R520). -/
structure Window where
  opened : Bool
  peer : BitVec 6
  region : Bool
  base : BitVec 48
  size : BitVec 40
  rd : Bool
  wr : Bool
  acc : Bool
  tally : BitVec 12
  tunit : BitVec 2
  busy : BitVec 16
  owner : Nat
  deriving DecidableEq, Repr

/-- A packet that waits for its answer (R395): its operation, destination, transaction, local address and bytes, how often it
was sent again, and whether it is to be sent again as soon as its share lets it (R342). -/
structure Sent where
  q : Nat
  tag : Nat
  dst : Nat
  txn : Nat
  packet : Packet
  local_ : Nat
  len : Nat
  tries : Nat
  due : Bool
  deriving DecidableEq, Repr

/-- A piece of a transfer not yet sent (R395: at most 1,024 unanswered per destination). -/
structure Piece where
  q : Nat
  tag : Nat
  dst : Nat
  packet : Packet
  local_ : Nat
  len : Nat
  deriving DecidableEq, Repr

/-- A relay on its gateway (R408). -/
structure Relay where
  srcQ : Nat
  target : Nat
  dstQ : Nat
  /-- The target ring's base address and size exponent, as its answer to the set-up gave them (DESIGN CHOICE, log 36). -/
  base : Nat
  log2 : Nat
  /-- Tag, opcode and target ring slot of each packet sent whose reply has not come (R412). -/
  awaiting : List (Nat × Nat × Nat)
  /-- The target ring's index for the next packet, as far as the gateway knows it. -/
  sent : Nat
  /-- For each reply of src_q not yet released, oldest first, whether the target holds a copy (R411). -/
  copies : List Bool
  deriving DecidableEq, Repr

/-- A relay on its target (R409, R411). -/
structure RelayIn where
  dstQ : Nat
  gateway : Nat
  srcQ : Nat
  deriving DecidableEq, Repr

/-- A member's contribution as it arrives: its summary, the bytes of the whole, and the parts that have come, each with its
offset (R413, R416). -/
structure Contribution where
  src : Nat
  summary : List Nat
  total : Nat
  parts : List (Nat × List Byte)
  deriving DecidableEq, Repr

/-- A collective in progress on this member (R413 to R420). -/
structure Coll where
  q : Nat
  tag : Nat
  kind : Nat
  members : Nat
  count : Nat
  /-- 0 reduce or count exchange, 1 staged, 2 committed. -/
  stage : Nat
  /-- Summary of this member's own contribution (R413). -/
  summary : List Nat
  contributions : List Contribution
  staged : List Nat
  done : List Nat
  /-- How many collectives with each other member the queue had issued before (DESIGN CHOICE, log 36). -/
  ords : List (Nat × Nat)
  /-- What the commit will write, its flags and its greatest quantised magnitude (R416, R66). -/
  writes : List (Nat × List Byte)
  flags : BitVec 8
  amax : Nat
  deriving DecidableEq, Repr

/-- An `FE.PUT` of which packets have been committed here (R406, R181): source, its number, packets committed and in all,
the window, the slot it fills when the window names a region, and the answer to its packets once one of them has been refused
there: code and address. -/
structure Arrival where
  src : Nat
  xfer : Nat
  got : Nat
  packets : Nat
  win : Nat
  slot : Nat
  refused : Option (Nat × Nat)
  deriving DecidableEq, Repr

/-- The fabric (R380 to R420). -/
structure Fabric where
  ports : SMap Port
  windows : SMap Window
  /-- Live links heard of, by ROUTE flits and the own ports (R393). -/
  links : List LinkNews
  /-- Devices that carry the gateway bit (R389, R408). -/
  gateways : List Nat
  /-- First-hop port per destination (R393); unlisted destinations are unreachable. -/
  routes : List (Nat × Nat)
  /-- The reset epochs heard of, by device (R389, R397). -/
  epochs : List (Nat × BitVec 16)
  /-- A recomputation of the route table is due (R393). -/
  routesDue : Bool
  /-- Packets that wait for credit or for a route, oldest first; those for a neighbour with its port (R386, R393). -/
  outq : List (Option Nat × Packet)
  sent : List Sent
  pieces : List Piece
  /-- Next transaction number per destination. -/
  txns : SMap Nat
  /-- Transactions answered per source, with their answers (R395): source, txn, status, body. -/
  seen : List (Nat × Nat × Nat × Nat)
  relays : List Relay
  relaysIn : List RelayIn
  colls : List Coll
  /-- COLL packets of collectives this member has not started (R413). -/
  collInbox : List CollMsg
  /-- Fabric use in the present window: function, port, direction, bytes (R342). -/
  usage : List (Nat × Nat × Nat × Nat)
  /-- The functions' shares in force in the present window, where they differ from their cold limits (R342). -/
  shares : SMap Nat
  /-- When the die bridge's latest replays were (R497), newest first. -/
  bridgeReplays : List (BitVec 64)
  /-- Number of the next `FE.PUT` that this device sends (DESIGN CHOICE, log 36). -/
  xfers : Nat
  arrivals : List Arrival
  deriving DecidableEq, Repr

/-- A power state of a switched domain (R469). -/
inductive Pd where
  | on
  | retain
  | off
  deriving DecidableEq, Repr

/-- A domain's state: settled, or switching from one state to another on behalf of an operation (R472, R473). -/
inductive PdState where
  | settled (p : Pd)
  | switching (src tgt : Pd) (q tag : Nat)
  deriving DecidableEq, Repr

/-- Power and heat (R460 to R480). -/
structure Power where
  vmaxMv : BitVec 10
  thermTarget : BitVec 7
  capW : BitVec 16
  capClamped : Bool
  inputP : BitVec 16
  peakP : BitVec 16
  coreMv : BitVec 10
  vinDv : BitVec 10
  limit : BitVec 2
  hot : Bool
  trip : Bool
  tjPeak : BitVec 8
  junctions : SMap (BitVec 8)
  hbmTemps : SMap (BitVec 8)
  /-- When a junction was first seen at or above 105 °C without a reading below since (R478). -/
  hotSince : Option (BitVec 64)
  /-- By lathe pair, how far its low-slice rail lies below the core rail, in mV (R272). -/
  lowDrop : SMap (BitVec 7)
  /-- Domains 0 to 79, where they are not ON (R374, R470). -/
  domains : SMap PdState
  deriving DecidableEq, Repr

/-- Fault counters and the violation log (R492, R498 to R500). -/
structure Faults where
  hbmCorr : BitVec 16
  hbmUncorr : BitVec 12
  sramCorr : BitVec 16
  sramUncorr : BitVec 12
  lastAddr : BitVec 48
  lastKind : BitVec 2
  vlog : SMap (BitVec 256)
  vHead : BitVec 8
  vTail : BitVec 8
  vFill : Nat
  lost : BitVec 16
  irqEn : Bool
  deriving DecidableEq, Repr

/-- A firmware image: the one the module ships with, or one received in blocks (R539). -/
inductive Image where
  | shipped
  | blocks (bs : List (List Byte))
  deriving DecidableEq, Repr

/-- The journal's phases (R550). -/
inductive JPhase where
  | idle
  | copying
  | copied
  | writing
  | verified
  | committed
  | pending
  | restoring
  deriving DecidableEq, Repr

/-- What a journal record says (R550). -/
structure Journal where
  seq : BitVec 32
  phase : JPhase
  comp : BitVec 3
  rolled : Bool
  wdog : Bool
  rbValid : Bool
  stBase : BitVec 32
  deriving DecidableEq, Repr

/-- A record of the journal's ring, with the CRC-32C it bears (R550). -/
structure JRecord where
  j : Journal
  crc : BitVec 32
  deriving DecidableEq, Repr

/-- Keep registers and firmware (R530 to R564). -/
structure Firm where
  keep : SMap (BitVec 32)
  /-- Wear counts; WARN and LOCKED follow from them (R536). -/
  wear : SMap Nat
  /-- The shadow of R557: indices and values. -/
  shadow : Option (List (Nat × BitVec 32))
  /-- The first register of a migration that was worn (R557). -/
  migrationWorn : Option Nat
  /-- Staged blocks: number, bytes, source address and its kind (R546). -/
  staged : List (Nat × List Byte × Nat × Nat)
  /-- The running slot's image, the rollback region's, and the image the device executes (R538, R548). -/
  running : Image
  rollback : Image
  executing : Image
  /-- The journal's records, the last one written first (R550). -/
  ring : List JRecord
  recovery : Bool
  /-- TIMESTAMP at which the confirmation watchdog expires (R554). -/
  watchdog : Option (BitVec 64)
  /-- A restore by the watchdog awaits its start (R556, R592). -/
  awaitingStart : Bool
  /-- The command whose activation has started and has not run to its end (R523). -/
  activating : Option (Nat × Nat)
  /-- Stages that have started, in order (R546). -/
  stages : List (Nat × Nat)
  deriving DecidableEq, Repr

/-- A pending ML-DSA-65 signature (R451). -/
structure PendingSig where
  code : Nat
  sig : List Byte
  session : Option Nat
  deriving DecidableEq, Repr

/-- The SPDM responder of one transport (R448, R451). -/
structure Spdm where
  pending : Option PendingSig
  /-- Sessions: number, and whether FINISH has completed. -/
  sessions : List (Nat × Bool)
  deriving DecidableEq, Repr

/-- Performance counters (R582, R583). -/
structure Perf where
  freeze : Bool
  /-- PERF[L] counter i at key 8 × L + i. -/
  lathe : SMap (BitVec 64)
  /-- HBM_RD[s] at key 2 s, HBM_WR[s] at key 2 s + 1. -/
  hbm : SMap (BitVec 64)
  deriving DecidableEq, Repr

/-- The faceplate (R599, R601). -/
structure Face where
  /-- TIMESTAMP at which the identify display ends. -/
  identifyUntil : Option (BitVec 64)
  /-- TIMESTAMP at which the three blinks of a refused self-test request end (R599). -/
  refusedUntil : Option (BitVec 64)
  deriving DecidableEq, Repr

/-- A `MG.SNAPSHOT` under way (R376, R509 to R512): its image, or what has come of it, by image offset; the parts still to
move, in order, each with its number and its offsets (a section's own number, 137 for the header, 138 for all sections of a
save); how far the first of them has been asked for or sent; the offsets of it that have arrived; and, of a save that ends
before its header, why: a code, a device address and the DETAIL of its log entry (DESIGN CHOICE, log 43). -/
structure SnapJob where
  q : Nat
  tag : Nat
  image : List Host.Cell
  parts : List (Nat × Nat × Nat)
  pos : Nat
  got : List (Nat × Nat)
  fail : Option (Nat × Nat × Nat)
  deriving DecidableEq, Repr

/-- What the device sends (DESIGN CHOICE, log 5). -/
inductive Msg where
  /-- A completion with data for a function's read. -/
  | completion (fn : Nat) (value : List Byte)
  | completerAbort (fn : Nat)
  /-- A write of host memory: the requester's routing ID, its Relaxed Ordering attribute, its IDE stream, its address and
  bytes. -/
  | memWrite (rid : Nat) (relaxed : Bool) (ide : Option Nat) (addr : Nat) (bytes : List Byte)
  | unsupported (fn : Nat)
  | msix (fn vector : Nat)
  | doe (bytes : List Byte)
  | spdm (via : Transport) (code : Nat) (bytes : List Byte)
  | spdmError (via : Transport) (code : Nat)
  | mctp (bytes : List Byte)
  | recovery (op code : Nat)
  | i3cAck (addr : BitVec 7)
  /-- A packet sent on an N-port. -/
  | packet (port : Nat) (p : Packet)
  /-- A frame on a port: the symbols of each active lane, in order (R382). -/
  | frame (port : Nat) (lanes : List (Nat × List Nat))
  | hello (port : Nat) (h : Hello)
  | route (news : RouteNews)
  /-- A LINK flit's NAK with the expected sequence number (R383). -/
  | nak (port : Nat) (seq : BitVec 12)
  /-- Frames replayed on a port, oldest first. -/
  | replay (port : Nat) (frames : List Nat)
  /-- A flit delivered in order to the port's consumer. -/
  | deliver (port : Nat) (flit : Nat)
  /-- The given segments flash white once (R601). -/
  | flash (segments : List Nat)
  deriving DecidableEq, Repr

/-- The state of the block. -/
structure State where
  pins : Pins
  glob : Glob
  pcie : Pcie
  mems : Mems
  dies : Dies
  head : Head
  fab : Fabric
  power : Power
  faults : Faults
  firm : Firm
  spdmDoe : Spdm
  spdmMctp : Spdm
  perf : Perf
  face : Face
  snap : Option SnapJob
  /-- What the device has sent, oldest first (the model's own). -/
  out : List Msg
  /-- The index of the next free value (the model's own). -/
  freeIdx : Nat
  /-- The commands that wait, first in first out (the model's own). -/
  pending : List Instr
  deriving DecidableEq, Repr

/-! ### Reset values -/

/-- PCI Express function `f` after reset: BAR2 of 512 GiB for the physical function (R435), 32 GiB for a virtual one
(R438). Bus Master Enable is clear, as PCI Express resets it (PRESUMED, log 8); Memory Space Enable stands at 1, since
the host's enumeration sets it and no row does (DESIGN CHOICE, log 8). -/
def Func.reset (f : Nat) : Func where
  busMaster := false
  memSpace := true
  d3hot := false
  relaxed := true
  bar2Log := if f = 0 then 9 else 5
  maxPayload := 128
  maxRead := 512
  tags14 := false
  timeout := 0#4
  aspmL1 := false
  aerUncor := 0#32
  aerCor := 0#32

/-- The queue registers of R304, R266 and R579 after reset. -/
def Queue.reset : Queue where
  enable := false
  loc := false
  forerunner := false
  haltOnErr := false
  weight := 1#4
  confine := false
  halted := false
  func := 0#5
  sqLog2 := 4#5
  stqLog2 := 4#5
  msix := 0#11
  sqBase := 0#64
  stqBase := 0#64
  sqTail := 0#16
  sqHead := 0#16
  stqHead := 0#16
  stqTail := 0#16
  phase := true
  resetting := false
  returning := none
  deferred := []
  relaySlots := []
  amax := 0#32
  decided := 0#32
  skipped := 0#32
  audited := 0#32
  missed := 0#32

/-- A disabled region (R165). -/
def Region.reset : Region := ⟨0#12, 0#12, 0#8, 0#6, false, 0#12, 0#12, 0#12, []⟩

/-- An idle spindle with free sets, empty tags and pointer 0 (R100, R114, R122). -/
def Spindle.idle : Spindle := ⟨⟨[], [], []⟩, none, none, [], [], [], [], [], [], [], .free, .free, false, none, [], none, none⟩

/-- A tailstock channel with empty buffers. -/
def TailChannel.empty : TailChannel := ⟨[], [], false⟩

/-- An empty match unit. -/
def MatchUnit.empty : MatchUnit := ⟨0, 0, [], []⟩

/-- An unbound stream (R297). -/
def Stream.reset : Stream := ⟨0#64, 0#6, false, false, 0#25⟩

/-- An N-port after reset (R390). -/
def Port.reset : Port where
  state := .down
  laneDegraded := false
  nbrId := 0#6
  nbrPort := 0#3
  podMismatch := false
  miswired := false
  lanesUp := 0#8
  nbrPod := 0#32
  fecCorr := 0#32
  discard := 0#16
  downs := 0#16
  cable := false
  podAt := 0#32
  posAt := 0#32
  expSeq := 0#12
  discarding := false
  sendSeq := 0#12
  sent := []
  replays := []
  credits := []
  rxLeft := 0
  rxDrop := false
  rxVc := 0
  rxFlits := []
  rxHeld := []
  rxTaken := []
  rejoinAt := none

/-- A closed window (R401). -/
def Window.closed : Window :=
  ⟨false, 0#6, false, 0#48, 0#40, false, false, false, 0#12, 0#2, 0#16, 0⟩

/-- The cold limits of R338: the maxima for the physical function (key 64) and, since every queue then belongs to it,
for every queue; zero for functions 1 to 16. -/
def Limits.cold (key : Nat) : Limits :=
  if key ≤ 64 then ⟨4096, 196608, 8192, 64⟩ else ⟨0, 0, 0, 0⟩

/-- The shipped values of the keep registers (R530). -/
def shippedKeep : SMap (BitVec 32) :=
  [(0, 1#32), (1, 1#32), (4, 0x3F#32), (5, 0x1B6#32), (7, 0xA5#32), (8, 8#32)]

def Glob.reset : Glob where
  cfgUp := false
  ready := false
  selftest := false
  warm := false
  rolledBack := false
  fwPending := false
  stFenced := 0#8
  engBusy := 0#4
  coldPending := true
  padTest := false
  selftestDone := false
  devEvent := 0#4
  vlogVec := 0x7FE#11
  devVec := 0x7FF#11
  ideEnforce := false
  timestamp := 0#64
  tsLatch := none
  seed := []
  bar2Win := []
  epoch := 0#16

def Pcie.reset : Pcie := ⟨[], true, [], [], []⟩

def Mems.reset : Mems := ⟨[], [], [], []⟩

def Dies.reset : Dies := ⟨[], [], [], [], [], [], [], []⟩

def Head.reset : Head := ⟨[], [], [], [], [], [], [], 63#6, 63#6, [], []⟩

def Fabric.reset : Fabric := ⟨[], [], [], [], [], [], false, [], [], [], [], [], [], [], [], [], [], [], [], 0, []⟩

def Power.reset : Power where
  vmaxMv := 0x26C#10
  thermTarget := 0x5F#7
  capW := 438#16
  capClamped := false
  inputP := 0#16
  peakP := 0#16
  coreMv := 620#10
  vinDv := 540#10
  limit := 0#2
  hot := false
  trip := false
  tjPeak := 0#8
  junctions := []
  hbmTemps := []
  hotSince := none
  lowDrop := []
  domains := []

def Faults.reset : Faults := ⟨0#16, 0#12, 0#16, 0#12, 0#48, 0#2, [], 0#8, 0#8, 0, 0#16, true⟩

def Journal.reset : Journal := ⟨0#32, .idle, 0#3, false, false, false, 0#32⟩

def Firm.reset : Firm where
  keep := shippedKeep
  wear := []
  shadow := none
  migrationWorn := none
  staged := []
  running := .shipped
  rollback := .shipped
  executing := .shipped
  ring := []
  recovery := false
  watchdog := none
  awaitingStart := false
  activating := none
  stages := []

/-- The block right after reset: the module has powered on with shipped keep registers (every register at its Reset column,
R6), and PERST_N is still low; `perstDeassert` then runs the cold start up to `GSTAT.READY` (R514; DESIGN CHOICE, log 1). -/
def State.reset : State where
  pins := ⟨true, false, true, false, 7#3, none⟩
  glob := Glob.reset
  pcie := Pcie.reset
  mems := Mems.reset
  dies := Dies.reset
  head := Head.reset
  fab := Fabric.reset
  power := Power.reset
  faults := Faults.reset
  firm := Firm.reset
  spdmDoe := ⟨none, []⟩
  spdmMctp := ⟨none, []⟩
  perf := ⟨false, [], []⟩
  face := ⟨none, none⟩
  snap := none
  out := []
  freeIdx := 0
  pending := []

end Sys2Proof.Machine
end

