-- ==== Sys2Proof/Machine/Cutlist.lean ====
section
/-!
DEFINITION. Firmware images and their cutlist (R538 to R544), and the default pattern tables that component 6 carries (R53, R541).
-/

namespace Sys2Proof.Machine

/-! ### Images (R539 to R543) -/

/-- An image's payload; of the shipped image the model holds the signed portion only (DESIGN CHOICE, log 10). -/
def payload (x : Image) : List Byte :=
  match x with
  | .shipped => Config.shippedCutlist
  | .blocks bs => bs.flatMap fun b => b.take 65532

/-- Bytes of the payload. -/
def payBytes (x : Image) (off n : Nat) : List Byte := (payload x |>.drop off).take n

/-- A field of the cutlist header (R540). -/
def cutField (x : Image) (lo n : Nat) : Nat := bits (leNat (payBytes x 0 256)) lo n

def cutBlocks (x : Image) : Nat := cutField x 64 16
def cutLayout (x : Image) : Nat := cutField x 80 16
def cutSecVer (x : Image) : Nat := cutField x 96 32
def cutFwVer (x : Image) : Nat := cutField x 128 32
def cutFleet (x : Image) : Nat := cutField x 160 32
def cutNonce (x : Image) : Nat := cutField x 192 64

/-- The 96-byte entry of component `i`, and a field of it (R541). -/
def compEntry (x : Image) (i : Nat) : List Byte := payBytes x (256 + 96 * i) 96
def compField (x : Image) (i lo n : Nat) : Nat := bits (leNat (compEntry x i)) lo n

/-- The place of the component of a type, 1 to 6 (R541). -/
def compOf (x : Image) (type : Nat) : Nat := ((List.range 6).find? fun i => compField x i 0 8 = type).getD (type - 1)

/-- The digest in a component's entry (R541). -/
def compDigest (x : Image) (i : Nat) : List Byte := (compEntry x i |>.drop 24).take 48

/-- The signed portion and whether both signatures verify (R542). -/
def signedPart (x : Image) : List Byte := payBytes x 0 832
def signaturesOk (x : Image) : Bool :=
  Config.ed25519Ok (signedPart x) (payBytes x 832 64) && Config.mlDsaOk (signedPart x) (payBytes x 896 3309)

/-- The content key (R540, R544). -/
def contentKey (x : Image) : Option (List Byte) := Config.unwrapKey (payBytes x 32 40)

/-- Whether component `i` decrypts and matches its digest (R543, R547). -/
def compOk (x : Image) (key : List Byte) (i : Nat) : Bool :=
  let len := compField x i 112 32
  match Config.gcmOpen key (cutNonce x * 2 ^ 32 + i) (compEntry x i) (payBytes x (compField x i 64 48) (len + 16)) with
  | some p => p.length == len && Config.sha384 p == compDigest x i
  | none => false

/-- Whether an image verifies before it is started (R553); the shipped one does. -/
def imageOk (x : Image) : Bool :=
  match x with
  | .shipped => true
  | _ => signaturesOk x && (match contentKey x with | some k => (List.range 6).all (compOk x k) | none => false)

/-! ### The default pattern tables (R48, R49, R53) -/

/-- A pattern entry: the value that its low `w` bits give, and its canonical signed digits (R49, R50). -/
def patternEntry (w low : Nat) : BitVec 64 :=
  let v := sext w (low % 2 ^ w)
  let ds := csd v.natAbs
  BitVec.ofNat 64 ((v % ((2 ^ 16 : Nat) : Int)).toNat + ds.length * 2 ^ 16
    + (ds.zipIdx.map fun d => (d.1.2 + 16 * b2n (d.1.1 != decide (v < 0))) * 2 ^ (24 + 5 * d.2)).foldl (· + ·) 0)

/-- The default table of a slot in an image: its widths, its digits bit and the entries' values are what component 6, known by
its digest, carries; they are not in the spec (R53; DESIGN CHOICE, log 9). The strings are those of the values. -/
def defaultTable (x : Image) (slot : Nat) : PatSlot :=
  let d := compDigest x (compOf x 6)
  let k := Config.defaultShape d slot
  let cw := if bit k 0 then 8 else 4
  let vw := 4 * 2 ^ (bits k 1 8 % 3)
  let es := (List.range (2 ^ cw)).map fun i => patternEntry vw (Config.defaultEntry d slot i)
  .table (BitVec.ofNat 128 (cw + vw * 2 ^ 8 + b2n (bit k 9) * 2 ^ 16
    + crc32c (es.flatMap fun e => leBytes 8 e.toNat) * 2 ^ 32)) es

end Sys2Proof.Machine
end

