-- ==== Sys2Proof/Machine/Formats.lean ====
section
/-!
DEFINITION. The element formats of R28 to R33: codes, decoding, and rounding into them (R64, R130 to
R132, R610).
-/

namespace Sys2Proof.Machine

/-- The formats of R28. -/
inductive Fmt where
  | fp32 | bf16 | fp16 | e4m3 | e5m2 | e3m2 | e2m3 | e2m1
  | int8 | int4 | int2 | bin | u8 | u4 | u2 | log8 | pat4 | pat8 | int32
  deriving DecidableEq, Repr

/-- The format of a 5-bit code; 0x13 to 0x1F are reserved (R28). -/
def fmtOf (c : Nat) : Option Fmt :=
  match c with
  | 0 => some .fp32 | 1 => some .bf16 | 2 => some .fp16 | 3 => some .e4m3 | 4 => some .e5m2 | 5 => some .e3m2
  | 6 => some .e2m3 | 7 => some .e2m1 | 8 => some .int8 | 9 => some .int4 | 10 => some .int2 | 11 => some .bin
  | 12 => some .u8 | 13 => some .u4 | 14 => some .u2 | 15 => some .log8 | 16 => some .pat4 | 17 => some .pat8
  | 18 => some .int32 | _ => none

/-- The code of a format (R28). -/
def fmtCode (f : Fmt) : Nat :=
  match f with
  | .fp32 => 0 | .bf16 => 1 | .fp16 => 2 | .e4m3 => 3 | .e5m2 => 4 | .e3m2 => 5 | .e2m3 => 6 | .e2m1 => 7
  | .int8 => 8 | .int4 => 9 | .int2 => 10 | .bin => 11 | .u8 => 12 | .u4 => 13 | .u2 => 14 | .log8 => 15
  | .pat4 => 16 | .pat8 => 17 | .int32 => 18

/-- Bits of one element (R29 to R31). -/
def fmtBits (f : Fmt) : Nat :=
  match f with
  | .fp32 | .int32 => 32
  | .bf16 | .fp16 => 16
  | .e4m3 | .e5m2 | .int8 | .u8 | .log8 | .pat8 => 8
  | .e3m2 | .e2m3 => 6
  | .e2m1 | .int4 | .u4 | .pat4 => 4
  | .int2 | .u2 => 2
  | .bin => 1

/-- Packed bytes of a line of `n` elements of `w` bits; a 6-bit line fills whole quads (R32, R33). -/
def lineBytesW (w n : Nat) : Nat := if w = 6 then 3 * cdiv n 4 else cdiv (n * w) 8

/-- Packed bytes of a line of `n` elements of a format. -/
def lineBytes (f : Fmt) (n : Nat) : Nat := lineBytesW (fmtBits f) n

/-- How a float format spends its top exponent (R29): IEEE infinities and NaNs, the one NaN of E4M3, or nothing. -/
inductive Top where
  | ieee
  | nanOnly
  | none
  deriving DecidableEq, Repr

/-- Exponent bits, mantissa bits, bias and top exponent of a float format (R29). -/
structure FpShape where
  eb : Nat
  mb : Nat
  bias : Nat
  top : Top
  deriving DecidableEq, Repr

/-- The float formats' fields (R29). -/
def fpShape (f : Fmt) : Option FpShape :=
  match f with
  | .fp32 => some ⟨8, 23, 127, .ieee⟩
  | .bf16 => some ⟨8, 7, 127, .ieee⟩
  | .fp16 => some ⟨5, 10, 15, .ieee⟩
  | .e4m3 => some ⟨4, 3, 7, .nanOnly⟩
  | .e5m2 => some ⟨5, 2, 15, .ieee⟩
  | .e3m2 => some ⟨3, 2, 3, .none⟩
  | .e2m3 => some ⟨2, 3, 1, .none⟩
  | .e2m1 => some ⟨2, 1, 1, .none⟩
  | _ => none

/-- Significand bits p of a float format (R29). -/
def fpP (s : FpShape) : Nat := s.mb + 1

/-- What an element code stands for: a finite value (-1)^neg × q × 2^e, a non-finite, or an escape code (R30). -/
inductive Elem where
  | num (neg : Bool) (q : Nat) (e : Int)
  | inf (neg : Bool)
  | nan
  | escape
  deriving DecidableEq, Repr

/-- Decode a float code (R29). -/
def fpDecode (s : FpShape) (c : Nat) : Elem :=
  let m := bits c 0 s.mb
  let x := bits c s.mb s.eb
  let neg := bit c (s.mb + s.eb)
  let top := 2 ^ s.eb - 1
  if s.top = .ieee ∧ x = top then (if m = 0 then .inf neg else .nan)
  else if s.top = .nanOnly ∧ x = top ∧ m = 2 ^ s.mb - 1 then .nan
  else if x = 0 then .num neg m (1 - (s.bias : Int) - s.mb)
  else .num neg (2 ^ s.mb + m) ((x : Int) - s.bias - s.mb)

/-- A signed integer as an element. -/
def intElem (v : Int) : Elem := .num (decide (v < 0)) v.natAbs 0

/-- Decode an integer or binary code with zero point `z` (R30, R36). -/
def intDecode (f : Fmt) (z c : Nat) : Elem :=
  match f with
  | .int8 => if c = 0x80 then .escape else intElem (sext 8 c)
  | .int4 => if c = 8 then .escape else intElem (sext 4 c)
  | .int2 => if c = 2 then .escape else intElem (sext 2 c)
  | .bin => .num (c = 1) 1 0
  | .u8 | .u4 | .u2 => if c = 0 then .escape else intElem ((c : Int) - z)
  | .int32 => intElem (sext 32 c)
  | _ => .nan

/-- The exact value of an element, escapes as zero (R39). -/
def elemExt (e : Elem) : Ext :=
  match e with
  | .num neg q x => .fin ((if neg then -(q : Rat) else q) * pow2 x)
  | .inf neg => infOf neg
  | .nan => .nan
  | .escape => .fin 0

/-- Whether an element is a non-zero of R213: anything but a zero of either sign. -/
def elemNonZero (e : Elem) : Bool :=
  match e with
  | .num _ q _ => q != 0
  | _ => true

/-- Whether a code is a non-zero of R213 where its format alone decides; a code whose value a zero point or a pattern
table decides counts as a non-zero here (`elemNonZero` decides it where they are at hand). -/
def isNonZero (f : Fmt) (c : Nat) : Bool :=
  match fpShape f with
  | some s => bits c 0 (s.mb + s.eb) != 0
  | none =>
    match f with
    | .log8 => bits c 0 7 != 0
    | .bin => true
    | .u8 | .u4 | .u2 | .pat4 | .pat8 => true
    | _ => c != 0

/-! ### Rounding into formats -/

/-- Largest finite magnitude of a float format (R29). -/
def fpMax (s : FpShape) : Rat :=
  match s.top with
  | .ieee => pow2 (2 ^ s.eb - 2 - (s.bias : Int) - s.mb) * ((2 ^ (s.mb + 1) - 1 : Nat) : Rat)
  | .nanOnly => pow2 (2 ^ s.eb - 1 - (s.bias : Int) - s.mb) * ((2 ^ (s.mb + 1) - 2 : Nat) : Rat)
  | .none => pow2 (2 ^ s.eb - 1 - (s.bias : Int) - s.mb) * ((2 ^ (s.mb + 1) - 1 : Nat) : Rat)

/-- The least-significant weight a magnitude is held at in a float format, subnormals included. -/
def fpLsb (s : FpShape) (x : Rat) : Int :=
  let emin : Int := 1 - (s.bias : Int)
  (if x = 0 then emin else max (ilog2 x) emin) - s.mb

/-- The code of significand `m` at weight `2^l`, with its sign. -/
def fpPack (s : FpShape) (neg : Bool) (m : Nat) (l : Int) : Nat :=
  let sgn := b2n neg * 2 ^ (s.mb + s.eb)
  if m < 2 ^ s.mb then sgn + m
  else if m = 2 ^ (s.mb + 1) then sgn + ((l + 1 + s.mb + s.bias).toNat) * 2 ^ s.mb
  else sgn + ((l + s.mb + s.bias).toNat) * 2 ^ s.mb + (m - 2 ^ s.mb)

/-- The code of infinity, and of the canonical NaN, of an IEEE format (R111). -/
def fpInf (s : FpShape) (neg : Bool) : Nat := b2n neg * 2 ^ (s.mb + s.eb) + (2 ^ s.eb - 1) * 2 ^ s.mb

def fpNan (s : FpShape) : Nat := (2 ^ s.eb - 1) * 2 ^ s.mb + 2 ^ (s.mb - 1)

/-- How a conversion rounds: to nearest with ties away from zero, or by a 32-bit draw (R132), or toward +inf (R256). -/
inductive Round where
  | near
  | draw (d : Nat)
  | up
  deriving DecidableEq, Repr

/-- Choose between the lower and the upper neighbour of a magnitude by a draw: p = floor(frac × 2^24), r = d[23:0],
the upper when r < p (R132). `frac` is the distance from the lower one in units of the gap. -/
def drawUp (frac : Rat) (d : Nat) : Bool := decide ((d % 2 ^ 24 : Nat) < (rfloor (frac * pow2 24)).toNat)

/-- A magnitude in units of some weight, rounded to a natural number. -/
def roundUnits (r : Round) (x : Rat) : Nat :=
  match r with
  | .near => rndMag x
  | .up => (rceil x).toNat
  | .draw d =>
    let a := (rfloor x).toNat
    if x = (a : Rat) then a else if drawUp (x - a) d then a + 1 else a

/-- Round a magnitude into a float format: significand and weight. -/
def fpRound (s : FpShape) (r : Round) (x : Rat) : Nat × Int :=
  let l := fpLsb s x
  (roundUnits r (x / pow2 l), l)

/-- Convert an exact value to FP32, BF16 or FP16 (R130): the code, and whether it overflowed. A non-zero value keeps
its sign when its magnitude rounds to zero, and an exact zero is +0 (R610). A magnitude beyond the largest finite
value converts as under nearest (R132). -/
def toFloat (s : FpShape) (r : Round) (x : Ext) : Nat × Bool :=
  match x with
  | .nan => (fpNan s, false)
  | .pinf => (fpInf s false, false)
  | .ninf => (fpInf s true, false)
  | .fin v =>
    let neg := decide (v < 0)
    let a := rabs v
    let r := if fpMax s < a ∧ r ≠ .up then .near else r
    let (m, l) := fpRound s r a
    if fpMax s < (m : Rat) * pow2 l then (fpInf s neg, true) else (fpPack s neg m l, false)

/-- FP32's shape, used by the accumulators. -/
def fp32S : FpShape := ⟨8, 23, 127, .ieee⟩
def bf16S : FpShape := ⟨8, 7, 127, .ieee⟩
def fp16S : FpShape := ⟨5, 10, 15, .ieee⟩

/-- The value of a float code. -/
def floatVal (s : FpShape) (c : Nat) : Ext := elemExt (fpDecode s c)

/-- The exact value of an FP32 code. -/
def f32Val (c : Nat) : Ext := floatVal fp32S c

/-- Round an extended value to an FP32 code, nearest with ties away from zero. -/
def rn32 (x : Ext) : Nat × Bool := toFloat fp32S .near x

/-! ### Quantisation (R63, R64) -/

/-- qmax of a scaled target that has no table (R63). -/
def qmaxOf (f : Fmt) : Rat :=
  match f with
  | .int8 => 127
  | .int4 => 7
  | .int2 | .bin => 1
  | .int32 => ((2 ^ 31 - 1 : Nat) : Rat)
  | _ => match fpShape f with
    | some s => fpMax s
    | none => 0

/-- The signed values of a pattern table in index order, the all-ones (escape) entry left out (R53). -/
abbrev PatVals := List Int

/-- The index of the value of a list nearest to `y`, ties to the lower index (R64). -/
def nearestIdx (vs : PatVals) (y : Rat) : Nat :=
  let step := fun (acc : Nat × Nat × Rat) (v : Int) =>
    let d := rabs ((v : Rat) - y)
    if acc.1 = 0 ∨ d < acc.2.2 then (acc.1 + 1, acc.1, d) else (acc.1 + 1, acc.2.1, acc.2.2)
  (vs.foldl step (0, 0, 0)).2.1

/-- The index of the largest (or smallest) value, ties to the lower index (R64). -/
def extremeIdx (vs : PatVals) (largest : Bool) : Nat :=
  let step := fun (acc : Nat × Nat × Int) (v : Int) =>
    if acc.1 = 0 ∨ (if largest then acc.2.2 < v else v < acc.2.2) then (acc.1 + 1, acc.1, v) else (acc.1 + 1, acc.2.1, acc.2.2)
  (vs.foldl step (0, 0, 0)).2.1

/-- The neighbours of `y` in a list of values, by magnitude and on its side of zero (R132): indices and values. -/
def drawNeighbours (vs : PatVals) (y : Rat) : Option (Nat × Rat) × Option (Nat × Rat) :=
  let sg : Rat := if y < 0 then -1 else 1
  let a := rabs y
  let idx := vs.zipIdx
  let below := idx.foldl (fun (b : Option (Nat × Rat)) e =>
    let m := sg * e.1
    if decide (0 ≤ m) && decide (m < a) && (match b with | none => true | some c => decide (c.2 < m)) then some (e.2, m) else b) none
  let above := idx.foldl (fun (b : Option (Nat × Rat)) e =>
    let m := sg * e.1
    if decide (a < m) && (match b with | none => true | some c => decide (m < c.2)) then some (e.2, m) else b) none
  (below, above)

/-- The pattern code of `y` (R64, R132). A draw chooses between the two table values next to it on its side of zero; where
one of them is missing the conversion is to the nearest value (DESIGN CHOICE, log 63). -/
def patCode (vs : PatVals) (r : Round) (y : Rat) : Nat :=
  match r with
  | .draw d =>
    if vs.any (fun v => (v : Rat) = y) then nearestIdx vs y
    else
      match drawNeighbours vs y with
      | (some a, some b) => if drawUp ((rabs y - a.2) / (b.2 - a.2)) d then b.1 else a.1
      | _ => nearestIdx vs y
  | _ => nearestIdx vs y

/-- The zero code of a scaled target (R64). -/
def zeroCode (f : Fmt) (vs : PatVals) : Nat :=
  match f with
  | .pat4 | .pat8 => nearestIdx vs 0
  | _ => 0

/-- Quantise a finite `x` with scale `S > 0` (R64): the code nearest to x ÷ S, clamped to ±qmax. -/
def quantFin (f : Fmt) (vs : PatVals) (r : Round) (x S : Rat) : Nat :=
  let y := x / S
  match f with
  | .bin => if x < 0 then 1 else 0
  | .pat4 | .pat8 => patCode vs r y
  | _ =>
    let neg := decide (y < 0)
    let q := qmaxOf f
    let a := if q < rabs y then q else rabs y
    match fpShape f with
    | some s => let (m, l) := fpRound s r a; fpPack s neg m l
    | none =>
      let m := roundUnits r a
      let v : Int := if neg then -(m : Int) else m
      (v % (2 ^ fmtBits f : Nat)).toNat

/-- The code of an infinity's clamp (R64). -/
def clampCode (f : Fmt) (vs : PatVals) (neg : Bool) : Nat :=
  match f with
  | .bin => b2n neg
  | .pat4 | .pat8 => extremeIdx vs (!neg)
  | _ =>
    match fpShape f with
    | some s => let (m, l) := fpRound s .near (fpMax s); fpPack s neg m l
    | none =>
      let m := (rfloor (qmaxOf f)).toNat
      let v : Int := if neg then -(m : Int) else m
      (v % (2 ^ fmtBits f : Nat)).toNat

/-- Quantise an extended value (R64): the code, and whether NONFINITE_IN is set. -/
def quantExt (f : Fmt) (vs : PatVals) (r : Round) (x : Ext) (S : Rat) : Nat × Bool :=
  match x with
  | .fin v => (if S = 0 then zeroCode f vs else quantFin f vs r v S, false)
  | .nan => (zeroCode f vs, true)
  | .pinf => (if S = 0 then zeroCode f vs else clampCode f vs false, true)
  | .ninf => (if S = 0 then zeroCode f vs else clampCode f vs true, true)

/-! ### LOG8 (R131) -/

/-- M of the LOG8 code of a magnitude: 8 log2 x + 64 to the nearest integer. An x with M − ½ ≤ 8 log2 x + 64 has
2^(2M − 129) ≤ x^16, an exact comparison of rationals. -/
def log8M (x : Rat) : Nat :=
  let y := x ^ 16
  (List.range 127).foldl (fun (m i : Nat) => if pow2 (2 * ((i : Int) + 1) - 129) ≤ y then i + 1 else m) 0

/-- Convert to LOG8: the code, and whether NONFINITE_IN is set (R131, R610). -/
def toLog8 (x : Ext) : Nat × Bool :=
  match x with
  | .nan => (0, true)
  | .pinf => (127, false)
  | .ninf => (0xFF, false)
  | .fin v => (b2n (decide (v < 0)) * 128 + (if v = 0 then 0 else log8M (rabs v)), false)

end Sys2Proof.Machine
end

