-- ==== Sys2Proof/Machine/Trans.lean ====
section
/-!
DEFINITION. Real values the spec asks to be "evaluated exactly" and rounded once (R129, R360, R362): each is an exact
rational, or a family of rational enclosures that shrinks with the precision asked for. A conversion that gives one
code at both ends of an enclosure gives that code at the value itself (DESIGN CHOICE, log 12).
-/

namespace Sys2Proof.Machine

/-- A real value: exact and extended, or enclosed: at precision `n` the pair of its lower and upper bounds. -/
inductive RVal where
  | exact (x : Ext)
  | encl (f : Nat → Rat × Rat)

/-- Trim a rational to `p` significant bits, downward or upward. -/
def trimDown (p : Nat) (x : Rat) : Rat :=
  if x = 0 then 0 else let l := ilog2 (rabs x) - (p : Int); pow2 l * ((rfloor (x / pow2 l) : Int) : Rat)

def trimUp (p : Nat) (x : Rat) : Rat :=
  if x = 0 then 0 else let l := ilog2 (rabs x) - (p : Int); pow2 l * ((rceil (x / pow2 l) : Int) : Rat)

/-- Σ of the first `n` terms of the series of e^(−y) for 0 ≤ y ≤ 1/2, from term `k` with value `t`: the partial sum
and the magnitude of the first term left out. -/
def expSeries (y : Rat) (p : Nat) : Nat → Nat → Rat → Rat → Rat × Rat
  | 0, _, t, s => (s, rabs t)
  | n + 1, k, t, s => expSeries y p n (k + 1) (trimDown p (-t * y / ((k + 1 : Nat) : Rat))) (s + t)

/-- Square an enclosure `j` times, outward. -/
def squareTimes (p : Nat) : Nat → Rat × Rat → Rat × Rat
  | 0, e => e
  | j + 1, e => squareTimes p j (trimDown p (e.1 * e.1), trimUp p (e.2 * e.2))

/-- An enclosure of e^(−t) for t ≥ 0 at precision `n`. Past 2,048 the value lies below 2^−2900, and every code of the
device is the same for every magnitude there, so the fixed bounds stand in for it. -/
def expNeg (n : Nat) (t : Rat) : Rat × Rat :=
  if t = 0 then (1, 1)
  else if 2048 < t then (pow2 (-3001), pow2 (-2900))
  else
    let j := (ilog2 t + 2).toNat
    let p := n + 2 * j + 24
    let y := t / pow2 j
    let terms := p / 2 + 8
    let (s, r) := expSeries y p terms 0 1 0
    let slack := r + (terms : Rat) * pow2 (1 - (p : Int))
    squareTimes p j (trimDown p (s - slack), trimUp p (s + slack))

/-- Apply a conversion to a real value: at each precision of the list in turn, the conversion of both ends of the
enclosure, when they agree. The values enclosed are no rounding boundaries, so some precision separates them; past the
last one, 40 × 2^63 bits, the lower end stands in (DESIGN CHOICE, log 12). -/
def convAt {α : Type} [DecidableEq α] (conv : Ext → α) (f : Nat → Rat × Rat) : Nat → Nat → α
  | 0, n => conv (.fin (f n).1)
  | k + 1, n => let e := f n; if conv (.fin e.1) = conv (.fin e.2) then conv (.fin e.1) else convAt conv f k (2 * n)

/-- The conversion of a real value: the precision doubles from 40 bits until the enclosure's ends agree. -/
def convR {α : Type} [DecidableEq α] (conv : Ext → α) (v : RVal) : α :=
  match v with
  | .exact x => conv x
  | .encl f => convAt conv f 63 40

/-- An enclosure of e^(−t) for t in an interval. -/
def expNegBetween (n : Nat) (l h : Rat) : Rat × Rat :=
  ((expNeg n (max 0 h)).1, (expNeg n (max 0 l)).2)

/-- Floor of the square root of a natural number, bit by bit. -/
def isqrtGo (x : Nat) : Nat → Nat → Nat
  | 0, r => r
  | b + 1, r => let c := r + 2 ^ b; isqrtGo x b (if c * c ≤ x then c else r)

def isqrt (x : Nat) : Nat := isqrtGo x (Nat.log2 x / 2 + 1) 0

/-- The square root of a rational that is a square. -/
def exactSqrt (x : Rat) : Option Rat :=
  let a := isqrt x.num.toNat
  let b := isqrt x.den
  if 0 ≤ x ∧ a * a = x.num.toNat ∧ b * b = x.den then some (mkRat a b) else none

/-- An enclosure of the square root of a positive rational. -/
def sqrtEncl (n : Nat) (x : Rat) : Rat × Rat :=
  let k : Int := (n : Int) + 2 - ilog2 x / 2
  let v := isqrt (rfloor (x * pow2 (2 * k))).toNat
  (((v : Nat) : Rat) * pow2 (-k), ((v + 1 : Nat) : Rat) * pow2 (-k))

/-- Partial sums of atan(1/q) = Σ (−1)^i / ((2i+1) q^(2i+1)): an enclosure by two successive sums. -/
def atanInv (q : Nat) (terms : Nat) : Rat × Rat :=
  let s := (List.range terms).foldl (fun (a : Rat) i =>
    let t := mkRat 1 ((2 * i + 1) * q ^ (2 * i + 1))
    if i % 2 = 0 then a + t else a - t) 0
  let e := mkRat 1 ((2 * terms + 1) * q ^ (2 * terms + 1))
  (s - e, s + e)

/-- An enclosure of π by Machin's formula. -/
def piEncl (n : Nat) : Rat × Rat :=
  let a := atanInv 5 (n / 4 + 4)
  let b := atanInv 239 (n / 4 + 4)
  (trimDown (n + 8) (16 * a.1 - 4 * b.2), trimUp (n + 8) (16 * a.2 - 4 * b.1))

/-- An enclosure of √(8 ÷ π), that is 2 √(2 ÷ π). -/
def root8pi (n : Nat) : Rat × Rat :=
  let p := piEncl (n + 8)
  ((sqrtEncl (n + 8) (8 / p.2)).1, (sqrtEncl (n + 8) (8 / p.1)).2)

/-- Enclosure of z × σ(w) where σ(w) = 1 ÷ (1 + e^(−w)) and `w` lies in `[wl, wh]` in magnitude with the sign of z. -/
def timesSigmoid (n : Nat) (z : Rat) (wl wh : Rat) : Rat × Rat :=
  let el := (expNeg n wh).1
  let eh := (expNeg n wl).2
  if 0 ≤ z then (z / (1 + eh), z / (1 + el)) else (z * eh / (1 + eh), z * el / (1 + el))

/-- The same for z in an interval whose sign is `up`. -/
def timesSigmoid2 (n : Nat) (up : Bool) (z : Rat × Rat) (wl wh : Rat) : Rat × Rat :=
  let x := expNegBetween n wl wh
  if up then (max 0 z.1 / (1 + x.2), z.2 / (1 + x.1)) else (z.1 * x.2 / (1 + x.2), min 0 z.2 * x.1 / (1 + x.1))

/-! ### Sums of eighth roots of two (R31)

A LOG8 code stands for ±2^(M/8 − 8). Sums and products of such values and of rationals are Σ c_i × 2^(i/8) with
rational c_0 to c_7, and such a sum is rational only when c_1 to c_7 are zero. -/

/-- A value the Vector Engine computes with: an extended rational, or an irrational sum of eighth roots of two. -/
inductive Sval where
  | ext (x : Ext)
  | surd (c : List Rat)
  deriving DecidableEq

/-- The value of eight coefficients, as a rational where it is one. -/
def mkSurd (c : List Rat) : Sval := if (c.drop 1).all (· = 0) then .ext (.fin (c.headD 0)) else .surd c

/-- The coefficients of a rational. -/
def ratCoefs (x : Rat) : List Rat := [x, 0, 0, 0, 0, 0, 0, 0]

/-- The coefficients of a product: 2^(i/8) × 2^(j/8) is 2^((i + j)/8), and 2 × 2^((i + j − 8)/8). -/
def mulCoefs (a b : List Rat) : List Rat :=
  (List.range 8).map fun k => (List.range 8).foldl (fun (s : Rat) i =>
    s + a.getD i 0 * b.getD ((k + 8 - i) % 8) 0 * (if k < i then 2 else 1)) 0

/-- Floor of 2^(i/8) × 2^n. -/
def rootFloor (n i : Nat) : Nat := isqrt (isqrt (isqrt (2 ^ (8 * n + i))))

/-- An enclosure of Σ c_i × 2^(i/8). -/
def surdEncl (c : List Rat) (n : Nat) : Rat × Rat :=
  let p := n + c.foldl (fun m x => max m (Nat.log2 (x.num.natAbs / x.den + 1))) 0 + 4
  (List.range 8).foldl (fun (e : Rat × Rat) i =>
    let x := c.getD i 0
    let l := (rootFloor p i : Rat) * pow2 (-(p : Int))
    let h := if i = 0 then l else ((rootFloor p i + 1 : Nat) : Rat) * pow2 (-(p : Int))
    if 0 ≤ x then (e.1 + x * l, e.2 + x * h) else (e.1 + x * h, e.2 + x * l)) (0, 0)

/-- Whether an irrational sum is negative. -/
def surdNeg (c : List Rat) : Bool := convAt (fun x => extLt x (.fin 0)) (surdEncl c) 63 40

def Sval.real (v : Sval) : RVal :=
  match v with
  | .ext x => .exact x
  | .surd c => .encl (surdEncl c)

/-- A sum, and whether it makes a NaN from non-NaN operands. -/
def sAdd (a b : Sval) : Sval × Bool :=
  match a, b with
  | .ext x, .ext y => let r := extAdd x y; (.ext r.1, r.2)
  | .ext (.fin x), .surd c => (mkSurd (List.zipWith (· + ·) (ratCoefs x) c), false)
  | .surd c, .ext (.fin x) => (mkSurd (List.zipWith (· + ·) c (ratCoefs x)), false)
  | .surd c, .surd d => (mkSurd (List.zipWith (· + ·) c d), false)
  | .ext x, _ => (.ext x, false)
  | _, .ext x => (.ext x, false)

/-- A product, and whether it makes a NaN from non-NaN operands. -/
def sMul (a b : Sval) : Sval × Bool :=
  match a, b with
  | .ext x, .ext y => let r := extMul x y; (.ext r.1, r.2)
  | .ext (.fin x), .surd c => (mkSurd (c.map (x * ·)), false)
  | .surd c, .ext (.fin x) => (mkSurd (c.map (x * ·)), false)
  | .surd c, .surd d => (mkSurd (mulCoefs c d), false)
  | .ext x, .surd c => (.ext (if surdNeg c then extNeg x else x), false)
  | .surd c, .ext x => (.ext (if surdNeg c then extNeg x else x), false)

def sNeg (a : Sval) : Sval :=
  match a with
  | .ext x => .ext (extNeg x)
  | .surd c => .surd (c.map (-·))

/-- `a < b`; a NaN is below nothing and above nothing. -/
def sLt (a b : Sval) : Bool :=
  match a, b with
  | .ext x, .ext y => extLt x y
  | .ext .nan, _ => false
  | _, .ext .nan => false
  | a, b => match (sAdd a (sNeg b)).1 with
    | .ext x => extLt x (.fin 0)
    | .surd c => surdNeg c

/-- The value of a LOG8 code (R31). -/
def log8Val (c : Nat) : Sval :=
  let m := bits c 0 7
  if m = 0 then .ext (.fin 0)
  else
    let v : Rat := (if bit c 7 then -1 else 1) * pow2 ((m / 8 : Nat) - 8 : Int)
    mkSurd ((List.range 8).map fun i => if i = m % 8 then v else 0)

/-- The activation functions of R129 on an extended value. -/
def activate (act : Nat) (z : Ext) : RVal :=
  match act, z with
  | 0, z => .exact z
  | _, .nan => .exact .nan
  | 1, .fin x => .exact (.fin (if 0 < x then x else 0))
  | 1, .pinf => .exact .pinf
  | 1, .ninf => .exact (.fin 0)
  | 2, .fin x => .exact (.fin (if 0 < x then x * x else 0))
  | 2, .pinf => .exact .pinf
  | 2, .ninf => .exact (.fin 0)
  | 3, .fin x =>
    if x = 0 then .exact (.fin 0)
    else
      let u := rabs x * (1 + mkRat 44715 1000000 * x * x)
      .encl fun n => let c := root8pi n; timesSigmoid n x (c.1 * u) (c.2 * u)
  | 3, .pinf => .exact .pinf
  | 3, .ninf => .exact (.fin 0)
  | 4, .fin x => if x = 0 then .exact (.fin 0) else .encl fun n => timesSigmoid n x (rabs x) (rabs x)
  | 4, .pinf => .exact .pinf
  | 4, .ninf => .exact (.fin 0)
  | _, .fin x =>
    if x = 0 then .exact (.fin (mkRat 1 2))
    else .encl fun n =>
      let e := expNeg n (rabs x)
      if 0 ≤ x then (1 / (1 + e.2), 1 / (1 + e.1)) else (e.1 / (1 + e.1), e.2 / (1 + e.2))
  | _, .pinf => .exact (.fin 1)
  | _, .ninf => .exact (.fin 0)

/-- The activation functions of R129 on a value. -/
def sActivate (act : Nat) (z : Sval) : RVal :=
  match z with
  | .ext x => activate act x
  | .surd c =>
    let up := !surdNeg c
    match act with
    | 0 => z.real
    | 1 => if up then z.real else .exact (.fin 0)
    | 2 => if up then (sMul z z).1.real else .exact (.fin 0)
    | 3 => .encl fun n =>
      let e := surdEncl c n
      let a := if up then e else (-e.2, -e.1)
      let u := fun x : Rat => max 0 x * (1 + mkRat 44715 1000000 * x * x)
      let k := root8pi n
      timesSigmoid2 n up e (k.1 * u a.1) (k.2 * u a.2)
    | 4 => .encl fun n =>
      let e := surdEncl c n
      let a := if up then e else (-e.2, -e.1)
      timesSigmoid2 n up e a.1 a.2
    | _ => .encl fun n =>
      let e := surdEncl c n
      let x := if up then expNegBetween n e.1 e.2 else expNegBetween n (-e.2) (-e.1)
      if up then (1 / (1 + x.2), 1 / (1 + x.1)) else (x.1 / (1 + x.1), x.2 / (1 + x.2))

/-- Scale a real value by a rational. -/
def rvalScale (s : Rat) (v : RVal) : RVal :=
  match v with
  | .exact x => .exact (extMul (.fin s) x).1
  | .encl f => .encl fun n => let e := f n; if 0 ≤ s then (s * e.1, s * e.2) else (s * e.2, s * e.1)

end Sys2Proof.Machine
end

