-- ==== Sys2Proof/Machine/Flags.lean ====
section
/-!
DEFINITION. The sticky flags of R330 and the status codes of R332, and how a command's end reports them (R331).
-/

namespace Sys2Proof.Machine

/-- Sticky flags, as bits of the reply's flag byte (R330). -/
def fNonfinite : BitVec 8 := 1#8
def fOverflow : BitVec 8 := 2#8
def fInvalid : BitVec 8 := 4#8
def fTopkNan : BitVec 8 := 8#8
def fScaleRange : BitVec 8 := 16#8
def fPartial : BitVec 8 := 32#8
def fClamped : BitVec 8 := 64#8
def fCorrected : BitVec 8 := 128#8

/-- A flag when a condition holds. -/
def flagIf (f : BitVec 8) (c : Bool) : BitVec 8 := if c then f else 0#8

/-- Status codes (R332). -/
def cOk : Nat := 0x00
def cOkFlags : Nat := 0x01
def cBadOpcode : Nat := 0x10
def cBadDescriptor : Nat := 0x11
def cAccFootprint : Nat := 0x12
def cFormatTag : Nat := 0x13
def cSparsity : Nat := 0x14
def cUnderrun : Nat := 0x20
def cOverrun : Nat := 0x21
def cWindow : Nat := 0x22
def cDomainOff : Nat := 0x23
def cAddrRange : Nat := 0x24
def cAliased : Nat := 0x30
def cOverQuota : Nat := 0x31
def cLinkDown : Nat := 0x40
def cRemoteError : Nat := 0x41
def cRemoteReset : Nat := 0x42
def cEcc : Nat := 0x50
def cResidue : Nat := 0x51
def cKeepWorn : Nat := 0x52
def cAborted : Nat := 0x60
def cFwRejected : Nat := 0x61

/-- A command's error end: its code, its fault address with `addr_kind` (R329), the remote device, and the log's
DETAIL (R498). -/
structure Fail where
  code : Nat
  addr : Nat := 0
  kind : Nat := 0
  remote : Nat := 0
  detail : Nat := 0
  /-- The refused access was an arrival on a command's behalf (R334, R498). -/
  arrival : Bool := false
  deriving DecidableEq, Repr

/-- A device address as a fault address. -/
def failAt (code addr : Nat) : Fail := { code := code, addr := addr % 2 ^ 48, kind := 1 }

/-- A register as a fault address, by its BAR0 offset: kind 4 in the log (R498), a device address in a reply (R329). -/
def failReg (code off : Nat) : Fail := { code := code, addr := off, kind := 4 }

/-- The `addr_kind` of a reply (R329): a register is of kind 1. -/
def replyKind (k : Nat) : Nat := if k = 4 then 1 else k

/-- A failure with no fault address. -/
def failPlain (code : Nat) : Fail := { code := code }

/-- The status of a command that ends without error (R331). -/
def okStatus (flags : BitVec 8) : Nat := if flags = 0#8 then cOk else cOkFlags

/-- A check that must hold, or the command ends. -/
def need (c : Bool) (f : Fail) : Except Fail Unit := if c then .ok () else .error f

end Sys2Proof.Machine
end

