-- ==== Sys2Proof/Machine/Ops.lean ====
section
/-!
DEFINITION. The named operations over the state: access to every store, the violation log, interrupts, power domains,
device and host memory with their guards, operations in flight and their replies.
-/

namespace Sys2Proof.Machine

/-- The outcome of a row. -/
abbrev Out := Host.Outcome State Fault Refusal

/-- A row that cannot occur in this state (DEDUCED, log 7). -/
def notNow : Out := .refused .notEnabled

/-! ### Accessors -/

def getQ (s : State) (q : Nat) : Queue := tget Queue.reset s.head.queues q

def setQ (s : State) (q : Nat) (v : Queue) : State :=
  { s with head := { s.head with queues := tput Queue.reset s.head.queues q v } }

def modQ (s : State) (q : Nat) (f : Queue → Queue) : State := setQ s q (f (getQ s q))

def setOps (s : State) (ops : List Op) : State := { s with head := { s.head with ops := ops } }

def getTally (s : State) (i : Nat) : BitVec 32 := tget 0#32 s.head.tallies i

def setTally (s : State) (i : Nat) (v : BitVec 32) : State :=
  { s with head := { s.head with tallies := tput 0#32 s.head.tallies i v } }

/-- An ADD, modulo 2^32 (R322). -/
def addTally (s : State) (i n : Nat) : State := setTally s i (getTally s i + BitVec.ofNat 32 n)

def getFunc (s : State) (f : Nat) : Func := tget (Func.reset f) s.pcie.funcs f

def setFunc (s : State) (f : Nat) (v : Func) : State :=
  { s with pcie := { s.pcie with funcs := tput (Func.reset f) s.pcie.funcs f v } }

def keepReg (s : State) (i : Nat) : BitVec 32 := tget 0#32 s.firm.keep i

def getSpindle (s : State) (i : Nat) : Spindle := tget Spindle.idle s.dies.spindles i

def setSpindle (s : State) (i : Nat) (v : Spindle) : State :=
  { s with dies := { s.dies with spindles := tput Spindle.idle s.dies.spindles i v } }

/-- Whether a port carries frames. -/
def carries (v : Port) : Bool :=
  match v.state with
  | .disabled | .down | .training => false
  | _ => true

def getPort (s : State) (p : Nat) : Port := tget Port.reset s.fab.ports p

def setPort (s : State) (p : Nat) (v : Port) : State :=
  { s with fab := { s.fab with ports := tput Port.reset s.fab.ports p v } }

def getWindow (s : State) (i : Nat) : Window := tget Window.closed s.fab.windows i

def setWindow (s : State) (i : Nat) (v : Window) : State :=
  { s with fab := { s.fab with windows := tput Window.closed s.fab.windows i v } }

def getRegion (s : State) (lathe k : Nat) : Region := tget Region.reset s.dies.regions (64 * lathe + k)

def setRegion (s : State) (lathe k : Nat) (v : Region) : State :=
  { s with dies := { s.dies with regions := tput Region.reset s.dies.regions (64 * lathe + k) v } }

/-- The pattern slot after a start: the default tables in slots 0 to 7, the others empty (R514 event 8). -/
def slotDefault (key : Nat) : PatSlot := if key % 64 < 8 then .preset else .empty

/-- What a lathe's pattern slot holds; a default table is that of the image that runs (R469, R514 event 8, R520). -/
def getSlot (s : State) (lathe slot : Nat) : PatSlot :=
  match tget (slotDefault slot) s.dies.patterns (64 * lathe + slot) with
  | .preset => defaultTable s.firm.executing slot
  | p => p

def setSlot (s : State) (lathe slot : Nat) (v : PatSlot) : State :=
  { s with dies := { s.dies with patterns := tput (slotDefault slot) s.dies.patterns (64 * lathe + slot) v } }

def getStream (s : State) (i : Nat) : Stream := tget Stream.reset s.head.streams i

def setStream (s : State) (i : Nat) (v : Stream) : State :=
  { s with head := { s.head with streams := tput Stream.reset s.head.streams i v } }

def getLimits (s : State) (key : Nat) : Limits := tget (Limits.cold key) s.head.limits key

def setLimits (s : State) (key : Nat) (v : Limits) : State :=
  { s with head := { s.head with limits := tput (Limits.cold key) s.head.limits key v } }

def emit (s : State) (m : Msg) : State := { s with out := s.out ++ [m] }

/-- Take a free value's index (DESIGN CHOICE, log 6). -/
def nextFree (s : State) : State := { s with freeIdx := s.freeIdx + 1 }

/-! ### Numbers of units (R12 to R17, R374) -/

def benchBase : Nat := 0x1000_0000_0000
def benchEnd : Nat := 0x1000_1000_0000
def regionBase : Nat := 0x1000_1000_0000
def regionEnd : Nat := 0x1000_1002_0000
def hbmEnd : Nat := 0x60_0000_0000
def stackBytes : Nat := 0xC_0000_0000

/-- The bench base address of a lathe (R147). -/
def latheBase (l : Nat) : Nat := benchBase + l * 0x20_0000

/-- Mesh row and column of a lathe (R12). -/
def meshRow (l : Nat) : Nat := (l % 64) / 8
def meshCol (l : Nat) : Nat := (if l < 64 then 0 else 8) + (l % 64) % 8

/-- The lathe at a mesh row and column. -/
def latheAt (r c : Nat) : Nat := (if c < 8 then 0 else 64) + r * 8 + c % 8

def dTail : Nat := 78
def dBridge : Nat := 79

/-- The domain state (R472). -/
def pd (s : State) (d : Nat) : PdState := tget (.settled .on) s.power.domains d

def setPd (s : State) (d : Nat) (v : PdState) : State :=
  { s with power := { s.power with domains := tput (.settled .on) s.power.domains d v } }

def pdOn (s : State) (d : Nat) : Bool := pd s d == .settled .on

/-- A unit on the east half is out of reach while the die bridge is not ON (R18). -/
def latheUp (s : State) (l : Nat) : Bool := pdOn s (l / 2) && (l < 64 || pdOn s dBridge)

def stackUp (s : State) (k : Nat) : Bool := pdOn s (64 + k) && (k < 4 || pdOn s dBridge)

/-! ### Interrupts and device events (R309, R440, R501, R502, R574) -/

/-- The mask bit of an MSI-X entry, set at reset. -/
def msixReset : BitVec 128 := BitVec.ofNat 128 (2 ^ 96)

def msixEntry (s : State) (fn v : Nat) : BitVec 128 := tget msixReset s.pcie.msix (4096 * fn + v)

/-- Raise a vector: the message goes out, or stays as a pending bit while the entry is masked (R309), Bus Master
Enable is 0 (R440), the function is in D3hot (R427), or the port has no link (DEDUCED, log 53). -/
def raiseMsix (s : State) (fn v : Nat) : State :=
  if bit (msixEntry s fn v).toNat 96 || !(getFunc s fn).busMaster || (getFunc s fn).d3hot || !s.glob.cfgUp then
    { s with pcie := { s.pcie with pba := tput false s.pcie.pba (4096 * fn + v) true } }
  else emit s (.msix fn v)

/-- Send the function's pending messages that nothing holds any longer (R440). -/
def flushMsix (s : State) (fn : Nat) : State :=
  let mine := s.pcie.pba.filter fun e => e.1 / 4096 = fn && e.2
  mine.foldl (fun s e =>
    raiseMsix { s with pcie := { s.pcie with pba := tput false s.pcie.pba e.1 false } } fn (e.1 % 4096)) s

/-- Set bits of DEV_EVENT; a change from 0 to 1 raises the device-event interrupt (R502). -/
def setDevEvent (s : State) (m : BitVec 4) : State :=
  let fresh := m &&& ~~~s.glob.devEvent
  let s := { s with glob := { s.glob with devEvent := s.glob.devEvent ||| m } }
  if fresh = 0#4 then s else raiseMsix s 0 s.glob.devVec.toNat

def eFenced : BitVec 4 := 1#4
def eCoreFault : BitVec 4 := 2#4
def eBridge : BitVec 4 := 4#4
def eLogLost : BitVec 4 := 8#4

/-! ### The violation log (R498 to R501) -/

/-- The BAR0 offsets of a keep register, a tally, a window and a queue's configuration (R568, R569). -/
def keepAddr (i : Nat) : Nat := 0x6000 + 4 * i
def tallyAddr (i : Nat) : Nat := 0x18_0000 + 8 * i
def winAddr (i : Nat) : Nat := 0x1_0000 + 0x20 * i
def sqcfgAddr (q : Nat) : Nat := 0x10_0000 + 0x1000 * q


/-- An entry's contents (R498). -/
structure LogRec where
  addr : Nat
  kind : Nat
  code : Nat
  source : Nat
  func : Nat := 0
  queue : Nat := 0
  remote : Nat := 0
  tag : Nat := 0
  opcode : Nat := 0
  detail : Nat := 0

/-- The 256 bits of an entry (R498). -/
def logWord (time : BitVec 64) (r : LogRec) : BitVec 256 :=
  BitVec.ofNat 256 (time.toNat + (r.addr % 2 ^ 48) * 2 ^ 64 + (r.kind % 16) * 2 ^ 112 + (r.code % 256) * 2 ^ 120
    + (r.source % 8) * 2 ^ 128 + (r.func % 32) * 2 ^ 136 + (r.queue % 64) * 2 ^ 144 + (r.remote % 64) * 2 ^ 152
    + (r.tag % 8192) * 2 ^ 160 + (r.opcode % 256) * 2 ^ 176 + (r.detail % 2 ^ 32) * 2 ^ 192)

/-- Saturating increment. -/
def satInc {w : Nat} (x : BitVec w) : BitVec w := if x = BitVec.allOnes w then x else x + 1#w

/-- Enter a violation, or count it as lost when the log is full (R499, R500); raise the log's interrupt when FILL goes
from 0 to 1 (R501). -/
def vlogAdd (s : State) (r : LogRec) : State :=
  if s.faults.vFill = 256 then
    let s' := { s with faults := { s.faults with lost := satInc s.faults.lost } }
    if s.faults.lost = 0#16 then setDevEvent s' eLogLost else s'
  else
    let f := s.faults
    let s' := { s with faults := { f with
      vlog := tput 0#256 f.vlog f.vTail.toNat (logWord s.glob.timestamp r)
      vTail := f.vTail + 1#8
      vFill := f.vFill + 1 } }
    if f.vFill = 0 && f.irqEn then raiseMsix s' 0 s'.glob.vlogVec.toNat else s'

/-! ### Device memory and its guards -/

/-- Whether an address is an HBM byte or a bench byte (R16, R147). -/
def isHbm (a : Nat) : Bool := a < hbmEnd
def isBench (a : Nat) : Bool := benchBase ≤ a && a < benchEnd

/-- The lathe of a bench address. -/
def latheOf (a : Nat) : Nat := (a - benchBase) / 0x20_0000

/-- A byte as the memories hold it. -/
def devByte (s : State) (a : Nat) : Byte := memByte s.mems.dev a

/-- `n` bytes of device memory. -/
def devBytes (s : State) (a n : Nat) : List Byte := (List.range n).map fun i => devByte s (a + i)

/-- Whether a settled or switching domain serves a narrow read (R149, R473, R477). -/
def readsServed (p : PdState) : Bool :=
  match p with
  | .settled .off => false
  | .settled _ => true
  | .switching .off _ _ _ => false
  | .switching _ _ _ _ => true

/-- Whether a domain serves a read, or takes a write. -/
def pdServes (s : State) (write : Bool) (d : Nat) : Bool := if write then pdOn s d else readsServed (pd s d)

/-- Whether the domain of an address, and the die bridge for the east half, serve a read or take a write (R16, R18, R149,
R473). -/
def addrServed (s : State) (write : Bool) (a : Nat) : Bool :=
  if isHbm a then pdServes s write (64 + a / stackBytes) && (a / stackBytes < 4 || pdServes s write dBridge)
  else pdServes s write (latheOf a / 2) && (latheOf a < 64 || pdServes s write dBridge)

/-- The size of the guarded unit at an address: an HBM sector or a bench row (R483, R488). -/
def unitSize (a : Nat) : Nat := if isHbm a then 64 else 512

/-- First addresses of the guarded units that a range of addresses touches. -/
def unitsOf (a n : Nat) : List Nat :=
  if n = 0 then []
  else
    let u := unitSize a
    let lo := a / u
    (List.range ((a + n - 1) / u - lo + 1)).map fun i => (lo + i) * u

/-- Count HBM and SRAM events (R482, R492). -/
def countCorr (s : State) (hbm : Bool) (addr kind : Nat) : State :=
  let f := s.faults
  { s with faults := { f with
    hbmCorr := if hbm then satInc f.hbmCorr else f.hbmCorr
    sramCorr := if hbm then f.sramCorr else satInc f.sramCorr
    lastAddr := BitVec.ofNat 48 addr
    lastKind := BitVec.ofNat 2 kind } }

def countUncorr (s : State) (hbm : Bool) : State :=
  let f := s.faults
  { s with faults := { f with
    hbmUncorr := if hbm then satInc f.hbmUncorr else f.hbmUncorr
    sramUncorr := if hbm then f.sramUncorr else satInc f.sramUncorr } }

/-- Change the list of latent errors. -/
def setUpsets (s : State) (us : List Upset) : State := { s with mems := { s.mems with upsets := us } }

/-- Whether a latent error lies in the guarded unit at an address. -/
def upsetIn (u : Nat) (x : Upset) : Bool :=
  match x with
  | .hbm a _ => a == u
  | .bench a _ => decide (¬ isHbm u) && a / 512 * 512 == u
  | _ => false

/-- The latent errors of a unit go when it is overwritten whole. -/
def dropUpset (s : State) (u : Nat) : State := setUpsets s (s.mems.upsets.filter fun x => !upsetIn u x)

def poisonAt (s : State) (u : Nat) : State :=
  { s with mems := { s.mems with poison := if s.mems.poison.contains u then s.mems.poison else u :: s.mems.poison } }

/-- The wrong symbols of a sector. -/
def wrongSymbols (s : State) (u : Nat) : List Nat :=
  (s.mems.upsets.filterMap fun x => match x with | .hbm a k => if a = u then some k else none | _ => none).dedup

/-- The wrong bits of a bench word. -/
def wrongBits (s : State) (w : Nat) : List Nat :=
  (s.mems.upsets.filterMap fun x => match x with | .bench a b => if a = w then some b else none | _ => none).dedup

/-- The words of a bench row, lowest first. -/
def rowWords (row : Nat) : List Nat := (List.range 64).map fun i => row + 8 * i

/-- The words of a row in which one bit is wrong, and whether more are in some word (R488). -/
def softWords (s : State) (row : Nat) : List Nat := (rowWords row).filter fun w => (wrongBits s w).length = 1
def hardRow (s : State) (row : Nat) : Bool := (rowWords row).any fun w => decide (1 < (wrongBits s w).length)

/-- Correct the words of a row in which one bit is wrong: each counts (R484, R488, R492). -/
def correctRow (s : State) (row : Nat) : State × BitVec 8 :=
  let ws := softWords s row
  let t := ws.foldl (fun s w => countCorr s false w 1) s
  (setUpsets t (t.mems.upsets.filter fun x => match x with | .bench a _ => !ws.contains a | _ => true), flagIf fCorrected (!ws.isEmpty))

/-- Read one guarded unit. A sector with one wrong symbol is corrected, one with more cannot be read and is poisoned, a poisoned
one stays so (R483 to R486). A bench row's words are corrected one by one, and a row with more than one wrong bit in a word, or
restored as one that did not read, cannot be read (R488, R511). -/
def guardUnit (s : State) (u : Nat) : State × BitVec 8 × Option Fail :=
  if isHbm u then
    if s.mems.poison.contains u then (countUncorr s true, 0#8, some (failAt cEcc u))
    else
      match wrongSymbols s u with
      | [] => (s, 0#8, none)
      | [_] => (dropUpset (countCorr s true u 0) u, fCorrected, none)
      | _ => (poisonAt (dropUpset (countUncorr s true) u) u, 0#8, some (failAt cEcc u))
  else
    let x := correctRow s u
    if s.mems.poison.contains u || hardRow s u then (countUncorr x.1 false, x.2, some (failAt cEcc u)) else (x.1, x.2, none)

/-- Read a run of guarded units in order, up to the first refusal. -/
def guardUnits (s : State) : List Nat → State × BitVec 8 × Option Fail
  | [] => (s, 0#8, none)
  | u :: r =>
    match guardUnit s u with
    | (s', f, some e) => (s', f, some e)
    | (s', f, none) => let (t, g, e) := guardUnits s' r; (t, f ||| g, e)

/-- The first address of a range that its domain refuses (R18, R149, R473). -/
def refusedIn (s : State) (write : Bool) (a n : Nat) : Option Nat :=
  (unitsOf a n).findSome? fun u => if addrServed s write u then none else some (max u a)

/-- Read `n` bytes at a device address by a narrow requester: domain, poison and ECC (R18, R149, R484, R485, R488). -/
def devRead (s : State) (a n : Nat) : State × BitVec 8 × Except Fail (List Byte) :=
  match refusedIn s false a n with
  | some x => (s, 0#8, .error (failAt cDomainOff x))
  | none =>
    match guardUnits s (unitsOf a n) with
    | (s', f, some e) => (s', f, .error e)
    | (s', f, none) => (s', f, .ok (devBytes s' a n))

/-- Count sectors read or written by a requester (R583). -/
def countHbm (s : State) (write : Bool) (sectors : List Nat) : State :=
  if s.perf.freeze then s
  else
    { s with perf := { s.perf with hbm := sectors.foldl (fun t u =>
      let k := 2 * (u / stackBytes) + b2n write
      tput 0#64 t k (tget 0#64 t k + 1#64)) s.perf.hbm } }

/-- Whether a range covers a unit whole. -/
def coversUnit (a n u : Nat) : Bool := a ≤ u && u + unitSize u ≤ a + n

/-- Write bytes into HBM, every sector whole or by a read-modify-write (R186); a write of a whole sector clears its
poison (R486), and a partial write of a sector that cannot be read does not take place there (R485). -/
def hbmWrite (s : State) (a : Nat) (bytes : List Byte) : State × BitVec 8 × Option Fail :=
  let n := bytes.length
  match refusedIn s true a n with
  | some x => (s, 0#8, some (failAt cDomainOff x))
  | none =>
    let us := unitsOf a n
    let part := us.filter fun u => !coversUnit a n u
    match guardUnits s part with
    | (s', f, some e) => (s', f, some e)
    | (s', f, none) =>
      let s' := countHbm (countHbm s' false part) true us
      ({ s' with mems := { s'.mems with
          dev := memWrite s'.mems.dev a bytes
          poison := s'.mems.poison.filter fun u => !(us.contains u)
          upsets := s'.mems.upsets.filter fun x => us.all fun u => !upsetIn u x } }, f, none)

/-- Commit a whole bench row: the bytes supplied at their offset, zeros elsewhere (R151, R154). -/
def rowCommit (s : State) (row off : Nat) (bytes : List Byte) : State :=
  { s with mems := { s.mems with
    dev := memWrite (memClear s.mems.dev row (row + 512)) (row + off) bytes
    poison := s.mems.poison.filter fun u => u ≠ row
    upsets := s.mems.upsets.filter fun x => !upsetIn row x } }

/-- The value of an I48 entry (R105). -/
def i48Ext (w : Nat) : Ext :=
  match bits w 56 2 with
  | 0 => .fin ((sext 56 w : Int) : Rat)
  | 1 => .pinf
  | 2 => .ninf
  | _ => .nan

/-- The 64-bit entry of an extended integer: a value outside 56 bits becomes an infinity (R105). -/
def i48Pack (x : Ext) : Nat :=
  match x with
  | .fin r =>
    let v := rfloor r
    if -(2 ^ 55 : Int) ≤ v ∧ v ≤ 2 ^ 55 - 1 then (v % (2 ^ 56 : Nat)).toNat
    else if v < 0 then 2 * 2 ^ 56 else 2 ^ 56
  | .pinf => 2 ^ 56
  | .ninf => 2 * 2 ^ 56
  | .nan => 3 * 2 ^ 56

/-- A value outside the 48-bit result range, read as an infinity (R106). -/
def i48Range (x : Ext) : Ext × Bool :=
  match x with
  | .fin r =>
    if -(2 ^ 47 : Int) ≤ rfloor r ∧ rfloor r ≤ 2 ^ 47 - 1 then (x, false) else (infOf (r < 0), true)
  | _ => (x, false)

/-- An arriving I48 entry added into a stored one, with its flags: the arriving entry's finite value outside the result
range first becomes an infinity, the stored one keeps its guard bits, and the reserved bits are cleared (R105, R110, R112,
R141, R175). -/
def i48Acc (old new : Nat) : Nat × BitVec 8 :=
  let (x, o) := i48Range (i48Ext new)
  let (t, i) := extAdd (i48Ext old) x
  let w := i48Pack t
  let out := match t with | .fin _ => bits w 56 2 != 0 | _ => false
  (w, flagIf fOverflow (o || out) ||| flagIf fInvalid i)

/-- Add the elements of a byte list into another by `wmode` 1 or 2, with their flags (R141, R175, R176). -/
def accBytes (wmode : Nat) : Nat → List Byte → List Byte → List Byte × BitVec 8
  | 0, _, _ => ([], 0#8)
  | k + 1, a, b =>
    if b.isEmpty then ([], 0#8)
    else if wmode = 1 then
      let x := i48Acc (leNat (a.take 8)) (leNat (b.take 8))
      let r := accBytes wmode k (a.drop 8) (b.drop 8)
      (leBytes 8 x.1 ++ r.1, x.2 ||| r.2)
    else
      let r := accBytes wmode k (a.drop 4) (b.drop 4)
      (leBytes 4 (leNat (a.take 4) + leNat (b.take 4)) ++ r.1, r.2)

/-- Accumulate into a bench row (R175, R176): the row is read, so a double-bit error fails the write (R488). -/
def rowAccumulate (s : State) (row off wmode : Nat) (bytes : List Byte) : State × BitVec 8 × Option Fail :=
  match guardUnit s row with
  | (s', f, some e) => (s', f, some e)
  | (s', f, none) =>
    let old := devBytes s' row 512
    let mid := accBytes wmode 128 (old.drop off) bytes
    (rowCommit s' row 0 (old.take off ++ mid.1 ++ old.drop (off + mid.1.length)), f ||| mid.2, none)

/-! ### Host memory (R431, R440, R441) -/

/-- The key of a byte of a function's bus addresses (R431). -/
def hostKey (fn a : Nat) : Nat := fn * 2 ^ 64 + a

/-- The host has written these bytes of its own memory, at a function's bus addresses (DESIGN CHOICE, log 4). -/
def mergeHost (s : State) (fn : Nat) (h : HostReply) : State :=
  match h with
  | .data cells | .partly cells _ =>
    { s with mems := { s.mems with host := cells.foldl (fun m c => memPut m (hostKey fn c.1) c.2) s.mems.host } }
  | _ => s

/-- A host access of a function fails: with an error, or with poisoned data (R441). -/
def hostRefusal (poisoned : Bool) (a : Nat) : Fail := { code := if poisoned then cEcc else cAddrRange, addr := a % 2 ^ 48, kind := 2 }

/-- The failure of a read of `n` bytes of host memory for a function: Bus Master Enable 0 (R440), an error or a timeout, or
poisoned data (R441). -/
def hostFault (s : State) (fn : Nat) (h : HostReply) (a n : Nat) : Option Fail :=
  if !(getFunc s fn).busMaster then some (hostRefusal false a)
  else
    match h with
    | .data _ => none
    | .error => some (hostRefusal false a)
    | .poisoned => some (hostRefusal true a)
    | .partly _ bad => (bad.find? fun x => decide (a ≤ x.1 ∧ x.1 < a + n)).map fun x => hostRefusal x.2 a

def hostBytes (s : State) (fn a n : Nat) : List Byte := memRead s.mems.host (hostKey fn a) n

/-- The routing ID of a function, counted from the physical function's: First VF Offset 1 and VF Stride 1 (R428). -/
def firstVfOffset : Nat := 1
def vfStride : Nat := 1
def routingId (fn : Nat) : Nat := if fn = 0 then 0 else firstVfOffset + vfStride * (fn - 1)

/-- The secured IDE stream that a request to host memory goes in: one whose registers name its address (R446). -/
def hostStream (s : State) (a : Nat) : Option Nat :=
  (List.range 4).find? fun i =>
    let v := tget IdeStream.reset s.pcie.ide i
    v.secure && v.host.any fun r => decide (r.1 ≤ a ∧ a < r.2)

/-- Write host memory for a function: the request bears its requester ID, the Relaxed Ordering attribute when it is a data write
and the function lets it, and its stream (R431, R442, R446). -/
def hostWrite (s : State) (fn a : Nat) (bytes : List Byte) (data : Bool) : State :=
  emit { s with mems := { s.mems with host := memWrite s.mems.host (hostKey fn a) bytes } }
    (.memWrite (routingId fn) (data && (getFunc s fn).relaxed) (hostStream s a) a bytes)

/-! ### The core domain's words (R491) -/

/-- Where a core word is reported: its register's BAR0 offset; the route table and the tags have none (DESIGN CHOICE, log 16).
-/
def coreAddr (w : CoreWord) : Nat :=
  match w with
  | .tally i => tallyAddr i
  | .window i => winAddr i
  | .queue q => sqcfgAddr q
  | .route _ | .tag _ _ => 0

def coreFail (w : CoreWord) : Fail := match w with | .route _ | .tag _ _ => failPlain cEcc | _ => failReg cEcc (coreAddr w)

/-- The wrong bits of a core word, and whether it cannot be corrected. -/
def coreBits (s : State) (w : CoreWord) : List Nat :=
  (s.mems.upsets.filterMap fun x => match x with | .core v b => if v = w then some b else none | _ => none).dedup
def coreBad (s : State) (w : CoreWord) : Bool := decide (1 < (coreBits s w).length)

/-- A core-domain error that cannot be corrected (R491). -/
def coreFault (s : State) : State := setDevEvent (countUncorr s false) eCoreFault

/-- A core word is used: an error in one bit is corrected and counted, one in more is a core fault (R491, R492). -/
def useCore (s : State) (w : CoreWord) : State :=
  match coreBits s w with
  | [] => s
  | [_] =>
    let t := countCorr s false (coreAddr w) 3
    setUpsets t (t.mems.upsets.filter fun x => match x with | .core v _ => v != w | _ => true)
  | _ => coreFault s

/-- Use core words one after another, up to the first that cannot be corrected. -/
def useCores (s : State) : List CoreWord → State × Option Fail
  | [] => (s, none)
  | w :: r => if coreBad s w then (useCore s w, some (coreFail w)) else useCores (useCore s w) r

/-- A tally is written whole: what was wrong in it is gone, unless it is a core fault (R491). -/
def freshTally (s : State) (i : Nat) : State :=
  if coreBad s (.tally i) then s
  else setUpsets s (s.mems.upsets.filter fun x => match x with | .core v _ => v != .tally i | _ => true)

/-! ### Operations in flight -/

def findOp (s : State) (q tag : Nat) : Option Op := s.head.ops.find? fun o => o.q = q && o.tag = tag

/-- Replace the operation of a queue and tag. -/
def putOp (s : State) (o : Op) : State :=
  setOps s (s.head.ops.map fun p => if p.q = o.q && p.tag = o.tag then o else p)

def delOp (s : State) (q tag : Nat) : State := setOps s (s.head.ops.filter fun o => !(o.q = q && o.tag = tag))

def opCode (o : Op) : Nat := bits o.packet 0 8

/-- The function of an operation's queue (R431). -/
def opFunc (s : State) (o : Op) : Nat := (getQ s o.q).func.toNat

/-- End an operation without error: its flags, and 0x00 or 0x01 (R331). -/
def endOk (s : State) (o : Op) (flags : BitVec 8) : State :=
  let f := o.flags ||| flags
  putOp s { o with phase := .ended, flags := f, status := okStatus f }

/-- Change every spindle. -/
def mapSpindles (s : State) (f : Spindle → Spindle) : State :=
  { s with dies := { s.dies with spindles := (s.dies.spindles.map fun e => (e.1, f e.2)).filter fun e => e.2 != Spindle.idle } }

/-- A spindle as it takes up a command: no chuck is in, and its group registers are zero (R74). -/
def Spindle.cleared (sp : Spindle) : Spindle :=
  { sp with held := ⟨[], [], []⟩, loading := none, pos := [], regs := [], resids := [], drain := [], pair := [] }

/-- A spindle without the steps it has taken for the command it works on: its sets stand as they stood before, its group
registers are zero (R74), and the command begins anew. -/
def Spindle.rewind (sp : Spindle) : Spindle :=
  match sp.job with
  | none => sp
  | some j =>
    if j.chuck = 0 then sp
    else { sp.cleared with
      acc := j.acc0, tags := j.tags0, set0 := j.set00, set1 := j.set10, next1 := j.next0, opened := j.opened0, tiles := j.tiles0
      job := some { j with chuck := 0, rounds := [] } }

/-- A spindle that works no longer on the command of a queue and tag. -/
def Spindle.release (q tag : Nat) (sp : Spindle) : Spindle :=
  if sp.job.any fun j => j.q == q && j.tag == tag then { sp.rewind with job := none } else sp

/-- The spindles and match units that worked on a command let go of it. -/
def dropJobs (s : State) (q tag : Nat) : State :=
  let t := mapSpindles s (Spindle.release q tag)
  { t with dies := { t.dies with matches_ := t.dies.matches_.filter fun e => !(e.2.q == q && e.2.tag == tag) } }

/-- The log entry of a command's error end (R498). -/
def opLog (s : State) (o : Op) (e : Fail) : LogRec where
  addr := e.addr
  kind := e.kind
  code := e.code
  source := if e.arrival then 4 else 0
  func := opFunc s o
  queue := o.q
  remote := e.remote
  tag := o.tag
  opcode := opCode o
  detail := e.detail

/-- End an operation with an error: its code and address, and exactly one log entry (R331, R498). -/
def endFail (s : State) (o : Op) (flags : BitVec 8) (e : Fail) : State :=
  vlogAdd (putOp (dropJobs s o.q o.tag) { o with
    phase := .ended, flags := o.flags ||| flags, status := e.code, faultAddr := e.addr, addrKind := replyKind e.kind,
    remoteId := e.remote }) (opLog s o e)

/-- End an operation with what a body answers. -/
def endWith (s : State) (o : Op) (flags : BitVec 8) (e : Option Fail) : State :=
  match e with
  | none => endOk s o flags
  | some e => endFail s o flags e

/-- The result of a command's body: the state with its writes, its flags, and its error, if any. -/
structure Res where
  s : State
  flags : BitVec 8 := 0#8
  err : Option Fail := none

/-- Whether a command writes host memory: its reply to that waits in D3hot (R427). -/
def writesHost (o : Op) : Bool :=
  match opCode o with
  | 0x30 => bit o.packet (352 + 133)
  | 0x35 => bit o.packet (352 + 84)
  | 0x60 => bit o.packet (352 + 80)
  | 0x64 => bits o.packet 352 2 == 0
  | _ => false

/-- Whether data writes of a command wait for its function to leave D3hot (R427). -/
def heldByD3 (s : State) (o : Op) : Bool := writesHost o && (getFunc s (opFunc s o)).d3hot

/-- The body of a started command of opcode `code`, run whole and indivisibly: the operation then has ended, with the body's
writes, flags and status (R316, R330, R331). A row whose operation is not started cannot occur (DEDUCED, log 7, DESIGN CHOICE,
log 3). -/
def runBody (code : Nat) (body : State → Op → HostReply → Res) (r : OpRef) (s : State) : Out :=
  match findOp s r.q r.tag with
  | some o =>
    if o.phase = .started && opCode o = code && !heldByD3 s o then
      let x := body (mergeHost s (opFunc s o) r.host) o r.host
      .next (endWith x.s o x.flags x.err)
    else notNow
  | none => notNow

/-- Whether an operation of opcode `code` is started. -/
def startedAs (s : State) (r : OpRef) (code : Nat) (o : Op) : Bool :=
  findOp s r.q r.tag == some o && o.phase == .started && opCode o == code

/-! ### Replies (R308, R309, R329) -/

/-- The 128 bits of a reply (R329); the phase is filled in when it is written. -/
def replyWord (q tag dup status flags opcode addr kind remote : Nat) : BitVec 128 :=
  BitVec.ofNat 128 (tag % 8192 + (dup % 2) * 2 ^ 13 + (status % 256) * 2 ^ 16 + (flags % 256) * 2 ^ 24
    + (opcode % 256) * 2 ^ 32 + (q % 64) * 2 ^ 40 + (if kind = 0 then 0 else addr % 2 ^ 48) * 2 ^ 64
    + (kind % 16) * 2 ^ 112 + (if kind = 3 then remote % 64 else 0) * 2 ^ 120)

def opReply (o : Op) : BitVec 128 :=
  replyWord o.q o.tag 0 o.status o.flags.toNat (opCode o) o.faultAddr o.addrKind o.remoteId

/-- Unreleased replies of a status ring. -/
def stqUsed (v : Queue) : Nat := (v.stqTail.toNat + 2 ^ v.stqLog2.toNat - v.stqHead.toNat) % 2 ^ v.stqLog2.toNat

/-- Whether the status ring has room for a reply (R308). -/
def stqSpace (v : Queue) : Bool := decide (stqUsed v < 2 ^ v.stqLog2.toNat - 1)

/-- The address of the next reply. -/
def stqAddr (v : Queue) : Nat := v.stqBase.toNat + 16 * v.stqTail.toNat

/-- Whether the headstock may write a reply now: the ring has room (R308), a ring in host memory takes writes (R427,
R440), and the stack of a ring in HBM serves them (R473). -/
def stqRoom (s : State) (q : Nat) : Bool :=
  let v := getQ s q
  stqSpace v &&
    (if v.loc then stqAddr v + 16 ≤ hbmEnd && addrServed s true (stqAddr v)
     else (getFunc s v.func.toNat).busMaster && !(getFunc s v.func.toNat).d3hot)

/-- A reply with its phase bit. -/
def withPhase (r : BitVec 128) (p : Bool) : BitVec 128 := BitVec.ofNat 128 (setBits r.toNat 14 1 (b2n p))

/-- The headstock's own write of a ring entry in HBM: a sector that cannot be read keeps its bytes and the refusal is
logged (R485, R486). -/
def ringWrite (s : State) (a : Nat) (bytes : List Byte) : State :=
  match hbmWrite s a bytes with
  | (s', _, none) => s'
  | (s', _, some e) => vlogAdd s' { addr := e.addr, kind := e.kind, code := e.code, source := 5 }

/-- What a ring in HBM meets at STQ_TAIL: the sector of the reply to come, with the error it holds, if any (R485, R486). -/
def ringGuard (s : State) (q : Nat) : State × BitVec 8 × Option Fail :=
  let v := getQ s q
  if v.loc then guardUnits s (unitsOf (stqAddr v) 16) else (s, 0#8, none)

/-- Whether the sector at STQ_TAIL cannot be written: a reply waits there until a write replaces the sector (R308, R486;
DEDUCED, log 70). -/
def ringBad (s : State) (q : Nat) : Bool := (ringGuard s q).2.2.isSome

/-- Write one reply at STQ_TAIL and advance; the phase changes at the wrap (R308); raise the vector when asked for or
when the status is 0x10 or above (R309); an error status halts a queue that asks for it (R333). -/
def writeReply (s : State) (q : Nat) (r : BitVec 128) (irq : Bool) : State :=
  let v := getQ s q
  let bytes := leBytes 16 (withPhase r v.phase).toNat
  let s := if v.loc then ringWrite s (stqAddr v) bytes else hostWrite s v.func.toNat (stqAddr v) bytes false
  let wrap := v.stqTail.toNat + 1 = 2 ^ v.stqLog2.toNat
  let bad := 0x10 ≤ bits r.toNat 16 8
  let s := setQ s q { v with
    stqTail := if wrap then 0#16 else v.stqTail + 1#16
    phase := if wrap then !v.phase else v.phase
    halted := v.halted || (v.haltOnErr && bad) }
  if irq || bad then raiseMsix s v.func.toNat v.msix.toNat else s

/-- A reply waits behind those that wait for room (R308). -/
def deferReply (s : State) (q : Nat) (r : BitVec 128) (irq : Bool) : State :=
  modQ s q fun v => { v with deferred := v.deferred ++ [(r, irq)] }

/-- Whether a reply can be written as soon as it is there (R308). -/
def replyFits (s : State) (q : Nat) : Bool := (getQ s q).deferred.isEmpty && stqRoom s q

/-- Write a reply, or let it wait behind those that wait for room (R308); a sector that cannot be written is logged, and the
reply waits. -/
def postReply (s : State) (q : Nat) (r : BitVec 128) (irq : Bool) : State :=
  if replyFits s q then
    match ringGuard s q with
    | (s', _, none) => writeReply s' q r irq
    | (s', _, some e) => deferReply (vlogAdd s' { addr := e.addr, kind := e.kind, code := e.code, source := 5 }) q r irq
  else deferReply s q r irq

/-! ### Fences (R503 to R506) -/

def latheFenced (s : State) (l : Nat) : Bool := s.dies.fencedLathes.contains l

def spindleFenced (s : State) (i : Nat) : Bool := s.dies.fencedSpindles.contains i || latheFenced s (i / 64)

/-- Unfenced spindles of a lathe, 0 for a fenced one (R14, R572). -/
def spindlesUp (s : State) (l : Nat) : List Nat :=
  if latheFenced s l then []
  else (List.range 64).filter fun i => !(s.dies.fencedSpindles.contains (64 * l + i))

end Sys2Proof.Machine
end

