-- ==== Sys2Proof/Machine/Operands.lean ====
section
/-!
DEFINITION. The operand forms: the packet (R311, R346), the layer descriptor and its reference block (R348, R350),
tensor references and elements in HBM (R183, R32, R211), bench operand references and their rows (R155, R156).
-/

namespace Sys2Proof.Machine

/-! ### The packet (R311, R346) -/

/-- Inline parameter bits, from byte 44. -/
def inl (o : Op) (lo n : Nat) : Nat := bits o.packet (352 + lo) n

/-- Further parameter bits, from byte 52. -/
def fur (o : Op) (lo n : Nat) : Nat := bits o.packet (416 + lo) n

def pIrq (o : Op) : Bool := bit o.packet 21
def pFence (o : Op) : Bool := bit o.packet 22
def pIndirect (o : Op) : Bool := bit o.packet 23
def pWaitAny (o : Op) : Bool := bit o.packet 24
def pSigAlways (o : Op) : Bool := bit o.packet 25
def pNWait (o : Op) : Nat := bits o.packet 32 2
def pNSig (o : Op) : Nat := bits o.packet 36 2

/-- Wait entry i of the packet, 64 bits, and signal entry i, 32 bits. -/
def waitEntry (o : Op) (i : Nat) : Nat := bits o.packet (64 + 64 * i) 64
def sigEntry (o : Op) (i : Nat) : Nat := bits o.packet (256 + 32 * i) 32

def descPtr (o : Op) : Nat := inl o 0 48
def descHost (o : Op) : Bool := bit o.packet (352 + 48)

/-! ### The layer descriptor (R348) -/

/-- Bits `[lo + n - 1 : lo]` of descriptor word `w`. -/
def fld (o : Op) (w lo n : Nat) : Nat := bits o.desc (64 * w + lo) n

def fSerialB (o : Op) : Bool := bit o.desc (64 * 18)
def fSplit (o : Op) : Nat := fld o 18 1 3
def fAddgrp (o : Op) : Nat := fld o 18 4 2
def fGsize (o : Op) : Nat := fld o 18 6 2
def fAccFmt (o : Op) : Nat := fld o 18 8 2
def fA16Fp16 (o : Op) : Bool := bit o.desc (64 * 18 + 10)
def fContinue (o : Op) : Bool := bit o.desc (64 * 18 + 11)
def fKeep (o : Op) : Bool := bit o.desc (64 * 18 + 12)
def fSpill (o : Op) : Bool := bit o.desc (64 * 18 + 13)
def fDefer (o : Op) : Bool := bit o.desc (64 * 18 + 14)
def fCsrA (o : Op) : Bool := bit o.desc (64 * 18 + 15)
def fCsrB (o : Op) : Bool := bit o.desc (64 * 18 + 16)
def fI48Exp (o : Op) : Int := sext 8 (fld o 18 17 8)
def fGrit (o : Op) : Nat := fld o 18 25 3
def fPatA (o : Op) : Nat := fld o 18 28 6
def fPatB (o : Op) : Nat := fld o 18 34 6
def fExpA (o : Op) : Int := sext 8 (fld o 18 40 8)
def fExpB (o : Op) : Int := sext 8 (fld o 18 48 8)
def fExpC (o : Op) : Int := sext 8 (fld o 18 56 8)
def fSclA (o : Op) : Nat := fld o 19 0 2
def fSclB (o : Op) : Nat := fld o 19 2 2
def fSclC (o : Op) : Nat := fld o 19 4 2
def fEpiScale (o : Op) : Nat := fld o 19 6 2
def fEpiBias (o : Op) : Nat := fld o 19 8 2
def fEpiAct (o : Op) : Nat := fld o 19 10 3
def fTopk (o : Op) : Nat := fld o 19 13 4
def fTopkOnly (o : Op) : Bool := bit o.desc (64 * 19 + 17)
def fEpiRound (o : Op) : Bool := bit o.desc (64 * 19 + 18)
def fEpiStream (o : Op) : Nat := fld o 19 19 10
def fReplay (o : Op) : Bool := bit o.desc (64 * 19 + 29)
def fEpiScaleVal (o : Op) : Nat := fld o 19 32 32
def fStreamCi (o : Op) : Nat := fld o 20 0 24
def fSpThresh (o : Op) : Nat := fld o 20 24 8
def fMeshRows (o : Op) : Nat := fld o 20 32 8
def fWestOnly (o : Op) : Bool := bit o.desc (64 * 20 + 40)
def fMapMode (o : Op) : Nat := fld o 20 41 2
def fKerfEn (o : Op) : Bool := bit o.desc (64 * 20 + 43)
def fKerfTally (o : Op) : Nat := fld o 20 44 12
def fSpPath (o : Op) : Nat := fld o 20 56 2
def fPatC (o : Op) : Nat := fld o 20 58 6
def fAuxPtr (o : Op) : Nat := fld o 21 0 48
def fAuxHost (o : Op) : Bool := bit o.desc (64 * 21 + 48)
def fAuxMask (o : Op) : Nat := fld o 21 49 8
def fShardB (o : Op) : Nat := fld o 22 0 3
def fShardM (o : Op) : Nat := fld o 22 3 3
def fShardN (o : Op) : Nat := fld o 22 6 3
def fShardK (o : Op) : Nat := fld o 22 9 3
def fKpart (o : Op) : Nat := fld o 22 12 3
def fOrdPod (o : Op) : Nat := fld o 22 16 8
def fOrdHbm (o : Op) : Nat := fld o 22 24 8
def fOrdBench (o : Op) : Nat := fld o 22 32 8
def fOrdChuck (o : Op) : Nat := fld o 22 40 8
def fHbmB (o : Op) : Nat := fld o 22 48 16
def fHbmM (o : Op) : Nat := fld o 23 0 20
def fHbmN (o : Op) : Nat := fld o 23 20 20
def fHbmK (o : Op) : Nat := fld o 23 40 20
def fBtM (o : Op) : Nat := fld o 24 0 9
def fBtN (o : Op) : Nat := fld o 24 16 13
def fBtK (o : Op) : Nat := fld o 24 32 17
def fKnotRef (o : Op) : Nat := fld o 25 0 48
def fRough (o : Op) : Nat := fld o 25 48 4
def fEstimate (o : Op) : Bool := bit o.desc (64 * 25 + 52)
def fAudit (o : Op) : Nat := fld o 25 53 4
def fSkipFill (o : Op) : Nat := fld o 25 57 2
def fAttEn (o : Op) : Bool := bit o.desc (64 * 25 + 59)
def fThresh (o : Op) : Nat := fld o 26 0 32
def fAttWindow (o : Op) : Nat := fld o 26 32 24
def fAttQ0 (o : Op) : Nat := fld o 27 0 32
def fAttK0 (o : Op) : Nat := fld o 27 32 32
def fVeOp (o : Op) : Nat := fld o 25 0 8
def fVeSub (o : Op) : Bool := bit o.desc (64 * 25 + 8)
def fRms (o : Op) : Bool := bit o.desc (64 * 25 + 9)
def fEps (o : Op) : Nat := fld o 25 32 32
def fKeepThr (o : Op) : Nat := fld o 26 0 24
def fRowPart (o : Op) : Nat := max 1 (fld o 26 32 32)
/-- Immediate `i`: words 27 (imm0, imm1) and 29 to 31 (imm2 to imm7). -/
def fImm (o : Op) (i : Nat) : Nat := if i < 2 then fld o 27 (32 * i) 32 else fld o (28 + i / 2) (32 * (i % 2)) 32
def fMPtr (o : Op) : Nat := fld o 28 0 48
def fMDyn (o : Op) : Bool := bit o.desc (64 * 28 + 48)
def fMembers (o : Op) : Nat := fld o 29 0 64

/-- The quantisation group size (R348): 32, 64 or 128. -/
def gOf (o : Op) : Nat := 32 * 2 ^ fGsize o

/-- Lanes per cell L, held magnitude bits B of a split (R70). -/
def lanesOf (split : Nat) : Nat :=
  match split with | 0 => 1 | 1 => 2 | 2 => 4 | 3 => 8 | _ => 4
def heldBits (split : Nat) : Nat :=
  match split with | 0 => 24 | 1 => 15 | 2 => 7 | _ => 3

/-- The address of descriptor word `w`, as a BAD_DESCRIPTOR's fault address (R332): a device or a host bus address by
where the descriptor lies (R329). -/
def atWord (o : Op) (code w : Nat) : Fail :=
  { code := code, addr := (descPtr o + 8 * w) % 2 ^ 48, kind := if descHost o then 2 else 1 }

def badWord (o : Op) (w : Nat) : Fail := atWord o cBadDescriptor w

/-- The address of reference-block entry `i` (R350), likewise. -/
def atAux (o : Op) (code i : Nat) : Fail :=
  { code := code, addr := (fAuxPtr o + 32 * i) % 2 ^ 48, kind := if fAuxHost o then 2 else 1 }

/-! ### Tensor references (R183, R184) -/

/-- A tensor reference; `code` is its format code. -/
structure TRef where
  base : Nat
  code : Nat
  inner : Bool
  rows : Nat
  cols : Nat
  batch : Nat
  lineStride : Nat
  batchStride : Nat
  reserved : Nat
  /-- The first 64-bit word with a reserved bit set. -/
  resWord : Nat
  at_ : Fail

/-- Read a tensor reference from its 256 bits (R183). -/
def mkTRef (w : Nat) (at_ : Fail) : TRef where
  base := bits w 0 48
  code := bits w 48 5
  inner := bit w 53
  rows := bits w 64 32
  cols := bits w 96 32
  batch := bits w 128 16
  lineStride := bits w 160 32
  batchStride := bits w 192 40
  reserved := bits w 54 10 + bits w 144 16 + bits w 232 24
  resWord := if bits w 54 10 ≠ 0 then 0 else if bits w 144 16 ≠ 0 then 2 else 3
  at_ := at_

def refA (o : Op) : TRef := mkTRef (bits o.desc 0 256) (badWord o 0)
def refB (o : Op) : TRef := mkTRef (bits o.desc 256 256) (badWord o 4)
def refC (o : Op) : TRef := mkTRef (bits o.desc 512 256) (badWord o 8)
def auxRef (o : Op) (i : Nat) : TRef := mkTRef (bits o.aux (256 * i) 256) (atAux o cBadDescriptor i)

/-- The format of a reference; a reserved code reads as INT32, and the checks refuse it first (R28). -/
def TRef.fmt (r : TRef) : Fmt := (fmtOf r.code).getD .int32

/-- Lines of a batch item, and elements in a line (R183). -/
def TRef.lines (r : TRef) : Nat := if r.inner then r.cols else r.rows
def TRef.perLine (r : TRef) : Nat := if r.inner then r.rows else r.cols

/-- Address of line `l` of batch item `b`. -/
def TRef.lineAddr (r : TRef) (b l : Nat) : Nat := r.base + b * r.batchStride * 64 + l * r.lineStride * 64

/-- Where element (b, i, j) of `width` bits lies: the address of its first byte, and its bit offset there. -/
def TRef.elemAt (r : TRef) (width b i j : Nat) : Nat × Nat :=
  let pos := (if r.inner then i else j) * width
  (r.lineAddr b (if r.inner then j else i) + pos / 8, pos % 8)

/-- A failure at 64-bit word `i` of a reference: the word that holds the field (R332). -/
def TRef.atField (r : TRef) (i : Nat) : Fail := { r.at_ with addr := (r.at_.addr + 8 * i) % 2 ^ 48 }

/-- The first byte out of range, of the first line and batch item that leave HBM (R184). -/
def TRef.firstBeyond (r : TRef) (width : Nat) : Nat :=
  let n := lineBytesW width r.perLine
  let step := fun (stop d : Nat) => if hbmEnd < stop then 0 else (hbmEnd - stop) / d + 1
  let b := step (r.lineAddr 0 (r.lines - 1) + n) (r.batchStride * 64)
  let l := step (r.lineAddr b 0 + n) (r.lineStride * 64)
  max hbmEnd (r.lineAddr b l)

/-- The checks of R184 on a reference whose elements have `width` bits. -/
def checkTRef (r : TRef) (width : Nat) : Except Fail Unit := do
  need (r.reserved = 0) (r.atField r.resWord)
  need (r.base % 64 = 0) r.at_
  need (r.rows ≠ 0 && r.cols ≠ 0) (r.atField 1)
  need (r.batch ≠ 0) (r.atField 2)
  need (lineBytesW width r.perLine ≤ r.lineStride * 64) (r.atField 2)
  let last := r.lineAddr (r.batch - 1) (r.lines - 1) + lineBytesW width r.perLine - 1
  need (last < hbmEnd) (failAt cAddrRange (r.firstBeyond width))

/-- The reference with another first extent (R352). -/
def TRef.withRows (r : TRef) (m : Nat) : TRef := { r with rows := m }

/-- The reference under the row count read at `m_ptr` (R352). -/
def dynRows (o : Op) (r : TRef) : TRef :=
  match o.mCount with
  | some m => r.withRows m
  | none => r

/-! ### Elements in HBM -/

/-- Bits of one field in memory. -/
def fieldAt (s : State) (a off width : Nat) : Nat := bits (leNat (devBytes s a (cdiv (off + width) 8))) off width

/-- The code of element (b, i, j); an operand of batch 1 serves every item (R608). -/
def elemW (s : State) (r : TRef) (width b i j : Nat) : Nat :=
  let b := if r.batch ≤ 1 then 0 else b
  let p := r.elemAt width b i j
  fieldAt s p.1 p.2 width

def elemCode (s : State) (r : TRef) (b i j : Nat) : Nat := elemW s r (fmtBits r.fmt) b i j

/-- The byte ranges of a tensor's lines (R209: no more of a line than its elements). -/
def TRef.ranges (r : TRef) (width : Nat) : List (Nat × Nat) :=
  (List.range r.batch).flatMap fun b => (List.range r.lines).map fun l =>
    (r.lineAddr b l, cdiv (r.perLine * width) 8)

/-- Codes of `width` bits as one packed number (R32). -/
def packCodes (width : Nat) : List Nat → Nat
  | [] => 0
  | c :: r => c % 2 ^ width + 2 ^ width * packCodes width r

/-- Bytes for a run of codes that starts `off` bits into the byte at `a`: the bits before it keep what memory holds,
and so do those after it when the line goes on in elements that are not written (R211); else they are zero (R33). -/
def runBytes (s : State) (a off width : Nat) (more : Bool) (codes : List Nat) : List Byte :=
  let n := off + codes.length * width
  let w := packCodes width codes * 2 ^ off + bits (devByte s a).toNat 0 off
  let k := cdiv n 8
  if more ∧ n % 8 ≠ 0 then
    leBytes k (w + (bits (devByte s (a + (k - 1))).toNat (n % 8) (8 - n % 8)) * 2 ^ n)
  else leBytes k w

/-- What to write for the elements (b, i, j) with i in `[i0, i1)` and j in `[j0, j1)`, codes `f i j`: addresses and
bytes, line by line. `r` stands as in memory (R211, R352). -/
def planRect (s : State) (r : TRef) (width b i0 i1 j0 j1 : Nat) (f : Nat → Nat → Nat) : List (Nat × List Byte) :=
  let (l0, l1, p0, p1) := if r.inner then (j0, j1, i0, i1) else (i0, i1, j0, j1)
  if p1 ≤ p0 then []
  else
    (List.range (l1 - l0)).map fun d =>
      let l := l0 + d
      let a := r.lineAddr b l + p0 * width / 8
      let codes := (List.range (p1 - p0)).map fun e => if r.inner then f (p0 + e) l else f l (p0 + e)
      (a, runBytes s a (p0 * width % 8) width (p1 < r.perLine) codes)

/-- What to write for the first `m` of a tensor's first extent, all of its second, with element codes `f b i j`. -/
def planTensor (s : State) (r : TRef) (m width : Nat) (f : Nat → Nat → Nat → Nat) : List (Nat × List Byte) :=
  (List.range r.batch).flatMap fun b => planRect s r width b 0 m 0 r.cols (f b)

/-- Carry out writes to HBM, up to the first that is refused (R316). -/
def writeAll (s : State) : List (Nat × List Byte) → State × BitVec 8 × Option Fail
  | [] => (s, 0#8, none)
  | (a, bs) :: r =>
    match hbmWrite s a bs with
    | (s', f, some e) => (s', f, some e)
    | (s', f, none) => let (t, g, e) := writeAll s' r; (t, f ||| g, e)

/-- Read the guarded units of a list of ranges, in order, counting the sectors (R483 to R488, R583). -/
def readAll (s : State) : List (Nat × Nat) → State × BitVec 8 × Option Fail
  | [] => (s, 0#8, none)
  | (a, n) :: r =>
    match refusedIn s false a n with
    | some x => (s, 0#8, some (failAt cDomainOff x))
    | none =>
      match guardUnits s (unitsOf a n) with
      | (s', f, some e) => (s', f, some e)
      | (s', f, none) =>
        let s' := if isHbm a then countHbm s' false (unitsOf a n) else s'
        let (t, g, e) := readAll s' r
        (t, f ||| g, e)

/-- A body that reads ranges, then computes its writes from the memories, its flags and its further effects. -/
def readThen (s : State) (rs : List (Nat × Nat)) (k : State → Res) : Res :=
  match readAll s rs with
  | (s', f, some e) => ⟨s', f, some e⟩
  | (s', f, none) => let x := k s'; { x with flags := f ||| x.flags }

/-- Write, then go on with a state change when all writes landed. -/
def writeThen (s : State) (flags : BitVec 8) (ws : List (Nat × List Byte)) (k : State → State) : Res :=
  match writeAll s ws with
  | (s', f, some e) => ⟨s', flags ||| f, some e⟩
  | (s', f, none) => ⟨k s', flags ||| f, none⟩

/-! ### Bench operand references (R155 to R157) -/

structure BRef where
  base : Nat
  region : Bool
  count : Nat
  stride : Int
  wmode : Nat
  reserved : Nat
  at_ : Fail

def mkBRef (w : Nat) (at_ : Fail) : BRef where
  base := bits w 0 12
  region := bit w 12
  count := if bits w 16 12 = 0 then 4096 else bits w 16 12
  stride := sext 12 (bits w 32 12)
  wmode := bits w 48 2
  reserved := bits w 13 3 + bits w 28 4 + bits w 44 4 + bits w 50 14
  at_ := at_

def brefAt (o : Op) (w : Nat) : BRef := mkBRef (fld o w 0 64) (badWord o w)
def brefA (o : Op) : BRef := brefAt o 12
def brefB (o : Op) : BRef := brefAt o 13
def brefC (o : Op) : BRef := brefAt o 14
def brefS (o : Op) : BRef := brefAt o 15
def spillRef (o : Op) : BRef := brefAt o 16
def chunkRef (o : Op) : BRef := brefAt o 17

/-- Row `i` of a directly addressed operand (R156). -/
def BRef.row (b : BRef) (i : Nat) : Int := (b.base : Int) + (i : Int) * b.stride

/-- The address R157 forms for a row number taken as a signed integer. -/
def benchRowAddr (l : Nat) (r : Int) : Nat := ((latheBase l : Int) + r * 512).toNat

/-- The device address of row `i` of a reference on a lathe. -/
def BRef.addr (b : BRef) (l i : Nat) : Nat := benchRowAddr l (b.row i)

/-- The checks of R157 on a reference that the command uses on the given lathes; `wmodes` are the write modes its role
allows (R141). -/
def checkBRef (s : State) (b : BRef) (lathes : List Nat) (wmodes : List Nat) : Except Fail Unit := do
  need (b.reserved = 0) b.at_
  need (wmodes.contains b.wmode) b.at_
  if b.region then
    need (b.base < 64 && lathes.all fun l => (getRegion s l b.base).enable) b.at_
  else
    match (List.range b.count).find? fun i => b.row i < 0 ∨ 4095 < b.row i with
    | some i => .error (failAt cAddrRange (b.addr (lathes.headD 0) i))
    | none => .ok ()

/-- A reference must have at least `n` rows (R189, R359); the rows of a region reference are its slots' rows. -/
def brefRows (s : State) (b : BRef) (lathes : List Nat) : Nat :=
  if b.region then
    let r := getRegion s (lathes.headD 0) b.base
    r.slots.toNat * (r.slotRowsM1.toNat + 1)
  else b.count

/-- Bench rows of `lines` lines of `n` elements of `width` bits (R185). -/
def rowsFor (lines n width : Nat) : Nat := lines * cdiv (lineBytesW width n) 512

/-! ### Circular regions (R165 to R171) -/

/-- The device address of the first row of slot `j`. -/
def slotAddr (l : Nat) (r : Region) (j : Nat) : Nat :=
  latheBase l + (r.base.toNat + j * (r.slotRowsM1.toNat + 1)) * 512

/-- The ring index `k` slots past `j`. -/
def ringNext (r : Region) (j k : Nat) : Nat := (j + k) % r.slots.toNat

/-- Drain complete slots at head in ring order (R168); `fuel` bounds it by the fill. -/
def drainSlots (r : Region) : Nat → Region
  | 0 => r
  | n + 1 =>
    if 0 < r.fill.toNat ∧ r.readersM1.toNat + 1 ≤ tget 0 r.counts r.head.toNat then
      drainSlots { r with
        counts := tput 0 r.counts r.head.toNat 0
        head := BitVec.ofNat 12 (ringNext r r.head.toNat 1)
        fill := r.fill - 1#12 } n
    else r

/-- A consuming read of the slot `k` past head completes (R168). -/
def consumed (r : Region) (slot : Nat) : Region :=
  drainSlots { r with counts := tput 0 r.counts slot (tget 0 r.counts slot + 1) } r.fill.toNat

/-- A push of the slot at tail completes (R167). -/
def pushed (r : Region) : Region :=
  { r with tail := BitVec.ofNat 12 (ringNext r r.tail.toNat 1), fill := r.fill + 1#12 }

/-- The consuming reads of slots `js`, counted from the one at head, that a command completes (R168): in ring order. -/
def consumeRel (s : State) (l k : Nat) (js : List Nat) : State :=
  let r := getRegion s l k
  setRegion s l k ((js.map (ringNext r r.head.toNat)).foldl consumed r)

/-! ### Lathes a command names (R196, R359) -/

/-- The lathes of the named part of the mesh, in ascending number. -/
def namedLathes (o : Op) : List Nat :=
  (List.range 128).filter fun l => bit (fMeshRows o) (meshRow l) && (!fWestOnly o || meshCol l < 8)

def usedLathes (s : State) (o : Op) : List Nat := (namedLathes o).filter fun l => !latheFenced s l

/-- The checks of R196 (and R14, R18). -/
def checkMesh (s : State) (o : Op) : Except Fail Unit := do
  need (fMeshRows o ≠ 0) (badWord o 20)
  need (usedLathes s o ≠ []) (badWord o 20)
  match (usedLathes s o).find? fun l => !latheUp s l with
  | some l => .error (failAt cDomainOff (latheBase l))
  | none => .ok ()

/-! ### Pattern slots (R48 to R53) -/

/-- A slot's header, and entry `i`; `getSlot` answers a default table as the table it is. -/
def slotHeader (p : PatSlot) : Nat := match p with | .table h _ => h.toNat | _ => 0
def slotEntry (p : PatSlot) (i : Nat) : Nat := match p with | .table _ es => (es.getD i 0#64).toNat | _ => 0

def slotCodeW (p : PatSlot) : Nat := bits (slotHeader p) 0 4
def slotValueW (p : PatSlot) : Nat := bits (slotHeader p) 8 5
def slotDigits (p : PatSlot) : Bool := bit (slotHeader p) 16

/-- The value of entry `i` (R49). -/
def slotValue (p : PatSlot) (i : Nat) : Int := sext 16 (slotEntry p i % 2 ^ 16)

/-- The digit string of entry `i`, most significant digit first: sign and position (R49). -/
def slotString (p : PatSlot) (i : Nat) : List (Bool × Nat) :=
  let e := slotEntry p i
  (List.range (bits e 16 4)).map fun d => (bit e (28 + 5 * d), bits e (24 + 5 * d) 4)

/-- The values of the entries other than the escape entry, in index order (R53). -/
def slotVals (p : PatSlot) : PatVals := (List.range (if slotCodeW p = 8 then 255 else 15)).map (slotValue p)

/-- The largest entry magnitude, qmax of a pattern target (R53). -/
def patQmax (vs : PatVals) : Rat := vs.foldl (fun m v => max m ((v.natAbs : Nat) : Rat)) 0

/-- The entry values a conversion uses on a lathe (R55: each lathe's own slot). -/
def patVals (s : State) (lathe slot : Nat) : PatVals := slotVals (getSlot s lathe slot)

/-- The check of R51 for a pattern operand of format `f` in a slot, on every lathe that runs the layer. -/
def checkPatOperand (s : State) (lathes : List Nat) (slot : Nat) (f : Fmt) (fed : Bool) (B : Nat) (e : Fail) :
    Except Fail Unit :=
  need (lathes.all fun l =>
    let p := getSlot s l slot
    p != .empty && (slotCodeW p = (if f = .pat8 then 8 else 4))
      && (if fed then slotDigits p else slotValueW p ≤ B + 1)) e

/-- The check of R53 for a pattern target. -/
def checkPatTarget (s : State) (lathes : List Nat) (slot : Nat) (f : Fmt) (e : Fail) : Except Fail Unit :=
  need (lathes.all fun l =>
    let p := getSlot s l slot
    p != .empty && (slotCodeW p = (if f = .pat8 then 8 else 4)) && decide (0 < patQmax (slotVals p))) e

/-! ### Scales (R42 to R46, R354) -/

/-- The default grit level of the keep registers; a value above 3 is G0 (R270). -/
def defaultGrit (s : State) : Nat := let k := bits (keepReg s 6).toNat 0 3; if k ≤ 3 then k else 0

def isUFmt (f : Fmt) : Bool := f == .u8 || f == .u4 || f == .u2

/-- The scale source of an operand (R354, R61, R533): U8, U4 and U2 take calibrated scales by default, any other format what the
default policy said at the start (R534). -/
def operandScale (o : Op) (src : Nat) (f : Fmt) : Nat :=
  if src = 0 then (if isUFmt f then 2 else o.policy) else src

/-- Formats whose output takes no `scl_c` (R354). -/
def plainOut (f : Fmt) : Bool := f == .fp32 || f == .bf16 || f == .fp16 || f == .int32 || f == .log8

/-- The scale value of a word with per-tensor exponent `e` (R42): m and its exponent. -/
def scaleOf (w : Nat) (e : Int) : Nat × Int := (bits w 6 10, (bits w 0 6 : Int) - 32 + e)

/-- Width of a scale word or record in bytes (R43). -/
def scaleBytes (f : Fmt) : Nat := if isUFmt f then 4 else 2

/-- Address of the record of group `j` in line `r`, item `b`, of a scale tensor with `G` groups a line (R44, R45). -/
def scaleAddr (t : TRef) (b r j G w : Nat) : Nat :=
  t.base + (if t.batch ≤ 1 then 0 else b) * t.batchStride * 64 + (r * G + j) * w

end Sys2Proof.Machine
end

