-- ==== Sys2Proof/Machine/Rng.lean ====
section
/-!
DEFINITION. The random generator of R295 and the draws of R299.
-/

namespace Sys2Proof.Machine

/-- The rotation amounts of R295. -/
def rotOf (i : Nat) : Nat := match i % 4 with | 0 => 13 | 1 => 16 | 2 => 21 | _ => 17

/-- The twelve rounds of R295, from round `i`, `n` of them left. -/
def rngRounds (k0 k1 : BitVec 64) : Nat → Nat → BitVec 64 → BitVec 64 → BitVec 64 × BitVec 64
  | 0, _, a, b => (a, b)
  | n + 1, i, a, b =>
    let a := a + b
    let b := (b.rotateLeft (rotOf i)) ^^^ a
    let a := a.rotateLeft 32 + (if i % 2 = 1 then k1 else k0) + BitVec.ofNat 64 i
    rngRounds k0 k1 n (i + 1) a b

/-- The block of R295 as a 128-bit number: draw i is its 32-bit word i. -/
def drawBlock (seed sid counter : Nat) : Nat :=
  let k0 := BitVec.ofNat 64 (bits seed 0 64) ^^^ BitVec.ofNat 64 sid
  let k1 := BitVec.ofNat 64 (bits seed 64 64) ^^^ 0x5CE7AD0000000000#64
  let r := rngRounds k0 k1 12 0 (BitVec.ofNat 64 (bits counter 0 64) ^^^ k0) (BitVec.ofNat 64 (bits counter 64 64) ^^^ k1)
  (r.1 + k1).toNat + (r.2 + k0).toNat * 2 ^ 64

/-- Draw of element index `j` for a consumer index and epoch (R299). -/
def drawAt (seed sid epoch ci j : Nat) : Nat :=
  bits (drawBlock seed sid (epoch * 2 ^ 64 + (ci * 2 ^ 40 + j / 4) % 2 ^ 64)) (32 * (j % 4)) 32

/-- The draw of element `j` of an operation (R299, R301). -/
def opDraw (o : Op) (j : Nat) : Nat := drawAt o.seed (fEpiStream o) o.epoch o.ci j

/-- How a conversion of an operation rounds its element `j` (R132, R294). -/
def opRound (o : Op) (j : Nat) : Round := if fEpiRound o then .draw (opDraw o j) else .near

end Sys2Proof.Machine
end

