-- ==== Sys2Proof/Machine/Expand.lean ====
section
/-!
DEFINITION. The expander and the spindle's exact sums: quantisation groups (R37 to R41), signed digits (R72), group
registers (R74), log mode (R86), and the rescale (R81 to R84).
-/

namespace Sys2Proof.Machine

/-- An operand of a product as the expander reads it: element codes by item, line and reduction index, and how they
decode and scale. -/
structure Opnd where
  fmt : Fmt
  /-- Reduction extent of the tensor. -/
  kred : Nat
  /-- The code on a lathe at item, line and index; none where a sparse operand stores nothing. -/
  code : Nat → Nat → Nat → Nat → Option Nat
  /-- Scale word or record on a lathe of item, line and group; none when unscaled (R43, R46). -/
  scale : Option (Nat → Nat → Nat → Nat → Nat)
  /-- The per-tensor exponent E. -/
  e : Int
  /-- The value of a pattern code, by the lathe that expands it (R52, R55). -/
  pat : Nat → Nat → Int
  /-- Kept magnitude bits K of R37. -/
  K : Nat

/-- The element at item `b`, line `r`, reduction index `k` of a group of size `g`, on a lathe. -/
def Opnd.elem (x : Opnd) (g lathe b r k : Nat) : Elem :=
  match x.code lathe b r k with
  | none => .num false 0 0
  | some c =>
  match x.fmt with
  | .pat4 => if c = 15 then .escape else intElem (x.pat lathe c)
  | .pat8 => if c = 255 then .escape else intElem (x.pat lathe c)
  | .log8 => .num false c 0
  | f =>
    match fpShape f with
    | some s => fpDecode s c
    | none =>
      let z := match x.scale with
        | some w => if isUFmt f then bits (w lathe b r (k / g)) 16 (fmtBits f) else 0
        | none => 0
      intDecode f z c

/-- Whether a format aligns its groups (R37) or passes integers (R38). -/
def aligns (f : Fmt) : Bool := (fpShape f).isSome

/-- A group's leading weight (R37). -/
def leadOf (es : List Elem) : Option Int :=
  es.foldl (fun a e =>
    match e with
    | .num _ q x => if q = 0 then a else
      let w := x + bitLen q - 1
      match a with
      | none => some w
      | some v => some (max v w)
    | _ => a) none

/-- Magnitude of `q × 2^x` in units of `2^lsb`, to nearest, ties away from zero (R37). -/
def alignMag (q : Nat) (x lsb : Int) : Nat :=
  let sh := lsb - x
  if sh ≤ 0 then q * 2 ^ (-sh).toNat else (q + 2 ^ (sh.toNat - 1)) / 2 ^ sh.toNat

/-- An expanded group: its lsb, its integers and whether it is marked non-finite. -/
structure Group where
  lsb : Int
  ints : List Int
  nonfinite : Bool

/-- The integer of an element under an lsb. -/
def elemInt (lsb : Int) (e : Elem) : Int :=
  match e with
  | .num neg q x => let m := alignMag q x lsb; if neg then -(m : Int) else m
  | _ => 0

/-- Expand the elements of one group (R37 to R41). -/
def expand (f : Fmt) (K : Nat) (es : List Elem) : Group :=
  let lsb := if aligns f then (match leadOf es with | some l => l - ((K : Int) - 1) | none => 0) else 0
  { lsb := lsb
    ints := es.map (elemInt lsb)
    nonfinite := es.any fun e => match e with | .inf _ => true | .nan => true | _ => false }

/-- The elements of a line from reduction index `k0`, `n` of them. -/
def Opnd.elems (x : Opnd) (g lathe b r k0 n : Nat) : List Elem := (List.range n).map fun i => x.elem g lathe b r (k0 + i)

/-- The group scale m × 2^x of a group (R46, R42). -/
def Opnd.groupScale (x : Opnd) (lathe b r j : Nat) (lsb : Int) : Nat × Int :=
  match x.scale with
  | none => (1, lsb)
  | some w => let s := scaleOf (w lathe b r j) x.e; (s.1, s.2 + lsb)

/-! ### Digits (R72) -/

/-- The value of a digit list. -/
def digitsVal (ds : List (Bool × Nat)) : Int :=
  ds.foldl (fun a d => if d.1 then a - 2 ^ d.2 else a + 2 ^ d.2) 0

/-- The part of an integer its first `r` digits carry, and the position of the r-th digit when more follow (R252,
R254). -/
def roughPart (r : Nat) (a : Int) : Int × Option Nat :=
  let ds := csd a.natAbs
  let v := digitsVal (ds.take r)
  (if a < 0 then -v else v, if r < ds.length then (ds[r - 1]?).map (·.2) else none)

/-! ### Group registers (R74, R86) -/

/-- The exact sum of a group. -/
def dot (as bs : List Int) : Int := (as.zip bs).foldl (fun s p => s + p.1 * p.2) 0

/-- The antilog table of R86. -/
def antilog (f : Nat) : Nat :=
  match f with | 0 => 128 | 1 => 140 | 2 => 152 | 3 => 166 | 4 => 181 | 5 => 197 | 6 => 215 | _ => 235

/-- The log-mode product of two codes (R86). -/
def logProd (a b : Nat) : Int :=
  if bits a 0 7 = 0 ∨ bits b 0 7 = 0 then 0
  else
    let m := bits a 0 7 + bits b 0 7
    let v : Int := ((antilog (m % 8) * 2 ^ (m / 8) : Nat) : Int)
    if bit a 7 ≠ bit b 7 then -v else v

/-- The sum of log-mode products. -/
def logDot (as bs : List Nat) : Int := (as.zip bs).foldl (fun s p => s + logProd p.1 p.2) 0

/-- A register whose lowest `b` bits are free (R271). -/
def shave (b free : Nat) (g : Int) : Int := g / 2 ^ b * 2 ^ b + ((Config.shavedBits free b % 2 ^ b : Nat) : Int)

/-! ### The rescale (R81 to R84) -/

/-- A register with its groups' scales: mantissas, exponents, and the non-finite mark. -/
structure GroupRes where
  reg : Int
  ma : Nat
  xa : Int
  mb : Nat
  xb : Int
  nonfinite : Bool

/-- The accumulator formats (R101). -/
inductive AccFmt where
  | c64
  | i48
  | a16 (fp16 : Bool)
  deriving DecidableEq, Repr

/-- An integer times 2^x to the nearest integer, ties away from zero (R83). -/
def scaleInt (p : Int) (x : Int) : Int :=
  if 0 ≤ x then p * 2 ^ x.toNat
  else
    let d := (-x).toNat
    let m : Int := ((p.natAbs + 2 ^ (d - 1)) / 2 ^ d : Nat)
    if p < 0 then -m else m

/-- The value the rescale unit delivers to an entry (R81 to R84): for I48 an integer in units of 2^`e`. -/
def deliver (f : AccFmt) (e : Int) (r : GroupRes) : Ext :=
  if r.nonfinite then .nan
  else
    let p := r.reg * r.ma * r.mb
    let x := r.xa + r.xb
    match f with
    | .i48 => .fin ((scaleInt p (x - e) : Int) : Rat)
    | _ => .fin (roundSig 48 (p : Rat) * pow2 x)

end Sys2Proof.Machine
end

