-- ==== Sys2Proof/Machine/Accum.lean ====
section
/-!
DEFINITION. Accumulator entries: the three formats, their adds and their infinities (R100 to R112), partial sums (R140),
and the format tags (R114).
-/

namespace Sys2Proof.Machine

/-- The accumulator format of a descriptor (R101). -/
def accFmt (o : Op) : AccFmt :=
  match fAccFmt o with
  | 1 => .i48
  | 2 => .a16 (fA16Fp16 o)
  | _ => .c64

/-- Bits of an entry at full width (R357). -/
def accBits (f : AccFmt) : Nat := match f with | .a16 _ => 16 | _ => 64

/-- Rows of a tile (R124). -/
def tileRows (f : AccFmt) : Nat := match f with | .a16 _ => 1 | _ => 4

/-- The float shape of an A16 entry. -/
def a16S (fp16 : Bool) : FpShape := if fp16 then fp16S else bf16S

/-- The value of a C64 entry, hi + lo, and whether the two parts make a NaN: both count, also in a pair that is not
normalised (R103, R104, R126). -/
def c64Pair (w : Nat) : Ext × Bool := extAdd (f32Val (bits w 0 32)) (f32Val (bits w 32 32))

/-- The C64 entry of an exact value, and whether it overflowed (R104, R110, R111). -/
def c64Pack (x : Ext) : Nat × Bool :=
  match x with
  | .fin s =>
    let (hi, o) := rn32 (.fin s)
    if o then (hi, true)
    else
      match f32Val hi with
      | .fin h => (hi + (rn32 (.fin (s - h))).1 * 2 ^ 32, false)
      | _ => (hi, false)
  | x => ((rn32 x).1, false)

/-- The value of an entry, an I48 one as its integer, and whether its parts make a NaN (R112). -/
def accVal (f : AccFmt) (w : Nat) : Ext × Bool :=
  match f with
  | .c64 => c64Pair w
  | .i48 => (i48Ext w, false)
  | .a16 h => (floatVal (a16S h) w, false)

def accExt (f : AccFmt) (w : Nat) : Ext := (accVal f w).1

/-- The entry of an exact value, and whether it overflowed. -/
def accPack (f : AccFmt) (x : Ext) : Nat × Bool :=
  match f with
  | .c64 => c64Pack x
  | .i48 => (i48Pack x, match x with | .fin _ => bits (i48Pack x) 56 2 != 0 | _ => false)
  | .a16 h => toFloat (a16S h) .near x

/-- One add into an entry, with its flags (R104, R105, R107, R110, R112). -/
def accAdd (f : AccFmt) (w : Nat) (x : Ext) : Nat × BitVec 8 :=
  let (v, i1) := accVal f w
  let (t, i2) := extAdd v x
  let (w', ovf) := accPack f t
  (w', flagIf fInvalid (i1 || i2) ||| flagIf fOverflow ovf)

/-- Add a list of values, one add each. -/
def accAddAll (f : AccFmt) (w : Nat) : List Ext → Nat × BitVec 8
  | [] => (w, 0#8)
  | x :: r => let (w', g) := accAdd f w x; let (t, h) := accAddAll f w' r; (t, g ||| h)

/-- The values an A16 entry adds for the group results of one extent: pairs from the first on (R107). -/
def pairUp : List Ext → List Ext
  | [] => []
  | [x] => [x]
  | x :: y :: r => (extAdd x y).1 :: pairUp r

/-- Add the group results of one bench-tile K extent (R107 for A16; one by one otherwise). -/
def accExtent (f : AccFmt) (w : Nat) (vs : List Ext) : Nat × BitVec 8 :=
  match f with
  | .a16 _ => accAddAll f w (pairUp vs)
  | _ => accAddAll f w vs

/-- Add the extents of a K range in ascending order. -/
def accExtents (f : AccFmt) (w : Nat) : List (List Ext) → Nat × BitVec 8
  | [] => (w, 0#8)
  | v :: r => let (w', g) := accExtent f w v; let (t, h) := accExtents f w' r; (t, g ||| h)

/-- Partials combined in ascending order: acc starts as partial 0, and each partial's exact value, p.hi + p.lo in C64, is
one add (R104, R105, R140). A partial whose parts make a NaN raises INVALID (R112). -/
def sumPartials (f : AccFmt) (ps : List Nat) : Nat × BitVec 8 :=
  match ps with
  | [] => (0, 0#8)
  | p :: r =>
    let (w, g) := accAddAll f p (r.map (accExt f))
    (w, g ||| flagIf fInvalid (r.any fun q => (accVal f q).2))

/-- The value the epilogue reads of an entry (R106, R134), in the layer's units, with OVERFLOW and INVALID when they
apply (R112). -/
def accRead (f : AccFmt) (e : Int) (w : Nat) : Ext × BitVec 8 :=
  match f with
  | .i48 =>
    let (x, o) := i48Range (i48Ext w)
    ((extMul (.fin (pow2 e)) x).1, flagIf fOverflow o)
  | _ => let (v, i) := accVal f w; (v, flagIf fInvalid i)

/-- A knot term, already rounded to FP32, as the input of an add (R58, R109). -/
def knotInput (f : AccFmt) (e : Int) (x : Ext) : Ext :=
  match f, x with
  | .i48, .fin r => .fin ((rnd (r * pow2 (-e)) : Int) : Rat)
  | _, x => x

/-- Normalise an entry as `MM.ACC_WRITE` writes it (R126). -/
def accNormalise (f : AccFmt) (w : Nat) : Nat × BitVec 8 :=
  match f with
  | .c64 =>
    let (x, inv) := c64Pair w
    let (w', ovf) := c64Pack x
    (w', flagIf fInvalid inv ||| flagIf fOverflow ovf)
  | .i48 => (bits w 0 58, 0#8)
  | .a16 h => (match floatVal (a16S h) w with | .nan => fpNan (a16S h) | _ => bits w 0 16, 0#8)

/-- The −inf entry of a format (R611). -/
def accNegInf (f : AccFmt) : Nat := (accPack f .ninf).1

/-! ### Format tags (R114) -/

/-- The tag a descriptor implies. -/
def accTag (o : Op) : BitVec 16 :=
  let f := accFmt o
  BitVec.ofNat 16 ((match f with | .c64 => 1 | .i48 => 2 | .a16 _ => 3)
    + (match f with | .a16 true => 4 | _ => 0)
    + fSplit o * 8
    + (match f with | .i48 => (fld o 18 17 8) * 64 | _ => 0))

/-- An entry of a tile in a spindle's store: entry `e` of slot `k` (R103, R105; four A16 entries share a word, R107). -/
def tileEntry (sp : Spindle) (f : AccFmt) (slot e : Nat) : Nat :=
  match f with
  | .a16 _ => bits (tget 0#64 sp.acc (256 * slot + e / 4)).toNat (16 * (e % 4)) 16
  | _ => (tget 0#64 sp.acc (256 * slot + e)).toNat

def setTileEntry (sp : Spindle) (f : AccFmt) (slot e w : Nat) : Spindle :=
  match f with
  | .a16 _ =>
    let k := 256 * slot + e / 4
    { sp with acc := tput 0#64 sp.acc k (BitVec.ofNat 64 (setBits (tget 0#64 sp.acc k).toNat (16 * (e % 4)) 16 w)) }
  | _ => { sp with acc := tput 0#64 sp.acc (256 * slot + e) (BitVec.ofNat 64 w) }

/-- Clear a slot: its entries and its tag. -/
def clearSlot (sp : Spindle) (slot : Nat) : Spindle :=
  { sp with
    acc := tkeep (fun k => k / 256 != slot) sp.acc
    tags := tput 0#16 sp.tags slot 0#16 }

/-- The set of a slot, the places of DEDUCED, log 17 beside the four among them. -/
def setOfSlot (k : Nat) : Nat := k / 4 % 2

/-- A set's slots are empty. -/
def clearSet (sp : Spindle) (set : Nat) : Spindle :=
  { sp with acc := tkeep (fun k => setOfSlot (k / 256) != set) sp.acc, tags := tkeep (fun k => setOfSlot k != set) sp.tags }

/-- Free a set: its slots empty (R100). -/
def freeSet (sp : Spindle) (set : Nat) : Spindle :=
  let sp := clearSet sp set
  let sp := if set = 0 then { sp with set0 := .free } else { sp with set1 := .free }
  match sp.opened with
  | some w => if w.set = set then { sp with opened := none, tiles := [] } else sp
  | none => sp

def setSetState (sp : Spindle) (set : Nat) (st : SetState) : Spindle :=
  if set = 0 then { sp with set0 := st } else { sp with set1 := st }

def getSetState (sp : Spindle) (set : Nat) : SetState := if set = 0 then sp.set0 else sp.set1

/-- Lose a spindle's open set (R120): what it was doing is undone first. -/
def dropOpen (sp : Spindle) : Spindle :=
  match sp.rewind.opened with
  | some w => freeSet sp.rewind w.set
  | none => sp.rewind

end Sys2Proof.Machine
end

