-- ==== Sys2Proof/Machine/Tiling.lean ====
section
/-!
DEFINITION. Tiling and mapping: shards (R190), partials (R191), K extents, slivers and their placement (R193 to R202),
and the accumulator footprint (R203 to R208).
-/

namespace Sys2Proof.Machine

/-- The pod's identity in force: that of the lowest-numbered port that carries frames, as its last training took it, else that
of port 0, as its last training or the last start took it (R391; DESIGN CHOICE, log 67). -/
def trained (s : State) : Port := (((List.range 6).map (getPort s)).find? carries).getD (getPort s 0)
def posWord (s : State) : Nat := (trained s).posAt.toNat
def podWord (s : State) : Nat := (trained s).podAt.toNat

/-- This device's ID in its pod, and the devices of its pod's shape (R391, R388). -/
def devId (s : State) : Nat := bits (posWord s) 0 6
def podShape (s : State) : Nat := bits (posWord s) 8 2
def podSize (shape : Nat) : Nat := match shape with | 0 => 1 | 1 => 16 | 2 => 32 | _ => 64

/-- The scale policy of the keep registers for the pod's shape (R532 text, R61): 1 dynamic, 2 calibrated. -/
def shippedPolicy (shape : Nat) : Nat := if shape < 2 then 1 else 2

def defaultPolicy (s : State) : Nat :=
  let shape := podShape s
  let p := bits (keepReg s 7).toNat (2 * shape) 2
  if p = 1 ∨ p = 2 then p else shippedPolicy shape

/-! ### Extents (R608, R352) -/

/-- The header of a compressed-row image (R221). -/
def imgHeader (s : State) (base : Nat) : Nat := leNat (devBytes s base 64)
def imgRows (h : Nat) : Nat := bits h 0 32
def imgCols (h : Nat) : Nat := bits h 32 32

/-- Rows and columns of A, and of B, as the product takes them. -/
def extA (s : State) (o : Op) : Nat × Nat :=
  if fCsrA o then let h := imgHeader s (refA o).base; (imgRows h, imgCols h)
  else (o.mCount.getD (refA o).rows, (refA o).cols)

def extB (s : State) (o : Op) : Nat × Nat :=
  if fCsrB o then let h := imgHeader s (refB o).base; (imgRows h, imgCols h) else ((refB o).rows, (refB o).cols)

def batchA (o : Op) : Nat := if fCsrA o then 1 else (refA o).batch
def batchB (o : Op) : Nat := if fCsrB o then 1 else (refB o).batch

/-- A layer's extents and this device's shard of them, as half-open ranges. -/
structure Plan where
  B : Nat
  M : Nat
  N : Nat
  K : Nat
  b0 : Nat
  b1 : Nat
  m0 : Nat
  m1 : Nat
  n0 : Nat
  n1 : Nat
  k0 : Nat
  k1 : Nat
  deriving DecidableEq

/-- The four dimension codes of a loop-order field, outermost first (R188). -/
def ordCodes (x : Nat) : List Nat := [bits x 6 2, bits x 4 2, bits x 2 2, bits x 0 2]

def isPerm (x : Nat) : Bool := (List.range 4).all fun c => (ordCodes x).contains c

def shardLog (o : Op) (dim : Nat) : Nat :=
  match dim with | 0 => fShardB o | 1 => fShardM o | 2 => fShardN o | _ => fShardK o

/-- Only Matrix Engine commands read word 22 (R357). -/
def sharded (o : Op) : Bool := opCode o / 16 == 1 && fShardB o + fShardM o + fShardN o + fShardK o != 0

/-- Number of set bits below position `n`. -/
def popBelow (w n : Nat) : Nat := ((List.range n).filter fun i => bit w i).length

/-- The index of this device's shard along a dimension: rank r's digit in the `ord_pod` order (R190). -/
def shardIndex (s : State) (o : Op) (dim : Nat) : Nat :=
  let rank := popBelow (fMembers o) (devId s)
  let inner := ((ordCodes (fOrdPod o)).dropWhile (· ≠ dim)).drop 1
  rank / 2 ^ ((inner.map (shardLog o)).foldl (· + ·) 0) % 2 ^ shardLog o dim

/-- The range of a dimension of extent `n` on this device (R190). -/
def shardRange (s : State) (o : Op) (dim n : Nat) : Nat × Nat :=
  if sharded o then
    let c := cdiv n (2 ^ shardLog o dim)
    let i := shardIndex s o dim
    (min n (i * c), min n ((i + 1) * c))
  else (0, n)

def planOf (s : State) (o : Op) : Plan :=
  let a := extA s o
  let b := extB s o
  let B := max (batchA o) (batchB o)
  let rb := shardRange s o 0 B
  let rm := shardRange s o 1 a.1
  let rn := shardRange s o 2 b.2
  let rk := shardRange s o 3 a.2
  ⟨B, a.1, b.2, a.2, rb.1, rb.2, rm.1, rm.2, rn.1, rn.2, rk.1, rk.2⟩

/-- The bench-tile K extents of a range (R107, R191). -/
def kExtents (p : Plan) (btk : Nat) : List (Nat × Nat) :=
  (List.range (cdiv (p.k1 - p.k0) btk)).map fun i => (p.k0 + i * btk, min p.k1 (p.k0 + (i + 1) * btk))

/-- The extents of partial `i` of `P` (R191). -/
def partExtents (p : Plan) (btk P i : Nat) : List (Nat × Nat) :=
  let es := kExtents p btk
  let c := cdiv es.length P
  (es.drop (i * c)).take c

/-- The quantisation groups of an extent: first index and number of real elements (R47, DEDUCED, log 22). -/
def groupsOf (g : Nat) (e : Nat × Nat) : List (Nat × Nat) :=
  (List.range (cdiv (e.2 - e.1) g)).map fun i => (e.1 + i * g, min g (e.2 - (e.1 + i * g)))

/-! ### Slivers and placement (R193 to R202) -/

def vtOf (o : Op) : Nat := 16 / lanesOf (fSplit o)
def sliverCols (o : Op) : Nat := 16 * lanesOf (fSplit o)
def fedBt (o : Op) : Nat := if fSerialB o then fBtN o else fBtM o
def heldBt (o : Op) : Nat := if fSerialB o then fBtM o else fBtN o

/-- Extent of the shard along dimension 0 (batch), 1 (M), 2 (N) or 3 (K); of an HBM tile; of a bench tile. -/
def Plan.size (p : Plan) (d : Nat) : Nat :=
  match d with | 0 => p.b1 - p.b0 | 1 => p.m1 - p.m0 | 2 => p.n1 - p.n0 | _ => p.k1 - p.k0
def Plan.start (p : Plan) (d : Nat) : Nat := match d with | 0 => p.b0 | 1 => p.m0 | 2 => p.n0 | _ => p.k0
def hbmExt (o : Op) (d : Nat) : Nat := match d with | 0 => fHbmB o | 1 => fHbmM o | 2 => fHbmN o | _ => fHbmK o
def btExt (o : Op) (d : Nat) : Nat := match d with | 0 => 1 | 1 => fBtM o | 2 => fBtN o | _ => fBtK o

def hbmCount (o : Op) (p : Plan) (d : Nat) : Nat := cdiv (p.size d) (hbmExt o d)
def btCount (o : Op) (p : Plan) (d : Nat) : Nat := cdiv (min (hbmExt o d) (p.size d)) (btExt o d)

/-- The live slivers n_live of R203. -/
def nLive (o : Op) (p : Plan) : Nat :=
  let inside := fun x => ((ordCodes x).dropWhile (· ≠ 3)).drop 1
  let n := heldBt o / sliverCols o
  let n := (inside (fOrdBench o)).foldl (fun n c => n * btCount o p c) n
  (inside (fOrdHbm o)).foldl (fun n c => n * hbmCount o p c) n

def tileShare (o : Op) : Nat := fedBt o / vtOf o

/-- The footprint F (R203) and the largest actual share F_a (R207, R208). -/
def footprint (o : Op) (p : Plan) : Nat := cdiv (nLive o p) 64 * tileShare o
def actualShare (s : State) (o : Op) (p : Plan) : Nat :=
  (usedLathes s o).foldl (fun m l => max m (cdiv (nLive o p) (spindlesUp s l).length * tileShare o)) (footprint o p)

/-- Whether a command spills: then every live group runs in passes (R204, R206, R208). -/
def spills (s : State) (o : Op) (p : Plan) : Bool := opCode o != 0x13 && decide (4 < actualShare s o p)

/-- Indices of nested loops, outermost first, over dimensions 0 to 2; K is left out. -/
def walk (cnt : Nat → Nat) : List Nat → List (Nat × Nat × Nat)
  | [] => [(0, 0, 0)]
  | c :: r =>
    if c = 3 then walk cnt r
    else (List.range (cnt c)).flatMap fun i => (walk cnt r).map fun t =>
      match c with
      | 0 => (i, t.2.1, t.2.2)
      | 1 => (t.1, i, t.2.2)
      | _ => (t.1, t.2.1, i)

def dimOf (t : Nat × Nat × Nat) (d : Nat) : Nat := match d with | 0 => t.1 | 1 => t.2.1 | _ => t.2.2

/-- The lathe of HBM tile number `i`, with indices `t` (R198, R201). -/
def tileLathe (s : State) (o : Op) (i : Nat) (t : Nat × Nat × Nat) : Nat :=
  let fed := if fSerialB o then t.2.2 else t.2.1
  let held := if fSerialB o then t.2.1 else t.2.2
  if o.resident then
    let ls := usedLathes s o
    ls.getD (i % ls.length) 0
  else
    let rows := (List.range 8).filter fun r => bit (fMeshRows o) r
    latheAt (rows.getD (fed % rows.length) 0) (held % (if fWestOnly o then 8 else 16))

/-- Indices of nested loops over all four dimensions, outermost first (R188). -/
def walk4 (cnt : Nat → Nat) : List Nat → List (Nat × Nat × Nat × Nat)
  | [] => [(0, 0, 0, 0)]
  | c :: r => (List.range (cnt c)).flatMap fun i => (walk4 cnt r).map fun t =>
      match c with
      | 0 => (i, t.2.1, t.2.2.1, t.2.2.2)
      | 1 => (t.1, i, t.2.2.1, t.2.2.2)
      | 2 => (t.1, t.2.1, i, t.2.2.2)
      | _ => (t.1, t.2.1, t.2.2.1, i)

def dimOf4 (t : Nat × Nat × Nat × Nat) (d : Nat) : Nat :=
  match d with | 0 => t.1 | 1 => t.2.1 | 2 => t.2.2.1 | _ => t.2.2.2

/-- A bench tile with a real element: its lathe, its HBM tile's batch, M and N indices, and its real output and K
ranges. -/
structure BTile where
  lathe : Nat
  hbm : Nat × Nat × Nat
  b : Nat
  m0 : Nat
  m1 : Nat
  n0 : Nat
  n1 : Nat
  k0 : Nat
  k1 : Nat
  deriving DecidableEq

/-- The bench tiles of a layer, in issue order: `ord_hbm`, and in each HBM tile `ord_bench` (R188, R198, R201). -/
def benchTiles (s : State) (o : Op) (p : Plan) : List BTile :=
  let outer := walk (hbmCount o p) (ordCodes (fOrdHbm o))
  (walk4 (fun d => cdiv (p.size d) (hbmExt o d)) (ordCodes (fOrdHbm o))).flatMap fun t =>
    let h := (t.1, t.2.1, t.2.2.1)
    let l := tileLathe s o (outer.findIdx (· == h)) h
    let base := fun d => dimOf4 t d * hbmExt o d
    (walk4 (fun d => cdiv (min (hbmExt o d) (p.size d - base d)) (btExt o d)) (ordCodes (fOrdBench o))).map fun u =>
      let org := fun d => base d + dimOf4 u d * btExt o d
      let lo := fun d => p.start d + org d
      let hi := fun d => p.start d + min (org d + btExt o d) (p.size d)
      ⟨l, h, lo 0, lo 1, hi 1, lo 2, hi 2, lo 3, hi 3⟩

/-- A sliver: its lathe, its bench tile's first output positions, the end of its real fed range, its first held
position, its number in the bench tile, and the indices of the loops outside K, which tell the slivers that are live
together (R203). A sliver beyond the held bound is dealt and computes nothing (R193, R194, R210). -/
structure Sliver where
  lathe : Nat
  batch : Nat
  fed0 : Nat
  fed1 : Nat
  held0 : Nat
  part : Nat
  key : List Nat
  deriving DecidableEq

/-- The slivers of the bench tiles that have a real element, in issue order (R188, R193, R194). -/
def slivers (s : State) (o : Op) (p : Plan) : List Sliver :=
  let outside := fun x => (ordCodes x).takeWhile (· ≠ 3)
  let fd := if fSerialB o then 2 else 1
  let hd := if fSerialB o then 1 else 2
  (walk (hbmCount o p) (ordCodes (fOrdHbm o))).zipIdx.flatMap fun (t, i) =>
    let base := fun d => dimOf t d * hbmExt o d
    let cnt := fun d => cdiv (min (hbmExt o d) (p.size d - base d)) (btExt o d)
    (walk cnt (ordCodes (fOrdBench o))).flatMap fun u =>
      let org := fun d => base d + dimOf u d * btExt o d
      (List.range (heldBt o / sliverCols o)).map fun j =>
        { lathe := tileLathe s o i t
          batch := p.start 0 + org 0
          fed0 := p.start fd + org fd
          fed1 := p.start fd + min (org fd + btExt o fd) (p.size fd)
          held0 := p.start hd + org hd + j * sliverCols o
          part := j
          key := (outside (fOrdHbm o)).map (dimOf t) ++ (outside (fOrdBench o)).map (dimOf u) }

/-- The lathe that computes output (b, m, n) (R55, R197). -/
def latheFor (s : State) (o : Op) (p : Plan) (b m n : Nat) : Nat :=
  let t := ((b - p.b0) / fHbmB o, (m - p.m0) / fHbmM o, (n - p.n0) / fHbmN o)
  let order := (walk (hbmCount o p) (ordCodes (fOrdHbm o)))
  tileLathe s o (order.findIdx (· == t)) t

/-- A tile placed on a spindle: spindle, the tile with its slot (counted over the spindle's tiles of the same live
group), and its live group's key. -/
structure Placed where
  spindle : Nat
  tile : Tile
  key : List Nat
  deriving DecidableEq

/-- The tiles of one sliver: T_s of them, those beyond the fed bound included (R193). -/
def sliverTiles (o : Op) (x : Sliver) : List Tile :=
  (List.range (fedBt o / vtOf o)).map fun t => ⟨0, x.batch, x.fed0 + t * vtOf o, x.held0⟩

/-- Deal a lathe's slivers to its unfenced spindles in turn (R194, DEDUCED, log 18). -/
def dealLathe (s : State) (o : Op) (l : Nat) (xs : List Sliver) : List Placed :=
  let up := spindlesUp s l
  xs.zipIdx.flatMap fun (x, i) =>
    (sliverTiles o x).map fun t => ⟨64 * l + up.getD (i % up.length) 0, t, x.key⟩

/-- Number the slots of the tiles of each spindle within each live group, or over the whole command where every tile stays in
the open set (`whole`: `MM.ROUGH`, R253). There two tiles stand in slots 0 and 1, and any further ones in places beside the
set's four slots, two by two: R253 refuses no layer for them (DESIGN CHOICE, log 17). -/
def numberSlots (whole : Bool) (ps : List Placed) : List Placed → List Placed
  | [] => []
  | x :: r =>
    let k := (ps.filter fun y => y.spindle = x.spindle && (whole || y.key = x.key)).length
    { x with tile := { x.tile with slot := if whole then k % 2 + 8 * (k / 2) else k } } :: numberSlots whole (ps ++ [x]) r

/-- Every tile of the layer with its place (R194, R198, R201). -/
def placement (s : State) (o : Op) (p : Plan) : List Placed :=
  let xs := slivers s o p
  let ls := (xs.map (·.lathe)).dedup
  numberSlots (opCode o == 0x13) [] (ls.flatMap fun l => dealLathe s o l (xs.filter fun x => x.lathe = l))

/-- The spindles of a placement, each once. -/
def placedSpindles (ps : List Placed) : List Nat := (ps.map (·.spindle)).dedup

/-- The tiles that still work at the command's end on a spindle: those of its last live group (R117). -/
def lastTiles (ps : List Placed) (sp : Nat) : List Tile :=
  let mine := ps.filter fun x => x.spindle = sp
  match mine.getLast? with
  | none => []
  | some z => (mine.filter fun x => x.key = z.key).map (·.tile)

/-- How many working sets a spindle begins: one for each live group in each partial that has an extent, or, where the command
spills, one for each pass of four tiles in each K extent (R122, R191, R206, DEDUCED, log 25). -/
def setRounds (spill : Bool) (o : Op) (p : Plan) (ps : List Placed) (sp : Nat) : Nat :=
  let mine := ps.filter fun x => x.spindle = sp
  if opCode o = 0x13 then min 1 mine.length
  else
  let parts := ((List.range (2 ^ fKpart o)).filter fun i => partExtents p (fBtK o) (2 ^ fKpart o) i ≠ []).length
  ((mine.map (·.key)).dedup.map fun k =>
    let n := (mine.filter fun x => x.key = k).length
    if spill then cdiv n 4 * (kExtents p (fBtK o)).length else parts).foldl (· + ·) 0

/-- Move the next-set pointer of a spindle that begins `n` sets (R122). -/
def turnSets (sp : Spindle) (n : Nat) : Spindle :=
  match sp.opened with
  | some _ => sp
  | none => { sp with next1 := if n % 2 = 1 then !sp.next1 else sp.next1 }

/-- Whether two bench tiles hold the same outputs. -/
def sameOutputs (a b : BTile) : Bool := a.b == b.b && a.m0 == b.m0 && a.n0 == b.n0

/-- Whether a bench tile is among those that ran. -/
def ranIn (ran : List BTile) (t : BTile) : Bool := ran.any fun u => sameOutputs u t && u.k0 == t.k0

/-! ### Output positions and entries of a tile (R102) -/

/-- The outputs of a tile that are real: entry index, m and n. -/
def tileOutputs (o : Op) (p : Plan) (t : Tile) : List (Nat × Nat × Nat) :=
  let c := sliverCols o
  (List.range (vtOf o)).flatMap fun v => (List.range c).filterMap fun j =>
    let m := if fSerialB o then t.held0 + j else t.fed0 + v
    let n := if fSerialB o then t.fed0 + v else t.held0 + j
    if m < p.m1 && n < p.n1 then some (v * c + j, m, n) else none

/-- The tile of a list that holds output (b, m, n), with the entry index. -/
def findTile (o : Op) (ts : List Tile) (b m n : Nat) : Option (Tile × Nat) :=
  let f := if fSerialB o then n else m
  let h := if fSerialB o then m else n
  match ts.find? fun t => t.batch = b && t.fed0 ≤ f && f < t.fed0 + vtOf o && t.held0 ≤ h && h < t.held0 + sliverCols o with
  | some t => some (t, (f - t.fed0) * sliverCols o + (h - t.held0))
  | none => none

end Sys2Proof.Machine
end

