-- ==== Sys2Proof/Machine/Epilogue.lean ====
section
/-!
DEFINITION. The epilogue: scale, bias, activation and the one rounding (R127 to R134), output scales (R45, R354), the
amax statistic (R66), and top-k (R135 to R138).
-/

namespace Sys2Proof.Machine

/-- A converted element: its code, its flags, and the input's magnitude as FP32 for `QSTAT.AMAX` (0: none). -/
structure Conv where
  code : Nat
  flags : BitVec 8
  amax : Nat
  deriving DecidableEq

/-- Whether a conversion to a format is a quantisation of R66. -/
def isQuant (f : Fmt) : Bool := !(f == .fp32 || f == .bf16 || f == .fp16 || f == .log8)

/-- Convert one extended value to an output format (R130, R131, R64). -/
def convExt (f : Fmt) (vs : PatVals) (rd : Round) (S : Rat) (x : Ext) : Conv :=
  let am := if isQuant f then (match x with | .fin v => (rn32 (.fin (rabs v))).1 | _ => 0) else 0
  match f with
  | .fp32 | .bf16 | .fp16 =>
    let r := toFloat ((fpShape f).getD fp32S) rd x
    ⟨r.1, flagIf fOverflow r.2, am⟩
  | .log8 => let r := toLog8 x; ⟨r.1, flagIf fNonfinite r.2, am⟩
  | _ => let r := quantExt f vs rd x S; ⟨r.1, flagIf fNonfinite r.2, am⟩

/-- What the epilogue needs beside the entry's value: the output's format, rounding and scale, the column's scale and
bias, the activation. -/
structure EpiCol where
  fmt : Fmt
  vals : PatVals
  scale : Ext
  bias : Ext
  act : Nat
  S : Rat
  round : Round

/-- The pre-activation value z of R127, with INVALID when it arises (R128, R112). -/
def epiZ (scale bias v : Ext) : Ext × BitVec 8 :=
  let (p, i1) := extMul v scale
  let (z, i2) := extAdd p bias
  (z, flagIf fInvalid (i1 || i2))

/-- The epilogue of one value (R127). -/
def epilogue (c : EpiCol) (v : Ext) : Conv :=
  let (z, g) := epiZ c.scale c.bias v
  let r := convR (convExt c.fmt c.vals c.round c.S) (activate c.act z)
  { r with flags := r.flags ||| g }

/-- The column scale s of R128. -/
def epiScaleOf (s : State) (o : Op) (n : Nat) : Ext :=
  match fEpiScale o with
  | 0 => .fin 1
  | 1 => f32Val (fEpiScaleVal o)
  | _ => f32Val (elemW s (auxRef o 5) 32 0 0 n)

/-- The column bias c of R128. -/
def epiBiasOf (s : State) (o : Op) (n : Nat) : Ext :=
  match fEpiBias o with
  | 0 => .fin 0
  | 1 => f32Val (elemW s (auxRef o 6) 32 0 0 n)
  | _ => floatVal bf16S (elemW s (auxRef o 6) 16 0 0 n)

/-- The value of a scale word as an output scale (R42). -/
def scaleRat (w : Nat) (e : Int) : Rat := let p := scaleOf w e; (p.1 : Rat) * pow2 p.2

/-- The output scale S of element (b, m, n) (R130, R354). -/
def outScale (s : State) (o : Op) (f : Fmt) (cols b m n : Nat) : Rat :=
  if f = .int32 ∨ fSclC o = 3 then pow2 (fExpC o)
  else
    let g := gOf o
    scaleRat (leNat (devBytes s (scaleAddr (auxRef o 2) b m (n / g) (cdiv cols g) 2) 2)) (fExpC o)

/-- The epilogue's settings for element (b, m, n) of a B × M × N output whose draws are numbered by M and N (R299). -/
def epiCol (s : State) (o : Op) (f : Fmt) (lathe M N b m n : Nat) : EpiCol where
  fmt := f
  vals := if f = .pat4 ∨ f = .pat8 then patVals s lathe (fPatC o) else []
  scale := epiScaleOf s o n
  bias := epiBiasOf s o n
  act := fEpiAct o
  S := if plainOut f && f != .int32 then 1 else outScale s o f N b m n
  round := if f = .log8 then .near else opRound o ((b * M + m) * N + n)

/-- The ranges the epilogue reads for the outputs of a plan: its vectors and scale words (R128, R190, R354). -/
def epiRanges (o : Op) (f : Fmt) (p : Plan) : List (Nat × Nat) :=
  let vec := fun i w => [((auxRef o i).base + w * p.n0, w * (p.n1 - p.n0))]
  let t := auxRef o 2
  let G := cdiv p.N (gOf o)
  (if fEpiScale o = 2 then vec 5 4 else [])
    ++ (if fEpiBias o = 1 then vec 6 4 else if fEpiBias o = 2 then vec 6 2 else [])
    ++ (if plainOut f || fSclC o = 3 then []
        else (if t.batch ≤ 1 then [0] else (List.range (p.b1 - p.b0)).map (p.b0 + ·)).flatMap fun b =>
          if p.n1 - p.n0 = p.N then [(scaleAddr t b p.m0 0 G 2, (p.m1 - p.m0) * G * 2)]
          else (List.range (p.m1 - p.m0)).map fun i =>
            (scaleAddr t b (p.m0 + i) (p.n0 / gOf o) G 2, (cdiv p.n1 (gOf o) - p.n0 / gOf o) * 2))

/-- Raise `QSTAT[q].AMAX` to a magnitude (R66): FP32 codes of non-negative numbers stand in numeric order. -/
def updAmax (s : State) (q a : Nat) : State :=
  modQ s q fun v => if v.amax.toNat < a then { v with amax := BitVec.ofNat 32 a } else v

/-- The flags and the greatest magnitude of a list of conversions. -/
def convFlags (cs : List Conv) : BitVec 8 := cs.foldl (fun f c => f ||| c.flags) 0#8
def convAmax (cs : List Conv) : Nat := cs.foldl (fun a c => max a c.amax) 0

/-! ### Top-k (R135 to R138) -/

/-- A code of an FP32, BF16 or FP16 output widened exactly to FP32 (R137). -/
def widen (f : Fmt) (c : Nat) : Nat :=
  match fpShape f with
  | some sh =>
    match fpDecode sh c with
    | .num neg 0 _ => b2n neg * 2 ^ 31
    | e => (rn32 (elemExt e)).1
  | none => c

/-- Whether record (value, position) ranks above another (R136). -/
def ranksAbove (a b : Nat × Nat) : Bool :=
  match f32Val a.1, f32Val b.1 with
  | .nan, .nan => a.2 < b.2
  | .nan, _ => false
  | _, .nan => true
  | x, y => if extLt y x then true else if extLt x y then false else a.2 < b.2

/-- Insert a record into a list in rank order. -/
def rankInsert (x : Nat × Nat) : List (Nat × Nat) → List (Nat × Nat)
  | [] => [x]
  | y :: r => if ranksAbove x y then x :: y :: r else y :: rankInsert x r

/-- The k highest records, filled up as R137 says. -/
def topRecords (k : Nat) (rs : List (Nat × Nat)) : List (Nat × Nat) :=
  let t := (rs.foldl (fun l x => rankInsert x l) []).take k
  t ++ List.replicate (k - t.length) (0xFF800000, 0xFFFFFFFF)

/-- TOPK_NAN when a NaN takes part (R136). -/
def topkFlag (rs : List (Nat × Nat)) : BitVec 8 := flagIf fTopkNan (rs.any fun r => f32Val r.1 == .nan)

/-- A record as 64 bits (R137). -/
def recordCode (r : Nat × Nat) : Nat := r.1 + r.2 * 2 ^ 32

end Sys2Proof.Machine
end

