-- ==== Sys2Proof/Machine/Sparse.lean ====
section
/-!
DEFINITION. Sparse operands: compressed-row images (R221 to R225), 2:4 operands (R214 to R217), the choice of path
(R229, R230) and the chunks of overloaded rows (R240 to R242).
-/

namespace Sys2Proof.Machine

/-! ### Compressed-row images (R221, R222) -/

def imgNnz (h : Nat) : Nat := bits h 64 32
def imgFmt (h : Nat) : Nat := bits h 96 5
def imgWide (h : Nat) : Bool := bit h 101
def imgHasBlk (h : Nat) : Bool := bit h 102
def imgBlkR (h : Nat) : Nat := bits h 104 4
def imgBlkC (h : Nat) : Nat := bits h 108 4
def imgPtrOff (h : Nat) : Nat := bits h 128 48
def imgIdxOff (h : Nat) : Nat := bits h 192 48
def imgValOff (h : Nat) : Nat := bits h 256 48
def imgBlkOff (h : Nat) : Nat := bits h 320 48

/-- Reserved header bits (R221). -/
def imgReserved (h : Nat) : Nat :=
  bits h 103 1 + bits h 112 16 + bits h 176 16 + bits h 240 16 + bits h 304 16 + bits h 368 16 + bits h 416 96

def imgIdxBytes (h : Nat) : Nat := if imgWide h then 4 else 2
def imgValBits (h : Nat) : Nat := fmtBits ((fmtOf (imgFmt h)).getD .int32)
def imgBlkCols (h : Nat) : Nat := cdiv (imgCols h) (2 ^ imgBlkC h)
def imgBlocks (h : Nat) : Nat := cdiv (imgRows h) (2 ^ imgBlkR h) * imgBlkCols h

/-- The arrays of an image, header first: offset and length (R222). -/
def imgArrays (h : Nat) : List (Nat × Nat) :=
  [(0, 64), (imgPtrOff h, 4 * (imgRows h + 1)), (imgIdxOff h, imgIdxBytes h * imgNnz h),
   (imgValOff h, cdiv (imgNnz h * imgValBits h) 8)]
    ++ (if imgHasBlk h then [(imgBlkOff h, 4 * imgBlocks h)] else [])

/-- Whether two ranges share a byte. -/
def overlap (x y : Nat × Nat) : Bool := x.2 != 0 && y.2 != 0 && x.1 < y.1 + y.2 && y.1 < x.1 + x.2

def anyOverlap : List (Nat × Nat) → Bool
  | [] => false
  | x :: r => r.any (overlap x) || anyOverlap r

/-- The header checks of R223 on an image at `base`; `fmtOk` says which formats its role allows. -/
def checkImage (base h : Nat) (fmtOk : Fmt → Bool) : Except Fail Unit := do
  let e := failAt cBadDescriptor base
  need (base % 64 = 0) e
  need (imgReserved h = 0) e
  need (imgRows h ≠ 0 && imgCols h ≠ 0) e
  match fmtOf (imgFmt h) with
  | none => .error e
  | some f => need (fmtOk f) e
  need (imgWide h || imgCols h ≤ 65536) e
  need (imgBlkR h ≤ 8 && 5 ≤ imgBlkC h) e
  need (imgPtrOff h % 64 = 0 && imgIdxOff h % 64 = 0 && imgValOff h % 64 = 0
    && (!imgHasBlk h || imgBlkOff h % 64 = 0)) e
  need (!anyOverlap (imgArrays h)) e
  match (imgArrays h).find? fun a => a.2 ≠ 0 ∧ hbmEnd < base + a.1 + a.2 with
  | some a => .error (failAt cAddrRange (max hbmEnd (base + a.1)))
  | none => .ok ()

/-- Pointer `i`, index and value code of entry `k` of an image. -/
def imgPtr (s : State) (base h i : Nat) : Nat := leNat (devBytes s (base + imgPtrOff h + 4 * i) 4)
def imgIdx (s : State) (base h k : Nat) : Nat :=
  leNat (devBytes s (base + imgIdxOff h + imgIdxBytes h * k) (imgIdxBytes h))
def imgVal (s : State) (base h k : Nat) : Nat :=
  fieldAt s (base + imgValOff h + k * imgValBits h / 8) (k * imgValBits h % 8) (imgValBits h)

/-- The entries of row `i`. -/
def imgEntries (s : State) (base h i : Nat) : List Nat :=
  let a := imgPtr s base h i
  let b := imgPtr s base h (i + 1)
  (List.range (b - a)).map (a + ·)

/-- The code stored at (row, index), if there is an entry. -/
def imgCode (s : State) (base h row idx : Nat) : Option Nat :=
  ((imgEntries s base h row).find? fun k => imgIdx s base h k = idx).map (imgVal s base h)

/-- Entries of the image before row `i`, at most its count (R222). -/
def imgFrom (s : State) (base h i : Nat) : Nat := min (imgPtr s base h i) (imgNnz h)

/-- The ranges of an image that a command reads for rows `[r0, r1)`: its header, their pointers, indices and values. -/
def imgRanges (s : State) (base h r0 r1 : Nat) : List (Nat × Nat) :=
  let a := imgFrom s base h r0
  let n := imgFrom s base h r1 - a
  ([(base, 64), (base + imgPtrOff h + 4 * r0, 4 * (r1 + 1 - r0)), (base + imgIdxOff h + imgIdxBytes h * a, imgIdxBytes h * n),
    (base + imgValOff h + a * imgValBits h / 8, cdiv (a * imgValBits h % 8 + n * imgValBits h) 8)]).filter fun x => x.2 ≠ 0

/-- The first faulty pointer or index entry that rows `[r0, r1)` of an image fetch, as an address (R224). -/
def imgFault (s : State) (base h r0 r1 : Nat) : Option Nat :=
  let ptrBad := ((List.range (r1 + 1 - r0)).map (r0 + ·)).find? fun i =>
    let v := imgPtr s base h i
    if i = 0 then v ≠ 0
    else (r0 < i ∧ v < imgPtr s base h (i - 1)) ∨ imgNnz h < v ∨ (i = imgRows h ∧ v ≠ imgNnz h)
  match ptrBad with
  | some i => some (base + imgPtrOff h + 4 * i)
  | none =>
    ((List.range (r1 - r0)).map (r0 + ·)).findSome? fun i =>
      let es := imgEntries s base h i
      (es.find? fun k =>
        imgCols h ≤ imgIdx s base h k ∨ (k ≠ imgPtr s base h i ∧ imgIdx s base h k ≤ imgIdx s base h (k - 1))).map
          fun k => base + imgIdxOff h + imgIdxBytes h * k

/-! ### Images as the device writes them (R222, R246) -/

/-- Round up to a multiple of 64. -/
def up64 (n : Nat) : Nat := cdiv n 64 * 64

/-- A compressed-row image to be written: its extents, value format, entries (index and code) row by row, and whether its
indices take 32 bits. -/
structure Img where
  rows : Nat
  cols : Nat
  fmt : Fmt
  ents : List (List (Nat × Nat))
  wide : Bool

/-- An image with the narrowest indices that its columns allow (R221). -/
def Img.of (rows cols : Nat) (fmt : Fmt) (ents : List (List (Nat × Nat))) : Img := ⟨rows, cols, fmt, ents, decide (65536 < cols)⟩

def Img.nnz (x : Img) : Nat := x.ents.flatten.length
def Img.idxBytes (x : Img) : Nat := if x.wide then 4 else 2
def Img.ptrOff (_ : Img) : Nat := 64
def Img.idxOff (x : Img) : Nat := up64 (64 + 4 * (x.rows + 1))
def Img.valOff (x : Img) : Nat := up64 (x.idxOff + x.idxBytes * x.nnz)
def Img.valLen (x : Img) : Nat := cdiv (x.nnz * fmtBits x.fmt) 8
def Img.blkOff (x : Img) : Nat := up64 (x.valOff + x.valLen)

/-- Pointer `i`: the entries of the rows before it (R222). -/
def Img.ptr (x : Img) (i : Nat) : Nat := (x.ents.take i).flatten.length

/-- Block counts in order (R222). -/
def Img.blocks (x : Img) (br bc : Nat) : List Nat :=
  (List.range (cdiv x.rows (2 ^ br))).flatMap fun i => (List.range (cdiv x.cols (2 ^ bc))).map fun j =>
    (((x.ents.drop (i * 2 ^ br)).take (2 ^ br)).flatten.filter fun e => e.1 / 2 ^ bc = j && isNonZero x.fmt e.2).length

/-- The header. Without a block summary `blk_r` is 0 and `blk_c` is 5, the least that R221 allows (R223; DESIGN CHOICE, log
71). -/
def Img.header (x : Img) (blk : Option (Nat × Nat)) : Nat :=
  x.rows + x.cols * 2 ^ 32 + x.nnz * 2 ^ 64 + fmtCode x.fmt * 2 ^ 96 + b2n x.wide * 2 ^ 101
    + (match blk with
      | some b => 2 ^ 102 + b.1 * 2 ^ 104 + b.2 * 2 ^ 108 + x.blkOff * 2 ^ 320
      | none => 5 * 2 ^ 108)
    + x.ptrOff * 2 ^ 128 + x.idxOff * 2 ^ 192 + x.valOff * 2 ^ 256
    + (x.ents.foldl (fun m r => max m r.length) 0) * 2 ^ 384

/-- The bytes of an image past its first (R246). -/
def Img.size (x : Img) (blk : Option (Nat × Nat)) : Nat :=
  match blk with
  | some b => x.blkOff + 4 * (x.blocks b.1 b.2).length
  | none => x.valOff + x.valLen

/-- The writes of an image at `base`, its header last (R246). -/
def imgWrites (base : Nat) (blk : Option (Nat × Nat)) (x : Img) : List (Nat × List Byte) :=
  let es := x.ents.flatten
  let arrays :=
    [(base + x.ptrOff, (List.range (x.rows + 1)).flatMap fun i => leBytes 4 (x.ptr i)),
     (base + x.idxOff, es.flatMap fun e => leBytes x.idxBytes e.1),
     (base + x.valOff, leBytes x.valLen (packCodes (fmtBits x.fmt) (es.map (·.2))))]
    ++ (match blk with
      | some b => [(base + x.blkOff, (x.blocks b.1 b.2).flatMap fun n => leBytes 4 n)]
      | none => [])
    ++ [(base, leBytes 64 (x.header blk))]
  arrays.filter fun a => !a.2.isEmpty

/-! ### 2:4 operands (R215, R216) -/

/-- The stored reduction extent of a 2:4 tensor, and the groups of its metadata. -/
def pairK (k : Nat) : Nat := 2 * cdiv k 4

/-- The held tensor's reference with its stored extents: K is the first dimension of B, the second of A. -/
def storedRef (isB : Bool) (r : TRef) : TRef :=
  if isB then { r with rows := pairK r.rows } else { r with cols := pairK r.cols }

/-- The metadata's reference: the layout of the values with one nibble a group. -/
def metaRef (isB : Bool) (val mta : TRef) : TRef :=
  if isB then { mta with rows := cdiv val.rows 4, cols := val.cols, inner := val.inner, batch := val.batch }
  else { mta with rows := val.rows, cols := cdiv val.cols 4, inner := val.inner, batch := val.batch }

/-- The nibble of group `j` in line `n`. -/
def nibble (s : State) (isB : Bool) (m : TRef) (b n j : Nat) : Nat :=
  if isB then elemW s m 4 b j n else elemW s m 4 b n j

/-- The code of a 2:4 operand at logical index `k` of line `n`, if a slot names it. -/
def pairCode (s : State) (isB : Bool) (val mta : TRef) (b n k : Nat) : Option Nat :=
  let nb := nibble s isB mta b n (k / 4)
  let at_ := fun i => if isB then elemCode s val b i n else elemCode s val b n i
  if bits nb 0 2 = k % 4 then some (at_ (2 * (k / 4)))
  else if bits nb 2 2 = k % 4 then some (at_ (2 * (k / 4) + 1))
  else none

/-- The address of the byte of the first nibble that breaks R217, among groups `[j0, j1)` of lines `[n0, n1)` of an
item. -/
def pairFault (s : State) (isB : Bool) (mta : TRef) (b n0 n1 j0 j1 : Nat) : Option Nat :=
  let b := if mta.batch ≤ 1 then 0 else b
  let groups := (List.range (j1 - j0)).map (j0 + ·)
  let lines := (List.range (n1 - n0)).map (n0 + ·)
  let bad := fun (n j : Nat) =>
    let nb := nibble s isB mta b n j
    if bits nb 2 2 ≤ bits nb 0 2 then some (if isB then mta.elemAt 4 b j n else mta.elemAt 4 b n j).1 else none
  if isB = mta.inner then lines.findSome? fun n => groups.findSome? fun j => bad n j
  else groups.findSome? fun j => lines.findSome? fun n => bad n j

/-! ### Chunks of an overloaded row (R240) -/

/-- Cut a row's groups into chunks: `gs` are its groups with their extent and non-zero count. -/
def chunkGo : List (Nat × (Nat × Nat) × Nat) → List (Nat × (Nat × Nat) × Nat) → Nat →
    List (List (Nat × (Nat × Nat) × Nat))
  | [], cur, _ => if cur.isEmpty then [] else [cur]
  | x :: r, cur, n =>
    if cur.isEmpty || n + x.2.2 ≤ 512 then chunkGo r (cur ++ [x]) (n + x.2.2)
    else cur :: chunkGo r [x] x.2.2

def chunks (gs : List (Nat × (Nat × Nat) × Nat)) : List (List (Nat × (Nat × Nat) × Nat)) := chunkGo gs [] 0

end Sys2Proof.Machine
end

