-- ==== Sys2Proof/Machine/Slices.lean ====
section
/-!
DEFINITION. The slices of a product's operands: their codes in HBM or in a circular region, the bench rows they take and
what those rows hold (R185, R231, R274), the path each takes (R229), the HBM bytes that are read (R198, R201, R202), and
kerf arrivals (R199).
-/

namespace Sys2Proof.Machine

/-! ### Operands by side: A, or B when `isB` -/

def opRef (o : Op) (isB : Bool) : TRef := if isB then refB o else refA o
def opBref (o : Op) (isB : Bool) : BRef := if isB then brefB o else brefA o
def opCsr (o : Op) (isB : Bool) : Bool := if isB then fCsrB o else fCsrA o
def opHeld (o : Op) (isB : Bool) : Bool := isB != fSerialB o
def opScl (o : Op) (isB : Bool) : Nat := if isB then fSclB o else fSclA o
def opBatch (o : Op) (isB : Bool) : Nat := if isB then batchB o else batchA o

/-- Whether the held operand is a 2:4 tensor. -/
def is24 (o : Op) : Bool := opCode o == 0x11

def fmtA (s : State) (o : Op) : Fmt :=
  if fCsrA o then (fmtOf (imgFmt (imgHeader s (refA o).base))).getD .int32 else (refA o).fmt
def fmtB (s : State) (o : Op) : Fmt :=
  if fCsrB o then (fmtOf (imgFmt (imgHeader s (refB o).base))).getD .int32 else (refB o).fmt
def opFmt (s : State) (o : Op) (isB : Bool) : Fmt := if isB then fmtB s o else fmtA s o

/-- A and B as stored in HBM: their rows under `m_dyn`, and the stored K extent of a 2:4 operand. -/
def srcA (o : Op) : TRef :=
  let r := dynRows o (refA o)
  if is24 o && fSerialB o then storedRef false r else r
def srcB (o : Op) : TRef := if is24 o && !fSerialB o then storedRef true (refB o) else refB o
def opSrc (o : Op) (isB : Bool) : TRef := if isB then srcB o else srcA o

/-- The metadata reference of a 2:4 product. -/
def mtaRef (o : Op) : TRef := metaRef (!fSerialB o) (if fSerialB o then refA o else refB o) (auxRef o 3)

/-- Whether this operand is the 2:4 one. -/
def op24 (o : Op) (isB : Bool) : Bool := is24 o && opHeld o isB

/-- The dimension beside K of an operand: M for A, N for B. -/
def opDim (isB : Bool) : Nat := if isB then 2 else 1

/-- Whether the operand's bench lines run along K: as stored, and an image as R185 places it (R185, R231, R274). -/
def alongK (o : Op) (isB : Bool) : Bool := if opCsr o isB then !opHeld o isB else (opRef o isB).inner == isB

/-! ### Slices -/

/-- A bench tile's slice of an operand: its item, its range of M or N, its K range (R185). -/
structure Slice where
  b : Nat
  x0 : Nat
  x1 : Nat
  k0 : Nat
  k1 : Nat
  deriving DecidableEq

/-- A tile's slice; one item serves every batch of the other operand (R608). -/
def sliceOf (o : Op) (isB : Bool) (t : BTile) : Slice :=
  ⟨if opBatch o isB ≤ 1 then 0 else t.b, if isB then t.n0 else t.m0, if isB then t.n1 else t.m1, t.k0, t.k1⟩

/-- The slice of a whole bench tile, for the rows it needs at most (R189). -/
def fullSlice (o : Op) (isB : Bool) : Slice := ⟨0, 0, btExt o (opDim isB), 0, fBtK o⟩

/-- Stored K indices of a slice: two for each group of four in a 2:4 operand (R215). -/
def sliceK (o : Op) (isB : Bool) (x : Slice) : Nat × Nat :=
  if op24 o isB then (x.k0 / 4 * 2, pairK x.k1) else (x.k0, x.k1)

/-- Bench lines of a slice, and elements in a line. -/
def sliceLines (o : Op) (isB : Bool) (x : Slice) : Nat :=
  let k := sliceK o isB x
  if alongK o isB then x.x1 - x.x0 else k.2 - k.1
def slicePer (o : Op) (isB : Bool) (x : Slice) : Nat :=
  let k := sliceK o isB x
  if alongK o isB then k.2 - k.1 else x.x1 - x.x0

/-- Bench rows of a slice's values in the placement of R185. -/
def denseRows (s : State) (o : Op) (isB : Bool) (x : Slice) : Nat :=
  rowsFor (sliceLines o isB x) (slicePer o isB x) (fmtBits (opFmt s o isB))

/-- Rows that one bench tile's slices need at most: A, B, the output, and the scales (R189). -/
def rowsA (s : State) (o : Op) : Nat := denseRows s o false (fullSlice o false)
def rowsB (s : State) (o : Op) : Nat := denseRows s o true (fullSlice o true)
def opRows (s : State) (o : Op) (isB : Bool) : Nat := denseRows s o isB (fullSlice o isB)

/-- Bytes and rows of one line's scale words over a K range (R44, R185). -/
def scaleLine (s : State) (o : Op) (isB : Bool) (k0 k1 : Nat) : Nat :=
  if operandScale o (opScl o isB) (opFmt s o isB) = 3 then 0
  else cdiv (k1 - k0) (gOf o) * scaleBytes (opFmt s o isB)
def scaleRows (s : State) (o : Op) (isB : Bool) (x : Slice) : Nat :=
  (x.x1 - x.x0) * cdiv (scaleLine s o isB x.k0 x.k1) 512
def rowsS (s : State) (o : Op) : Nat := scaleRows s o false (fullSlice o false) + scaleRows s o true (fullSlice o true)

/-! ### The path (R229) -/

/-- Non-zeros of a slice by the block counts that cover it (R229). -/
def sliceNz (s : State) (base h r0 r1 c0 c1 : Nat) : Nat :=
  let br := 2 ^ imgBlkR h
  let bc := 2 ^ imgBlkC h
  ((List.range (cdiv r1 br - r0 / br)).flatMap fun i => (List.range (cdiv c1 bc - c0 / bc)).map fun j =>
    leNat (devBytes s (base + imgBlkOff h + 4 * ((r0 / br + i) * imgBlkCols h + (c0 / bc + j))) 4)).foldl (· + ·) 0

def spThreshold (o : Op) : Nat := if fSpThresh o = 0 then 96 else fSpThresh o

/-- Rows and indices of the image that a slice takes: B's image has rows along K. -/
def imgPart (isB : Bool) (x : Slice) : (Nat × Nat) × (Nat × Nat) :=
  if isB then ((x.k0, x.k1), (x.x0, x.x1)) else ((x.x0, x.x1), (x.k0, x.k1))

/-- Whether a slice of an image operand takes the dense path (R229). -/
def takesDense (s : State) (o : Op) (isB : Bool) (x : Slice) : Bool :=
  let base := (opRef o isB).base
  let h := imgHeader s base
  match fSpPath o with
  | 1 => true
  | 2 => false
  | _ =>
    if imgHasBlk h then
      let (r, c) := imgPart isB x
      decide (spThreshold o * ((r.2 - r.1) * (c.2 - c.1)) ≤ sliceNz s base h r.1 r.2 c.1 c.2 * 256)
    else decide (spThreshold o * (imgRows h * imgCols h) ≤ imgNnz h * 256)

/-- Whether some slice of an image operand in this device's shard takes the dense path. -/
def someDense (s : State) (o : Op) (isB : Bool) : Bool :=
  (benchTiles s o (planOf s o)).any fun t => takesDense s o isB (sliceOf o isB t)

/-- Whether a slice stays compressed on the bench (R231). -/
def staysCompressed (s : State) (o : Op) (isB : Bool) (x : Slice) : Bool := opCsr o isB && !takesDense s o isB x

/-- A compressed slice in the image's layout, with the image's indices (R231). -/
def sliceImg (s : State) (o : Op) (isB : Bool) (x : Slice) : Img :=
  let base := (opRef o isB).base
  let h := imgHeader s base
  let (r, c) := imgPart isB x
  ⟨r.2 - r.1, imgCols h, opFmt s o isB, (List.range (r.2 - r.1)).map fun i =>
    ((imgEntries s base h (r.1 + i)).filter fun k => c.1 ≤ imgIdx s base h k && imgIdx s base h k < c.2).map fun k =>
      (imgIdx s base h k, imgVal s base h k), imgWide h⟩

/-! ### What the rows hold -/

/-- The code at a bench line and position of a slice in HBM; a code an image does not hold is zero-filled (R231). -/
def sliceCode (s : State) (o : Op) (isB : Bool) (x : Slice) (line pos : Nat) : Nat :=
  let k := sliceK o isB x
  let (e, i) := if alongK o isB then (x.x0 + line, k.1 + pos) else (x.x0 + pos, k.1 + line)
  let (r, c) := if isB then (i, e) else (e, i)
  if opCsr o isB then (imgCode s (opRef o isB).base (imgHeader s (opRef o isB).base) r c).getD 0
  else elemCode s (opSrc o isB) x.b r c

/-- Bytes cut into rows of 512, the last one short (R151). -/
def cutRows (bs : List Byte) : List (List Byte) := (List.range (cdiv bs.length 512)).map fun i => (bs.drop (512 * i)).take 512

/-- Packed rows of a line of codes (R32, R33, R185). -/
def lineOfCodes (width n : Nat) (f : Nat → Nat) : List (List Byte) :=
  cutRows (leBytes (lineBytesW width n) (packCodes width ((List.range n).map f)))

/-- The rows of an image from its first byte. -/
def imageRows (x : Img) : List (List Byte) :=
  let ws := imgWrites 0 none x
  let at_ := fun a => match ws.find? fun w => w.1 ≤ a && a < w.1 + w.2.length with
    | some w => w.2.getD (a - w.1) 0#8
    | none => 0#8
  cutRows ((List.range (x.size none)).map at_)

/-- Metadata rows of a 2:4 slice: lines of nibbles in the values' direction (R199, R215). -/
def metaRows (s : State) (o : Op) (isB : Bool) (x : Slice) : List (List Byte) :=
  if op24 o isB then
    (List.range (cdiv x.k1 4 - x.k0 / 4)).flatMap fun j =>
      lineOfCodes 4 (x.x1 - x.x0) fun e => nibble s isB (mtaRef o) x.b (x.x0 + e) (x.k0 / 4 + j)
  else []

/-- The rows of an operand's slice, in the order of its reference: values, or its compressed image; then metadata (R185,
R231, R274; the metadata's place is a DESIGN CHOICE, log 14). -/
def sliceRows (s : State) (o : Op) (isB : Bool) (x : Slice) : List (List Byte) :=
  if staysCompressed s o isB x then imageRows (sliceImg s o isB x)
  else
    let n := slicePer o isB x
    ((List.range (sliceLines o isB x)).flatMap fun l =>
      lineOfCodes (fmtBits (opFmt s o isB)) n (sliceCode s o isB x l)) ++ metaRows s o isB x

/-- The scale rows of a slice, line by line (R44, R185). -/
def sliceScales (s : State) (o : Op) (isB : Bool) (x : Slice) : List (List Byte) :=
  let n := scaleLine s o isB x.k0 x.k1
  if n = 0 then []
  else
    let w := scaleBytes (opFmt s o isB)
    let K := (planOf s o).K
    (List.range (x.x1 - x.x0)).flatMap fun l =>
      cutRows (devBytes s (scaleAddr (auxRef o (if isB then 1 else 0)) x.b (x.x0 + l) (x.k0 / gOf o) (cdiv K (gOf o)) w) n)

/-! ### Region operands (R156, R168) -/

/-- The distinct slices of an operand that a lathe takes, in the order of their first use. -/
def latheSlices (s : State) (o : Op) (isB : Bool) (l : Nat) : List Slice :=
  (((benchTiles s o (planOf s o)).filter fun t => t.lathe = l).map (sliceOf o isB)).eraseDups

/-- Slots that one bench tile's rows take in a region, at least one. -/
def slotsFor (r : Region) (rows : Nat) : Nat := max 1 (cdiv rows (r.slotRowsM1.toNat + 1))

/-- The address of row `i` of the `j`-th set of slots from head, each of which holds `rows` rows (DEDUCED, log 20). -/
def regionRow (l : Nat) (r : Region) (rows j i : Nat) : Nat :=
  let per := r.slotRowsM1.toNat + 1
  slotAddr l r (ringNext r r.head.toNat (j * slotsFor r rows + i / per)) + 512 * (i % per)

/-- A field of `width` bits at bit `off` of row `i` of a region's set of slots. -/
def regionField (s : State) (l : Nat) (r : Region) (rows j i off width : Nat) : Nat :=
  fieldAt s (regionRow l r rows j (i + off / 4096) + off % 4096 / 8) (off % 8) width

/-- Where element (x, k) of an operand lies in a lathe's slices: the slice's place, its line and its position. -/
def sliceSpot (o : Op) (isB : Bool) (xs : List Slice) (b x i : Nat) : Nat × Nat × Nat :=
  let j := xs.findIdx fun y => y.b = b && y.x0 ≤ x && x < y.x1 && (sliceK o isB y).1 ≤ i && i < (sliceK o isB y).2
  match xs[j]? with
  | some y => if alongK o isB then (j, x - y.x0, i - (sliceK o isB y).1) else (j, i - (sliceK o isB y).1, x - y.x0)
  | none => (0, 0, 0)

/-- The code of an element of a region operand, from the slots a lathe reads (R168, DEDUCED, log 20). -/
def regionCode (s : State) (o : Op) (isB : Bool) (l b x i : Nat) : Nat :=
  let r := getRegion s l (opBref o isB).base
  let xs := latheSlices s o isB l
  let p := sliceSpot o isB xs (if opBatch o isB ≤ 1 then 0 else b) x i
  let w := fmtBits (opFmt s o isB)
  let per := cdiv (lineBytesW w (slicePer o isB (xs.getD p.1 (fullSlice o isB)))) 512
  regionField s l r (opRows s o isB) p.1 (p.2.1 * per) (p.2.2 * w) w

/-- Whether the Matrix Engine reads an operand, or its scales, from a region's slots. `VE.KNOT_FIX` takes the elements its
knots name from HBM (DESIGN CHOICE, log 20). -/
def fromRegion (o : Op) (b : BRef) : Bool := b.region && opCode o / 16 == 1

/-- The stored code of element (x, i) of an operand on a lathe; `i` is a stored K index. -/
def storedCode (s : State) (o : Op) (isB : Bool) (l b x i : Nat) : Nat :=
  if fromRegion o (opBref o isB) then regionCode s o isB l b x i
  else if isB then elemCode s (srcB o) b i x else elemCode s (srcA o) b x i

/-- The code at reduction index `k` of line `x` of an operand, if one is stored (R215, R222). -/
def opCodeAt (s : State) (o : Op) (isB : Bool) (l b x k : Nat) : Option Nat :=
  if opCsr o isB then
    let base := (opRef o isB).base
    if isB then imgCode s base (imgHeader s base) k x else imgCode s base (imgHeader s base) x k
  else if op24 o isB then
    let nb := nibble s isB (mtaRef o) b x (k / 4)
    if bits nb 0 2 = k % 4 then some (storedCode s o isB l b x (2 * (k / 4)))
    else if bits nb 2 2 = k % 4 then some (storedCode s o isB l b x (2 * (k / 4) + 1))
    else none
  else some (storedCode s o isB l b x k)

/-- The scale word or record of group `j` of line `x` (R44, DEDUCED, log 23); a scale operand in a region holds A's lines
and then B's for each bench tile (DESIGN CHOICE, log 20). -/
def opScaleAt (s : State) (o : Op) (isB : Bool) (l b x j : Nat) : Nat :=
  let w := scaleBytes (opFmt s o isB)
  if fromRegion o (brefS o) then
    let ts := (benchTiles s o (planOf s o)).filter fun t => t.lathe = l
    let n := ts.findIdx fun t =>
      let y := sliceOf o isB t
      y.b = (if opBatch o isB ≤ 1 then 0 else b) && y.x0 ≤ x && x < y.x1 && y.k0 / gOf o ≤ j && j < cdiv y.k1 (gOf o)
    match ts[n]? with
    | some t =>
      let y := sliceOf o isB t
      let before := if isB then scaleRows s o false (sliceOf o false t) else 0
      let per := cdiv (scaleLine s o isB y.k0 y.k1) 512
      regionField s l (getRegion s l (brefS o).base) (rowsS s o) n (before + (x - y.x0) * per)
        ((j - y.k0 / gOf o) * w * 8) (8 * w)
    | none => 0
  else leNat (devBytes s (scaleAddr (auxRef o (if isB then 1 else 0)) b x j (cdiv (planOf s o).K (gOf o)) w) w)

/-! ### What is read from HBM (R198, R201, R202, R209) -/

/-- The byte ranges of an operand's codes over a slice, line by line, or of its image's rows. -/
def sliceRanges (s : State) (o : Op) (isB : Bool) (x : Slice) : List (Nat × Nat) :=
  let base := (opRef o isB).base
  if opCsr o isB then let r := (imgPart isB x).1; imgRanges s base (imgHeader s base) r.1 r.2
  else if fromRegion o (opBref o isB) then []
  else
    let r := opSrc o isB
    let w := fmtBits r.fmt
    let k := sliceK o isB x
    let b := if r.batch ≤ 1 then 0 else x.b
    if alongK o isB then (List.range (x.x1 - x.x0)).map fun l =>
      (r.lineAddr b (x.x0 + l) + k.1 * w / 8, cdiv (k.1 * w % 8 + (k.2 - k.1) * w) 8)
    else (List.range (k.2 - k.1)).map fun l =>
      (r.lineAddr b (k.1 + l) + x.x0 * w / 8, cdiv (x.x0 * w % 8 + (x.x1 - x.x0) * w) 8)

/-- The ranges of its scale words, and of its metadata. -/
def sliceSide (s : State) (o : Op) (isB : Bool) (x : Slice) : List (Nat × Nat) :=
  let n := scaleLine s o isB x.k0 x.k1
  (if n = 0 || fromRegion o (brefS o) then []
   else (List.range (x.x1 - x.x0)).map fun l =>
     (scaleAddr (auxRef o (if isB then 1 else 0)) x.b (x.x0 + l) (x.k0 / gOf o) (cdiv (planOf s o).K (gOf o))
       (scaleBytes (opFmt s o isB)), n))
  ++ (if op24 o isB then
      let m := mtaRef o
      let b := if m.batch ≤ 1 then 0 else x.b
      (List.range (cdiv x.k1 4 - x.k0 / 4)).map fun j =>
        let c := 4 * x.x0
        (m.lineAddr b (x.k0 / 4 + j) + c / 8, cdiv (c % 8 + 4 * (x.x1 - x.x0)) 8)
    else [])

/-- The slice of an operand that an HBM tile takes: its whole range of M or N, and of K (R198, R201). -/
def hbmSlice (o : Op) (p : Plan) (isB : Bool) (t : Nat × Nat × Nat) (b : Nat) : Slice :=
  let d := opDim isB
  let lo := p.start d + dimOf t d * hbmExt o d
  ⟨if opBatch o isB ≤ 1 then 0 else b, lo, min (p.start d + p.size d) (lo + hbmExt o d), p.k0, p.k1⟩

/-- The batch items of an HBM tile. -/
def hbmItems (o : Op) (p : Plan) (t : Nat × Nat × Nat) : List Nat :=
  (List.range (min (hbmExt o 0) (p.size 0 - t.1 * hbmExt o 0))).map (p.b0 + t.1 * hbmExt o 0 + ·)

/-- The HBM slices of an operand for an HBM tile: one for each item, or the one that serves every item. -/
def hbmSlices (o : Op) (p : Plan) (isB : Bool) (t : Nat × Nat × Nat) : List Slice :=
  ((hbmItems o p t).map (hbmSlice o p isB t)).eraseDups

/-- The named mesh rows R and columns C (R198), and the mesh row and column of an HBM tile, counted in them and not yet
reduced: its fed and its held index. -/
def meshR (o : Op) : Nat := popBelow (fMeshRows o) 8
def meshC (o : Op) : Nat := if fWestOnly o then 8 else 16
def meshSpot (o : Op) (t : Nat × Nat × Nat) : Nat × Nat := if fSerialB o then (t.2.2, t.2.1) else (t.2.1, t.2.2)

/-- Rounds of R × C HBM tiles under kerf mapping: blocks of R by C indices of one item, in the order in which `ord_hbm` comes to
their first tile. Tiles that differ in K alone are one tile here and take one place in the dealing (R198, R202; DESIGN CHOICE,
log 72). -/
def kerfRounds (o : Op) (p : Plan) : List (List (Nat × Nat × Nat)) :=
  let ts := walk (hbmCount o p) (ordCodes (fOrdHbm o))
  let key := fun (t : Nat × Nat × Nat) => (t.1, (meshSpot o t).1 / meshR o, (meshSpot o t).2 / meshC o)
  ((ts.map key).eraseDups).map fun k => ts.filter fun t => key t = k

/-- The slices of an operand that are read from HBM: once a round for all the tiles of a mesh row or column that share
it under kerf mapping (R198), and for each HBM tile otherwise (R201). -/
def readSlices (o : Op) (p : Plan) (isB : Bool) : List Slice :=
  if o.resident then (walk (hbmCount o p) (ordCodes (fOrdHbm o))).flatMap (hbmSlices o p isB)
  else (kerfRounds o p).flatMap fun rd => (rd.flatMap (hbmSlices o p isB)).eraseDups

/-- Ranges of the operands of a product on this device: elements or images, scales, metadata (R190, R202, R209). -/
def operandRanges (s : State) (o : Op) : List (Nat × Nat) :=
  let p := planOf s o
  let side := fun isB => (readSlices o p isB).flatMap fun x => sliceRanges s o isB x ++ sliceSide s o isB x
  ((if fCsrA o then [((refA o).base, 64)] else []) ++ (if fCsrB o then [((refB o).base, 64)] else []) ++ side false ++ side true).filter
    fun r => r.2 ≠ 0

/-! ### Kerf arrivals (R198, R199) -/

/-- Bench rows of a slice as the reading lathe holds them: operand rows or the compressed image, scale rows and metadata
rows (R199). -/
def arrivalRows (s : State) (o : Op) (isB : Bool) (x : Slice) : Nat :=
  (if staysCompressed s o isB x then cdiv ((sliceImg s o isB x).size none) 512
   else denseRows s o isB x + (if op24 o isB then rowsFor (cdiv x.k1 4 - x.k0 / 4) (x.x1 - x.x0) 4 else 0))
  + scaleRows s o isB x

/-- Rows committed by kerf arrivals over the bench tiles of a kerf-mapped layer that ran: in each round every slice once for
every other lathe of the reader's mesh row (fed) or column (held) that holds a tile of the round (R199). -/
def kerfCount (s : State) (o : Op) (p : Plan) (ran : List BTile) : Nat :=
  let spot := fun (t : Nat × Nat × Nat) => ((meshSpot o t).1 % meshR o, (meshSpot o t).2 % meshC o)
  (kerfRounds o p).foldl (fun n rd =>
    let spots := (rd.map spot).eraseDups
    let line := fun (isB : Bool) (q : Nat × Nat) => if opHeld o isB then q.2 else q.1
    [false, true].foldl (fun n isB =>
      if (opBref o isB).region then n
      else
        let xs := ((ran.filter fun t => rd.contains t.hbm).map fun t => (sliceOf o isB t, line isB (spot t.hbm))).eraseDups
        xs.foldl (fun n x => n + ((spots.filter fun q => line isB q = x.2).length - 1) * arrivalRows s o isB x.1) n) n) 0

def kerfTally (s : State) (o : Op) (p : Plan) (ran : List BTile) : State :=
  if fKerfEn o && !o.resident then addTally s (fKerfTally o) (kerfCount s o p ran) else s

/-! ### The tailstock (R274, R279) -/

/-- Whether an operand of a product passes the tailstock: its inner field calls for the other line direction (R185, R274,
R277). -/
def opTail (o : Op) (isB : Bool) : Bool := !opCsr o isB && (opRef o isB).inner != fSerialB o

/-- The bench row that holds element `x` of the stored line of reduction index `k` of an operand. -/
def storedRow (s : State) (o : Op) (isB : Bool) (l : Nat) (y : Slice) (k x : Nat) : List Byte :=
  let w := fmtBits (opFmt s o isB)
  let r := (lineOfCodes w (y.x1 - y.x0) fun e => storedCode s o isB l y.b (y.x0 + e) k).getD ((x - y.x0) * w / 4096) []
  r ++ List.replicate (512 - r.length) 0#8

/-- A channel takes in a block of stored lines: its buffers are filled in turn (R279). -/
def TailChannel.take (c : TailChannel) (block : List (List Byte)) : TailChannel :=
  if c.next1 then { c with second := block, next1 := false } else { c with first := block, next1 := true }

end Sys2Proof.Machine
end

