-- ==== Sys2Proof/Machine/Product.lean ====
section
/-!
DEFINITION. Products: the operands as the expander reads them, group results, accumulation of every output entry, and
how the entries leave: through the epilogue, as partials, as records, or into an open set (R139, R357, R358, R117).
-/

namespace Sys2Proof.Machine

/-! ### Operands -/

/-- Fed magnitude bits F (R34): min(p + 4, 40 − B, 24). -/
def fedBits (f : Fmt) (split : Nat) : Nat :=
  match fpShape f with
  | some s => min (min (fpP s + 4) (40 - heldBits split)) 24
  | none => 24

/-- Free indices a product uses for shaved bits, and their end (DESIGN CHOICE, log 6). -/
def freeEnd (s : State) (p : Plan) : Nat := s.freeIdx + p.B * p.M * p.N * p.K

/-- The scale words of an operand by lathe, item, line and group (R43, R46). -/
def scaleWords (s : State) (o : Op) (isB : Bool) : Option (Nat → Nat → Nat → Nat → Nat) :=
  if operandScale o (opScl o isB) (opFmt s o isB) = 3 then none else some (opScaleAt s o isB)

/-- An operand as the expander reads it. -/
def opndOf (s : State) (o : Op) (isB : Bool) (K : Nat) : Opnd where
  fmt := opFmt s o isB
  kred := K
  code := opCodeAt s o isB
  scale := scaleWords s o isB
  e := if isB then fExpB o else fExpA o
  pat := fun l c => let k := if isB then fPatB o else fPatA o; slotValue (getSlot s l k) c
  K := if opHeld o isB then heldBits (fSplit o) else fedBits (opFmt s o isB) (fSplit o)

/-- The grit level: DEFAULT is resolved when the command starts (R270, R533, R534). -/
def gritOf (o : Op) : Nat := if fGrit o ≤ 3 then fGrit o else o.grit

/-- The shaving depth (R271). -/
def shaveOf (o : Op) : Nat := match gritOf o with | 2 => 2 | 3 => 4 | _ => 0

/-! ### Group results -/

/-- Which digits of the fed elements a pass feeds (R252, R262). -/
inductive Pass where
  | whole
  | rough (r : Nat)
  | rest (r : Nat)
  deriving DecidableEq

def passInt (p : Pass) (a : Int) : Int :=
  match p with
  | .whole => a
  | .rough r => (roughPart r a).1
  | .rest r => a - (roughPart r a).1

/-- What a product computes with. -/
structure Mm where
  a : Opnd
  b : Opnd
  plan : Plan
  g : Nat
  fedB : Bool
  log : Bool
  acc : AccFmt
  e : Int
  shave : Nat
  free : Nat

def mmOf (s : State) (o : Op) : Mm :=
  let p := planOf s o
  { a := opndOf s o false p.K, b := opndOf s o true p.K, plan := p, g := gOf o, fedB := fSerialB o, log := fSplit o == 4,
    acc := accFmt o, e := fI48Exp o, shave := shaveOf o, free := s.freeIdx }

/-- The register of a group for output (b, m, n') as it reaches the rescale unit: its low bits are free where it is shaved
(R271). -/
def Mm.shaved (x : Mm) (b m n' k0 : Nat) (r : Int) : Int :=
  if x.shave = 0 then r else Machine.shave x.shave (x.free + ((b * x.plan.M + m) * x.plan.N + n') * x.plan.K + k0) r

/-- The register and scales of the group at `k0`, `n` elements, for output (b, m, n') on a lathe (R74, R81, R88); its low
bits are free where it is shaved, in log mode too (R271). -/
def groupRes (x : Mm) (pass : Pass) (lathe b m n' : Nat) (gr : Nat × Nat) : GroupRes :=
  let j := gr.1 / x.g
  let low := x.shaved b m n' gr.1
  if x.log then
    let ca := (List.range gr.2).map fun i => (x.a.code lathe b m (gr.1 + i)).getD 0
    let cb := (List.range gr.2).map fun i => (x.b.code lathe b n' (gr.1 + i)).getD 0
    let sa := x.a.groupScale lathe b m j 0
    let sb := x.b.groupScale lathe b n' j 0
    ⟨low (logDot ca cb), sa.1, sa.2, sb.1, sb.2 - 23, false⟩
  else
    let ga := expand x.a.fmt x.a.K (x.a.elems x.g lathe b m gr.1 gr.2)
    let gb := expand x.b.fmt x.b.K (x.b.elems x.g lathe b n' gr.1 gr.2)
    let ia := if x.fedB then ga.ints else ga.ints.map (passInt pass)
    let ib := if x.fedB then gb.ints.map (passInt pass) else gb.ints
    let sa := x.a.groupScale lathe b m j ga.lsb
    let sb := x.b.groupScale lathe b n' j gb.lsb
    ⟨low (dot ia ib), sa.1, sa.2, sb.1, sb.2, ga.nonfinite || gb.nonfinite⟩

/-- The bound B_int of a group (R254). -/
def groupBound (x : Mm) (r lathe b m n' : Nat) (gr : Nat × Nat) : Nat :=
  let ga := (expand x.a.fmt x.a.K (x.a.elems x.g lathe b m gr.1 gr.2)).ints
  let gb := (expand x.b.fmt x.b.K (x.b.elems x.g lathe b n' gr.1 gr.2)).ints
  let (fed, held) := if x.fedB then (gb, ga) else (ga, gb)
  (fed.zip held).foldl (fun s p =>
    match (roughPart r p.1).2 with
    | some pos => s + p.2.natAbs * 2 ^ pos
    | none => s) (if x.shave = 0 then 0 else 2 ^ x.shave)

/-- What each group of an extent delivers (R232: every group, in ascending K). -/
def extentVals (x : Mm) (pass : Pass) (lathe b m n : Nat) (e : Nat × Nat) : List Ext :=
  (groupsOf x.g e).map fun gr => deliver x.acc x.e (groupRes x pass lathe b m n gr)

/-! ### Overloaded rows (R240, R241) -/

/-- Whether the fed operand is a compressed-row image. -/
def fedCsr (o : Op) : Bool := if fSerialB o then fCsrB o else fCsrA o

/-- Non-zeros of a group of a fed vector (R213). -/
def fedNz (x : Mm) (lathe b v : Nat) (gr : Nat × Nat) : Nat :=
  (((if x.fedB then x.b else x.a).elems x.g lathe b v gr.1 gr.2).filter elemNonZero).length

/-- The groups of a K range, each with the number of its extent and its non-zeros. -/
def rowGroups (x : Mm) (lathe b v : Nat) (es : List (Nat × Nat)) : List (Nat × (Nat × Nat) × Nat) :=
  es.zipIdx.flatMap fun (e, i) => (groupsOf x.g e).map fun gr => (i, gr, fedNz x lathe b v gr)

/-- The chunks of a fed vector over a K range; none when it is not overloaded (DEDUCED, log 24). -/
def vecChunks (o : Op) (x : Mm) (lathe b v : Nat) (es : List (Nat × Nat)) : List (List (Nat × (Nat × Nat) × Nat)) :=
  if fedCsr o then
    let gs := rowGroups x lathe b v es
    if 512 < (gs.map (·.2.2)).foldl (· + ·) 0 then chunks gs else []
  else []

/-- One chunk's entry: its groups, extent by extent (R241). -/
def chunkEntry (x : Mm) (lathe b m n : Nat) (c : List (Nat × (Nat × Nat) × Nat)) : Nat × BitVec 8 :=
  let exts := (c.map (·.1)).eraseDups
  accExtents x.acc 0 (exts.map fun i =>
    (c.filter fun y => y.1 = i).map fun y => deliver x.acc x.e (groupRes x .whole lathe b m n y.2.1))

/-- The entry of output (b, m, n) over the extents of a partial, from the entry `w0` it starts with: the chunks of an
overloaded vector are summed, and under CONTINUE their sum is one add into the entry (R115, R139, R241, DEDUCED,
log 24). -/
def entryOf (o : Op) (x : Mm) (lathe w0 b m n : Nat) (es : List (Nat × Nat)) : Nat × BitVec 8 :=
  match vecChunks o x lathe b (if x.fedB then n else m) es with
  | [] => accExtents x.acc w0 (es.map (extentVals x .whole lathe b m n))
  | cs =>
    let ps := cs.map (chunkEntry x lathe b m n)
    let r := sumPartials x.acc (ps.map (·.1))
    let f := ps.foldl (fun f p => f ||| p.2) r.2
    if fContinue o then let t := sumPartials x.acc [w0, r.1]; (t.1, f ||| t.2) else (r.1, f)

/-! ### What a product reads, and its sticky flags -/

/-- Whether a stored element of an operand is an infinity or a NaN, over the tiles of this device's shard (R41). -/
def opndNonfinite (x : Opnd) (isB : Bool) (ts : List BTile) : Bool :=
  match fpShape x.fmt with
  | none => false
  | some sh => ts.any fun t =>
    let (l0, l1) := if isB then (t.n0, t.n1) else (t.m0, t.m1)
    (List.range (l1 - l0)).any fun l => (List.range (t.k1 - t.k0)).any fun k =>
      match x.code t.lathe t.b (l0 + l) (t.k0 + k) with
      | some c => (match fpDecode sh c with | .inf _ => true | .nan => true | _ => false)
      | none => false

/-- One tile for each distinct slice of an operand. -/
def onePerSlice (o : Op) (isB : Bool) : List BTile → List (Nat × Slice) → List BTile
  | [], _ => []
  | t :: r, seen =>
    let k := (t.lathe, sliceOf o isB t)
    if seen.contains k then onePerSlice o isB r seen else t :: onePerSlice o isB r (k :: seen)

def inputFlags (o : Op) (x : Mm) (ts : List BTile) : BitVec 8 :=
  flagIf fNonfinite (opndNonfinite x.a false (onePerSlice o false ts []) || opndNonfinite x.b true (onePerSlice o true ts []))

/-- The first fault in the sparse data that one tile's slices fetch (R217, R224): that of A's before that of B's, and of an
image its pointers' before its indices'; R224 gives no order among several faults of one tile (DESIGN CHOICE, log 79). -/
def tileFault (s : State) (o : Op) (t : BTile) : Option Fail :=
  let side := fun isB =>
    let x := sliceOf o isB t
    let base := (opRef o isB).base
    if opCsr o isB then let r := (imgPart isB x).1; (imgFault s base (imgHeader s base) r.1 r.2).map (failAt cSparsity)
    else if op24 o isB then
      (pairFault s isB (mtaRef o) x.b x.x0 x.x1 (x.k0 / 4) (cdiv x.k1 4)).map (failAt cSparsity)
    else none
  match side false with
  | some e => some e
  | none => side true

/-- The first of bench tiles in issue order whose fetch finds a fault in sparse data, by its place. -/
def sparseCut (s : State) (o : Op) (ts : List BTile) : Option (Nat × Fail) :=
  if fCsrA o || fCsrB o || is24 o then
    ts.zipIdx.findSome? fun t => (tileFault s o t.1).map fun e => (t.2, e)
  else none

/-! ### Where the outputs go -/

/-- The number of partials of a product on this device (R191). -/
def partials (o : Op) : Nat := 2 ^ fKpart o

/-- Whether full-width entries go to entry 7 (R357). -/
def toPartials (o : Op) : Bool := fKpart o != 0 || fShardK o != 0 || fDefer o

/-- A rectangle of outputs of one item: half-open ranges of m and n. -/
structure Rect where
  lathe : Nat
  b : Nat
  m0 : Nat
  m1 : Nat
  n0 : Nat
  n1 : Nat
  deriving DecidableEq

/-- The outputs of a sliver. -/
def sliverRect (o : Op) (p : Plan) (x : Sliver) : Rect :=
  let h1 := x.held0 + sliverCols o
  if fSerialB o then ⟨x.lathe, x.batch, x.held0, min h1 p.m1, x.fed0, x.fed1⟩
  else ⟨x.lathe, x.batch, x.fed0, x.fed1, x.held0, min h1 p.n1⟩

/-- The entries of a rectangle, row by row, with their flags. -/
def rectMap {α : Type} (r : Rect) (f : Nat → Nat → α) : List (List α) :=
  (List.range (r.m1 - r.m0)).map fun i => (List.range (r.n1 - r.n0)).map fun j => f (r.m0 + i) (r.n0 + j)

/-- Look up a computed rectangle. -/
def rectGet {α : Type} (r : Rect) (d : α) (t : List (List α)) (m n : Nat) : α :=
  ((t.getD (m - r.m0) []).getD (n - r.n0) d)

/-- The format an epilogue output converts to (R358: `ref_c`'s, also under records only). -/
def outFmt (o : Op) : Fmt := (refC o).fmt

/-- Write the entries of a rectangle as full-width partial `pi` of entry 7 (R357). -/
def writePartial (s : State) (o : Op) (r : Rect) (pi : Nat) (es : List (List Nat)) : State × BitVec 8 × Option Fail :=
  let f := accFmt o
  writeAll s (planRect s (auxRef o 7) (accBits f) (r.b * partials o + pi) r.m0 r.m1 r.n0 r.n1 (rectGet r 0 es))

/-- Convert a rectangle of entries through the epilogue. -/
def convRect (s : State) (o : Op) (p : Plan) (r : Rect) (es : List (List Nat)) : List (List Conv) :=
  rectMap r fun m n =>
    let (v, g) := accRead (accFmt o) (fI48Exp o) (rectGet r 0 es m n)
    let c := epilogue (epiCol s o (outFmt o) r.lathe p.M p.N r.b m n) v
    { c with flags := c.flags ||| g }

/-- Write converted outputs: to `ref_c` unless records alone are wanted (R135, R211). -/
def writeOutputs (s : State) (o : Op) (r : Rect) (cs : List (List Conv)) : State × BitVec 8 × Option Fail :=
  if fTopk o ≠ 0 ∧ fTopkOnly o then (s, 0#8, none)
  else writeAll s (planRect s (refC o) (fmtBits (outFmt o)) r.b r.m0 r.m1 r.n0 r.n1
    fun m n => (rectGet r ⟨0, 0#8, 0⟩ cs m n).code)

/-- TOPK_NAN over a rectangle (R136). -/
def rectTopkFlag (o : Op) (cs : List (List Conv)) : BitVec 8 :=
  if fTopk o = 0 then 0#8 else flagIf fTopkNan (cs.any fun l => l.any fun c => f32Val (widen (outFmt o) c.code) == .nan)

/-- What a command has written so far; `done` keeps the converted outputs, for the records, and `tile` the codes that go
to the bench with the present bench tile. -/
structure Acc where
  s : State
  flags : BitVec 8 := 0#8
  amax : Nat := 0
  err : Option Fail := none
  done : List (Rect × List (List Conv)) := []
  tile : List (Rect × List (List Nat)) := []

/-- One write more, unless the command has ended. -/
def Acc.write (a : Acc) (f : State → State × BitVec 8 × Option Fail) : Acc :=
  match a.err with
  | some _ => a
  | none => let (s, g, e) := f a.s; { a with s := s, flags := a.flags ||| g, err := e }

def Acc.flag (a : Acc) (f : BitVec 8) : Acc := { a with flags := a.flags ||| f }

/-- Keep a rectangle's codes for the bench (R185). -/
def Acc.keep (a : Acc) (r : Rect) (ws : List (List Nat)) : Acc :=
  match a.err with
  | some _ => a
  | none => { a with tile := (r, ws) :: a.tile }

/-- Write a rectangle of converted outputs. -/
def emitConv (o : Op) (a : Acc) (r : Rect) (cs : List (List Conv)) : Acc :=
  let a := a.write fun s => writeOutputs s o r cs
  let a := if fTopk o ≠ 0 ∧ fTopkOnly o then a else a.keep r (cs.map fun l => l.map (·.code))
  { a with
    flags := a.flags ||| convFlags cs.flatten ||| rectTopkFlag o cs
    amax := max a.amax (convAmax cs.flatten)
    done := if fTopk o = 0 then [] else (r, cs) :: a.done }

/-- Write a rectangle whose entries are known, through the epilogue. -/
def emitRect (o : Op) (p : Plan) (s0 : State) (a : Acc) (r : Rect) (es : List (List Nat)) : Acc :=
  emitConv o a r (convRect s0 o p r es)

/-- Write a rectangle of full-width entries as partial `i` (R357). -/
def emitPartial (o : Op) (i : Nat) (a : Acc) (r : Rect) (ws : List (List Nat)) : Acc :=
  (a.write fun s => writePartial s o r i ws).keep r ws

/-- The written value of output (b, m, n), widened, if it was written. -/
def doneAt (o : Op) (done : List (Rect × List (List Conv))) (b m n : Nat) : Option (Nat × Nat) :=
  match done.find? fun x => x.1.b = b && x.1.m0 ≤ m && m < x.1.m1 && x.1.n0 ≤ n && n < x.1.n1 with
  | some x => some (widen (outFmt o) (rectGet x.1 ⟨0, 0#8, 0⟩ x.2 m n).code, n)
  | none => none

/-- The first columns of the slivers that rank a row's outputs, and their numbers in the records: those of the shard under
FED_A; under FED_B, and where no sliver runs, the blocks of 16L output columns (R137, R358, DESIGN CHOICE, log 59). -/
def recordBlocks (o : Op) (p : Plan) : List (Nat × Nat) :=
  let w := sliverCols o
  let base := if opCode o / 16 = 1 && !fSerialB o then p.n0 else p.n0 / w * w
  (List.range (cdiv (p.n1 - base) w)).map fun j => (base + j * w, (base + j * w) / w)

/-- Write the records of every row and sliver whose outputs were written (R137, R358); under serial FED_B a record ranks a block
of 16L columns (DESIGN CHOICE, log 59). -/
def emitRecords (o : Op) (p : Plan) (a : Acc) : Acc :=
  let k := fTopk o
  if k = 0 then a
  else
    let keys := (List.range (p.b1 - p.b0)).flatMap fun d => (List.range (p.m1 - p.m0)).map fun i => (p.b0 + d, p.m0 + i)
    keys.foldl (fun a key => (recordBlocks o p).foldl (fun a blk =>
      match (List.range (sliverCols o)).filterMap fun j => doneAt o a.done key.1 key.2 (blk.1 + j) with
      | [] => a
      | rs =>
        let recs := topRecords k rs
        a.write fun s => writeAll s (planRect s (auxRef o 7) 64 key.1 key.2 (key.2 + 1) (blk.2 * k) (blk.2 * k + k)
          fun _ c => recordCode (recs.getD (c - blk.2 * k) (0, 0)))) a) a

/-- What a body answers for what it has written. -/
def Acc.res (a : Acc) (q : Nat) : Res := ⟨updAmax a.s q a.amax, a.flags, a.err⟩

/-- The rows one bench tile's output takes at most (R185, R189). -/
def outRef (o : Op) : TRef := if toPartials o then auxRef o 7 else refC o
def outBits (o : Op) : Nat := if toPartials o then accBits (accFmt o) else fmtBits (outFmt o)
def rowsC (o : Op) : Nat :=
  if (outRef o).inner then rowsFor (fBtN o) (fBtM o) (outBits o) else rowsFor (fBtM o) (fBtN o) (outBits o)

end Sys2Proof.Machine
end

