-- ==== Sys2Proof/Machine/Staging.lean ====
section
/-!
DEFINITION. What a layer's slices leave on the benches: operand, scale, output, spill and chunk rows, their order on a
lathe, and the slots of circular regions that they take and fill (R151, R165 to R171, R185, R192, R207, R211, R231,
R241).
-/

namespace Sys2Proof.Machine

/-! ### Rows by reference -/

/-- The rows that remain when slices are written one after another: each stands at its first row, and the slices that a
later and longer one of the same place covers leave nothing. `xs` is latest first: place, number of rows, slice. -/
def lastOnes {α : Type} : List (Nat × Nat × α) → List (Nat × Nat) → List (Nat × Nat × α)
  | [], _ => []
  | x :: r, top =>
    let t := ((top.find? fun y => y.1 = x.1).map (·.2)).getD 0
    if x.2.1 ≤ t then lastOnes r top else x :: lastOnes r ((x.1, x.2.1) :: top.filter (·.1 ≠ x.1))

/-- Neighbours that repeat are fetched once (R192). -/
def fetches {α : Type} [DecidableEq α] : List α → List α
  | [] => []
  | x :: r => match fetches r with
    | y :: t => if x = y then y :: t else x :: y :: t
    | [] => [x]

/-- Commit rows of a direct reference from row `i0` on, as many as it has (R151, R156). -/
def commitRows (s : State) (b : BRef) (l i0 : Nat) (rows : List (List Byte)) : State :=
  (rows.zipIdx.take (b.count - i0)).foldl (fun s r => rowCommit s (b.addr l (i0 + r.2)) 0 r.1) s

/-- The place of the `i`-th slice in the rows of a reference; `need`, when it is set, is the rows of one bench tile, and
slices then take turns in two places (R192: the next slice is fetched while one is read; DEDUCED, log 14). -/
def stagePlace (need : Option Nat) (i : Nat) : Nat := match need with | some n => i % 2 * n | none => 0

/-- The rows that slices of these lengths take when they are staged one after another. -/
def stagedRows (need : Option Nat) (lens : List Nat) : List Nat :=
  (lens.zipIdx.flatMap fun x => (List.range x.1).map (stagePlace need x.2 + ·)).eraseDups

/-- Stage slices one after another in the rows of a reference. -/
def stageSlices {α : Type} (s : State) (b : BRef) (l : Nat) (need : Option Nat) (len : α → Nat)
    (rows : α → List (List Byte)) (xs : List α) : State :=
  let ys := xs.zipIdx.map fun x => (stagePlace need x.2, len x.1, x.1)
  (lastOnes ys.reverse []).reverse.foldl (fun s y => commitRows s b l y.1 (rows y.2.2)) s

/-- Whether every operand reference holds twice what one bench tile needs (R192). -/
def doubled (s : State) (o : Op) : Bool :=
  2 * rowsA s o ≤ brefRows s (brefA o) (usedLathes s o) && 2 * rowsB s o ≤ brefRows s (brefB o) (usedLathes s o)
    && (rowsS s o = 0 || 2 * rowsS s o ≤ brefRows s (brefS o) (usedLathes s o))

def sliceLen (s : State) (o : Op) (isB : Bool) (x : Slice) : Nat :=
  if staysCompressed s o isB x then cdiv ((sliceImg s o isB x).size none) 512
  else denseRows s o isB x + (if op24 o isB then rowsFor (cdiv x.k1 4 - x.k0 / 4) (x.x1 - x.x0) 4 else 0)

/-- The operand and scale rows that bench tiles leave on their lathe (R185, R231; the scale rows of A come before those of
B, DESIGN CHOICE, log 14). -/
def stageLathe (s0 : State) (o : Op) (ts : List BTile) (l : Nat) (s : State) : State :=
  let mine := ts.filter fun t => t.lathe = l
  let two := doubled s0 o
  let side := fun isB s =>
    if (opBref o isB).region then s
    else stageSlices s (opBref o isB) l (if two then some (opRows s0 o isB) else none) (sliceLen s0 o isB)
      (sliceRows s0 o isB) (fetches (mine.map (sliceOf o isB)))
  let s := side true (side false s)
  if (brefS o).region || rowsS s0 o = 0 then s
  else stageSlices s (brefS o) l (if two then some (rowsS s0 o) else none)
    (fun x => scaleRows s0 o false x.1 + scaleRows s0 o true x.2)
    (fun x => sliceScales s0 o false x.1 ++ sliceScales s0 o true x.2)
    (fetches (mine.map fun t => (sliceOf o false t, sliceOf o true t)))

/-- The lathes that bench tiles run on: a lathe that holds none commits no slice (R198, R199). -/
def tileLathes (ts : List BTile) : List Nat := (ts.map (·.lathe)).eraseDups

def stageOperands (s : State) (o : Op) (ts : List BTile) : State :=
  (tileLathes ts).foldl (fun t l => stageLathe s o ts l t) s

/-! ### Regions that operands come from (R168, R169) -/

/-- The references of a layer that name regions, each with the slots of one bench tile and the key of its slices. -/
def regionUses (s : State) (o : Op) (l : Nat) : List (Nat × Nat × (BTile → Nat × Slice × Slice)) :=
  let one := fun (b : BRef) (rows : Nat) (key : BTile → Nat × Slice × Slice) =>
    if b.region && rows ≠ 0 then [(b.base, slotsFor (getRegion s l b.base) rows, key)] else []
  let none_ : Slice := ⟨0, 0, 0, 0, 0⟩
  one (brefA o) (rowsA s o) (fun t => (0, sliceOf o false t, none_)) ++ one (brefB o) (rowsB s o) (fun t => (1, none_, sliceOf o true t))
    ++ one (brefS o) (rowsS s o) (fun t => (2, sliceOf o false t, sliceOf o true t))

/-- The slots, counted from head, that a lathe's tiles read of each region: region, slot, and the places in issue order of
the tiles that read it. -/
def slotReads (s : State) (o : Op) (ts : List BTile) (l : Nat) : List (Nat × Nat × List Nat) :=
  let mine := ts.zipIdx.filter fun t => t.1.lathe = l
  (regionUses s o l).flatMap fun u =>
    let keys := (mine.map fun t => u.2.2 t.1).eraseDups
    keys.zipIdx.flatMap fun k =>
      let at_ := (mine.filter fun t => u.2.2 t.1 = k.1).map (·.2)
      (List.range u.2.1).map fun i => (u.1, k.2 * u.2.1 + i, at_)

/-- A tile that fails to read a slot: its place, the failure, and the lathe with the number of the read among its reads. -/
structure Underrun where
  place : Nat
  fail : Fail
  lathe : Nat
  read : Nat

/-- The first read of an unfilled slot: BENCH_UNDERRUN at the slot's first row (R168, R169). -/
def underrunCut (s : State) (o : Op) (ts : List BTile) : Option Underrun :=
  let bad := (tileLathes ts).flatMap fun l =>
    (slotReads s o ts l).zipIdx.filterMap fun x =>
      let r := getRegion s l x.1.1
      if r.fill.toNat ≤ x.1.2.1 then
        some ⟨x.1.2.2.headD 0, failAt cUnderrun (slotAddr l r (ringNext r r.head.toNat x.1.2.1)), l, x.2⟩
      else none
  bad.foldl (fun a x => match a with | some y => if x.place < y.place then some x else a | none => some x) none

/-- The consuming reads of a layer that ran its first `cut` tiles: each slot once, when its last reader has read it; the
tile that found an unfilled slot has read the slots before it (R168, R169). -/
def consumeTiles (s0 : State) (o : Op) (ts : List BTile) (cut : Nat) (u : Option Underrun) (s : State) : State :=
  (tileLathes ts).foldl (fun s l =>
    let rs := (slotReads s0 o ts l).zipIdx
    let upTo := fun i => match u with
      | some y => if y.lathe = l ∧ y.place = cut ∧ i < y.read then cut + 1 else cut
      | none => cut
    ((rs.map (·.1.1)).eraseDups).foldl (fun s k =>
      let mine := rs.filter fun x => x.1.1 = k
      let js := ((mine.map fun x => x.1.2.1).eraseDups).filter fun j =>
        (mine.filter fun x => x.1.2.1 = j).all fun x => x.1.2.2.all (· < upTo x.2)
      consumeRel s l k ((List.range (js.foldl (fun m j => max m (j + 1)) 0)).filter js.contains)) s) s

/-! ### Outputs (R151, R167, R169, R175, R211) -/

/-- Write one row of a slot or a direct reference, plainly or by accumulation. -/
def outRow (a : Acc) (wmode addr : Nat) (bytes : List Byte) : Acc :=
  a.write fun s => if wmode = 0 then (rowCommit s addr 0 bytes, 0#8, none) else rowAccumulate s addr 0 wmode bytes

/-- Push rows into a region, slot by slot: a slot that would overrun ends the command, and a short last slot is completed
with zero rows, or left as it is by an accumulation (R167, R169). -/
def pushRows (b : BRef) (l : Nat) : Nat → List (List Byte) → Acc → Acc
  | 0, _, a => a
  | n + 1, rows, a =>
    if rows.isEmpty || a.err.isSome then a
    else
      let r := getRegion a.s l b.base
      let per := r.slotRowsM1.toNat + 1
      let base := slotAddr l r r.tail.toNat
      if r.slots.toNat ≤ r.fill.toNat then a.write fun s => (s, 0#8, some (failAt cOverrun base))
      else
        let now := rows.take per
        let fill := if b.wmode = 0 then now ++ List.replicate (per - now.length) [] else now
        let a := fill.zipIdx.foldl (fun a x => outRow a b.wmode (base + 512 * x.2) x.1) a
        pushRows b l n (rows.drop per) (a.write fun s => (setRegion s l b.base (pushed (getRegion s l b.base)), 0#8, none))

/-- Write a slice of output rows to its reference on a lathe. -/
def outRows (b : BRef) (l : Nat) (rows : List (List Byte)) (a : Acc) : Acc :=
  if b.region then pushRows b l rows.length rows a
  else (rows.zipIdx.take b.count).foldl (fun a x => outRow a b.wmode (b.addr l x.2) x.1) a

/-- The code of an output among the rectangles of a bench tile; an output that was not written leaves zero. -/
def tileCode (ts : List (Rect × List (List Nat))) (m n : Nat) : Nat :=
  match ts.find? fun x => x.1.m0 ≤ m && m < x.1.m1 && x.1.n0 ≤ n && n < x.1.n1 with
  | some x => rectGet x.1 0 x.2 m n
  | none => 0

/-- The bench rows of a rectangle of outputs: one line for each M index, or for each N index where the output's inner field
calls for the other orientation (R185, R274). -/
def rectRows (inner : Bool) (width m0 m1 n0 n1 : Nat) (f : Nat → Nat → Nat) : List (List Byte) :=
  if inner then (List.range (n1 - n0)).flatMap fun j => lineOfCodes width (m1 - m0) fun i => f (m0 + i) (n0 + j)
  else (List.range (m1 - m0)).flatMap fun i => lineOfCodes width (n1 - n0) fun j => f (m0 + i) (n0 + j)

/-- The bench tile that the kept rectangles make up goes to `bref_c`, whole lines with a zero tail (R151, R185). -/
def benchOut (o : Op) (inner : Bool) (width : Nat) (a : Acc) : Acc :=
  match a.tile with
  | [] => a
  | x :: _ =>
    let lo := fun (f : Rect → Nat) => a.tile.foldl (fun m y => min m (f y.1)) (f x.1)
    let hi := fun (f : Rect → Nat) => a.tile.foldl (fun m y => max m (f y.1)) (f x.1)
    let rows := rectRows inner width (lo (·.m0)) (hi (·.m1)) (lo (·.n0)) (hi (·.n1)) (tileCode a.tile)
    { outRows (brefC o) x.1.lathe rows a with tile := [] }

/-! ### Spilled tiles and chunk tiles (R207, R241) -/

/-- Rows of an accumulator tile from its entries in order (R124). -/
def entryRows (f : AccFmt) (es : List Nat) : List (List Byte) :=
  cutRows (es.flatMap (leBytes (accBits f / 8)))

/-- Row `i` of a spill reference on a lathe. Of a circular region the rows are those of its slots from tail on: what is
spilled there is reloaded by the same command, so that it fills and consumes no slot (R156, R207; DESIGN CHOICE, log 20). -/
def spillAddr (s : State) (b : BRef) (l i : Nat) : Nat :=
  if b.region then
    let r := getRegion s l b.base
    let per := r.slotRowsM1.toNat + 1
    slotAddr l r (ringNext r r.tail.toNat (i / per)) + 512 * (i % per)
  else b.addr l i

/-- Spill a tile to its rows (R207). -/
def spillTile (s : State) (b : BRef) (f : AccFmt) (l t : Nat) (es : List Nat) : State :=
  (entryRows f es).zipIdx.foldl (fun u r => rowCommit u (spillAddr s b l (t * tileRows f + r.2)) 0 r.1) s

/-- The failure of a command whose spilled tiles do not fit the free slots of a region: that of the first slot it lacks (R167,
R207; DESIGN CHOICE, log 20). -/
def spillFull (s : State) (o : Op) (p : Plan) : Option Fail :=
  if !spills s o p || !(spillRef o).region then none
  else (usedLathes s o).findSome? fun l =>
    let r := getRegion s l (spillRef o).base
    let need := cdiv (64 * actualShare s o p * tileRows (accFmt o)) (r.slotRowsM1.toNat + 1)
    let free := r.slots.toNat - r.fill.toNat
    if free < need then some (failAt cOverrun (slotAddr l r (ringNext r r.tail.toNat free))) else none

/-- Write the rows of chunk tile number `t` of a bench tile: into the rows of the reference, or into slots of the region from
tail (R167, R241). -/
def chunkOut (b : BRef) (f : AccFmt) (l t : Nat) (es : List Nat) (a : Acc) : Acc :=
  if b.region then pushRows b l (tileRows f) (entryRows f es) a
  else a.write fun s => (commitRows s b l (t * tileRows f) (entryRows f es), 0#8, none)

end Sys2Proof.Machine
end

