-- ==== Sys2Proof/Machine/Chucks.lean ====
section
/-!
DEFINITION. What a spindle does inside a product: its rounds of tiles, their chucks on the dense and the sparse path, the
held words of a chuck, the digits its rows present, the steps of its adder groups, and the match unit (R68 to R80, R89,
R91, R206, R218, R219, R231 to R239, R255, R262).
-/

namespace Sys2Proof.Machine

/-! ### Rounds of tiles -/

/-- Tiles that share a working set over a run of K extents, the partial they add into, the number of their round, and
whether the run ends the partial's K range (R191, R206). -/
structure Seg where
  tiles : List Tile
  part : Nat
  exts : List (Nat × Nat)
  round : Nat
  final : Bool

/-- The rounds of one live group of tiles: one for each partial, or, where the command spills, one for each pass of four
tiles in each K extent (R206). -/
def groupSegs (spill : Bool) (o : Op) (p : Plan) (ts : List Tile) (round : Nat) : List Seg :=
  let parts := ((List.range (2 ^ fKpart o)).map fun i => (i, partExtents p (fBtK o) (2 ^ fKpart o) i)).filter (·.2 ≠ [])
  if !spill then parts.zipIdx.map fun x => ⟨ts, x.1.1, x.1.2, round + x.2, true⟩
  else
    let passes := cdiv ts.length 4
    (parts.flatMap fun y => y.2.zipIdx.flatMap fun e => (List.range passes).map fun k =>
      (y.1, e.1, (ts.drop (4 * k)).take 4, e.2 + 1 == y.2.length)).zipIdx.map fun x =>
        ⟨x.1.2.2.1, x.1.1, [x.1.2.1], round + x.2, x.1.2.2.2⟩

/-- The live groups of a spindle's tiles, in issue order. -/
def liveGroups (ps : List Placed) (sp : Nat) : List (List Tile) :=
  let mine := ps.filter fun x => x.spindle = sp
  ((mine.map (·.key)).eraseDups).map fun k => (mine.filter fun x => x.key = k).map (·.tile)

/-- Every round of a product on a spindle; a roughing pass keeps its tiles in one (R253). -/
def productSegs (spill : Bool) (o : Op) (p : Plan) (ps : List Placed) (sp : Nat) : List Seg :=
  if opCode o = 0x13 then (liveGroups ps sp).map fun ts => ⟨ts, 0, kExtents p (fBtK o), 0, true⟩
  else (liveGroups ps sp).foldl (fun segs ts => segs ++ groupSegs spill o p ts ((segs.getLast?.map (·.round + 1)).getD 0)) []

/-! ### Chucks -/

/-- A chuck of a spindle's work (R76): the round, partial, extent and group it belongs to, the number of the group in the
work, the reduction index of each row (in a 2:4 chuck the first of its group of four), the tiles it serves, whether it is
the last of its group for them, whether its group is the last of its extent and its round, and the match pass it belongs
to, when its rows follow a key set. -/
structure Chuck where
  round : Nat
  part : Nat
  final : Bool
  ext : Nat × Nat
  grp : Nat × Nat
  gno : Nat
  rows : List (Option Nat)
  tiles : List Tile
  last : Bool
  lastExt : Bool
  lastRound : Bool
  pass : Option (List Nat)
  place : Nat

/-- The bench tile that a tile lies in, over a K extent. -/
def benchOf (o : Op) (p : Plan) (l : Nat) (t : Tile) (e : Nat × Nat) : BTile :=
  let fd := if fSerialB o then 2 else 1
  let hd := if fSerialB o then 1 else 2
  let f0 := p.start fd + (t.fed0 - p.start fd) / fedBt o * fedBt o
  let h0 := p.start hd + (t.held0 - p.start hd) / heldBt o * heldBt o
  let f1 := min (f0 + fedBt o) (p.start fd + p.size fd)
  let h1 := min (h0 + heldBt o) (p.start hd + p.size hd)
  if fSerialB o then ⟨l, (0, 0, 0), t.batch, h0, h1, f0, f1, e.1, e.2⟩ else ⟨l, (0, 0, 0), t.batch, f0, f1, h0, h1, e.1, e.2⟩

/-- The slice of the fed or the held operand in a bench tile. -/
def fedSlice (o : Op) (t : BTile) : Slice := sliceOf o (fSerialB o) t
def heldSlice (o : Op) (t : BTile) : Slice := sliceOf o (!fSerialB o) t

/-- Whether an operand holds a non-zero at reduction index `k` in some line of a slice (R213). -/
def anyNz (x : Mm) (isB : Bool) (l : Nat) (y : Slice) (k : Nat) : Bool :=
  (List.range (y.x1 - y.x0)).any fun i => elemNonZero ((if isB then x.b else x.a).elem x.g l y.b (y.x0 + i) k)

/-- The key set of a bench tile over a K extent: the indices at which a column of it holds a non-zero (R236). -/
def keySet (o : Op) (x : Mm) (t : BTile) : List Nat :=
  ((List.range (t.k1 - t.k0)).map (t.k0 + ·)).filter fun k => anyNz x (!fSerialB o) t.lathe (heldSlice o t) k

/-- The set of the match unit that a key belongs to (R237). -/
def matchSet (k : Nat) : Nat := k * 0x9E3779B1 % 2 ^ 32 / 2 ^ 24

/-- The keys of one match pass from a list of keys: up to 1,024, and four in each set (R237). -/
def passKeys : List Nat → List Nat → List Nat
  | [], _ => []
  | k :: r, seen =>
    if seen.length = 1024 || (seen.filter fun j => matchSet j = matchSet k).length = 4 then []
    else k :: passKeys r (k :: seen)

/-- The match passes over a key set (R237); `fuel` bounds their number. -/
def matchPasses : Nat → List Nat → List (List Nat)
  | 0, _ => []
  | _ + 1, [] => []
  | n + 1, ks => let p := passKeys ks []; p :: matchPasses n (ks.drop p.length)

/-- Rows of sixteen indices, the last ones empty. -/
def rowsOf16 (ks : List Nat) : List (List (Option Nat)) :=
  (List.range (cdiv ks.length 16)).map fun c => (List.range 16).map fun r => ks[16 * c + r]?

/-- The chucks of one quantisation group for a bench tile: the index of each row, and the match pass (R215, R218, R234 to
R237). A group that is not loaded at all leaves one chuck of empty rows, which takes no step (R232). -/
def groupChucks (s : State) (o : Op) (x : Mm) (t : BTile) (gr : Nat × Nat) : List (Option Nat × List (Option Nat)) :=
  let all := (List.range gr.2).map (gr.1 + ·)
  let dense := rowsOf16 all
  let cs :=
    if staysCompressed s o (!fSerialB o) (heldSlice o t) then
      let ks := keySet o x t
      (matchPasses (ks.length + 1) ks).zipIdx.flatMap fun p =>
        (rowsOf16 (p.1.filter all.contains)).map fun r => (some p.2, r)
    else if staysCompressed s o (fSerialB o) (fedSlice o t) then
      (dense.filter fun r => r.any fun k => k.any fun k => anyNz x (fSerialB o) t.lathe (fedSlice o t) k).map fun r => (none, r)
    else if is24 o then
      (List.range (cdiv gr.2 32)).map fun c => (none, (List.range 16).map fun r =>
        let k := 32 * c + r / 2 * 4
        if k < gr.2 then some (gr.1 + k) else none)
    else dense.map fun r => (none, r)
  if cs.isEmpty then [(none, List.replicate 16 none)] else cs

/-- The tiles of a round that share held words: those of one sliver position, and of one bench tile when a slice stays
compressed (R76, R235, R236). -/
def chuckTiles (s : State) (o : Op) (x : Mm) (l : Nat) (ts : List Tile) (e : Nat × Nat) : List (List Tile) :=
  let key := fun t : Tile =>
    let bt := benchOf o x.plan l t e
    (if opBatch o (!fSerialB o) ≤ 1 then 0 else t.batch, t.held0,
      if staysCompressed s o true (sliceOf o true bt) || staysCompressed s o false (sliceOf o false bt)
        then some (t.batch, bt.m0, bt.n0) else none)
  ((ts.map key).eraseDups).map fun k => ts.filter fun t => key t == k

/-- The chucks of one group in a round: K outermost, then the tiles that share held words (R188, R234). -/
def segGroup (s : State) (o : Op) (x : Mm) (l : Nat) (g : Seg) (e gr : Nat × Nat) (gno : Nat) (lastExt lastRound : Bool) :
    List Chuck :=
  let per := (chuckTiles s o x l g.tiles e).map fun ts =>
    let t := benchOf o x.plan l (ts.headD ⟨0, 0, 0, 0⟩) e
    (ts, t, groupChucks s o x t gr)
  let deepest := per.foldl (fun n y => max n y.2.2.length) 0
  (List.range deepest).flatMap fun c => per.filterMap fun y =>
    (y.2.2[c]?).map fun r =>
      { round := g.round, part := g.part, final := g.final, ext := e, grp := gr, gno := gno, rows := r.2, tiles := y.1,
        last := c + 1 == y.2.2.length, lastExt := lastExt, lastRound := lastRound,
        pass := r.1.map fun p => [y.2.1.b, y.2.1.m0, y.2.1.n0, e.1, p], place := c }

/-- The chucks of a round, in order: extent by extent, group by group (R188, R232). -/
def segChucks (s : State) (o : Op) (x : Mm) (l : Nat) (g : Seg) (gno : Nat) : List Chuck :=
  let gs := g.exts.zipIdx.flatMap fun e =>
    let grs := groupsOf x.g e.1
    grs.zipIdx.map fun gr => (e.1, gr.1, gr.2 + 1 == grs.length, gr.2 + 1 == grs.length && e.2 + 1 == g.exts.length)
  gs.zipIdx.flatMap fun y => segGroup s o x l g y.1.1 y.1.2.1 (gno + y.2) y.1.2.2.1 y.1.2.2.2

/-- Every chuck of a spindle's rounds. -/
def chucksOf (s : State) (o : Op) (x : Mm) (l : Nat) (gs : List Seg) : List Chuck :=
  gs.foldl (fun cs g => cs ++ segChucks s o x l g ((cs.getLast?.map (·.gno + 1)).getD 0)) []

/-! ### Held words (R70, R76) -/

/-- The integers of an operand's group (R37, R38), or in log mode its codes. -/
def groupInts (x : Mm) (isB : Bool) (l b line : Nat) (gr : Nat × Nat) : List Int :=
  let y := if isB then x.b else x.a
  if x.log then (List.range gr.2).map fun i => (((y.code l b line (gr.1 + i)).getD 0 : Nat) : Int)
  else (expand y.fmt y.K (y.elems x.g l b line gr.1 gr.2)).ints

/-- The metadata index that a held lane of a 2:4 chuck carries at row `r` (R215, R218). -/
def heldSel (s : State) (o : Op) (b line k r : Nat) : Nat :=
  bits (nibble s (!fSerialB o) (mtaRef o) b line (k / 4)) (2 * (r % 2)) 2

/-- The held lanes of a chuck, row by row: metadata index and integer; a lane beyond the shard, an index that the row does
not hold and one at or beyond the group's end are zero (R210, R217). -/
def heldLanes (s : State) (o : Op) (x : Mm) (l : Nat) (c : Chuck) : List (List (Nat × Int)) :=
  let t := c.tiles.headD ⟨0, 0, 0, 0⟩
  let hd := if fSerialB o then 1 else 2
  let lines := (List.range (sliverCols o)).map fun j =>
    if t.held0 + j < x.plan.start hd + x.plan.size hd then
      some (t.held0 + j, groupInts x (!fSerialB o) l t.batch (t.held0 + j) c.grp) else none
  c.rows.zipIdx.map fun r => lines.map fun y =>
    match r.1, y with
    | some k, some (line, ints) =>
      let sel := if is24 o then heldSel s o t.batch line k r.2 else 0
      (sel, ints.getD (k + sel - c.grp.1) 0)
    | _, _ => (0, 0)

/-- One held word: its lanes from the lowest, sign-extended to the lane (R70). -/
def packLanes (L : Nat) (vs : List Int) : BitVec 32 :=
  BitVec.ofNat 32 (packCodes (32 / L) (vs.map fun v => (v % ((2 ^ 32 : Nat) : Int)).toNat))

/-- The residue modulo 7 of an integer (R493). -/
def res7 (v : Int) : Nat := (v % 7).toNat

/-- What the expander writes for a chuck (R70, R76, R218, R493). -/
def chuckWords (s : State) (o : Op) (x : Mm) (l : Nat) (c : Chuck) : ChuckWords :=
  let L := lanesOf (fSplit o)
  let rows := heldLanes s o x l c
  { words := rows.zipIdx.foldl (fun t r => (List.range 16).foldl (fun t col =>
      tput 0#32 t (16 * r.2 + col) (packLanes L (((r.1.drop (L * col)).take L).map (·.2)))) t) []
    sel := if is24 o then rows.zipIdx.foldl (fun t r => r.1.zipIdx.foldl (fun t v => tput 0 t (128 * r.2 + v.2) v.1.1) t) []
      else []
    res := rows.zipIdx.foldl (fun t r => r.1.zipIdx.foldl (fun t v => tput 0 t (128 * r.2 + v.2) (res7 v.1.2)) t) [] }

/-- The blocks that a chuck takes through the tailstock of its lathe: for each operand that passes it, the bench rows of the
stored lines of the chuck's indices, at the chuck's held columns or its first fed vector (R276, R279; which rows are taken is
a DESIGN CHOICE, log 73). -/
def takeTails (s : State) (o : Op) (x : Mm) (l : Nat) (c : Chuck) (t : State) : State :=
  [false, true].foldl (fun t isB =>
    if !opTail o isB then t
    else
      let z := c.tiles.headD ⟨0, 0, 0, 0⟩
      let y := sliceOf o isB (benchOf o x.plan l z c.ext)
      let at_ := if opHeld o isB then z.held0 else z.fed0
      let key := 2 * l + b2n (!opHeld o isB)
      let block := c.rows.filterMap fun k => k.map fun k => storedRow s o isB l y k at_
      { t with dies := { t.dies with
          tails := tput TailChannel.empty t.dies.tails key ((tget TailChannel.empty t.dies.tails key).take block) } }) t

/-! ### Digits (R68, R72, R78, R252, R262) -/

/-- The digits of one fed integer: the pattern entry's string, or those of the encoder (R52, R68, R72). In log mode the
one entry is the code's sign and magnitude (R86). -/
def fedDigits (s : State) (o : Op) (x : Mm) (l b v k : Nat) (n : Int) : List (Bool × Nat) :=
  let y := if x.fedB then x.b else x.a
  if x.log then [(bit n.toNat 7, bits n.toNat 0 7)]
  else if n = 0 then []
  else if y.fmt = .pat4 ∨ y.fmt = .pat8 then
    let slot := if x.fedB then fPatB o else fPatA o
    slotString (getSlot s l slot) ((y.code l b v k).getD 0)
  else (csd n.natAbs).map fun d => (d.1 != decide (n < 0), d.2)

/-- The digits a pass sends of an element, and where its bound step adds: the position of the r-th digit when more follow
(R252, R254, R262). -/
def sentDigits (p : Pass) (ds : List (Bool × Nat)) : List (Bool × Nat) × Option Nat :=
  match p with
  | .whole => (ds, none)
  | .rough r => (ds.take r, if r < ds.length then (ds[r - 1]?).map (·.2) else none)
  | .rest r => (ds.drop r, none)

/-- What a row of a chuck is fed for a fed vector: the digits of its element, or in a 2:4 chuck those of the four elements
of its row pair (R218). `rows`: the index at each row. -/
abbrev RowFeed := List (List (Bool × Nat) × Option Nat)

/-- The fed vectors a chuck serves, in order: tile, batch item and index (R76). -/
def chuckVecs (o : Op) (c : Chuck) : List (Tile × Nat × Nat) :=
  c.tiles.flatMap fun t => (List.range (vtOf o)).map fun i => (t, i, t.fed0 + i)

/-- Whether a fed vector's row runs as chunk tiles over the partial and so presents an empty feed here (R231, R240). -/
def isChunked (o : Op) (x : Mm) (l b v part : Nat) : Bool :=
  !(vecChunks o x l b v (partExtents x.plan (fBtK o) (2 ^ fKpart o) part)).isEmpty

/-- The feed of every row for a fed vector; `wanted` tells whether the vector is fed at all (R262). A vector beyond the
shard carries empty feeds (R210). -/
def vecFeed (s : State) (o : Op) (x : Mm) (pass : Pass) (l : Nat) (c : Chuck) (rows : List (Option Nat)) (b v : Nat)
    (wanted : Bool) : List RowFeed :=
  let fd := if x.fedB then 2 else 1
  if !wanted || x.plan.start fd + x.plan.size fd ≤ v || isChunked o x l b v c.part then rows.map fun _ => []
  else
    let ints := groupInts x x.fedB l b v c.grp
    rows.map fun r =>
      match r with
      | none => if x.log then [([], none)] else []
      | some k => (List.range (if is24 o then 4 else 1)).map fun i =>
          if k + i < c.grp.1 + c.grp.2 then
            sentDigits pass (fedDigits s o x l b v (k + i) (ints.getD (k + i - c.grp.1) 0))
          else ([], none)

/-! ### Adder groups (R77 to R80, R89, R91, R219, R255) -/

/-- The number of adder groups, and the rows of one. -/
def adderGroups (o : Op) : Nat := match fAddgrp o with | 1 => 4 | 2 => 1 | _ => 2
def groupRows (o : Op) : Nat := 16 / adderGroups o

/-- The digit steps and the bound step of an adder group over a fed vector, from the feed of all rows (R78, R89, R255). In log
mode a fed vector takes one step, but one whose feed is empty, beyond M, none: R89 gives every fed vector one step and R210
gives those none (DESIGN CHOICE, log 77). -/
def groupSteps (o : Op) (log : Bool) (feed : List RowFeed) (g : Nat) : Nat × Nat :=
  if log then (if feed.all (·.isEmpty) then 0 else 1, 0)
  else
    let count := fun (rs : List RowFeed) => rs.foldl (fun n r => r.foldl (fun n d => max n d.1.length) n) 0
    if count feed = 0 then (0, 0)
    else
      let mine := (feed.drop (groupRows o * g)).take (groupRows o)
      (max 1 (count mine), if mine.any fun r => r.any fun d => d.2.isSome then 1 else 0)

/-- Where the adder groups of a spindle stand in a chuck: for each, vectors finished, steps of the next one, steps of the
chuck. -/
abbrev Stand := List (Nat × Nat × Nat)

/-- Pass over the fed vectors that take no step. -/
def passOver (steps : List (List Nat)) (g : Nat) : Nat → Nat × Nat × Nat → Nat × Nat × Nat
  | 0, p => p
  | n + 1, p => if p.2.1 = 0 ∧ p.1 < steps.length ∧ (steps.getD p.1 []).getD g 0 = 0 then passOver steps g n (p.1 + 1, 0, p.2.2) else p

/-- Whether an adder group may step: it has a vector left, and every group has finished the fourth vector before (R79). -/
def mayStep (steps : List (List Nat)) (st : Stand) (g : Nat) : Bool :=
  let p := st.getD g (0, 0, 0)
  p.1 < steps.length && (0 < p.2.1 || st.all fun q => p.1 < q.1 + 4)

/-- One step of an adder group. -/
def stepGroup (steps : List (List Nat)) (st : Stand) (g : Nat) : Stand :=
  let p := st.getD g (0, 0, 0)
  let p' := if p.2.1 + 1 < (steps.getD p.1 []).getD g 0 then (p.1, p.2.1 + 1, p.2.2 + 1) else (p.1 + 1, 0, p.2.2 + 1)
  st.set g (passOver steps g steps.length p')

/-- Where the groups stand when a chuck swaps in. -/
def startStand (o : Op) (steps : List (List Nat)) : Stand :=
  (List.range (adderGroups o)).map fun g => passOver steps g steps.length (0, 0, 0)

/-- Fed vectors that every group has finished. -/
def allDone (st : Stand) (n : Nat) : Nat := st.foldl (fun m p => min m p.1) n

/-- The steps of a spindle over a chuck when every group that may step does: steps of the spindle, group steps and ticks a
group is held by R79; `fuel` bounds the steps (R91, R582). -/
def runSteps (steps : List (List Nat)) : Nat → Stand → Nat × Nat → Nat × Nat
  | 0, _, a => a
  | n + 1, st, a =>
    let can := (List.range st.length).filter (mayStep steps st)
    if can.isEmpty then a
    else
      let held := ((List.range st.length).filter fun g => (st.getD g (0, 0, 0)).1 < steps.length && !mayStep steps st g).length
      runSteps steps n (can.foldl (stepGroup steps) st) (a.1 + 1, a.2 + held)

/-- What a whole chuck adds to STEPS, EMPTY_ADV and SKEW_WAIT (R78, R79, R582). -/
def chuckCounts (s : State) (o : Op) (x : Mm) (pass : Pass) (l : Nat) (wanted : Tile → Nat → Bool) (c : Chuck) :
    Nat × Nat × Nat :=
  let feeds := (chuckVecs o c).map fun v => vecFeed s o x pass l c c.rows v.1.batch v.2.2 (wanted v.1 v.2.1)
  let gs := List.range (adderGroups o)
  let steps := feeds.map fun f => gs.map fun g => let d := groupSteps o x.log f g; d.1 + d.2
  let empty := (feeds.map fun f => (gs.filter fun g =>
    0 < (groupSteps o x.log f g).1 && (((f.drop (groupRows o * g)).take (groupRows o)).all fun r => r.all fun d => d.1.isEmpty)).length).foldl (· + ·) 0
  let most := (steps.map fun d => d.foldl (· + ·) 0).foldl (· + ·) 0
  let r := runSteps steps most (startStand o steps) (0, 0)
  (r.1, empty, r.2)

/-! ### The match unit (R237, R238) -/

/-- The keys of a match pass with their chucks and rows, each once, from the chucks of a spindle's work: the slivers of the
bench tile share them (R236, R237). -/
def passEntries (cs : List Chuck) (pass : List Nat) : List (Nat × Nat × Nat) :=
  ((cs.filter fun c => c.pass = some pass).flatMap fun c =>
    c.rows.zipIdx.filterMap fun r => r.1.map fun k => (k, c.grp.1 * 256 + c.place, r.2)).eraseDups

/-- Fill the unit: each key in the next way of its set (R237). -/
def fillMatch (q tag : Nat) (pass : List Nat) (es : List (Nat × Nat × Nat)) : MatchUnit :=
  es.foldl (fun u e =>
    let set := matchSet e.1
    let way := (u.entries.filter fun y => y.1 / 4 = set).length
    { u with entries := tput (0, 0, 16) u.entries (4 * set + way) e }) ⟨q, tag, pass, []⟩

/-- Look a key up: its chuck and row (R238). -/
def lookup (u : MatchUnit) (k : Nat) : Option (Nat × Nat) :=
  (u.entries.find? fun y => y.1 / 4 = matchSet k && y.2.1 = k).map (·.2.2)

/-- The rows that a chuck's lookups feed: the element of each hit goes to its row, a miss to none (R238). -/
def matchedRows (u : MatchUnit) (c : Chuck) : List (Option Nat) :=
  let hits := ((List.range c.grp.2).map (c.grp.1 + ·)).filterMap fun k => (lookup u k).map fun y => (k, y)
  (List.range 16).map fun r => (hits.find? fun h => h.2 = (c.grp.1 * 256 + c.place, r)).map (·.1)

/-! ### Counters of whole commands (R99, R582) -/

/-- Add to counter `i` of a lathe unless the counters are frozen (R583). -/
def perfAdd (s : State) (l i n : Nat) : State :=
  if s.perf.freeze then s
  else
    let v := tget 0#64 s.perf.lathe (8 * l + i) + BitVec.ofNat 64 n
    { s with perf := { s.perf with lathe := tput 0#64 s.perf.lathe (8 * l + i) v } }

/-- Counters `is` of lathes advance by free amounts: those that depend on time or on choices the spec leaves open (DESIGN
CHOICE, log 15). -/
def perfFree (s : State) (is lathes : List Nat) : State :=
  if s.perf.freeze then s
  else (lathes.flatMap fun l => is.map fun i => (l, i)).foldl (fun s k =>
    { perfAdd s k.1 k.2 (Config.freeNat s.freeIdx) with freeIdx := s.freeIdx + 1 }) s

/-- Load and drain waits, busy ticks, bank stalls and kerf rows; where a row ran as chunk tiles, whose spindles the spec does
not name, or the command ended early, when its spindles may have gone further, the step counters too. -/
def freeCounters (steps : Bool) : List Nat := if steps then [0, 1, 2, 3, 4, 5, 6, 7] else [3, 4, 5, 6, 7]

/-- Whether a row of the fed operand of some bench tile runs as chunk tiles (R240). -/
def anyChunked (o : Op) (x : Mm) (ran : List BTile) : Bool :=
  fedCsr o && ran.any fun t =>
    let y := fedSlice o t
    (List.range (y.x1 - y.x0)).any fun i => (List.range (2 ^ fKpart o)).any fun p => isChunked o x t.lathe y.b (y.x0 + i) p

/-- The steps and empty advances that a spindle has counted already for a command. -/
def countedBy (s : State) (o : Op) (spindle : Nat) : Nat × Nat :=
  match (getSpindle s spindle).job with
  | some j => if j.q = o.q ∧ j.tag = o.tag then (j.steps, j.empty) else (0, 0)
  | none => (0, 0)

/-- Whether a chuck belongs to the bench tiles that ran. -/
def chuckRan (o : Op) (x : Mm) (l : Nat) (ran : List BTile) (c : Chuck) : Bool :=
  c.tiles.all fun t => ranIn ran (benchOf o x.plan l t c.ext)

/-- Count the chucks of a spindle's rounds that ran, less what its own steps have counted. -/
def perfChucks (s0 : State) (o : Op) (x : Mm) (pass : Pass) (wanted : Nat → Tile → Nat → Bool) (ran : List BTile) (spindle : Nat)
    (gs : List Seg) (s : State) : State :=
  let l := spindle / 64
  let c := countedBy s0 o spindle
  let n := ((chucksOf s0 o x l gs).filter (chuckRan o x l ran)).foldl (fun n c =>
    let k := chuckCounts s0 o x pass l (wanted spindle) c
    (n.1 + k.1, n.2.1 + k.2.1, n.2.2 + k.2.2)) (0, 0, 0)
  perfAdd (perfAdd (perfAdd s l 0 (n.1 - c.1)) l 1 (n.2.1 - c.2)) l 2 n.2.2

/-! ### The low-slice rail (R272) -/

/-- How far below the core rail a command's grit level needs the low-slice rail, in mV. -/
def railNeed (o : Op) : Nat := match gritOf o with | 2 => 60 | 3 => 110 | _ => 0

/-- Whether a started command steps on a lathe pair: a product, a roughing or a finishing pass with a tile there. -/
def stepsOn (s : State) (o : Op) (pair : Nat) : Bool :=
  o.phase == .started && decide (0x10 ≤ opCode o) && decide (opCode o ≤ 0x14)
    && (placedSpindles (placement s o (planOf s o))).any fun i => i / 128 == pair

/-- The offset a lathe pair takes while a command steps there: the smallest that it or another command that steps on the pair
needs. -/
def settleRail (s : State) (o : Op) (pair : Nat) : State :=
  let d := (s.head.ops.filter fun p => stepsOn s p pair).foldl (fun d p => min d (railNeed p)) (railNeed o)
  { s with power := { s.power with lowDrop := tput 0#7 s.power.lowDrop pair (BitVec.ofNat 7 d) } }

/-- The low-slice rail of a lathe pair, never below 0.45 V. -/
def lowRail (s : State) (pair : Nat) : Nat := max 450 (s.power.coreMv.toNat - (tget 0#7 s.power.lowDrop pair).toNat)

/-- The digits a command sends (R252, R262). -/
def passOf (o : Op) : Pass := match opCode o with | 0x13 => .rough (fRough o) | 0x14 => .rest (fRough o) | _ => .whole

end Sys2Proof.Machine
end

