-- ==== Sys2Proof/Machine/Knots.lean ====
section
/-!
DEFINITION. Knot lists and their correction terms (R56 to R60).
-/

namespace Sys2Proof.Machine

/-- The header and an entry of the list at `a`. -/
def knotHeader (s : State) (a : Nat) : Nat := leNat (devBytes s a 16)
def knotCount (h : Nat) : Nat := bits h 0 32
def knotIsB (h : Nat) : Bool := bit h 32
def knotEntry (s : State) (a i : Nat) : Nat := leNat (devBytes s (a + 16 + 16 * i) 16)

/-- An entry: row, column and value code. -/
structure Knot where
  row : Nat
  col : Nat
  value : Nat
  deriving DecidableEq

def mkKnot (w : Nat) : Knot := ⟨bits w 0 32, bits w 32 32, bits w 64 32⟩

def knots (s : State) (a : Nat) : List Knot :=
  (List.range (knotCount (knotHeader s a))).map fun i => mkKnot (knotEntry s a i)

/-- The stored extents of the named operand along its first and second stored dimension: the lines and the elements of
a line (R56: as stored; R57), or the image's rows and columns. -/
def knotExtents (s : State) (o : Op) (isB : Bool) : Nat × Nat :=
  let r := if isB then refB o else refA o
  if (if isB then fCsrB o else fCsrA o) then
    let h := imgHeader s r.base
    (imgRows h, imgCols h)
  else (r.lines, r.perLine)

/-- The checks of R57 on a list at `a`: those of the header and the batch first, then the entries, of which the first faulty one
is named (DESIGN CHOICE, log 61). -/
def checkKnots (s : State) (o : Op) (a : Nat) : Except Fail Unit := do
  let h := knotHeader s a
  let bad := failAt cBadDescriptor a
  need (knotCount h ≤ 16777215 && bits h 33 95 = 0) bad
  need (a + 16 + 16 * knotCount h ≤ hbmEnd) (failAt cAddrRange hbmEnd)
  need ((if knotIsB h then batchB o else batchA o) ≤ 1) bad
  let ext := knotExtents s o (knotIsB h)
  let faulty := (List.range (knotCount h)).find? fun i =>
    let w := knotEntry s a i
    let k := mkKnot w
    bits w 96 32 ≠ 0 ∨ ext.1 ≤ k.row ∨ ext.2 ≤ k.col ∨
      (0 < i ∧ (let q := mkKnot (knotEntry s a (i - 1)); k.row < q.row ∨ (k.row = q.row ∧ k.col ≤ q.col)))
  match faulty with
  | some i => .error (failAt cBadDescriptor (a + 16 + 16 * i))
  | none => .ok ()

/-- An entry's logical indices in its operand: a stored line is a row unless the first dimension is innermost. -/
def knotIndex (r : TRef) (csr : Bool) (k : Knot) : Nat × Nat :=
  if r.inner && !csr then (k.col, k.row) else (k.row, k.col)

/-- The value of an operand's element for a knot term: its expanded integer times its group scale (R58). An element that is
non-finite, or in a group that is, expands to 0 here and raises no flag (DESIGN CHOICE, log 61). -/
def knotOther (x : Mm) (isB : Bool) (lathe b line k : Nat) : Rat :=
  let y := if isB then x.b else x.a
  let p := x.plan
  let g0 := p.k0 + (k - p.k0) / x.g * x.g
  let gr := expand y.fmt y.K (y.elems x.g lathe b line g0 (min x.g (p.k1 - g0)))
  let sc := y.groupScale lathe b line (g0 / x.g) gr.lsb
  ((gr.ints.getD (k - g0) 0 : Int) : Rat) * (sc.1 : Rat) * pow2 sc.2

/-- The terms that reach output (b, m, n), in list order, as inputs of the entry's adds, with their flags (R58, R59, R109);
the element of a non-finite group counts as 0 and flags nothing (DESIGN CHOICE, log 61). An entry that reaches no output
formed here (a row beyond a count read under R352, or outside this device's shard) adds nothing and flags nothing, non-finite
or not: R59 leaves open whether it sets NONFINITE_IN (DESIGN CHOICE, log 75). -/
def knotTerms (s : State) (o : Op) (x : Mm) (a lathe b m n : Nat) : List Ext × BitVec 8 :=
  let isB := knotIsB (knotHeader s a)
  let csr := if isB then fCsrB o else fCsrA o
  let r := if isB then refB o else refA o
  (knots s a).foldl (fun acc k =>
    let (i, j) := knotIndex r csr k
    let kk := if isB then i else j
    let hit := (if isB then j == n else i == m) && x.plan.k0 ≤ kk && kk < x.plan.k1
    if !hit then acc
    else
      match f32Val k.value with
      | .fin v =>
        let t := rn32 (.fin (v * (if isB then knotOther x false lathe b m kk else knotOther x true lathe b n kk)))
        (acc.1 ++ [knotInput x.acc x.e (f32Val t.1)], acc.2 ||| flagIf fOverflow t.2)
      | _ => (acc.1 ++ [.fin 0], acc.2 ||| fNonfinite)) ([], 0#8)

end Sys2Proof.Machine
end

