-- ==== Sys2Proof/Machine/Matrix.lean ====
section
/-!
DEFINITION. The Matrix Engine commands (R355): products, the roughing and finishing passes, accumulator reads and
writes, and the drain.
-/

namespace Sys2Proof.Machine

/-! ### Open sets of a queue -/

/-- A tile with its spindle and the set it lies in. -/
structure Held where
  spindle : Nat
  set : Nat
  tile : Tile
  deriving DecidableEq

/-- Spindles of the named mesh part that hold an open set of the command's queue. -/
def openSpindles (s : State) (o : Op) : List Nat :=
  let ls := usedLathes s o
  (s.dies.spindles.filter fun e =>
    ls.contains (e.1 / 64) && (match e.2.opened with | some w => w.q == o.q | none => false)).map (·.1)

def heldTiles (s : State) (o : Op) : List Held :=
  (openSpindles s o).flatMap fun i =>
    let sp := getSpindle s i
    match sp.opened with
    | some w => sp.tiles.map fun t => ⟨i, w.set, t⟩
    | none => []

/-- The batch of a tile that `MM.ACC_WRITE` placed when no placement was recorded: the tile then holds the place that R194
gives its spindle at that time, as the spindle's number among the lathe's unfenced ones, and how many those were; the output
positions follow from the command that continues it (R356, DESIGN CHOICE, log 21). -/
def unplaced : Nat := 65536

/-- The tile that a dealing gives slot `t.slot` of a spindle: the lathe's slivers go to its spindles in turn, each with all its
tiles (R193, R194). -/
def dealtTile (o : Op) (xs : List Sliver) (lathe : Nat) (t : Tile) : Option Tile :=
  ((xs.filter fun x => x.lathe = lathe)[t.fed0 + t.held0 * (t.slot / tileShare o)]?).bind fun x =>
    ((sliverTiles o x)[t.slot % tileShare o]?).map fun y => { y with slot := t.slot }

/-- Give unplaced tiles the positions that they have in a command's dealing (R194, R356). -/
def resolveTiles (o : Op) (xs : List Sliver) (ts : List Held) : List Held :=
  ts.map fun h => if h.tile.batch = unplaced then { h with tile := (dealtTile o xs (h.spindle / 64) h.tile).getD h.tile } else h

/-- The held tile and entry of output (b, m, n). -/
def findHeld (o : Op) (ts : List Held) (b m n : Nat) : Option (Held × Nat) :=
  ts.findSome? fun h => (findTile o [h.tile] b m n).map fun x => (h, x.2)

def heldEntry (s : State) (o : Op) (h : Held) (e : Nat) : Nat :=
  tileEntry (getSpindle s h.spindle) (accFmt o) (4 * h.set + h.tile.slot) e

/-- Whether a spindle's named sets carry the tag a descriptor implies (R116). -/
def tagsMatch (s : State) (o : Op) (h : Held) : Bool :=
  tget 0#16 (getSpindle s h.spindle).tags (4 * h.set + h.tile.slot) == accTag o

/-- The address of R332 for a format-tag mismatch on no spindle: the lowest unfenced lathe of the named part. -/
def noOpenSet (s : State) (o : Op) : Fail := failAt cFormatTag (latheBase ((usedLathes s o).headD 0))
def badTag (h : Held) : Fail := failAt cFormatTag (latheBase (h.spindle / 64))

/-! ### Products -/

/-- The bench tile of outputs that a sliver belongs to. -/
def outTileOf (o : Op) (p : Plan) (y : Sliver) : BTile := benchOf o p y.lathe ⟨0, y.batch, y.fed0, y.held0⟩ (p.k0, p.k1)

/-- The bench tiles of outputs, in the order of their slivers. -/
def outTiles (o : Op) (p : Plan) (xs : List Sliver) : List BTile := (xs.map (outTileOf o p)).eraseDups

/-- The number of the partial that a bench tile's K extent belongs to (R191). -/
def partOf (o : Op) (p : Plan) (t : BTile) : Nat :=
  (t.k0 - p.k0) / fBtK o / max 1 (cdiv (kExtents p (fBtK o)).length (partials o))

/-- The place in issue order of the last tile that adds into partial `i` of an output tile; past the end when none does. -/
def lastAt (o : Op) (p : Plan) (ts : List BTile) (t : BTile) (i : Nat) : Nat :=
  ts.zipIdx.foldl (fun n y => if sameOutputs y.1 t && partOf o p y.1 == i then y.2 else n) ts.length

/-- The output tiles with their partials, in the order in which they end. -/
def outSteps (o : Op) (p : Plan) (ts outs : List BTile) : List (BTile × Nat) :=
  let ends := outs.flatMap fun t => (List.range (partials o)).map fun i => (lastAt o p ts t i, t, i)
  (List.range (ts.length + 1)).flatMap fun k => (ends.filter fun e => e.1 = k).map (·.2)

/-- The recorded lathe of a position that an open set holds, when the command continues it (R195, R261). -/
def heldLathe (o : Op) (ts : List Held) (b m n lathe : Nat) : Nat :=
  if fContinue o ∨ opCode o = 0x14 then ((findHeld o ts b m n).map fun h => h.1.spindle / 64).getD lathe else lathe

def relocate (o : Op) (ts : List Held) (y : Sliver) : Sliver :=
  { y with lathe := if fSerialB o then heldLathe o ts y.batch y.held0 y.fed0 y.lathe else heldLathe o ts y.batch y.fed0 y.held0 y.lathe }

def relocateTile (o : Op) (ts : List Held) (t : BTile) : BTile := { t with lathe := heldLathe o ts t.b t.m0 t.n0 t.lathe }

/-- Rows of `chunk_ref` that a bench tile's slivers need on their lathe for the partial that its K extent belongs to (R242). -/
def chunkRows (o : Op) (x : Mm) (xs : List Sliver) (t : BTile) : Nat :=
  let n := (xs.filter fun z => sameOutputs (outTileOf o x.plan z) t).length
  let (f0, f1) := if x.fedB then (t.n0, t.n1) else (t.m0, t.m1)
  let es := partExtents x.plan (fBtK o) (partials o) (partOf o x.plan t)
  ((List.range (f1 - f0)).map fun v => (vecChunks o x t.lathe t.b (f0 + v) es).length).foldl (· + ·) 0 * n * tileRows x.acc

/-- The entry output (b, m, n) starts with: its tile's in the open set under CONTINUE, else zero (R115). -/
def startEntry (s : State) (o : Op) (ts : List Held) (b m n : Nat) : Nat :=
  if fContinue o then
    match findHeld o ts b m n with
    | some (h, e) => heldEntry s o h e
    | none => 0
  else 0

/-- Write the outputs of one sliver: partial `i`, or the epilogue's outputs. -/
def emitSliver (s0 : State) (o : Op) (x : Mm) (ts : List Held) (i : Nat) (a : Acc) (y : Sliver) : Acc :=
  let r := sliverRect o x.plan y
  let es := rectMap r fun m n =>
    entryOf o x y.lathe (startEntry s0 o ts r.b m n) r.b m n (partExtents x.plan (fBtK o) (partials o) i)
  let a := a.flag ((es.flatten.map (·.2)).foldl (· ||| ·) 0#8)
  let ws := es.map fun l => l.map (·.1)
  if toPartials o then emitPartial o i a r ws else emitRect o x.plan s0 a r ws

/-- Write the outputs of an output tile's slivers, to HBM and to the bench. -/
def emitTile (s0 : State) (o : Op) (x : Mm) (ts : List Held) (ys : List Sliver) (a : Acc) (st : BTile × Nat) : Acc :=
  benchOut o (outRef o).inner (outBits o)
    ((ys.filter fun y => outTileOf o x.plan y == st.1).foldl (emitSliver s0 o x ts st.2) a)

/-- Put a tile's entries into its slot. -/
def storeTile (s0 : State) (o : Op) (x : Mm) (ts : List Held) (h : Held) (st : State × BitVec 8) : State × BitVec 8 :=
  (tileOutputs o x.plan h.tile).foldl (fun st p =>
    let (m, n) := p.2
    let (w, f) := entryOf o x (h.spindle / 64) (startEntry s0 o ts h.tile.batch m n) h.tile.batch m n
      (kExtents x.plan (fBtK o))
    (setSpindle st.1 h.spindle (setTileEntry (getSpindle st.1 h.spindle) (accFmt o) (4 * h.set + h.tile.slot) p.1 w),
      st.2 ||| f)) st

/-- Leave a spindle's set open with its tiles and tags (R117, R253). -/
def openTiles (o : Op) (rough : Option Nat) (set : Nat) (ts : List Tile) (sp : Spindle) : Spindle :=
  let sp := setSetState sp set .opened
  let slots := ts.flatMap fun t => if rough.isSome then [t.slot, t.slot + 2] else [t.slot]
  { sp with
    opened := some ⟨set, o.q, rough⟩
    tiles := ts
    tags := slots.foldl (fun g j => tput 0#16 g (4 * set + j) (accTag o)) sp.tags }

/-- The set a spindle's last tiles use when it begins `n` sets (R122). -/
def lastSet (sp : Spindle) (n : Nat) : Nat := b2n (sp.next1 != decide ((n - 1) % 2 = 1))

/-- The tiles a BEGIN command with `acc_keep` leaves open, with their sets (R117, R122). -/
def keptTiles (s : State) (o : Op) (p : Plan) (ps : List Placed) : List Held :=
  (placedSpindles ps).flatMap fun i =>
    (lastTiles ps i).map fun t => ⟨i, lastSet (getSpindle s i) (setRounds (spills s o p) o p ps i), t⟩

/-- Whether two tiles hold the same outputs, or lie at the same place. -/
def samePlace (a b : Tile) : Bool := a.batch == b.batch && a.fed0 == b.fed0 && a.held0 == b.held0

/-- The tiles that a queue lost and has now written again, at their outputs or in their slot of the spindle, are made good
(R120). -/
def makeGood (s : State) (q : Nat) (ts : List Held) : State :=
  let still := fun (x : LostSet) => { x with tiles := x.tiles.filter fun t =>
    !(ts.any fun h => (t.batch != unplaced && samePlace h.tile t) || (h.spindle == x.spindle && h.tile.slot == t.slot)) }
  { s with dies := { s.dies with lost := (s.dies.lost.map fun x => if x.q == q then still x else x).filter fun x => !x.tiles.isEmpty } }

/-- A queue that holds no open set on the named lathes any longer and leaves another one open there will not use the tiles it
lost (R120; DEDUCED, log 55). -/
def forgetLost (s : State) (o : Op) : State :=
  if openSpindles s o = [] then
    { s with dies := { s.dies with lost := s.dies.lost.filter fun x => !(x.q == o.q && (namedLathes o).contains (x.spindle / 64)) } }
  else s

/-- The sets after a BEGIN command: pointers turned, kept tiles open (R117, R122). -/
def settleSets (s : State) (o : Op) (p : Plan) (rough : Option Nat) (ps : List Placed) (kept : List Held) : State :=
  (placedSpindles ps).foldl (fun s i =>
    let sp := getSpindle s i
    let mine := kept.filter fun h => h.spindle = i
    let sp' := turnSets sp (setRounds (spills s o p) o p ps i)
    setSpindle s i (match mine with
      | [] => sp'
      | h :: _ => openTiles o rough h.set (mine.map (·.tile)) sp')) (if kept = [] then s else makeGood (forgetLost s o) o.q kept)

/-- Tiles of an open set end: their slots are emptied, and the set is freed when none is left (R119, R123). -/
def endTiles (sp : Spindle) (slots : List Nat) : Spindle :=
  match sp.opened with
  | none => sp
  | some w =>
    let rest := sp.tiles.filter fun t => !slots.contains t.slot
    if rest.isEmpty then freeSet sp w.set
    else { slots.foldl (fun sp j => clearSlot sp (4 * w.set + j)) sp with tiles := rest }

/-- The sets after a CONTINUE, a finishing pass or a drain that ends its tiles. -/
def freeHeld (s : State) (ts : List Held) : State :=
  ((ts.map (·.spindle)).dedup).foldl (fun s i =>
    setSpindle s i (endTiles (getSpindle s i) ((ts.filter fun h => h.spindle = i).map (·.tile.slot)))) s

/-- Whether a tile is one of a sliver's. -/
def tileIn (o : Op) (y : Sliver) (t : Tile) : Bool :=
  t.batch == y.batch && t.held0 == y.held0 && y.fed0 ≤ t.fed0 && t.fed0 < y.fed0 + fedBt o

/-- Whether a sliver's outputs stay in tiles that are left open. -/
def sliverKept (o : Op) (kept : List Held) (y : Sliver) : Bool := kept.any fun h => tileIn o y h.tile

/-- Store the tiles a product leaves open. -/
def storeTiles (s0 : State) (o : Op) (x : Mm) (ts kept : List Held) (s : State) : State × BitVec 8 :=
  kept.foldl (fun st h => storeTile s0 o x ts h st) (s, 0#8)

/-- The sets after a product (R117, R119, R122, R123): `mine` are the command's tiles in the open sets. -/
def productSets (o : Op) (x : Mm) (ps : List Placed) (mine kept : List Held) (s : State) : State :=
  if fContinue o then (if fKeep o then s else freeHeld s mine) else settleSets s o x.plan none ps kept

/-! ### Spilled and chunk rows (R207, R241) -/

/-- What the spill of a tile leaves in its rows: the entries after the last K extent that ran and that another one follows in
its partial; under chunks the ordinary tile has an empty feed there (R206, R207). -/
def spillEntries (s0 : State) (o : Op) (x : Mm) (ts : List Held) (ran : List BTile) (l : Nat) (t : Tile) : Option (List Nat) :=
  let done := fun (es : List (Nat × Nat)) =>
    (es.dropLast.takeWhile fun e => ranIn ran (benchOf o x.plan l t e))
  let parts := ((List.range (partials o)).map fun i => partExtents x.plan (fBtK o) (partials o) i).filter fun es => done es ≠ []
  match parts.getLast? with
  | none => none
  | some es =>
    let outs := tileOutputs o x.plan t
    some ((List.range 256).map fun e =>
      match outs.find? fun y => y.1 = e with
      | some (_, m, n) =>
        if (vecChunks o x l t.batch (if x.fedB then n else m) es).isEmpty then
          (accExtents x.acc (startEntry s0 o ts t.batch m n) ((done es).map (extentVals x .whole l t.batch m n))).1
        else 0
      | none => 0)

/-- The place of a spilled tile among the rows of its lathe, in tiles: `fa` for each spindle (R207; the layout is a DESIGN
CHOICE, log 14). -/
def spillPlace (fa spindle slot : Nat) : Nat := spindle % 64 * fa + slot

/-- The spill rows of a product that spills (R206, R207). -/
def spillTiles (s0 : State) (o : Op) (x : Mm) (ts : List Held) (ran : List BTile) (ps : List Placed) (s : State) : State :=
  if !spills s0 o x.plan then s
  else ps.foldl (fun s y =>
    match spillEntries s0 o x ts ran (y.spindle / 64) y.tile with
    | some es => spillTile s (spillRef o) x.acc (y.spindle / 64) (spillPlace (actualShare s0 o x.plan) y.spindle y.tile.slot) es
    | none => s) s

/-- The entries of one chunk tile: those of its fed vector at the place the vector has in its ordinary tile, zeros elsewhere
(R102, R241; the place is a DESIGN CHOICE, log 14). -/
def chunkTile (o : Op) (x : Mm) (y : Sliver) (v : Nat) (c : List (Nat × (Nat × Nat) × Nat)) : List Nat :=
  let cols := sliverCols o
  let hd := if x.fedB then 1 else 2
  (List.range 256).map fun e =>
    let h := y.held0 + e % cols
    if e / cols = (v - y.fed0) % vtOf o ∧ h < x.plan.start hd + x.plan.size hd then
      (chunkEntry x y.lathe y.batch (if x.fedB then h else v) (if x.fedB then v else h) c).1
    else 0

/-- The chunk rows of an output tile, from the first row of `chunk_ref`: sliver by sliver, fed vector by fed vector, in
ascending chunk (R241; the order of slivers and vectors is a DESIGN CHOICE, log 14). -/
def chunkTiles (o : Op) (x : Mm) (ys : List Sliver) (a : Acc) (st : BTile × Nat) : Acc :=
  let es := partExtents x.plan (fBtK o) (partials o) st.2
  let tiles := (ys.filter fun y => outTileOf o x.plan y == st.1).flatMap fun y =>
    (List.range (y.fed1 - y.fed0)).flatMap fun v =>
      (vecChunks o x y.lathe y.batch (y.fed0 + v) es).map fun c => chunkTile o x y (y.fed0 + v) c
  tiles.zipIdx.foldl (fun a t => chunkOut (chunkRef o) x.acc st.1.lathe t.2 t.1 a) a

/-! ### A product's run -/

/-- Where a product stops early: before the bench tile at a place, with its failure. -/
structure Cut where
  place : Nat
  fail : Fail
  slot : Option Underrun

/-- The earlier of two cuts; the first where both fall on one bench tile. -/
def sooner (a b : Option Cut) : Option Cut :=
  match a, b with
  | some x, some y => if y.place < x.place then some y else some x
  | some x, none => some x
  | none, y => y

/-- The first bench tile that cannot be read (R168, R217, R224). -/
def firstCut (s : State) (o : Op) (ts : List BTile) : Option Cut :=
  sooner ((underrunCut s o ts).map fun u => ⟨u.place, u.fail, some u⟩) ((sparseCut s o ts).map fun x => ⟨x.1, x.2, none⟩)

/-- The first bench tile whose chunk rows do not fit `chunk_ref`: neither it nor a later one is issued (R242). -/
def chunkCut (s : State) (o : Op) (x : Mm) (xs : List Sliver) (ts : List BTile) : Option Cut :=
  if !fedCsr o then none
  else
    let short := fun (t : BTile) => decide (brefRows s (chunkRef o) [t.lathe] < chunkRows o x xs t)
    (ts.zipIdx.find? fun y => short y.1).map fun y => ⟨y.2, failAt cAccFootprint (spillAddr s (chunkRef o) y.1.lathe 0), none⟩

/-- How many bench tiles run before the cut. -/
def ranTo (ts : List BTile) (cut : Option Cut) : Nat := (cut.map (·.place)).getD ts.length

/-- The output tiles and partials that end before the cut, in order. -/
def endedSteps (o : Op) (p : Plan) (ts outs : List BTile) (cut : Option Cut) : List (BTile × Nat) :=
  (outSteps o p ts outs).filter fun st => cut.isNone || lastAt o p ts st.1 st.2 < ranTo ts cut

/-- How many output steps are taken before one fails. -/
def stepsDone {α β : Type} (err : α → Bool) (f : α → β → α) : α → List β → Nat
  | _, [] => 0
  | a, x :: r => if err (f a x) then 0 else stepsDone err f (f a x) r + 1

/-- The cut of a command that an output's failure ends: after the last bench tile of the output that failed. -/
def failedAt (o : Op) (p : Plan) (ts : List BTile) (steps : List (BTile × Nat)) (n : Nat) (e : Fail) : Cut :=
  ⟨match steps[n]? with | some st => lastAt o p ts st.1 st.2 + 1 | none => ts.length, e, none⟩

/-- The outputs of a product: its output tiles up to the cut, in the order they end, and their records. -/
def productEmit (s : State) (o : Op) (x : Mm) (ts : List Held) (ran : List BTile) (steps : List (BTile × Nat)) (ys : List Sliver) :
    Acc :=
  let a := steps.foldl (emitTile s o x ts ys) ({ s := s, flags := inputFlags o x ran } : Acc)
  if toPartials o then a else emitRecords o x.plan a

/-- What the bench tiles that ran leave of their operands on the benches and in the regions (R168, R185, R198). -/
def layerTraces (s0 : State) (o : Op) (ts : List BTile) (cut : Option Cut) (s : State) : State :=
  consumeTiles s0 o ts (ranTo ts cut) (cut.bind (·.slot)) (stageOperands s o (ts.take (ranTo ts cut)))

/-- What a product leaves on the benches beside its outputs (R207, R241): `ts` are the open tiles it continues, `ys` its
slivers. -/
def productTraces (s0 : State) (o : Op) (x : Mm) (ts : List Held) (ps : List Placed) (bs : List BTile) (cut : Option Cut)
    (ys : List Sliver) (steps : List (BTile × Nat)) (a : Acc) : Acc :=
  let a := { a with s := spillTiles s0 o x ts (bs.take (ranTo bs cut)) ps (layerTraces s0 o bs cut a.s) }
  if fedCsr o then steps.foldl (chunkTiles o x ys) a else a

/-- The traces of a Matrix Engine command over the bench tiles that ran: kerf rows, counters, what its chucks left in the
tailstocks, and the free indices it used; `early`: it was cut off. -/
def matrixEnd (s0 : State) (o : Op) (x : Mm) (wanted : Nat → Tile → Nat → Bool) (work : List (Nat × List Seg)) (ran : List BTile)
    (early : Bool) (s : State) : State :=
  let s := work.foldl (fun s w => perfChucks s0 o x (passOf o) wanted ran w.1 w.2 s) (kerfTally (dropJobs s o.q o.tag) o x.plan ran)
  let last := fun (w : Nat × List Seg) =>
    let cs := (chucksOf s0 o x (w.1 / 64) w.2).filter (chuckRan o x (w.1 / 64) ran)
    cs.drop (cs.length - 2)
  let s := if opTail o false || opTail o true then
      work.foldl (fun s w => (last w).foldl (fun s c => takeTails s0 o x (w.1 / 64) c s) s) s
    else s
  let s := ((usedLathes s o).map (· / 2)).dedup.foldl (fun s k => settleRail s o k) s
  perfFree { s with freeIdx := max s.freeIdx (freeEnd s0 x.plan) } (freeCounters (early || anyChunked o x ran)) (usedLathes s o)

/-- The rounds of a product by spindle; a CONTINUE works in its recorded tiles (R195). -/
def productWork (spill : Bool) (o : Op) (x : Mm) (ps : List Placed) (mine : List Held) : List (Nat × List Seg) :=
  if fContinue o then ((mine.map (·.spindle)).dedup).map fun i =>
    (i, [⟨(mine.filter fun h => h.spindle = i).map (·.tile), 0, kExtents x.plan (fBtK o), 0, true⟩])
  else (placedSpindles ps).map fun i => (i, productSegs spill o x.plan ps i)

/-- A product as it runs: its placement, the open tiles it meets and continues, those it leaves open, its slivers, its bench
tiles in issue order, and where it is cut. -/
structure Run where
  x : Mm
  ps : List Placed
  ts : List Held
  mine : List Held
  kept : List Held
  xs : List Sliver
  bs : List BTile
  cut : Option Cut

def Run.steps (r : Run) (o : Op) (cut : Option Cut) : List (BTile × Nat) :=
  endedSteps o r.x.plan r.bs (outTiles o r.x.plan r.xs) cut

/-- The slivers whose outputs are written. -/
def Run.out (r : Run) (o : Op) : List Sliver := r.xs.filter fun y => !sliverKept o r.kept y

/-- A product before its first step (R55, R190 to R197, R242). -/
def runOf (s : State) (o : Op) : Run :=
  let x := mmOf s o
  let ps := placement s o x.plan
  let xs := slivers s o x.plan
  let ts := resolveTiles o xs (heldTiles s o)
  let mine := ts.filter fun h => ps.any fun y => samePlace y.tile h.tile
  let xs := xs.map (relocate o ts)
  let bs := (benchTiles s o x.plan).map (relocateTile o ts)
  { x, ps, ts, mine, xs, bs
    kept := if fKeep o then (if fContinue o then mine else keptTiles s o x.plan ps) else []
    cut := sooner (chunkCut s o x xs bs) (firstCut s o bs) }

/-- A product whose outputs have been written: its tiles, sets and traces. -/
def productEnd (s0 : State) (o : Op) (r : Run) (cut : Option Cut) (a : Acc) : Res :=
  let work := productWork (spills s0 o r.x.plan) o r.x r.ps r.mine
  let ran := r.bs.take (ranTo r.bs cut)
  let a' := productTraces s0 o r.x r.ts r.ps r.bs cut r.xs (r.steps o cut) { a with err := none }
  match cut, a'.err with
  | none, none =>
    let st := storeTiles s0 o r.x r.ts r.kept a'.s
    let s := matrixEnd s0 o r.x (fun _ _ _ => true) work ran false (productSets o r.x r.ps r.mine r.kept st.1)
    ({ a' with s := s, flags := a'.flags ||| st.2 } : Acc).res o.q
  | c, e =>
    { (({ a' with s := matrixEnd s0 o r.x (fun _ _ _ => true) work ran true a'.s } : Acc).res o.q) with
      err := match c with | some c => some c.fail | none => e }

/-- A product after its operands are read: which of its bench tiles run, what they write, what stays open. -/
def productRun (s : State) (o : Op) : Res :=
  let r := runOf s o
  match spillFull s o r.x.plan with
  | some e => ⟨s, 0#8, some e⟩
  | none =>
    let steps := r.steps o r.cut
    let a := productEmit s o r.x r.ts (r.bs.take (ranTo r.bs r.cut)) steps (r.out o)
    let start : Acc := { s := s }
    let n := stepsDone (fun a : Acc => a.err.isSome) (emitTile s o r.x r.ts (r.out o)) start steps
    productEnd s o r (match a.err with | some e => some (failedAt o r.x.plan r.bs steps n e) | none => r.cut) a

/-- The body of a product command (R355, R357, R358). -/
def productBody (s : State) (o : Op) (_ : HostReply) : Res :=
  if o.mCount = some 0 then ⟨s, 0#8, none⟩
  else
    readThen s (operandRanges s o
        ++ (if toPartials o then [] else epiRanges o (outFmt o) (planOf s o))) fun s =>
      productRun s o

/-! ### The roughing pass (R252 to R260) -/

/-- One bound added into a companion entry, both roundings toward +inf (R256). -/
def boundAdd (w : Nat) (g : GroupRes) (b : Nat) : Nat :=
  let up := fun v : Ext => (toFloat fp32S .up v).1
  let term := if g.nonfinite then fpInf fp32S false
    else up (.fin ((b : Rat) * (g.ma : Rat) * (g.mb : Rat) * pow2 (g.xa + g.xb)))
  up (extAdd (f32Val w) (f32Val term)).1

/-- The estimate and the bound of an output, before knots (R254, R256). -/
def roughEntry (o : Op) (x : Mm) (lathe b m n : Nat) : (Nat × BitVec 8) × Nat :=
  let r := fRough o
  let gs := (kExtents x.plan (fBtK o)).flatMap (groupsOf x.g)
  (accAddAll x.acc 0 (gs.map fun gr => deliver x.acc x.e (groupRes x (.rough r) lathe b m n gr)),
    gs.foldl (fun w gr => boundAdd w (groupRes x (.rough r) lathe b m n gr) (groupBound x r lathe b m n gr)) 0)

/-- The hash of R260. -/
def auditHash (m n : Nat) : Nat := ((((m * 0x9E3779B1) % 2 ^ 32 + n) * 0x85EBCA6B) % 2 ^ 32)

def cSkipped : Nat := 0
def cKept : Nat := 1
def cAudited : Nat := 2

/-- The exact value of an entry in the layer's units, guard bits included (R106: only the epilogue applies the
range). -/
def entryValue (o : Op) (w : Nat) : Ext :=
  match accFmt o with
  | .i48 => (extMul (.fin (pow2 (fI48Exp o))) (i48Ext w)).1
  | f => accExt f w

/-- Whether a position is eligible for skipping under attention skipping (R269). -/
def attEligible (o : Op) (m n : Nat) : Bool :=
  let d : Int := ((fAttQ0 o + m : Nat) : Int) - ((fAttK0 o + n : Nat) : Int)
  fAttWindow o < d.natAbs

/-- The decision on output (m, n) (R258, R260). -/
def decideOutput (s : State) (o : Op) (est bound m n : Nat) : Nat :=
  let sc := epiScaleOf s o n
  let absS : Ext := match sc with | .fin v => .fin (rabs v) | .ninf => .pinf | v => v
  let z := (epiZ sc (epiBiasOf s o n) (entryValue o est)).1
  let zb := (extAdd z (extMul (f32Val bound) absS).1).1
  let t := f32Val (fThresh o)
  if z = .nan ∨ zb = .nan then cKept
  else if fAttEn o && !attEligible o m n then cKept
  else if (if fEstimate o then extLt z t else extLt zb t) then
    (if fAudit o ≠ 0 ∧ auditHash m n >>> (32 - fAudit o) = 0 then cAudited else cSkipped)
  else cKept

/-- A decided output of the roughing pass. -/
structure Rough where
  e : Nat
  m : Nat
  n : Nat
  est : Nat
  bound : Nat
  code : Nat
  flags : BitVec 8

def roughTile (s : State) (o : Op) (x : Mm) (lathe : Nat) (t : Tile) : List Rough :=
  (tileOutputs o x.plan t).map fun p =>
    let (m, n) := p.2
    let ((w, f), bd) := roughEntry o x lathe t.batch m n
    let kn := if fKnotRef o = 0 then ([], 0#8) else knotTerms s o x (fKnotRef o) lathe t.batch m n
    let (w, g) := accAddAll x.acc w kn.1
    ⟨p.1, m, n, w, bd, decideOutput s o w bd m n, f ||| g ||| kn.2⟩

/-- Outputs counted in RSTAT (R266), each saturating. -/
def satAdd (c : BitVec 32) (n : Nat) : BitVec 32 := BitVec.ofNat 32 (min (2 ^ 32 - 1) (c.toNat + n))

/-- The keep mask's reference: M × N codes of two bits (R259). -/
def keepRef (o : Op) : TRef := auxRef o 4

def knotRanges (s : State) (o : Op) : List (Nat × Nat) :=
  if fKnotRef o = 0 then [] else [(fKnotRef o, 16 + 16 * knotCount (knotHeader s (fKnotRef o)))]

/-- The tiles a roughing pass leaves open, all in one set (R253). -/
def roughKept (s : State) (o : Op) (p : Plan) (ps : List Placed) : List Held :=
  (placedSpindles ps).flatMap fun i =>
    (ps.filter fun y => y.spindle = i).map fun y => ⟨i, lastSet (getSpindle s i) (setRounds false o p ps i), y.tile⟩

/-- Write the mask of a roughing pass (R257). -/
def writeMask (o : Op) (ds : List (Held × List Rough)) (a : Acc) : Acc :=
  ds.foldl (fun a d => d.2.foldl (fun a z =>
    a.write fun s => writeAll s (planRect s (keepRef o) 2 d.1.tile.batch z.m (z.m + 1) z.n (z.n + 1) fun _ _ => z.code)) a) a

/-- Store an estimate and its companion (R253, R256). -/
def storeRough (x : Mm) (h : Held) (s : State) (z : Rough) : State :=
  let sp := setTileEntry (getSpindle s h.spindle) x.acc (4 * h.set + h.tile.slot) z.e z.est
  let c := 256 * (4 * h.set + h.tile.slot + 2) + z.e
  setSpindle s h.spindle { sp with acc := tput 0#64 sp.acc c (BitVec.ofNat 64 (z.code * 2 ^ 32 + z.bound)) }

/-- Count decisions in RSTAT (R266). -/
def countRough (s : State) (q : Nat) (all : List Rough) : State :=
  let count := fun c => (all.filter fun z => z.code = c).length
  modQ s q fun v => { v with
    decided := satAdd v.decided all.length
    skipped := satAdd v.skipped (count cSkipped)
    audited := satAdd v.audited (count cAudited) }

/-- A roughing pass whose mask has been written; `bs` are its bench tiles. -/
def roughEnd (s0 : State) (o : Op) (x : Mm) (ps : List Placed) (kept : List Held) (bs : List BTile) (cut : Option Cut)
    (ds : List (Held × List Rough)) (a : Acc) : Res :=
  let work := (placedSpindles ps).map fun i => (i, productSegs false o x.plan ps i)
  let ran := bs.take (ranTo bs cut)
  let s := layerTraces s0 o bs cut a.s
  match cut with
  | some c => { (({ a with s := matrixEnd s0 o x (fun _ _ _ => true) work ran true s } : Acc).res o.q) with err := some c.fail }
  | none =>
    let s := ds.foldl (fun s d => d.2.foldl (storeRough x d.1) s) s
    let s := countRough (settleSets s o x.plan (some (inl o 0 49)) ps kept) o.q (ds.flatMap (·.2))
    ⟨matrixEnd s0 o x (fun _ _ _ => true) work ran false s, a.flags, none⟩

def roughRun (s : State) (o : Op) : Res :=
  let x := mmOf s o
  let ps := placement s o x.plan
  let kept := roughKept s o x.plan ps
  let bs := benchTiles s o x.plan
  let cut := firstCut s o bs
  let ended := (endedSteps o x.plan bs (outTiles o x.plan (slivers s o x.plan)) cut).map (·.1)
  let ds := (kept.filter fun h => ended.any (sameOutputs (benchOf o x.plan (h.spindle / 64) h.tile (x.plan.k0, x.plan.k1)))).map
    fun h => (h, roughTile s o x (h.spindle / 64) h.tile)
  let a := writeMask o ds
    { s := s, flags := inputFlags o x (bs.take (ranTo bs cut)) ||| (ds.flatMap (·.2)).foldl (fun f d => f ||| d.flags) 0#8 }
  roughEnd s o x ps kept bs (match a.err with | some e => some ⟨ranTo bs cut, e, none⟩ | none => cut) ds a

/-- The body of `MM.ROUGH`. -/
def roughBody (s : State) (o : Op) (_ : HostReply) : Res :=
  if o.mCount = some 0 then ⟨s, 0#8, none⟩
  else
    readThen s (operandRanges s o ++ knotRanges s o ++ epiRanges o .fp32 (planOf s o))
      fun s => roughRun s o

/-! ### The finishing pass (R261 to R266, R611) -/

/-- The companion of an entry: its code and bound. -/
def companion (s : State) (h : Held) (e : Nat) : Nat × Nat :=
  let w := (tget 0#64 (getSpindle s h.spindle).acc (256 * (4 * h.set + h.tile.slot + 2) + e)).toNat
  (bits w 32 2, bits w 0 32)

/-- The outputs of a tile as a rectangle. -/
def tileRect (o : Op) (p : Plan) (h : Held) : Rect :=
  let t := h.tile
  let l := h.spindle / 64
  if fSerialB o then ⟨l, t.batch, t.held0, min (t.held0 + sliverCols o) p.m1, t.fed0, min (t.fed0 + vtOf o) p.n1⟩
  else ⟨l, t.batch, t.fed0, min (t.fed0 + vtOf o) p.m1, t.held0, min (t.held0 + sliverCols o) p.n1⟩

/-- The finished entry of an output: the estimate and, unless it was skipped, the remaining digits' results (R263). -/
def finishEntry (s : State) (o : Op) (x : Mm) (h : Held) (m n e : Nat) : Nat × BitVec 8 :=
  let w := heldEntry s o h e
  if (companion s h e).1 = cSkipped then (w, 0#8)
  else accAddAll x.acc w (((kExtents x.plan (fBtK o)).flatMap (groupsOf x.g)).map fun gr =>
    deliver x.acc x.e (groupRes x (.rest (fRough o)) (h.spindle / 64) h.tile.batch m n gr))

/-- The converted value of a finished output (R264). -/
def finishConv (s : State) (o : Op) (p : Plan) (h : Held) (m n : Nat) (code w : Nat) : Conv :=
  let c := epiCol s o (outFmt o) (h.spindle / 64) p.M p.N h.tile.batch m n
  if code = cSkipped ∧ fSkipFill o = 0 then convExt c.fmt c.vals .near c.S (.fin 0)
  else if code = cSkipped ∧ fSkipFill o = 2 then convExt c.fmt c.vals .near c.S .ninf
  else
    let (v, g) := accRead (accFmt o) (fI48Exp o) w
    let r := epilogue c v
    { r with flags := r.flags ||| g }

/-- The full-width entry of a finished output (R611). -/
def finishWide (o : Op) (code w : Nat) : Nat :=
  if code = cSkipped ∧ fSkipFill o = 0 then 0
  else if code = cSkipped ∧ fSkipFill o = 2 then accNegInf (accFmt o)
  else w

/-- Whether an audited output was a miss: its exact pre-activation value at or above T, or a NaN (R266). -/
def missed (s : State) (o : Op) (n code w : Nat) : Bool :=
  code == cAudited &&
    (match (epiZ (epiScaleOf s o n) (epiBiasOf s o n) (entryValue o w)).1 with
    | .nan => true
    | z => !extLt z (f32Val (fThresh o)))

/-- The tiles that the queue's `MM.ROUGH` of this descriptor left open. -/
def roughTiles (s : State) (o : Op) : List Held :=
  (heldTiles s o).filter fun h =>
    match (getSpindle s h.spindle).opened with
    | some w => w.rough == some (inl o 0 49)
    | none => false

/-- What the finishing pass makes of an output of a tile: its entry, flags, companion's code, and whether it counts as
missed. -/
def finishOut (s0 : State) (o : Op) (x : Mm) (h : Held) (m n : Nat) : Nat × BitVec 8 × Nat × Bool :=
  let e := if fSerialB o then (n - h.tile.fed0) * sliverCols o + (m - h.tile.held0)
    else (m - h.tile.fed0) * sliverCols o + (n - h.tile.held0)
  let w := finishEntry s0 o x h m n e
  let c := (companion s0 h e).1
  (w.1, w.2, c, missed s0 o n c w.1)

/-- Write a finished tile. -/
def emitFinish (s0 : State) (o : Op) (x : Mm) (h : Held) (es : List (List (Nat × BitVec 8 × Nat × Bool))) (a : Acc) : Acc :=
  let r := tileRect o x.plan h
  let at_ := fun m n => rectGet r (0, 0#8, 0, false) es m n
  if fDefer o then emitPartial o 0 a r (rectMap r fun m n => finishWide o (at_ m n).2.2.1 (at_ m n).1)
  else emitConv o a r (rectMap r fun m n => finishConv s0 o x.plan h m n (at_ m n).2.2.1 (at_ m n).1)

/-- One tile of the finishing pass, with its misses. -/
def finishTile (s0 : State) (o : Op) (x : Mm) (a : Acc × Nat) (h : Held) : Acc × Nat :=
  let es := rectMap (tileRect o x.plan h) (finishOut s0 o x h)
  (emitFinish s0 o x h es (a.1.flag ((es.flatten.map (·.2.1)).foldl (· ||| ·) 0#8)),
    a.2 + (es.flatten.filter (·.2.2.2)).length)

/-- The tiles of one output tile, to HBM and to the bench. -/
def finishGroup (s0 : State) (o : Op) (x : Mm) (ts : List Held) (a : Acc × Nat) (t : BTile) : Acc × Nat :=
  let mine := ts.filter fun h => sameOutputs t (benchOf o x.plan (h.spindle / 64) h.tile (x.plan.k0, x.plan.k1))
  let r := mine.foldl (finishTile s0 o x) a
  (benchOut o (outRef o).inner (outBits o) r.1, r.2)

/-- Whether a finishing pass feeds a fed vector of a spindle: some entry of it there is kept or audited (R262). -/
def fedAgain (s : State) (o : Op) (ts : List Held) (spindle : Nat) (t : Tile) (i : Nat) : Bool :=
  ts.any fun h => h.spindle == spindle && h.tile.batch == t.batch && h.tile.fed0 == t.fed0
    && (List.range (sliverCols o)).any fun j => (companion s h (i * sliverCols o + j)).1 != cSkipped

/-- A finishing pass whose tiles have been written; `bs` are its bench tiles. -/
def finishEnd (s0 : State) (o : Op) (x : Mm) (ts : List Held) (bs : List BTile) (cut : Option Cut) (miss : Nat) (a : Acc) : Res :=
  let work := ((ts.map (·.spindle)).dedup).map fun i =>
    (i, [⟨(ts.filter fun h => h.spindle = i).map (·.tile), 0, kExtents x.plan (fBtK o), 0, true⟩])
  let ran := bs.take (ranTo bs cut)
  let s := layerTraces s0 o bs cut a.s
  match cut with
  | some c => { (({ a with s := matrixEnd s0 o x (fedAgain s0 o ts) work ran true s } : Acc).res o.q) with err := some c.fail }
  | none =>
    let s := modQ (freeHeld s ts) o.q fun v => { v with missed := satAdd v.missed miss }
    ({ a with s := matrixEnd s0 o x (fedAgain s0 o ts) work ran false s } : Acc).res o.q

def finishRun (s : State) (o : Op) : Res :=
  let x := mmOf s o
  let ts := roughTiles s o
  let bs := (benchTiles s o x.plan).map (relocateTile o ts)
  let cut := firstCut s o bs
  let outs := outTiles o x.plan ((slivers s o x.plan).map (relocate o ts))
  let steps := endedSteps o x.plan bs outs cut
  let start : Acc × Nat := ({ s := s, flags := inputFlags o x (bs.take (ranTo bs cut)) }, 0)
  let step := fun (a : Acc × Nat) (st : BTile × Nat) => finishGroup s o x ts a st.1
  let am := steps.foldl step start
  let a := if fDefer o then am.1 else emitRecords o x.plan am.1
  let n := stepsDone (fun a : Acc × Nat => a.1.err.isSome) step start steps
  finishEnd s o x ts bs (match a.err with | some e => some (failedAt o x.plan bs steps n e) | none => cut) am.2 a

/-- The body of `MM.FINISH`. -/
def finishBody (s : State) (o : Op) (_ : HostReply) : Res :=
  if o.mCount = some 0 then ⟨s, 0#8, none⟩
  else
    readThen s (operandRanges s o ++ epiRanges o (outFmt o) (planOf s o)) fun s =>
      finishRun s o

/-! ### Accumulator reads and writes (R124 to R126, R356) -/

/-- The address of reference row `i` that `MM.ACC_WRITE` reads on a lathe; in a region the reference's rows run on through
the slots from head (DESIGN CHOICE, log 20). -/
def accRowAddr (s : State) (b : BRef) (l i : Nat) : Nat :=
  if b.region then
    let r := getRegion s l b.base
    let per := r.slotRowsM1.toNat + 1
    slotAddr l r (ringNext r r.head.toNat (i / per)) + 512 * (i % per)
  else b.addr l i

/-- Bytes of one row of a tile. -/
def tileRowBytes (sp : Spindle) (f : AccFmt) (slot r : Nat) : List Byte :=
  match f with
  | .a16 _ => (List.range 256).flatMap fun e => leBytes 2 (tileEntry sp f slot e)
  | _ => (List.range 64).flatMap fun e => leBytes 8 (tileEntry sp f slot (64 * r + e))

def fSlots (o : Op) : Nat := fur o 0 4

/-- The reference rows that a tile's rows take, with their bytes (R356). -/
def readRows (s : State) (o : Op) (h : Held) : List (Nat × List Byte) :=
  let f := accFmt o
  (List.range (tileRows f)).map fun r =>
    ((4 * (h.spindle % 64) + h.tile.slot) * tileRows f + r,
      tileRowBytes (getSpindle s h.spindle) f (4 * h.set + h.tile.slot) r)

/-- The rows `MM.ACC_READ` writes on one lathe. A region takes the reference's rows up to the last one named, slot by slot
from tail, those that are not named supplying nothing (DESIGN CHOICE, log 20). -/
def readLathe (s0 : State) (o : Op) (ts : List Held) (a : Acc) (l : Nat) : Acc :=
  let b := brefC o
  let rows := (ts.filter fun h => h.spindle / 64 = l).flatMap (readRows s0 o)
  if b.region then
    let n := rows.foldl (fun n r => max n (r.1 + 1)) 0
    let seq := (List.range n).map fun i => ((rows.find? fun r => r.1 = i).map (·.2)).getD []
    pushRows b l n seq a
  else rows.foldl (fun a r => outRow a b.wmode (b.addr l r.1) r.2) a

/-- The body of `MM.ACC_READ`. -/
def accReadBody (s : State) (o : Op) (_ : HostReply) : Res :=
  let ts := (heldTiles s o).filter fun h => bit (fSlots o) h.tile.slot
  let ls := (ts.map fun h => h.spindle / 64).dedup
  let a := ls.foldl (readLathe s o ts) ({ s := s } : Acc)
  ⟨perfFree a.s [5, 6] ls, a.flags, a.err⟩

/-- The unfenced spindles of the named lathes whose tiles the queue lost: their placement is recorded still (R120). -/
def lostUp (s : State) (o : Op) : List Nat :=
  ((s.dies.lost.filter fun x => x.q == o.q && (usedLathes s o).contains (x.spindle / 64)
    && !spindleFenced s x.spindle).map (·.spindle)).dedup

/-- The tile a slot of a spindle is placed at: the one lost there, or where no placement is recorded the place that the fence
map gives the spindle in its lathe, as an earlier write to the set has recorded it or as it stands now (R120, R194, R356). -/
def writtenTile (s : State) (o : Op) (i j : Nat) : Tile :=
  match (s.dies.lost.filter fun x => x.spindle == i && x.q == o.q).findSome? fun x => x.tiles.find? fun t => t.slot == j with
  | some t => t
  | none =>
    match (getSpindle s i).tiles.find? fun t => t.batch = unplaced with
    | some t => { t with slot := j }
    | none => let up := spindlesUp s (i / 64); ⟨j, unplaced, up.findIdx (· == i % 64), up.length⟩

/-- The spindles `MM.ACC_WRITE` acts on (R356): those with a recorded placement, or every unfenced one. -/
def accWriteSpindles (s : State) (o : Op) : List Nat :=
  match openSpindles s o with
  | [] => (usedLathes s o).flatMap fun l => (spindlesUp s l).map fun i => 64 * l + i
  | xs => let held := xs.filter fun i => !((getSpindle s i).tiles).isEmpty
    held ++ (lostUp s o).filter fun i => !held.contains i

/-- The set a spindle takes (R125). -/
def accWriteSet (sp : Spindle) : Nat :=
  match sp.opened with
  | some w => w.set
  | none => b2n sp.next1

/-- Write one entry of a slot from its row. -/
def accWriteEntry (s0 : State) (o : Op) (i j : Nat) (st : State × BitVec 8) (e : Nat) : State × BitVec 8 :=
  let f := accFmt o
  let rt := tileRows f
  let w := if rt = 1 then 2 else 8
  let row := accRowAddr s0 (brefC o) (i / 64) ((4 * (i % 64) + j) * rt + e * w / 512)
  let x := accNormalise f (leNat (devBytes s0 (row + e * w % 512) w))
  (setSpindle st.1 i (setTileEntry (getSpindle st.1 i) f (4 * accWriteSet (getSpindle s0 i) + j) e x.1), st.2 ||| x.2)

/-- Write one slot of one spindle from its rows. -/
def accWriteSlot (s0 : State) (o : Op) (i j : Nat) (st : State × BitVec 8) : State × BitVec 8 :=
  (List.range 256).foldl (accWriteEntry s0 o i j) st

/-- Open the set with the written slots' tags (R125); new tiles are unplaced (R356). -/
def accWriteOpen (o : Op) (slots : List Nat) (place : Nat → Tile) (sp : Spindle) : Spindle :=
  let set := accWriteSet sp
  let fresh := slots.filter fun j => sp.tiles.all fun t => t.slot ≠ j
  let tags := slots.foldl (fun g j => tput 0#16 g (4 * set + j) (accTag o)) sp.tags
  match sp.opened with
  | some _ => { sp with tags := tags, tiles := sp.tiles ++ fresh.map place }
  | none =>
    { setSetState (turnSets sp 1) set .opened with
      tags := tags, opened := some ⟨set, o.q, none⟩, tiles := fresh.map place }

/-- The slots, counted from head, that `MM.ACC_WRITE` reads of a region on a lathe. -/
def accSlots (s : State) (o : Op) (is slots : List Nat) (l : Nat) : List Nat :=
  let per := (getRegion s l (brefC o).base).slotRowsM1.toNat + 1
  let rt := tileRows (accFmt o)
  let used := (is.filter fun i => i / 64 = l).flatMap fun i => slots.flatMap fun j => (List.range rt).map fun r =>
    ((4 * (i % 64) + j) * rt + r) / per
  (List.range (used.foldl (fun n k => max n (k + 1)) 0)).filter used.contains

/-- The consuming reads of `MM.ACC_WRITE`, lathe by lathe, up to an unfilled slot (R168, R169). -/
def accConsume (s : State) (o : Op) (is slots : List Nat) : List Nat → State × Option Fail
  | [] => (s, none)
  | l :: r =>
    let k := (brefC o).base
    let reg := getRegion s l k
    let js := accSlots s o is slots l
    let s' := consumeRel s l k (js.takeWhile (· < reg.fill.toNat))
    match js.find? fun j => reg.fill.toNat ≤ j with
    | some j => (s', some (failAt cUnderrun (slotAddr l reg (ringNext reg reg.head.toNat j))))
    | none => accConsume s' o is slots r

/-- The body of `MM.ACC_WRITE`: every row is read before an entry is written (DESIGN CHOICE, log 20). -/
def accWriteBody (s : State) (o : Op) (_ : HostReply) : Res :=
  let rt := tileRows (accFmt o)
  let slots := (List.range 4).filter fun j => bit (fSlots o) j
  let is := accWriteSpindles s o
  let ls := (is.map (· / 64)).dedup
  let rows := is.flatMap fun i => slots.flatMap fun j => (List.range rt).map fun r =>
    accRowAddr s (brefC o) (i / 64) ((4 * (i % 64) + j) * rt + r)
  match guardUnits s rows with
  | (s', f, some e) => ⟨s', f, some e⟩
  | (s', f, none) =>
    match (if (brefC o).region then accConsume s' o is slots ls else (s', none)) with
    | (s'', some e) => ⟨s'', f, some e⟩
    | (s'', none) =>
      let (t, g) := is.foldl (fun st i => slots.foldl (fun st j => accWriteSlot s' o i j st) st) (s'', f)
      let t := is.foldl (fun t i => setSpindle t i (accWriteOpen o slots (writtenTile s o i) (getSpindle t i))) t
      let wrote : List Held := is.flatMap fun i => slots.map fun j => ⟨i, 0, writtenTile s o i j⟩
      ⟨perfFree (makeGood t o.q wrote) [5, 6] ls, g, none⟩

/-! ### The drain (R119) -/

/-- The output a drain writes: `ref_c`, or entry 7 with `epi_defer` or records alone. -/
def drainRef (o : Op) : TRef := if fDefer o ∨ (fTopk o ≠ 0 ∧ fTopkOnly o) then auxRef o 7 else refC o

/-- A drain's extents: its output's, with no sharding (R355: it reads no tiling); N is that of `ref_c` when records
alone are written (DESIGN CHOICE, log 21). -/
def drainPlan (o : Op) : Plan :=
  let r := drainRef o
  let m := o.mCount.getD r.rows
  let n := if fDefer o then r.cols else (refC o).cols
  ⟨r.batch, m, n, 0, 0, r.batch, 0, m, 0, n, 0, 0⟩

/-- Positions of tiles written with no recorded placement: slivers ascend over the open spindles (DESIGN CHOICE, log 21). -/
def drainTiles (o : Op) (ts : List Held) : List Held :=
  let sps := (ts.map (·.spindle)).dedup
  ts.map fun h =>
    if h.tile.batch = unplaced then
      { h with tile := ⟨h.tile.slot, 0, h.tile.slot * vtOf o, (sps.findIdx (· == h.spindle)) * sliverCols o⟩ }
    else h

/-- Write a tile that a drain reads; on the bench each drained tile is a slice of its own (DESIGN CHOICE, log 14). -/
def drainTile (s0 : State) (o : Op) (p : Plan) (a : Acc) (h : Held) : Acc :=
  let r := tileRect o p h
  let es := rectMap r fun m n => heldEntry s0 o h (if fSerialB o then (n - h.tile.fed0) * sliverCols o + (m - h.tile.held0)
    else (m - h.tile.fed0) * sliverCols o + (n - h.tile.held0))
  let a := if fDefer o then emitPartial o 0 a r es else emitRect o p s0 a r es
  benchOut o (drainRef o).inner (if fDefer o then accBits (accFmt o) else fmtBits (outFmt o)) a

/-- A drain whose tiles have been written. -/
def drainEnd (o : Op) (ts : List Held) (a : Acc) : Res :=
  match a.err with
  | some e => { (a.res o.q) with err := some e }
  | none => ({ a with s := perfFree (freeHeld a.s ts) [4, 5, 6] ((ts.map (·.spindle / 64)).dedup) } : Acc).res o.q

def drainRun (s : State) (o : Op) : Res :=
  let p := drainPlan o
  let a := (drainTiles o (heldTiles s o)).foldl (drainTile s o p) ({ s := s } : Acc)
  drainEnd o (heldTiles s o) (if fDefer o then a else emitRecords o p a)

/-- The body of `MM.DRAIN`. -/
def drainBody (s : State) (o : Op) (_ : HostReply) : Res :=
  if o.mCount = some 0 then ⟨s, 0#8, none⟩
  else
    readThen s (if fDefer o then [] else epiRanges o (outFmt o) (drainPlan o)) fun s =>
      drainRun s o

end Sys2Proof.Machine
end

