-- ==== Sys2Proof/Machine/Vector.lean ====
section
/-!
DEFINITION. The Vector Engine commands (R359 to R362).
-/

namespace Sys2Proof.Machine

/-- The extents a Vector Engine command computes: rows under `m_dyn`. -/
def veM (o : Op) : Nat := o.mCount.getD (refA o).rows

/-! ### Values that carry whether a NaN arose (R112) -/

def fSum (a b : Sval × Bool) : Sval × Bool := let r := sAdd a.1 b.1; (r.1, a.2 || b.2 || r.2)
def fProd (a b : Sval × Bool) : Sval × Bool := let r := sMul a.1 b.1; (r.1, a.2 || b.2 || r.2)
def fDiff (a b : Sval × Bool) : Sval × Bool := fSum a (sNeg b.1, b.2)
def sOk (v : Sval) : Sval × Bool := (v, false)
def xOk (x : Ext) : Sval × Bool := (.ext x, false)

/-- A conversion with the flag of a NaN that arose before it. -/
def convF (conv : Ext → Conv) (v : RVal) (inv : Bool) : Conv :=
  let r := convR conv v
  { r with flags := r.flags ||| flagIf fInvalid inv }

/-! ### Lines and lathes (R359) -/

/-- A side of a Vector Engine command: `ref_a`, or `ref_b`, under the row count read at `m_ptr`. -/
def veRef (o : Op) (isB : Bool) : TRef := dynRows o (opRef o isB)

/-- The lathe that the line numbered `k`, items in order, is dealt to. -/
def dealt (s : State) (o : Op) (k : Nat) : Nat := let ls := usedLathes s o; ls.getD (k % ls.length) 0

/-- The lathe that computes element (b, i, j): that of its line of `ref_a` (DEDUCED, log 20). -/
def veLathe (s : State) (o : Op) (b i j : Nat) : Nat :=
  let r := veRef o false
  dealt s o (b * r.lines + if r.inner then j else i)

/-- Bench rows of a line of `width`-bit elements. -/
def lineRows (r : TRef) (width : Nat) : Nat := cdiv (lineBytesW width r.perLine) 512

/-- A field of a side's element: from HBM, or from the slots that its line takes of a region, the lines of a lathe one after
another from head (R168, R359; DEDUCED, log 20). -/
def veField (s : State) (o : Op) (isB : Bool) (width b i j : Nat) : Nat :=
  let r := veRef o isB
  if (opBref o isB).region then
    let k := (if r.batch ≤ 1 then 0 else b) * r.lines + if r.inner then j else i
    let l := dealt s o k
    regionField s l (getRegion s l (opBref o isB).base) (lineRows r width) (k / (usedLathes s o).length) 0
      ((if r.inner then i else j) * width) width
  else elemW s r width b i j

/-! ### Inputs -/

/-- An input of a Vector Engine command: its reference, the side it is (none for an entry of the reference block), scale
source, scale tensor, exponent and pattern slot. -/
structure VeIn where
  ref : TRef
  side : Option Bool
  src : Nat
  sref : TRef
  e : Int
  slot : Nat

def veA (o : Op) : VeIn := ⟨veRef o false, some false, fSclA o, auxRef o 0, fExpA o, fPatA o⟩
def veB (o : Op) : VeIn := ⟨veRef o true, some true, fSclB o, auxRef o 1, fExpB o, fPatB o⟩

/-- An input read with no scale (R360: only `VE.ELEMENTWISE` takes scaled inputs). -/
def VeIn.plain (x : VeIn) : VeIn := { x with src := 3 }

/-- A tensor of the reference block as an input; its pattern slot is `pat_c` (DESIGN CHOICE, log 63). -/
def plainIn (o : Op) (r : TRef) : VeIn := ⟨r, none, 3, r, 0, fPatC o⟩

/-- The scale word or record of an element's group (R45). -/
def veWord (s : State) (g : Nat) (x : VeIn) (b i j : Nat) : Nat :=
  let w := scaleBytes x.ref.fmt
  leNat (devBytes s (scaleAddr x.sref b i (j / g) (cdiv x.ref.cols g) w) w)

/-- The code of an input's element. -/
def veCode (s : State) (o : Op) (x : VeIn) (b i j : Nat) : Nat :=
  match x.side with
  | some isB => veField s o isB (fmtBits x.ref.fmt) b i j
  | none => elemCode s x.ref b i j

/-- A code as decoded, LOG8 apart (R29, R30, R43, R52). -/
def decodeIn (s : State) (o : Op) (lathe : Nat) (x : VeIn) (b i j c : Nat) : Elem :=
  let f := x.ref.fmt
  match fpShape f with
  | some sh => fpDecode sh c
  | none =>
    if f = .pat4 ∨ f = .pat8 then
      (if c = 2 ^ fmtBits f - 1 then .escape else intElem (slotValue (getSlot s lathe x.slot) c))
    else
      let z := if isUFmt f && x.src != 3 then bits (veWord s (gOf o) x b i j) 16 (fmtBits f) else 0
      intDecode f z c

/-- An element as decoded. -/
def veElem (s : State) (o : Op) (lathe : Nat) (x : VeIn) (b i j : Nat) : Elem :=
  decodeIn s o lathe x b i j (veCode s o x b i j)

/-- A code's exact value (R31 for LOG8). -/
def codeVal (s : State) (o : Op) (lathe : Nat) (x : VeIn) (b i j c : Nat) : Sval :=
  if x.ref.fmt = .log8 then log8Val c else .ext (elemExt (decodeIn s o lathe x b i j c))

/-- An element's exact value, its scale applied. -/
def veVal (s : State) (o : Op) (x : VeIn) (b i j : Nat) : Sval :=
  let v := codeVal s o (veLathe s o b i j) x b i j (veCode s o x b i j)
  if operandScale o x.src x.ref.fmt = 3 then v
  else (sMul v (.ext (.fin (scaleRat (veWord s (gOf o) x b i j) x.e)))).1

/-- The byte ranges of a scale tensor's words for `lines` lines of K elements. -/
def scaleRanges (o : Op) (src : Nat) (f : Fmt) (t : TRef) (batch lines K g : Nat) : List (Nat × Nat) :=
  if operandScale o src f = 3 then []
  else (List.range (if t.batch ≤ 1 then 1 else batch)).map fun b =>
    (scaleAddr t b 0 0 (cdiv K g) (scaleBytes f), lines * cdiv K g * scaleBytes f)

/-- Ranges of an input and its scales in HBM. -/
def veRanges (_ : State) (o : Op) (x : VeIn) : List (Nat × Nat) :=
  (if (x.side.map fun isB => (opBref o isB).region).getD false then [] else x.ref.ranges (fmtBits x.ref.fmt))
    ++ scaleRanges o x.src x.ref.fmt x.sref x.ref.batch x.ref.rows x.ref.cols (gOf o)

/-- Ranges of `ref_a` as fields of a width. -/
def fieldRanges (o : Op) (width : Nat) : List (Nat × Nat) :=
  if (brefA o).region then [] else (veRef o false).ranges width

/-! ### Staging, line by line (R359, R168, R169) -/

/-- A side whose lines a command stages, with its element width. -/
abbrev Side := Bool × Nat

/-- The slots, counted from head, that line `k` of a side takes of its region on its lathe. -/
def lineSlots (s : State) (o : Op) (d : Side) (l k : Nat) : List Nat :=
  let n := slotsFor (getRegion s l (opBref o d.1).base) (lineRows (veRef o d.1) d.2)
  (List.range n).map fun i => k / (usedLathes s o).length * n + i

/-- Read the slots of a line, each freed in ring order, up to one that is not filled. Two sides of one region share its
slots, and the later reader frees them (DESIGN CHOICE, log 20). -/
def readSlots (s0 : State) (o : Op) (d : Side) (two : Bool) (l k : Nat) (s : State) : State × BitVec 8 × Option Fail :=
  let b := (opBref o d.1).base
  let r0 := getRegion s0 l b
  let js := lineSlots s0 o d l k
  let ok := js.takeWhile (· < r0.fill.toNat)
  let s := if two && !d.1 && (brefB o).region && (brefB o).base == b then s
    else setRegion s l b ((ok.map (ringNext r0 r0.head.toNat)).foldl consumed (getRegion s l b))
  match js.drop ok.length with
  | j :: _ => (s, 0#8, some (failAt cUnderrun (slotAddr l r0 (ringNext r0 r0.head.toNat j))))
  | [] => (s, 0#8, none)

/-- A line of a side in bytes, row by row. -/
def sideLine (s : State) (o : Op) (d : Side) (b l : Nat) : List (List Byte) :=
  let r := veRef o d.1
  lineOfCodes d.2 r.perLine fun p => if r.inner then veField s o d.1 d.2 b p l else veField s o d.1 d.2 b l p

/-- Stage line `k` of a side: in the first rows of its reference, or by reading its slots (R359; where in the reference a
line stands is a DESIGN CHOICE, log 14). -/
def stageLine (s0 : State) (o : Op) (two : Bool) (k : Nat) (d : Side) (s : State) : State × BitVec 8 × Option Fail :=
  let r := veRef o d.1
  let l := dealt s0 o k
  if r.batch * r.lines ≤ k then (s, 0#8, none)
  else if (opBref o d.1).region then readSlots s0 o d two l k s
  else (commitRows s (opBref o d.1) l 0 (sideLine s0 o d (k / r.lines) (k % r.lines)), 0#8, none)

/-- Lines of a reference in every item. -/
def TRef.allLines (r : TRef) : Nat := r.batch * r.lines

/-- Whether two references have their lines in common, so that a line of one follows from the line of the other. -/
def sameLines (a b : TRef) : Bool := a.inner == b.inner && a.lines == b.lines && a.batch == b.batch

/-- A Vector Engine command's work: its lines are staged in order, and an output line follows the input lines of its number
when `stream` says that they are all it needs; else the outputs follow the last line (R359; the order is a DESIGN CHOICE,
log 20). -/
def veLines (s0 : State) (o : Op) (sides : List Side) (stream : Bool) (outs : Nat) (out : Nat → Acc → Acc) : Acc :=
  let n := sides.foldl (fun n d => max n (veRef o d.1).allLines) 0
  let stage := fun (a : Acc) k => sides.foldl (fun a d => a.write (stageLine s0 o (decide (1 < sides.length)) k d)) a
  let a0 : Acc := { s := s0 }
  if stream then (List.range (max n outs)).foldl (fun a k => let a := stage a k; if k < outs then out k a else a) a0
  else (List.range outs).foldl (fun a k => out k a) ((List.range n).foldl stage a0)

/-! ### Outputs -/

/-- Write line `l` of item `b` of a tensor, its codes in order along the line; `bench` names the reference that takes its
rows on the lathe of its number. -/
def emitLine (s0 : State) (o : Op) (bench : Option BRef) (r : TRef) (width b l : Nat) (cs : List Conv) (a : Acc) : Acc :=
  let f := fun i j => (cs.getD (if r.inner then i else j) ⟨0, 0#8, 0⟩).code
  let a := match bench with
    | some c => outRows c (dealt s0 o (b * r.lines + l)) (lineOfCodes width r.perLine fun p => (cs.getD p ⟨0, 0#8, 0⟩).code) a
    | none => a
  let a := a.write fun s => writeAll s (if r.inner then planRect s r width b 0 r.rows l (l + 1) f else planRect s r width b l (l + 1) 0 r.cols f)
  { a with flags := a.flags ||| convFlags cs, amax := max a.amax (convAmax cs) }

/-- Write line number `k` of a tensor from its elements. -/
def emitAt (s0 : State) (o : Op) (bench : Option BRef) (r : TRef) (width : Nat) (f : Nat → Nat → Nat → Conv) (k : Nat) (a : Acc) :
    Acc :=
  let b := k / r.lines
  let l := k % r.lines
  emitLine s0 o bench r width b l ((List.range r.perLine).map fun p => if r.inner then f b p l else f b l p) a

/-- A table of the rows of every item, looked up by item, row and column. -/
def rowTable {α : Type} (batch rows : Nat) (f : Nat → Nat → List α) : List (List (List α)) :=
  (List.range batch).map fun b => (List.range rows).map (f b)
def rowAt {α : Type} (d : α) (t : List (List (List α))) (b i j : Nat) : α := ((t.getD b []).getD i []).getD j d

def noConv : Conv := ⟨0, 0#8, 0⟩

/-- The output reference under the row count read at `m_ptr`. -/
def veC (o : Op) : TRef := dynRows o (refC o)

/-- The conversion of output element (b, i, j) (R130, R131, R53): its lathe's table, its scale, its rounding. -/
def outConv (s : State) (o : Op) (rd : Round) (b i j : Nat) : Ext → Conv :=
  let f := outFmt o
  convExt f (if f = .pat4 ∨ f = .pat8 then patVals s (veLathe s o b i j) (fPatC o) else []) (if f = .log8 then .near else rd)
    (if plainOut f && f != .int32 then 1 else outScale s o f (refC o).cols b i j)

/-- A Vector Engine command with one output tensor, whose elements follow row by row. -/
def veRows (s : State) (o : Op) (sides : List Side) (width : Nat) (row : Nat → Nat → List Conv) : Acc :=
  let r := veC o
  let stream := sides.all fun d => sameLines (veRef o d.1) r
  if stream && !r.inner then
    veLines s o sides true r.allLines fun k a =>
      emitLine s o (some (brefC o)) r width (k / r.lines) (k % r.lines) (row (k / r.lines) (k % r.lines)) a
  else
    let t := rowTable r.batch r.rows row
    veLines s o sides stream r.allLines (emitAt s o (some (brefC o)) r width (rowAt noConv t))

/-- A Vector Engine body: nothing for a row count of 0 (R352); the reads of HBM, then the rest. -/
def veBody (ranges : State → Op → List (Nat × Nat)) (run : State → Op → Acc) (s : State) (o : Op) (_ : HostReply) : Res :=
  if o.mCount = some 0 then ⟨s, 0#8, none⟩ else readThen s (ranges s o) fun s => (run s o).res o.q

/-- The sides of a command on elements. -/
def sideA (o : Op) : Side := (false, fmtBits (refA o).fmt)
def sideB (o : Op) : Side := (true, fmtBits (refB o).fmt)

/-! ### Element-wise (R361, R303) -/

/-- The exact result of an operation on the element numbered `j`, with INVALID when a NaN arises. -/
def elementwise (o : Op) (j : Nat) (a b : Sval) : RVal × Bool :=
  let real := fun (r : Sval × Bool) => (r.1.real, r.2)
  match fVeOp o with
  | 0 => (a.real, false)
  | 1 => real (fSum (sOk a) (sOk b))
  | 2 => real (fDiff (sOk a) (sOk b))
  | 3 => real (fProd (sOk a) (sOk b))
  | 4 => real (fSum (fProd (xOk (f32Val (fImm o 0))) (sOk a)) (fProd (xOk (f32Val (fImm o 1))) (sOk b)))
  | 5 => (sActivate (fEpiAct o) a, false)
  | 6 =>
    if bits (opDraw o j) 0 24 < fKeepThr o then real (fProd (sOk a) (xOk (f32Val (fImm o 0))))
    else (.exact (.fin 0), false)
  | 7 =>
    if a = .ext .nan ∨ b = .ext .nan then (.exact .nan, false) else ((if sLt a b then b else a).real, false)
  | _ => real (fProd (sOk a) (sOk b))

/-- Whether an operation reads `ref_b`. -/
def elementwiseB (op : Nat) : Bool := op == 1 || op == 2 || op == 3 || op == 4 || op == 7 || op == 8

def elementwiseSides (o : Op) : List Side := sideA o :: if elementwiseB (fVeOp o) then [sideB o] else []

def elementwiseRun (s : State) (o : Op) : Acc :=
  let N := (refA o).cols
  veRows s o (elementwiseSides o) (fmtBits (outFmt o)) fun b i => (List.range N).map fun j =>
    let idx := (b * veM o + i) * N + j
    let vb := if elementwiseB (fVeOp o) then veVal s o (veB o) b i (if fVeOp o = 8 then 0 else j) else .ext (.fin 0)
    let r := elementwise o idx (veVal s o (veA o) b i j) vb
    convF (outConv s o (opRound o idx) b i j) r.1 r.2

def elementwiseBody : State → Op → HostReply → Res :=
  veBody (fun s o => veRanges s o (veA o) ++ (if elementwiseB (fVeOp o) then veRanges s o (veB o) else [])
      ++ (if plainOut (outFmt o) || fSclC o = 3 then []
          else scaleRanges o 2 .bf16 (auxRef o 2) (refC o).batch (veM o) (refC o).cols (gOf o)))
    elementwiseRun

/-- `VE.ELEMENTWISE` (R361). -/
def execVeElementwise (r : OpRef) (s : State) : Out := runBody 0x20 elementwiseBody r s

/-! ### Row sums (R285) -/

/-- One C64 add of a value, with its flags (R104): both parts round the exact sum, also an irrational one. -/
def accAddS (w : Nat) (x : Sval) : Nat × BitVec 8 :=
  match x, c64Pair w with
  | .ext x, _ => accAdd .c64 w x
  | .surd c, (.fin q, _) =>
    let t := (sAdd (.surd c) (.ext (.fin q))).1
    let h := convR rn32 t.real
    match h.2, f32Val h.1 with
    | false, .fin v => (h.1 + (convR rn32 (sAdd t (.ext (.fin (-v)))).1.real).1 * 2 ^ 32, 0#8)
    | o, _ => (h.1, flagIf fOverflow o)
  | .surd _, (v, i) => ((c64Pack v).1, flagIf fInvalid i)

def accAddAllS (w : Nat) : List Sval → Nat × BitVec 8
  | [] => (w, 0#8)
  | x :: r => let (w', g) := accAddS w x; let (t, h) := accAddAllS w' r; (t, g ||| h)

/-- A row's C64 sum: 128 lanes, then the lanes in ascending order. -/
def laneSum (terms : List Sval) : Nat × BitVec 8 :=
  let lanes := (List.range 128).map fun l => accAddAllS 0 ((terms.zipIdx.filter fun t => t.2 % 128 = l).map (·.1))
  let r := sumPartials .c64 (lanes.map (·.1))
  (r.1, lanes.foldl (fun f x => f ||| x.2) r.2)

/-- The sum rounded once to FP32. -/
def rowSum (terms : List Sval) : Nat × BitVec 8 :=
  let (w, f) := laneSum terms
  let v := c64Pair w
  let r := rn32 v.1
  (r.1, f ||| flagIf fOverflow r.2 ||| flagIf fInvalid v.2)

/-- The values of row `i` of item `b`. -/
def rowVals (s : State) (o : Op) (x : VeIn) (b i : Nat) : List Sval := (List.range x.ref.cols).map (veVal s o x b i)

/-- The products of two lists, and whether a NaN arose. -/
def prodTerms (xs ys : List Sval) : List Sval × Bool :=
  let ps := (xs.zip ys).map fun p => sMul p.1 p.2
  (ps.map (·.1), ps.any (·.2))

/-- The greatest value of a row, NaNs apart. -/
def rowMax (xs : List Sval) : Sval := xs.foldl (fun m x => if sLt m x then x else m) (.ext .ninf)

def reduceRow (o : Op) (xs : List Sval) : Conv :=
  match fVeOp o with
  | 0 => let r := rowSum xs; ⟨r.1, r.2, 0⟩
  | 1 => ⟨(convR rn32 (if xs.contains (.ext .nan) then .exact .nan else (rowMax xs).real)).1, 0#8, 0⟩
  | _ => let r := rowSum (prodTerms xs xs).1; ⟨r.1, r.2, 0⟩

def reduceRun (s : State) (o : Op) : Acc :=
  veRows s o [sideA o] 32 fun b i => [reduceRow o (rowVals s o (veA o).plain b i)]

def reduceBody : State → Op → HostReply → Res := veBody (fun s o => veRanges s o (veA o).plain) reduceRun

/-- `VE.REDUCE` (R360). -/
def execVeReduce (r : OpRef) (s : State) : Out := runBody 0x21 reduceBody r s

/-! ### Softmax (R360, R286) -/

/-- e^(x − max), as a real value; a NaN arises from equal infinities (R112). -/
def expOf (mx : Sval) (x : Sval) : RVal × Bool :=
  match sAdd mx (sNeg x) with
  | (.ext (.fin t), _) => (if t = 0 then .exact (.fin 1) else .encl fun n => expNeg n t, false)
  | (.surd c, _) => (.encl fun n => let e := surdEncl c n; expNegBetween n e.1 e.2, false)
  | (.ext .pinf, _) => (.exact (.fin 0), false)
  | (_, i) => (.exact .nan, i)

/-- A real value divided by the FP32 sum, which is at least 1 where it is finite. -/
def rvalDiv (v : RVal) (d : Ext) : RVal :=
  match d with
  | .fin q => rvalScale (1 / q) v
  | .nan => .exact .nan
  | _ => .exact (.fin 0)

/-- The softmax of a row, converted. -/
def softmaxRow (xs : List (Sval × Bool)) (conv : Nat → Ext → Conv) : List Conv :=
  let mx := rowMax (xs.map (·.1))
  let es := xs.map fun x => let e := expOf mx x.1; (e.1, e.2 || x.2)
  let ts := es.map fun e => convR rn32 e.1
  let (w, f) := rowSum (ts.map fun t => .ext (f32Val t.1))
  let f := f ||| flagIf fInvalid (es.any (·.2))
  es.zipIdx.map fun e =>
    let r := convR (conv e.2) (rvalDiv e.1.1 (f32Val w))
    { r with flags := r.flags ||| f }

/-- The pre-scale of `VE.SOFTMAX`: imm0, 0 taken as 1. -/
def preScale (o : Op) : Ext := if bits (fImm o 0) 0 31 = 0 then .fin 1 else f32Val (fImm o 0)

/-- The row of a record tensor: its value fields' softmax, positions kept. -/
def softmaxRecs (s : State) (o : Op) (b i : Nat) : List Conv :=
  let recs := (List.range (refA o).cols).map fun j => veField s o false 64 b i j
  let xs := recs.map fun r => fProd (xOk (f32Val (bits r 0 32))) (xOk (preScale o))
  (softmaxRow xs fun _ => convExt .fp32 [] .near 1).zipWith (fun c r => { c with code := c.code + bits r 32 32 * 2 ^ 32 }) recs

def softmaxRun (s : State) (o : Op) : Acc :=
  if fVeSub o then veRows s o [(false, 64)] 64 (softmaxRecs s o)
  else veRows s o [sideA o] (fmtBits (outFmt o)) fun b i =>
    softmaxRow ((rowVals s o (veA o).plain b i).map fun v => fProd (sOk v) (xOk (preScale o))) (outConv s o .near b i)

def softmaxBody : State → Op → HostReply → Res :=
  veBody (fun s o => if fVeSub o then fieldRanges o 64 else veRanges s o (veA o).plain) softmaxRun

/-- `VE.SOFTMAX` (R360). -/
def execVeSoftmax (r : OpRef) (s : State) : Out := runBody 0x22 softmaxBody r s

/-- Whether a value is finite. -/
def sFinite (v : Sval) : Bool := match v with | .ext (.fin _) => true | .surd _ => true | _ => false

/-- dx of one position (R286). -/
def softmaxBwd (y dy : Sval) (sm : Ext) : Sval × Bool :=
  if y = .ext (.fin 0) ∧ sFinite dy then (.ext (.fin 0), false) else fProd (sOk y) (fDiff (sOk dy) (xOk sm))

def softmaxBwdRun (s : State) (o : Op) : Acc :=
  veRows s o [sideA o, sideB o] (fmtBits (outFmt o)) fun b i =>
    let ys := rowVals s o (veA o).plain b i
    let ds := rowVals s o (veB o).plain b i
    let (ps, inv) := prodTerms ys ds
    let (w, f) := rowSum ps
    (ys.zip ds).zipIdx.map fun p =>
      let v := softmaxBwd p.1.1 p.1.2 (f32Val w)
      let c := convF (outConv s o .near b i p.2) v.1.real (inv || v.2)
      { c with flags := c.flags ||| f }

def softmaxBwdBody : State → Op → HostReply → Res :=
  veBody (fun s o => veRanges s o (veA o).plain ++ veRanges s o (veB o).plain) softmaxBwdRun

/-- `VE.SOFTMAX_BWD` (R286). -/
def execVeSoftmaxBwd (r : OpRef) (s : State) : Out := runBody 0x23 softmaxBwdBody r s

/-! ### Normalisation (R287 to R289) -/

/-- Element n of a γ or β vector, as element (b, i, n) uses it. -/
def vecVal (s : State) (o : Op) (r : TRef) (b i n : Nat) : Sval :=
  codeVal s o (veLathe s o b i n) (plainIn o r) 0 0 n (elemCode s r 0 0 n)

/-- FP32 of 1 ÷ √v (R287); an undefined code, fixed by the mean and ε, where v is not positive (DESIGN CHOICE, log 6). -/
def rsqrt32 (mean eps : Nat) : Nat :=
  match (extAdd (f32Val mean) (f32Val eps)).1 with
  | .nan => fpNan fp32S
  | .pinf => 0
  | .ninf => Config.undefCode 0 [mean, eps] % 2 ^ 32
  | .fin x =>
    if x ≤ 0 then Config.undefCode 0 [mean, eps] % 2 ^ 32
    else
      match exactSqrt x with
      | some r => (rn32 (.fin (1 / r))).1
      | none => (convR rn32 (.encl fun n => let e := sqrtEncl n x; (1 / e.2, 1 / e.1))).1

/-- The statistics of a row: mu and rho as FP32 codes, with flags (R287). The mean is the FP32 sum of R285 over N, rounded
once (DEDUCED, log 28). -/
def normStats (o : Op) (xs : List Sval) : Nat × Nat × BitVec 8 :=
  let n : Rat := ((xs.length : Nat) : Rat)
  let share := fun w => (rn32 ((extMul (f32Val w) (.fin (1 / n))).1)).1
  let (mu, f) := if fRms o then (0, 0#8) else let r := rowSum xs; (share r.1, r.2)
  let ds := xs.map fun x => (sAdd x (.ext (extNeg (f32Val mu)))).1
  let (q, g) := rowSum (prodTerms ds ds).1
  (mu, rsqrt32 (share q) (fEps o), f ||| g)

/-- A normalised row (R360). -/
def normRow (s : State) (o : Op) (st : Nat × Nat × BitVec 8) (b i : Nat) (xs : List Sval) : List Conv :=
  xs.zipIdx.map fun e =>
    let p := fProd (fDiff (sOk e.1) (xOk (f32Val st.1))) (xOk (f32Val st.2.1))
    let y := fSum (fProd p (sOk (vecVal s o (auxRef o 5) b i e.2))) (sOk (vecVal s o (auxRef o 6) b i e.2))
    let c := convF (outConv s o .near b i e.2) y.1.real y.2
    { c with flags := c.flags ||| st.2.2 }

/-- The statistics records: one per row (R287). -/
def statRef (o : Op) : TRef := dynRows o { (auxRef o 3) with cols := 1, batch := (refA o).batch }

def normRun (s : State) (o : Op) : Acc :=
  let x := (veA o).plain
  let stats := rowTable x.ref.batch x.ref.rows fun b i => [normStats o (rowVals s o x b i)]
  let stat := fun b i => rowAt (0, 0, 0#8) stats b i 0
  let a := veRows s o [sideA o] (fmtBits (outFmt o)) fun b i => normRow s o (stat b i) b i (rowVals s o x b i)
  (List.range (statRef o).allLines).foldl (fun a k => emitAt s o none (statRef o) 64
    (fun b i _ => ⟨(stat b i).1 + (stat b i).2.1 * 2 ^ 32, 0#8, 0⟩) k a) a

def vecRanges (r : TRef) : List (Nat × Nat) := [(r.base, cdiv (r.cols * fmtBits r.fmt) 8)]

def normBody : State → Op → HostReply → Res :=
  veBody (fun s o => veRanges s o (veA o).plain ++ vecRanges (auxRef o 5) ++ vecRanges (auxRef o 6)) normRun

/-- `VE.NORM` (R287, R360). -/
def execVeNorm (r : OpRef) (s : State) : Out := runBody 0x24 normBody r s

/-- A row's statistics record. -/
def statWord (s : State) (o : Op) (b i : Nat) : Nat := elemW s (statRef o) 64 b i 0

/-- x̂ of a row, each rounded once to FP32 (R288). -/
def xHat (xs : List Sval) (mu rho : Ext) : List Sval :=
  xs.map fun x => .ext (f32Val (convR rn32 (fProd (fDiff (sOk x) (xOk mu)) (xOk rho)).1.real).1)

/-- dx of a row (R288). -/
def normBwdRow (s : State) (o : Op) (b i : Nat) (hats ds : List Sval) : List Conv :=
  let inv : Rat := 1 / ((ds.length : Nat) : Rat)
  let rho := f32Val (bits (statWord s o b i) 32 32)
  let gd := ds.zipIdx.map fun d => fProd (sOk (vecVal s o (auxRef o 5) b i d.2)) (sOk d.1)
  let (wa, fa) := rowSum (gd.map (·.1))
  let (bt, i2) := prodTerms (gd.map (·.1)) hats
  let (wb, fb) := rowSum bt
  (gd.zip hats).zipIdx.map fun g =>
    let t1 := if fRms o then g.1.1 else fDiff g.1.1 (xOk (extMul (f32Val wa) (.fin inv)).1)
    let xb := fProd (fProd (sOk g.1.2) (xOk (f32Val wb))) (xOk (.fin inv))
    let r := fProd (xOk rho) (fDiff t1 xb)
    let c := convF (outConv s o .near b i g.2) r.1.real (r.2 || i2)
    { c with flags := c.flags ||| fa ||| fb }

/-- The partials of a parameter gradient: columns summed over `row_part` rows each (R289). -/
def gradPartials (s : State) (o : Op) (r : TRef) (term : Nat → Nat → Nat → Sval) (a : Acc) : Acc :=
  let M := veM o
  let P := cdiv M (fRowPart o)
  let sum := fun bp j =>
    let p := bp % P
    accAddAllS 0 ((List.range (min (fRowPart o) (M - p * fRowPart o))).map fun d => term (bp / P) (p * fRowPart o + d) j)
  let t := { r with rows := 1, cols := (refA o).cols, batch := (refA o).batch * P }
  (List.range t.allLines).foldl (fun a k => emitAt s o none t 64 (fun bp _ j => let w := sum bp j; ⟨w.1, w.2, 0⟩) k a) a

def normBwdRun (s : State) (o : Op) : Acc :=
  let x := (veA o).plain
  let hats := rowTable x.ref.batch x.ref.rows fun b i =>
    xHat (rowVals s o x b i) (f32Val (bits (statWord s o b i) 0 32)) (f32Val (bits (statWord s o b i) 32 32))
  let dy := fun b i j => veVal s o (veB o).plain b i j
  let a := veRows s o [sideA o, sideB o] (fmtBits (outFmt o)) fun b i =>
    normBwdRow s o b i ((hats.getD b []).getD i []) (rowVals s o (veB o).plain b i)
  gradPartials s o (auxRef o 6) dy
    (gradPartials s o (auxRef o 4) (fun b i j => (sMul (dy b i j) (rowAt (.ext (.fin 0)) hats b i j)).1) a)

def normBwdBody : State → Op → HostReply → Res :=
  veBody (fun s o => veRanges s o (veA o).plain ++ veRanges s o (veB o).plain
    ++ (statRef o).ranges 64 ++ vecRanges (auxRef o 5)) normBwdRun

/-- `VE.NORM_BWD` (R288, R289). -/
def execVeNormBwd (r : OpRef) (s : State) : Out := runBody 0x25 normBwdBody r s

/-! ### Partials and knots (R140, R58) -/

/-- The output `VE.SUM_PARTIALS` writes: `ref_c`, or entry 7 with `epi_defer`. -/
def sumRef (o : Op) : TRef := if fDefer o then auxRef o 7 else refC o

/-- Extents of its output. -/
def sumPlan (o : Op) : Plan :=
  let r := sumRef o
  let m := veM o
  ⟨r.batch, m, (refA o).cols, 0, 0, r.batch, 0, m, 0, (refA o).cols, 0, 0⟩

/-- The combined entry of output (b, m, n), with its flags (R140). -/
def sumEntry (s : State) (o : Op) (b m n : Nat) : Nat × BitVec 8 :=
  let P := (refA o).batch / (sumPlan o).B
  sumPartials (accFmt o) ((List.range P).map fun i => veField s o false (accBits (accFmt o)) (b * P + i) m n)

/-- An output row of `VE.SUM_PARTIALS`: the lathe of its number converts it (DESIGN CHOICE, log 20). -/
def sumRow (s : State) (o : Op) (b m : Nat) : List Conv :=
  let p := sumPlan o
  (List.range p.N).map fun n =>
    let w := sumEntry s o b m n
    if fDefer o then ⟨w.1, w.2, 0⟩
    else
      let (v, g) := accRead (accFmt o) (fI48Exp o) w.1
      let c := epilogue (epiCol s o (outFmt o) (dealt s o (b * p.M + m)) p.M p.N b m n) v
      { c with flags := c.flags ||| g ||| w.2 }

/-- The output's written rows, for the records. -/
def sumDone (o : Op) (rows : List (List (List Conv))) : List (Rect × List (List Conv)) :=
  if fTopk o = 0 then [] else rows.zipIdx.map fun x => (⟨0, x.2, 0, (sumPlan o).M, 0, (sumPlan o).N⟩, x.1)

def sumRun (s : State) (o : Op) : Acc :=
  let p := sumPlan o
  let rows := rowTable p.B p.M (sumRow s o)
  let r := dynRows o (sumRef o)
  let width := if fDefer o then accBits (accFmt o) else fmtBits (outFmt o)
  let only := !fDefer o && fTopk o != 0 && fTopkOnly o
  let side : List Side := [(false, accBits (accFmt o))]
  let a := veLines s o side false (if only then 0 else r.allLines) (emitAt s o (some (brefC o)) r width (rowAt noConv rows))
  if fDefer o then a
  else
    let done := sumDone o rows
    let a := if only then { a with flags := a.flags ||| convFlags rows.flatten.flatten, amax := max a.amax (convAmax rows.flatten.flatten) } else a
    emitRecords o p { a with done := done, flags := a.flags ||| done.foldl (fun f d => f ||| rectTopkFlag o d.2) 0#8 }

def sumPartialsBody : State → Op → HostReply → Res :=
  veBody (fun _ o => fieldRanges o (accBits (accFmt o))
    ++ (if fDefer o then [] else epiRanges o (outFmt o) (sumPlan o))) sumRun

/-- `VE.SUM_PARTIALS` (R140, R360). -/
def execVeSumPartials (r : OpRef) (s : State) : Out := runBody 0x26 sumPartialsBody r s

/-- The sides that `VE.KNOT_FIX` stages line by line: an image has no lines (R359). -/
def knotSides (o : Op) : List Side :=
  (if fCsrA o then [] else [sideA o]) ++ if fCsrB o then [] else [sideB o]

/-- The knot corrections: only the entries that a term reaches are written. -/
def knotFixApply (s : State) (o : Op) : Acc :=
  let x := mmOf s o
  let p := x.plan
  let r := auxRef o 7
  (List.range r.batch).foldl (fun a b => (List.range p.M).foldl (fun a m => (List.range p.N).foldl (fun a n =>
    let ts := knotTerms s o x (fKnotRef o) (dealt s o (b * p.M + m)) b m n
    if ts.1.isEmpty then a
    else
      let w := accAddAll x.acc (elemW s r (accBits x.acc) b m n) ts.1
      (a.flag (w.2 ||| ts.2)).write fun s =>
        writeAll s (planRect s r (accBits x.acc) b m (m + 1) n (n + 1) fun _ _ => w.1)) a) a)
    (veLines s o (knotSides o) false 0 fun _ a => a)

/-- The first fault of a compressed operand: the command reads its image whole (R224). -/
def knotFault (s : State) (o : Op) : Option Fail :=
  [false, true].findSome? fun isB =>
    let base := (opRef o isB).base
    if opCsr o isB then (imgFault s base (imgHeader s base) 0 (imgRows (imgHeader s base))).map (failAt cSparsity) else none

/-- The knot corrections of an operation. A pattern-coded element is read through the table of the lathe that the output's row
is dealt to, as the row numbered b × M + m (R53, R55, R359; DESIGN CHOICE, log 74). -/
def knotFixRun (s : State) (o : Op) : Acc :=
  match knotFault s o with
  | some e => { s := s, err := some e }
  | none => knotFixApply s o

def knotFixBody : State → Op → HostReply → Res :=
  veBody (fun s o => knotRanges s o ++ operandRanges s o ++ (dynRows o (auxRef o 7)).ranges (accBits (accFmt o))) knotFixRun

/-- `VE.KNOT_FIX` (R58, R360). -/
def execVeKnotFix (r : OpRef) (s : State) : Out := runBody 0x27 knotFixBody r s

/-! ### Dynamic scales and quantisation (R63, R64) -/

/-- The scale word of a group with greatest magnitude `amax`, and whether SCALE_RANGE is set (R63). -/
def dynWord (amax qmax : Rat) (e : Int) : Nat × Bool :=
  if amax = 0 ∨ qmax = 0 then (0, false)
  else
    let t := amax / qmax
    let k := ilog2 t - 9
    let m := rceil (t / pow2 k)
    let (m, k) := if m = 1024 then (512, k + 1) else (m, k)
    let sh := k + 32 - e
    if 63 < sh then (1023 * 64 + 63, true)
    else if sh < 0 then ((max 1 (rceil (t / pow2 (e - 32)))).toNat * 64, true)
    else (m.toNat * 64 + sh.toNat, false)

/-- qmax of a target format on a lathe (R63). -/
def targetQmax (s : State) (o : Op) (lathe : Nat) (f : Fmt) : Rat :=
  match f with
  | .pat4 | .pat8 => patQmax (patVals s lathe (fPatC o))
  | f => qmaxOf f

/-- The word of group `j` of row `i`, with NONFINITE_IN and SCALE_RANGE (R63, R609). A pattern target's qmax is that of the
table on the lathe to which the group's first column is dealt: R63 leaves open whose table counts when an inner-first `ref_a`
deals the group's columns to several lathes (DESIGN CHOICE, log 76). -/
def groupWord (s : State) (o : Op) (x : VeIn) (b i j : Nat) : Nat × BitVec 8 :=
  let g := gOf o
  let l := veLathe s o b i (j * g)
  let es := (List.range (min g (x.ref.cols - j * g))).map fun d => veElem s o l x b i (j * g + d)
  let amax := es.foldl (fun (m : Rat) e => match elemExt e with | .fin v => max m (rabs v) | _ => m) 0
  let bad := es.any fun e => match e with | .inf _ => true | .nan => true | _ => false
  let (w, r) := dynWord amax (targetQmax s o l (outFmt o)) (fExpC o)
  (w, flagIf fNonfinite bad ||| flagIf fScaleRange r)

/-- Write the scale words of row number `k` (R45). A scale reference of batch 1 has one place for the words of a row of
every item: there the last item's stand (DESIGN CHOICE, log 62). -/
def writeWords (s0 : State) (o : Op) (x : VeIn) (k : Nat) (a : Acc) : Acc :=
  let G := cdiv x.ref.cols (gOf o)
  let b := k / x.ref.rows
  let i := k % x.ref.rows
  let ws := (List.range G).map (groupWord s0 o x b i)
  (a.flag ((ws.map (·.2)).foldl (· ||| ·) 0#8)).write fun s =>
    writeAll s [(scaleAddr (auxRef o 2) b i 0 G 2, ws.flatMap fun w => leBytes 2 w.1)]

/-- The words of every row, when they do not follow the lines. -/
def writeAllWords (s0 : State) (o : Op) (x : VeIn) (a : Acc) : Acc :=
  (List.range (x.ref.batch * x.ref.rows)).foldl (fun a k => writeWords s0 o x k a) a

def amaxRun (s : State) (o : Op) : Acc :=
  let x := (veA o).plain
  if x.ref.inner then writeAllWords s o x (veLines s o [sideA o] false 0 fun _ a => a)
  else veLines s o [sideA o] true x.ref.allLines (writeWords s o x)

def amaxBody : State → Op → HostReply → Res := veBody (fun s o => veRanges s o (veA o).plain) amaxRun

/-- `VE.AMAX` (R63). -/
def execVeAmax (r : OpRef) (s : State) : Out := runBody 0x28 amaxBody r s

/-- One quantised element (R64, R609): under dynamic scales its own group's word scales it. -/
def quantizeAt (s : State) (o : Op) (x : VeIn) (b i j : Nat) : Conv :=
  let f := outFmt o
  let l := veLathe s o b i j
  let S := if fSclC o = 1 then scaleRat (groupWord s o x b i (j / gOf o)).1 (fExpC o) else outScale s o f (refC o).cols b i j
  let vs := if f = .pat4 ∨ f = .pat8 then patVals s l (fPatC o) else []
  match veElem s o l x b i j with
  | .escape => ⟨zeroCode f vs, 0#8, 0⟩
  | e => convExt f vs (opRound o ((b * veM o + i) * (refA o).cols + j)) S (elemExt e)

def quantizeRun (s : State) (o : Op) : Acc :=
  let x := (veA o).plain
  let r := veC o
  let stream := sameLines x.ref r
  let words := fSclC o = 1
  let a := veLines s o [sideA o] stream r.allLines fun k a =>
    emitAt s o (some (brefC o)) r (fmtBits (outFmt o)) (quantizeAt s o x) k
      (if words ∧ stream ∧ !r.inner then writeWords s o x k a else a)
  if words ∧ !(stream ∧ !r.inner) then writeAllWords s o x a else a

def quantizeBody : State → Op → HostReply → Res :=
  veBody (fun s o => veRanges s o (veA o).plain
    ++ (if fSclC o = 2 then scaleRanges o 2 .bf16 (auxRef o 2) (refC o).batch (veM o) (refC o).cols (gOf o) else []))
    quantizeRun

/-- `VE.QUANTIZE` (R64, R609). -/
def execVeQuantize (r : OpRef) (s : State) : Out := runBody 0x29 quantizeBody r s

/-! ### Top-k merge (R138) -/

/-- Whether a record is filler: it stands for no position of a row (R137). -/
def isFiller (r : Nat × Nat) : Bool := r.2 == 0xFFFFFFFF

def topkRow (s : State) (o : Op) (b i : Nat) : List Conv :=
  let recs := (List.range (refA o).cols).map fun j => let w := veField s o false 64 b i j; (bits w 0 32, bits w 32 32)
  let real := recs.filter fun r => !isFiller r
  (topRecords (fTopk o) real).map fun t => ⟨recordCode t, topkFlag real, 0⟩

def topkRun (s : State) (o : Op) : Acc := veRows s o [(false, 64)] 64 (topkRow s o)

def topkMergeBody : State → Op → HostReply → Res := veBody (fun _ o => fieldRanges o 64) topkRun

/-- `VE.TOPK_MERGE` (R138). -/
def execVeTopkMerge (r : OpRef) (s : State) : Out := runBody 0x2A topkMergeBody r s

/-! ### Optimiser step (R362) -/

/-- The value of imm `i`. -/
def immVal (o : Op) (i : Nat) : Sval × Bool := xOk (f32Val (fImm o i))

/-- A real quotient: exact, or enclosed. -/
inductive Quot where
  | val (v : Sval)
  | encl (f : Nat → Rat × Rat)

/-- w − imm0 × (u + imm4 × w). -/
def stepFrom (o : Op) (w u : Sval) : Sval × Bool :=
  fDiff (sOk w) (fProd (immVal o 0) (fSum (sOk u) (fProd (immVal o 4) (sOk w))))

/-- An enclosure of a finite value. -/
def svalEncl (v : Sval) (n : Nat) : Rat × Rat :=
  match v with
  | .surd c => surdEncl c n
  | .ext (.fin x) => (x, x)
  | .ext _ => (0, 0)

/-- An enclosure of a positive value's square root. -/
def rootEncl (v : Sval) (n : Nat) : Rat × Rat :=
  let e := svalEncl v n
  (if e.1 ≤ 0 then 0 else (sqrtEncl n e.1).1, if e.2 ≤ 0 then 0 else (sqrtEncl n e.2).2)

/-- An enclosure of a quotient; one whose divisor is not yet parted from zero encloses nothing useful, and a greater
precision parts it. -/
def quotEncl (a d : Rat × Rat) : Rat × Rat :=
  if d.1 ≤ 0 ∧ 0 ≤ d.2 then (-(pow2 600), pow2 600)
  else
    let xs := [a.1 / d.1, a.1 / d.2, a.2 / d.1, a.2 / d.2]
    (xs.foldl min (a.1 / d.1), xs.foldl max (a.1 / d.1))

/-- A quotient by an exact divisor, and whether a NaN arose; none where its value is not stated: a divisor of zero (DESIGN
CHOICE, log 6). -/
def exactQuot (num : Sval) (d : Ext) : Option (Quot × Bool) :=
  match d with
  | .nan => some (.val (.ext .nan), false)
  | .fin q => if q = 0 then (if num = .ext .nan then some (.val num, false) else none) else some (.val (sMul num (.ext (.fin (1 / q)))).1, false)
  | _ => some (if sFinite num then (.val (.ext (.fin 0)), false) else (.val (.ext .nan), num != .ext .nan))

/-- The ADAMW quotient m′ × imm5 ÷ (√(v′ × imm6) + imm3); none where it is not stated: also the root of a negative number
(DESIGN CHOICE, log 6). -/
def adamQuotient (o : Op) (m v : Sval) : Option (Quot × Bool) :=
  let num := fProd (sOk m) (immVal o 5)
  let sq := fProd (sOk v) (immVal o 6)
  let inv := num.2 || sq.2
  let also := fun (r : Option (Quot × Bool)) => r.map fun x => (x.1, x.2 || inv)
  let e := f32Val (fImm o 3)
  match sq.1 with
  | .ext .nan => some (.val (.ext .nan), inv)
  | .ext .ninf => none
  | .ext .pinf => let d := extAdd .pinf e; also ((exactQuot num.1 d.1).map fun x => (x.1, x.2 || d.2))
  | root =>
    if sLt root (.ext (.fin 0)) then none
    else
      match root, e with
      | _, .nan => some (.val (.ext .nan), inv)
      | .ext (.fin x), e =>
        match exactSqrt x, e with
        | some r, e => also (exactQuot num.1 (extAdd (.fin r) e).1)
        | none, .fin e => rooted num.1 root e inv
        | none, e => also (exactQuot num.1 e)
      | root, .fin e => rooted num.1 root e inv
      | _, e => also (exactQuot num.1 e)
where
  /-- The quotient by an irrational root and ε. -/
  rooted (num root : Sval) (e : Rat) (inv : Bool) : Option (Quot × Bool) :=
    if sFinite num then
      some (.encl fun n => let q := rootEncl root n; quotEncl (svalEncl num n) (q.1 + e, q.2 + e), inv)
    else
      let neg := convAt (fun x => extLt x (.fin 0)) (fun n => let q := rootEncl root n; (q.1 + e, q.2 + e)) 63 40
      some (.val (if neg then sNeg num else num), inv)

/-- w′ = w − imm0 × (u + imm4 × w), as a real value. -/
def stepReal (o : Op) (w : Sval) (u : Quot) : RVal × Bool :=
  match u with
  | .val v => let r := stepFrom o w v; (r.1.real, r.2)
  | .encl f =>
    let rest := stepFrom o w (.ext (.fin 0))
    match f32Val (fImm o 0), f32Val (fImm o 4), sFinite rest.1 with
    | .fin k, .fin _, true =>
      (.encl fun n =>
        let e := f n
        let b := svalEncl rest.1 n
        if 0 ≤ k then (b.1 - k * e.2, b.2 - k * e.1) else (b.1 - k * e.1, b.2 - k * e.2), false)
    | _, _, _ =>
      let neg := convAt (fun x => extLt x (.fin 0)) f 63 40
      let r := stepFrom o w (.ext (.fin (if neg then -1 else 1)))
      (r.1.real, r.2)

/-- The new first and second moments' exact values. -/
def newM (o : Op) (m g : Sval) : Sval × Bool :=
  let keep := fProd (immVal o 1) (sOk m)
  if fVeOp o = 0 then fSum keep (sOk g) else fSum keep (fProd (fDiff (xOk (.fin 1)) (immVal o 1)) (sOk g))
def newV (o : Op) (v g : Sval) : Sval × Bool :=
  fSum (fProd (immVal o 2) (sOk v)) (fProd (fDiff (xOk (.fin 1)) (immVal o 2)) (fProd (sOk g) (sOk g)))

/-- Convert a moment to its tensor's format, unscaled (R362); a pattern table is that of `pat_c` (DESIGN CHOICE, log 63). -/
def momentConv (s : State) (o : Op) (r : TRef) (b i j : Nat) (v : Sval × Bool) : Conv :=
  let vs := if r.fmt = .pat4 ∨ r.fmt = .pat8 then patVals s (veLathe s o b i j) (fPatC o) else []
  convF (convExt r.fmt vs .near 1) v.1.real v.2

/-- The step of one element: w′, m′ and v′ (R362). -/
def optElem (s : State) (o : Op) (b i j : Nat) : Conv × Conv × Conv :=
  let mr := dynRows o (auxRef o 5)
  let vr := dynRows o (auxRef o 6)
  let old := fun (r : TRef) => codeVal s o (veLathe s o b i j) (plainIn o r) b i j (elemCode s r b i j)
  let new := fun (r : TRef) (c : Conv) => codeVal s o (veLathe s o b i j) (plainIn o r) b i j c.code
  let w := veVal s o (veA o).plain b i j
  let g := veVal s o (veB o).plain b i j
  let cm := momentConv s o mr b i j (newM o (old mr) g)
  let conv := outConv s o (opRound o ((b * veM o + i) * (refA o).cols + j)) b i j
  if fVeOp o = 1 then
    let cv := momentConv s o vr b i j (newV o (old vr) g)
    match adamQuotient o (new mr cm) (new vr cv) with
    | some u => let r := stepReal o w u.1; (convF conv r.1 (r.2 || u.2), cm, cv)
    | none =>
      let code := Config.undefCode 1 ([veField s o false (fmtBits (refA o).fmt) b i j, cm.code, cv.code] ++ [0, 3, 4, 5, 6].map (fImm o))
      (⟨code % 2 ^ fmtBits (outFmt o), 0#8, 0⟩, cm, cv)
  else let r := stepFrom o w (new mr cm); (convF conv r.1.real r.2, cm, noConv)

/-- Write a moment tensor. -/
def emitMoment (s : State) (o : Op) (i : Nat) (f : Nat → Nat → Nat → Conv) (a : Acc) : Acc :=
  let r := dynRows o { (auxRef o i) with batch := (refC o).batch }
  (List.range r.allLines).foldl (fun a k => emitAt s o none r (fmtBits r.fmt) f k a) a

def optRun (s : State) (o : Op) : Acc :=
  let r := veC o
  let t := rowTable r.batch r.rows fun b i => (List.range r.cols).map (optElem s o b i)
  let at_ := rowAt (noConv, noConv, noConv) t
  let stream := sameLines (veRef o false) r && sameLines (veRef o true) r
  let a := veLines s o [sideA o, sideB o] stream r.allLines
    (emitAt s o (some (brefC o)) r (fmtBits (outFmt o)) fun b i j => (at_ b i j).1)
  let a := emitMoment s o 5 (fun b i j => (at_ b i j).2.1) a
  if fVeOp o = 1 then emitMoment s o 6 (fun b i j => (at_ b i j).2.2) a else a

def optStepBody : State → Op → HostReply → Res :=
  veBody (fun s o => veRanges s o (veA o).plain ++ veRanges s o (veB o).plain
    ++ veRanges s o (plainIn o (dynRows o (auxRef o 5)))
    ++ (if fVeOp o = 1 then veRanges s o (plainIn o (dynRows o (auxRef o 6))) else [])) optRun

/-- `VE.OPT_STEP` (R362). -/
def execVeOptStep (r : OpRef) (s : State) : Out := runBody 0x2B optStepBody r s

end Sys2Proof.Machine
end

