-- ==== Sys2Proof/Machine/Packet.lean ====
section
/-!
DEFINITION. The packet and the descriptor as bits: opcodes, forms and privileges (R312, R345, R347), and the reserved
fields of the packet, of the inline parameters and of the layer descriptor (R5, R311, R346, R348).
-/

namespace Sys2Proof.Machine

/-- A check of the start or of the acceptance. -/
abbrev Chk := Except Fail Unit

/-- The assigned opcodes (R345). -/
def assigned (c : Nat) : Bool :=
  (0x10 ≤ c && c ≤ 0x17) || (0x20 ≤ c && c ≤ 0x2B) || (0x30 ≤ c && c ≤ 0x35) || (0x40 ≤ c && c ≤ 0x46)
    || (0x50 ≤ c && c ≤ 0x53) || (0x60 ≤ c && c ≤ 0x6B)

/-- The opcodes of form D (R345). -/
def formD (c : Nat) : Bool :=
  (0x10 ≤ c && c ≤ 0x17) || (0x20 ≤ c && c ≤ 0x2B) || (0x31 ≤ c && c ≤ 0x34) || c == 0x42 || c == 0x43

/-- The privileged opcodes (R347). -/
def privileged (c : Nat) : Bool := c == 0x46 || c == 0x61 || c == 0x63 || c == 0x64 || (0x66 ≤ c && c ≤ 0x6B)

/-- The engine class of an opcode for ordering (R312): SY and MG are both the headstock's. -/
def classOf (c : Nat) : Nat :=
  if c / 16 = 1 then 1 else if c / 16 = 2 then 2 else if c / 16 = 3 then 3 else if c / 16 = 4 then 4 else 5

/-- Reserved runs of the inline parameters (form I, numbered from byte 44): first bit and length (R346). -/
def inlineReserved (c : Nat) : List (Nat × Nat) :=
  match c with
  | 0x30 => [(152, 8)]
  | 0x35 => [(85, 11), (142, 18)]
  | 0x40 | 0x41 => [(62, 2), (138, 22)]
  | 0x44 => [(14, 2), (122, 38)]
  | 0x45 => [(8, 152)]
  | 0x46 => [(19, 141)]
  | 0x53 => [(80, 80)]
  | 0x60 => [(81, 79)]
  | 0x61 => [(7, 1), (10, 150)]
  | 0x62 => [(18, 14), (120, 40)]
  | 0x63 => [(16, 144)]
  | 0x64 => [(64, 96)]
  | 0x65 => [(11, 53), (128, 32)]
  | 0x66 => [(55, 9), (88, 72)]
  | 0x67 => [(7, 25), (64, 96)]
  | 0x68 => [(49, 15), (80, 80)]
  | 0x6B => [(15, 145)]
  | _ => [(0, 160)]

/-- Reserved runs of the further parameters (form D, numbered from byte 52). -/
def furtherReserved (c : Nat) : List (Nat × Nat) :=
  match c with
  | 0x15 | 0x16 => [(4, 92)]
  | 0x31 => [(52, 12)]
  | 0x42 => [(65, 31)]
  | 0x43 => [(66, 30)]
  | _ => [(0, 96)]

/-- Reserved runs of the packet as a whole, its unused entries among them (R311), in packet bits. -/
def packetReserved (o : Op) : List (Nat × Nat) :=
  let c := opCode o
  [(26, 6), (34, 2), (38, 26)]
    ++ ((List.range 3).flatMap fun i =>
      if i < pNWait o then [(64 + 64 * i + 12, 4), (64 + 64 * i + 18, 14)] else [(64 + 64 * i, 64)])
    ++ ((List.range 3).flatMap fun i => if i < pNSig o then [] else [(256 + 32 * i, 32)])
    ++ (if formD c then (352 + 49, 15) :: (furtherReserved c).map fun x => (416 + x.1, x.2)
        else (inlineReserved c).map fun x => (352 + x.1, x.2))

/-- Reserved values of the used wait and signal entries (R311). -/
def entriesOk (o : Op) : Bool :=
  ((List.range (pNWait o)).all fun i => bits (waitEntry o i) 16 2 < 2)
    && ((List.range (pNSig o)).all fun i => bits (sigEntry o i) 12 4 < 2)

/-- The packet's own checks at the start: opcode (R312), privilege (R347), form (R345) and reserved fields (R5). -/
def checkPacket (s : State) (o : Op) : Chk := do
  let c := opCode o
  need (assigned c) (failPlain cBadOpcode)
  need (!privileged c || (opFunc s o) == 0) (failPlain cBadOpcode)
  need (pIndirect o == formD c) (failPlain cBadDescriptor)
  need ((packetReserved o).all fun x => bits o.packet x.1 x.2 = 0) (failPlain cBadDescriptor)
  need (entriesOk o) (failPlain cBadDescriptor)

/-- Reserved runs of the layer descriptor: word, first bit, length (R348). -/
def descReserved (c : Nat) : List (Nat × Nat × Nat) :=
  ([0, 4, 8].flatMap fun w => [(w, 54, 10), (w + 2, 16, 16), (w + 3, 40, 24)])
    ++ ((List.range 6).flatMap fun i => [(12 + i, 13, 3), (12 + i, 28, 4), (12 + i, 44, 4), (12 + i, 50, 14)])
    ++ [(19, 30, 2), (21, 57, 7), (22, 15, 1), (23, 60, 4), (24, 9, 7), (24, 29, 3), (24, 49, 15)]
    ++ (if c / 16 = 1 ∨ c = 0x27 then [(25, 60, 4), (26, 56, 8), (28, 49, 15), (30, 0, 64), (31, 0, 64)]
        else if c / 16 = 2 then [(25, 10, 22), (26, 24, 8), (28, 49, 15)]
        else [(25, 0, 64), (26, 0, 64), (27, 0, 64), (28, 49, 15), (29, 0, 64), (30, 0, 64), (31, 0, 64)])

/-- Reserved descriptor fields read zero (R5); the first that does not is the fault address (R332). -/
def checkDescReserved (o : Op) : Chk :=
  match (descReserved (opCode o)).find? fun x => fld o x.1 x.2.1 x.2.2 ≠ 0 with
  | some x => .error (badWord o x.1)
  | none => .ok ()

/-- The pointer of form D (R607, R313). -/
def checkDescPtr (o : Op) : Chk := do
  need (descPtr o % 64 = 0) (failPlain cBadDescriptor)
  need (descHost o || descPtr o + 256 ≤ hbmEnd) (failAt cAddrRange (descPtr o))

/-- `aux_ptr` (R351, R607). -/
def checkAuxPtr (o : Op) : Chk := do
  need (fAuxMask o = 0 || fAuxPtr o % 64 = 0) (badWord o 21)
  need (fAuxMask o = 0 || fAuxHost o || fAuxPtr o + 256 ≤ hbmEnd) (failAt cAddrRange (fAuxPtr o))

/-- `m_ptr` (R607). -/
def checkMPtr (o : Op) : Chk := do
  need (!fMDyn o || fMPtr o % 4 = 0) (badWord o 28)
  need (!fMDyn o || fMPtr o + 4 ≤ hbmEnd) (failAt cAddrRange (fMPtr o))

/-- An entry the command needs is present (R351). -/
def needAux (o : Op) (i : Nat) : Chk := need (bit (fAuxMask o) i) (badWord o 21)

end Sys2Proof.Machine
end

