-- ==== Sys2Proof/Machine/CheckMat.lean ====
section
/-!
DEFINITION. The checks a Matrix Engine command's start makes (R315): fields, formats, tensor references, images, tiling,
bench operand references, footprint and open sets.
-/

namespace Sys2Proof.Machine

/-! ### Formats (R28, R34, R35, R71) -/

def opndCodeOk (c : Nat) : Bool := c ≤ 0x11
def outCodeOk (c : Nat) : Bool := c ≤ 0x12 && !(0x0C ≤ c && c ≤ 0x0E)

/-- The greatest split in which a format may be held (R34); pattern formats follow R51. -/
def splitMax (f : Fmt) : Nat :=
  match f with
  | .fp32 => 0
  | .bf16 | .fp16 | .u8 => 1
  | .e4m3 | .e2m3 | .int8 | .u4 => 2
  | _ => 3

/-- Whether an operand format suits the split, held or fed (R34, R71). -/
def splitOk (split : Nat) (held : Bool) (f : Fmt) : Bool :=
  if split = 4 then f == .log8 else f != .log8 && (!held || split ≤ splitMax f)

/-- Word 18's reserved values (R70, R77, R101, R270, R348). -/
def checkWord18 (o : Op) : Chk :=
  need (fSplit o ≤ 4 && fAddgrp o != 3 && fGsize o != 3 && fAccFmt o != 3 && fGrit o ≤ 4) (badWord o 18)

/-- The epilogue's scale and bias selectors, and their vectors (R128). -/
def checkVec (o : Op) (i width n : Nat) : Chk := do
  needAux o i
  let r := auxRef o i
  need (r.rows = 1 && decide (n ≤ r.cols)) r.at_
  checkTRef r width

def checkEpiVectors (o : Op) (N : Nat) : Chk := do
  need (fEpiScale o ≤ 2 && fEpiBias o ≤ 2) (badWord o 19)
  if fEpiScale o = 2 then checkVec o 5 32 N
  if fEpiBias o = 1 then
    checkVec o 6 32 N
    need ((auxRef o 6).code = 0) (auxRef o 6).at_
  if fEpiBias o = 2 then
    checkVec o 6 16 N
    need ((auxRef o 6).code = 1) (auxRef o 6).at_

/-- A scale tensor: its reference, its batch (R44, R45), and the words it holds (DEDUCED, log 23). -/
def checkScale (o : Op) (i lines groups batch w : Nat) : Chk := do
  needAux o i
  let r := auxRef o i
  checkTRef r (8 * w)
  need (r.batch = 1 || r.batch = batch) r.at_
  let last := r.base + (r.batch - 1) * r.batchStride * 64 + lines * groups * w
  need (last ≤ hbmEnd) (failAt cAddrRange (max hbmEnd r.base))

/-- The output's scale source (R133, R354), and its words when it is calibrated. `dynOk`: `VE.QUANTIZE` (R354). -/
def checkOutScale (o : Op) (f : Fmt) (dynOk : Bool) (M N B : Nat) : Chk := do
  if !plainOut f then
    need (fSclC o ≠ 0 && (dynOk || fSclC o ≠ 1)) (badWord o 19)
    if fSclC o ≠ 3 then checkScale o 2 M (cdiv N (gOf o)) B 2

/-- A pattern operand or target names a loaded table that suits it (R51, R53). -/
def checkPatOut (s : State) (o : Op) (f : Fmt) (lathes : List Nat) : Chk :=
  if f = .pat4 ∨ f = .pat8 then checkPatTarget s lathes (fPatC o) f (badWord o 20) else .ok ()

/-- The address at a count beyond a capacity (R352). -/
def failMPtr (o : Op) : Fail := failAt cAddrRange (fMPtr o)

/-- A reference that spans M: its rows are M, or a capacity under `m_dyn` and where M is an image's (`csr`; R352, R608,
DEDUCED, log 56). -/
def checkRows (o : Op) (csr : Bool) (r : TRef) (M : Nat) : Chk :=
  if csr then need (M ≤ r.rows) r.at_
  else
    match o.mCount with
    | none => need (r.rows = M) r.at_
    | some _ => need (M ≤ r.rows) (failMPtr o)

/-- The extents of an output (R608). -/
def checkExtents (o : Op) (csr : Bool) (r : TRef) (M N B : Nat) : Chk := do
  need (r.cols = N && r.batch = B) r.at_
  checkRows o csr r M

/-! ### Product operands -/

/-- Whether A is held. -/
def heldA (o : Op) : Bool := fSerialB o

/-- An image operand: its header (R223), format (R28, R34) and pattern slot. -/
def checkOperandImage (s : State) (o : Op) (r : TRef) (held : Bool) : Chk :=
  checkImage r.base (imgHeader s r.base) fun f => opndCodeOk (fmtCode f) && splitOk (fSplit o) held f

/-- A dense operand: its format, its reference (R184). -/
def checkOperandRef (o : Op) (r : TRef) (held : Bool) : Chk := do
  need (opndCodeOk r.code && splitOk (fSplit o) held r.fmt) r.at_

/-- A product's operand A or B: format, reference, scale source and words, pattern slot (R28, R34, R51, R62, R184,
R215, R351). -/
def checkOperand (s : State) (o : Op) (isB : Bool) : Chk := do
  let r := if isB then refB o else refA o
  let csr := if isB then fCsrB o else fCsrA o
  let held := isB != heldA o
  let f := if isB then fmtB s o else fmtA s o
  let src := if isB then fSclB o else fSclA o
  let two4 := is24 o && held
  if csr then
    -- an image never passes the tailstock (R277, DEDUCED, log 65)
    need (r.inner == fSerialB o) r.at_
    checkOperandImage s o r held
  else
    checkOperandRef o r held
    checkTRef (if two4 then storedRef isB r else r) (fmtBits r.fmt)
  if two4 then
    -- a 2:4 operand never passes the tailstock (R214)
    need (r.inner == heldA o) r.at_
    needAux o 3
    need ((auxRef o 3).reserved = 0) ((auxRef o 3).atField (auxRef o 3).resWord)
    checkTRef (mtaRef o) 4
  need (!(isUFmt f && src = 1)) (badWord o 19)
  if f = .pat4 ∨ f = .pat8 then
    checkPatOperand s (usedLathes s o) (if isB then fPatB o else fPatA o) f (!held) (heldBits (fSplit o)) (badWord o 18)
  if operandScale o src f ≠ 3 then
    let p := planOf s o
    checkScale o (if isB then 1 else 0) (if isB then p.N else p.M) (cdiv p.K (gOf o)) (if isB then batchB o else batchA o)
      (scaleBytes f)

/-- The extents of A and B agree (R608); the count at `m_ptr` fits A's capacity (R352). -/
def checkAB (s : State) (o : Op) : Chk := do
  need ((extA s o).2 = (extB s o).1) (refB o).at_
  need (batchA o = 1 || batchB o = 1 || batchA o = batchB o) (refB o).at_
  match o.mCount with
  | some m => need (fCsrA o || m ≤ (refA o).rows) (failMPtr o)
  | none => .ok ()

/-! ### Tiling (R187 to R191, R196, R197) -/

def shardProduct (o : Op) : Nat := 2 ^ (fShardB o + fShardM o + fShardN o + fShardK o)

def checkTiling (s : State) (o : Op) (noSplit : Bool) : Chk := do
  need (isPerm (fOrdPod o) && isPerm (fOrdHbm o) && isPerm (fOrdBench o) && isPerm (fOrdChuck o)) (badWord o 22)
  need ((ordCodes (fOrdChuck o)).headD 0 = 3) (badWord o 22)
  need (fHbmB o ≠ 0) (badWord o 22)
  need (fHbmM o ≠ 0 && fHbmN o ≠ 0 && fHbmK o ≠ 0) (badWord o 23)
  need (1 ≤ fBtM o && fBtM o ≤ 256 && 1 ≤ fBtN o && fBtN o ≤ 4096 && 32 ≤ fBtK o && fBtK o ≤ 65536) (badWord o 24)
  need (fBtK o % gOf o = 0) (badWord o 24)
  need (fHbmK o % fBtK o = 0 && fHbmM o % fBtM o = 0 && fHbmN o % fBtN o = 0) (badWord o 23)
  need (heldBt o % sliverCols o = 0 && fedBt o % vtOf o = 0) (badWord o 24)
  need (fKpart o ≤ 4 && fShardB o ≤ 6 && fShardM o ≤ 6 && fShardN o ≤ 6 && fShardK o ≤ 6) (badWord o 22)
  need (shardProduct o ≤ podSize (podShape s)) (badWord o 22)
  need ((fKpart o = 0 && fShardK o = 0) || !noSplit) (badWord o 22)
  if sharded o then need (bit (fMembers o) (devId s) && popBelow (fMembers o) 64 = shardProduct o) (badWord o 29)

/-! ### Compressed operands (R229 to R231) -/

/-- Slices of an image with a block summary start and end on blocks (R230). -/
def checkBlocks (s : State) (o : Op) (isB : Bool) : Chk :=
  let h := imgHeader s (if isB then (refB o).base else (refA o).base)
  let p := planOf s o
  let br := 2 ^ imgBlkR h
  let bc := 2 ^ imgBlkC h
  let ok := if isB then fBtK o % br = 0 && fBtN o % bc = 0 && p.k0 % br = 0 && p.n0 % bc = 0
    else fBtM o % br = 0 && fBtK o % bc = 0 && p.m0 % br = 0 && p.k0 % bc = 0
  need (!imgHasBlk h || ok) (badWord o 24)

def checkSparse (s : State) (o : Op) : Chk := do
  if opCode o = 0x12 then
    need (fSpPath o ≠ 3) (badWord o 20)
    need (fCsrA o || fCsrB o) (badWord o 18)
    if fCsrA o then checkBlocks s o false
    if fCsrB o then checkBlocks s o true
  else need (!fCsrA o && !fCsrB o) (badWord o 18)

/-! ### Outputs -/

/-- A product's output, or the partial or records tensor in its place (R139, R357, R358, R608, R133, R135). -/
def checkOutputs (s : State) (o : Op) : Chk := do
  let p := planOf s o
  if toPartials o then
    needAux o 7
    let r := auxRef o 7
    checkTRef r (accBits (accFmt o))
    checkExtents o (fCsrA o) r p.M p.N (p.B * partials o)
  else
    let f := outFmt o
    need (outCodeOk (refC o).code) (refC o).at_
    checkEpiVectors o p.N
    need (fEpiAct o ≤ 5) (badWord o 19)
    need (fTopk o ≤ 8) (badWord o 19)
    need (fTopk o = 0 || f == .fp32 || f == .bf16 || f == .fp16) (badWord o 19)
    checkOutScale o f false p.M p.N p.B
    checkPatOut s o f (usedLathes s o)
    if fTopk o = 0 ∨ !fTopkOnly o then
      checkTRef (refC o) (fmtBits f)
      checkExtents o (fCsrA o) (refC o) p.M p.N p.B
    if fTopk o ≠ 0 then
      needAux o 7
      checkTRef (auxRef o 7) 64
      checkExtents o (fCsrA o) (auxRef o 7) p.M (cdiv p.N (sliverCols o) * fTopk o) p.B
    -- the draws' indices (R299)
    need (!fEpiRound o || p.B * p.M * p.N ≤ 2 ^ 42) (badWord o 19)

/-! ### Bench operand references of a layer (R157, R189, R207) -/

/-- A reference, its checks, and the rows it must have. -/
def checkRef (s : State) (o : Op) (b : BRef) (wmodes : List Nat) (n : Nat) : Chk := do
  if n ≠ 0 then
    checkBRef s b (usedLathes s o) wmodes
    need (n ≤ brefRows s b (usedLathes s o)) b.at_

/-- The write modes an output allows (R141, R157, DEDUCED, log 26). -/
def outModes (o : Op) : List Nat :=
  if toPartials o then (if accFmt o == .i48 then [0, 1] else [0]) else if outFmt o == .int32 then [0, 2] else [0]

/-- An operand's reference, whose slices are held dense or, where `csr` and no slice takes the dense path, compressed: that
many rows depend on the data, and R189 asks for none (R157, R189, R231). -/
def checkOpRef (s : State) (o : Op) (isB : Bool) : Chk := do
  checkBRef s (opBref o isB) (usedLathes s o) [0]
  if !opCsr o isB || someDense s o isB then checkRef s o (opBref o isB) [0] (opRows s o isB)

def checkLayerRefs (s : State) (o : Op) (withC : Bool) : Chk := do
  checkOpRef s o false
  checkOpRef s o true
  if withC then checkRef s o (brefC o) (outModes o) (rowsC o)
  checkRef s o (brefS o) [0] (rowsS s o)
  if fedCsr o then checkBRef s (chunkRef o) (usedLathes s o) [0]

/-- Whether an output through `ref_c` passes the tailstock: not when records alone are written (R274, R358). -/
def outTail (o : Op) : Bool := (refC o).inner && !(fTopk o != 0 && fTopkOnly o)

/-- The domain of the tailstock's network is ON when it is needed (R280). -/
def needTail (s : State) (o : Op) (t : Bool) : Chk :=
  need (!t || pdOn s dTail) (failAt cDomainOff (latheBase ((usedLathes s o).headD 0)))

/-- A stored direction that needs the tailstock needs its domain (R185, R274, R280). -/
def checkTailstock (s : State) (o : Op) (withC : Bool) : Chk :=
  needTail s o (opTail o false || opTail o true || (withC && !toPartials o && outTail o))

/-! ### Footprint and sets (R116 to R118, R203 to R208, R253) -/

/-- Spill rows each lathe needs (R207). -/
def spillRows (s : State) (o : Op) (p : Plan) : Nat := 64 * actualShare s o p * tileRows (accFmt o)

def checkSpill (s : State) (o : Op) (p : Plan) : Chk := do
  let b := spillRef o
  let ls := usedLathes s o
  checkBRef s b ls [0]
  need (spillRows s o p ≤ brefRows s b ls) (failAt cAccFootprint (b.addr (ls.headD 0) 0))

def checkFootprint (s : State) (o : Op) : Chk := do
  let p := planOf s o
  let F := footprint o p
  let e := failPlain cAccFootprint
  need (!fKeep o || F ≤ 4) e
  need (F ≤ 4 || fSpill o) e
  if 4 < actualShare s o p then
    need (!fKeep o) e
    checkSpill s o p

/-- A BEGIN that would leave a second open set on a spindle (R118, R253). -/
def checkNoOpen (s : State) (ps : List Placed) : Chk :=
  need ((placedSpindles ps).all fun i => (getSpindle s i).opened.isNone) (failPlain cAccFootprint)

/-- Every tile the command needs lies in the queue's open sets with the tag the descriptor implies (R116, R195). -/
def checkHeld (s : State) (o : Op) (ps : List Placed) (ts : List Held) : Chk := do
  need (openSpindles s o ≠ []) (noOpenSet s o)
  let real := ps.filter fun x => tileOutputs o (planOf s o) x.tile ≠ []
  match real.find? fun x => !(ts.any fun h => samePlace h.tile x.tile && tagsMatch s o h) with
  | some x =>
    let at_ := match ts.find? fun h => samePlace h.tile x.tile with
      | some h => h.spindle / 64
      | none => x.spindle / 64
    .error (failAt cFormatTag (latheBase at_))
  | none => .ok ()

/-- The first set on the named lathes that the queue lost, with tiles among the slots that `p` picks (R120, DEDUCED, log 55). -/
def lostTiles (s : State) (o : Op) (p : Nat → Bool) : Option LostSet :=
  s.dies.lost.find? fun x => x.q == o.q && (namedLathes o).contains (x.spindle / 64) && x.tiles.any fun t => p t.slot

/-- A spindle that holds tiles but none in some slot of `want` (R116: the empty slot's tag differs, DEDUCED, log 55). -/
def missingSlot (s : State) (o : Op) (want : List Nat) : Option Nat :=
  (openSpindles s o).find? fun i =>
    let ts := (getSpindle s i).tiles
    !ts.isEmpty && !(want.all fun j => ts.any fun t => t.slot == j)

/-- Tags of the tiles a command uses from the open sets (R116, R119, R120, R124); `want`: slots it names. -/
def checkTags (s : State) (o : Op) (want : Option (List Nat)) (ts : List Held) : Chk := do
  need (openSpindles s o ≠ []) (noOpenSet s o)
  let fail := fun i => Except.error (failAt cFormatTag (latheBase (i / 64)))
  match lostTiles s o fun j => match want with | some w => w.contains j | none => true with
  | some x => fail x.spindle
  | none => .ok ()
  match want.bind (missingSlot s o) with
  | some i => fail i
  | none => .ok ()
  match ts.find? fun h => !tagsMatch s o h with
  | some h => .error (badTag h)
  | none => .ok ()

/-- What a command asks of the open sets: at its start, and again before it presents a step, since a command of another
queue may have changed them in between (R116, R118, R119, R253, R261). -/
def checkSets (s : State) (o : Op) : Chk :=
  match opCode o with
  | 0x13 => checkNoOpen s (placement s o (planOf s o))
  | 0x14 => do
    need (openSpindles s o ≠ []) (noOpenSet s o)
    match (openSpindles s o).find? fun i =>
        (match (getSpindle s i).opened with | some w => w.rough ≠ some (inl o 0 49) | none => true) with
    | some i => if (roughTiles s o).isEmpty then .error (failAt cFormatTag (latheBase (i / 64))) else .ok ()
    | none => .ok ()
    checkHeld s o (placement s o (planOf s o)) (roughTiles s o)
  | 0x15 => checkTags s o (some ((List.range 4).filter (bit (fSlots o)))) ((heldTiles s o).filter fun h => bit (fSlots o) h.tile.slot)
  | 0x16 =>
    let named := (usedLathes s o).flatMap fun l => (spindlesUp s l).map fun i => 64 * l + i
    let is := if openSpindles s o = [] then named else accWriteSpindles s o
    need (is.all fun i => match (getSpindle s i).opened with
      | none => true
      | some w => w.q == o.q && w.rough.isNone) (failPlain cAccFootprint)
  | 0x17 => checkTags s o none (heldTiles s o)
  | _ =>
    let ps := placement s o (planOf s o)
    if fContinue o then checkHeld s o ps (resolveTiles o (slivers s o (planOf s o)) (heldTiles s o))
    else if fKeep o then checkNoOpen s ps
    else .ok ()

/-! ### The commands -/

/-- What every product, roughing and finishing command checks. -/
def checkLayer (s : State) (o : Op) (noSplit withC : Bool) : Chk := do
  checkMesh s o
  need (fMapMode o ≤ 1) (badWord o 20)
  checkWord18 o
  need (fSplit o ≠ 4 || opCode o = 0x10) (badWord o 18)
  checkSparse s o
  checkOperand s o false
  checkOperand s o true
  checkAB s o
  checkTiling s o noSplit
  checkLayerRefs s o withC
  checkTailstock s o withC

/-- `MM.DENSE`, `MM.SPARSE24`, `MM.CSR`. -/
def checkProduct (s : State) (o : Op) : Chk := do
  checkLayer s o (fKeep o || fContinue o) true
  checkOutputs s o
  if o.mCount ≠ some 0 then
    checkFootprint s o
    checkSets s o

/-- Prediction fields (R251, R252, R264, R269, R270). -/
def checkPredict (o : Op) : Chk := do
  need (fSplit o ≠ 4 && fAccFmt o ≠ 2) (badWord o 18)
  need (1 ≤ fRough o && fRough o ≤ 8 && fSkipFill o ≠ 3) (badWord o 25)
  need (f32Val (fThresh o) ≠ .nan) (badWord o 26)
  need (gritOf o ≠ 0 || (!fEstimate o && !fAttEn o)) (badWord o 25)
  need (!fAttEn o || fSkipFill o = 2) (badWord o 25)
  need (fSkipFill o ≠ 2 || (refC o).code ≤ 2) (badWord o 25)

/-- `MM.ROUGH` (R252 to R259). -/
def checkRough (s : State) (o : Op) : Chk := do
  checkLayer s o true false
  checkPredict o
  let p := planOf s o
  checkEpiVectors o p.N
  needAux o 4
  checkTRef (auxRef o 4) 2
  checkExtents o (fCsrA o) (auxRef o 4) p.M p.N p.B
  if fKnotRef o ≠ 0 then checkKnots s o (fKnotRef o)
  if o.mCount ≠ some 0 then
    need (footprint o p ≤ 2 && actualShare s o p ≤ 2) (failPlain cAccFootprint)
    checkSets s o

/-- `MM.FINISH` (R261 to R264). -/
def checkFinish (s : State) (o : Op) : Chk := do
  checkLayer s o true true
  checkPredict o
  checkEpiVectors o (planOf s o).N
  checkOutputs s o
  if o.mCount ≠ some 0 then
    checkSets s o

/-- What `MM.ACC_READ` and `MM.ACC_WRITE` share (R356). -/
def checkAcc (s : State) (o : Op) (wmodes : List Nat) : Chk := do
  checkMesh s o
  checkWord18 o
  need (fSplit o ≠ 4) (badWord o 18)
  need (fSlots o ≠ 0) (failPlain cBadDescriptor)
  let b := brefC o
  let ls := usedLathes s o
  checkBRef s b ls wmodes
  need (256 * tileRows (accFmt o) ≤ brefRows s b ls) (failAt cAccFootprint (b.addr (ls.headD 0) 0))

def checkAccRead (s : State) (o : Op) : Chk := do
  checkAcc s o (if accFmt o == .i48 then [0, 1] else [0])
  checkSets s o

/-- `MM.ACC_WRITE` (R125): no spindle it acts on holds another queue's set, or the one `MM.ROUGH` left. -/
def checkAccWrite (s : State) (o : Op) : Chk := do
  checkAcc s o [0]
  checkSets s o

/-- `MM.DRAIN` (R119, R355). -/
def checkDrain (s : State) (o : Op) : Chk := do
  checkMesh s o
  checkWord18 o
  need (fSplit o ≠ 4) (badWord o 18)
  let p := drainPlan o
  if fDefer o then
    needAux o 7
    checkTRef (auxRef o 7) (accBits (accFmt o))
  else
    let f := outFmt o
    need (outCodeOk (refC o).code) (refC o).at_
    checkEpiVectors o p.N
    need (fEpiAct o ≤ 5 && fTopk o ≤ 8) (badWord o 19)
    need (fTopk o = 0 || f == .fp32 || f == .bf16 || f == .fp16) (badWord o 19)
    checkOutScale o f false p.M p.N p.B
    checkPatOut s o f (usedLathes s o)
    if fTopk o = 0 ∨ !fTopkOnly o then checkTRef (refC o) (fmtBits f)
    if fTopk o ≠ 0 then
      needAux o 7
      checkTRef (auxRef o 7) 64
      checkExtents o false (auxRef o 7) p.M (cdiv p.N (sliverCols o) * fTopk o) p.B
    need (!fEpiRound o || p.B * p.M * p.N ≤ 2 ^ 42) (badWord o 19)
  checkRef s o (brefC o) (if fDefer o then (if accFmt o == .i48 then [0, 1] else [0])
    else if outFmt o == .int32 then [0, 2] else [0]) 1
  needTail s o (!fDefer o && outTail o)
  checkSets s o

/-- The start checks of a Matrix Engine opcode. -/
def checkMatrix (s : State) (o : Op) : Chk :=
  match opCode o with
  | 0x13 => checkRough s o
  | 0x14 => checkFinish s o
  | 0x15 => checkAccRead s o
  | 0x16 => checkAccWrite s o
  | 0x17 => checkDrain s o
  | _ => checkProduct s o

end Sys2Proof.Machine
end

