-- ==== Sys2Proof/Machine/CheckVec.lean ====
section
/-!
DEFINITION. The checks a Vector Engine command's start makes (R315, R359 to R362, R608, R609).
-/

namespace Sys2Proof.Machine

/-- A line of `width`-bit elements fits its bench operand reference (R359, R157). -/
def checkLine (s : State) (o : Op) (b : BRef) (r : TRef) (width : Nat) (wmodes : List Nat) : Chk :=
  checkRef s o b wmodes (max 1 (cdiv (lineBytesW width r.perLine) 512))

/-- An input tensor of element width `width` with rows M or, under `m_dyn`, a capacity. -/
def checkVeRef (o : Op) (r : TRef) (width : Nat) (spansM : Bool) : Chk := do
  checkTRef r width
  match o.mCount with
  | some m => need (!spansM || m ≤ r.rows) (failMPtr o)
  | none => .ok ()

/-- An input of elements: format, reference, pattern slot, and its line on the bench. -/
def checkIn (s : State) (o : Op) (isB : Bool) : Chk := do
  let r := if isB then refB o else refA o
  need (opndCodeOk r.code) r.at_
  checkVeRef o r (fmtBits r.fmt) true
  if r.fmt = .pat4 ∨ r.fmt = .pat8 then
    checkPatOperand s (usedLathes s o) (if isB then fPatB o else fPatA o) r.fmt false 24 (badWord o 18)
  checkLine s o (if isB then brefB o else brefA o) r (fmtBits r.fmt) [0]

/-- The scale words of an input of `VE.ELEMENTWISE` (R360: when scaled). -/
def checkInScale (_ : State) (o : Op) (isB : Bool) : Chk := do
  let r := if isB then refB o else refA o
  let src := if isB then fSclB o else fSclA o
  need (!(isUFmt r.fmt && src = 1)) (badWord o 19)
  if operandScale o src r.fmt ≠ 3 then
    checkScale o (if isB then 1 else 0) r.rows (cdiv r.cols (gOf o)) r.batch (scaleBytes r.fmt)

/-- A row whose sum R285 orders lies within one bench: the lines of an inner-first input are its columns, dealt to every
lathe in turn. -/
def checkRow (s : State) (o : Op) (isB : Bool) : Chk :=
  let r := opRef o isB
  need (!r.inner || r.cols ≤ 1 || (usedLathes s o).length ≤ 1) r.at_

/-- The group size is read where something is scaled (R349). -/
def checkGroup (o : Op) (scaled : Bool) : Chk := need (!scaled || fGsize o != 3) (badWord o 18)

/-- Whether an output of `f` reads scale words. -/
def outScaled (o : Op) (f : Fmt) : Bool := !plainOut f && fSclC o != 3

/-- An element output: format, reference, extents, scale, pattern table, its line, and its draws (R299, R608). -/
def checkOut (s : State) (o : Op) (N : Nat) : Chk := do
  let r := refC o
  let f := outFmt o
  need (outCodeOk r.code) r.at_
  checkTRef r (fmtBits f)
  checkExtents o false r (veM o) N (refA o).batch
  checkOutScale o f false (veM o) N (refA o).batch
  checkPatOut s o f (usedLathes s o)
  checkLine s o (brefC o) r (fmtBits f) (if f == .int32 then [0, 2] else [0])

def checkDraws (o : Op) (n : Nat) : Chk := need (n ≤ 2 ^ 42) (badWord o 19)

/-- A raw output of `width` bits (records, statistics, partials). -/
def checkRaw (o : Op) (r : TRef) (width M N B : Nat) : Chk := do
  checkTRef r width
  checkExtents o false r M N B

/-- Whether `VE.ELEMENTWISE` draws (R294, R303). -/
def elementDraws (o : Op) : Bool := fVeOp o == 6 || fEpiRound o

def checkElementwise (s : State) (o : Op) : Chk := do
  need (fVeOp o ≤ 8) (badWord o 25)
  let scaled := fun isB => operandScale o (opScl o isB) (opRef o isB).fmt != 3
  checkGroup o (scaled false || (elementwiseB (fVeOp o) && scaled true) || outScaled o (outFmt o))
  need (fVeOp o ≠ 5 || fEpiAct o ≤ 5) (badWord o 19)
  checkIn s o false
  checkInScale s o false
  if elementwiseB (fVeOp o) then
    checkIn s o true
    checkInScale s o true
    need ((refB o).rows = (refA o).rows && (refB o).batch = (refA o).batch
      && (refB o).cols = (if fVeOp o = 8 then 1 else (refA o).cols)) (refB o).at_
  checkOut s o (refA o).cols
  if elementDraws o then checkDraws o ((refA o).batch * veM o * (refA o).cols)

def checkReduce (s : State) (o : Op) : Chk := do
  need (fVeOp o ≤ 2) (badWord o 25)
  checkIn s o false
  if fVeOp o ≠ 1 then checkRow s o false
  need ((refC o).code = 0) (refC o).at_
  checkRaw o (refC o) 32 (veM o) 1 (refA o).batch
  checkLine s o (brefC o) (refC o) 32 [0]

def checkSoftmax (s : State) (o : Op) : Chk := do
  checkRow s o false
  checkGroup o (!fVeSub o && outScaled o (outFmt o))
  if fVeSub o then
    checkVeRef o (refA o) 64 true
    checkLine s o (brefA o) (refA o) 64 [0]
    checkRaw o (refC o) 64 (veM o) (refA o).cols (refA o).batch
    checkLine s o (brefC o) (refC o) 64 [0]
  else
    checkIn s o false
    checkOut s o (refA o).cols

def checkSame (o : Op) : Chk :=
  need ((refB o).rows = (refA o).rows && (refB o).cols = (refA o).cols && (refB o).batch = (refA o).batch) (refB o).at_

def checkSoftmaxBwd (s : State) (o : Op) : Chk := do
  checkIn s o false
  checkIn s o true
  checkSame o
  checkRow s o false
  checkRow s o true
  checkGroup o (outScaled o (outFmt o))
  checkOut s o (refA o).cols

/-- A tensor of elements in the reference block; a pattern table is that of `pat_c` (DESIGN CHOICE, log 63). -/
def checkEntry (s : State) (o : Op) (i : Nat) : Chk := do
  needAux o i
  let r := auxRef o i
  need (opndCodeOk r.code) r.at_
  if r.fmt = .pat4 ∨ r.fmt = .pat8 then
    checkPatOperand s (usedLathes s o) (fPatC o) r.fmt false 24 (badWord o 20)

/-- A γ or β vector of elements (R350). -/
def checkGain (s : State) (o : Op) (i : Nat) : Chk := do
  checkEntry s o i
  let r := auxRef o i
  checkVec o i (fmtBits r.fmt) (refA o).cols

/-- The statistics records: one per row (R287). -/
def checkStats (o : Op) : Chk := do
  needAux o 3
  checkRaw o (auxRef o 3) 64 (veM o) 1 (refA o).batch

def checkNorm (s : State) (o : Op) : Chk := do
  checkIn s o false
  checkRow s o false
  checkGroup o (outScaled o (outFmt o))
  checkGain s o 5
  checkGain s o 6
  checkStats o
  checkOut s o (refA o).cols

def checkNormBwd (s : State) (o : Op) : Chk := do
  checkIn s o false
  checkIn s o true
  checkSame o
  checkRow s o false
  checkRow s o true
  checkGroup o (outScaled o (outFmt o))
  checkGain s o 5
  checkStats o
  let n := (refA o).batch * cdiv (veM o) (fRowPart o)
  needAux o 4
  checkTRef (auxRef o 4) 64
  need ((auxRef o 4).rows = 1 && (auxRef o 4).cols = (refA o).cols && (auxRef o 4).batch = n) (auxRef o 4).at_
  needAux o 6
  checkTRef (auxRef o 6) 64
  need ((auxRef o 6).rows = 1 && (auxRef o 6).cols = (refA o).cols && (auxRef o 6).batch = n) (auxRef o 6).at_
  checkOut s o (refA o).cols

/-- The batch of `ref_a` is a multiple of the output's (R360). -/
def checkSumPartials (s : State) (o : Op) : Chk := do
  need (fSplit o ≤ 3 && fAccFmt o != 3) (badWord o 18)
  checkGroup o (!fDefer o && outScaled o (outFmt o))
  needTail s o (!fDefer o && outTail o)
  let w := accBits (accFmt o)
  checkVeRef o (refA o) w true
  checkLine s o (brefA o) (refA o) w [0]
  if fDefer o then
    needAux o 7
    checkTRef (auxRef o 7) w
  let r := sumRef o
  need (r.batch ≠ 0 && (refA o).batch % r.batch = 0) (refA o).at_
  let M := veM o
  let N := (refA o).cols
  if fDefer o then
    checkExtents o false r M N r.batch
    checkLine s o (brefC o) r w (if accFmt o == .i48 then [0, 1] else [0])
  else
    let f := outFmt o
    need (outCodeOk (refC o).code) (refC o).at_
    checkEpiVectors o N
    need (fEpiAct o ≤ 5 && fTopk o ≤ 8) (badWord o 19)
    need (fTopk o = 0 || f == .fp32 || f == .bf16 || f == .fp16) (badWord o 19)
    checkOutScale o f false M N r.batch
    checkPatOut s o f (usedLathes s o)
    if fTopk o = 0 ∨ !fTopkOnly o then
      checkTRef r (fmtBits f)
      checkExtents o false r M N r.batch
      checkLine s o (brefC o) r (fmtBits f) (if f == .int32 then [0, 2] else [0])
    if fTopk o ≠ 0 then
      needAux o 7
      checkRaw o (auxRef o 7) 64 M (cdiv N (sliverCols o) * fTopk o) r.batch
    if fEpiRound o then checkDraws o (r.batch * M * N)

/-- `VE.KNOT_FIX` (R360): the operands as the product took them, one partial per batch item, the list (R57). -/
def checkKnotFix (s : State) (o : Op) : Chk := do
  -- of word 18 it reads no adder grouping and no grit level (R349)
  need (fSplit o ≤ 3 && fGsize o != 3 && fAccFmt o != 3) (badWord o 18)
  checkOperand s o false
  checkOperand s o true
  checkAB s o
  need (fKnotRef o ≠ 0) (badWord o 25)
  let p := planOf s o
  needAux o 7
  checkTRef (auxRef o 7) (accBits (accFmt o))
  checkExtents o (fCsrA o) (auxRef o 7) p.M p.N p.B
  checkKnots s o (fKnotRef o)
  let line := fun isB => if opCsr o isB then checkBRef s (opBref o isB) (usedLathes s o) [0]
    else checkLine s o (opBref o isB) (opRef o isB) (fmtBits (opRef o isB).fmt) [0]
  line false
  line true

/-- Formats of R609: targets and inputs of `VE.AMAX` and `VE.QUANTIZE`. -/
def quantTarget (c : Nat) : Bool := (3 ≤ c && c ≤ 0x0B) || c == 0x10 || c == 0x11
def quantInput (c : Nat) : Bool := c ≤ 0x0B

def checkAmax (s : State) (o : Op) : Chk := do
  need (fGsize o ≠ 3) (badWord o 18)
  need (quantInput (refA o).code) (refA o).at_
  need (quantTarget (refC o).code) (refC o).at_
  checkIn s o false
  checkPatOut s o (outFmt o) (usedLathes s o)
  checkScale o 2 (veM o) (cdiv (refA o).cols (gOf o)) (refA o).batch 2

def checkQuantize (s : State) (o : Op) : Chk := do
  checkGroup o (outScaled o (outFmt o))
  need (quantInput (refA o).code) (refA o).at_
  need (quantTarget (refC o).code) (refC o).at_
  checkIn s o false
  let r := refC o
  checkTRef r (fmtBits r.fmt)
  checkExtents o false r (veM o) (refA o).cols (refA o).batch
  checkOutScale o r.fmt true (veM o) (refA o).cols (refA o).batch
  checkPatOut s o r.fmt (usedLathes s o)
  checkLine s o (brefC o) r (fmtBits r.fmt) [0]
  if fEpiRound o then checkDraws o ((refA o).batch * veM o * (refA o).cols)

def checkTopk (s : State) (o : Op) : Chk := do
  need (1 ≤ fTopk o && fTopk o ≤ 8) (badWord o 19)
  checkVeRef o (refA o) 64 true
  checkLine s o (brefA o) (refA o) 64 [0]
  checkRaw o (refC o) 64 (veM o) (fTopk o) (refA o).batch
  checkLine s o (brefC o) (refC o) 64 [0]

/-- A moment tensor: a format that is both read and written, the extents of w (R28, R362). -/
def checkMoment (s : State) (o : Op) (i : Nat) : Chk := do
  checkEntry s o i
  let r := auxRef o i
  need (outCodeOk r.code) r.at_
  checkPatOut s o r.fmt (usedLathes s o)
  checkTRef r (fmtBits r.fmt)
  checkExtents o false r (veM o) (refA o).cols (refA o).batch

def checkOptStep (s : State) (o : Op) : Chk := do
  need (fVeOp o ≤ 1) (badWord o 25)
  checkIn s o false
  checkIn s o true
  checkSame o
  checkGroup o (outScaled o (outFmt o))
  checkMoment s o 5
  if fVeOp o = 1 then checkMoment s o 6
  checkOut s o (refA o).cols
  if fEpiRound o then checkDraws o ((refA o).batch * veM o * (refA o).cols)

/-- The start checks of a Vector Engine opcode; every one names lathes (R196). -/
def checkVector (s : State) (o : Op) : Chk := do
  checkMesh s o
  match opCode o with
  | 0x20 => checkElementwise s o
  | 0x21 => checkReduce s o
  | 0x22 => checkSoftmax s o
  | 0x23 => checkSoftmaxBwd s o
  | 0x24 => checkNorm s o
  | 0x25 => checkNormBwd s o
  | 0x26 => checkSumPartials s o
  | 0x27 => checkKnotFix s o
  | 0x28 => checkAmax s o
  | 0x29 => checkQuantize s o
  | 0x2A => checkTopk s o
  | _ => checkOptStep s o

end Sys2Proof.Machine
end

