-- ==== Sys2Proof/Machine/Land.lean ====
section
/-!
DEFINITION. How bytes land: transfers into HBM, bench rows, circular regions, the region table and host memory, piece
by piece, with their tally bindings (R150 to R154, R166 to R176). Copy Engine commands and fabric arrivals use it.
-/

namespace Sys2Proof.Machine

/-- A destination: a device address, a circular region, or a host bus address of a function. -/
inductive Dst where
  | dev (a : Nat)
  | region (l k : Nat)
  | host (fn a : Nat)
  deriving DecidableEq, Repr

/-- Cut a range of `len` bytes at the multiples of `unit` of its addresses: offsets and lengths. `fuel` bounds the
number of pieces. -/
def cutAt (base unit : Nat) : Nat → Nat → Nat → List (Nat × Nat)
  | 0, _, _ => []
  | fuel + 1, off, len =>
    if len = 0 then []
    else
      let n := min len (unit - (base + off) % unit)
      (off, n) :: cutAt base unit fuel (off + n) (len - n)

def isTable (a : Nat) : Bool := regionBase ≤ a && a < regionEnd

/-- The first address of a device range that lies in no memory. -/
def rangeFault (a n : Nat) : Option Nat :=
  let within := fun lo hi => lo ≤ a && a < hi
  if n = 0 then none
  else if within 0 hbmEnd then (if a + n ≤ hbmEnd then none else some hbmEnd)
  else if within benchBase benchEnd || within regionBase regionEnd then (if a + n ≤ regionEnd then none else some regionEnd)
  else some a

/-- The pieces of a destination. -/
def pieces (d : Dst) (len : Nat) : List (Nat × Nat) :=
  match d with
  | .dev a =>
    if isBench a && regionBase < a + len then
      let n := regionBase - a
      cutAt a 512 (n / 512 + 2) 0 n ++ cutAt a 16 ((len - n) / 16 + 2) n (len - n)
    else
      let u := if isHbm a then 4096 else if isTable a then 16 else 512
      cutAt a u (len / u + 2) 0 len
  | .region _ _ => cutAt 0 512 (len / 512 + 2) 0 len
  | .host _ a => cutAt a 4096 (len / 4096 + 2) 0 len

/-- The check of an enable write: slots non-zero and the region within the bench (R166). -/
def regionFits (v : Nat) : Bool :=
  bits v 16 12 != 0 && decide (bits v 0 12 + bits v 16 12 * (bits v 32 8 + 1) ≤ 4096)

/-- The address of region entry `k` of a lathe (R165). -/
def regionAddr (l k : Nat) : Nat := regionBase + l * 0x400 + k * 0x10

/-- A parity error of a region's entry goes when the entry is written (R490). -/
def dropRegionUpset (s : State) (l k : Nat) : State :=
  { s with mems := { s.mems with upsets := s.mems.upsets.filter fun x => x != .region l k } }

/-- Whether a region's entry holds a parity error (R490). -/
def regionBad (s : State) (l k : Nat) : Bool := s.mems.upsets.contains (.region l k)

/-- Write the low word of a region entry: the new state, or none where the write is dropped (R165, R166). -/
def regionWrite (s : State) (l k v : Nat) : Option State :=
  if bit v 46 then
    if regionFits v then
      some (setRegion (dropRegionUpset s l k) l k ⟨BitVec.ofNat 12 (bits v 0 12), BitVec.ofNat 12 (bits v 16 12), BitVec.ofNat 8 (bits v 32 8),
        BitVec.ofNat 6 (bits v 40 6), true, 0#12, 0#12, 0#12, []⟩)
    else none
  else
    let r := getRegion s l k
    some (setRegion (dropRegionUpset s l k) l k { r with
      base := BitVec.ofNat 12 (bits v 0 12), slots := BitVec.ofNat 12 (bits v 16 12)
      slotRowsM1 := BitVec.ofNat 8 (bits v 32 8), readersM1 := BitVec.ofNat 6 (bits v 40 6), enable := false })

/-- A transfer in progress: its state, flags, error, and the tally it bears (R172): 0 none, 1 ROW, 2 TRANSFER, 3
SLOT. -/
structure Land where
  s : State
  flags : BitVec 8 := 0#8
  err : Option Fail := none
  tally : Nat := 0
  tunit : Nat := 0

/-- Count an arrival unit that has committed (R173). -/
def Land.count (x : Land) (u : Nat) : Land := if x.tunit = u then { x with s := addTally x.s x.tally 1 } else x

def Land.fail (x : Land) (e : Fail) : Land := { x with err := some e }

/-- A refused arrival (R334). -/
def Land.refuse (x : Land) (e : Fail) : Land := x.fail { e with arrival := true }

/-- Commit bytes into one bench row (R151, R154, R175). -/
def landRow (x : Land) (wmode a : Nat) (bytes : List Byte) : Land :=
  match refusedIn x.s true a (max 1 bytes.length) with
  | some y => x.refuse (failAt cDomainOff y)
  | none =>
    let row := a / 512 * 512
    if wmode = 0 then ({ x with s := rowCommit x.s row (a % 512) bytes } : Land).count 1
    else
      match rowAccumulate x.s row (a % 512) wmode bytes with
      | (s, f, some e) => ({ x with s := s, flags := x.flags ||| f } : Land).refuse e
      | (s, f, none) => ({ x with s := s, flags := x.flags ||| f } : Land).count 1

/-- The bytes of the region table at an address (R165). -/
def tableBytes (s : State) (a n : Nat) : List Byte :=
  (List.range n).map fun i =>
    let off := a + i - regionBase
    let r := getRegion s (off / 0x400) (off % 0x400 / 0x10)
    let w := r.base.toNat + r.slots.toNat * 2 ^ 16 + r.slotRowsM1.toNat * 2 ^ 32 + r.readersM1.toNat * 2 ^ 40
      + b2n r.enable * 2 ^ 46 + r.head.toNat * 2 ^ 48 + r.tail.toNat * 2 ^ 64 + r.fill.toNat * 2 ^ 80
    BitVec.ofNat 8 (w >>> (8 * (off % 0x10)))

/-- Write bytes of a region's entry: a write that reaches its low word is an entry write, with the bytes it does not reach as
they were (R166, R569). One that has to read a word of wrong parity fails (R490). -/
def landEntry (x : Land) (l k a : Nat) (bytes : List Byte) : Land :=
  let i := a % 16
  let old := tableBytes x.s (regionAddr l k) 8
  let new := old.take i ++ bytes ++ old.drop (i + bytes.length)
  if 8 ≤ i then x
  else if regionBad x.s l k && !(i = 0 && 8 ≤ bytes.length) then
    ({ x with s := countUncorr x.s false } : Land).fail (failAt cEcc (regionAddr l k))
  else
    match regionWrite x.s l k (leNat (new.take 8)) with
    | some s => { x with s := s }
    | none => x.fail (failAt cBadDescriptor (regionAddr l k))

/-- Land one piece. For a region, a push begins at a slot's first row and ends at its last or the transfer's (R167,
R169, DEDUCED, log 29). An entry of the region table is written while its lathe's pair is ON (DESIGN CHOICE, log 64). -/
def landPiece (d : Dst) (wmode len : Nat) (x : Land) (off : Nat) (bytes : List Byte) : Land :=
  match d with
  | .host fn a =>
    if (getFunc x.s fn).busMaster then { x with s := hostWrite x.s fn (a + off) bytes true } else x.fail (hostRefusal false (a + off))
  | .dev a =>
    let a := a + off
    if let some y := rangeFault a bytes.length then x.fail (failAt cAddrRange y)
    else if isHbm a then
      match hbmWrite x.s a bytes with
      | (s, f, some e) => { x with s := s, flags := x.flags ||| f, err := some e }
      | (s, f, none) => { x with s := s, flags := x.flags ||| f }
    else if isTable a then
      let l := (a - regionBase) / 0x400
      let k := (a - regionBase) % 0x400 / 0x10
      if !latheUp x.s l then x.fail (failAt cDomainOff a) else landEntry x l k a bytes
    else landRow x wmode a bytes
  | .region l k =>
    let r := getRegion x.s l k
    let per := r.slotRowsM1.toNat + 1
    let i := off / 512 % per
    let base := slotAddr l r r.tail.toNat
    if !addrServed x.s true (latheBase l) then x.refuse (failAt cDomainOff (base + 512 * i))
    else if !r.enable then x.fail (failAt cBadDescriptor (regionAddr l k))
    else if i = 0 ∧ r.slots.toNat ≤ r.fill.toNat then x.refuse (failAt cOverrun base)
    else
      let y := landRow x wmode (base + 512 * i) bytes
      match y.err with
      | some _ => y
      | none =>
        if i + 1 = per ∨ off + bytes.length = len then
          let z := (List.range (per - 1 - i)).foldl (fun z j =>
            match z.err with
            | some _ => z
            | none => landRow z wmode (base + 512 * (i + 1 + j)) []) y
          match z.err with
          | some _ => z
          | none => ({ z with s := setRegion z.s l k (pushed (getRegion z.s l k)) } : Land).count 3
        else y

/-- Land a whole transfer whose pieces come from `src`, piece by piece, up to the first refusal (DEDUCED, log 57). -/
def landAll (d : Dst) (wmode len : Nat) (src : State → Nat → Nat → State × BitVec 8 × Except Fail (List Byte)) :
    List (Nat × Nat) → Land → Land
  | [], x => x.count 2
  | (off, n) :: rest, x =>
    match src x.s off n with
    | (s, f, .error e) => { x with s := s, flags := x.flags ||| f, err := some e }
    | (s, f, .ok bytes) =>
      let y := landPiece d wmode len { x with s := s, flags := x.flags ||| f } off bytes
      match y.err with
      | some _ => y
      | none => landAll d wmode len src rest y

/-- A source in device memory at an address, by a narrow requester. The region table of a lathe is served as long as its bench's
reads are (R473, R569; DESIGN CHOICE, log 64). -/
def srcDev (a : Nat) (s : State) (off n : Nat) : State × BitVec 8 × Except Fail (List Byte) :=
  let a := a + off
  if let some y := rangeFault a n then (s, 0#8, .error (failAt cAddrRange y))
  else if isTable a then
    let l := (a - regionBase) / 0x400
    if regionBad s l ((a - regionBase) % 0x400 / 0x10) then (countUncorr s false, 0#8, .error (failAt cEcc a))
    else if addrServed s false (latheBase l) then (s, 0#8, .ok (tableBytes s a n)) else (s, 0#8, .error (failAt cDomainOff a))
  else
    match devRead s a n with
    | (s', f, .ok b) => (if isHbm a then countHbm s' false (unitsOf a n) else s', f, .ok b)
    | x => x

/-- A source in host memory. -/
def srcHost (fn : Nat) (h : HostReply) (a : Nat) (s : State) (off n : Nat) : State × BitVec 8 × Except Fail (List Byte) :=
  match hostFault s fn h (a + off) n with
  | some e => (s, 0#8, .error e)
  | none => (s, 0#8, .ok (hostBytes s fn (a + off) n))

/-- The first address of a bench row. -/
def rowOf (a : Nat) : Nat := a / 512 * 512

/-- Bytes of a region's slot. -/
def slotBytes (r : Region) : Nat := (r.slotRowsM1.toNat + 1) * 512

/-- The slots, counted from the one that was head at the start, that bytes `off` up to `off + n` of a drain lie in. -/
def drainSlotsOf (per off n : Nat) : List Nat :=
  (List.range ((off + n - 1) / per - off / per + 1)).map (off / per + ·)

/-- The address of byte `i` of a drain that began at slot `h0`. -/
def drainAddr (l : Nat) (r : Region) (h0 i : Nat) : Nat :=
  slotAddr l r (ringNext r h0 (i / slotBytes r)) + i % slotBytes r

/-- The slots whose last byte, or the transfer's, lies before byte `e` of a drain. -/
def drained (per e len : Nat) (ks : List Nat) : List Nat := ks.filter fun j => (j + 1) * per ≤ e || e = len

/-- Consume slots, counted from slot `h0`. -/
def consumeSlots (s : State) (l k h0 : Nat) (ks : List Nat) : State :=
  setRegion s l k ((ks.map (ringNext (getRegion s l k) h0)).foldl consumed (getRegion s l k))

/-- A source that drains a circular region in ring order, from the slot `h0` that was head at its start, when `fill0` slots
were filled (R168, R169). A slot's consuming read is made when its last byte, or the transfer's, has been read. -/
def srcRegion (l k h0 fill0 len : Nat) (s : State) (off n : Nat) : State × BitVec 8 × Except Fail (List Byte) :=
  let r := getRegion s l k
  let ks := drainSlotsOf (slotBytes r) off n
  if !r.enable then (s, 0#8, .error (failAt cBadDescriptor (regionAddr l k)))
  else
    match ks.find? fun j => decide (fill0 ≤ j) with
    | some j =>
      (consumeSlots s l k h0 (ks.takeWhile (· < j)), 0#8, .error (failAt cUnderrun (slotAddr l r (ringNext r h0 j))))
    | none =>
      match refusedIn s false (drainAddr l r h0 off) 1 with
      | some y => (s, 0#8, .error (failAt cDomainOff y))
      | none =>
        match guardUnits s (((List.range n).map fun i => rowOf (drainAddr l r h0 (off + i))).dedup) with
        | (s', f, some e) => (s', f, .error e)
        | (s', f, none) =>
          (consumeSlots s' l k h0 (drained (slotBytes r) (off + n) len ks), f,
            .ok ((List.range n).map fun i => devByte s' (drainAddr l r h0 (off + i))))

end Sys2Proof.Machine
end

