-- ==== Sys2Proof/Machine/Copy.lean ====
section
/-!
DEFINITION. The Copy Engine commands (R244 to R247, R268, R363 to R366).
-/

namespace Sys2Proof.Machine

/-! ### CE.COPY and CE.FILL (R363, R364) -/

def cpSrc (o : Op) : Nat := inl o 0 48
def cpDst (o : Op) : Nat := inl o 48 48
def cpLen (o : Op) : Nat := inl o 96 36
def cpSrcHost (o : Op) : Bool := bit o.packet (352 + 132)
def cpDstHost (o : Op) : Bool := bit o.packet (352 + 133)
def cpTally (o : Op) : Nat := inl o 134 12
def cpTunit (o : Op) : Nat := inl o 146 2
def cpWmode (o : Op) : Nat := inl o 148 2
def cpSrcRegion (o : Op) : Bool := bit o.packet (352 + 150)
def cpDstRegion (o : Op) : Bool := bit o.packet (352 + 151)

/-- The lathe and region of a region address: a lathe's bench base plus k (R363). -/
def regionLathe (a : Nat) : Nat := latheOf a
def regionK (a : Nat) : Nat := a % 64

/-- The destination of a copy. -/
def cpDest (s : State) (o : Op) : Dst :=
  if cpDstRegion o then .region (regionLathe (cpDst o)) (regionK (cpDst o))
  else if cpDstHost o then .host (opFunc s o) (cpDst o)
  else .dev (cpDst o)

/-- The source of a copy; a region is drained from the slot at head when the copy begins (R168). -/
def cpSource (s0 : State) (o : Op) (h : HostReply) :
    State → Nat → Nat → State × BitVec 8 × Except Fail (List Byte) :=
  if cpSrcRegion o then
    let l := regionLathe (cpSrc o)
    let k := regionK (cpSrc o)
    srcRegion l k (getRegion s0 l k).head.toNat (getRegion s0 l k).fill.toNat (cpLen o)
  else if cpSrcHost o then srcHost (opFunc s0 o) h (cpSrc o)
  else srcDev (cpSrc o)

/-- The pieces of a copy: those of its destination, cut at the rows of a source region too unless the destination is
a bench itself, so that each slot's reads end in their own piece (R168). -/
def cpPieces (s : State) (o : Op) : List (Nat × Nat) :=
  let ps := pieces (cpDest s o) (cpLen o)
  if cpSrcRegion o && (cpDstHost o || isHbm (cpDst o)) then
    ps.flatMap fun p => cutAt 0 512 (p.2 / 512 + 2) p.1 p.2
  else ps

def copyBody (s : State) (o : Op) (h : HostReply) : Res :=
  let d := cpDest s o
  let x := landAll d (cpWmode o) (cpLen o) (cpSource s o h) (cpPieces s o)
    { s := s, tally := cpTally o, tunit := cpTunit o }
  ⟨x.s, x.flags, x.err⟩

/-- `CE.COPY` (R363, R150 to R154, R165 to R176). -/
def execCeCopy (r : OpRef) (s : State) : Out := runBody 0x30 copyBody r s

def flDst (o : Op) : Nat := inl o 0 48
def flLen (o : Op) : Nat := inl o 48 36
def flDstHost (o : Op) : Bool := bit o.packet (352 + 84)
def flValue (o : Op) : Nat := inl o 96 32
def flTally (o : Op) : Nat := inl o 128 12
def flTunit (o : Op) : Nat := inl o 140 2

def flDest (s : State) (o : Op) : Dst := if flDstHost o then .host (opFunc s o) (flDst o) else .dev (flDst o)

/-- A source that repeats a 32-bit value. -/
def srcFill (v : Nat) (s : State) (off n : Nat) : State × BitVec 8 × Except Fail (List Byte) :=
  (s, 0#8, .ok ((List.range n).map fun i => BitVec.ofNat 8 (v >>> (8 * ((off + i) % 4)))))

def fillBody (s : State) (o : Op) (_ : HostReply) : Res :=
  let d := flDest s o
  let x := landAll d 0 (flLen o) (srcFill (flValue o)) (pieces d (flLen o)) { s := s, tally := flTally o, tunit := flTunit o }
  ⟨x.s, x.flags, x.err⟩

/-- `CE.FILL` (R364). -/
def execCeFill (r : OpRef) (s : State) : Out := runBody 0x35 fillBody r s

/-! ### CE.TRANSPOSE, CE.GATHER and CE.SCATTER (R366) -/

def transposeBody (s : State) (o : Op) (_ : HostReply) : Res :=
  let w := fmtBits (refA o).fmt
  readThen s ((refA o).ranges w) fun s =>
    writeThen s 0#8 (planTensor s (refC o) (refC o).rows w fun b i j => elemCode s (refA o) b j i) id

/-- `CE.TRANSPOSE` (R366). -/
def execCeTranspose (r : OpRef) (s : State) : Out := runBody 0x32 transposeBody r s

/-- What to write for positions `[p0, p1)` of line `l` of item `b` (R183). -/
def planLine (s : State) (r : TRef) (width b l p0 p1 : Nat) (f : Nat → Nat) : List (Nat × List Byte) :=
  if r.inner then planRect s r width b p0 p1 l (l + 1) fun i _ => f i
  else planRect s r width b l (l + 1) p0 p1 fun _ j => f j

/-- The code at position `p` of line `l` of item `b`. -/
def lineCode (s : State) (r : TRef) (width b l p : Nat) : Nat :=
  if r.inner then elemW s r width b p l else elemW s r width b l p

/-- The byte range of one line. -/
def lineRange (r : TRef) (width b l : Nat) : Nat × Nat := (r.lineAddr b l, cdiv (r.perLine * width) 8)

/-- Entry `i` of the index list of entry 7, and its address (R366). -/
def idxAt (s : State) (o : Op) (i : Nat) : Nat := lineCode s (auxRef o 7) 32 0 0 i
def idxAddr (o : Op) (i : Nat) : Nat := (auxRef o 7).base + 4 * i

/-- Copy line `from` of one tensor to line `to` of another, item `b`. -/
def moveLine (src dst : TRef) (b l l' : Nat) (s : State) : State × BitVec 8 × Option Fail :=
  let w := fmtBits src.fmt
  match readAll s [lineRange src w b l] with
  | (s, f, some e) => (s, f, some e)
  | (s, f, none) =>
    let (t, g, e) := writeAll s (planLine s dst w b l' 0 dst.perLine fun p => lineCode s src w b l p)
    (t, f ||| g, e)

/-- Move the lines an index list names, in list order; `toIdx` says whether the index names the destination (SCATTER)
or the source (GATHER). -/
def moveLines (toIdx : Bool) (s : State) (o : Op) (_ : HostReply) : Res :=
  let named := if toIdx then refC o else refA o
  let n := (if toIdx then refA o else refC o).lines
  readThen s ((auxRef o 7).ranges 32) fun s0 =>
    let a := (List.range (refA o).batch).foldl (fun a b => (List.range n).foldl (fun (a : Acc) i =>
      a.write fun s =>
        let k := idxAt s0 o i
        if named.lines ≤ k then (s, 0#8, some (failAt cAddrRange (idxAddr o i)))
        else if toIdx then moveLine (refA o) (refC o) b i k s
        else moveLine (refA o) (refC o) b k i s) a) ({ s := s0 } : Acc)
    ⟨a.s, a.flags, a.err⟩

/-- `CE.GATHER` (R366). -/
def execCeGather (r : OpRef) (s : State) : Out := runBody 0x33 (moveLines false) r s

/-- `CE.SCATTER` (R366). -/
def execCeScatter (r : OpRef) (s : State) : Out := runBody 0x34 (moveLines true) r s

/-! ### CE.COPY_COMPRESS (R365) -/

def ccCap (o : Op) : Nat := fur o 0 40
def ccForm (o : Op) : Nat := fur o 40 2
def ccHasBlk (o : Op) : Bool := bit o.packet (416 + 42)
def ccBlkR (o : Op) : Nat := fur o 43 4
def ccBlkC (o : Op) : Nat := fur o 47 4
def ccBf16 (o : Op) : Bool := bit o.packet (416 + 51)
def ccE (o : Op) : Nat := fur o 64 32

/-- The body of a started `CE.COPY_COMPRESS` of one form. -/
def runForm (form : Nat) (body : State → Op → HostReply → Res) (r : OpRef) (s : State) : Out :=
  match findOp s r.q r.tag with
  | some o => if ccForm o = form then runBody 0x31 body r s else notNow
  | none => notNow

/-- The two slots of a 2:4 group and its nibble (R244); none for three or four non-zeros. -/
def pairGroup (f : Fmt) (codes : List Nat) : Option (Nat × Nat × Nat) :=
  match (List.range codes.length).filter fun i => isNonZero f (codes.getD i 0) with
  | [] => some (0, 0, 4)
  | [i] => if i = 0 then some (codes.getD 0 0, 0, 4) else some (0, codes.getD i 0, 4 * i)
  | [i, j] => some (codes.getD i 0, codes.getD j 0, i + 4 * j)
  | _ => none

/-- Store one line as 2:4, up to its first group with too many non-zeros (R245). -/
def pairLine (s0 : State) (o : Op) (b l : Nat) (a : Acc) : Acc :=
  let src := refA o
  let w := fmtBits src.fmt
  let n := src.perLine
  let gs := (List.range (cdiv n 4)).map fun g =>
    pairGroup src.fmt ((List.range (min 4 (n - 4 * g))).map fun i => lineCode s0 src w b l (4 * g + i))
  let good := (gs.takeWhile (·.isSome)).filterMap id
  let val := storedRef (refC o).inner (refC o)
  let mta := metaRef (refC o).inner (refC o) (auxRef o 3)
  let a := a.write fun s => writeAll s (planLine s val w b l 0 (2 * good.length) fun p =>
    let g := good.getD (p / 2) (0, 0, 0)
    if p % 2 = 0 then g.1 else g.2.1)
  let a := a.write fun s => writeAll s (planLine s mta 4 b l 0 good.length fun p => (good.getD p (0, 0, 0)).2.2)
  a.write fun s =>
    if good.length = gs.length then (s, 0#8, none)
    else
      let p := 4 * good.length
      let at_ := if src.inner then (src.elemAt w b p l).1 else (src.elemAt w b l p).1
      (s, 0#8, some (failAt cSparsity at_))

def pair24Body (s : State) (o : Op) (_ : HostReply) : Res :=
  readThen s ((refA o).ranges (fmtBits (refA o).fmt)) fun s =>
    let a := (List.range (refA o).batch).foldl (fun a b =>
      (List.range (refA o).lines).foldl (fun a l => pairLine s o b l a) a) ({ s := s } : Acc)
    ⟨a.s, a.flags, a.err⟩

/-- `CE.COPY_COMPRESS` PAIR24 (R244, R245). -/
def execCopyCompressPair24 (r : OpRef) (s : State) : Out := runForm 0 pair24Body r s

/-- Write an image at `base`, its header last; one that would exceed the capacity `cap`, or HBM, writes nothing (R16, R246,
DESIGN CHOICE, log 30). -/
def writeImg (s : State) (base cap : Nat) (blk : Option (Nat × Nat)) (x : Img) : Res :=
  if min cap (hbmEnd - base) < x.size blk then ⟨s, 0#8, some (failAt cAddrRange (base + min cap (hbmEnd - base)))⟩
  else writeThen s 0#8 (imgWrites base blk x) id

def ccBlk (o : Op) : Option (Nat × Nat) := if ccHasBlk o then some (ccBlkR o, ccBlkC o) else none

def rowsBody (s : State) (o : Op) (_ : HostReply) : Res :=
  let r := refA o
  readThen s (r.ranges (fmtBits r.fmt)) fun s =>
    writeImg s (refC o).base (ccCap o) (ccBlk o) (.of r.rows r.cols r.fmt
      ((List.range r.rows).map fun i => (List.range r.cols).filterMap fun j =>
        let c := elemCode s r 0 i j
        if isNonZero r.fmt c then some (j, c) else none))

/-- `CE.COPY_COMPRESS` ROWS (R246). -/
def execCopyCompressRows (r : OpRef) (s : State) : Out := runForm 1 rowsBody r s

/-- The code of a record's value field in the form's format (R247). -/
def routeValue (bf16 : Bool) (v : Nat) : Nat := if bf16 then (toFloat bf16S .near (f32Val v)).1 else v

def routeBody (s : State) (o : Op) (_ : HostReply) : Res :=
  let r := refA o
  readThen s (r.ranges 64) fun s =>
    let recs := (List.range r.rows).flatMap fun t => (List.range r.cols).map fun j => (t, j, elemW s r 64 0 t j)
    let live := recs.filter fun x => bits x.2.2 32 32 ≠ 0xFFFFFFFF
    match live.find? fun x => ccE o ≤ bits x.2.2 32 32 with
    | some x => ⟨s, 0#8, some (failAt cSparsity (r.elemAt 64 0 x.1 x.2.1).1)⟩
    | none =>
      writeImg s (refC o).base (ccCap o) (ccBlk o) (.of (ccE o) r.rows (if ccBf16 o then .bf16 else .fp32)
        ((List.range (ccE o)).map fun e => live.filterMap fun x =>
          if bits x.2.2 32 32 = e then some (x.1, routeValue (ccBf16 o) (bits x.2.2 0 32)) else none))

/-- `CE.COPY_COMPRESS` ROUTE (R247). -/
def execCopyCompressRoute (r : OpRef) (s : State) : Out := runForm 2 routeBody r s

def activeBody (s : State) (o : Op) (_ : HostReply) : Res :=
  if o.mCount = some 0 then ⟨s, 0#8, none⟩
  else
    let r := dynRows o (refA o)
    let k := dynRows o (auxRef o 4)
    readThen s (r.ranges (fmtBits r.fmt) ++ k.ranges 2) fun s =>
      writeImg s (refC o).base (ccCap o) (ccBlk o) (.of r.rows r.cols r.fmt
        ((List.range r.rows).map fun i => (List.range r.cols).filterMap fun j =>
          let m := elemW s k 2 0 i j
          if m = 1 ∨ m = 2 then some (j, elemCode s r 0 i j) else none))

/-- `CE.COPY_COMPRESS` ACTIVE (R268). -/
def execCopyCompressActive (r : OpRef) (s : State) : Out := runForm 3 activeBody r s

end Sys2Proof.Machine
end

