-- ==== Sys2Proof/Machine/Touch.lean ====
section
/-!
DEFINITION. What a command touches: device ranges, bench rows, lathes and domains, tallies and pattern slots; and the
confinement of R337. The checks of the start, the ordering rules R54 and R163, and the refusals of R474 use it.
-/

namespace Sys2Proof.Machine

/-! ### Inline fields of FE, SY and MG commands (R367, R368, R371, R372) -/

def fpLocal (o : Op) : Nat := inl o 0 48
def fpPeer (o : Op) : Nat := inl o 48 6
def fpWin (o : Op) : Nat := inl o 54 8
def fpOff (o : Op) : Nat := inl o 64 40
def fpLen (o : Op) : Nat := inl o 104 32
def fpMode (o : Op) : Nat := inl o 136 2
def fwWin (o : Op) : Nat := inl o 0 8
def fwPeer (o : Op) : Nat := inl o 8 6
def fwBase (o : Op) : Nat := inl o 16 48
def fwSize (o : Op) : Nat := inl o 64 40
def fwRd (o : Op) : Bool := bit o.packet (352 + 104)
def fwWr (o : Op) : Bool := bit o.packet (352 + 105)
def fwAcc (o : Op) : Bool := bit o.packet (352 + 106)
def fwRegion (o : Op) : Bool := bit o.packet (352 + 107)
def fwTally (o : Op) : Nat := inl o 108 12
def fwTunit (o : Op) : Nat := inl o 120 2
def frSrc (o : Op) : Nat := inl o 0 6
def frTarget (o : Op) : Nat := inl o 6 6
def frDst (o : Op) : Nat := inl o 12 6
def frEnable (o : Op) : Bool := bit o.packet (352 + 18)
def collMembers (o : Op) : Nat := fur o 0 64
def collBit (o : Op) : Bool := bit o.packet (416 + 64)
def collGate (o : Op) : Bool := bit o.packet (416 + 65)
def barMembers (o : Op) : Nat := inl o 0 64
def barNumber (o : Op) : Nat := inl o 64 16
def mqItem (o : Op) : Nat := inl o 0 16
def mqIndex (o : Op) : Nat := inl o 16 16
def mqAddr (o : Op) : Nat := inl o 32 48
def mqHost (o : Op) : Bool := bit o.packet (352 + 80)
def mpDomain (o : Op) : Nat := inl o 0 7
def mpState (o : Op) : Nat := inl o 8 2
def quOp (o : Op) : Nat := inl o 0 4
def quQueue (o : Op) : Nat := inl o 4 6
def quFunc (o : Op) : Nat := inl o 10 5
def quDim (o : Op) : Nat := inl o 15 3
def quBase (o : Op) : Nat := inl o 32 48
def quSize (o : Op) : Nat := inl o 80 40
def pcWatts (o : Op) : Nat := inl o 0 16
def snRestore (o : Op) : Bool := bit o.packet 352
def snToPeer (o : Op) : Bool := bit o.packet 353
def snPeer (o : Op) : Nat := inl o 2 6
def snWin (o : Op) : Nat := inl o 8 8
def snAddr (o : Op) : Nat := inl o 16 48
def sbSid (o : Op) : Nat := inl o 0 10
def sbShare (o : Op) : Bool := bit o.packet (352 + 10)
def sbEpoch (o : Op) : Nat := inl o 64 64
def plImage (o : Op) : Nat := inl o 0 48
def plHost (o : Op) : Bool := bit o.packet (352 + 48)
def plSlot (o : Op) : Nat := inl o 49 6
def plRows (o : Op) : Nat := inl o 64 8
def plCols (o : Op) : Nat := inl o 72 16
def kwIndex (o : Op) : Nat := inl o 0 7
def kwValue (o : Op) : Nat := inl o 32 32
def stSrc (o : Op) : Nat := inl o 0 48
def stHost (o : Op) : Bool := bit o.packet (352 + 48)
def stBlock (o : Op) : Nat := inl o 64 16
def fuOp (o : Op) : Nat := inl o 0 2
def fuUnit (o : Op) : Nat := inl o 2 13
/-- The lathe of a fence or unfence of a lathe; the field's upper bits must name none (R372). -/
def fuLathe (o : Op) : Nat := fuUnit o

/-- Bytes of an `MG.QUERY` result, and those it reads first (R373). -/
def mqSize (item : Nat) : Nat :=
  match item with
  | 1 | 2 | 5 => 64 | 3 | 4 | 6 | 7 => 16 | 8 => 1040 | 9 => 8 | _ => 0

/-- Lathes at the intersections of the masks of `MG.PATTERN_LOAD` (R377). -/
def plLathes (o : Op) : List Nat :=
  (List.range 128).filter fun l => bit (plRows o) (meshRow l) && bit (plCols o) (meshCol l)

/-! ### Ranges -/

/-- Whether a command reads the row count at `m_ptr` (R352: the commands whose references span M). -/
def readsM (o : Op) : Bool :=
  let c := opCode o
  fMDyn o && ((0x10 ≤ c && c ≤ 0x14) || c / 16 == 2 || (c == 0x31 && ccForm o == 3))

/-- The rows of a reference on lathes, as ranges. -/
def benchRanges (s : State) (b : BRef) (lathes : List Nat) : List (Nat × Nat) :=
  lathes.flatMap fun l =>
    if b.region then
      let r := getRegion s l b.base
      [(slotAddr l r 0, r.slots.toNat * (r.slotRowsM1.toNat + 1) * 512)]
    else (List.range b.count).map fun i => (b.addr l i, 512)

/-- The rows of a circular region. -/
def regionRange (s : State) (l k : Nat) : Nat × Nat :=
  let r := getRegion s l k
  (slotAddr l r 0, r.slots.toNat * (r.slotRowsM1.toNat + 1) * 512)

/-- Rows of a reference that a command uses on a lathe: those numbered, of a circular region all its rows. -/
def rowRanges (s : State) (b : BRef) (l : Nat) (is : List Nat) : List (Nat × Nat) :=
  if is.isEmpty then []
  else if b.region then [regionRange s l b.base]
  else (is.filter (· < b.count)).map fun i => (b.addr l i, 512)

def refRanges (r : TRef) (width : Nat) : List (Nat × Nat) := r.ranges width

/-- The bytes of a rectangle of a tensor: items `[b0, b1)`, rows `[m0, m1)`, columns `[n0, n1)` (R190, R209, R211). -/
def boxRanges (r : TRef) (width b0 b1 m0 m1 n0 n1 : Nat) : List (Nat × Nat) :=
  let (l0, l1, p0, p1) := if r.inner then (n0, n1, m0, m1) else (m0, m1, n0, n1)
  if p1 ≤ p0 then []
  else (List.range (b1 - b0)).flatMap fun b => (List.range (l1 - l0)).map fun l =>
    (r.lineAddr (b0 + b) (l0 + l) + p0 * width / 8, cdiv (p0 * width % 8 + (p1 - p0) * width) 8)

/-- The bytes of the outputs of a plan, `parts` partials an item or an epilogue's outputs and records. -/
def outRanges (o : Op) (p : Plan) (partialsOut : Bool) (parts : Nat) : List (Nat × Nat) :=
  if partialsOut then boxRanges (auxRef o 7) (accBits (accFmt o)) (p.b0 * parts) (p.b1 * parts) p.m0 p.m1 p.n0 p.n1
  else
    (if fTopk o ≠ 0 ∧ fTopkOnly o then [] else boxRanges (refC o) (fmtBits (outFmt o)) p.b0 p.b1 p.m0 p.m1 p.n0 p.n1)
      ++ (if fTopk o = 0 then []
          else (recordBlocks o p).flatMap fun k =>
            boxRanges (auxRef o 7) 64 p.b0 p.b1 p.m0 p.m1 (k.2 * fTopk o) ((k.2 + 1) * fTopk o))

/-- The bench tiles of a layer, on the lathes where they run (R195, R261). -/
def layerTiles (s : State) (o : Op) : List BTile :=
  match opCode o with
  | 0x13 => benchTiles s o (planOf s o)
  | 0x14 => (benchTiles s o (planOf s o)).map (relocateTile o (roughTiles s o))
  | _ => (runOf s o).bs

/-- The rows that a layer's operands, scales and chunk tiles take on a lathe for the bench tiles there (R185, R192, R242). -/
def operandRows (s : State) (o : Op) (ts : List BTile) (l : Nat) : List (Nat × Nat) :=
  let mine := ts.filter fun t => t.lathe = l
  let two := doubled s o
  let side := fun isB => rowRanges s (opBref o isB) l
    (stagedRows (if two then some (opRows s o isB) else none) ((fetches (mine.map (sliceOf o isB))).map (sliceLen s o isB)))
  let scales := if rowsS s o = 0 then [] else rowRanges s (brefS o) l
    (stagedRows (if two then some (rowsS s o) else none)
      ((fetches (mine.map fun t => (sliceOf o false t, sliceOf o true t))).map fun x => scaleRows s o false x.1 + scaleRows s o true x.2))
  let chunk := if fedCsr o then
      let r := runOf s o
      rowRanges s (chunkRef o) l (List.range (mine.foldl (fun n t => max n (chunkRows o r.x r.xs t)) 0))
    else []
  side false ++ side true ++ scales ++ chunk

/-- The rows that spilled tiles take (R207). -/
def spillRanges (s : State) (o : Op) (p : Plan) : List (Nat × Nat) :=
  if !spills s o p then []
  else
    let fa := actualShare s o p
    let rt := tileRows (accFmt o)
    (placement s o p).flatMap fun y => rowRanges s (spillRef o) (y.spindle / 64)
      ((List.range rt).map fun r => spillPlace fa y.spindle y.tile.slot * rt + r)

/-- The rows that a bench tile's outputs take (R151, R185). -/
def outTileRows (inner : Bool) (width : Nat) (m n : Nat) : Nat := if inner then rowsFor n m width else rowsFor m n width

/-- The rows that a layer's outputs take, lathe by lathe. -/
def outRowRanges (s : State) (o : Op) (ts : List BTile) : List (Nat × Nat) :=
  (tileLathes ts).flatMap fun l =>
    let n := (ts.filter fun t => t.lathe = l).foldl (fun n t =>
      max n (outTileRows (outRef o).inner (outBits o) (t.m1 - t.m0) (t.n1 - t.n0))) 0
    rowRanges s (brefC o) l (List.range n)

/-- The rows that `MM.ACC_READ` and `MM.ACC_WRITE` use (R356). -/
def accRowRanges (s : State) (o : Op) : List (Nat × Nat) :=
  let rt := tileRows (accFmt o)
  let at_ := if opCode o = 0x15 then ((heldTiles s o).filter fun h => bit (fSlots o) h.tile.slot).map fun h => (h.spindle, h.tile.slot)
    else (accWriteSpindles s o).flatMap fun i => ((List.range 4).filter fun j => bit (fSlots o) j).map fun j => (i, j)
  at_.flatMap fun x => rowRanges s (brefC o) (x.1 / 64) ((List.range rt).map fun r => (4 * (x.1 % 64) + x.2) * rt + r)

/-- The rows that a drain writes: each tile is a slice of its own (DESIGN CHOICE, log 14). -/
def drainRowRanges (s : State) (o : Op) : List (Nat × Nat) :=
  let width := if fDefer o then accBits (accFmt o) else fmtBits (outFmt o)
  if !fDefer o && fTopk o != 0 && fTopkOnly o then []
  else (drainTiles o (heldTiles s o)).flatMap fun h =>
    let r := tileRect o (drainPlan o) h
    rowRanges s (brefC o) r.lathe (List.range (outTileRows (drainRef o).inner width (r.m1 - r.m0) (r.n1 - r.n0)))

def touchMatrix (s : State) (o : Op) : List (Nat × Nat) :=
  let p := planOf s o
  match opCode o with
  | 0x15 | 0x16 => accRowRanges s o
  | 0x17 => outRanges o (drainPlan o) (fDefer o) 1 ++ (if fDefer o then [] else epiRanges o (outFmt o) (drainPlan o))
      ++ drainRowRanges s o
  | c =>
    let ts := layerTiles s o
    operandRanges s o ++ (tileLathes ts).flatMap (operandRows s o ts)
      ++ (if c = 0x13 then knotRanges s o ++ epiRanges o .fp32 p
            ++ boxRanges (keepRef o) 2 p.b0 p.b1 p.m0 p.m1 p.n0 p.n1
          else (if toPartials o then [] else epiRanges o (outFmt o) p) ++ outRanges o p (toPartials o) (partials o)
            ++ (if c = 0x14 then [] else spillRanges s o p)
            ++ (if !toPartials o && fTopk o != 0 && fTopkOnly o then [] else outRowRanges s o ts))

/-- The bytes of a tensor of a Vector Engine command: of its first rows under `m_dyn` (R352). -/
def veTensor (o : Op) (r : TRef) (width : Nat) : List (Nat × Nat) := refRanges (dynRows o r) width

/-- What a Vector Engine command touches in HBM (R360 to R362); the rows of `ref_c` and of the scale words under the row
count read at `m_ptr`. -/
def touchVeHbm (s : State) (o : Op) : List (Nat × Nat) :=
  let a := veRanges s o (veA o).plain
  let b := veRanges s o (veB o).plain
  let c := veTensor o (refC o) (fmtBits (outFmt o))
    ++ (if plainOut (outFmt o) || fSclC o = 3 then []
        else scaleRanges o 2 .bf16 (auxRef o 2) (refA o).batch (veM o) (refA o).cols (gOf o))
  match opCode o with
  | 0x20 => veRanges s o (veA o) ++ (if elementwiseB (fVeOp o) then veRanges s o (veB o) else []) ++ c
  | 0x21 => a ++ veTensor o (refC o) 32
  | 0x22 => if fVeSub o then fieldRanges o 64 ++ veTensor o (refC o) 64 else a ++ c
  | 0x23 => a ++ b ++ c
  | 0x24 => a ++ vecRanges (auxRef o 5) ++ vecRanges (auxRef o 6) ++ (statRef o).ranges 64 ++ c
  | 0x25 => a ++ b ++ vecRanges (auxRef o 5) ++ (statRef o).ranges 64 ++ refRanges (auxRef o 4) 64 ++ refRanges (auxRef o 6) 64 ++ c
  | 0x26 => fieldRanges o (accBits (accFmt o)) ++ outRanges o (sumPlan o) (fDefer o) 1
      ++ (if fDefer o then [] else epiRanges o (outFmt o) (sumPlan o))
  | 0x27 => operandRanges s o ++ knotRanges s o ++ veTensor o (auxRef o 7) (accBits (accFmt o))
  | 0x28 => a ++ scaleRanges o 2 .bf16 (auxRef o 2) (refA o).batch (veM o) (refA o).cols (gOf o)
  | 0x29 => a ++ c
  | 0x2A => fieldRanges o 64 ++ veTensor o (refC o) 64
  | _ => a ++ b ++ veTensor o (auxRef o 5) (fmtBits (auxRef o 5).fmt)
      ++ (if fVeOp o = 1 then veTensor o (auxRef o 6) (fmtBits (auxRef o 6).fmt) else []) ++ c

/-- The sides a Vector Engine command stages, each with its element width. -/
def veSides (o : Op) : List Side :=
  match opCode o with
  | 0x20 => elementwiseSides o
  | 0x22 => if fVeSub o then [(false, 64)] else [sideA o]
  | 0x23 | 0x25 | 0x2B => [sideA o, sideB o]
  | 0x26 => [(false, accBits (accFmt o))]
  | 0x27 => knotSides o
  | 0x2A => [(false, 64)]
  | _ => [sideA o]

/-- The output whose lines a Vector Engine command puts on the benches, with its element width. -/
def veBenchOut (o : Op) : Option (TRef × Nat) :=
  match opCode o with
  | 0x21 => some (veC o, 32)
  | 0x22 => some (veC o, if fVeSub o then 64 else fmtBits (outFmt o))
  | 0x26 => if fDefer o then some (dynRows o (sumRef o), accBits (accFmt o))
      else if fTopk o != 0 && fTopkOnly o then none else some (dynRows o (sumRef o), fmtBits (outFmt o))
  | 0x27 | 0x28 => none
  | 0x2A => some (veC o, 64)
  | _ => some (veC o, fmtBits (outFmt o))

/-- The rows of a line of a tensor, on the lathes that its lines are dealt to (R359). -/
def lineRanges (s : State) (o : Op) (b : BRef) (r : TRef) (width : Nat) : List (Nat × Nat) :=
  ((usedLathes s o).take r.allLines).flatMap fun l => rowRanges s b l (List.range (lineRows r width))

def touchVector (s : State) (o : Op) : List (Nat × Nat) :=
  touchVeHbm s o ++ (veSides o).flatMap (fun d => lineRanges s o (opBref o d.1) (veRef o d.1) d.2)
    ++ (match veBenchOut o with | some c => lineRanges s o (brefC o) c.1 c.2 | none => [])

/-- The device ranges of a copy's end: an address range, or the slots of a region that the transfer uses, from head or
from tail. -/
def copyRanges (s : State) (a len : Nat) (host region push : Bool) : List (Nat × Nat) :=
  if region then
    let l := regionLathe a
    let k := regionK a
    let r := getRegion s l k
    let per := r.slotRowsM1.toNat + 1
    (List.range (min r.slots.toNat (cdiv len (per * 512)))).map fun i =>
      (slotAddr l r (ringNext r (if push then r.tail.toNat else r.head.toNat) i), per * 512)
  else if host then [] else [(a, len)]

def touchCopy (s : State) (o : Op) : List (Nat × Nat) :=
  let src := fmtBits (refA o).fmt
  match opCode o with
  | 0x30 => copyRanges s (cpSrc o) (cpLen o) (cpSrcHost o) (cpSrcRegion o) false
      ++ copyRanges s (cpDst o) (cpLen o) (cpDstHost o) (cpDstRegion o) true
  | 0x35 => if flDstHost o then [] else [(flDst o, flLen o)]
  | 0x31 =>
    (if ccForm o = 2 then refRanges (refA o) 64 else refRanges (dynRows o (refA o)) src)
      ++ (if ccForm o = 0 then
            refRanges (storedRef (refC o).inner (refC o)) (fmtBits (refC o).fmt)
              ++ refRanges (metaRef (refC o).inner (refC o) (auxRef o 3)) 4
          else [((refC o).base, ccCap o)])
      ++ (if ccForm o = 3 then refRanges (dynRows o (auxRef o 4)) 2 else [])
  | 0x32 => refRanges (refA o) src ++ refRanges (refC o) src
  | _ => refRanges (refA o) src ++ refRanges (refC o) src ++ refRanges (auxRef o 7) 32

/-- The width of the elements an all-reduce adds (R370). -/
def arWidth (o : Op) : Nat := if collBit o then accBits (accFmt o) else fmtBits (refA o).fmt

/-- A plan that takes all of a tensor (R369: a collective has no sharding). -/
def wholePlan (r : TRef) : Plan := ⟨r.batch, r.rows, r.cols, 0, 0, r.batch, 0, r.rows, 0, r.cols, 0, 0⟩

/-- The ranges of a whole image. -/
def imgAll (s : State) (base : Nat) : List (Nat × Nat) := imgRanges s base (imgHeader s base) 0 (imgRows (imgHeader s base))

def touchFabric (s : State) (o : Op) : List (Nat × Nat) :=
  match opCode o with
  | 0x40 | 0x41 => [(fpLocal o, fpLen o)]
  | 0x42 =>
    refRanges (refA o) (arWidth o) ++ refRanges (refC o) (fmtBits (outFmt o)) ++ refRanges (auxRef o 7) (arWidth o)
      ++ epiRanges o (outFmt o) (wholePlan (refC o))
  | 0x43 =>
    refRanges (refA o) (fmtBits (refA o).fmt) ++ refRanges (refC o) (fmtBits (refC o).fmt) ++ refRanges (auxRef o 6) 32
      ++ (if collBit o then imgAll s (auxRef o 4).base
            ++ (if outScaled o (outFmt o) then scaleRanges o 2 .bf16 (auxRef o 2) 1 (refC o).rows (refC o).cols (gOf o) else [])
          else ((auxRef o 4).base, 64 + 4 * ((refC o).batch + 1)) :: refRanges (auxRef o 3) 32 ++ imgAll s (auxRef o 7).base)
  | 0x44 => if fwRegion o then [regionRange s (regionLathe (fwBase o)) (regionK (fwBase o))] else [(fwBase o, fwSize o)]
  | _ => []

/-- Bytes of a pattern image with codes of the width its header gives (R49, R377). -/
def imageBytes (s : State) (o : Op) : Nat := if bits (leNat (devBytes s (plImage o) 16)) 0 4 = 8 then 2064 else 144

def touchManage (s : State) (o : Op) : List (Nat × Nat) :=
  match opCode o with
  | 0x60 => if mqHost o then [] else [(mqAddr o, mqSize (mqItem o))]
  | 0x64 => [(benchBase, benchEnd - benchBase), (0, hbmEnd)]
  | 0x66 => if plHost o then [] else [(plImage o, imageBytes s o)]
  | 0x68 => if stHost o then [] else [(stSrc o, 65536)]
  | _ => []

/-- The device ranges a started command touches, its descriptor's own among them. -/
def touched (s : State) (o : Op) : List (Nat × Nat) :=
  let c := opCode o
  (if formD c then
      (if descHost o then [] else [(descPtr o, 256)])
        ++ (if fAuxMask o = 0 || fAuxHost o then [] else [(fAuxPtr o, 256)])
        ++ (if readsM o then [(fMPtr o, 4)] else [])
    else [])
  ++ (if o.mCount = some 0 then []
      else match c / 16 with
        | 1 => touchMatrix s o
        | 2 => touchVector s o
        | 3 => touchCopy s o
        | 4 => touchFabric s o
        | _ => touchManage s o)

/-! ### Lathes and domains (R18, R474) -/

/-- The lathes whose units a command uses: those of the mesh part it names; of a pattern load and of an unfence those it
names. -/
def lathesUsed (s : State) (o : Op) : List Nat :=
  match opCode o with
  | 0x66 => plLathes o
  | 0x6B => if fuOp o < 2 then [] else [if fuOp o % 2 = 1 then fuLathe o else fuUnit o / 64]
  | c => if c / 16 = 1 ∨ c / 16 = 2 then usedLathes s o else []

/-- Whether a command needs the tailstock: for a stored direction of an operand, or for its output's (R274, R280). -/
def usesTail (o : Op) : Bool :=
  match opCode o with
  | 0x10 | 0x11 | 0x12 | 0x14 => opTail o false || opTail o true || (!toPartials o && outTail o)
  | 0x13 => opTail o false || opTail o true
  | 0x17 | 0x26 => !fDefer o && outTail o
  | _ => false

def tailLathes (s : State) (o : Op) : List Nat := if usesTail o then usedLathes s o else []

/-- The first address at or above `lo` and below `hi` among ranges. -/
def hitIn (rs : List (Nat × Nat)) (lo hi : Nat) : Option Nat :=
  rs.findSome? fun r => if r.2 ≠ 0 && r.1 < hi && lo < r.1 + r.2 then some (max lo r.1) else none

/-! ### Confinement (R337) -/

def confined (s : State) (q : Nat) : Bool := (getQ s q).func != 0#5 || (getQ s q).confine

/-- Whether a reservation of the function covers an address. -/
def reserved (s : State) (fn a : Nat) : Bool :=
  s.head.reservations.any fun r => r.func == fn &&
    (if r.bench then
      isBench a && (let row := (a - benchBase) / 512 % 4096; r.base ≤ row && row < r.base + r.size)
     else isHbm a && r.base ≤ a && a < r.base + r.size)

/-- The first address of a range outside the function's reservations. -/
def firstOutside (s : State) (fn a n : Nat) : Option Nat :=
  let u := if isHbm a then 0x20_0000 else 512
  if n = 0 then none
  else
    ((List.range ((a + n - 1) / u - a / u + 1)).map fun i => max a ((a / u + i) * u)).find? fun x => !reserved s fn x

/-- The tally range of a function (R338). -/
def tallyRangeOf (s : State) (fn : Nat) : Nat × Nat := tget (if fn = 0 then (0, 4096) else (0, 0)) s.head.tallyRange fn

/-- The tallies a command names: waits, signals, and those bound to its arrivals. -/
def talliesOf (o : Op) : List Nat :=
  let c := opCode o
  ((List.range (pNWait o)).map fun i => bits (waitEntry o i) 0 12)
    ++ ((List.range (pNSig o)).map fun i => bits (sigEntry o i) 0 12)
    ++ (if 0x10 ≤ c ∧ c ≤ 0x14 ∧ fKerfEn o then [fKerfTally o] else [])
    ++ (if c = 0x30 ∧ cpTunit o ≠ 0 then [cpTally o] else [])
    ++ (if c = 0x35 ∧ flTunit o ≠ 0 then [flTally o] else [])
    ++ (if c = 0x44 ∧ fwTunit o ≠ 0 then [fwTally o] else [])

def checkConfined (s : State) (o : Op) : Chk :=
  let fn := opFunc s o
  if !confined s o.q then .ok ()
  else
    let r := tallyRangeOf s fn
    match (talliesOf o).find? fun i => i < r.1 || r.1 + r.2 ≤ i with
    | some i => .error (failReg cAddrRange (tallyAddr i))
    | none =>
      match (touched s o).findSome? fun x => firstOutside s fn x.1 x.2 with
      | some a => .error (failAt cAddrRange a)
      | none => .ok ()

/-! ### Pattern slots read (R54) -/

/-- The tensors of the reference block whose elements a command reads through `pat_c` (DESIGN CHOICE, log 63). -/
def gainRefs (o : Op) : List TRef :=
  match opCode o with
  | 0x24 => [auxRef o 5, auxRef o 6]
  | 0x25 => [auxRef o 5]
  | 0x2B => if fVeOp o = 1 then [auxRef o 5, auxRef o 6] else [auxRef o 5]
  | _ => []

/-- The lathes and slots a command reads a pattern table from. A collective that converts reads those of lathe 0
(DESIGN CHOICE, log 60), and a query of a slot's header that slot (R373). -/
def slotsRead (s : State) (o : Op) : List (Nat × Nat) :=
  let isPat := fun f : Fmt => f == .pat4 || f == .pat8
  let c := opCode o
  if c / 16 = 1 ∨ c / 16 = 2 then
    let fs := (if isPat (fmtA s o) then [fPatA o] else []) ++ (if isPat (fmtB s o) then [fPatB o] else [])
      ++ (if isPat (outFmt o) || (gainRefs o).any fun r => isPat r.fmt then [fPatC o] else [])
    (lathesUsed s o).flatMap fun l => fs.map fun t => (l, t)
  else if c = 0x42 ∨ (c = 0x43 ∧ collBit o) then
    (if isPat (refA o).fmt && !(c = 0x42 && collBit o) then [(0, fPatA o)] else [])
      ++ (if isPat (outFmt o) then [(0, fPatC o)] else [])
  else if c = 0x60 ∧ mqItem o = 3 then [(mqIndex o / 64, mqIndex o % 64)]
  else []

end Sys2Proof.Machine
end

