-- ==== Sys2Proof/Machine/Image.lean ====
section
/-!
DEFINITION. The image of a snapshot (R376, R509 to R512): its sections, and what a `MG.SNAPSHOT` that ends early leaves. Where the
fields of the image stand, which the spec gives only in part, is the model's (DESIGN CHOICE, log 43): the 4 KiB header holds a mark,
the length of the poison list, a CRC-32C over the bytes from 16 to 0x9FFF, and the section table; the fence map follows at 0x1000,
the poison list at 0x1600, and the sections from 0xA000 on.
-/

namespace Sys2Proof.Machine

/-! ### Sections: 0 keep registers, 1 to 64 accumulators by lathe pair, 65 to 128 benches, 129 to 136 stacks -/

/-- The device addresses of a pair's benches and of a stack. -/
def pairLo (p : Nat) : Nat := latheBase (2 * p)
def pairHi (p : Nat) : Nat := latheBase (2 * p + 2)
def stackLo (k : Nat) : Nat := k * stackBytes
def stackHi (k : Nat) : Nat := (k + 1) * stackBytes

def inRange (lo hi a : Nat) : Bool := lo ≤ a && a < hi

/-- The first device address of a section, and the end of the range it holds of benches or HBM. -/
def sectionLo (i : Nat) : Nat := if i < 65 then pairLo (i - 1) else if i < 129 then pairLo (i - 65) else stackLo (i - 129)
def sectionHi (i : Nat) : Nat := if i < 129 then pairHi (i - 65) else stackHi (i - 129)

/-- The domain of a section: 0 to 63 a lathe pair, 64 to 71 a stack; the keep registers have none. -/
def sectionPd (i : Nat) : Nat := if i < 65 then i - 1 else i - 65

/-- Whether a domain counts as OFF for a save: it is OFF, or still leaves OFF (R149, R512). -/
def domainDark (s : State) (d : Nat) : Bool :=
  match pd s d with
  | .settled .off => true
  | .switching .off _ _ _ => true
  | _ => false

/-- Whether a save marks a section absent (R512): the bench and HBM sections of what is OFF, and the accumulator section of
such a pair with its benches (DEDUCED, log 43). -/
def absentSection (s : State) (i : Nat) : Bool := i != 0 && domainDark s (sectionPd i)

/-- The first address that a failure in a section names (R376, R512): that of keep register 0, of the pair's benches, or of
the stack. -/
def sectionFail (code i : Nat) : Fail := if i = 0 then failReg code (keepAddr 0) else failAt code (sectionLo i)

/-! ### Records of spindles -/

/-- The places beside the eight slots that a spindle's open set uses (DEDUCED, log 17). -/
def extraSlots (set : Nat) (tiles : List Tile) : List Nat :=
  (tiles.filter fun t => decide (8 ≤ t.slot)).flatMap fun t => [4 * set + t.slot, 4 * set + t.slot + 2]

/-- Those of a spindle. -/
def spindleExtras (sp : Spindle) : List Nat := match sp.opened with | some w => extraSlots w.set sp.tiles | none => []

/-- Bytes of a spindle's record: 2,048 entries, its tags, set states and placements, and 256 entries and a tag for each place
beside the eight slots. -/
def recordLen (tiles extras : Nat) : Nat := 16416 + 16 * tiles + 2064 * extras

def recordBytes (sp : Spindle) : Nat := recordLen sp.tiles.length (spindleExtras sp).length

/-- The length of a section. A pair that is not ON has an empty accumulator section (R512). -/
def sectionLen (s : State) (i : Nat) : Nat :=
  if i = 0 then 512
  else if i < 65 then (if pdOn s (i - 1) then ((List.range 128).map fun k => recordBytes (getSpindle s (128 * (i - 1) + k))).sum else 0)
  else sectionHi i - sectionLo i

/-- Where a section begins in an image. -/
def sectionOff (s : State) (i : Nat) : Nat := (List.range i).foldl (fun n j => n + sectionLen s j) 0xA000

/-- Bytes of an image. -/
def imageLen (s : State) : Nat := sectionOff s 137

/-- The device address whose byte, or whose pair's accumulators, stand at an offset of an image (R394); the keep registers and
the header have none: for the keep registers, the first that follows them. -/
def imageAddr (s : State) (off : Nat) : Option Nat :=
  match (List.range 137).find? fun i => decide (off < sectionOff s i + sectionLen s i) with
  | some i => if off < 0xA000 then none else some (if i < 65 then sectionLo i else sectionLo i + (off - sectionOff s i))
  | none => none

/-! ### Reading an image -/

/-- A number in an image. -/
def imgNat (m : List Host.Cell) (a n : Nat) : Nat := leNat (memRead m a n)

/-- A section as the table gives it. -/
structure Section where
  num : Nat
  off : Nat
  len : Nat
  crc : Nat
  present : Bool

def sectionAt (m : List Host.Cell) (i : Nat) : Section :=
  let a := 16 + 24 * i
  ⟨i, imgNat m a 8, imgNat m (a + 8) 8, imgNat m (a + 16) 4, bit (imgNat m (a + 20) 4) 0⟩

/-- The device cells of a bench or HBM section. -/
def devCells (m : List Host.Cell) (x : Section) : List Host.Cell :=
  (m.filter fun c => inRange x.off (x.off + x.len) c.1).map fun c => (sectionLo x.num + (c.1 - x.off), c.2)

/-! ### Domains (R474, R512) -/

/-- Whether a section lies on the east half. -/
def eastSection (i : Nat) : Bool := if i < 129 then decide (32 ≤ (i - 1) % 64) else decide (4 ≤ i - 129)

/-- The job of an operation. -/
def snapOf (s : State) (q tag : Nat) : Option SnapJob := s.snap.filter fun j => j.q = q && j.tag = tag

/-- Whether a `MG.SNAPSHOT` needs a domain, with the first address it could not reach: a save every one that is not OFF, and
the die bridge; a restore those of the sections it has still to write. -/
def snapNeeds (s : State) (o : Op) (d : Nat) : Option Nat :=
  if snRestore o then
    (snapOf s o.q o.tag).bind fun j => j.parts.findSome? fun x =>
      if 0 < x.1 && x.1 < 137 && (sectionPd x.1 = d || (d = dBridge && eastSection x.1)) then some (sectionLo x.1) else none
  else if d < 72 then (if domainDark s d then none else some (sectionLo (65 + d)))
  else if d = dBridge then some (latheBase 64)
  else none

/-- Whether a command needs the units of a domain (R474), with the first address it could not reach: of the die bridge what
lies on the east half (R18). -/
def needsDomain (s : State) (o : Op) (d : Nat) : Option Nat :=
  if opCode o = 0x64 then snapNeeds s o d
  else
  let ls := lathesUsed s o
  if d < 64 then (if ls.any fun l => l / 2 = d then some (latheBase (2 * d)) else none)
  else if d < 72 then hitIn (touched s o) ((d - 64) * stackBytes) (min hbmEnd ((d - 63) * stackBytes))
  else if d = dTail then
    (if opCode o / 16 = 3 then some ((touchCopy s o).getLast?.getD (0, 0)).1
     else (tailLathes s o).head?.map latheBase)
  else if d = dBridge then
    (match ls.find? fun l => 64 ≤ l with
     | some l => some (latheBase l)
     | none =>
       let rs := touched s o
       match hitIn rs (4 * stackBytes) hbmEnd with
       | some a => some a
       | none => hitIn rs (latheBase 64) benchEnd)
  else none

/-! ### Ends -/

/-- Free every accumulator set of the pairs that `p` picks. -/
def freePairs (s : State) (p : Nat → Bool) : State :=
  { s with dies := { s.dies with
    lost := []
    spindles := (s.dies.spindles.map fun e => if p (e.1 / 128) then (e.1, freeSet (freeSet e.2 0) 1) else e).filter fun e =>
      e.2 != Spindle.idle } }

/-- The bytes of a range, each the earlier one or, where the image has one that has arrived, the restored one, by a free choice
(R512). -/
def mixCells (idx lo hi : Nat) (arrived : Nat → Bool) (old new : List Host.Cell) : List Host.Cell :=
  let keys := ((old ++ new).map (·.1)).filter fun a => inRange lo hi a && arrived a
  keys.foldl (fun m a => memPut m a (if (Config.freeByte idx (a - lo)).toNat % 2 = 1 then memByte new a else memByte old a)) old

/-- Leave the destination of the section under way as any mixture of its earlier bytes and those that have arrived (R512); its
poison stays as it was (DESIGN CHOICE, log 43). -/
def mixRange (s : State) (j : SnapJob) (x : Section) : State :=
  if x.num < 65 then s
  else
    let here := fun (a : Nat) => j.got.any fun g => inRange g.1 g.2 (x.off + (a - sectionLo x.num))
    nextFree { s with mems := { s.mems with
      dev := mixCells s.freeIdx (sectionLo x.num) (sectionHi x.num) here s.mems.dev (devCells j.image x) } }

/-- The section that a restore was writing when it ended, if it had begun to write (R512). -/
def restoring (s : State) (o : Op) : Option (SnapJob × Nat) :=
  match snapOf s o.q o.tag with
  | some j => if snRestore o then (match j.parts with | (i, _, _) :: _ => if i < 137 then some (j, i) else none | [] => none) else none
  | none => none

/-- The first local address that a save has not moved (R394). -/
def unmoved (s : State) (j : SnapJob) : Nat :=
  ((s.fab.sent.filter fun x => x.q = j.q && x.tag = j.tag).map (·.local_)
    ++ (s.fab.pieces.filter fun x => x.q = j.q && x.tag = j.tag).map (·.local_)).foldl min j.pos

/-- What an operation that ends early reports: a restore that had begun to write, the first address of the section it was
writing (R512); a save whose route fails, the first local address it had not moved (R394); any other as it stands. -/
def snapFail (s : State) (o : Op) (e : Fail) : Fail :=
  match restoring s o, snapOf s o.q o.tag with
  | some x, _ => sectionFail e.code x.2
  | none, some j =>
    if e.code = cLinkDown && e.kind = 0 && !snRestore o then (match imageAddr s (unmoved s j) with | some a => failAt cLinkDown a | none => e)
    else e
  | none, none => e

/-- A `MG.SNAPSHOT` that ends early goes: a restore that had begun to write leaves the section it was writing as any mixture,
and every accumulator set free (R512). -/
def cutSnap (s : State) (q tag : Nat) : State :=
  match snapOf s q tag, findOp s q tag with
  | some _, some o =>
    let t := match restoring s o with
      | some x => freePairs (mixRange s x.1 (sectionAt x.1.image x.2)) fun _ => true
      | none => s
    { t with snap := none }
  | _, _ => s

end Sys2Proof.Machine
end

