-- ==== Sys2Proof/Machine/CheckRest.lean ====
section
/-!
DEFINITION. The checks that Copy Engine, Fabric Engine, synchronisation and management commands make at their start
(R315, R363 to R377), and the assembly of every command's start checks.
-/

namespace Sys2Proof.Machine

def badPacket : Fail := failPlain cBadDescriptor

/-! ### Device ranges (R16, R147, R165) -/

def checkRange (a n : Nat) : Chk :=
  match rangeFault a n with
  | some x => .error (failAt cAddrRange x)
  | none => .ok ()

/-! ### Copy Engine (R363 to R366, R244 to R247, R268) -/

/-- A region named by its lathe's bench base plus k (R363). -/
def regionName (a : Nat) : Bool := isBench a && (a - benchBase) % 0x20_0000 < 64

def modeWidth (wmode : Nat) : Nat := if wmode = 1 then 8 else if wmode = 2 then 4 else 1

/-- A region that a copy names is enabled (R157). -/
def checkCopyRegion (s : State) (a : Nat) : Chk :=
  need (getRegion s (regionLathe a) (regionK a)).enable badPacket

def checkCopy (s : State) (o : Op) : Chk := do
  need (cpLen o ≠ 0 && cpWmode o ≠ 3) badPacket
  need (!cpSrcRegion o || (regionName (cpSrc o) && !cpSrcHost o)) badPacket
  need (!cpDstRegion o || (regionName (cpDst o) && !cpDstHost o)) badPacket
  if cpSrcRegion o then checkCopyRegion s (cpSrc o)
  if cpDstRegion o then checkCopyRegion s (cpDst o)
  need (cpTunit o ≠ 3 || cpDstRegion o) badPacket
  need (cpWmode o = 0 || cpDstRegion o || (!cpDstHost o && isBench (cpDst o))) badPacket
  let w := modeWidth (cpWmode o)
  need (cpLen o % w = 0 && (cpDstRegion o || cpDst o % w = 0)) badPacket
  -- overlap (R363)
  let src := copyRanges s (cpSrc o) (cpLen o) (cpSrcHost o) (cpSrcRegion o) false
  let dst := copyRanges s (cpDst o) (cpLen o) (cpDstHost o) (cpDstRegion o) true
  need (!(src.any fun x => dst.any (overlap x))) badPacket
  need (!(cpSrcHost o && cpDstHost o && overlap (cpSrc o, cpLen o) (cpDst o, cpLen o))) badPacket
  need (!(cpSrcRegion o && cpDstRegion o && cpSrc o = cpDst o)) badPacket

def checkFill (o : Op) : Chk := do
  need (flLen o ≠ 0 && flDst o % 4 = 0 && flLen o % 4 = 0) badPacket
  need (flTunit o ≠ 3) badPacket

/-- A source tensor of a Copy Engine command, and a destination (R28, R184). -/
def checkSrc (r : TRef) : Chk := do
  need (opndCodeOk r.code) r.at_
  checkTRef r (fmtBits r.fmt)
def checkDst (r : TRef) : Chk := do
  need (outCodeOk r.code) r.at_
  checkTRef r (fmtBits r.fmt)

/-- The destination of an image, and its block summary's fields (R221, R246). -/
def checkImgOut (o : Op) : Chk := do
  need ((refC o).base % 64 = 0) (refC o).at_
  need (!ccHasBlk o || (ccBlkR o ≤ 8 && 5 ≤ ccBlkC o)) badPacket
  need ((refC o).base < hbmEnd) (failAt cAddrRange (refC o).base)

def checkCompress (o : Op) : Chk := do
  let r := refA o
  match ccForm o with
  | 0 =>
    checkSrc r
    let c := refC o
    need (outCodeOk c.code) c.at_
    need (c.code = r.code && c.inner == r.inner && c.rows = r.rows && c.cols = r.cols && c.batch = r.batch) c.at_
    checkTRef (storedRef c.inner c) (fmtBits c.fmt)
    needAux o 3
    checkTRef (metaRef c.inner c (auxRef o 3)) 4
  | 1 =>
    checkSrc r
    need (r.batch = 1) r.at_
    checkImgOut o
  | 2 =>
    checkTRef r 64
    need (r.batch = 1) r.at_
    need (ccE o ≠ 0) badPacket
    checkImgOut o
  | _ =>
    checkSrc r
    need (r.batch = 1) r.at_
    needAux o 4
    let k := auxRef o 4
    checkTRef k 2
    need (k.batch = 1 && k.cols = r.cols && (o.mCount.isSome || k.rows = r.rows)) k.at_
    match o.mCount with
    | some m => need (m ≤ r.rows && m ≤ k.rows) (failMPtr o)
    | none => .ok ()
    checkImgOut o

def checkTranspose (s : State) (o : Op) : Chk := do
  checkSrc (refA o)
  let c := refC o
  need (c.code = (refA o).code && c.rows = (refA o).cols && c.cols = (refA o).rows && c.batch = (refA o).batch) c.at_
  checkDst c
  need (pdOn s dTail) (failAt cDomainOff c.base)

/-- GATHER and SCATTER: tensors of one format and line length; the index list has an entry for every line (R366). -/
def checkMove (o : Op) (toIdx : Bool) : Chk := do
  checkSrc (refA o)
  let c := refC o
  need (c.code = (refA o).code && c.perLine = (refA o).perLine && c.batch = (refA o).batch) c.at_
  checkDst c
  needAux o 7
  let x := auxRef o 7
  checkTRef x 32
  need (x.lines = 1 && x.batch = 1 && (if toIdx then (refA o).lines else c.lines) ≤ x.perLine) x.at_

def checkCe' (s : State) (o : Op) : Chk := do
  match opCode o with
  | 0x30 => checkCopy s o
  | 0x31 => checkCompress o
  | 0x32 => checkTranspose s o
  | 0x33 => checkMove o false
  | 0x34 => checkMove o true
  | _ => checkFill o
  -- the Copy Engine lies in the copy-and-tailstock domain (R469, R474)
  need (pdOn s dTail) (failAt cDomainOff ((touchCopy s o).getLast?.getD (0, 0)).1)

/-! ### Fabric Engine (R342, R367 to R370, R394, R402, R413, R415) -/

/-- Whether the device stands alone (R394). -/
def standalone (s : State) : Bool := podShape s = 0 || podWord s = 0

def shareOf (s : State) (fn : Nat) : Nat := (getLimits s (64 + fn)).share

/-- A function's share in the present window: a change takes effect at the next (R342). -/
def shareNow (s : State) (fn : Nat) : Nat := tget (Limits.cold (64 + fn)).share s.fab.shares fn

def checkShare (s : State) (o : Op) : Chk := need (shareNow s (opFunc s o) ≠ 0) (failPlain cOverQuota)

def checkPutGet (s : State) (o : Op) : Chk := do
  need (fpLen o ≠ 0 && fpMode o ≠ 3) badPacket
  need (opCode o = 0x40 || fpMode o = 0) badPacket
  let w := modeWidth (fpMode o)
  need (fpOff o % w = 0 && fpLen o % w = 0) badPacket
  checkRange (fpLocal o) (fpLen o)
  need (fpPeer o = devId s || !standalone s) (failAt cLinkDown (fpLocal o))

/-- `FE.WINDOW_OPEN` (R179, R368, R402). A bench window of size 0 is refused, since no byte of it lies within a bench, and an
HBM window of size 0 opens; R179 and R368 give no least size (DESIGN CHOICE, log 78). -/
def checkWindowOpen (s : State) (o : Op) : Chk := do
  need (!(getWindow s (fwWin o)).opened) badPacket
  need (fwTunit o ≠ 3 || fwRegion o) badPacket
  if fwRegion o then need (regionName (fwBase o)) badPacket
  else if isBench (fwBase o) then
    need (fwBase o % 512 = 0 && fwSize o % 512 = 0 && fwSize o ≠ 0) badPacket
    need (latheOf (fwBase o) = latheOf (fwBase o + fwSize o - 1)) badPacket
  else
    need (fwBase o % 64 = 0 && fwSize o % 64 = 0 && !fwAcc o) badPacket
    need (fwBase o + fwSize o ≤ hbmEnd) badPacket

/-- The gateways of the pod, other than this device (R408). -/
def otherGateways (s : State) : Nat := (s.fab.gateways.filter fun d => d ≠ devId s).length

/-- `FE.RELAY`: a fifth gateway is refused (R408). -/
def checkRelay (s : State) (o : Op) : Chk := do
  need (!frEnable o || otherGateways s < 4) badPacket
  need (!frEnable o || !standalone s) (failPlain cLinkDown)

/-- What a collective checks (R370, R394, R413): a mask without this device ends as R413 says. -/
def checkMembers (s : State) (members : Nat) (local_ : Option Nat) : Chk := do
  need (bit members (devId s)) (failPlain cRemoteError)
  need (popBelow members 64 = 1 || !standalone s)
    (match local_ with | some a => failAt cLinkDown a | none => failPlain cLinkDown)

/-- The plain elements of a collective: their format, tensor and pattern table. An FE command runs on no lathe; its conversions
read lathe 0's slots (R51, R53; DESIGN CHOICE, log 60). -/
def checkPlain (s : State) (o : Op) : Chk := do
  let a := refA o
  need (opndCodeOk a.code) a.at_
  checkTRef a (fmtBits a.fmt)
  if a.fmt = .pat4 ∨ a.fmt = .pat8 then checkPatOperand s [0] (fPatA o) a.fmt false 24 (badWord o 18)

/-- The output of a collective that converts: its format, tensor, scale and pattern table, which is that of lathe 0 (R53, R130,
R354; DESIGN CHOICE, log 60). -/
def checkConverted (s : State) (o : Op) : Chk := do
  let c := refC o
  let f := outFmt o
  need (outCodeOk c.code) c.at_
  checkTRef c (fmtBits f)
  checkGroup o (outScaled o f)
  checkOutScale o f false c.rows c.cols c.batch
  checkPatOut s o f [0]

/-- `FE.ALLREDUCE` (R370, R415). It reads of the accumulation fields `split` and `acc_fmt`, with `entries`, and of the epilogue
scale, bias and activation: `topk` is not among the epilogue it applies (R71, R127, R349; DESIGN CHOICE, log 60). -/
def checkAllreduce (s : State) (o : Op) : Chk := do
  need (!fEpiRound o && fEpiAct o ≤ 5) (badWord o 19)
  let a := refA o
  let c := refC o
  checkConverted s o
  if collBit o then
    need (fSplit o ≤ 3 && fAccFmt o != 3) (badWord o 18)
    checkTRef a (arWidth o)
    need (c.batch ≠ 0 && a.batch % c.batch = 0) a.at_
  else
    checkPlain s o
    need (a.batch = c.batch) c.at_
  need (a.rows = c.rows && a.cols = c.cols) c.at_
  checkEpiVectors o c.cols
  needAux o 7
  let t := auxRef o 7
  checkTRef t (arWidth o)
  let bytes := fun (r : TRef) => r.batch * r.lines * lineBytesW (arWidth o) r.perLine
  need (bytes a ≤ bytes t) t.at_
  checkMembers s (collMembers o) (some a.base)

/-- An image that a collective reads at an entry: a list of R221 whose values are FP32 or BF16 (R223, R247). -/
def checkList (s : State) (r : TRef) : Chk := do
  need (r.reserved = 0) r.at_
  checkImage r.base (imgHeader s r.base) fun f => f == .fp32 || f == .bf16

/-- The combine form of `FE.ALLTOALL` (R250, R370, R419). -/
def checkCombine (s : State) (o : Op) : Chk := do
  need (s.head.expertMaps.any fun m => m.queue == o.q && m.members == collMembers o) badPacket
  checkPlain s o
  checkConverted s o
  need ((refC o).batch = 1) (refC o).at_
  checkList s (auxRef o 4)

/-- The dispatch form of `FE.ALLTOALL` (R249, R370): its lines move as they are. -/
def checkDispatch (s : State) (o : Op) : Chk := do
  let a := refA o
  let c := refC o
  checkSrc a
  checkDst c
  need (a.code = c.code && a.batch = 1) c.at_
  need ((auxRef o 4).base % 64 = 0 && (auxRef o 4).reserved = 0) (auxRef o 4).at_
  need ((auxRef o 6).perLine = c.batch && (auxRef o 6).lines = 1) (auxRef o 6).at_
  needAux o 3
  checkTRef (auxRef o 3) 32
  needAux o 7
  checkList s (auxRef o 7)
  let h := imgHeader s (auxRef o 7).base
  need (imgRows h ≤ (auxRef o 3).perLine && imgCols h ≤ a.rows) (auxRef o 7).at_

/-- `FE.ALLTOALL` (R249, R250, R370, R419). -/
def checkAlltoall (s : State) (o : Op) : Chk := do
  needAux o 4
  needAux o 6
  checkTRef (auxRef o 6) 32
  if collBit o then checkCombine s o else checkDispatch s o
  need ((refA o).cols = (refC o).cols) (refC o).at_
  checkMembers s (collMembers o) (some (refA o).base)

def checkFabric (s : State) (o : Op) : Chk := do
  checkShare s o
  match opCode o with
  | 0x40 | 0x41 => checkPutGet s o
  | 0x42 => checkAllreduce s o
  | 0x43 => checkAlltoall s o
  | 0x44 => checkWindowOpen s o
  | 0x46 => checkRelay s o
  | _ => .ok ()

/-! ### Management (R372 to R377) -/

/-- Greatest index of an item of `MG.QUERY`, plus one (R373). -/
def mqIndices (item : Nat) : Nat :=
  match item with | 3 => 8192 | 4 => 1024 | 6 => 81 | 7 => 8192 | 9 => 128 | _ => 65536

def checkQuery (o : Op) : Chk := do
  need (1 ≤ mqItem o && mqItem o ≤ 9) badPacket
  need (mqIndex o < mqIndices (mqItem o)) badPacket
  need (mqAddr o % 16 = 0) badPacket
  need (mqHost o || mqAddr o + mqSize (mqItem o) ≤ hbmEnd) (failAt cAddrRange (mqAddr o))

def portEnabled (s : State) (p : Nat) : Bool := bit (keepReg s 4).toNat p

/-- A request for a domain (R374, R470, R479, DEDUCED, log 35). -/
def checkDomain (s : State) (o : Op) : Chk := do
  let d := mpDomain o
  need (d < 80 && mpState o ≠ 3) badPacket
  need (mpState o ≠ 1 || d < 64) badPacket
  need (!(72 ≤ d && d < 78 && mpState o = 0) || portEnabled s (d - 72)) badPacket

/-- `MG.QUOTA` (R336, R338, R339). -/
def quotaMax (dim : Nat) : Nat := match dim with | 0 => 4096 | 1 => 196608 | 2 => 8192 | _ => 64

def checkQuota (s : State) (o : Op) : Chk := do
  let fn := opFunc s o
  need (quOp o ≤ 6) badPacket
  match quOp o with
  | 0 | 2 =>
    need (quBase o % 0x20_0000 = 0 && quSize o % 0x20_0000 = 0) badPacket
    need (quBase o + quSize o ≤ hbmEnd) (failAt cAddrRange (max hbmEnd (quBase o)))
  | 1 | 3 => need (quBase o + quSize o ≤ 4096) (failAt cAddrRange (benchRowAddr 0 (max 4096 (quBase o))))
  | 4 =>
    need (quDim o ≤ 3 && quSize o ≤ quotaMax (quDim o)) badPacket
    need (fn = 0 || (getQ s (quQueue o)).func.toNat = fn) badPacket
  | 5 =>
    need (quDim o ≤ 3 && quSize o ≤ quotaMax (quDim o) && quFunc o ≤ 16) badPacket
    need (fn = 0) badPacket
  | _ =>
    need (quFunc o ≤ 16 && quBase o + quSize o ≤ 4096) badPacket
    need (fn = 0) badPacket

def checkPatternLoad (s : State) (o : Op) : Chk := do
  need (plImage o % 16 = 0) badPacket
  need (plHost o || plImage o + imageBytes s o ≤ hbmEnd) (failAt cAddrRange (plImage o))
  need (plRows o ≠ 0 && plCols o ≠ 0) badPacket

def checkFenceUnit (o : Op) : Chk := need (fuOp o % 2 = 0 || fuUnit o < 128) badPacket

def checkStage (o : Op) : Chk := do
  if !stHost o then
    need (stSrc o + 65536 ≤ hbmEnd) (failAt cAddrRange (max hbmEnd (stSrc o)))

def checkManage (s : State) (o : Op) : Chk :=
  match opCode o with
  | 0x53 => checkMembers s (barMembers o) none
  | 0x60 => checkQuery o
  | 0x61 => checkDomain s o
  | 0x62 => checkQuota s o
  | 0x64 => need (!snToPeer o || snPeer o = devId s || !standalone s) (failAt cLinkDown (latheBase 0))
  | 0x66 => checkPatternLoad s o
  | 0x68 => checkStage o
  | 0x6B => checkFenceUnit o
  | _ => .ok ()

/-! ### Relayed packets (R410) and tallies in error (R491) -/

/-- Addresses a packet and its descriptor mark as host bus addresses. -/
def hostMarked (o : Op) : List Nat :=
  let c := opCode o
  if formD c then (if descHost o then [descPtr o] else []) ++ (if fAuxMask o ≠ 0 && fAuxHost o then [fAuxPtr o] else [])
  else
    match c with
    | 0x30 => (if cpSrcHost o then [cpSrc o] else []) ++ (if cpDstHost o then [cpDst o] else [])
    | 0x35 => if flDstHost o then [flDst o] else []
    | 0x60 => if mqHost o then [mqAddr o] else []
    | 0x64 => if snToPeer o then [] else [snAddr o]
    | 0x66 => if plHost o then [plImage o] else []
    | 0x68 => if stHost o then [stSrc o] else []
    | _ => []

/-- Whether a queue is fed by a relay (R409). -/
def relayed (s : State) (q : Nat) : Bool := s.fab.relaysIn.any fun r => r.dstQ == q

/-- A relayed packet names no host address (R410). -/
def checkRelayed (_ : State) (o : Op) : Chk :=
  if !o.relayed then .ok ()
  else
    match hostMarked o with
    | a :: _ => .error { code := cAddrRange, addr := a, kind := 2 }
    | [] => .ok ()

/-- The other devices that a command sends packets to. -/
def peersOf (s : State) (o : Op) : List Nat :=
  let m := fun (mask : Nat) => (List.range 64).filter fun d => bit mask d
  (match opCode o with
    | 0x40 | 0x41 => [fpPeer o]
    | 0x42 | 0x43 => m (collMembers o)
    | 0x46 => [frTarget o]
    | 0x53 => m (barMembers o)
    | 0x64 => if snToPeer o then [snPeer o] else []
    | _ => []).filter (· ≠ devId s)

/-- The core words that a command concerns before its descriptor is read: its queue's state, its tag, and the tallies it waits
on or signals (R491). -/
def coreOfPacket (o : Op) : List CoreWord :=
  [.queue o.q, .tag o.q o.tag]
    ++ ((List.range (pNWait o)).map fun i => .tally (bits (waitEntry o i) 0 12))
    ++ (List.range (pNSig o)).map fun i => .tally (bits (sigEntry o i) 0 12)

/-- The core words that a command concerns beside those: the tallies bound to its arrivals, the window it opens or closes, and
the routes to the devices it sends to (R491). -/
def coreOfCommand (s : State) (o : Op) : List CoreWord :=
  (talliesOf o).map .tally ++ (if opCode o = 0x44 ∨ opCode o = 0x45 then [.window (fwWin o)] else []) ++ (peersOf s o).map .route

/-! ### The start checks -/

/-- A command that needs a domain which is SWITCHING ends at its start (R474). -/
def checkSwitching (s : State) (o : Op) : Chk :=
  match s.power.domains.findSome? fun d => match d.2 with | .switching _ _ _ _ => needsDomain s o d.1 | _ => none with
  | some a => .error (failAt cDomainOff a)
  | none => .ok ()

/-- The checks that need the descriptor, the reference block and the row count. -/
def checkCommand (s : State) (o : Op) : Chk := do
  match opCode o / 16 with
  | 1 => checkMatrix s o
  | 2 => checkVector s o
  | 3 => checkCe' s o
  | 4 => checkFabric s o
  | _ => checkManage s o
  checkConfined s o
  checkSwitching s o

/-- The headers the checks read: compressed-row images and the knot list (R223, R57). -/
def headerRanges (o : Op) : List (Nat × Nat) :=
  let c := opCode o
  let img : Nat → List (Nat × Nat) := fun a => if a % 64 = 0 ∧ a + 64 ≤ hbmEnd then [(a, 64)] else []
  if c / 16 = 1 ∨ c = 0x27 then
    (if fCsrA o then img (refA o).base else []) ++ (if fCsrB o then img (refB o).base else [])
      ++ (if (c = 0x13 ∨ c = 0x27) ∧ fKnotRef o ≠ 0 ∧ fKnotRef o + 16 ≤ hbmEnd then [(fKnotRef o, 16)] else [])
  else if c = 0x43 then
    (if collBit o then img (auxRef o 4).base else img (auxRef o 7).base)
  else []

/-- Read a range that a pointer names, in HBM or in host memory (R313, R607). -/
def readPtr (s : State) (o : Op) (h : HostReply) (host : Bool) (a n : Nat) :
    State × BitVec 8 × Except Fail Nat :=
  if host then
    match hostFault s (opFunc s o) h a n with
    | some e => (s, 0#8, .error e)
    | none => (s, 0#8, .ok (leNat (hostBytes s (opFunc s o) a n)))
  else
    match readAll s [(a, n)] with
    | (s', f, some e) => (s', f, .error e)
    | (s', f, none) => (s', f, .ok (leNat (devBytes s' a n)))

/-- The result of a start: the state after its reads, the flags, and the operation or its failure. -/
structure Start where
  s : State
  flags : BitVec 8
  res : Except Fail Op

/-- Go on with a check that reads nothing. -/
def Start.check (x : Start) (c : State → Op → Chk) : Start :=
  match x.res with
  | .error _ => x
  | .ok o =>
    match c x.s o with
    | .error e => { x with res := .error e }
    | .ok _ => x

/-- Go on with a read that fills in the operation. -/
def Start.read (x : Start) (h : HostReply) (want : Op → Option (Bool × Nat × Nat)) (put : Op → Nat → Op) : Start :=
  match x.res with
  | .error _ => x
  | .ok o =>
    match want o with
    | none => x
    | some (host, a, n) =>
      match readPtr x.s o h host a n with
      | (s, f, .error e) => ⟨s, x.flags ||| f, .error e⟩
      | (s, f, .ok w) => ⟨s, x.flags ||| f, .ok (put o w)⟩

/-- Use core words of the operation (R491). -/
def Start.core (x : Start) (ws : State → Op → List CoreWord) : Start :=
  match x.res with
  | .error _ => x
  | .ok o =>
    match useCores x.s (ws x.s o) with
    | (s, some e) => ⟨s, x.flags, .error e⟩
    | (s, none) => ⟨s, x.flags, .ok o⟩

/-- Read the headers of the images that the operation names. -/
def Start.headers (x : Start) : Start :=
  match x.res with
  | .error _ => x
  | .ok o =>
    match readAll x.s (if formD (opCode o) then headerRanges o else []) with
    | (s, f, some e) => ⟨s, x.flags ||| f, .error e⟩
    | (s, f, none) => ⟨s, x.flags ||| f, .ok o⟩

/-- The start of an operation up to its last check (R313, R315, R351, R607). -/
def startOp (s : State) (o : Op) (h : HostReply) : Start :=
  let seed := (List.range 4).foldl (fun w i => w + (tget 0#32 s.glob.seed i).toNat * 2 ^ (32 * i)) 0
  let d := fun o : Op => formD (opCode o)
  let x : Start := ⟨s, 0#8, .ok { o with seed := seed, grit := defaultGrit s, policy := defaultPolicy s }⟩
  let x := x.core fun _ o => coreOfPacket o
  let x := x.check checkPacket
  let x := x.check checkRelayed
  let x := x.check fun _ o => if d o then checkDescPtr o else .ok ()
  let x := x.read h (fun o => if d o then some (descHost o, descPtr o, 256) else none) fun o w => { o with desc := w }
  let x := x.check fun _ o => if d o then checkDescReserved o else .ok ()
  let x := x.check fun s o => if d o then checkRelayed s o else .ok ()
  let x := x.check fun _ o => if d o then checkAuxPtr o else .ok ()
  let x := x.read h (fun o => if d o && fAuxMask o ≠ 0 then some (fAuxHost o, fAuxPtr o, 256) else none)
    fun o w => { o with aux := w }
  let x := x.check fun _ o => if d o && readsM o then checkMPtr o else .ok ()
  let x := x.read h (fun o => if d o && readsM o then some (false, fMPtr o, 4) else none)
    fun o w => { o with mCount := some w }
  x.headers.check checkCommand |>.core coreOfCommand

end Sys2Proof.Machine
end

