-- ==== Sys2Proof/Machine/Wire.lean ====
section
/-!
DEFINITION. Fabric packets (R384, R385) and routes (R393, R394). The contents of `body` and `coll`, which R384 leaves
open for most kinds, are the model's (DESIGN CHOICE, log 36).
-/

namespace Sys2Proof.Machine

def kIdle : Nat := 0
def kLink : Nat := 1
def kHello : Nat := 2
def kRoute : Nat := 3
def kWrite : Nat := 4
def kRead : Nat := 5
def kData : Nat := 6
def kResp : Nat := 7
def kColl : Nat := 8
def kRelay : Nat := 9
def kReply : Nat := 10

def hKind (h : Nat) : Nat := bits h 0 4
def hVc (h : Nat) : Nat := bits h 4 2
def hSrc (h : Nat) : Nat := bits h 6 6
def hDst (h : Nat) : Nat := bits h 12 6
def hFlits (h : Nat) : Nat := bits h 18 7
def hHops (h : Nat) : Nat := bits h 25 5
def hTxn (h : Nat) : Nat := bits h 32 32
def hWin (h : Nat) : Nat := bits h 64 8
def hOff (h : Nat) : Nat := bits h 72 40
def hMode (h : Nat) : Nat := bits h 112 2
def hStatus (h : Nat) : Nat := bits h 120 8
def hColl (h : Nat) : Nat := bits h 128 32
def hBody (h : Nat) : Nat := bits h 160 320
def hE2e (h : Nat) : Nat := bits h 480 32
/-- Bytes a WRITE carries or a READ asks for; a RESP's address; both in `body` (DESIGN CHOICE, log 36). -/
def hLen (h : Nat) : Nat := bits h 160 32
def hAddr (h : Nat) : Nat := bits h 160 48

/-- The fields of a header. -/
structure Hdr where
  kind : Nat
  vc : Nat
  src : Nat
  dst : Nat
  txn : Nat := 0
  win : Nat := 0
  off : Nat := 0
  mode : Nat := 0
  status : Nat := 0
  coll : Nat := 0
  body : Nat := 0

/-- Data padded to whole flits. -/
def padFlits (bs : List Byte) : List Byte := bs ++ List.replicate (cdiv bs.length 64 * 64 - bs.length) 0#8

/-- The end-to-end check of R384 over a header, `hops` taken as zero, and the data flits (R385). -/
def e2eOf (h : Nat) (data : List Byte) : Nat := crc32c (leBytes 60 (setBits h 25 5 0) ++ padFlits data)

/-- A packet with its end-to-end check. -/
def mkPacket (x : Hdr) (data : List Byte) : Packet :=
  let h := x.kind % 16 + (x.vc % 4) * 2 ^ 4 + (x.src % 64) * 2 ^ 6 + (x.dst % 64) * 2 ^ 12
    + (cdiv data.length 64 % 128) * 2 ^ 18 + (x.txn % 2 ^ 32) * 2 ^ 32 + (x.win % 256) * 2 ^ 64
    + (x.off % 2 ^ 40) * 2 ^ 72 + (x.mode % 4) * 2 ^ 112 + (x.status % 256) * 2 ^ 120 + (x.coll % 2 ^ 32) * 2 ^ 128
    + (x.body % 2 ^ 320) * 2 ^ 160
  ⟨h + e2eOf h data * 2 ^ 480, data⟩

/-! ### The pod's shape (R388) -/

/-- The extent of the z dimension (R388). -/
def extentZ (shape : Nat) : Nat := match shape with | 2 => 2 | 3 => 4 | _ => 1

/-- The device that a port of a device reaches, its coordinates taken modulo the pod's extents (R388). -/
def nbrDev (shape d p : Nat) : Nat :=
  let x := d % 4
  let y := d / 4 % 4
  let z := d / 16
  let at_ := fun x y z : Nat => x % 4 + 4 * (y % 4) + 16 * (z % extentZ shape)
  match p with
  | 0 => at_ (x + 1) y z
  | 1 => at_ (x + 3) y z
  | 2 => at_ x (y + 1) z
  | 3 => at_ x (y + 3) z
  | 4 => if shape = 1 then at_ (x + 2) y z else at_ x y (z + 1)
  | _ => if shape = 1 then at_ x (y + 2) z else if shape = 2 then at_ x y (z + 1) else at_ x y (z + 3)

/-- The neighbour's port it is cabled to (R388). -/
def nbrPortOf (shape p : Nat) : Nat :=
  match p with
  | 0 => 1 | 1 => 0 | 2 => 3 | 3 => 2
  | 4 => if shape = 3 then 5 else 4
  | _ => if shape = 3 then 4 else 5

/-- A device's coordinate in the dimension that a port moves in, and whether the port moves toward higher coordinates (R388). -/
def portCoord (shape p d : Nat) : Nat :=
  if p < 2 || (shape = 1 && p = 4) then d % 4 else if p < 4 || shape = 1 then d / 4 % 4 else d / 16
def portRises (shape p : Nat) : Bool := p == 0 || p == 2 || p == 4 || shape != 3 && p == 5

/-- Whether a packet from `src` that leaves device `d` by port `p` stands in the upper class of the buffers it comes to: it
entered the ring at its source's coordinate, and has crossed the ring's wrap link, that link included (R386; DEDUCED, log 36).
-/
def upperClass (shape src d p : Nat) : Bool :=
  let c := portCoord shape p (nbrDev shape d p)
  if portRises shape p then decide (c < portCoord shape p src) else decide (portCoord shape p src < c)

/-- The first-hop port to a destination, if there is a route (R393, R394). -/
def routeTo (s : State) (d : Nat) : Option Nat := (s.fab.routes.find? fun r => r.1 = d).map (·.2)

/-- Whether the die bridge cuts off an N-port: one of the east half, with the bridge's domain not ON (R15, R18). -/
def portCut (s : State) (p : Nat) : Bool := decide (3 ≤ p) && !pdOn s dBridge

/-- Whether the route to a device begins at a port that is cut off. -/
def routeCut (s : State) (d : Nat) : Bool := (routeTo s d).any (portCut s)

/-- A frame's message: up to 20 flits, SEQ, ACK and CRC (R382). -/
def frameOf (flits : List Nat) (seq ack : Nat) : Nat :=
  let m := packCodes 512 flits + (seq % 4096) * 2 ^ 10240 + (ack % 4096) * 2 ^ 10252
  m + crc16 1283 m * 2 ^ 10264

/-- `n` symbols of 10 bits, lowest first. -/
def symbols : Nat → Nat → List Nat
  | 0, _ => []
  | n + 1, w => w % 1024 :: symbols n (w / 1024)

/-- A codeword over 5,140 message bits: 514 message symbols and 30 of parity (R382; the order within a codeword is a DESIGN
CHOICE, log 36). -/
def codeword (m : Nat) : List Nat := symbols 514 m ++ symbols 30 (Config.rsParity m)

/-- Two lists taken in turn. -/
def interleave {α : Type} : List α → List α → List α
  | x :: a, y :: b => x :: y :: interleave a b
  | a, b => a ++ b

/-- The symbols of a frame: codeword A over bits 5139:0 of its message, codeword B over bits 10279:5140, interleaved
(R382). -/
def frameSymbols (m : Nat) : List Nat := interleave (codeword (bits m 0 5140)) (codeword (bits m 5140 5140))

/-- Symbols dealt round-robin over lanes. -/
def dealLanes (lanes xs : List Nat) : List (Nat × List Nat) :=
  lanes.zipIdx.map fun l => (l.1, (xs.zipIdx.filter fun x => x.2 % lanes.length = l.2).map (·.1))

/-- The active lanes of a port, in ascending number (R380, R382). -/
def activeLanes (v : Port) : List Nat := (List.range 8).filter fun l => v.lanesUp.getLsbD l

/-- Put a frame on the lanes of a port. -/
def putFrame (s : State) (p f : Nat) : State := emit s (.frame p (dealLanes (activeLanes (getPort s p)) (frameSymbols f)))

/-- An IDLE header, from a device to its neighbour (R384). -/
def idleFlit (me nbr : Nat) : Nat := (mkPacket { kind := kIdle, vc := 0, src := me, dst := nbr } []).hdr

/-- A frame's slots: those that carry nothing hold IDLE headers (R384). -/
def frameSlots (me nbr : Nat) (flits : List Nat) : List Nat := flits ++ List.replicate (20 - flits.length) (idleFlit me nbr)

/-- Send up to 20 flits in one frame, which is kept for replay (R382, R383). -/
def sendFrame (s : State) (p : Nat) (flits : List Nat) : State :=
  let v := getPort s p
  let f := frameOf (frameSlots (devId s) v.nbrId.toNat flits) v.sendSeq.toNat (v.expSeq - 1#12).toNat
  setPort (putFrame s p f) p { v with sendSeq := v.sendSeq + 1#12, sent := (f :: v.sent).take 512 }

/-- The flits of a run of bytes. -/
def dataFlits : Nat → List Byte → List Nat
  | 0, _ => []
  | n + 1, bs => leNat (bs.take 64) :: dataFlits n (bs.drop 64)

/-- Send flits, 20 to a frame. -/
def sendFlits (s : State) (p : Nat) : Nat → List Nat → State
  | 0, _ => s
  | n + 1, fs => if fs.isEmpty then s else sendFlits (sendFrame s p (fs.take 20)) p n (fs.drop 20)

/-- The flits of a packet (R384). -/
def packetFlits (p : Packet) : List Nat := p.hdr :: dataFlits (cdiv p.data.length 64) p.data

/-- Whether a port takes traffic: it is UP, or its traffic still moves away (R398). -/
def takesTraffic (v : Port) : Bool := v.state == .up || v.state == .quiescing

/-! ### Credits (R386) -/

def setFab (s : State) (f : Fabric) : State := { s with fab := f }

/-- The flits of a packet, its header among them. -/
def flitCount (p : Packet) : Nat := 1 + cdiv p.data.length 64

/-- The port a waiting packet goes out by: its own while that takes traffic, else the first hop of its route while that is UP:
no new packet goes over a port that leaves, nor over one that the die bridge cuts off (R18, R393, R398). -/
def portFor (s : State) (x : Option Nat × Packet) : Option Nat :=
  match x.1 with
  | some p => if takesTraffic (getPort s p) && !portCut s p then some p else none
  | none => (routeTo s (hDst x.2.hdr)).bind fun p => if (getPort s p).state = .up && !portCut s p then some p else none

/-- Whether a packet that has no port still waits for one: its route is being recomputed, or leads over a port that leaves. -/
def waitsForRoute (s : State) (x : Option Nat × Packet) : Bool :=
  x.1.isNone && (s.fab.routesDue || ((routeTo s (hDst x.2.hdr)).isSome && !routeCut s (hDst x.2.hdr)))

/-- Whether a port holds credit for `n` flits of a channel. -/
def hasCredit (s : State) (p c n : Nat) : Bool := decide (n ≤ (tget 0#16 (getPort s p).credits c).toNat)

/-! ### Receive buffers (R386) -/

/-- A LINK flit that returns credits of the four channels (R386). -/
def creditFlit (me nbr : Nat) (n : Nat → Nat) : Nat :=
  (mkPacket { kind := kLink, vc := 3, src := me, dst := nbr
              body := (List.range 4).foldl (fun w c => w + (n c % 2 ^ 16) * 2 ^ (16 * c)) 0 } []).hdr

/-- `n` flits leave a channel's buffers. -/
def takeFrom (v : Port) (c n : Nat) : Port :=
  { v with rxTaken := tput 0#16 v.rxTaken c (tget 0#16 v.rxTaken c + BitVec.ofNat 16 n) }

/-- Return the credit of the flits that have left a port's buffers (R386). -/
def returnCredit (s : State) (p : Nat) : State :=
  let v := getPort s p
  if v.rxTaken.isEmpty then s
  else sendFrame (setPort s p { v with rxTaken := [] }) p
    [creditFlit (devId s) v.nbrId.toNat fun c => (tget 0#16 v.rxTaken c).toNat]

/-- The port whose buffers hold these flits. -/
def heldAt (s : State) (fs : List Nat) : Option Nat :=
  (List.range 6).find? fun p => (getPort s p).rxHeld.any fun x => x.1 == fs

/-- A packet leaves the buffers that hold it, if any do (one that reached the device by no frame lies in none), and its credit
goes back (R386). -/
def freeBuffer (s : State) (k : Packet) : State :=
  let fs := packetFlits k
  match heldAt s fs with
  | none => s
  | some p =>
    let v := getPort s p
    match v.rxHeld.find? fun x => x.1 == fs with
    | some x => returnCredit (setPort s p (takeFrom { v with rxHeld := v.rxHeld.erase x } (hVc k.hdr) fs.length)) p
    | none => s

/-- A packet as it arrived here, if it is passed on. -/
def asArrived (k : Packet) : Packet := { k with hdr := setBits k.hdr 25 5 (hHops k.hdr - 1) }

/-- A packet that was passed on, or is no longer, leaves the buffers it arrived in. -/
def freePassed (s : State) (k : Packet) : State := if hHops k.hdr = 0 then s else freeBuffer s (asArrived k)

/-- Put a packet on a port, in frames, with the credit it takes (R384, R386). -/
def putPacket (s : State) (p : Nat) (k : Packet) : State :=
  let v := getPort s p
  let c := hVc k.hdr
  let s := setPort s p { v with credits := tput 0#16 v.credits c (tget 0#16 v.credits c - BitVec.ofNat 16 (flitCount k)) }
  freePassed (emit (sendFlits s p 5 (packetFlits k)) (.packet p k)) k

/-- The class of the next buffers that a packet goes to by a port: its channel, and whether it stands in the upper class
(R386). -/
def classAt (s : State) (p : Nat) (k : Packet) : Nat × Nat × Bool :=
  (p, hVc k.hdr, upperClass (podShape s) (hSrc k.hdr) (devId s) p)

/-- Send the waiting packets that may go. A packet without credit holds back those behind it on its port, channel and class. -/
def drainGo : List (Option Nat × Packet) → List (Nat × Nat × Bool) → List (Option Nat × Packet) → State → State
  | [], _, kept, s => setFab s { s.fab with outq := kept.reverse }
  | x :: r, blocked, kept, s =>
    match portFor s x with
    | none => if waitsForRoute s x then drainGo r blocked (x :: kept) s else drainGo r blocked kept (freePassed s x.2)
    | some p =>
      let c := classAt s p x.2
      if blocked.contains c || !hasCredit s p (hVc x.2.hdr) (flitCount x.2) then drainGo r (c :: blocked) (x :: kept) s
      else drainGo r blocked kept (putPacket s p x.2)

def drain (s : State) : State := drainGo s.fab.outq [] [] s

/-- Let a packet wait to go out; one that waits already does not wait twice. -/
def queueOut (s : State) (x : Option Nat × Packet) : State :=
  if s.fab.outq.contains x then s else setFab s { s.fab with outq := s.fab.outq ++ [x] }

/-- Send a packet over its route, as far as credit lets it (R384, R386). A packet to an unreachable destination is not sent
(R394). -/
def sendPacket (s : State) (p : Packet) : State := drain (queueOut s (none, p))

/-- Count a discarded packet (R384, R385) on the port of the route to its source (DESIGN CHOICE, log 36). -/
def countDiscard (s : State) (src : Nat) : State :=
  let p := (routeTo s src).getD 0
  let v := getPort s p
  setPort s p { v with discard := satInc v.discard }

/-- The next transaction number toward a destination (R384). -/
def takeTxn (s : State) (d : Nat) : Nat × State :=
  let t := tget 0 s.fab.txns d
  (t, setFab s { s.fab with txns := tput 0 s.fab.txns d ((t + 1) % 2 ^ 32) })

/-- A packet under another transaction number, its end-to-end check formed anew. -/
def stamp (p : Packet) (t : Nat) : Packet :=
  let h := setBits p.hdr 32 32 t
  ⟨setBits h 480 32 (e2eOf (setBits h 480 32 0) p.data), p.data⟩

/-- Packets without an answer toward a destination (R395). -/
def unanswered (s : State) (d : Nat) : Nat := (s.fab.sent.filter fun x => x.dst = d).length

/-- Send a packet under the next transaction number and keep it until its answer arrives (R395). -/
def sendTracked (s : State) (q tag : Nat) (p : Packet) (local_ len : Nat) : State :=
  let d := hDst p.hdr
  let (t, s) := takeTxn s d
  let p := stamp p t
  sendPacket (setFab s { s.fab with sent := s.fab.sent ++ [⟨q, tag, d, t, p, local_, len, 0, false⟩] }) p

/-! ### ROUTE flits (R393, R397) -/

/-- A ROUTE flit's news as bytes, each list after its length (DESIGN CHOICE, log 36). -/
def routeBytes (n : RouteNews) : List Byte :=
  leBytes 2 n.links.length ++ n.links.flatMap (fun l => leBytes 2 (l.dev % 64 + (l.port % 8) * 2 ^ 6 + b2n l.live * 2 ^ 9))
    ++ leBytes 2 n.gateways.length ++ n.gateways.flatMap (fun g => leBytes 1 (g.1 % 64 + b2n g.2 * 2 ^ 6))
    ++ leBytes 2 n.epochs.length ++ n.epochs.flatMap (fun e => leBytes 1 e.1 ++ leBytes 2 e.2)

/-- Send news on every port that takes traffic (R393). -/
def sendRoute (s : State) (n : RouteNews) : State :=
  let ps := (List.range 6).filter fun p => takesTraffic (getPort s p)
  emit (drain (ps.foldl (fun s p => queueOut s (some p, mkPacket
    { kind := kRoute, vc := 3, src := devId s, dst := (getPort s p).nbrId.toNat } (routeBytes n))) s)) (.route n)

/-- Whether this device carries the gateway bit: while any relay of its own is enabled (R389, R408). -/
def ownGateway (s : State) : Nat × Bool := (devId s, !s.fab.relays.isEmpty)

/-- The gateway bit is announced (R389, R408). -/
def announce (s : State) : State := sendRoute s { links := [], gateways := [ownGateway s] }

/-- All that a device knows of the pod: its live links, its gateways and its reset epochs, the device's own among them (R393,
R397). -/
def wholeNews (s : State) : RouteNews where
  links := s.fab.links.filter (·.live)
  gateways := ownGateway s :: (s.fab.gateways.filter (· ≠ devId s)).map fun g => (g, true)
  epochs := (devId s, s.glob.epoch.toNat) :: s.fab.epochs.map fun e => (e.1, e.2.toNat)

/-! ### Relay control (R395, R408, R411; DESIGN CHOICE, log 36) -/

/-- The tag that stands with a packet of no operation: no packet has it (R311). -/
def noTag : Nat := 8192

/-- A control packet of a relay: 1 set-up, 2 end, 3 release of a number of replies. -/
def relayControl (s : State) (r : Relay) (ctl : Nat) : Packet :=
  mkPacket { kind := kRelay, vc := 3, src := devId s, dst := r.target, coll := r.srcQ + 64 * r.dstQ, body := ctl } []

/-- Send a control packet that no operation waits for: at once, or when packets toward its destination have been answered
(R395). -/
def sendControl (s : State) (r : Relay) (ctl : Nat) : State :=
  let p := relayControl s r ctl
  if decide (unanswered s r.target < 1024) && !s.fab.routesDue && (routeTo s r.target).isSome then
    sendTracked s r.srcQ noTag p 0 0
  else setFab s { s.fab with pieces := s.fab.pieces ++ [⟨r.srcQ, noTag, r.target, p, 0, 0⟩] }

/-- The REPLY packet that returns a reply of a relayed queue to its gateway (R411). -/
def replyPacketOf (s : State) (r : RelayIn) (w : BitVec 128) (irq : Bool) : Packet :=
  mkPacket { kind := kReply, vc := 3, src := devId s, dst := r.gateway, coll := r.srcQ + r.dstQ * 64, body := b2n irq }
    (leBytes 16 w.toNat)

/-! ### COLL packets (R384, R413; the layout is a DESIGN CHOICE, log 36) -/

/-- What `body` holds of a COLL packet beside the identity, from bit 128 on: which message it is, and its numbers. -/
def collTail (b : CollBody) : Nat :=
  match b with
  | .contribution sm total off bytes =>
    (sm.length % 256) * 2 ^ 8 + (total % 2 ^ 40) * 2 ^ 16 + (off % 2 ^ 40) * 2 ^ 56 + (bytes.length % 2 ^ 16) * 2 ^ 96
  | .staged => 1
  | .commit => 2
  | .done => 3
  | .failed code addr => 4 + b2n addr.isSome * 2 ^ 3 + (code % 256) * 2 ^ 8 + (addr.getD 0 % 2 ^ 48) * 2 ^ 16

/-- The data flits of a COLL packet: a contribution's summary and bytes. -/
def collData (b : CollBody) : List Byte :=
  match b with
  | .contribution sm _ _ bytes => sm.flatMap (leBytes 8) ++ bytes
  | _ => []

/-- A message of a collective as a packet on channel 2. -/
def collPk (dst : Nat) (m : CollMsg) : Packet :=
  mkPacket { kind := kColl, vc := 2, src := m.src, dst := dst
             coll := m.queue % 64 + (m.kind % 256) * 2 ^ 6 + (m.count % 2 ^ 18) * 2 ^ 14
             body := m.members % 2 ^ 64 + (m.count % 2 ^ 32) * 2 ^ 64 + (m.ord % 2 ^ 32) * 2 ^ 96 + collTail m.body * 2 ^ 128 }
    (collData m.body)

/-- Which message of a collective a packet is: 0 for a part of a contribution. -/
def collCode (h : Nat) : Nat := bits (hBody h) 128 3

/-- What a COLL packet carries. -/
def readCollBody (p : Packet) : CollBody :=
  let b := hBody p.hdr / 2 ^ 128
  match bits b 0 3 with
  | 0 =>
    let n := bits b 8 8
    .contribution ((List.range n).map fun i => leNat ((p.data.drop (8 * i)).take 8)) (bits b 16 40) (bits b 56 40)
      ((p.data.drop (8 * n)).take (bits b 96 16))
  | 1 => .staged
  | 2 => .commit
  | 3 => .done
  | _ => .failed (bits b 8 8) (if bit b 3 then some (bits b 16 48) else none)

/-- The message of a COLL packet. -/
def readColl (p : Packet) : CollMsg :=
  let b := hBody p.hdr
  ⟨hSrc p.hdr, bits (hColl p.hdr) 0 6, bits (hColl p.hdr) 6 8, bits b 0 64, bits b 64 32, bits b 96 32, readCollBody p⟩

/-- Members of a mask, in ascending number (R413, R414). -/
def membersOf (mask : Nat) : List Nat := (List.range 64).filter fun d => bit mask d

/-- The message of a collective for a member. -/
def collMsg (s : State) (c : Coll) (d : Nat) (b : CollBody) : CollMsg :=
  ⟨devId s, c.q, c.kind, c.members, c.count, ((c.ords.find? fun x => x.1 = d).map (·.2)).getD 0, b⟩

/-- The first local address that an operation moves: of a collective that of `ref_a` (R394); a barrier has none. -/
def collLocal (s : State) (c : Coll) : Nat :=
  match findOp s c.q c.tag with | some o => if c.kind = 0x53 then 0 else (refA o).base | none => 0

/-- Queue a message for a member; it is sent when its share and the packets without an answer let it (R342, R395). -/
def collSend (s : State) (c : Coll) (d : Nat) (b : CollBody) : State :=
  let pk := collPk d (collMsg s c d b)
  setFab s { s.fab with pieces := s.fab.pieces ++ [⟨c.q, c.tag, d, pk, collLocal s c, pk.data.length⟩] }

/-- Queue a message for every other member (R416). -/
def collCast (s : State) (c : Coll) (b : CollBody) : State :=
  ((membersOf c.members).filter fun d => d ≠ devId s).foldl (fun s d => collSend s c d b) s

/-- A contribution cut into parts of at most 3,840 bytes: at least one. -/
def collParts (summary : List Nat) (bs : List Byte) : List CollBody :=
  (List.range (max 1 (cdiv bs.length 3840))).map fun i =>
    .contribution summary bs.length (3840 * i) ((bs.drop (3840 * i)).take 3840)

/-- Whether a packet of an operation goes with it when it ends: its messages to the members of a collective do not, but for
its contribution (R416, R417). -/
def goesWith (p : Packet) : Bool := hKind p.hdr ≠ kColl || collCode p.hdr = 0

/-- A collective that this member refuses, or is stopped, before it has sent anything: the other members learn that it fails
(R413, R417). -/
def tellPlace (s : State) (o : Op) : State :=
  match o.place with
  | none => s
  | some p => p.ords.foldl (fun s d =>
      let m : CollMsg := ⟨devId s, o.q, opCode o, p.members, p.count, d.2, .failed cRemoteError none⟩
      setFab s { s.fab with pieces := s.fab.pieces ++ [⟨o.q, o.tag, d.1, collPk d.1 m, 0, 0⟩] }) s

/-- Leave the Fabric Engine's part of an operation: its packets are no longer sent, a collective it takes part in, or has
accepted and not begun, fails on the other members (R413, R524), and a snapshot that it carries ends (R512). -/
def dropFabric (s : State) (q tag : Nat) : State :=
  let s := cutSnap s q tag
  let mine := s.fab.colls.filter fun c => c.q = q && c.tag = tag
  let s := setFab s { s.fab with
    sent := s.fab.sent.filter fun x => !(x.q = q && x.tag = tag && goesWith x.packet)
    pieces := s.fab.pieces.filter fun x => !(x.q = q && x.tag = tag && goesWith x.packet)
    colls := s.fab.colls.filter fun c => !(c.q = q && c.tag = tag) }
  let s := mine.foldl (fun s c => collCast s c (.failed cRemoteError none)) s
  match findOp s q tag with
  | some o => if o.phase = .accepted ∨ o.phase = .started then tellPlace s o else s
  | none => s

/-- End an operation early: the Fabric Engine's part of it goes, and it reports why. -/
def stopWith (s : State) (o : Op) (flags : BitVec 8) (e : Fail) : State :=
  endFail (dropFabric s o.q o.tag) o flags (snapFail s o e)

end Sys2Proof.Machine
end

