-- ==== Sys2Proof/Machine/Headstock.lean ====
section
/-!
DEFINITION. The headstock: acceptance, start, completion and replies of commands (R304 to R331), random-stream
binding at acceptance (R297 to R302), and the queue reset (R525).
-/

namespace Sys2Proof.Machine

/-! ### A descriptor looked at before the start (DEDUCED, log 31) -/

/-- The bytes at a pointer as the memories hold them, without a guard's effect. -/
def peekPtr (s : State) (o : Op) (h : HostReply) (host : Bool) (a n : Nat) : Option Nat :=
  if host then
    match hostFault s (opFunc s o) h a n with
    | some _ => none
    | none => some (leNat (hostBytes s (opFunc s o) a n))
  else if a + n ≤ hbmEnd then some (leNat (devBytes s a n))
  else none

/-- An operation with the descriptor, reference block and row count that memory holds now. -/
def peeked (s : State) (o : Op) (h : HostReply) : Op :=
  if o.phase ≠ .accepted || !formD (opCode o) then o
  else
    match peekPtr s o h (descHost o) (descPtr o) 256 with
    | none => o
    | some d =>
      let o := { o with desc := d }
      let o := { o with aux := if fAuxMask o = 0 then 0 else (peekPtr s o h (fAuxHost o) (fAuxPtr o) 256).getD 0 }
      { o with mCount := if readsM o then peekPtr s o h false (fMPtr o) 4 else none }

/-! ### Random streams (R297 to R302) -/

/-- Whether a command draws from its stream (R132, R294, R303). -/
def opDraws (o : Op) : Bool :=
  match opCode o with
  | 0x10 | 0x11 | 0x12 => fEpiRound o && !toPartials o
  | 0x29 | 0x2B => fEpiRound o
  | 0x14 | 0x17 | 0x26 => fEpiRound o && !fDefer o
  | 0x20 => elementDraws o
  | _ => false

/-- The check of a drawing command (R298, R301): its consumer index and epoch, with the state after it. -/
def streamAccept (s : State) (o : Op) : Except Fail (State × Op) :=
  let i := fEpiStream o
  let v := getStream s i
  let give := fun (ci : Nat) => { o with ci := ci, epoch := v.epoch.toNat }
  if fReplay o then
    if v.bound && fStreamCi o < v.nextCi.toNat then .ok (s, give (fStreamCi o)) else .error (badWord o 19)
  else if !v.bound then .error (badWord o 19)
  else if v.owner.toNat ≠ o.q || (!v.share && v.nextCi ≠ 0#25) || v.nextCi = 0x1000000#25 then
    .error (atWord o cAliased 19)
  else .ok (setStream s i { v with nextCi := v.nextCi + 1#25 }, give v.nextCi.toNat)

/-- Whether a consumer or replay of a stream is unfinished (R302). -/
def streamInUse (s : State) (i : Nat) : Bool :=
  s.head.ops.any fun p => p.phase != .ended && opDraws p && fEpiStream p == i

/-- `MG.STREAM_BIND` takes its place in acceptance order (R302). -/
def bindAccept (s : State) (o : Op) : Except Fail State :=
  let v := getStream s (sbSid o)
  if v.bound && v.owner.toNat ≠ o.q && streamInUse s (sbSid o) then .error (failPlain cAliased)
  else .ok (setStream s (sbSid o) ⟨BitVec.ofNat 64 (sbEpoch o), BitVec.ofNat 6 o.q, true, sbShare o, 0#25⟩)

/-- The checks of any command that a `MG.STREAM_BIND` or a `MG.QUOTA` must pass before its acceptance counts (R343). -/
def bindSound (s : State) (o : Op) : Bool :=
  match checkPacket s o, checkRelayed s o, checkConfined s o with
  | .ok _, .ok _, .ok _ => !(coreOfPacket o).any (coreBad s)
  | _, _, _ => false

/-! ### Acceptance (R310, R314, R327, R328) -/

/-- The relay that a queue feeds on this gateway (R408). -/
def relayOf (s : State) (q : Nat) : Option Relay := s.fab.relays.find? fun r => r.srcQ = q

def setRelay (s : State) (r : Relay) : State :=
  setFab s { s.fab with relays := s.fab.relays.map fun x => if x.srcQ = r.srcQ then r else x }

/-- Whether a relayed packet of a queue has been sent and its arrival not been answered. -/
def relayOut (s : State) (q : Nat) : Bool := s.fab.sent.any fun x => x.q = q && hKind x.packet.hdr = kRelay && !x.packet.data.isEmpty

/-- Whether the gateway may send a packet of a relay now: the target ring has room, and the packet before has arrived, so that
the packets reach the ring in their order (R396, R409). -/
def relayRoom (s : State) (r : Relay) : Bool :=
  decide (r.awaiting.length < 2 ^ r.log2 - 1) && !s.fab.routesDue && decide (unanswered s r.target < 1024) && !relayOut s r.srcQ

/-- Operations that a gateway has accepted from a queue and sent on, whose replies are not written yet (R327, R409, R411). -/
def relayFlight (s : State) (q : Nat) : Nat :=
  ((relayOf s q).map fun r => r.awaiting.length).getD 0
    + ((getQ s q).deferred.filter fun r => !bit r.1.toNat 13 && (findOp s q (bits r.1.toNat 0 13)).isNone).length

/-- Operations in flight of a queue, of a function and of the device (R327). -/
def inFlightQ (s : State) (q : Nat) : Nat := (s.head.ops.filter fun o => o.q = q).length + relayFlight s q
def inFlightF (s : State) (f : Nat) : Nat :=
  (s.head.ops.filter fun o => opFunc s o = f).length
    + (((List.range 64).filter fun q => (getQ s q).func.toNat = f).map (relayFlight s)).sum
def inFlight (s : State) : Nat := s.head.ops.length + ((List.range 64).map (relayFlight s)).sum

/-- Whether an accepted `MG.QUOTA` command sets the tag limit of a key. -/
def setsTags (s : State) (key : Nat) (o : Op) : Bool :=
  o.phase != .ended && opCode o == 0x62 && quDim o == 2
    && ((quOp o == 4 && quQueue o == key) || (quOp o == 5 && 64 + quFunc o == key))
    && bindSound s o && (match checkQuota s o with | .ok _ => true | .error _ => false)

/-- The tag limit that an acceptance meets: as the `MG.QUOTA` commands accepted before it leave it (R343). -/
def tagLimit (s : State) (key : Nat) : Nat :=
  s.head.ops.foldl (fun n o => if setsTags s key o then quSize o else n) (getLimits s key).tags

/-- Room for one more operation (R327). -/
def tagRoom (s : State) (q : Nat) : Bool :=
  let f := (getQ s q).func.toNat
  inFlight s < 8192 && inFlightQ s q < tagLimit s q && inFlightF s f < tagLimit s (64 + f)

/-- Whether the headstock could accept from a queue now (R308, R327, R333, R376, R409, R427, R440, R525, R528, DESIGN CHOICE,
log 32). -/
def acceptable (s : State) (q : Nat) : Bool :=
  let v := getQ s q
  let f := getFunc s v.func.toNat
  s.glob.ready && !s.glob.selftest && v.enable && !v.halted && !v.resetting && v.sqHead != v.sqTail && stqSpace v
    && (v.loc || (f.busMaster && !f.d3hot)) && tagRoom s q && (s.head.ops.all fun o => opCode o != 0x64)
    && (relayOf s q).all (relayRoom s)

/-- The queues whose turn comes before that of `q` after `t` (R314). -/
def before (t q : Nat) : List Nat := (List.range ((q + 63 - t) % 64)).map fun i => (t + 1 + i) % 64

/-- Whether the headstock accepts from a queue now: the queues are served in rotation, one packet at a time (R314). -/
def mayAccept (s : State) (q : Nat) : Bool :=
  acceptable s q && (before s.head.turn.toNat q).all fun p => !acceptable s p

/-- Resident-operand mapping, fixed at acceptance (R197). -/
def residentNow (s : State) (o : Op) : Bool :=
  fMapMode o == 1 || s.glob.selftest
    || (namedLathes o).any fun l => latheFenced s l || s.dies.fencedSpindles.any fun i => i / 64 == l

/-- The address of the packet at SQ_HEAD. -/
def sqAddr (v : Queue) : Nat := v.sqBase.toNat + 64 * v.sqHead.toNat

/-- Read the packet at SQ_HEAD (R307, R310). -/
def readPacket (s : State) (q : Nat) (h : HostReply) : State × Except Fail Nat :=
  let v := getQ s q
  let a := sqAddr v
  if v.loc then
    if hbmEnd < a + 64 then (s, .error (failAt cAddrRange a))
    else
      match readAll s [(a, 64)] with
      | (s', _, some e) => (s', .error e)
      | (s', _, none) => (s', .ok (leNat (devBytes s' a 64)))
  else
    match hostFault s v.func.toNat h a 64 with
    | some e => (s, .error e)
    | none => (s, .ok (leNat (hostBytes s v.func.toNat a 64)))

/-- The queue has had its turn (R314). -/
def takeTurn (s : State) (q : Nat) : State := { s with head := { s.head with turn := BitVec.ofNat 6 q } }

/-- SQ_HEAD moves past the packet, and the queue has had its turn. -/
def passHead (s : State) (q : Nat) : State :=
  modQ (takeTurn s q) q fun v => { v with
    sqHead := if v.sqHead.toNat + 1 = 2 ^ v.sqLog2.toNat then 0#16 else v.sqHead + 1#16
    relaySlots := v.relaySlots.filter (· ≠ v.sqHead.toNat) }

/-- Whether the packet at SQ_HEAD came by a relay (R409, R410). -/
def headRelayed (s : State) (q : Nat) : Bool := (getQ s q).relaySlots.contains (getQ s q).sqHead.toNat

/-- The operation of an accepted packet. -/
def mkOp (q w : Nat) : Op where
  q := q
  tag := bits w 8 13
  packet := w
  phase := .accepted
  desc := 0
  aux := 0
  mCount := none
  seed := 0
  resident := false
  grit := 0
  policy := 0
  ci := 0
  epoch := 0
  status := 0
  flags := 0#8
  faultAddr := 0
  addrKind := 0
  remoteId := 0
  signalled := false
  relayed := false
  place := none

/-! ### The numbers of collectives (R413) -/

/-- The members of a collective command; none of any other command (R370, R371). -/
def collMask (o : Op) : Nat :=
  if opCode o = 0x53 then barMembers o else if opCode o = 0x42 ∨ opCode o = 0x43 then collMembers o else 0

/-- Collectives a queue has issued whose masks hold a device. -/
def issuedWith (s : State) (q d : Nat) : Nat :=
  s.head.collCount.foldl (fun n e => if e.1.1 = q && bit e.1.2.2 d then n + e.2 else n) 0

def countOf (s : State) (q kind mask : Nat) : Nat :=
  ((s.head.collCount.find? fun e => e.1 = (q, kind, mask)).map (·.2)).getD 0

/-- Count one more collective (R413). -/
def issueColl (s : State) (q kind mask : Nat) : State :=
  { s with head := { s.head with collCount :=
    ((q, kind, mask), countOf s q kind mask + 1) :: s.head.collCount.filter fun e => e.1 ≠ (q, kind, mask) } }

/-- The place of the next collective of a queue, kind and mask. -/
def nextPlace (s : State) (q kind mask : Nat) : CollPlace :=
  ⟨mask, countOf s q kind mask, ((membersOf mask).filter (· ≠ devId s)).map fun d => (d, issuedWith s q d)⟩

/-- A collective takes its place in its queue's order when it is accepted, so that the order in which commands of two classes
start does not matter (R413, R320; DEDUCED, log 36). `p` is the operation with its descriptor as memory holds it now. -/
def placeColl (s : State) (o p : Op) : State × Op :=
  let m := collMask p
  if m = 0 then (s, o)
  else (issueColl s o.q (opCode o) m, { o with place := some (nextPlace s o.q (opCode o) m) })

/-- A started collective whose descriptor names other members than it named at its acceptance takes a new place. -/
def replaceColl (s : State) (o : Op) : State × Op :=
  if (o.place.map (·.members)).getD 0 = collMask o then (s, o) else placeColl s o o

/-- Enter an operation with the checks of acceptance (R197, R298, R302, R413). -/
def enterOp (s : State) (o : Op) (h : HostReply) : State :=
  let p := peeked s o h
  let x := placeColl s { o with resident := residentNow s p } p
  let s := x.1
  let o := x.2
  let add := fun (s : State) (o : Op) => setOps s (s.head.ops ++ [o])
  if opDraws p then
    match streamAccept s { p with resident := o.resident } with
    | .ok (s, o) => add s o
    | .error e => endFail (add s o) o 0#8 e
  else if opCode o = 0x65 && bindSound s o then
    match bindAccept s o with
    | .ok s => add s o
    | .error e => endFail (add s o) o 0#8 e
  else add s o

/-! ### Signals and replies (R308, R311, R411) -/

/-- The signal entries of a packet, in order (R311, R322, R337, R491): an undefined operation or a tally that is out of reach,
or holds an error that cannot be corrected, does nothing. -/
def applySignals (s : State) (o : Op) : State :=
  let r := tallyRangeOf s (opFunc s o)
  (List.range (pNSig o)).foldl (fun s i =>
    let w := sigEntry o i
    let t := bits w 0 12
    if confined s o.q && (t < r.1 || r.1 + r.2 ≤ t) then s
    else if coreBad s (.tally t) then coreFault s
    else
      let s := useCore s (.tally t)
      match bits w 12 4 with
      | 0 => addTally s t (bits w 16 16)
      | 1 => setTally s t (BitVec.ofNat 32 (bits w 16 16))
      | _ => s) s

/-- Return a reply that has been written to the gateway that feeds the queue (R411). -/
def returnReply (s : State) (q : Nat) (w : BitVec 128) (irq : Bool) : State :=
  match s.fab.relaysIn.find? fun r => r.dstQ = q with
  | some r => sendPacket s (replyPacketOf s r w irq)
  | none => s

/-- Write a reply, or let it wait for room (R308). -/
def giveReply (s : State) (q : Nat) (w : BitVec 128) (irq : Bool) : State :=
  let t := postReply s q w irq
  if replyFits s q && !ringBad s q then returnReply t q w irq else t

/-! ### Relayed queues on a gateway (R409, R412) -/

/-- The reply of a relayed packet that no longer comes: the code, with the target ring slot's address (R412). -/
def relayFailure (r : Relay) (code : Nat) (x : Nat × Nat × Nat) : BitVec 128 :=
  replyWord r.srcQ x.1 0 code 0 x.2.1 (r.base + 64 * x.2.2) 3 r.target

/-- The log entry of a relayed packet that ends with an error on its gateway: exactly one (R331, R498). -/
def relayLog (s : State) (r : Relay) (code : Nat) (x : Nat × Nat × Nat) : State :=
  let there := code != cAborted
  vlogAdd s {
    addr := if there then r.base + 64 * x.2.2 else 0, kind := if there then 3 else 0, code := code, source := 0
    func := (getQ s r.srcQ).func.toNat, queue := r.srcQ, remote := if there then r.target else 0, tag := x.1, opcode := x.2.1 }

/-- A relayed packet that is not sent has its reply at once: with 0x40 where there is no route (R394, R412), with 0x23 where the
die bridge cuts the route off (R18). -/
def relayRefuse (s : State) (r : Relay) (code : Nat) (x : Nat × Nat × Nat) (irq : Bool) : State :=
  postReply (setRelay (relayLog s r code x) { r with copies := r.copies ++ [false] }) r.srcQ (relayFailure r code x) irq

/-- Send a packet to a relay's target. -/
def relaySend (s : State) (r : Relay) (w : Nat) : State :=
  let x := (bits w 8 13, bits w 0 8, r.sent % 2 ^ r.log2)
  if (routeTo s r.target).isNone then relayRefuse s r cLinkDown x (bit w 21)
  else if routeCut s r.target then relayRefuse s r cDomainOff x (bit w 21)
  else
    let p := mkPacket { kind := kRelay, vc := 3, src := devId s, dst := r.target, coll := r.srcQ + 64 * r.dstQ } (leBytes 64 w)
    sendTracked (setRelay s { r with awaiting := r.awaiting ++ [x], sent := r.sent + 1 }) r.srcQ x.1 p 0 64

/-- Refuse a packet whose tag is in flight (R328): its log entry, its signals under `sig_always` (R311), and its reply, which
goes where the queue's replies go (R411). -/
def refuseDup (s : State) (q w : Nat) : State :=
  let o := mkOp q w
  let s := vlogAdd s (opLog s o (failPlain cBadDescriptor))
  let s := if pSigAlways o then applySignals s o else s
  giveReply s q (replyWord q o.tag 1 cBadDescriptor 0 (opCode o) 0 0 0) (pIrq o)

/-- Read the packet at SQ_HEAD and go on with it; a packet that cannot be read halts its queue (R333). -/
def readThenTake (s : State) (q : Nat) (host : HostReply) (take : State → Nat → State) : Out :=
  match readPacket s q host with
  | (s', .error e) => .next (vlogAdd (modQ (takeTurn s' q) q fun v => { v with halted := true })
      { addr := e.addr, kind := e.kind, code := e.code, source := 5, func := (getQ s q).func.toNat, queue := q })
  | (s', .ok w) => .next (take (passHead s' q) w)

/-- The headstock takes the packet at SQ_HEAD (R310, R314, R327, R328, R409). -/
def execPacketAccept (q : Nat) (host : HostReply) (s : State) : Out :=
  let s := mergeHost s (getQ s q).func.toNat host
  if !mayAccept s q then notNow
  else
    let came := headRelayed s q
    match relayOf s q with
    | some r => readThenTake s q host fun s w => relaySend s r w
    | none => readThenTake s q host fun s w =>
      if (findOp s q (bits w 8 13)).isSome then refuseDup s q w else enterOp s { mkOp q w with relayed := came } host

/-! ### Order (R318, R324, R343, R54, R163, R376, R471, R524) -/

/-- A wait entry (R324); a reserved comparison holds here and is refused at the start. -/
def waitHolds (s : State) (o : Op) (i : Nat) : Bool :=
  let w := waitEntry o i
  let t := getTally s (bits w 0 12)
  let x := BitVec.ofNat 32 (bits w 32 32)
  match bits w 16 2 with
  | 0 => decide ((t - x).toNat < 2 ^ 31)
  | 1 => t == x
  | _ => true

/-- All wait entries hold, or any of them under `wait_any` (R311). -/
def waitsHold (s : State) (o : Op) : Bool :=
  let is := List.range (pNWait o)
  if pWaitAny o && pNWait o != 0 then is.any (waitHolds s o) else is.all (waitHolds s o)

/-- The operations accepted before one. -/
def earlier (s : State) (o : Op) : List Op := s.head.ops.takeWhile fun p => !(p.q = o.q && p.tag = o.tag)

/-- Near and far banks (R145) that ranges touch, as lathe numbers. -/
def banksHit (far : Bool) (rs : List (Nat × Nat)) : List Nat :=
  (List.range 128).filter fun l => rs.any fun r =>
    let lo := max r.1 (latheBase l)
    let hi := min (r.1 + r.2) (latheBase l + 0x20_0000)
    decide (lo < hi) &&
      (let r0 := (lo - latheBase l) / 512
       let r1 := (hi - 1 - latheBase l) / 512
       (List.range (min 16 (r1 - r0 + 1))).any fun i => decide ((r0 + i) % 16 < 8) != far)

/-- Forerunner ordering holds a command behind another of its queue (R163). -/
def forerunnerHolds (s : State) (p o : Op) : Bool :=
  let near := banksHit false (touched s p)
  (banksHit true (touched s o)).any fun l => near.contains l

/-- The slots and lathes a pattern load replaces. -/
def slotsLoaded (o : Op) : List (Nat × Nat) := if opCode o = 0x66 then (plLathes o).map fun l => (l, plSlot o) else []

/-- Pattern-load order (R54): a load waits for earlier readers and loads of its slots, a reader for earlier loads. -/
def patternHolds (s : State) (p o : Op) : Bool :=
  let both := fun (x y : List (Nat × Nat)) => x.any y.contains
  both (slotsLoaded o) (slotsRead s p) || both (slotsLoaded o) (slotsLoaded p) || both (slotsRead s o) (slotsLoaded p)

/-- Whether an earlier operation of any queue holds one back. -/
def heldByOther (s : State) (p o : Op) : Bool :=
  p.phase != .ended &&
    ((opCode o == 0x62 && opCode p == 0x62) || (opCode o == 0x61 && opCode p == 0x61 && mpDomain o == mpDomain p)
      || patternHolds s p o)

/-- Whether a Matrix Engine command leaves, uses or frees open sets (R117 to R119, R123 to R125, R253, R261). -/
def usesOpen (o : Op) : Bool :=
  (0x13 ≤ opCode o && opCode o ≤ 0x17) || (0x10 ≤ opCode o && opCode o ≤ 0x12 && (fKeep o || fContinue o))

/-- Accumulator slots order the Matrix Engine commands of a queue that share them: one that uses open sets waits for an
earlier one on the same lathes that has started and not ended (R319). -/
def setsHold (s : State) (p o : Op) : Bool :=
  p.phase == .started && usesOpen p && usesOpen o && (usedLathes s o).any fun l => (usedLathes s p).contains l

/-- Whether an earlier operation of the same queue holds one back (R318, R319). -/
def heldBySame (s : State) (p o : Op) : Bool :=
  (classOf (opCode p) == classOf (opCode o) && p.phase == .accepted) || pFence o || opCode o == 0x52 || opCode p == 0x52
    || (opCode p == 0x50 && p.phase == .accepted && !waitsHold s p)
    || setsHold s p o
    || ((getQ s o.q).forerunner && p.phase != .ended && forerunnerHolds s p o)

/-- Whether a command could start now. -/
def startable (s : State) (o : Op) (h : HostReply) : Bool :=
  let o' := peeked s o h
  let before := (earlier s o).map fun p => peeked s p h
  o.phase == .accepted && waitsHold s o
    && !(classOf (opCode o) ≤ 4 && s.glob.engBusy.getLsbD (classOf (opCode o) - 1))
    && before.all (fun p => !(if p.q = o.q then heldBySame s p o' else false) && !heldByOther s p o')
    && (opCode o != 0x64 || s.head.ops.length == 1)

/-- Whether a command may start now: the queues with accepted work are served in rotation (R314). -/
def mayStart (s : State) (o : Op) (h : HostReply) : Bool :=
  startable s o h && (before s.head.served.toNat o.q).all fun q => !s.head.ops.any fun p => p.q == q && startable s p h

/-- The queue's command starts in its turn (R314). -/
def takeService (s : State) (q : Nat) : State := { s with head := { s.head with served := BitVec.ofNat 6 q } }

/-- The circular regions a command names. -/
def regionsOf (s : State) (o : Op) : List (Nat × Nat) :=
  let c := opCode o
  if c / 16 = 1 || c / 16 = 2 then
    ([brefA o, brefB o, brefC o, brefS o, spillRef o, chunkRef o].filter (·.region)).flatMap fun b =>
      (usedLathes s o).map fun l => (l, b.base)
  else if c = 0x30 then
    (if cpSrcRegion o then [(regionLathe (cpSrc o), regionK (cpSrc o))] else [])
      ++ (if cpDstRegion o then [(regionLathe (cpDst o), regionK (cpDst o))] else [])
  else []

/-- The parity error a command meets in a pattern slot, a region's entry, a match unit's hashes or a tailstock's buffers
(R490). -/
def parityHit (s : State) (o : Op) : Option (Upset × Fail) :=
  let us := ((slotsRead s o).map fun x => (Upset.pattern x.1 x.2, failAt cEcc (latheBase x.1)))
    ++ ((regionsOf s o).map fun x => (Upset.region x.1 x.2, failAt cEcc (regionAddr x.1 x.2)))
    ++ (if opCode o = 0x12 then (usedLathes s o).map fun l => (Upset.matchUnit l, failAt cEcc (latheBase l)) else [])
    ++ (tailLathes s o).flatMap fun l => [true, false].flatMap fun h => [true, false].map fun b =>
      (Upset.tailstock l h b, failAt cEcc (latheBase l))
  us.find? fun x => s.mems.upsets.contains x.1

/-- What a parity error leaves: the event counted, and a pattern slot that reads as empty until it is loaded; a match unit's
or a tailstock's words are written anew by the next command (R490). -/
def parityLeaves (s : State) (u : Upset) : State :=
  let s := countUncorr s false
  let t := setUpsets s (s.mems.upsets.filter fun x => x != u)
  match u with
  | .pattern l k => setSlot t l k .empty
  | .matchUnit _ | .tailstock _ _ _ => t
  | _ => s

/-- A command that its start refuses: a collective fails on the other members too (R413, R417). -/
def refuseStart (s : State) (o : Op) (flags : BitVec 8) (e : Fail) : State := endFail (tellPlace s o) o flags e

/-- What the firmware notes of a command that starts: an activation begins, and stages take effect in their order (R523,
R546). -/
def noteStart (s : State) (o : Op) : State :=
  match opCode o with
  | 0x68 => { s with firm := { s.firm with stages := s.firm.stages.filter (· ≠ (o.q, o.tag)) ++ [(o.q, o.tag)] } }
  | 0x69 => { s with firm := { s.firm with activating := some (o.q, o.tag) } }
  | _ => s

/-- A command starts (R313, R315, R318): its checks are made, and it either may touch data or ends. -/
def execCommandStart (r : OpRef) (s : State) : Out :=
  let s := mergeHost s (getQ s r.q).func.toNat r.host
  match findOp s r.q r.tag with
  | none => notNow
  | some o =>
    if !mayStart s o r.host then notNow
    else
      let x := startOp (takeService s r.q) o r.host
      match x.res with
      | .error e =>
        .next (refuseStart x.s o x.flags e)
      | .ok o' =>
        match parityHit x.s o' with
        | some (u, e) => .next (refuseStart (parityLeaves x.s u) o x.flags e)
        | none =>
        let go := fun (s : State) (o : Op) =>
          let y := replaceColl s o
          putOp y.1 { y.2 with phase := .started, flags := o.flags ||| x.flags }
        if opCode o = 0x69 && s.firm.activating.isSome then .next (refuseStart x.s o x.flags (failPlain cFwRejected))
        else
        if opDraws o' && !opDraws o then
          match streamAccept x.s o' with
          | .ok (t, o'') => .next (go t o'')
          | .error e => .next (endFail x.s o x.flags e)
        else .next (noteStart (go x.s o') o)

/-! ### Completion (R317, R308, R309, R329, R333, R411) -/

/-- Whether an operation's reply waits for room. -/
def replyWaits (s : State) (q tag : Nat) : Bool :=
  (getQ s q).deferred.any fun r => bits r.1.toNat 0 13 == tag && !bit r.1.toNat 13

/-- Signals, then the reply (R316): the signals when the status or `sig_always` lets them. -/
def finishOp (s : State) (o : Op) : State :=
  let s := if !o.signalled && (o.status ≤ 1 || pSigAlways o) then putOp (applySignals s o) { o with signalled := true } else s
  giveReply s o.q (opReply o) (pIrq o)

/-- A command completes (R316, R317): its tag is released once its reply is written. -/
def execCommandComplete (r : OpRef) (s : State) : Out :=
  match findOp s r.q r.tag with
  | some o =>
    if o.phase = .ended && !replyWaits s r.q r.tag then
      let t := finishOp s o
      .next (if replyWaits t r.q r.tag then t else delOp t r.q r.tag)
    else notNow
  | none => notNow

/-- A queue after its reset: disabled (R525), and after a function-level reset with its registers at their reset values, with
`FUNC` kept where it is to be (R522). -/
def Queue.afterReset (v : Queue) : Queue :=
  match v.returning with
  | none => { v with deferred := [], enable := false, resetting := false }
  | some keepFunc => { Queue.reset with func := if keepFunc then v.func else 0#5 }

/-- A queue reset ends once its last reply is written (R525). -/
def endReset (s : State) (q : Nat) : State :=
  modQ s q fun v => if v.resetting && v.deferred.isEmpty then v.afterReset else v

/-- A reply that waited for room is written (R308). -/
def execReplyWrite (q : Nat) (s : State) : Out :=
  let v := getQ s q
  match v.deferred with
  | [] => notNow
  | (w, irq) :: rest =>
    if !stqRoom s q || ringBad s q then notNow
    else
      let s := setQ s q { v with deferred := rest }
      let s := returnReply (writeReply s q w irq) q w irq
      let s := if bit w.toNat 13 then s else delOp s q (bits w.toNat 0 13)
      .next (endReset s q)

/-! ### Queue reset (R306, R521, R525) -/

/-- End an operation that a reset or a fence stops (R504, R521, DEDUCED, log 19). -/
def abortOp (s : State) (o : Op) : State :=
  if o.phase = .ended then s else stopWith s o 0#8 (failPlain cAborted)

/-- End the operations that satisfy `p`. -/
def abortOps (s : State) (p : Op → Bool) : State := (s.head.ops.filter p).foldl abortOp s

/-- End an operation that has not completed, also one whose engine is done with it, for a queue reset (R306, R317, R525). -/
def resetOp (s : State) (o : Op) : State := stopWith s o 0#8 (failPlain cAborted)

/-- End relays that a queue feeds or that feed it (R520, R521): a gateway's packets without a reply end with 0x60, and the other
device is told; a gateway's last relay takes its gateway bit along (R408). -/
def endRelays (s : State) (q : Nat) : State :=
  let mine := s.fab.relays.filter fun r => r.srcQ = q
  let s := mine.foldl (fun s r =>
    sendControl (r.awaiting.foldl (fun s x => postReply (relayLog s r cAborted x) q (replyWord q x.1 0 cAborted 0 x.2.1 0 0 0) false) s) r 2) s
  let s := setFab s { s.fab with
    relays := s.fab.relays.filter fun r => r.srcQ ≠ q
    relaysIn := s.fab.relaysIn.filter fun r => r.dstQ ≠ q
    sent := s.fab.sent.filter fun x => !(x.q = q && hKind x.packet.hdr = kRelay && !x.packet.data.isEmpty) }
  if !mine.isEmpty && s.fab.relays.isEmpty then announce s else s

/-- Free the open sets of the queues that satisfy `p` (R120). -/
def freeSetsOf (s : State) (p : Nat → Bool) : State :=
  { s with dies := { s.dies with
    lost := s.dies.lost.filter fun x => !p x.q
    spindles := (s.dies.spindles.map fun e =>
      (e.1, match e.2.opened with | some w => if p w.q then dropOpen e.2 else e.2 | none => e.2)).filter fun e =>
        e.2 != Spindle.idle } }

/-- Unbind the streams of the queues that satisfy `p` (R297). -/
def unbindOf (s : State) (p : Nat → Bool) : State :=
  { s with head := { s.head with streams := s.head.streams.filter fun e => !(e.2.bound && p e.2.owner.toNat) } }

/-- A reply that waited for room, after its command was reset: a command whose reply is not written has not completed and ends
with 0x60 too (R306, R317, R525). -/
def redoReply (s : State) (q : Nat) (r : BitVec 128 × Bool) : BitVec 128 × Bool :=
  match bit r.1.toNat 13, findOp s q (bits r.1.toNat 0 13) with
  | false, some o => (opReply o, r.2)
  | _, _ => r

/-- The replies of a queue that waited for room, after its commands were reset. -/
def redoReplies (s : State) (q : Nat) : State := modQ s q fun v => { v with deferred := v.deferred.map (redoReply s q) }

/-- A queue reset (R525): every uncompleted command ends with 0x60 and has its reply, tags are released, open sets
freed, streams unbound, relays ended and QSTAT and RSTAT zeroed; the queue is disabled once its replies are out. -/
def resetQueue (s : State) (q : Nat) : State :=
  let s := redoReplies ((s.head.ops.filter fun o => o.q = q).foldl resetOp s) q
  let s := (s.head.ops.filter fun o => o.q = q && !replyWaits s o.q o.tag).foldl finishOp s
  let s := setOps s (s.head.ops.filter fun o => o.q ≠ q)
  let s := endRelays s q
  let s := unbindOf (freeSetsOf s fun p => p == q) fun p => p == q
  endReset (modQ s q fun v => { v with
    resetting := true, amax := 0#32, decided := 0#32, skipped := 0#32, audited := 0#32, missed := 0#32 }) q

end Sys2Proof.Machine
end

