-- ==== Sys2Proof/Machine/Link.lean ====
section
/-!
DEFINITION. N-ports: frames and their replay (R382, R383, R386), training, HELLO and admission (R380, R387 to R391),
cable events (R398 to R400), and the live-link map with its ROUTE flits (R393).
-/

namespace Sys2Proof.Machine

/-! ### The pod's shape (R388, R392) -/

/-- The first-hop port of dimension order (R392); none for the device itself. -/
def dimPort (shape d e : Nat) : Option Nat :=
  let dx := (e % 4 + 4 - d % 4) % 4
  let dy := (e / 4 % 4 + 4 - d / 4 % 4) % 4
  let dz := (e / 16 + 4 - d / 16) % 4
  if dx = 1 then some 0
  else if dx = 2 then some (if shape = 1 then 4 else 0)
  else if dx = 3 then some 1
  else if dy = 1 then some 2
  else if dy = 2 then some (if shape = 1 then 5 else 2)
  else if dy = 3 then some 3
  else if dz = 0 then none
  else if shape = 2 then some (if e % 2 = 0 then 4 else 5)
  else some (if dz = 3 then 5 else 4)

/-! ### The map of live links (R393) -/

def liveLink (s : State) (d p : Nat) : Bool := s.fab.links.contains ⟨d, p, true⟩

/-- Take up one piece of news. -/
def putLink (s : State) (n : LinkNews) : State :=
  setFab s { s.fab with links :=
    (if n.live then [n] else []) ++ s.fab.links.filter fun l => !(l.dev = n.dev && l.port = n.port) }

/-- Whether a link is up: both of its ends announce it (R393, R398). -/
def linkUp (s : State) (d p : Nat) : Bool :=
  liveLink s d p && liveLink s (nbrDev (podShape s) d p) (nbrPortOf (podShape s) p)

/-- An own link changes: the map, the news, and a recomputation due (R393). A link that comes up brings the neighbour all that
is known of the pod (R393, R397). -/
def linkChange (s : State) (p : Nat) (live : Bool) : State :=
  let n : LinkNews := ⟨devId s, p, live⟩
  let s := setFab (putLink s n) { (putLink s n).fab with routesDue := true }
  sendRoute s (if live then wholeNews s
    else { links := [n], gateways := [ownGateway s], epochs := [(devId s, s.glob.epoch.toNat)] })

/-! ### Frames (R382, R383, R386) -/

/-- A LINK flit that asks for a replay (R383, R384, R386): from a device to its neighbour. -/
def nakFlit (me nbr seq : Nat) : Nat :=
  (mkPacket { kind := kLink, vc := 3, src := me, dst := nbr, body := (seq % 4096) * 2 ^ 64 + 2 ^ 76 } []).hdr

/-- Ask for a replay from the expected frame (R383). -/
def askReplay (s : State) (p : Nat) : State :=
  let v := getPort s p
  let s := setPort s p { v with discarding := true, replays := (s.glob.timestamp :: v.replays).take 64 }
  emit (sendFrame s p [nakFlit (devId s) v.nbrId.toNat v.expSeq.toNat]) (.nak p v.expSeq)

/-- Count a discarded frame (R383). -/
def countFrame (s : State) (p : Nat) : State :=
  let v := getPort s p
  setPort s p { v with discard := satInc v.discard }

/-- Saturating addition. -/
def satPlus {w : Nat} (x : BitVec w) (n : Nat) : BitVec w := BitVec.ofNat w (min (2 ^ w - 1) (x.toNat + n))

/-- Count a header of a reserved kind (R384). -/
def countKind (v : Port) : Port := { v with discard := satInc v.discard }

/-- Whether a port carries a header's kind: LINK and HELLO always, the rest while it takes traffic (R389). -/
def admits (v : Port) (flit : Nat) : Bool := decide (hKind flit < kRoute) || takesTraffic v

/-- The packet being received: its flits, oldest first. -/
def rxPacket (v : Port) : List Nat := v.rxFlits.reverse

/-- A packet whose last flit has come stands in the receive buffers, in the class that its way puts it (R386). A HELLO or a LINK
flit takes no buffer. -/
def holdPacket (s : State) (port : Nat) : State :=
  let v := getPort s port
  let h := (rxPacket v).headD 0
  let up := upperClass (podShape s) (hSrc h) (nbrDev (podShape s) (devId s) port) (nbrPortOf (podShape s) port)
  if v.rxLeft ≠ 0 then s
  else
    let k := if v.rxDrop || decide (hKind h < kRoute) then v.rxHeld else v.rxHeld ++ [(rxPacket v, up)]
    setPort s port { v with rxFlits := [], rxHeld := k }

/-- Take one slot of a frame in order: a data flit of the packet under way, an IDLE header, a header of a reserved kind, which
is discarded and counted with its data flits, or a header that announces data flits (R384). The flits of a packet stand in the
port's receive buffers until it is whole and leaves them; discarded flits leave them at once (R386). -/
def takeFlit (port : Nat) (s : State) (flit : Nat) : State :=
  let v := getPort s port
  if 0 < v.rxLeft then
    let w := { v with rxLeft := v.rxLeft - 1 }
    if v.rxDrop then setPort s port (takeFrom w v.rxVc 1)
    else holdPacket (emit (setPort s port { w with rxFlits := flit :: v.rxFlits }) (.deliver port flit)) port
  else if hKind flit = kIdle then s
  else
    let w := { v with
      rxLeft := hFlits flit, rxVc := hVc flit, rxDrop := decide (11 ≤ hKind flit) || !admits v flit, rxFlits := [flit] }
    let w := if w.rxDrop then { takeFrom w (hVc flit) 1 with rxFlits := [] } else w
    let s := setPort s port (if 11 ≤ hKind flit then countKind w else w)
    if w.rxDrop then s else holdPacket (emit s (.deliver port flit)) port

/-- Whether a frame can be used: its codewords decode and its CRC fits (R383). -/
def frameGood (fec : Fec) (message : Nat) : Bool :=
  (match fec with | .corrected _ => true | .uncorrectable => false) && decide (crc16 1283 message = bits message 10264 16)

/-- Corrected codewords are counted (R383, R390). -/
def countFec (s : State) (port : Nat) (fec : Fec) : State :=
  match fec with
  | .corrected n => let v := getPort s port; setPort s port { v with fecCorr := satPlus v.fecCorr n }
  | .uncorrectable => s

/-- A frame that cannot be used is discarded: a replay is asked for, unless one is awaited already (R383). -/
def discardFrame (s : State) (port : Nat) (ask : Bool) : State :=
  let s := countFrame s port
  if ask then askReplay s port else s

/-- A frame in order: its slots are taken (R383, R384). -/
def takeFrame (s : State) (port message : Nat) : State :=
  let v := getPort s port
  let s := setPort s port { v with expSeq := v.expSeq + 1#12, discarding := false }
  returnCredit (((List.range 20).map fun i => bits message (512 * i) 512).foldl (takeFlit port) s) port

/-- An N-port frame arrives (R382 to R384). -/
def execFrameReceive (port : Nat) (fec : Fec) (message : Nat) (s : State) : Out :=
  if !carries (getPort s port) then notNow
  else
    let s := countFec s port fec
    let v := getPort s port
    .next (if !frameGood fec message then discardFrame s port true
      else if bits message 10240 12 ≠ v.expSeq.toNat then discardFrame s port (!v.discarding)
      else takeFrame s port message)

/-- Frames from sequence number `seq` on, oldest first. -/
def framesFrom (seq : Nat) (sent : List Nat) : List Nat := sent.reverse.dropWhile fun f => bits f 10240 12 ≠ seq

/-- Send frames again (R383). -/
def replay (s : State) (port : Nat) (fs : List Nat) : State := emit (fs.foldl (fun s f => putFrame s port f) s) (.replay port fs)

/-- A LINK flit arrives: credits, and a replay when it carries NAK (R383, R386). -/
def execLinkFlit (port : Nat) (flit : Nat) (s : State) : Out :=
  let v := getPort s port
  if !carries v then notNow
  else
    let cr := (List.range 4).foldl (fun t c =>
      tput 0#16 t c (tget 0#16 t c + BitVec.ofNat 16 (bits flit (160 + 16 * c) 16))) v.credits
    let s := setPort s port { v with credits := cr }
    .next (drain (if bit flit 236 then replay s port (framesFrom (bits flit 224 12) v.sent) else s))

/-! ### States of a port -/

/-- The port leaves the routes: its link is no longer live. -/
def leaveRoutes (s : State) (p : Nat) : State := if liveLink s (devId s) p then linkChange s p false else s

/-- A port that carries nothing: no lane is in use, and it is not isolated (R390). -/
def Port.quiet (v : Port) : Port :=
  { v with lanesUp := 0#8, laneDegraded := false, podMismatch := false, miswired := false, rejoinAt := none }

/-- A port begins training (R380); a port whose `EN` bit is 0 by then is held DISABLED with its domain OFF (R387, R391). -/
def startTraining (s : State) (p : Nat) : State :=
  let v := getPort s p
  let on := portEnabled s p
  let s := leaveRoutes (setPort s p { v.quiet with state := if on then .training else .disabled }) p
  if on then s else setPd s (72 + p) (.settled .off)

/-- A port goes down (R399); DOWNS counts it. -/
def portDown (s : State) (p : Nat) : State :=
  let v := getPort s p
  leaveRoutes (setPort s p { v.quiet with state := .down, downs := satInc v.downs }) p

/-- 64 replays requested within 1 ms (R383). -/
def replayLimit (s : State) (ts : List (BitVec 64)) : Bool :=
  match ts.drop 63 with
  | [] => false
  | t :: _ => decide ((s.glob.timestamp - t).toNat ≤ 100000)

/-- A link that requests 64 replays within 1 ms is taken down and retrained (R383). -/
def execReplayLimitRetrain (port : Nat) (s : State) : Out :=
  let v := getPort s port
  if carries v && replayLimit s v.replays then
    .next (startTraining (portDown (setPort s port { v with replays := [] }) port) port)
  else notNow

/-- The lanes a port can use of those that are whole (R380). -/
def usableLanes (whole : BitVec 8) : Option (BitVec 8 × Bool) :=
  if whole = 0xFF#8 then some (0xFF#8, false)
  else if whole &&& 0x0F#8 = 0x0F#8 then some (0x0F#8, true)
  else if whole &&& 0xF0#8 = 0xF0#8 then some (0xF0#8, true)
  else none

/-- A lane fails or loses lock (R380). -/
def execLaneFailure (port : Nat) (whole : BitVec 8) (s : State) : Out :=
  let v := getPort s port
  if !carries v || whole &&& v.lanesUp = v.lanesUp then notNow
  else
    match usableLanes whole with
    | some _ => .next (startTraining s port)
    | none => .next (portDown s port)

/-- The HELLO a port sends (R389). -/
def ownHello (s : State) (p : Nat) : Hello :=
  let v := getPort s p
  ⟨v.podAt.toNat, bits v.posAt.toNat 0 6, bits v.posAt.toNat 8 2, p, s.glob.epoch.toNat, !s.fab.relays.isEmpty⟩

/-- A HELLO as a flit (R384, R389), to the neighbour last heard. -/
def helloFlitOf (nbr : Nat) (h : Hello) : Nat :=
  (mkPacket { kind := kHello, vc := 3, src := h.devId, dst := nbr
              body := h.podId % 2 ^ 32 + (h.devId % 64) * 2 ^ 32 + (h.shape % 4) * 2 ^ 40 + (h.port % 8) * 2 ^ 44
                + (h.epoch % 2 ^ 16) * 2 ^ 48 + b2n h.gateway * 2 ^ 64 } []).hdr

/-- A port finishes training (R380, R386): it gives the credit of its empty buffers, takes the pod's identity as the keep
registers give it now (R391) and exchanges HELLOs, or goes down. -/
def execPortTrainingComplete (port : Nat) (whole : BitVec 8) (s : State) : Out :=
  let v := getPort s port
  if v.state ≠ .training then notNow
  else
    match usableLanes whole with
    | none => .next (portDown s port)
    | some (lanes, half) =>
      let s := setPort s port { v with
        state := .hello, lanesUp := lanes, laneDegraded := half, podAt := keepReg s 2, posAt := keepReg s 3
        podMismatch := false, miswired := false, expSeq := 0#12, sendSeq := 0#12, sent := [], discarding := false
        replays := [], credits := [], rxLeft := 0, rxDrop := false, rxFlits := [], rxHeld := [], rxTaken := [] }
      let h := ownHello s port
      .next (emit (sendFrame s port [helloFlitOf v.nbrId.toNat h, creditFlit (devId s) v.nbrId.toNat Config.rxBuffer]) (.hello port h))

/-! ### Ends of operations by the fabric (R394, R397, R412, R417) -/

/-- The failure that an operation has met already, else this one: the first counts (R406). -/
def firstFail (o : Op) (e : Fail) : Fail :=
  if o.status = 0 then e else { code := o.status, addr := o.faultAddr, kind := o.addrKind, remote := o.remoteId }

/-- End a waiting operation with an error of the fabric. -/
def failFabricOp (s : State) (q tag : Nat) (flags : BitVec 8) (e : Fail) : State :=
  match findOp s q tag with
  | some o => if o.phase = .waiting then stopWith s o flags (firstFail o e) else s
  | none => s

/-- Whether a member has received COMMIT (R417). -/
def committed (c : Coll) : Bool := decide (2 ≤ c.stage) && c.kind != 0x53

/-- End a collective here (R417), with the flags that its work has raised (R331) and PARTIAL when it fails after its COMMIT.
The other members are told by `tell`. -/
def failColl (s : State) (c : Coll) (e : Fail) (tell : Option CollBody) : State :=
  let s := setFab s { s.fab with colls := s.fab.colls.filter fun d => !(d.q = c.q && d.tag = c.tag) }
  let s := failFabricOp s c.q c.tag (c.flags ||| flagIf fPartial (committed c)) e
  match tell with | some b => collCast s c b | none => s

/-- The gateway's replies for a relay's packets that have none (R412). -/
def failRelay (s : State) (r : Relay) (code : Nat) : State :=
  let s := r.awaiting.foldl (fun s x => giveReply (relayLog s r code x) r.srcQ (relayFailure r code x) false) s
  setRelay s { r with awaiting := [], copies := r.copies ++ r.awaiting.map fun _ => false }

/-- A device has reset (R397): every operation that involves it ends with 0x42. -/
def remoteReset (s : State) (d : Nat) : State :=
  let e := failPlain cRemoteReset
  let mine := fun (x : Sent) => x.dst = d && hKind x.packet.hdr ≠ kColl
  let s := (s.fab.colls.filter fun c => bit c.members d).foldl (fun s c => failColl s c e (some (.failed cRemoteReset none))) s
  let s := (s.fab.sent.filter fun x => mine x && hKind x.packet.hdr ≠ kRelay).foldl (fun s x => failFabricOp s x.q x.tag 0#8 e) s
  let s := (s.fab.pieces.filter fun x => x.dst = d && hKind x.packet.hdr ≠ kColl).foldl (fun s x => failFabricOp s x.q x.tag 0#8 e) s
  let s := (s.fab.sent.filter mine).foldl (fun s x => failFabricOp s x.q x.tag 0#8 e) s
  let s := (s.fab.relays.filter fun r => r.target = d).foldl (fun s r => failRelay s r cRemoteReset) s
  setFab s { s.fab with
    sent := s.fab.sent.filter fun x => x.dst ≠ d
    pieces := s.fab.pieces.filter fun x => x.dst ≠ d
    seen := s.fab.seen.filter fun x => x.1 ≠ d
    arrivals := s.fab.arrivals.filter fun x => x.src ≠ d
    relaysIn := s.fab.relaysIn.filter fun r => r.gateway ≠ d
    gateways := s.fab.gateways.filter fun g => g ≠ d
    collInbox := s.fab.collInbox.filter fun m => m.src ≠ d
    txns := tput 0 s.fab.txns d 0 }

/-- The reset epoch last heard of a device. -/
def epochOf (s : State) (d : Nat) : Option (BitVec 16) := (s.fab.epochs.find? fun x => x.1 = d).map (·.2)

/-- Whether an epoch tells that a device has reset (R397): it differs from the one last heard. -/
def epochNew (s : State) (d : Nat) (e : BitVec 16) : Bool := decide (d ≠ devId s) && (epochOf s d).any (· != e)

/-- Whether an epoch is news: the device's last heard differs, or none was heard. -/
def epochFresh (s : State) (d : Nat) (e : BitVec 16) : Bool := decide (d ≠ devId s) && (epochOf s d).all (· != e)

/-- Hear a device's reset epoch: operations that involve a device that has reset end (R389, R397). -/
def hearEpoch (s : State) (d : Nat) (e : BitVec 16) : State :=
  if d = devId s then s
  else
    let s := if epochNew s d e then remoteReset s d else s
    setFab s { s.fab with epochs := (d, e) :: s.fab.epochs.filter fun x => x.1 ≠ d }

/-- A device that is heard to carry the gateway bit, or no longer to (R389, R408). -/
def putGateway (s : State) (g : Nat × Bool) : State :=
  if g.1 = devId s then s
  else setFab s { s.fab with gateways := (if g.2 then [g.1] else []) ++ s.fab.gateways.filter (· ≠ g.1) }

/-- Whether a device's gateway bit is news. -/
def gatewayNew (s : State) (g : Nat × Bool) : Bool := decide (g.1 ≠ devId s) && s.fab.gateways.contains g.1 != g.2

/-- A HELLO is judged (R389, R397, R400). -/
def execHelloFlit (port : Nat) (h : Hello) (s : State) : Out :=
  let v := getPort s port
  if !carries v then notNow
  else
    let shape := bits v.posAt.toNat 8 2
    let own := bits v.posAt.toNat 0 6
    let pod := decide (v.podAt.toNat = h.podId % 2 ^ 32) && h.podId % 2 ^ 32 != 0
    let wired := shape == h.shape % 4 && shape != 0 && h.devId == nbrDev shape own port && h.port == nbrPortOf shape port
    let e := BitVec.ofNat 16 h.epoch
    let told := pod && wired && epochNew s h.devId e
    let s := if pod && wired then putGateway (hearEpoch s h.devId e) (h.devId, h.gateway) else s
    let s := if told then sendRoute s { links := [], epochs := [(h.devId, e.toNat)] } else s
    let heard : Port := { getPort s port with
      nbrId := BitVec.ofNat 6 h.devId, nbrPort := BitVec.ofNat 3 h.port, nbrPod := BitVec.ofNat 32 h.podId }
    if !pod || !wired then
      .next (leaveRoutes (setPort s port { heard with state := .isolated, podMismatch := !pod, miswired := !wired }) port)
    else if v.state = .hello then .next (linkChange (setPort s port { heard with state := .up }) port true)
    else .next (setPort s port heard)

/-- News of an own link that stands otherwise than the device knows it: the device announces it anew (DESIGN CHOICE, log 36). -/
def wrongNews (s : State) (news : RouteNews) : List LinkNews :=
  (news.links.filter fun n => n.dev = devId s && liveLink s n.dev n.port != n.live).map fun n => { n with live := !n.live }

/-- A ROUTE flit updates the map, is passed on when it brings news, and makes a recomputation due (R393, R397). -/
def execRouteFlit (port : Nat) (news : RouteNews) (s : State) : Out :=
  let v := getPort s port
  if v.state ≠ .up && v.state ≠ .quiescing then notNow
  else
    let s := match v.rxHeld.find? fun x => hKind (x.1.headD 0) = kRoute with
      | some x => returnCredit (setPort s port
          (takeFrom { v with rxHeld := v.rxHeld.erase x } (hVc (x.1.headD 0)) x.1.length)) port
      | none => s
    let others := news.links.filter fun n => n.dev ≠ devId s
    let fresh := others.any (fun n => liveLink s n.dev n.port != n.live)
      || news.gateways.any (gatewayNew s) || news.epochs.any fun d => epochFresh s d.1 (BitVec.ofNat 16 d.2)
    let wrong := wrongNews s news
    let s := others.foldl putLink s
    let s := news.gateways.foldl putGateway s
    let s := news.epochs.foldl (fun s d => hearEpoch s d.1 (BitVec.ofNat 16 d.2)) s
    let s := if fresh then sendRoute (setFab s { s.fab with routesDue := true }) news else s
    .next (if wrong.isEmpty then s else sendRoute s { links := wrong })

/-! ### Cables (R398 to R400) -/

/-- Loss of signal on every lane (R399); pulling a quiesced port's cable is no loss (R398). -/
def execCablePull (port : Nat) (s : State) : Out :=
  let v := getPort s port
  if !v.cable then notNow
  else
    let s := setPort s port { v with cable := false }
    match v.state with
    | .disabled | .down => .next s
    | .quiesced => .next (setPort s port { v.quiet with cable := false, state := .down })
    | _ => .next (portDown s port)

/-- A port that may train does (R387, R400, R470). -/
def mayTrain (s : State) (p : Nat) : Bool := portEnabled s p && pdOn s (72 + p)

/-- An inserted cable trains by itself (R400). -/
def execCableInsert (port : Nat) (s : State) : Out :=
  let v := getPort s port
  if v.cable then notNow
  else
    let s := setPort s port { v with cable := true }
    .next (if mayTrain s port && v.state == .down then startTraining s port else s)

/-- Whether a packet without an answer went over a port. -/
def portBusy (s : State) (p : Nat) : Bool := s.fab.sent.any fun x => routeTo s x.dst == some p

/-- A port begins to quiesce (events 2 and 3 of R398). -/
def quiescePort (s : State) (p : Nat) : State :=
  let v := getPort s p
  if v.state = .up then leaveRoutes (setPort s p { v with state := .quiescing }) p else s

/-- Every packet sent over a quiescing port has been answered or rerouted (events 4 and 5 of R398): 60 s later it
retrains. -/
def execPortQuiesced (port : Nat) (s : State) : Out :=
  let v := getPort s port
  if v.state = .quiescing && pdOn s (72 + port) && !s.fab.routesDue && !portBusy s port then
    .next (setPort s port { v with state := .quiesced, rejoinAt := some (s.glob.timestamp + 6000000000#64) })
  else notNow

/-- Whether a moment has come. -/
def cameBy (s : State) (t : Option (BitVec 64)) : Bool := t.any fun x => decide (x.toNat ≤ s.glob.timestamp.toNat)

/-- 60 s after it quiesced, a port whose cable was not pulled retrains (event 6 of R398). -/
def execPortRejoinTimer (port : Nat) (s : State) : Out :=
  let v := getPort s port
  if v.state = .quiesced && cameBy s v.rejoinAt && v.cable then .next (startTraining s port) else notNow

end Sys2Proof.Machine
end

