-- ==== Sys2Proof/Machine/Xfer.lean ====
section
/-!
DEFINITION. Transfers over the fabric: windows (R179 to R182, R401 to R404), PUT and GET (R405 to R407), packets and
their answers (R384, R385, R395), shares (R342), relays (R408 to R412) and routes (R392 to R394).
-/

namespace Sys2Proof.Machine

/-! ### An access through a window (R180, R403, R404) -/

/-- Bytes of a slot of the region that a window names. -/
def winSlotBytes (s : State) (w : Window) : Nat :=
  ((getRegion s (regionLathe w.base.toNat) (regionK w.base.toNat)).slotRowsM1.toNat + 1) * 512

/-- The transfer a WRITE or READ belongs to: its number, packets, bytes and first offset (DESIGN CHOICE, log 36). -/
structure XferInfo where
  xfer : Nat
  packets : Nat
  total : Nat
  off0 : Nat

/-- The first address of an access. Of a region window an offset counts inside the slot: the one that a push fills, or for a
read the one at head (DESIGN CHOICE, log 64). -/
def winFirst (s : State) (w : Window) (write : Bool) (off : Nat) : Nat :=
  if w.region then
    let l := regionLathe w.base.toNat
    let r := getRegion s l (regionK w.base.toNat)
    slotAddr l r (if write then r.tail.toNat else r.head.toNat) + off
  else w.base.toNat + off

/-- The core words that an access uses: the window's entry, and for a write the tally that it is bound to (R491). -/
def winCores (s : State) (i : Nat) (write : Bool) : List CoreWord :=
  let w := getWindow s i
  .window i :: if write && w.tunit != 0#2 then [.tally w.tally.toNat] else []

/-- The refusal of an access of `len` bytes, part of a transfer, by the window (R180, R403), by the domain of a region's bench
(R149, R182), or, of a region window, because the transfer does not lie within one slot (R180). -/
def winFault (s : State) (src i off len : Nat) (t : XferInfo) (mode : Nat) (write : Bool) : Option Fail :=
  let w := getWindow s i
  let first := winFirst s w write off
  let right := if !write then w.rd else if mode = 0 then w.wr else w.acc
  if !w.opened || w.peer.toNat ≠ src || w.size.toNat < off + len || !right then some (failAt cWindow first)
  else if w.region && !addrServed s write (latheBase (regionLathe w.base.toNat)) then some (failAt cDomainOff first)
  else if w.region && winSlotBytes s w < max (t.off0 + t.total) (off + len) then some (failAt cWindow first)
  else if s.glob.selftest && isBench w.base.toNat then some (failAt cDomainOff first)
  else none

/-- An access meets the window: its entry and its tally are used (R491), it may be refused, and the entry of its region may
have a parity error (R490). -/
def winAccess (s : State) (src i off len : Nat) (t : XferInfo) (mode : Nat) (write : Bool) : State × Option Fail :=
  match useCores s (winCores s i write) with
  | (s, some e) => (s, some e)
  | (s, none) =>
    let w := getWindow s i
    let l := regionLathe w.base.toNat
    let k := regionK w.base.toNat
    match winFault s src i off len t mode write with
    | some e => (s, some e)
    | none => if w.region && regionBad s l k then (countUncorr s false, some (failAt cEcc (regionAddr l k))) else (s, none)

/-- The target logs a refused access (R403, R404). -/
def logRemote (s : State) (src : Nat) (e : Fail) : State :=
  vlogAdd s { addr := e.addr, kind := e.kind, code := e.code, source := 3, remote := src }

def setArrivals (s : State) (as : List Arrival) : State := setFab s { s.fab with arrivals := as }

/-- Rows of the slot that a transfer of a region window did not supply: zero (R181), or under an accumulate mode unchanged
(DESIGN CHOICE, log 64). -/
def fillSlot (x : Land) (wmode base per : Nat) (t : XferInfo) : Land :=
  ((List.range per).filter fun i => i < t.off0 / 512 || cdiv (t.off0 + t.total) 512 ≤ i).foldl (fun x i =>
    match x.err with | some _ => x | none => landRow x wmode (base + 512 * i) []) x

/-- A source of known bytes. -/
def srcConst (bytes : List Byte) (s : State) (off n : Nat) : State × BitVec 8 × Except Fail (List Byte) :=
  (s, 0#8, .ok ((bytes.drop off).take n))

/-- Land a packet in a region's slot, row by row (R167, R181). -/
def landSlot (x : Land) (wmode base off : Nat) (bytes : List Byte) : Land :=
  (cutAt off 512 (bytes.length / 512 + 2) 0 bytes.length).foldl (fun x p =>
    match x.err with | some _ => x | none => landRow x wmode (base + off + p.1) ((bytes.drop p.1).take p.2)) x

/-- Whether an unfinished transfer fills a region. -/
def fills (s : State) (base : BitVec 48) (a : Arrival) : Bool :=
  (getWindow s a.win).region && (getWindow s a.win).base == base && a.refused.isNone

/-- A WRITE into a region waits by handshake while another transfer fills the region's slot: a push fills slot tail, and
pushes follow one another (R167, DESIGN CHOICE, log 36). -/
def regionWaits (s : State) (src i : Nat) (t : XferInfo) : Bool :=
  let w := getWindow s i
  w.opened && w.region && s.fab.arrivals.any fun a => fills s w.base a && !(a.src = src && a.xfer = t.xfer)

/-- The arrivals of a transfer, and the others. -/
def arrivalOf (s : State) (src : Nat) (t : XferInfo) : Option Arrival :=
  s.fab.arrivals.find? fun a => a.src = src && a.xfer = t.xfer
def otherArrivals (s : State) (src : Nat) (t : XferInfo) : List Arrival :=
  s.fab.arrivals.filter fun a => !(a.src = src && a.xfer = t.xfer)

/-- A transfer's packet is refused: nothing further of the transfer is pushed (R169, R174). -/
def refuseArrival (s : State) (src i : Nat) (t : XferInfo) (e : Fail) : State :=
  setArrivals s ((if (getWindow s i).region then [⟨src, t.xfer, 0, t.packets, i, 0, some (e.code, e.addr)⟩] else [])
    ++ otherArrivals s src t)

/-- A packet's bytes land in the slot that its transfer fills; the transfer's last packet pushes the slot (R167, R169, R181).
A disabled region ends it with BAD_DESCRIPTOR at the region's entry (DESIGN CHOICE, log 64). -/
def landPush (x0 : Land) (i off mode : Nat) (bytes : List Byte) (t : XferInfo) (slot : Option Nat) (last : Bool) : Land × Nat :=
  let w := getWindow x0.s i
  let l := regionLathe w.base.toNat
  let k := regionK w.base.toNat
  let r := getRegion x0.s l k
  let j := slot.getD r.tail.toNat
  let base := slotAddr l r j
  if !r.enable then (x0.fail (failAt cBadDescriptor (regionAddr l k)), j)
  else if slot.isNone && decide (r.slots.toNat ≤ r.fill.toNat) then (x0.fail (failAt cOverrun base), j)
  else
    let x := landSlot x0 mode base off bytes
    let x := if last then fillSlot x mode base (r.slotRowsM1.toNat + 1) t else x
    match x.err, last with
    | none, true => (({ x with s := setRegion x.s l k (pushed (getRegion x.s l k)) } : Land).count 3, j)
    | _, _ => (x, j)

/-- A WRITE that the window admits is committed, and its tally counts (R172 to R174, R181, R406): the state, the flags and
the failure. A disabled region behind the window gives BAD_DESCRIPTOR at the region's entry (DESIGN CHOICE, log 64). -/
def commitWrite (s : State) (src i off mode : Nat) (bytes : List Byte) (t : XferInfo) : State × BitVec 8 × Option Fail :=
  let w := getWindow s i
  let before := arrivalOf s src t
  let got := (before.map (·.got)).getD 0 + 1
  let last := decide (t.packets ≤ got)
  let x0 : Land := { s := s, tally := w.tally.toNat, tunit := if w.tunit = 2#2 then 0 else w.tunit.toNat }
  let d := Dst.dev (w.base.toNat + off)
  let x := if w.region then landPush x0 i off mode bytes t (before.map (·.slot)) last
    else (landAll d mode bytes.length (srcConst bytes) (pieces d bytes.length) x0, 0)
  match x.1.err with
  | some e => (refuseArrival x.1.s src i t e, x.1.flags, some e)
  | none =>
    let s' := if last && w.tunit = 2#2 then addTally x.1.s w.tally.toNat 1 else x.1.s
    (setArrivals s' ((if last then [] else [⟨src, t.xfer, got, t.packets, i, x.2, none⟩]) ++ otherArrivals s src t), x.1.flags, none)

/-- A remote write (R180, R403, R404): a refusal is logged, and the rest of a refused push is refused with it. -/
def remoteWrite (s : State) (src i off mode : Nat) (bytes : List Byte) (t : XferInfo) : State × BitVec 8 × Option Fail :=
  match (arrivalOf s src t).bind (·.refused) with
  | some r => (s, 0#8, some (failAt r.1 r.2))
  | none =>
    match winAccess s src i off bytes.length t mode true with
    | (s, some e) => (logRemote (refuseArrival s src i t e) src e, 0#8, some e)
    | (s, none) =>
      match commitWrite s src i off mode bytes t with
      | (s', f, some e) => (logRemote s' src e, f, some e)
      | (s', f, none) => (s', f, none)

/-- A remote read (R180, R181, R403, R404). Of a region window it is served from the slot at head, also while the region is
disabled: the entry keeps its rows then (R166; DESIGN CHOICE, log 64). -/
def remoteRead (s : State) (src i off len : Nat) (t : XferInfo) : State × BitVec 8 × Except Fail (List Byte) :=
  match winAccess s src i off len t 0 false with
  | (s, some e) => (logRemote s src e, 0#8, .error e)
  | (s, none) =>
    match srcDev (winFirst s (getWindow s i) false off) s 0 len with
    | (s', f, .error e) => (logRemote s' src e, f, .error e)
    | (s', f, .ok b) => (s', f, .ok b)

/-- What a refusal at a device becomes at the requester (R403, R404). -/
def remoteFail (src code addr : Nat) : Fail :=
  { code := if code = cWindow then cWindow else cRemoteError, addr := addr, kind := 3, remote := src }

/-! ### Sending under shares (R342, R395) -/

def usedShare (s : State) (f p d : Nat) : Nat :=
  ((s.fab.usage.find? fun u => u.1 = f && u.2.1 = p && u.2.2.1 = d).map fun u => u.2.2.2).getD 0

def addShare (s : State) (f p d n : Nat) : State :=
  setFab s { s.fab with usage :=
    (f, p, d, usedShare s f p d + n) :: s.fab.usage.filter fun u => !(u.1 = f && u.2.1 = p && u.2.2.1 = d) }

/-- Bytes a function may move over a port in one direction in 10 µs: share ÷ 64 of 128 GB/s, or of half of it on 4
lanes (R342, R380, R381). -/
def shareLimit (s : State) (f p : Nat) : Nat := shareNow s f * (if (getPort s p).laneDegraded then 10000 else 20000)

/-- The bytes that a packet of an operation moves and in which direction: 0 out, 1 in; a relay's control packets are no transfer
of the Fabric Engine's (R342, R408). -/
def moveCost (p : Packet) (len : Nat) : Nat × Nat :=
  if hKind p.hdr = kRelay then (0, 0) else (if hKind p.hdr = kRead then 1 else 0, 64 + 64 * cdiv len 64)

/-- The cost of a piece. -/
def pieceCost (x : Piece) : Nat × Nat := moveCost x.packet x.len

/-- Whether a function's share on a port lets it move a packet now (R342). -/
def shareLets (s : State) (f p : Nat) (c : Nat × Nat) : Bool := c.2 = 0 || decide (usedShare s f p c.1 + c.2 ≤ shareLimit s f p)

/-- Charge a packet to its function's share. -/
def charge (s : State) (f p : Nat) (c : Nat × Nat) : State := if c.2 = 0 then s else addShare s f p c.1 c.2

def dropPiece (s : State) (x : Piece) : State := setFab s { s.fab with pieces := s.fab.pieces.erase x }

def addOpFlags (s : State) (q tag : Nat) (f : BitVec 8) : State :=
  match findOp s q tag with | some o => putOp s { o with flags := o.flags ||| f } | none => s

/-- A failure of a transfer: no further packet of it is sent, and it ends with the first failure once those sent have been
answered (R406, R407). -/
def markFail (s : State) (q tag : Nat) (f : BitVec 8) (e : Fail) : State :=
  match findOp s q tag with
  | some o =>
    if o.phase = .waiting then
      let e := firstFail o e
      putOp (setFab s { s.fab with pieces := s.fab.pieces.filter fun x => !(x.q = q && x.tag = tag) })
        { o with flags := o.flags ||| f, status := e.code, faultAddr := e.addr, addrKind := e.kind, remoteId := e.remote }
    else s
  | none => s

/-- The function whose share a queue's transfers use. -/
def queueFunc (s : State) (q : Nat) : Nat := (getQ s q).func.toNat

/-- Whether a packet without an answer, or not yet sent, belongs to an operation's own transfer. -/
def xferOpen (s : State) (q tag : Nat) : Bool :=
  (s.fab.sent.any fun x => x.q = q && x.tag = tag && hKind x.packet.hdr ≠ kColl)
    || s.fab.pieces.any fun x => x.q = q && x.tag = tag && hKind x.packet.hdr ≠ kColl

/-- A transfer whose every packet has been answered ends (R406, R407). -/
def settleXfer (s : State) (q tag : Nat) : State :=
  if xferOpen s q tag then s
  else
    match findOp s q tag with
    | some o => if o.phase = .waiting && (opCode o = 0x40 || opCode o = 0x41) then
        (if o.status = 0 then endOk s o 0#8 else endFail s o 0#8 (firstFail o (failPlain 0)))
      else s
    | none => s

/-- The bytes of a WRITE: those at its local address, or of a snapshot those of its image. -/
def pieceBytes (s : State) (x : Piece) : State × BitVec 8 × Except Fail (List Byte) :=
  match snapOf s x.q x.tag with
  | some j => (s, 0#8, .ok (memRead j.image x.local_ x.len))
  | none => srcDev x.local_ s 0 x.len

/-- Send a piece that may go: a READ or a COLL packet as it stands, a WRITE with the bytes of its source. -/
def sendPiece (s : State) (x : Piece) : State :=
  if hKind x.packet.hdr ≠ kWrite then sendTracked s x.q x.tag x.packet x.local_ x.len
  else
    match pieceBytes s x with
    | (s', g, .error e) => settleXfer (markFail s' x.q x.tag g e) x.q x.tag
    | (s', g, .ok bytes) =>
      sendTracked (addOpFlags s' x.q x.tag g) x.q x.tag ⟨setBits x.packet.hdr 18 7 (cdiv x.len 64), bytes⟩ x.local_ x.len

/-- Send one waiting piece, when its route, the 1,024 packets of R395 and its share let it. -/
def pumpOne (s : State) (x : Piece) : State :=
  match routeTo s x.dst with
  | some p =>
    let f := queueFunc s x.q
    if s.fab.routesDue || portCut s p || !s.fab.pieces.contains x || 1024 ≤ unanswered s x.dst || !shareLets s f p (pieceCost x)
    then s
    else sendPiece (charge (dropPiece s x) f p (pieceCost x)) x
  | none => s

/-- Change the entry of a packet that waits for its answer. -/
def putSent (s : State) (x : Sent) : State :=
  setFab s { s.fab with sent := s.fab.sent.map fun y => if y.dst = x.dst && y.txn = x.txn then x else y }

/-- Send a packet again that is due, with its transaction number, when its route and its share let it (R342, R395). -/
def resendOne (s : State) (x : Sent) : State :=
  match routeTo s x.dst with
  | some p =>
    let f := queueFunc s x.q
    let c := moveCost x.packet x.len
    if !x.due || s.fab.routesDue || portCut s p || !shareLets s f p c then s
    else sendPacket (charge (putSent s { x with due := false }) f p c) x.packet
  | none => s

/-- Send what may be sent, in order: first what is sent again. -/
def pump (s : State) : State :=
  let s := s.fab.sent.foldl resendOne s
  s.fab.pieces.foldl pumpOne s

/-- The shares of functions 0 to 16 as a window that begins now meters them (R342). -/
def windowShares (s : State) : SMap Nat :=
  (List.range 17).foldl (fun m f => tput (Limits.cold (64 + f)).share m f (shareOf s f)) []

/-- A new accounting window, with the shares as they are set now (R342). -/
def execFabricWindowTick (s : State) : Out :=
  .next (pump (setFab s { s.fab with usage := [], shares := windowShares s }))

/-! ### FE.PUT and FE.GET (R367, R405 to R407) -/

/-- The pieces of a transfer: offset in the window and length, cut at 4 KiB window offsets (R405, R407). -/
def xferPieces (o : Op) : List (Nat × Nat) :=
  (cutAt (fpOff o) 4096 (fpLen o / 4096 + 2) 0 (fpLen o)).map fun p => (fpOff o + p.1, p.2)

def xferInfo (s : State) (o : Op) : XferInfo := ⟨s.fab.xfers % 2 ^ 32, (xferPieces o).length, fpLen o, fpOff o⟩

/-- The `body` of a WRITE or READ: its length and its transfer (DESIGN CHOICE, log 36). -/
def writeBody (len : Nat) (t : XferInfo) : Nat :=
  len + t.packets * 2 ^ 32 + t.xfer * 2 ^ 64 + t.total * 2 ^ 96 + t.off0 * 2 ^ 128

def readXfer (h : Nat) : XferInfo := ⟨bits h 224 32, bits h 192 32, bits h 256 32, bits h 288 40⟩

/-- Whether bytes of an operation's GET at a local address have landed: none of its packets still brings them. -/
def landed (s : State) (q tag a : Nat) : Bool :=
  !((s.fab.sent.any fun x => x.q = q && x.tag = tag && x.local_ ≤ a && a < x.local_ + x.len)
    || s.fab.pieces.any fun x => x.q = q && x.tag = tag && x.local_ ≤ a && a < x.local_ + x.len)

/-- Commit a piece of a GET's data at its local address. In a bench row that it shares with pieces which have landed, theirs
are the row's earlier beats and stay (R154, R407; DESIGN CHOICE, log 64). -/
def landGet (s : State) (o : Op) (a : Nat) (bytes : List Byte) (before after : Bool) : Land :=
  let e := a + bytes.length
  let lo := if isBench a && before then min (a % 512) (a - fpLocal o) else 0
  let hi := if isBench a && after then min ((512 - e % 512) % 512) (fpLocal o + fpLen o - e) else 0
  let all := devBytes s (a - lo) lo ++ bytes ++ devBytes s e hi
  landAll (.dev (a - lo)) 0 all.length (srcConst all) (pieces (.dev (a - lo)) all.length) { s := s }

/-- A transfer through the device's own window table (R394), piece after piece. -/
def selfXfer (put : Bool) (o : Op) (t : XferInfo) : List (Nat × Nat) → State → BitVec 8 → Res
  | [], s, f => ⟨s, f, none⟩
  | (off, n) :: rest, s, f =>
    let a := fpLocal o + (off - fpOff o)
    if put then
      match srcDev a s 0 n with
      | (s', g, .error e) => ⟨s', f ||| g, some e⟩
      | (s', g, .ok b) =>
        match remoteWrite s' (devId s) (fpWin o) off (fpMode o) b t with
        | (u, h, some e) => ⟨u, f ||| g ||| h, some (remoteFail (devId s) e.code e.addr)⟩
        | (u, h, none) => selfXfer put o t rest u (f ||| g ||| h)
    else
      match remoteRead s (devId s) (fpWin o) off n t with
      | (s', g, .error e) => ⟨s', f ||| g, some (remoteFail (devId s) e.code e.addr)⟩
      | (s', g, .ok b) =>
        let x := landGet s' o a b true false
        match x.err with
        | some e => ⟨x.s, f ||| g ||| x.flags, some e⟩
        | none => selfXfer put o t rest x.s (f ||| g ||| x.flags)

/-- Run a transfer to the device itself through its own window table. -/
def ownXfer (put : Bool) (t : XferInfo) (s : State) (o : Op) : State :=
  let x := selfXfer put o t (xferPieces o) s 0#8
  endWith x.s o x.flags x.err

/-- Send the packets of a transfer toward the peer. -/
def issueXfer (put : Bool) (t : XferInfo) (s : State) (o : Op) : State :=
  let mk := fun (p : Nat × Nat) => (⟨o.q, o.tag, fpPeer o,
    mkPacket { kind := if put then kWrite else kRead, vc := 0, src := devId s, dst := fpPeer o, win := fpWin o, off := p.1
               mode := fpMode o, body := writeBody p.2 t } [], fpLocal o + (p.1 - fpOff o), p.2⟩ : Piece)
  let s := putOp s { o with phase := .waiting }
  pump (setFab s { s.fab with pieces := s.fab.pieces ++ (xferPieces o).map mk })

/-- Count a transfer that begins. -/
def countXfer (s : State) : State := setFab s { s.fab with xfers := s.fab.xfers + 1 }

/-- Begin a transfer: through the own window table, or as packets toward the peer. -/
def beginXfer (put : Bool) (code : Nat) (r : OpRef) (s : State) : Out :=
  match findOp s r.q r.tag with
  | none => notNow
  | some o =>
    if o.phase ≠ .started || opCode o ≠ code then notNow
    else
      let t := xferInfo s o
      let s := countXfer s
      if fpPeer o = devId s then .next (ownXfer put t s o)
      else if s.fab.routesDue then notNow
      else if (routeTo s (fpPeer o)).isNone then .next (endFail s o 0#8 (failAt cLinkDown (fpLocal o)))
      else if routeCut s (fpPeer o) then .next (endFail s o 0#8 (failAt cDomainOff (fpLocal o)))
      else .next (issueXfer put t s o)

/-- `FE.PUT` (R367, R405, R406). -/
def execFePut (r : OpRef) (s : State) : Out := beginXfer true 0x40 r s

/-- `FE.GET` (R367, R407). -/
def execFeGet (r : OpRef) (s : State) : Out := beginXfer false 0x41 r s

/-! ### FE.WINDOW_OPEN and FE.WINDOW_CLOSE (R368, R401, R402) -/

def windowOpenBody (s : State) (o : Op) (_ : HostReply) : Res :=
  if (getWindow s (fwWin o)).opened then ⟨s, 0#8, some (failPlain cBadDescriptor)⟩
  else
    ⟨setWindow s (fwWin o) {
      opened := true, peer := BitVec.ofNat 6 (fwPeer o), region := fwRegion o, base := BitVec.ofNat 48 (fwBase o)
      size := BitVec.ofNat 40 (fwSize o), rd := fwRd o, wr := fwWr o, acc := fwAcc o, tally := BitVec.ofNat 12 (fwTally o)
      tunit := BitVec.ofNat 2 (fwTunit o), busy := 0#16, owner := o.q }, 0#8, none⟩

/-- `FE.WINDOW_OPEN` (R368, R402). -/
def execFeWindowOpen (r : OpRef) (s : State) : Out := runBody 0x44 windowOpenBody r s

/-- Close a window. -/
def closeWindow (s : State) (i : Nat) : State :=
  setArrivals (setWindow s i Window.closed) (s.fab.arrivals.filter fun a => a.win ≠ i)

def windowCloseBody (s : State) (o : Op) (_ : HostReply) : Res := ⟨closeWindow s (fwWin o), 0#8, none⟩

/-- `FE.WINDOW_CLOSE` (R368): accesses accepted before it have finished, since each is one row (DESIGN CHOICE, log 3). -/
def execFeWindowClose (r : OpRef) (s : State) : Out := runBody 0x45 windowCloseBody r s

/-! ### Packets (R384, R385, R395) -/

/-- Whether any port takes traffic. -/
def onFabric (s : State) : Bool := (List.range 6).any fun p => takesTraffic (getPort s p)

/-- A packet that is taken, or refused, leaves the buffers it lies in. -/
def freeAfter (p : Packet) (x : Out) : Out :=
  match x with
  | .next s => .next (freeBuffer s p)
  | y => y

/-- A packet arrives: it is passed on when it is for another device, discarded and counted when it has crossed 16 links
or fails its end-to-end check, and else taken (R384, R385). It leaves its receive buffers with that, or once it has gone on
(R386). -/
def arrive (kind : Nat) (p : Packet) (s : State) (take : State → Out) : Out :=
  let h := p.hdr
  if hKind h ≠ kind || !onFabric s then notNow
  else if hHops h = 16 then .next (freeBuffer (countDiscard s (hSrc h)) p)
  else if hDst h ≠ devId s then .next (sendPacket s { p with hdr := setBits h 25 5 (hHops h + 1) })
  else if e2eOf h p.data ≠ hE2e h || cdiv p.data.length 64 ≠ hFlits h then .next (freeBuffer (countDiscard s (hSrc h)) p)
  else freeAfter p (take s)

/-- What `body` of a RESP holds of an access: its address, and the flags that its packet raised there (R112, DESIGN CHOICE, log
36). -/
def answer (addr : Nat) (flags : BitVec 8) : Nat := addr % 2 ^ 48 + flags.toNat * 2 ^ 80
def hFlags (h : Nat) : BitVec 8 := BitVec.ofNat 8 (bits (hBody h) 80 8)

/-- Answer with a RESP and remember that the transaction is complete (R395, R405). -/
def respond (s : State) (src txn status body : Nat) : State :=
  let s := setFab s { s.fab with seen := (src, txn, status, body) :: s.fab.seen.filter fun x => !(x.1 = src && x.2.1 = txn) }
  sendPacket s (mkPacket { kind := kResp, vc := 1, src := devId s, dst := src, txn := txn, status := status, body := body } [])

/-- A transaction that is complete is answered again and not applied (R395). -/
def again (p : Packet) (s : State) (fresh : State → Out) : Out :=
  match s.fab.seen.find? fun x => x.1 = hSrc p.hdr && x.2.1 = hTxn p.hdr with
  | some x => .next (respond s x.1 x.2.1 x.2.2.1 x.2.2.2)
  | none => fresh s

/-- The answer to an access: its failure's code and address, or OK. -/
def answerTo (s : State) (h : Nat) (f : BitVec 8) (e : Option Fail) : State :=
  match e with
  | some e => respond s (hSrc h) (hTxn h) e.code (answer e.addr f)
  | none => respond s (hSrc h) (hTxn h) 0 (answer 0 f)

/-- A WRITE arrives (R405, R403, R404). -/
def execWritePacket (p : Packet) (s : State) : Out :=
  arrive kWrite p s fun s => again p s fun s =>
    let h := p.hdr
    if regionWaits s (hSrc h) (hWin h) (readXfer h) then notNow
    else
      let x := remoteWrite s (hSrc h) (hWin h) (hOff h) (hMode h) (p.data.take (hLen h)) (readXfer h)
      .next (answerTo x.1 h x.2.1 x.2.2)

/-- A READ arrives (R407): DATA when the window admits it. -/
def execReadPacket (p : Packet) (s : State) : Out :=
  arrive kRead p s fun s => again p s fun s =>
    let h := p.hdr
    match remoteRead s (hSrc h) (hWin h) (hOff h) (hLen h) (readXfer h) with
    | (s', f, .error e) => .next (answerTo s' h f (some e))
    | (s', f, .ok b) =>
      .next (sendPacket s' (mkPacket { kind := kData, vc := 1, src := devId s, dst := hSrc h, txn := hTxn h, body := answer 0 f } b))

/-- The packet an answer belongs to. -/
def sentFor (s : State) (p : Packet) : Option Sent := s.fab.sent.find? fun x => x.dst = hSrc p.hdr && x.txn = hTxn p.hdr

def dropSent (s : State) (x : Sent) : State :=
  setFab s { s.fab with sent := s.fab.sent.filter fun y => !(y.dst = x.dst && y.txn = x.txn) }

/-- Bytes of an image have arrived at an offset. -/
def SnapJob.take (j : SnapJob) (off : Nat) (bytes : List Byte) : SnapJob :=
  { j with image := memWrite j.image off bytes, got := (off, off + bytes.length) :: j.got }

/-- DATA arrives for an `FE.GET` and is committed at the local address (R407), or brings part of a snapshot's image (R376). -/
def execDataPacket (p : Packet) (s : State) : Out :=
  arrive kData p s fun s =>
    match sentFor s p with
    | none => .next s
    | some x =>
      let s := dropSent s x
      match findOp s x.q x.tag with
      | none => .next s
      | some o =>
        match snapOf s x.q x.tag with
        | some j =>
          .next (pump (addOpFlags { s with snap := some (j.take x.local_ (p.data.take x.len)) } x.q x.tag (hFlags p.hdr)))
        | none =>
        let l := landGet s o x.local_ (p.data.take x.len) (decide (fpLocal o < x.local_) && landed s x.q x.tag (x.local_ - 1))
          (decide (x.local_ + x.len < fpLocal o + fpLen o) && landed s x.q x.tag (x.local_ + x.len))
        let f := l.flags ||| hFlags p.hdr
        match l.err with
        | some e => .next (settleXfer (markFail l.s x.q x.tag f e) x.q x.tag)
        | none => .next (settleXfer (pump (addOpFlags l.s x.q x.tag f)) x.q x.tag)

/-- The relay a set-up makes, from the target's answer (R408, DESIGN CHOICE, log 36): ring base, size exponent and tail. -/
def relayFrom (o : Op) (h : Nat) : Relay where
  srcQ := frSrc o
  target := frTarget o
  dstQ := frDst o
  base := bits h 160 48
  log2 := bits h 208 8
  awaiting := []
  sent := bits h 224 16
  copies := []

/-- A set-up is answered. -/
def relaySetUp (s : State) (o : Op) (h : Nat) : State :=
  if hStatus h = 0 then
    let s := setFab s { s.fab with relays := relayFrom o h :: s.fab.relays.filter fun r => r.srcQ ≠ frSrc o }
    endOk (announce s) o 0#8
  else endFail s o 0#8 (remoteFail (hSrc h) (hStatus h) (hAddr h))

/-- A relayed packet is answered: with the ring slot it took, or with a refusal, which becomes the packet's reply (R409,
R412). -/
def relayAnswered (s : State) (x : Sent) (h : Nat) : State :=
  match relayOf s x.q with
  | none => s
  | some r =>
    match r.awaiting.reverse.find? fun a => a.1 = x.tag with
    | none => s
    | some a =>
      if hStatus h = 0 then
        let slot := bits (hBody h) 0 16
        setRelay s { r with
          awaiting := r.awaiting.map fun y => if y = a then (a.1, a.2.1, slot) else y, sent := (slot + 1) % 2 ^ r.log2 }
      else giveReply (setRelay (relayLog s r cRemoteError a) { r with awaiting := r.awaiting.erase a, copies := r.copies ++ [false], sent := a.2.2 }) x.q
        (relayFailure r cRemoteError a) false

/-- A RESP arrives (R403 to R406, R408, R416). -/
def execRespPacket (p : Packet) (s : State) : Out :=
  arrive kResp p s fun s =>
    match sentFor s p with
    | none => .next s
    | some x =>
      let s := dropSent s x
      let h := p.hdr
      if hKind x.packet.hdr = kColl then .next (pump s)
      else
        match findOp s x.q x.tag with
        | some o =>
          if opCode o = 0x46 && o.phase = .waiting && x.packet.data.isEmpty then .next (relaySetUp s o h)
          else if hKind x.packet.hdr = kRelay then .next (pump (relayAnswered s x h))
          else if hStatus h = 0 then .next (settleXfer (pump (addOpFlags s x.q x.tag (hFlags h))) x.q x.tag)
          else .next (settleXfer (markFail s x.q x.tag (hFlags h) (remoteFail (hSrc h) (hStatus h) (hAddr h))) x.q x.tag)
        | none => .next (pump (relayAnswered s x h))

/-! ### Relays (R369, R408 to R411) -/

/-- Ask the target to take a queue's packets; the command waits for the answer. -/
def relayAsk (s : State) (o : Op) : State :=
  sendTracked (putOp s { o with phase := .waiting }) o.q o.tag (relayControl s (relayFrom o 0) 1) 0 0

/-- End a relay that has every reply. -/
def relayStop (s : State) (o : Op) (x : Relay) : State :=
  let s := sendControl s x 2
  let s := setFab s { s.fab with relays := s.fab.relays.filter fun y => y.srcQ ≠ x.srcQ }
  endOk (announce s) o 0#8

/-- What a command without a local address logs when its route begins at an N-port of the east half that is cut off: the first
bench there (R18, DESIGN CHOICE, log 36). -/
def eastCut : Fail := failAt cDomainOff (latheBase 64)

/-- `FE.RELAY` (R369, R408). Ending a relay waits for the replies still out (DESIGN CHOICE, log 36). -/
def execFeRelay (r : OpRef) (s : State) : Out :=
  match findOp s r.q r.tag with
  | none => notNow
  | some o =>
    if o.phase ≠ .started || opCode o ≠ 0x46 then notNow
    else if frEnable o then
      if frTarget o = devId s then .next (endFail s o 0#8 badPacket)
      else if s.fab.routesDue then notNow
      else if (routeTo s (frTarget o)).isNone then .next (endFail s o 0#8 (failPlain cLinkDown))
      else if routeCut s (frTarget o) then .next (endFail s o 0#8 eastCut)
      else if 1024 ≤ unanswered s (frTarget o) then notNow
      else .next (relayAsk s o)
    else
      match relayOf s (frSrc o) with
      | none => .next (endOk s o 0#8)
      | some x =>
        if !x.awaiting.isEmpty || s.fab.routesDue then notNow
        else if routeCut s x.target then .next (endFail s o 0#8 eastCut)
        else .next (relayStop s o x)

/-- Packets a ring holds. -/
def sqUsed (v : Queue) : Nat := (v.sqTail.toNat + 2 ^ v.sqLog2.toNat - v.sqHead.toNat) % 2 ^ v.sqLog2.toNat

/-- Advance a ring index. -/
def ringAdd (x : BitVec 16) (n log2 : Nat) : BitVec 16 := BitVec.ofNat 16 ((x.toNat + n) % 2 ^ log2)

/-- A relay's control packet arrives at the target. -/
def relayCommand (p : Packet) (s : State) (dq sq : Nat) : Out :=
  let h := p.hdr
  let v := getQ s dq
  let src := hSrc h
  match bits (hBody h) 0 2 with
  | 1 => again p s fun s =>
    if v.enable && v.loc && !relayed s dq then
      .next (respond (setFab s { s.fab with relaysIn := ⟨dq, src, sq⟩ :: s.fab.relaysIn }) src (hTxn h) 0
        (v.sqBase.toNat + v.sqLog2.toNat * 2 ^ 48 + v.sqTail.toNat * 2 ^ 64))
    else .next (respond (logRemote s src badPacket) src (hTxn h) cBadDescriptor 0)
  | 2 => again p s fun s => .next (respond (setFab s { s.fab with
      relaysIn := s.fab.relaysIn.filter fun r => !(r.dstQ = dq && r.gateway = src) }) src (hTxn h) 0 0)
  | _ => again p s fun s => .next (respond
      (modQ s dq fun v => { v with stqHead := ringAdd v.stqHead (bits (hBody h) 16 16) v.stqLog2.toNat }) src (hTxn h) 0 0)

/-- A RELAY packet arrives (R409): a relayed packet is written into the ring, whose SQ_TAIL moves. -/
def execRelayPacket (p : Packet) (s : State) : Out :=
  arrive kRelay p s fun s =>
    let h := p.hdr
    let sq := bits (hColl h) 0 6
    let dq := bits (hColl h) 6 6
    if hFlits h = 0 then relayCommand p s dq sq
    else again p s fun s =>
      let v := getQ s dq
      if !v.enable || !(s.fab.relaysIn.contains ⟨dq, hSrc h, sq⟩) then
        .next (respond (logRemote s (hSrc h) badPacket) (hSrc h) (hTxn h) cBadDescriptor 0)
      else if 2 ^ v.sqLog2.toNat - 1 ≤ sqUsed v then notNow
      else
        let s := ringWrite s (v.sqBase.toNat + 64 * v.sqTail.toNat) (p.data.take 64)
        let slot := v.sqTail.toNat
        let s := modQ s dq fun v => { v with
          sqTail := ringAdd v.sqTail 1 v.sqLog2.toNat, relaySlots := slot :: v.relaySlots.filter (· ≠ slot) }
        .next (respond s (hSrc h) (hTxn h) 0 slot)

/-- Take a packet's entry off the list of those that wait for a reply: the newest of its tag for a refused duplicate. -/
def takeAwaiting (as : List (Nat × Nat × Nat)) (tag : Nat) (dup : Bool) : List (Nat × Nat × Nat) :=
  let drop := fun (l : List (Nat × Nat × Nat)) => match l.find? fun a => a.1 = tag with | some a => l.erase a | none => l
  if dup then (drop as.reverse).reverse else drop as

/-- A relayed reply is written into the gateway's status queue (R411). One that comes after its packet has had a reply is not
written again, and the target's copy is released at once (R412; DEDUCED, log 36). -/
def execReplyPacket (p : Packet) (s : State) : Out :=
  arrive kReply p s fun s =>
    let h := p.hdr
    let sq := bits (hColl h) 0 6
    match relayOf s sq with
    | none => .next s
    | some r =>
      if r.target ≠ hSrc h || r.dstQ ≠ bits (hColl h) 6 6 then .next s
      else
        let w := setBits (leNat (p.data.take 16)) 40 6 sq
        let left := takeAwaiting r.awaiting (bits w 0 13) (bit w 13)
        if left.length = r.awaiting.length then .next (sendControl s r (3 + 2 ^ 16))
        else
          let s := setRelay s { r with awaiting := left, copies := r.copies ++ [true] }
          .next (giveReply s sq (BitVec.ofNat 128 w) (bit (hBody h) 0))

/-- Replies of a relaying queue are released: the target's copies are released with them (R411). -/
def releaseCopies (s : State) (q n : Nat) : State :=
  match relayOf s q with
  | none => s
  | some r =>
    let k := ((r.copies.take n).filter id).length
    let s := setRelay s { r with copies := r.copies.drop n }
    if k = 0 then s else sendControl s r (3 + k * 2 ^ 16)

/-! ### Routes (R392 to R395) -/

/-- The order of a device's ports in dimension order (R392). -/
def portOrder (shape : Nat) : List Nat := if shape = 1 then [0, 1, 4, 2, 3, 5] else [0, 1, 2, 3, 4, 5]

/-- Breadth-first distances over live links under the up-then-down rule (R393): devices with whether the path may still
go up, `k` links away. -/
def spread (s : State) (shape : Nat) : Nat → Nat → List (Nat × Bool) → List (Nat × Bool) → List (Nat × Nat)
  | 0, _, _, _ => []
  | n + 1, k, front, seen =>
    if front.isEmpty then []
    else
      let next := (front.flatMap fun x => (List.range 6).filterMap fun p =>
        let e := nbrDev shape x.1 p
        if !linkUp s x.1 p || (x.1 < e && !x.2) then none else some (e, x.2 && decide (x.1 < e))).dedup
      let seen := seen ++ front
      front.map (fun x => (x.1, k)) ++ spread s shape n (k + 1) (next.filter fun x => !seen.contains x) seen

/-- The shortest distance to a device. -/
def distTo (ds : List (Nat × Nat)) (d : Nat) : Option Nat := (ds.find? fun x => x.1 = d).map (·.2)

/-- Whether every link of the pod is up (R392). -/
def allUp (s : State) (shape : Nat) : Bool :=
  (List.range (podSize shape)).all fun d => (List.range 6).all fun p => linkUp s d p

/-- Recompute the route table (R392, R393). -/
def newRoutes (s : State) : List (Nat × Nat) :=
  let shape := podShape s
  let me := devId s
  if standalone s then []
  else
    let mine := (portOrder shape).filter fun p => linkUp s me p && (getPort s p).state == .up
    let reach := mine.map fun p =>
      let n := nbrDev shape me p
      (p, spread s shape 130 1 [(n, decide (me < n))] [])
    ((List.range (podSize shape)).filter (· ≠ me)).filterMap fun d =>
      if allUp s shape then (dimPort shape me d).map fun p => (d, p)
      else
        let best := reach.foldl (fun (b : Option (Nat × Nat)) x =>
          match distTo x.2 d, b with
          | some k, some y => if k < y.2 then some (x.1, k) else b
          | some k, none => some (x.1, k)
          | none, _ => b) none
        best.map fun b => (d, b.1)

/-- What an operation without a local address logs when the die bridge cuts its route off, and what one that has one logs: the
first address it has not delivered (R18, R394). -/
def cutOff (e : Fail) : Fail := if e.kind = 0 then eastCut else { e with code := cDomainOff }

/-- The first local address an operation has not delivered (R394). -/
def undelivered (s : State) (q tag : Nat) : Fail :=
  let as := ((s.fab.sent.filter fun x => x.q = q && x.tag = tag).map (·.local_))
    ++ ((s.fab.pieces.filter fun x => x.q = q && x.tag = tag).map (·.local_))
  match findOp s q tag with
  | some o => if opCode o = 0x40 || opCode o = 0x41 then
      failAt cLinkDown (as.foldl min (as.headD 0)) else failPlain cLinkDown
  | none => failPlain cLinkDown

/-- What a collective logs when a member cannot be reached (R394). -/
def collUndelivered (s : State) (c : Coll) : Fail :=
  if c.kind = 0x53 then failPlain cLinkDown else failAt cLinkDown (collLocal s c)

/-- End what waits for the destinations that satisfy `p`: transfers and collectives with `f` of what they have not delivered, a
relay's packets with `code` (R394, R412, R417). -/
def endToward (s : State) (p : Nat → Bool) (f : Fail → Fail) (code : Nat) : State :=
  let s := (s.fab.colls.filter fun c => (membersOf c.members).any p).foldl (fun s c =>
    failColl s c (f (collUndelivered s c)) (some (.failed code none))) s
  let lost := ((s.fab.sent.filter fun x => p x.dst && hKind x.packet.hdr ≠ kColl
      && !(hKind x.packet.hdr = kRelay && x.packet.data.length = 64)).map fun x => (x.q, x.tag))
    ++ ((s.fab.pieces.filter fun x => p x.dst && hKind x.packet.hdr ≠ kColl).map fun x => (x.q, x.tag))
  let s := lost.foldl (fun s x => failFabricOp s x.1 x.2 0#8 (f (undelivered s x.1 x.2))) s
  let s := (s.fab.relays.filter fun r => p r.target).foldl (fun s r => failRelay s r code) s
  setFab s { s.fab with sent := s.fab.sent.filter fun x => !p x.dst, pieces := s.fab.pieces.filter fun x => !p x.dst }

/-- Recomputation (R393, R394, R395, R412): packets whose first hop changed are sent again as their shares let them, what
waits for a destination that is still unreachable ends with 0x40, and what waits for one that the die bridge cuts off with
0x23 (R18). -/
def execRouteRecompute (s : State) : Out :=
  if !s.fab.routesDue then notNow
  else
    let old := s.fab.routes
    let s := setFab s { s.fab with routes := newRoutes s, routesDue := false }
    let s := setFab s { s.fab with sent := s.fab.sent.map fun x =>
      if ((old.find? fun r => r.1 = x.dst).map (·.2)) = routeTo s x.dst then x else { x with due := true } }
    let s := endToward s (fun d => d ≠ devId s && (routeTo s d).isNone) id cLinkDown
    let s := endToward s (fun d => d ≠ devId s && routeCut s d) cutOff cDomainOff
    .next (pump (drain s))

/-- The collective that a COLL packet belongs to on its sender. -/
def collOf (s : State) (m : CollMsg) : Option Coll :=
  s.fab.colls.find? fun c => c.q = m.queue && c.kind = m.kind && c.members = m.members && c.count = m.count

/-- A packet that stays without an answer ends what it belongs to (R394, R395): a relayed packet gets its reply, a collective
fails, a transfer ends. -/
def giveUp (s : State) (x : Sent) : State :=
  if hKind x.packet.hdr = kColl then
    match collOf s (readColl x.packet) with
    | some c => dropSent (failColl s c (collUndelivered s c) (some (.failed cLinkDown none))) x
    | none => dropSent s x
  else if hKind x.packet.hdr = kRelay && !x.packet.data.isEmpty then
    match relayOf (dropSent s x) x.q with
    | some r =>
      match r.awaiting.find? fun a => a.1 = x.tag with
      | some a => giveReply (setRelay (relayLog (dropSent s x) r cLinkDown a) { r with
          awaiting := r.awaiting.erase a, copies := r.copies ++ [false] }) x.q (relayFailure r cLinkDown a) false
      | none => dropSent s x
    | none => dropSent s x
  else dropSent (failFabricOp s x.q x.tag 0#8 (undelivered s x.q x.tag)) x

/-- No answer within 1 ms (R395): the packet is sent again as its share lets it, and after four times, while a route exists, its
operation ends with 0x40. -/
def execRetransmitTimeout (dst txn : Nat) (s : State) : Out :=
  match s.fab.sent.find? fun x => x.dst = dst && x.txn = txn with
  | none => notNow
  | some x =>
    if s.fab.routesDue || (routeTo s dst).isNone || x.due then notNow
    else if x.tries < 4 then .next (pump (putSent s { x with tries := x.tries + 1, due := true }))
    else .next (pump (giveUp s x))

end Sys2Proof.Machine
end

