-- ==== Sys2Proof/Machine/Collect.lean ====
section
/-!
DEFINITION. Collectives (R413 to R420): all-reduce, all-to-all in both forms, and the pod barrier. What their packets
hold beyond R413 is the model's (DESIGN CHOICE, log 36).
-/

namespace Sys2Proof.Machine

/-! ### A collective's entry -/

def findColl (s : State) (q tag : Nat) : Option Coll := s.fab.colls.find? fun c => c.q = q && c.tag = tag

def putColl (s : State) (c : Coll) : State :=
  setFab s { s.fab with colls := s.fab.colls.map fun d => if d.q = c.q && d.tag = c.tag then c else d }

def dropColl (s : State) (c : Coll) : State :=
  setFab s { s.fab with colls := s.fab.colls.filter fun d => !(d.q = c.q && d.tag = c.tag) }

/-- The code with which a refusal ends the collective on the refusing member: 0x41 as on the others (R417), but for the codes
that R394, R397, R18 and R418 give it there. -/
def refusalCode (kind c : Nat) : Nat :=
  if c = cLinkDown ∨ c = cRemoteReset ∨ c = cDomainOff ∨ (c = cAddrRange ∧ kind = 0x43) then c else cRemoteError

/-- This member's refusal ends the collective: here and on the others with 0x41 (R413, R417, R418). The member's own code
stands in its violation log, in an entry of the refusal's own (R404; DEDUCED, log 36). -/
def refuseColl (s : State) (c : Coll) (e : Fail) : State :=
  let s := if refusalCode c.kind e.code = e.code then s
    else vlogAdd s { addr := e.addr, kind := e.kind, code := e.code, source := 3, remote := devId s }
  failColl s c { e with code := refusalCode c.kind e.code } (some (.failed cRemoteError (if e.kind = 1 then some e.addr else none)))

/-- The lowest-numbered member (R416). -/
def leader (c : Coll) : Nat := (membersOf c.members).headD 0

/-! ### Contributions (R413, R416) -/

/-- The bytes of a contribution: its parts in the order of their offsets. -/
def Contribution.bytes (x : Contribution) : List Byte :=
  (List.range x.parts.length).flatMap fun i => ((x.parts.find? fun y => y.1 = 3840 * i).map (·.2)).getD []

/-- Whether every part of a contribution has come. -/
def Contribution.whole (x : Contribution) : Bool := !x.parts.isEmpty && x.bytes.length == x.total

/-- Take a part of a member's contribution. -/
def takePart (cs : List Contribution) (src : Nat) (sm : List Nat) (total off : Nat) (bs : List Byte) : List Contribution :=
  match cs.find? fun x => x.src = src with
  | some x => { x with parts := (off, bs) :: x.parts } :: cs.filter fun y => y.src ≠ src
  | none => ⟨src, sm, total, [(off, bs)]⟩ :: cs

/-- The bytes of a member. -/
def bytesOf (c : Coll) (d : Nat) : List Byte := ((c.contributions.find? fun x => x.src = d).map (·.bytes)).getD []

/-- Word `i` of a contribution. -/
def wordAt (bs : List Byte) (i : Nat) : Nat := leNat ((bs.drop (8 * i)).take 8)

/-! ### Plain elements (R370, R414) -/

/-- The plain elements of `ref_a`, converted as lathe 0 does (DESIGN CHOICE, log 60). -/
def feIn (o : Op) : VeIn := { plainIn o (refA o) with slot := fPatA o }

/-- The word that a plain element travels as: a LOG8 code as it stands, any other value exactly, as a C64 word (R370). -/
def plainWord (s : State) (o : Op) (b i j : Nat) : Nat :=
  if (refA o).fmt = .log8 then elemCode s (refA o) b i j else (c64Pack (elemExt (veElem s o 0 (feIn o) b i j))).1

/-- Its exact value (R31 for LOG8). -/
def plainVal (o : Op) (w : Nat) : Sval := if (refA o).fmt = .log8 then log8Val w else .ext (accExt .c64 w)

/-! ### All-reduce (R415, R416) -/

/-- Partials of each member (R370, R360). -/
def arParts (o : Op) : Nat := if collBit o then (refA o).batch / (refC o).batch else 1

/-- A member's contribution: 8 bytes for each element, in the order of its batch, rows and columns. -/
def arBytes (s : State) (o : Op) : List Byte :=
  let a := refA o
  (List.range a.batch).flatMap fun b => (List.range a.rows).flatMap fun i => (List.range a.cols).flatMap fun j =>
    leBytes 8 (if collBit o then elemW s a (arWidth o) b i j else plainWord s o b i j)

/-- What the members must agree on (R413). -/
def arSummary (o : Op) : List Nat :=
  [b2n (collBit o), if collBit o then fAccFmt o + 4 * b2n (fA16Fp16 o) else (refA o).code, (refA o).rows, (refA o).cols,
    (refA o).batch, (refC o).batch, (refC o).code]

/-- The sum of an element's contributions, in ascending (device ID, partial) order, as the epilogue reads it (R370, R414,
R415). -/
def arSum (o : Op) (ds : List (List Byte)) (b m n : Nat) : Ext × BitVec 8 :=
  let M := (refC o).rows
  let N := (refC o).cols
  let P := arParts o
  let f := if collBit o then accFmt o else .c64
  let t :=
    if collBit o then
      sumPartials f (ds.flatMap fun bs => (List.range P).map fun p => wordAt bs (((b * P + p) * M + m) * N + n))
    else accAddAllS 0 (ds.map fun bs => plainVal o (wordAt bs ((b * M + m) * N + n)))
  let v := accRead f (fI48Exp o) t.1
  (v.1, t.2 ||| v.2)

/-- An output of an all-reduce. -/
def arConv (s : State) (o : Op) (ds : List (List Byte)) (b m n : Nat) : Conv :=
  let v := arSum o ds b m n
  let k := epilogue (epiCol s o (outFmt o) 0 (refC o).rows (refC o).cols b m n) v.1
  { k with flags := k.flags ||| v.2 }

/-- What the collective's members will hold: writes, flags and the greatest quantised magnitude. -/
structure Outcome where
  s : State
  writes : List (Nat × List Byte)
  flags : BitVec 8
  amax : Nat := 0

/-- The writes of a table of outputs into `ref_c`, with their flags and greatest magnitude. -/
def outcomeOf (s : State) (o : Op) (t : List (List (List Conv))) : Outcome :=
  let r := refC o
  let cs := t.flatten.flatten
  ⟨s, planTensor s r r.rows (fmtBits (outFmt o)) fun b m n => (rowAt noConv t b m n).code, convFlags cs, convAmax cs⟩

/-- Bytes dealt over ranges, in order, as far as both reach. -/
def dealBytes : List (Nat × Nat) → List Byte → List (Nat × List Byte)
  | [], _ => []
  | x :: r, bs => if bs.isEmpty then [] else (x.1, bs.take x.2) :: dealBytes r (bs.drop x.2)

/-- The ranges of the staging tensor (R370, R415). -/
def stagingOf (o : Op) : List (Nat × Nat) := (auxRef o 7).ranges (arWidth o)

/-- The bytes of a collective's results, in the order of their addresses in `ref_c`. -/
def resultBytes (ws : List (Nat × List Byte)) : List Byte := ws.flatMap (·.2)

/-- The same places with other bytes. -/
def withBytes : List (Nat × List Byte) → List Byte → List (Nat × List Byte)
  | [], _ => []
  | x :: r, bs => (x.1, bs.take x.2.length) :: withBytes r (bs.drop x.2.length)

/-- The results are formed, a pattern output through lathe 0's slot (DESIGN CHOICE, log 60), and placed in the staging tensor:
their bytes packed from its first byte on, as far as it reaches (R416; the layout is a DESIGN CHOICE, log 37). -/
def arPrepare (s : State) (c : Coll) (o : Op) : State × Except Fail Outcome :=
  let r := refC o
  let ds := (membersOf c.members).map (bytesOf c)
  let x := outcomeOf s o (rowTable r.batch r.rows fun b m => (List.range r.cols).map (arConv s o ds b m))
  match writeAll s (dealBytes (stagingOf o) (resultBytes x.writes)) with
  | (s', _, some e) => (s', .error e)
  | (s', g, none) => (s', .ok { x with flags := x.flags ||| g })

/-- What a commit writes (R416): the bytes that the staging tensor holds then, and after them those that it has no room for. -/
def stagedWrites (s : State) (c : Coll) (o : Op) : State × BitVec 8 × Except Fail (List (Nat × List Byte)) :=
  if c.kind ≠ 0x42 then (s, 0#8, .ok c.writes)
  else
    let all := resultBytes c.writes
    let rs := (dealBytes (stagingOf o) all).map fun x => (x.1, x.2.length)
    match readAll s rs with
    | (s', f, some e) => (s', f, .error e)
    | (s', f, none) =>
      let held := rs.flatMap fun x => devBytes s' x.1 x.2
      (s', f, .ok (withBytes c.writes (held ++ all.drop held.length)))

/-! ### All-to-all (R249, R250, R418, R419) -/

/-- A routed line: its destination device, slot, expert, source, token, gate as FP32, and its elements. -/
structure Routed where
  dst : Nat
  slot : Nat
  expert : Nat
  src : Nat
  token : Nat
  gate : Nat
  line : List Nat

def Routed.bytes (x : Routed) : List Byte :=
  leBytes 1 x.dst ++ leBytes 1 x.slot ++ leBytes 4 x.expert ++ leBytes 4 x.token ++ leBytes 4 x.gate
    ++ x.line.flatMap (leBytes 8)

/-- Read the lines of a member's contribution, of `cols` elements each. -/
def readRouted (cols src : Nat) : Nat → List Byte → List Routed
  | 0, _ => []
  | n + 1, bs =>
    if bs.length < 14 + 8 * cols then []
    else
      let at_ := fun (i k : Nat) => leNat ((bs.drop i).take k)
      ⟨at_ 0 1, at_ 1 1, at_ 2 4, src, at_ 6 4, at_ 10 4, (List.range cols).map fun j => at_ (14 + 8 * j) 8⟩
        :: readRouted cols src n (bs.drop (14 + 8 * cols))

/-- Every line routed to this device, by ascending source (R249). -/
def routedHere (s : State) (c : Coll) (cols : Nat) : List Routed :=
  (membersOf c.members).flatMap fun d =>
    let bs := bytesOf c d
    (readRouted cols d (bs.length + 1) bs).filter fun x => x.dst = devId s

/-- Insert in ascending order of a key, after equals. -/
def insertBy (key : Routed → Nat) (x : Routed) : List Routed → List Routed
  | [] => [x]
  | y :: r => if key y ≤ key x then y :: insertBy key x r else x :: y :: r

def sortBy (key : Routed → Nat) (xs : List Routed) : List Routed := xs.foldl (fun l x => insertBy key x l) []

/-- A gate value as FP32: a BF16 code widened exactly (R247). -/
def gateCode (f : Fmt) (c : Nat) : Nat := if f = .bf16 then c * 2 ^ 16 else c

/-- Entry `e` of the expert map (R370). -/
def expertEntry (s : State) (o : Op) (e : Nat) : Nat := leNat (devBytes s ((auxRef o 3).base + 4 * e) 4)

def imgFmtOf (h : Nat) : Fmt := (fmtOf (imgFmt h)).getD .fp32

/-- The lines a member dispatches, expert by expert (R249), or the first fault of its inputs (R224, R413). An expert with
entries whose owner is not a member fails at its entry of the expert map, which R249 leaves open (DESIGN CHOICE, log 80). -/
def dispatchLines (s : State) (o : Op) : Except Fail (List Routed) :=
  let base := (auxRef o 7).base
  let h := imgHeader s base
  let a := refA o
  match imgFault s base h 0 (imgRows h) with
  | some x => .error (failAt cSparsity x)
  | none =>
    let bad := (List.range (imgRows h)).find? fun e =>
      !(imgEntries s base h e).isEmpty && !bit (collMembers o) (bits (expertEntry s o e) 0 6)
    match bad with
    | some e => .error (failAt cBadDescriptor ((auxRef o 3).base + 4 * e))
    | none => .ok ((List.range (imgRows h)).flatMap fun e => (imgEntries s base h e).map fun k =>
        let m := expertEntry s o e
        let t := imgIdx s base h k
        ⟨bits m 0 6, bits m 8 8, e, devId s, t, gateCode (imgFmtOf h) (imgVal s base h k),
          (List.range a.cols).map fun j => elemCode s a 0 t j⟩)

/-- The lines a member returns (R250), or the first fault of its return lists. Entries beyond the lines or the batch of
`ref_a` are left out without an error, which R250 leaves open (DESIGN CHOICE, log 80). -/
def combineLines (s : State) (o : Op) : Except Fail (List Routed) :=
  let base := (auxRef o 4).base
  let h := imgHeader s base
  let a := refA o
  let ids := ((s.head.expertMaps.find? fun m => m.queue = o.q && m.members = collMembers o).map (·.experts)).getD []
  match imgFault s base h 0 (imgRows h) with
  | some x => .error (failAt cSparsity x)
  | none => .ok ((List.range (min (imgRows h) a.batch)).flatMap fun x =>
      let ks := imgEntries s base h x
      (List.range (min ks.length a.rows)).map fun i =>
        let k := ks.getD i 0
        let id := imgIdx s base h k
        ⟨id / 2 ^ 20 % 64, x % 256, ((ids.find? fun p => p.1 = x).map (·.2)).getD 0, devId s, id % 2 ^ 20,
          gateCode (imgFmtOf h) (imgVal s base h k), (List.range a.cols).map (plainWord s o x i)⟩)

/-- The outputs of a dispatch (R249): each slot's lines, the slot counts and the return list; or the slot that has too little
room (R418). Of the return list R249 gives the index width only: it has the value format of this device's own dispatch list
and 2^26 columns (DESIGN CHOICE, log 80). -/
def dispatchPrepare (s : State) (c : Coll) (o : Op) : State × Except Fail Outcome :=
  let r := refC o
  let w := fmtBits r.fmt
  let mine := routedHere s c (refA o).cols
  let slot := fun x : Nat => (membersOf c.members).flatMap fun d =>
    sortBy (·.token) (mine.filter fun y => y.slot = x && y.src = d)
  let count := fun x : Nat => (slot x).length
  match (List.range 256).find? fun x => (if x < r.batch then r.rows else 0) < count x with
  | some x => (s, .error (failAt cAddrRange ((auxRef o 6).base + 4 * x)))
  | none =>
    let fmt := imgFmtOf (imgHeader s (auxRef o 7).base)
    let img : Img := ⟨r.batch, 2 ^ 26, fmt, (List.range r.batch).map fun x => (slot x).map fun y =>
      (y.src * 2 ^ 20 + y.token, if fmt = .bf16 then y.gate / 2 ^ 16 else y.gate), true⟩
    if hbmEnd < (auxRef o 4).base + img.size none then (s, .error (failAt cAddrRange hbmEnd))
    else if let some a := if confined s o.q then firstOutside s (opFunc s o) (auxRef o 4).base (img.size none) else none then
      (s, .error (failAt cAddrRange a))
    else
      let lines := (List.range r.batch).flatMap fun x =>
        let ls := slot x
        planRect s r w x 0 ls.length 0 r.cols fun i j => match ls[i]? with | some y => y.line.getD j 0 | none => 0
      let counts := ((auxRef o 6).base, (List.range r.batch).flatMap fun x => leBytes 4 (count x))
      let kept : ExpertMap := ⟨o.q, c.members,
        (List.range (imgRows (imgHeader s (auxRef o 7).base))).filterMap fun e =>
          let m := expertEntry s o e
          if bits m 0 6 = devId s then some (bits m 8 8, e) else none⟩
      let older := s.head.expertMaps.filter fun m => !(m.queue = o.q && m.members = c.members)
      let s := { s with head := { s.head with expertMaps := kept :: older } }
      (s, .ok ⟨s, lines ++ [counts] ++ imgWrites (auxRef o 4).base none img, 0#8, 0⟩)

/-- The sum of a token's returned lines at a column, in ascending global expert ID, each times its gate value with `gate`
(R419). -/
def combineSum (o : Op) (ls : List Routed) (j : Nat) : Nat × BitVec 8 :=
  let xs := ls.map fun x =>
    let v := plainVal o (x.line.getD j 0)
    if collGate o then sMul v (.ext (f32Val x.gate)) else (v, false)
  let t := accAddAllS 0 (xs.map (·.1))
  (t.1, t.2 ||| flagIf fInvalid (xs.any (·.2)))

/-- An output of a combine: the sum rounded once, to nearest (R250, R419). -/
def combineConv (s : State) (o : Op) (ls : List Routed) (t j : Nat) : Conv :=
  let f := outFmt o
  let w := combineSum o ls j
  let v := accVal .c64 w.1
  let k := convExt f (if f = .pat4 ∨ f = .pat8 then patVals s 0 (fPatC o) else []) .near
    (if plainOut f && f != .int32 then 1 else outScale s o f (refC o).cols 0 t j) v.1
  { k with flags := k.flags ||| w.2 ||| flagIf fInvalid v.2 }

/-- The outputs of a combine (R250, R419): a token that was routed nowhere receives zeros. -/
def combinePrepare (s : State) (c : Coll) (o : Op) : State × Except Fail Outcome :=
  let r := refC o
  let mine := routedHere s c r.cols
  match mine.find? fun x => r.rows ≤ x.token with
  | some x => (s, .error (failAt cAddrRange (r.lineAddr 0 x.token)))
  | none =>
    let t := rowTable 1 r.rows fun _ t =>
      let ls := sortBy (·.expert) (mine.filter fun x => x.token = t)
      (List.range r.cols).map (combineConv s o ls t)
    (s, .ok (outcomeOf s o t))

/-! ### The three phases (R416, R418, R420) -/

/-- The collective's own work once every contribution is there. -/
def prepare (s : State) (c : Coll) (o : Op) : State × Except Fail Outcome :=
  if c.kind = 0x42 then arPrepare s c o
  else if c.kind = 0x43 then (if collBit o then combinePrepare s c o else dispatchPrepare s c o)
  else (s, .ok ⟨s, [], 0#8, 0⟩)

/-- Whether a list holds every member. -/
def allIn (c : Coll) (ds : List Nat) : Bool := (membersOf c.members).all ds.contains

/-- A member commits (R416): its staged results are written, and it reports that it is done. -/
def commitColl (s : State) (c : Coll) : State :=
  let c := { c with stage := 2 }
  match findOp s c.q c.tag with
  | none => s
  | some o =>
    match stagedWrites (putColl s c) c o with
    | (s', f, .error e) => refuseColl s' { c with flags := c.flags ||| f } e
    | (s', f, .ok ws) =>
      let c := { c with flags := c.flags ||| f }
      match writeAll s' ws with
      | (s', _, some e) => refuseColl s' c e
      | (s', f, none) =>
        let c := { c with flags := c.flags ||| f, done := devId s :: c.done }
        collCast (putColl s' c) c .done

/-- A collective ends without error on this member. -/
def endColl (s : State) (c : Coll) : State :=
  match findOp s c.q c.tag with
  | some o => endOk (updAmax (dropColl s c) c.q c.amax) o c.flags
  | none => dropColl s c

/-- Go on with a collective as far as what has arrived lets it; `n` bounds the phases. -/
def advanceColl (q tag : Nat) : Nat → State → State
  | 0, s => s
  | n + 1, s =>
    match findColl s q tag, findOp s q tag with
    | some c, some o =>
      if c.stage = 0 then
        if !allIn c ((c.contributions.filter (·.whole)).map (·.src)) then s
        else if c.kind = 0x53 then endColl s c
        else
          match prepare s c o with
          | (s', .error e) => refuseColl s' c e
          | (s', .ok x) =>
            let mine := leader c = devId s
            let c := { c with
              stage := 1, writes := x.writes, flags := x.flags, amax := x.amax
              staged := if mine then devId s :: c.staged else c.staged }
            let s' := putColl s' c
            let s' := if mine then s' else collSend s' c (leader c) .staged
            advanceColl q tag n s'
      else if c.stage = 1 then
        if leader c = devId s && allIn c c.staged then advanceColl q tag n (commitColl (collCast s c .commit) c) else s
      else if allIn c c.done then endColl s c
      else s
    | _, _ => s

/-- A COLL packet reaches its collective. -/
def collTake (s : State) (c : Coll) (m : CollMsg) : State :=
  if c.kind ≠ m.kind || c.members ≠ m.members || c.count ≠ m.count then refuseColl s c (failPlain cRemoteError)
  else
    match m.body with
    | .contribution sm total off bs =>
      let c' := { c with contributions := takePart c.contributions m.src sm total off bs }
      if sm = c.summary then putColl s c'
      else if c.kind = 0x53 then s
      else refuseColl s c (failPlain cRemoteError)
    | .staged => putColl s { c with staged := m.src :: c.staged }
    | .commit => if c.stage = 1 then commitColl s c else s
    | .done => putColl s { c with done := m.src :: c.done }
    | .failed code addr =>
      failColl s c (if code = cLinkDown then collUndelivered s c
        else { code := code, addr := addr.getD 0, kind := if addr.isSome then 3 else 0, remote := m.src }) none

/-- The collective a COLL packet belongs to, if this member has started it. -/
def collFor (s : State) (m : CollMsg) : Option Coll :=
  s.fab.colls.find? fun c => c.q = m.queue && c.ords.contains (m.src, m.ord)

/-- Whether a collective that this member has accepted and not begun takes a message (R413). -/
def awaited (s : State) (m : CollMsg) : Bool :=
  s.head.ops.any fun o => (o.phase == .accepted || o.phase == .started) && o.q == m.queue
    && o.place.any fun p => p.ords.contains (m.src, m.ord)

/-- Deliver a COLL packet: to its collective, to wait for it, or nowhere when the collective has ended (R413). -/
def collDeliver (s : State) (m : CollMsg) : State :=
  match collFor s m with
  | some c => advanceColl c.q c.tag 4 (collTake s c m)
  | none =>
    if m.ord < issuedWith s m.queue m.src && !awaited s m then s
    else setFab s { s.fab with collInbox := s.fab.collInbox ++ [m] }

/-- What an arriving part of a contribution costs of the share of its queue's function, on the port of the route to its source
(R342); no other message moves data of its own. -/
def collCost (p : Packet) : Nat × Nat := if collCode p.hdr = 0 then (1, 64 + 64 * cdiv p.data.length 64) else (1, 0)

/-- A COLL packet arrives (R384, R385, R395, R413 to R420); it waits by handshake for its share (R342). -/
def execCollPacket (p : Packet) (s : State) : Out :=
  arrive kColl p s fun s => again p s fun s =>
    let m := readColl p
    let f := queueFunc s m.queue
    let port := (routeTo s m.src).getD 0
    if !shareLets s f port (collCost p) then notNow
    else .next (pump (respond (collDeliver (charge s f port (collCost p)) m) (hSrc p.hdr) (hTxn p.hdr) 0 0))

/-- What a collective logs when the die bridge cuts off a member (R18): its first local address, or for a barrier, which has
none, what `eastCut` says. -/
def collCut (s : State) (c : Coll) : Fail := if c.kind = 0x53 then eastCut else failAt cDomainOff (collLocal s c)

/-- Take up the collective's packets that came before this member started it. -/
def takeInbox (s : State) : State :=
  s.fab.collInbox.foldl collDeliver (setFab s { s.fab with collInbox := [] })

/-- Send this member's contribution to the others and go on. -/
def contribute (s : State) (c : Coll) (bs : List Byte) : State :=
  let c' := { c with contributions := [⟨devId s, c.summary, bs.length, [(0, bs)]⟩] }
  let s := (collParts c.summary bs).foldl (fun s b => collCast s c b) s
  advanceColl c.q c.tag 4 (takeInbox (putColl s c'))

/-- A member starts a collective: it sends its contribution and takes what has come before (R413, R416). -/
def startColl (s : State) (o : Op) (kind members : Nat) (summary : List Nat) (reads : List (Nat × Nat))
    (own : State → Except Fail (List Byte)) : State :=
  let me := devId s
  let at_ := o.place.getD ⟨members, 0, []⟩
  let c : Coll := {
    q := o.q, tag := o.tag, kind := kind, members := members, count := at_.count, stage := 0
    summary := summary, contributions := [], staged := [], done := [], ords := at_.ords
    writes := [], flags := 0#8, amax := 0 }
  let s := putOp s { o with phase := .waiting }
  let s := setFab s { s.fab with colls := s.fab.colls ++ [c] }
  let others := (membersOf members).filter fun d => d ≠ me
  if others.any fun d => (routeTo s d).isNone then failColl s c (collUndelivered s c) (some (.failed cLinkDown none))
  else if others.any (routeCut s) then refuseColl s c (collCut s c)
  else
    match readAll s reads with
    | (s', f, some e) => refuseColl s' { c with flags := f } e
    | (s', f, none) =>
      match own s' with
      | .error e => refuseColl s' { c with flags := f } e
      | .ok bs => contribute (addOpFlags s' o.q o.tag f) c bs

/-- The row of a collective. -/
def runColl (code : Nat) (want : Op → Bool) (go : State → Op → State) (r : OpRef) (s : State) : Out :=
  match findOp s r.q r.tag with
  | some o => if o.phase = .started && opCode o = code && want o && !s.fab.routesDue then .next (pump (go s o)) else notNow
  | none => notNow

def goAllreduce (s : State) (o : Op) : State :=
  startColl s o 0x42 (collMembers o) (arSummary o)
    (refRanges (refA o) (arWidth o) ++ epiRanges o (outFmt o) (wholePlan (refC o)))
    fun s => .ok (arBytes s o)

/-- `FE.ALLREDUCE` (R415, R416). -/
def execFeAllreduce (r : OpRef) (s : State) : Out := runColl 0x42 (fun _ => true) goAllreduce r s

def atSummary (o : Op) : List Nat := [b2n (collBit o), (refA o).code, (refA o).cols]

def goDispatch (s : State) (o : Op) : State :=
  let base := (auxRef o 7).base
  startColl s o 0x43 (collMembers o) (atSummary o)
    (refRanges (refA o) (fmtBits (refA o).fmt) ++ refRanges (auxRef o 3) 32 ++ imgAll s base)
    fun s => (dispatchLines s o).map fun ls => ls.flatMap Routed.bytes

/-- `FE.ALLTOALL`, dispatch form (R249, R418). -/
def execAlltoallDispatch (r : OpRef) (s : State) : Out := runColl 0x43 (fun o => !collBit o) goDispatch r s

def goCombine (s : State) (o : Op) : State :=
  let base := (auxRef o 4).base
  startColl s o 0x43 (collMembers o) (atSummary o)
    (refRanges (refA o) (fmtBits (refA o).fmt) ++ refRanges (auxRef o 6) 32 ++ imgAll s base
      ++ (if outScaled o (outFmt o) then scaleRanges o 2 .bf16 (auxRef o 2) 1 (refC o).rows (refC o).cols (gOf o) else []))
    fun s => (combineLines s o).map fun ls => ls.flatMap Routed.bytes

/-- `FE.ALLTOALL`, combine form (R250, R419). -/
def execAlltoallCombine (r : OpRef) (s : State) : Out := runColl 0x43 (fun o => collBit o) goCombine r s

def goBarrier (s : State) (o : Op) : State := startColl s o 0x53 (barMembers o) [barNumber o] [] fun _ => .ok []

/-- `SY.POD_BARRIER` (R371, R420). -/
def execSyPodBarrier (r : OpRef) (s : State) : Out := runColl 0x53 (fun _ => true) goBarrier r s

/-! ### SY.WAIT, SY.SIGNAL and SY.FENCE (R318, R321) -/

/-- The body of a command that does nothing but end. -/
def onlyEnds (s : State) (_ : Op) (_ : HostReply) : Res := ⟨s, 0#8, none⟩

/-- `SY.WAIT`: its waits held at its start (R318). -/
def execSyWait (r : OpRef) (s : State) : Out := runBody 0x50 onlyEnds r s

/-- `SY.SIGNAL` applies its signal entries (R321). -/
def execSySignal (r : OpRef) (s : State) : Out :=
  match findOp s r.q r.tag with
  | some o =>
    if o.phase = .started && opCode o = 0x51 then .next (endOk (applySignals s o) { o with signalled := true } 0#8)
    else notNow
  | none => notNow

/-- `SY.FENCE`: every earlier packet of its queue has completed (R318). -/
def execSyFence (r : OpRef) (s : State) : Out := runBody 0x52 onlyEnds r s

end Sys2Proof.Machine
end

