-- ==== Sys2Proof/Machine/Firm.lean ====
section
/-!
DEFINITION. Keep registers (R530 to R537, R378, R559) and firmware: images and the cutlist (R539 to R544), staging
(R545, R546), activation (R547 to R549), restore and migration (R551 to R558), confirmation (R555), recovery (R560).
-/

namespace Sys2Proof.Machine

/-- The security version of the image the device executes (R561). -/
def runSecVer (s : State) : Nat := cutSecVer s.firm.executing

/-! ### Keep registers -/

/-- The bits a register stores; reserved ones are stored as zero (R387, R531, R532). -/
def keepMask (i : Nat) : BitVec 32 :=
  match i with
  | 3 => 0x33F#32
  | 4 => 0x3F#32
  | 5 => 0xFFFF#32
  | 6 => 7#32
  | 7 => 0xFF#32
  | 8 => 0xF#32
  | _ => 0xFFFFFFFF#32

def keepWear (s : State) (i : Nat) : Nat := tget 0 s.firm.wear i

/-- A register at its endurance limit (R536). -/
def keepLocked (s : State) (i : Nat) : Bool := decide (200000 ≤ keepWear s i)

/-- `KEEP_WEAR[i]` (R536). -/
def keepWearWord (s : State) (i : Nat) : Nat :=
  keepWear s i + b2n (keepLocked s i) * 2 ^ 30 + b2n (decide (180000 ≤ keepWear s i)) * 2 ^ 31

/-- Store a value: a locked register keeps its own, and an equal value is not stored again (R536). -/
def storeKeep (s : State) (i : Nat) (v : BitVec 32) : State :=
  if keepLocked s i || keepReg s i == v then s
  else { s with firm := { s.firm with
    keep := tput 0#32 s.firm.keep i v, wear := tput 0 s.firm.wear i (keepWear s i + 1) } }

/-- A port whose `EN` bit has been set again retrains (R391). -/
def retrainPorts (s : State) (old : BitVec 32) : State :=
  (List.range 6).foldl (fun s p =>
    if bit (keepReg s 4).toNat p && !bit old.toNat p && (getPort s p).cable && pdOn s (72 + p) then startTraining s p
    else s) s

/-- A write of a keep register by software (R378, R531, R536, R559). -/
def keepWrite (s : State) (i : Nat) (v : BitVec 32) : Except Fail State :=
  let v := v &&& keepMask i
  if i = 0 || (9 ≤ i && i ≤ 15) then .error (failAt cBadDescriptor (keepAddr i))
  else if i = 1 && v ≠ keepReg s 1 && (v.toNat < (keepReg s 1).toNat || runSecVer s < v.toNat) then
    .error (failAt cBadDescriptor (keepAddr i))
  else if keepLocked s i then .error (failAt cKeepWorn (keepAddr i))
  else
    let t := storeKeep s i v
    .ok (if i = 4 then retrainPorts t (keepReg s 4) else t)

/-! ### The journal (R550) -/

def setFirm (s : State) (f : Firm) : State := { s with firm := f }

def phaseCode (p : JPhase) : Nat :=
  match p with
  | .idle => 0 | .copying => 1 | .copied => 2 | .writing => 3 | .verified => 4 | .committed => 5 | .pending => 6 | .restoring => 7

/-- Bits 479:0 of a record (R550). -/
def recordWord (j : Journal) : Nat :=
  j.seq.toNat + phaseCode j.phase * 2 ^ 32 + j.comp.toNat * 2 ^ 35 + b2n j.rolled * 2 ^ 38 + b2n j.wdog * 2 ^ 39
    + b2n j.rbValid * 2 ^ 40 + j.stBase.toNat * 2 ^ 64

/-- The CRC-32C of a record, and whether a record's matches. -/
def recordCrc (j : Journal) : BitVec 32 := BitVec.ofNat 32 (crc32c (leBytes 60 (recordWord j)))
def JRecord.whole (r : JRecord) : Bool := r.crc == recordCrc r.j

/-- The record with the highest SEQ whose CRC matches, of an empty ring an IDLE one with no rollback image (R550). -/
def newest (ring : List JRecord) : Journal :=
  (ring.filter JRecord.whole).foldl (fun j r => if j.seq < r.j.seq then r.j else j) Journal.reset

def journal (s : State) : Journal := newest s.firm.ring

/-- Put a record at the head of the ring, which holds a number of them that the spec does not state (R550). -/
def pushRecord (s : State) (r : JRecord) : State :=
  setFirm s { s.firm with ring := (r :: s.firm.ring).take (Config.journalRecords + 2) }

/-- The record that follows the newest one. -/
def nextRecord (s : State) (f : Journal → Journal) : Journal := let j := journal s; f { j with seq := j.seq + 1#32 }

/-- Write a journal record, one higher than the last (R550). -/
def writeRecord (s : State) (f : Journal → Journal) : State := pushRecord s ⟨nextRecord s f, recordCrc (nextRecord s f)⟩

/-- A record of a phase. -/
def enterPhase (s : State) (p : JPhase) : State := writeRecord s fun j => { j with phase := p }

/-- What a power loss leaves of a record that was being written: one whose CRC fails (R550). -/
def tearRecord (s : State) : State :=
  if s.firm.activating.isNone then s
  else pushRecord s ⟨nextRecord s id, ~~~(recordCrc (nextRecord s id))⟩

/-! ### Staging (R545, R546, R560) -/

def fwIdle (s : State) : Bool := (journal s).phase == .idle

def stagedBlock (s : State) (i : Nat) : Option (Nat × List Byte × Nat × Nat) := s.firm.staged.find? fun b => b.1 = i

/-- The image of the blocks staged so far, its header in block 0. -/
def stagedHead (s : State) : Image :=
  match stagedBlock s 0 with | some b => .blocks [b.2.1] | none => .blocks []

def stagedCount (s : State) : Nat := match stagedBlock s 0 with | some _ => cutBlocks (stagedHead s) | none => 0

/-- The header checks of a block 0 (R545). -/
def headOk (x : Image) : Bool :=
  cutField x 0 32 == 0x54554353 && cutField x 32 16 == 1 && cutField x 48 16 == 6 && cutField x 576 32 == 832
    && decide (1 ≤ cutBlocks x) && decide (cutBlocks x ≤ 512)

/-- Stage one block from a source address of a kind (R545, R546); none: refused. -/
def stageBlock (s : State) (block : Nat) (data : List Byte) (src kind : Nat) : Option State :=
  let crc := leNat (data.drop 65532)
  if !fwIdle s || crc32c (data.take 65532) ≠ crc then none
  else if block = 0 then
    if headOk (.blocks [data]) then some { s with firm := { s.firm with staged := [(0, data, src, kind)] } } else none
  else if (stagedBlock s 0).isNone || stagedCount s ≤ block then none
  else some { s with firm := { s.firm with
    staged := (s.firm.staged.filter fun b => b.1 ≠ block) ++ [(block, data, src, kind)] } }

/-! ### Activation (R547 to R549) -/

def rejected : Fail := failPlain cFwRejected

/-- The refusal for data in staged block `b`. -/
def rejectedAt (s : State) (b : Nat) : Fail :=
  match stagedBlock s b with
  | some x => { code := cFwRejected, addr := x.2.2.1, kind := x.2.2.2 }
  | none => rejected

/-- The staged image, when every block is there. -/
def stagedImage (s : State) : Option Image :=
  let n := stagedCount s
  let bs := (List.range n).filterMap fun i => (stagedBlock s i).map (·.2.1)
  if n = 0 || bs.length ≠ n then none else some (.blocks bs)

/-- The checks of an activation, in order (R547). -/
def activateCheck (s : State) : Except Fail Image :=
  if !fwIdle s || s.glob.fwPending then .error rejected
  else
    match stagedImage s with
    | none => .error rejected
    | some x =>
      if !signaturesOk x || cutSecVer x < (keepReg s 1).toNat || cutLayout x < bits (keepReg s 0).toNat 0 16
        || cutFleet x ≠ Config.fleetId.toNat then .error (rejectedAt s 0)
      else
        match contentKey x with
        | none => .error (rejectedAt s 0)
        | some k =>
          match (List.range 6).find? fun i => !compOk x k i with
          | some i => .error (rejectedAt s (compField x i 64 48 / 65532))
          | none => .ok x

/-- Restore the registers of the shadow (R558). -/
def restoreKeeps (s : State) : State :=
  match s.firm.shadow with
  | none => s
  | some vs => { (vs.foldl (fun s p => storeKeep s p.1 p.2) s) with firm :=
      { (vs.foldl (fun s p => storeKeep s p.1 p.2) s).firm with shadow := none, migrationWorn := none } }

/-- A restore (R552): a RESTORING record; the rollback image in the running slot, read back and verified; then an IDLE record
with ROLLED, and the keep registers. One that does not verify leaves the phase RESTORING. -/
def restoreImage (s : State) (wdog : Bool) : State :=
  let s := writeRecord s fun j => { j with phase := .restoring, wdog := wdog }
  let s := setFirm s { s.firm with running := s.firm.rollback, watchdog := none }
  let s := { s with glob := { s.glob with fwPending := false } }
  if imageOk s.firm.running then
    let s := restoreKeeps (writeRecord s fun j => { j with phase := .idle, rolled := true })
    { s with glob := { s.glob with rolledBack := true } }
  else s

/-- The running slot is read back (R548 event 5): it verifies, or the activation ends as a reset in WRITING does. -/
def readBackRow (s : State) (readBack : Bool) : State × Option Fail :=
  if readBack then (enterPhase s .verified, none) else (restoreImage s false, some rejected)

/-- The activation is committed (R548 event 6): the staged blocks are discarded. -/
def commitRow (s : State) : State :=
  let s := enterPhase s .committed
  setFirm s { s.firm with staged := [] }

/-- The next event of an activation (R547, R548): the state, and how it ends, when it does. -/
def activateStep (s : State) (readBack : Bool) : State × Option (Option Fail) :=
  match (journal s).phase, stagedImage s with
  | .copying, some _ =>
    let s := setFirm s { s.firm with rollback := s.firm.running }
    (writeRecord s fun j => { j with phase := .copied, rbValid := true }, none)
  | .copied, some x =>
    let s := writeRecord s fun j => { j with phase := .writing, comp := 0#3 }
    (setFirm s { s.firm with running := x }, none)
  | .writing, some _ =>
    if (journal s).comp < 5#3 then (writeRecord s fun j => { j with comp := j.comp + 1#3 }, none)
    else
      match readBackRow s readBack with
      | (t, some e) => (t, some (some e))
      | (t, none) => (t, none)
  | .verified, some _ => (commitRow s, some none)
  | _, _ =>
    match activateCheck s with
    | .error e => (s, some (some e))
    | .ok _ => (enterPhase s .copying, none)

/-- An activation in recovery writes the image into both regions (R560): the answer's code. -/
def activateBoth (s : State) (readBack : Bool) : State × Option Fail :=
  match activateCheck s with
  | .error e => (s, some e)
  | .ok x =>
    let s := writeRecord s fun j => { j with phase := .writing, comp := 0#3, rbValid := true }
    match readBackRow (setFirm s { s.firm with running := x, rollback := x }) readBack with
    | (t, some e) => (t, some e)
    | (t, none) => (commitRow t, none)

/-- `MG.FW_CONFIRM` (R555, R557, R559); a register that a migration found worn is named by its address (R332). -/
def confirmBody (s : State) : State × Option Fail :=
  if !s.glob.fwPending then (s, none)
  else if !s.glob.selftestDone || (journal s).stBase.toNat < s.glob.stFenced.toNat then (s, some rejected)
  else
    match s.firm.migrationWorn with
    | some i => (s, some (failAt cKeepWorn (keepAddr i)))
    | none =>
      if (keepReg s 1).toNat < runSecVer s && keepLocked s 1 then (s, some (failAt cKeepWorn (keepAddr 1)))
      else
        let s := if (keepReg s 1).toNat < runSecVer s then storeKeep s 1 (BitVec.ofNat 32 (runSecVer s)) else s
        let s := writeRecord s fun j => { j with phase := .idle, stBase := s.glob.stFenced.setWidth 32 }
        let s := setFirm s { s.firm with shadow := none, watchdog := none }
        ({ s with glob := { s.glob with fwPending := false } }, none)

/-! ### The loader at a start (R551, R553, R554, R557) -/

/-- The indices a layout gives but for the anti-rollback version: the layout version and 2 to 15 (R557). -/
def layoutKeeps : List Nat := 0 :: (List.range 14).map (· + 2)

/-- Store the values that a new layout gives: index 0 its version, those of 2 to 15, which the layout gives, free (DESIGN
CHOICE, log 6). -/
def storeLayout (s : State) (new : Nat) : State :=
  storeKeep (((List.range 14).map (· + 2)).foldl
    (fun t i => storeKeep t i (BitVec.ofNat 32 (Config.freeNat (s.freeIdx + i)))) s) 0 (BitVec.ofNat 32 new)

/-- Keep the values of `old` in the shadow, and note whether one of their registers was worn (R557). -/
def takeShadow (old s : State) : State :=
  { s with
    firm := { s.firm with
      shadow := some (layoutKeeps.map fun i => (i, keepReg old i)), migrationWorn := layoutKeeps.find? (keepLocked old) }
    freeIdx := old.freeIdx + 16 }

/-- Migrate the keep registers at an image's first start (R557). -/
def migrate (s : State) : State :=
  let new := cutLayout s.firm.running
  if new ≤ bits (keepReg s 0).toNat 0 16 then s else takeShadow s (storeLayout s new)

/-- A committed image's first start: PENDING, and the watchdog (R551, R554). -/
def firstStart (s : State) : State :=
  let s := writeRecord s fun j => { j with phase := .pending, rolled := false }
  let s := setFirm s { s.firm with watchdog := some (s.glob.timestamp + 60000000000#64) }
  { s with glob := { s.glob with fwPending := true } }

/-- Act on the journal's phase (R551). -/
def actOnPhase (s : State) (awaited : Bool) : State :=
  match (journal s).phase with
  | .idle => if awaited then { s with glob := { s.glob with rolledBack := true } } else s
  | .copying => writeRecord s fun j => { j with phase := .idle, rbValid := false }
  | .copied => enterPhase s .idle
  | .writing | .pending => restoreImage s false
  | .restoring => restoreImage s (journal s).wdog
  | .verified => firstStart (enterPhase s .committed)
  | .committed => firstStart s

/-- The loader at a start (R551, R553, R554, R557): the journal's phase, then the images. `GSTAT.ROLLED_BACK` tells of this
start only. Recovery starts no image, so none is pending. -/
def loaderStart (s : State) : State :=
  let s := { s with glob := { s.glob with rolledBack := false, fwPending := false } }
  let awaited := s.firm.awaitingStart
  let s := setFirm s { s.firm with staged := [], awaitingStart := false, recovery := false, activating := none, stages := [] }
  let s := actOnPhase s awaited
  let s := if imageOk s.firm.running || !(journal s).rbValid then s else restoreImage s false
  let s := setFirm s { s.firm with executing := s.firm.running }
  if imageOk s.firm.running then (if s.glob.fwPending then migrate s else s)
  else
    let s := setFirm s { s.firm with recovery := true, watchdog := none }
    { s with glob := { s.glob with fwPending := false } }

/-- `ST_FENCED` of a start under a confirmed image goes into the journal as ST_BASE (R550). -/
def noteBase (s : State) : State :=
  let n := s.glob.stFenced.setWidth 32
  if s.glob.fwPending || (journal s).stBase == n then s else writeRecord s fun j => { j with stBase := n }

end Sys2Proof.Machine
end

