-- ==== Sys2Proof/Machine/Ident.lean ====
section
/-!
DEFINITION. Words that registers and `MG.QUERY` both report: identity (R571), capabilities (R572, R573), quota use and
status (R340, R344), stream records (R297), and the fence map (R373).
-/

namespace Sys2Proof.Machine

/-- What a function's configuration space reports: its vendor, device, class code and revision (R423). -/
structure ConfigIds where
  vendor : Nat
  device : Nat
  classCode : Nat
  revision : Nat
  deriving DecidableEq, Repr

def configIds (fn : Nat) : ConfigIds := ⟨Config.vendorId.toNat, if fn = 0 then 0x8192 else 0x8193, 0x120000, Config.stepping.toNat⟩

/-- Identity word `k` (R571): ID_PCI, ID_PART0, ID_PART1, ID_SERIAL, ID_MFG, ID_IF, and two reserved words. -/
def identWord (k : Nat) : BitVec 64 :=
  match k with
  | 0 => BitVec.ofNat 64 ((configIds 0).vendor + (configIds 0).device * 2 ^ 16 + (configIds 1).device * 2 ^ 32 + (configIds 0).revision * 2 ^ 48)
  | 1 => 0x2D323931382D4A48#64
  | 2 => 0x514C#64
  | 3 => Config.serial
  | 4 => Config.mfg
  | 5 => 1#64
  | _ => 0#64

/-- Unfenced spindles in unfenced lathes, and unfenced lathes (R572). -/
def spindlesUpAll (s : State) : Nat := (List.range 128).foldl (fun n l => n + (spindlesUp s l).length) 0
def lathesUpAll (s : State) : Nat := ((List.range 128).filter fun l => !latheFenced s l).length

/-- Capability word `k` (R572): CAP_BENCH_ROWS to CAP_FENCE, and the reserved word at 0x78. -/
def capWord (s : State) (k : Nat) : BitVec 64 :=
  match k with
  | 0 => BitVec.ofNat 64 (0x1000 + 0x10 * 2 ^ 13 + 0x200 * 2 ^ 32)
  | 1 => BitVec.ofNat 64 (0x80 + 0x40 * 2 ^ 8 + 0x40 * 2 ^ 16 + 0x10 * 2 ^ 24 + 0x2000 * 2 ^ 32 + 0x1000 * 2 ^ 46)
  | 2 => BitVec.ofNat 64 (0x100 + 0x400 * 2 ^ 9 + 0x6 * 2 ^ 20 + 0x80 * 2 ^ 32 + 0x100 * 2 ^ 40 + 0x40 * 2 ^ 49
      + 0x40 * 2 ^ 56)
  | 3 => BitVec.ofNat 64 (0x8 + 0x30 * 2 ^ 4 + 0x1F40 * 2 ^ 32)
  | 4 => BitVec.ofNat 64 (0x7FFFF + 0x1F * 2 ^ 32 + 0x7 * 2 ^ 40 + 0x7 * 2 ^ 43)
  | 5 => BitVec.ofNat 64 (0xBE + 0x1C2 * 2 ^ 16 + 0x1C2 * 2 ^ 32 + 0x320 * 2 ^ 42)
  | 6 => BitVec.ofNat 64 (spindlesUpAll s + lathesUpAll s * 2 ^ 14)
  | _ => 0#64

/-- `CAP_SPINDLES[j]` (R572). -/
def capSpindles (s : State) (j : Nat) : BitVec 64 :=
  BitVec.ofNat 64 ((List.range 8).foldl (fun n i => n + (spindlesUp s (8 * j + i)).length * 2 ^ (8 * i)) 0)

/-! ### Quota use (R340) -/

def sumSizes (rs : List Reservation) : Nat := rs.foldl (fun n r => n + r.size) 0

/-- Reservations counted against a key: queue `key`, or function `key - 64`. -/
def reservedBy (s : State) (bench : Bool) (key : Nat) : List Reservation :=
  s.head.reservations.filter fun r => r.bench == bench && (if key < 64 then r.queue == key else r.func == key - 64)

/-- Bench rows reserved. -/
def benchUse (s : State) (key : Nat) : Nat := sumSizes (reservedBy s true key)

/-- HBM reserved, in units of 2 MiB. -/
def hbmUse (s : State) (key : Nat) : Nat := sumSizes (reservedBy s false key) / 0x20_0000

/-- Operations in flight of a key. -/
def inFlightKey (s : State) (key : Nat) : Nat := if key < 64 then inFlightQ s key else inFlightF s (key - 64)

/-- `QUOTA_STATUS` and `QUOTA_STATUS_VF` (R344). -/
def quotaStatus (s : State) (key : Nat) : BitVec 64 :=
  let l := getLimits s key
  BitVec.ofNat 64 (b2n (l.bench < benchUse s key) + b2n (l.hbm < hbmUse s key) * 2
    + b2n (l.tags < inFlightKey s key) * 4 + (inFlightKey s key % 2 ^ 14) * 2 ^ 16 + (benchUse s key % 2 ^ 13) * 2 ^ 32)

/-- A stream's record (R297). -/
def streamRecord (v : Stream) : Nat :=
  v.epoch.toNat + v.owner.toNat * 2 ^ 64 + b2n v.bound * 2 ^ 70 + b2n v.share * 2 ^ 71 + v.nextCi.toNat * 2 ^ 72

/-- A bit map of the listed numbers below `8 * n`, as bytes. -/
def bitMap (n : Nat) (is : List Nat) : List Byte :=
  (List.range n).map fun i => BitVec.ofNat 8 ((List.range 8).foldl (fun w j => w + b2n (is.contains (8 * i + j)) * 2 ^ j) 0)

/-- The fence map (R373, R506): a set bit is a fenced unit. -/
def fenceMap (s : State) : List Byte := bitMap 1024 s.dies.fencedSpindles ++ bitMap 16 s.dies.fencedLathes

end Sys2Proof.Machine
end

