-- ==== Sys2Proof/Machine/Fence.lean ====
section
/-!
DEFINITION. The fence map and self-test (R503 to R507, R526).
-/

namespace Sys2Proof.Machine

/-! ### Work on a unit (R504) -/

/-- The lathes a VE command's lines are dealt to. -/
def veLathes (s : State) (o : Op) : List Nat := (usedLathes s o).take (veRef o false).allLines

/-- Whether a queue has an open set on a spindle. -/
def opensOn (s : State) (q i : Nat) : Bool :=
  match (getSpindle s i).opened with
  | some w => w.q == q
  | none => false

/-- Whether an operation has work on spindle `i` (R504): a kerf-mapped layer works on every lathe of its part. -/
def worksOnSpindle (s : State) (o : Op) (i : Nat) : Bool :=
  let named := (namedLathes o).contains (i / 64)
  match opCode o with
  | 0x15 | 0x17 => named && opensOn s o.q i
  | 0x16 => named
  | c =>
    if c / 16 = 1 then
      named && (!o.resident || (placedSpindles (placement s o (planOf s o))).contains i)
    else false

/-- Whether an operation has work on lathe `l` (R504). -/
def worksOnLathe (s : State) (o : Op) (l : Nat) : Bool :=
  if opCode o / 16 = 2 then (veLathes s o).contains l
  else (List.range 64).any fun i => worksOnSpindle s o (64 * l + i)

/-! ### Fencing -/

/-- Note that the queue of a spindle's open set loses it (R120). -/
def markLost (s : State) (i : Nat) : State :=
  let sp := (getSpindle s i).rewind
  match sp.opened with
  | some w => { s with dies := { s.dies with lost := s.dies.lost ++ [⟨i, w.q, sp.tiles⟩] } }
  | none => s

/-- Lose a spindle's open set (R120, R504). -/
def loseSpindle (s : State) (i : Nat) : State :=
  let s := markLost s i
  setSpindle s i (dropOpen (getSpindle s i))

/-- What an automatic fence reports (R503); the entry's code, which the spec does not state, is that of a failed
self-test (DEDUCED, log 38). -/
def autoReport (s : State) (l : Nat) : State :=
  setDevEvent (vlogAdd s { addr := latheBase l, kind := 1, code := cResidue, source := 5 }) eFenced

/-- Fence a lathe (R504, R505). -/
def fenceLathe (s : State) (l : Nat) (auto : Bool) : State :=
  if latheFenced s l then s
  else
    let t := { s with dies := { s.dies with fencedLathes := s.dies.fencedLathes ++ [l] } }
    let t := if auto then autoReport t l else t
    let hit := s.head.ops.filter fun o => o.phase != .ended && worksOnLathe s (peeked s o (.data [])) l
    let t := (List.range 64).foldl (fun t i => loseSpindle t (64 * l + i)) t
    abortOps t fun o => hit.any fun p => p.q == o.q && p.tag == o.tag

/-- Fence a spindle; a lathe whose every spindle is fenced is fenced with it (R503, R504). -/
def fenceSpindle (s : State) (i : Nat) (auto : Bool) : State :=
  if s.dies.fencedSpindles.contains i then s
  else
    let t := { s with dies := { s.dies with fencedSpindles := s.dies.fencedSpindles ++ [i] } }
    let t := if auto then autoReport t (i / 64) else t
    let hit := s.head.ops.filter fun o => o.phase != .ended && worksOnSpindle s (peeked s o (.data [])) i
    let t := abortOps (loseSpindle t i) fun o => hit.any fun p => p.q == o.q && p.tag == o.tag
    if spindlesUp t (i / 64) = [] then fenceLathe t (i / 64) true else t

/-! ### Self-test (R526) -/

/-- Upsets that the overwriting of a lathe's bench removes. -/
def notBenchOf (l : Nat) (x : Upset) : Bool :=
  match x with
  | .bench r _ => !(latheBase l ≤ r && r < latheBase (l + 1))
  | _ => true

/-- Zero a lathe's bench (R526). -/
def zeroBench (s : State) (l : Nat) : State :=
  { s with mems := { s.mems with
    dev := memClear s.mems.dev (latheBase l) (latheBase (l + 1))
    poison := s.mems.poison.filter fun u => !(latheBase l ≤ u && u < latheBase (l + 1))
    upsets := s.mems.upsets.filter (notBenchOf l) } }

/-- A spindle whose stores are zero and whose sets are free; what R503 remembers of its failures stays. -/
def Spindle.clean (x : Spindle) : Spindle := { Spindle.idle with firstResidue := x.firstResidue, firstAccErr := x.firstAccErr }

/-- Zero every bench and free every accumulator set; match units and tailstocks are overwritten too (R526). -/
def zeroAll (s : State) : State :=
  { s with
    mems := { s.mems with
      dev := memClear s.mems.dev benchBase benchEnd
      poison := s.mems.poison.filter isHbm
      upsets := s.mems.upsets.filter fun x => match x with | .hbm _ _ | .core _ _ | .pattern _ _ | .region _ _ => true | _ => false }
    dies := { s.dies with
      lost := []
      tails := []
      matches_ := []
      spindles := (s.dies.spindles.map fun e => (e.1, e.2.clean)).filter fun e => e.2 != Spindle.idle } }

/-- Self-test: units that fail are fenced and counted (R503, R525, R526). -/
def selfTest (s : State) (st : StartIn) : State :=
  let s := zeroAll s
  let before := s.dies.fencedSpindles.length + s.dies.fencedLathes.length
  let sp := st.badSpindles.filter fun i => !spindleFenced s i
  let s := sp.foldl (fun s i => fenceSpindle s i true) s
  let s := st.badLathes.foldl (fun s l => fenceLathe s l true) s
  let n := s.dies.fencedSpindles.length + s.dies.fencedLathes.length - before
  { s with glob := { s.glob with stFenced := BitVec.ofNat 8 (min 255 n) } }

/-! ### MG.FENCE_UNIT (R372, R379, R504, R507) -/

/-- Whether a `MG.FENCE_UNIT` fences, and whether it names a lathe. -/
def isFence (o : Op) : Bool := decide (fuOp o < 2)
def onLathe (o : Op) : Bool := decide (fuOp o % 2 = 1)

def fenceBody (s : State) (o : Op) (_ : HostReply) : Res :=
  ⟨if onLathe o then fenceLathe s (fuLathe o) false else fenceSpindle s (fuUnit o) false, 0#8, none⟩

/-- Return a unit to service: its self-test has left its stores zero (R507, R526, DEDUCED, log 39). -/
def unfence (s : State) (lathe : Bool) (u : Nat) : State :=
  if lathe then
    let t := zeroBench { s with dies := { s.dies with fencedLathes := s.dies.fencedLathes.filter (· ≠ u) } } u
    if spindlesUp t u = [] then fenceLathe t u true else t
  else
    let t := setSpindle { s with dies := { s.dies with fencedSpindles := s.dies.fencedSpindles.filter (· ≠ u) } } u
      (getSpindle s u).clean
    setUpsets t (t.mems.upsets.filter fun x => match x with | .acc i _ _ _ => i != u | _ => true)

/-- An unfence (R507): a unit in service that fails its self-test is fenced by R503. Its domain must be ON, for a unit of
the east half the die bridge's too (R18, R474). -/
def unfenceBody (pass : Bool) (s : State) (o : Op) (_ : HostReply) : Res :=
  let u := fuUnit o
  let fenced := if onLathe o then latheFenced s u else s.dies.fencedSpindles.contains u
  let l := if onLathe o then u else u / 64
  if !latheUp s l then ⟨s, 0#8, some (failAt cDomainOff (latheBase l))⟩
  else if !pass then
    let s := if fenced then s else if onLathe o then fenceLathe s u true else fenceSpindle s u true
    ⟨s, 0#8, some (failAt cResidue (latheBase l))⟩
  else if fenced then ⟨unfence s (onLathe o) u, 0#8, none⟩
  else ⟨s, 0#8, none⟩

/-- The row of a fence or an unfence. -/
def runFence (fence : Bool) (body : State → Op → HostReply → Res) (r : OpRef) (s : State) : Out :=
  match findOp s r.q r.tag with
  | some o => if isFence o = fence then runBody 0x6B body r s else notNow
  | none => notNow

/-- `MG.FENCE_UNIT`, fence (R379, R504). -/
def execFenceUnit (r : OpRef) (s : State) : Out := runFence true fenceBody r s

/-- `MG.FENCE_UNIT`, unfence (R507). -/
def execUnfenceUnit (r : OpRef) (pass : Bool) (s : State) : Out := runFence false (unfenceBody pass) r s

end Sys2Proof.Machine
end

