-- ==== Sys2Proof/Machine/Array.lean ====
section
/-!
DEFINITION. The array: Matrix Engine commands with what their accumulator reads may find (R488, R489, R503), and the
spindle's own steps: digits, chucks, rescales and drains (R70 to R91, R95, R98, R105, R107, R122, R123, R206, R218, R234 to
R238, R255, R272, R493 to R495).
-/

namespace Sys2Proof.Machine

/-! ### Uncorrectable accumulator entries (R489, R503) -/

/-- One hour of TIMESTAMP. -/
def hour : Nat := 360000000000

/-- Whether a moment lies within the last hour. -/
def withinHour (s : State) (t : Option (BitVec 64)) : Bool :=
  match t with
  | some t => decide ((s.glob.timestamp - t).toNat ≤ hour)
  | none => false

/-- Note a spindle's residue failure; the second within one hour fences it (R503). -/
def noteResidue (s : State) (i : Nat) : State :=
  let sp := getSpindle s i
  if withinHour s sp.firstResidue then fenceSpindle s i true
  else setSpindle s i { sp with firstResidue := some s.glob.timestamp }

/-- Note a spindle's uncorrectable accumulator error, likewise. -/
def noteAccErr (s : State) (i : Nat) : State :=
  let sp := getSpindle s i
  if withinHour s sp.firstAccErr then fenceSpindle s i true
  else setSpindle s i { sp with firstAccErr := some s.glob.timestamp }

/-- The tiles of open sets that a Matrix Engine command reads, each with the offset of the slot it reads beside the tile's
own. -/
def tilesRead (s : State) (o : Op) : List (Held × Nat) :=
  match opCode o with
  | 0x10 | 0x11 | 0x12 => if fContinue o then (resolveTiles o (slivers s o (planOf s o)) (heldTiles s o)).map fun h => (h, 0) else []
  | 0x14 => (roughTiles s o).flatMap fun h => [(h, 0), (h, 2)]
  | 0x15 => ((heldTiles s o).filter fun h => bit (fSlots o) h.tile.slot).map fun h => (h, 0)
  | 0x17 => (drainTiles o (heldTiles s o)).map fun h => (h, 0)
  | _ => []

/-- The 64-bit word of a slot that an entry lies in (R107, R488). -/
def wordOf (f : AccFmt) (e : Nat) : Nat := match f with | .a16 _ => e / 4 | _ => e

/-- The words of a tile that a command reads: those of its outputs, and all of them for `MM.ACC_READ`. -/
def wordsRead (s : State) (o : Op) (h : Held) (off : Nat) : List Nat :=
  if opCode o = 0x15 then List.range (if tileRows (accFmt o) = 1 then 64 else 256)
  else
    let p := if opCode o = 0x17 then drainPlan o else planOf s o
    let f := if off = 0 then accFmt o else .c64
    ((tileOutputs o p h.tile).map fun y => wordOf f y.1).eraseDups

/-- The wrong bits of an accumulator word: `key` is 256 × slot + word. -/
def accWrong (s : State) (i key : Nat) : List Nat :=
  (s.mems.upsets.filterMap fun x => match x with | .acc j k e b => if j = i ∧ 256 * k + e = key then some b else none | _ => none).dedup

/-- The accumulator words with an error that a command meets, in the order it reads them. -/
def accMet (s : State) (o : Op) : List (Nat × Nat) :=
  if s.mems.upsets.isEmpty then []
  else (tilesRead s o).flatMap fun h =>
    let k := 256 * (4 * h.1.set + h.1.tile.slot + h.2)
    ((wordsRead s o h.1 h.2).map (k + ·)).filterMap fun w => if (accWrong s h.1.spindle w).isEmpty then none else some (h.1.spindle, w)

/-- Drop the accumulator upsets of a spindle that `p` picks by slot: what was wrong there is overwritten. -/
def dropAcc (s : State) (i : Nat) (p : Nat → Bool) : State :=
  setUpsets s (s.mems.upsets.filter fun x => match x with | .acc j k _ _ => !(j == i && p k) | _ => true)

/-- Read accumulator words: one wrong bit is corrected and counted, more fail the read, with the spindle and the word (R484,
R488, R489). -/
def guardAcc (s : State) : List (Nat × Nat) → State × BitVec 8 × Option (Nat × Nat)
  | [] => (s, 0#8, none)
  | x :: r =>
    match accWrong s x.1 x.2 with
    | [] => guardAcc s r
    | [_] =>
      let t := countCorr s false (latheBase (x.1 / 64)) 2
      let y := guardAcc (setUpsets t (t.mems.upsets.filter fun u =>
        match u with | .acc j k e _ => !(j == x.1 && 256 * k + e == x.2) | _ => true)) r
      (y.1, y.2.1 ||| fCorrected, y.2.2)
    | _ => (countUncorr s false, 0#8, some x)

/-- End a command on an uncorrectable accumulator entry: the reply and the log name it (R489; of an A16 word the first entry),
the open set that it lies in is discarded (R120), and the spindle's failure is noted (R503). -/
def accEnd (s : State) (o : Op) (flags : BitVec 8) (i key : Nat) : State :=
  let e := if tileRows (accFmt o) = 1 && !(opCode o == 0x13 || opCode o == 0x14) then 4 * (key % 256) else key % 256
  let t := endFail s o flags { failAt cEcc (latheBase (i / 64)) with detail := key / 256 % 8 + e % 256 * 8 }
  noteAccErr (if (getSpindle t i).opened.any fun w => w.set == setOfSlot (key / 256) then loseSpindle t i else t) i

/-- The sets that a spindle begins when it begins `n` (R122). -/
def setsBegun (sp : Spindle) (n : Nat) : List Nat :=
  match sp.opened with
  | some w => if n = 0 then [] else [1 - w.set]
  | none => [b2n sp.next1, 1 - b2n sp.next1].take n

/-- What was wrong in the sets that a command begins, or in the slots that it writes whole, is overwritten (R115, R125). -/
def dropBegun (s : State) (o : Op) : State :=
  if s.mems.upsets.isEmpty then s
  else
    match opCode o with
    | 0x10 | 0x11 | 0x12 | 0x13 =>
      if fContinue o && opCode o != 0x13 then s
      else
        let p := planOf s o
        let ps := placement s o p
        (placedSpindles ps).foldl (fun t i =>
          let sets := setsBegun (getSpindle s i) (setRounds (spills s o p) o p ps i)
          dropAcc t i fun k => sets.contains (setOfSlot k)) s
    | 0x16 => (accWriteSpindles s o).foldl (fun t i =>
        let set := accWriteSet (getSpindle s i)
        dropAcc t i fun k => k / 4 == set && bit (fSlots o) (k % 4)) s
    | _ => s

/-- Every spindle of a command's lathes begins its work anew: a command's own row computes it whole, whatever steps were
taken before (DESIGN CHOICE, log 42). -/
def rewindOn (s : State) (o : Op) : State :=
  let ls := usedLathes s o
  { s with dies := { s.dies with spindles :=
      (s.dies.spindles.map fun e => (e.1, if ls.contains (e.1 / 64) then e.2.rewind else e.2)).filter fun e => e.2 != Spindle.idle } }

/-- The row of a Matrix Engine command: what it asks of the open sets still holds (R116, R118), its accumulator reads are
guarded, then its body runs (R488, R489). -/
def runArray (code : Nat) (body : State → Op → HostReply → Res) (r : OpRef) (s0 : State) : Out :=
  match findOp s0 r.q r.tag with
  | none => notNow
  | some o =>
    let s := rewindOn s0 o
    let sets := if o.mCount = some 0 then .ok () else checkSets s o
    match sets with
    | .error e => if o.phase ≠ .started || opCode o ≠ code then notNow else .next (endFail s o 0#8 e)
    | .ok () =>
    if o.phase ≠ .started || opCode o ≠ code then notNow
    else
      match guardAcc (dropBegun s o) (accMet s o) with
      | (s, f, some x) => .next (accEnd s o f x.1 x.2)
      | (s, f, none) => runBody code (fun s o h => let x := body s o h; { x with flags := f ||| x.flags }) r s

/-- `MM.DENSE` (R355, R142). -/
def execMmDense (r : OpRef) (s : State) : Out := runArray 0x10 productBody r s

/-- `MM.SPARSE24` (R214 to R220). -/
def execMmSparse24 (r : OpRef) (s : State) : Out := runArray 0x11 productBody r s

/-- `MM.CSR` (R228 to R243). -/
def execMmCsr (r : OpRef) (s : State) : Out := runArray 0x12 productBody r s

/-- `MM.ROUGH` (R252 to R260). -/
def execMmRough (r : OpRef) (s : State) : Out := runArray 0x13 roughBody r s

/-- `MM.FINISH` (R261 to R266). -/
def execMmFinish (r : OpRef) (s : State) : Out := runArray 0x14 finishBody r s

/-- `MM.ACC_READ` (R124, R356). -/
def execMmAccRead (r : OpRef) (s : State) : Out := runArray 0x15 accReadBody r s

/-- `MM.ACC_WRITE` (R125, R126, R356). -/
def execMmAccWrite (r : OpRef) (s : State) : Out := runArray 0x16 accWriteBody r s

/-- `MM.DRAIN` (R119). -/
def execMmDrain (r : OpRef) (s : State) : Out := runArray 0x17 drainBody r s

/-! ### A spindle at work (DESIGN CHOICE, log 42) -/

/-- The tiles of a command's rounds on a spindle: those its open set holds, or its own placement's (R195, R206). -/
def stepSegs (s : State) (o : Op) (x : Mm) (i : Nat) : List Seg :=
  let ps := placement s o x.plan
  let here := fun (ts : List Held) => [(⟨(ts.filter fun h => h.spindle = i).map (·.tile), 0, kExtents x.plan (fBtK o), 0, true⟩ : Seg)]
  if opCode o = 0x14 then here (roughTiles s o)
  else if fContinue o && opCode o != 0x13 then here (resolveTiles o (slivers s o x.plan) (heldTiles s o))
  else productSegs (spills s o x.plan) o x.plan ps i

/-- What a spindle works on: the command, its rounds and their chucks. -/
structure Work where
  o : Op
  x : Mm
  i : Nat
  segs : List Seg
  cs : List Chuck

def Work.lathe (w : Work) : Nat := w.i / 64

/-- The running product that works on a spindle: the one it has begun, else the oldest. -/
def runningOn (s : State) (i : Nat) : Option Op :=
  let os := s.head.ops.filter fun o => o.phase == .started && 0x10 ≤ opCode o && opCode o ≤ 0x14 && worksOnSpindle s o i
  match os.find? fun o => (getSpindle s i).job.any fun j => j.q == o.q && j.tag == o.tag && j.chuck != 0 with
  | some o => some o
  | none => os.head?

def workOn (s : State) (i : Nat) : Option Work :=
  (runningOn s i).map fun o =>
    let x := mmOf s o
    -- the rounds follow the sets as they stood before the first step
    let segs := stepSegs (setSpindle s i (getSpindle s i).rewind) o x i
    ⟨o, x, i, segs, chucksOf s o x (i / 64) segs⟩

/-- A spindle's job on a command, begun when it has none. -/
def jobFor (o : Op) (sp : Spindle) : Job :=
  let fresh : Job := ⟨o.q, o.tag, 0, [], 0, 0, sp.acc, sp.tags, sp.set0, sp.set1, sp.next1, sp.opened, sp.tiles⟩
  match sp.job with
  | some j => if j.q = o.q ∧ j.tag = o.tag then (if j.chuck = 0 then { fresh with steps := j.steps, empty := j.empty } else j) else fresh
  | none => fresh

/-- The chuck at work, and its number. -/
def Work.chuck (w : Work) (j : Job) : Option Chuck := if j.chuck = 0 then none else w.cs[j.chuck - 1]?

/-- A tile's slot in its set; the tiles of a spilling group share four (R206), those of a roughing pass have places of their own
(DEDUCED, log 17). -/
def Work.place (w : Work) (t : Tile) : Nat := if opCode w.o = 0x13 ∨ opCode w.o = 0x14 then t.slot else t.slot % 4

/-- The slots that a tile takes in its set: a roughing pass's companion lies two slots on (R253). -/
def Work.slots (w : Work) (t : Tile) : List Nat := if opCode w.o = 0x13 then [w.place t, w.place t + 2] else [w.place t]

/-- The feeds of a chuck's fed vectors: a chuck that follows a key set takes its rows from the match unit (R218, R238). -/
def Work.feeds (w : Work) (s : State) (c : Chuck) : List (List RowFeed) :=
  let rows := if c.pass.isSome then matchedRows (tget MatchUnit.empty s.dies.matches_ w.lathe) c else c.rows
  let wanted := if opCode w.o = 0x14 then fedAgain s w.o (roughTiles s w.o) w.i else fun _ _ => true
  (chuckVecs w.o c).map fun v => vecFeed s w.o w.x (passOf w.o) w.lathe c rows v.1.batch v.2.2 (wanted v.1 v.2.1)

/-- The steps of every adder group over each fed vector (R78, R255). -/
def Work.steps (w : Work) (fs : List (List RowFeed)) : List (List Nat) :=
  fs.map fun f => (List.range (adderGroups w.o)).map fun g => let d := groupSteps w.o w.x.log f g; d.1 + d.2

/-- Where the adder groups stand, from a spindle's store and back. -/
def standOf (o : Op) (sp : Spindle) : Stand := (List.range (adderGroups o)).map fun g => tget (0, 0, 0) sp.pos g
def setStand (st : Stand) (sp : Spindle) : Spindle :=
  { sp with pos := st.zipIdx.foldl (fun t p => tput (0, 0, 0) t p.2 p.1) [] }

/-- The output of an entry of a tile. -/
def Work.output (w : Work) (t : Tile) (entry : Nat) : Nat × Nat :=
  let f := t.fed0 + entry / sliverCols w.o
  let h := t.held0 + entry % sliverCols w.o
  if w.x.fedB then (h, f) else (f, h)

/-- Whether an entry takes the group results of a chuck's vector: it is an output of this device, its row does not run as
chunk tiles, and a finishing pass has not skipped it (R210, R240, R263). -/
def Work.takes (w : Work) (s : State) (c : Chuck) (t : Tile) (entry : Nat) : Bool :=
  let (m, n) := w.output t entry
  let p := w.x.plan
  p.m0 ≤ m && m < p.m1 && p.n0 ≤ n && n < p.n1
    && !isChunked w.o w.x w.lathe t.batch (if w.x.fedB then n else m) c.part
    && (opCode w.o != 0x14 || (roughTiles s w.o).any fun h => h.spindle == w.i && h.tile == t && (companion s h entry).1 != cSkipped)

/-- The set that holds a round's tiles. -/
def roundSet (j : Job) (round : Nat) : Option Nat := (j.rounds.find? fun e => e.2 = round + 1).map (·.1)

/-- The registers of a finished vector move to the draining set; a roughing pass moves its bound's too (R95, R254). -/
def moveVec (s : State) (w : Work) (c : Chuck) (ci : Nat) (sp : Spindle) (v : Tile × Nat × Nat) : Spindle :=
  let cols := sliverCols w.o
  ((w.slots v.1).flatMap fun k => (List.range cols).map fun j => (256 * k, v.2.1 * cols + j)).foldl (fun sp y =>
    let key := y.1 + y.2
    { sp with
      regs := tput 0 sp.regs key 0
      resids := tput 0 sp.resids key 0
      drain := if w.takes s c v.1 y.2 then sp.drain ++ [⟨key, ci, tget 0 sp.regs key, tget 0 sp.resids key⟩] else sp.drain }) sp

/-- The vectors from `a` to `b` of a chuck are finished: after a group's last chuck their registers move on, and wait while
the draining set holds another group's (R95). -/
def finishVecs (s : State) (w : Work) (c : Chuck) (ci a b : Nat) (sp : Spindle) : Option Spindle :=
  if !c.last || b ≤ a then some sp
  else if sp.drain.any fun y => (w.cs[y.chuck]?.map (·.gno)) != some c.gno then none
  else some ((((chuckVecs w.o c).drop a).take (b - a)).foldl (moveVec s w c ci) sp)

/-- Whether a round's tiles stay in their set: a roughing pass's, and the last ones that `acc_keep` leaves (R117, R253). -/
def Work.keeps (w : Work) (round : Nat) : Bool :=
  opCode w.o == 0x13 || (opCode w.o != 0x14 && fKeep w.o && (fContinue w.o || w.segs.all fun g => g.round ≤ round))

/-- A round whose last group result has been added ends: its set goes to draining (R123, event 2). -/
def endRounds (w : Work) (j : Job) (done : Bool) (sp : Spindle) : Spindle :=
  j.rounds.foldl (fun sp e =>
    let round := e.2 - 1
    let last := w.cs.zipIdx.foldl (fun n c => if c.1.round = round then c.2 + 1 else n) 0
    let idle := (last < j.chuck || (last == j.chuck && done)) && sp.drain.all fun y => (w.cs[y.chuck]?.map (·.round)) != some round
    if idle && !w.keeps round then setSetState sp e.1 .draining else sp) sp

/-- Whether every fed vector of the chuck at work is finished. -/
def Work.spent (w : Work) (s : State) (j : Job) (sp : Spindle) : Bool :=
  match w.chuck j with
  | none => true
  | some c => let n := (chuckVecs w.o c).length; decide (n ≤ allDone (standOf w.o sp) n) || (w.feeds s c).isEmpty

/-! ### Steps (R73 to R80, R89, R98, R255) -/

/-- Held lane `j` of a row: a two's-complement integer (R70). -/
def heldLane (split : Nat) (sp : Spindle) (row j : Nat) : Int :=
  let L := lanesOf split
  let w := (tget 0#32 sp.held.words (16 * row + j / L)).toNat
  match split with
  | 0 => sext 25 (bits w 0 25)
  | 1 => sext 16 (bits w (16 * (j % L)) 16)
  | 2 => sext 8 (bits w (8 * (j % L)) 8)
  | 3 => sext 4 (bits w (4 * (j % L)) 4)
  | _ => (bits w (8 * (j % L)) 8 : Nat)

/-- The LOG8 product's table of R86. -/
def logT (f : Nat) : Nat := match f % 8 with | 0 => 128 | 1 => 140 | 2 => 152 | 3 => 166 | 4 => 181 | 5 => 197 | 6 => 215 | _ => 235

/-- What a row presents to a column lane: σ × (held << p), or in log mode the product of R86. -/
def presented (split : Nat) (held : Int) (digit : Option (Bool × Nat)) : Int :=
  match digit with
  | none => 0
  | some (neg, p) =>
    if split = 4 then
      let c := held.toNat
      let m := p + c % 128
      if p = 0 || c % 128 = 0 then 0
      else if neg != decide (128 ≤ c) then -((logT m * 2 ^ (m / 8) : Nat) : Int) else ((logT m * 2 ^ (m / 8) : Nat) : Int)
    else if neg then -(held * 2 ^ p) else held * 2 ^ p

/-- A signed 48-bit register (R74, R75). -/
def reg48 (v : Int) : Int := sext 48 (v % (2 ^ 48 : Nat)).toNat

/-- End a command on a residue mismatch: `DETAIL` holds the column lane and the check's stage (R98, R495). -/
def residueEnd (s : State) (o : Op) (i lane stage : Nat) : State :=
  noteResidue (endFail s o 0#8 { failAt cResidue (latheBase (i / 64)) with detail := lane % 256 + stage * 256 }) i

/-- Whether residues are checked: not at G2 and G3 (R98). -/
def checksResidue (o : Op) : Bool := decide (gritOf o < 2)

/-- The residue of what a row should present, from that of the held integer, in log mode from those of T[f] and 2^I (R493). -/
def presentedRes (split : Nat) (held : Int) (r : Nat) (digit : Option (Bool × Nat)) : Int :=
  match digit with
  | none => 0
  | some (neg, p) =>
    if split = 4 then
      let c := held.toNat
      let m := p + c % 128
      if p = 0 || c % 128 = 0 then 0
      else
        let v : Int := (logT m % 7 * (2 ^ (m / 8) % 7) : Nat)
        if neg != decide (128 ≤ c) then -v else v
    else if neg then -((r * (2 ^ p % 7) : Nat) : Int) else ((r * (2 ^ p % 7) : Nat) : Int)

/-- Sum over the rows of an adder group what column lane `lane` is presented in step `t` of an advance: each row its digit
`t`, and in the step past the last digit step the bound of every row that has digits left (R73, R78, R218, R255). `digit` and
`bound` tell what a row presents, by its held integer and that one's residue. -/
def treeFold (w : Work) (sp : Spindle) (feed : List RowFeed) (g t lane : Nat) (digit : Int → Nat → Option (Bool × Nat) → Int)
    (bound : Int → Nat → Nat → Int) : Int :=
  let d := (groupSteps w.o w.x.log feed g).1
  (List.range (groupRows w.o)).foldl (fun n r =>
    let row := groupRows w.o * g + r
    let f := (feed.getD row []).getD (if is24 w.o then tget 0 sp.held.sel (128 * row + lane) else 0) ([], none)
    let held := heldLane (fSplit w.o) sp row lane
    let res := tget 0 sp.held.res (128 * row + lane)
    n + (if t < d then digit held res f.1[t]? else match f.2 with | some p => bound held res p | none => 0)) 0

/-- What a column lane's tree sums in a step. -/
def treeSum (w : Work) (sp : Spindle) (feed : List RowFeed) (g t lane : Nat) : Int :=
  treeFold w sp feed g t lane (fun held _ d => presented (fSplit w.o) held d) fun held _ p => (held.natAbs * 2 ^ p : Nat)

/-- The residue that the tree sum of a column lane should have (R493). -/
def treeRes (w : Work) (sp : Spindle) (feed : List RowFeed) (g t lane : Nat) : Nat :=
  res7 (treeFold w sp feed g t lane (presentedRes (fSplit w.o)) fun held r p =>
    if held < 0 then -((r * (2 ^ p % 7) : Nat) : Int) else ((r * (2 ^ p % 7) : Nat) : Int))

/-- The first column lane whose tree sum, with an error on one lane, has another residue than it should (R98, R493). -/
def badLane (w : Work) (sp : Spindle) (feed : List RowFeed) (g t lane : Nat) (err : Int) : Option Nat :=
  if !checksResidue w.o then none
  else (List.range (sliverCols w.o)).find? fun j =>
    res7 (treeSum w sp feed g t j + if j = lane then err else 0) != treeRes w sp feed g t j

/-- An adder group takes its next step over its fed vector: every column lane's register takes what its tree sums, its running
residue what that should have (R73, R74, R80, R493); a bound step adds into the companion's register (R254). -/
def stepRegs (w : Work) (feed : List RowFeed) (v : Tile × Nat × Nat) (g t lane : Nat) (err : Int) (sp : Spindle) : Spindle :=
  let cols := sliverCols w.o
  let slot := w.place v.1 + if (groupSteps w.o w.x.log feed g).1 ≤ t then 2 else 0
  let key := fun j => 256 * slot + v.2.1 * cols + j
  { sp with
    regs := (List.range cols).foldl (fun m j =>
      tput 0 m (key j) (reg48 (tget 0 m (key j) + treeSum w sp feed g t j + if j = lane then err else 0))) sp.regs
    resids := (List.range cols).foldl (fun m j => tput 0 m (key j) ((tget 0 m (key j) + treeRes w sp feed g t j) % 7)) sp.resids }

/-- The counters of a step: a step of the spindle when no other adder group has taken as many, an empty advance when no row
presented a digit (R78, R582). -/
def countStep (w : Work) (empty : Bool) (before after : Stand) (j : Job) (s : State) : Job × State :=
  let most := fun (st : Stand) => st.foldl (fun m p => max m p.2.2) 0
  let a := most after - most before
  let e := b2n empty
  ({ j with steps := j.steps + a, empty := j.empty + e }, perfFree (perfAdd (perfAdd s w.lathe 0 a) w.lathe 1 e) [5, 6] [w.lathe])

/-- Whether an adder group's rows carry no digit for a fed vector. -/
def noDigits (o : Op) (feed : List RowFeed) (g : Nat) : Bool :=
  ((feed.drop (groupRows o * g)).take (groupRows o)).all fun r => r.all fun d => d.1.isEmpty

/-- The adder group of a row takes one step (R73 to R80): its rows present their next digits, its place advances, and the
vectors finished by every group leave the registers. -/
def execSpindleStep (a : StepArgs) (s : State) : Out :=
  match workOn s a.spindle with
  | none => notNow
  | some w =>
    let sp := getSpindle s a.spindle
    let j := jobFor w.o sp
    match w.chuck j with
    | none => notNow
    | some c =>
      let fs := w.feeds s c
      let steps := w.steps fs
      let st := standOf w.o sp
      let g := a.row / groupRows w.o
      let p := st.getD g (0, 0, 0)
      let feed := fs.getD p.1 []
      if 16 ≤ a.row || sliverCols w.o ≤ a.errLane || !mayStep steps st g then notNow
      else
      match badLane w sp feed g p.2.1 a.errLane a.err with
      | some lane => .next (residueEnd s w.o a.spindle lane 0)
      | none =>
        let v := (chuckVecs w.o c).getD p.1 (⟨0, 0, 0, 0⟩, 0, 0)
        let st' := stepGroup steps st g
        match finishVecs s w c (j.chuck - 1) (allDone st steps.length) (allDone st' steps.length)
            (setStand st' (stepRegs w feed v g p.2.1 a.errLane a.err sp)) with
        | none => notNow
        | some sp =>
          let r := countStep w (noDigits w.o feed g) st st' j (settleRail s w.o (w.lathe / 2))
          let sp := endRounds w r.1 (decide (steps.length ≤ allDone st' steps.length)) sp
          .next (setSpindle r.2 a.spindle { sp with job := some r.1 })

/-! ### Chucks (R76, R115, R122, R206, R234 to R237) -/

/-- The set that a round begins in, with the spindle as that leaves it (R115, R122): the open set of a CONTINUE or a
finishing pass; else the next set, once it is free. -/
def beginSet (o : Op) (sp : Spindle) : Option (Nat × Spindle) :=
  let take := fun (k : Nat) (sp : Spindle) => if getSetState sp k = .free then some (k, setSetState sp k .working) else none
  match sp.opened with
  | some w =>
    if (fContinue o || opCode o == 0x14) && w.q = o.q then some (w.set, sp) else take (1 - w.set) sp
  | none => (take (b2n sp.next1) sp).map fun x => (x.1, { x.2 with next1 := !sp.next1 })

/-- Whether a pass of a spilling group reloads its tiles: its extent is not the partial's first (R206). -/
def Work.reloads (w : Work) (g : Seg) : Bool :=
  ((partExtents w.x.plan (fBtK w.o) (partials w.o) g.part)[0]?) != g.exts.head? && !(g.final && g.exts.length != 1)

/-- The rows that a pass reloads (R206, R207). -/
def reloadRows (s : State) (w : Work) (g : Seg) : List Nat :=
  if !w.reloads g then []
  else g.tiles.flatMap fun t => (List.range (tileRows w.x.acc)).map fun r =>
    spillAddr s (spillRef w.o) w.lathe (spillPlace (actualShare s w.o w.x.plan) w.i t.slot * tileRows w.x.acc + r)

/-- The entries that a pass of a spilling group reloads from its rows (R206). -/
def reload (s : State) (w : Work) (g : Seg) (set : Nat) (sp : Spindle) : Spindle :=
  if !w.reloads g then sp
  else
    let fa := actualShare s w.o w.x.plan
    g.tiles.foldl (fun sp t => (List.range 256).foldl (fun sp e =>
      let n := accBits w.x.acc / 8
      let at_ := spillAddr s (spillRef w.o) w.lathe (spillPlace fa w.i t.slot * tileRows w.x.acc + e * n / 512) + e * n % 512
      setTileEntry sp w.x.acc (4 * set + w.place t) e (leNat (devBytes s at_ n))) sp) sp

/-- A round begins in its set: its slots are zero and tagged, or hold what they held (R115). -/
def beginRound (s : State) (w : Work) (round : Nat) (j : Job) (sp : Spindle) : Option (Job × Spindle) :=
  match beginSet w.o sp, w.segs.filter fun g => g.round = round with
  | some (set, sp'), g :: gs =>
    let j' := { j with rounds := tput 0 (tkeep (fun k => k != set) j.rounds) set (round + 1) }
    if getSetState sp' set = .opened then some (j', sp')
    else
      let slots := (g :: gs).flatMap fun y => y.tiles.flatMap w.slots
      let clean := clearSet sp' set
      let tagged := { clean with tags := slots.foldl (fun m k => tput 0#16 m (4 * set + k) (accTag w.o)) clean.tags }
      some (j', reload s w g set tagged)
  | _, _ => none

/-- The lathe's match unit holds a chuck's pass; it waits while another spindle of the lathe works under another (R237). -/
def readyMatch (s : State) (w : Work) (c : Chuck) : Option State :=
  match c.pass with
  | none => some s
  | some pass =>
    let u := tget MatchUnit.empty s.dies.matches_ w.lathe
    if u.q = w.o.q ∧ u.tag = w.o.tag ∧ u.pass = pass then some s
    else
      let busy := s.dies.spindles.any fun e => e.1 / 64 == w.lathe && e.1 != w.i
        && (match workOn s e.1 with
          | some v => (v.chuck (jobFor v.o e.2)).any (fun d => d.pass == some u.pass) && !v.spent s (jobFor v.o e.2) e.2
          | none => false)
      if busy then none
      else some { s with dies := { s.dies with
        matches_ := tput MatchUnit.empty s.dies.matches_ w.lathe (fillMatch w.o.q w.o.tag pass (passEntries w.cs pass)) } }

/-- The next chuck's words swap in, those of the one after it load, and the adder groups pass over the vectors that take no
step (R70, R76, R78). -/
def swapIn (s : State) (w : Work) (c : Chuck) (j : Job) (sp : Spindle) : Option Spindle :=
  let words := fun c => chuckWords s w.o w.x w.lathe c
  let sp := { sp with
    held := sp.loading.getD (words c)
    loading := (w.cs[j.chuck + 1]?).map words
    job := some { j with chuck := j.chuck + 1 } }
  let steps := w.steps (w.feeds s c)
  let st := startStand w.o steps
  finishVecs s w c j.chuck 0 (allDone st steps.length) (setStand st sp)

/-- Whether a chuck is the first of its round. -/
def Work.enters (w : Work) (c : Chuck) (j : Job) : Bool := (w.chuck j).all fun d => d.round != c.round

/-- The spindle that a chuck enters: the first chuck of a round waits for its set (R122). -/
def enterChuck (s : State) (w : Work) (c : Chuck) (j : Job) (sp : Spindle) : Option (Job × Spindle) :=
  if w.enters c j then beginRound s w c.round j sp else some (j, sp)

/-- The rows that a round reloads are read under their guards (R206, R488). -/
def guardReload (s : State) (w : Work) (c : Chuck) (j : Job) : State × BitVec 8 × Option Fail :=
  if w.enters c j then guardUnits s ((w.segs.filter fun g => g.round = c.round).flatMap (reloadRows s w)) else (s, 0#8, none)

/-- A set that a round begins anew holds no earlier error (R115). -/
def freshSet (w : Work) (c : Chuck) (j j' : Job) (s : State) : State :=
  match w.enters c j, roundSet j' c.round with
  | true, some set =>
    if (getSpindle s w.i).opened.any fun v => v.set == set then s else dropAcc s w.i fun k => setOfSlot k == set
  | _, _ => s

/-- The next chuck swaps in once the last step of the present one has been presented; the first of a round waits for its set
(R76, R122). -/
def execChuckSwap (i : Nat) (s : State) : Out :=
  match workOn s i with
  | none => notNow
  | some w =>
    let sp0 := getSpindle s i
    let j0 := jobFor w.o sp0
    let sp := if j0.chuck = 0 then sp0.cleared else sp0
    match w.cs[j0.chuck]? with
    | none => notNow
    | some c =>
      if !w.spent s j0 sp then notNow
      else
        match enterChuck s w c j0 sp, readyMatch s w c with
        | some (j, sp), some s =>
          match guardReload s w c j0 with
          | (s, f, some e) => .next (endFail s w.o f e)
          | (s, f, none) =>
          match swapIn s w c j sp with
          | none => notNow
          | some sp =>
            let j' := { j with chuck := j.chuck + 1 }
            let t := takeTails s w.o w.x w.lathe c (freshSet w c j0 j (perfFree s [3, 5] [w.lathe]))
            .next (addOpFlags (setSpindle t i (endRounds w j' (w.spent s j' sp) sp)) w.o.q w.o.tag f)
        | _, _ => notNow

/-! ### The rescale (R81 to R85, R88, R95, R105, R107, R256) -/

/-- A delivered value as it waits for its pair (R107). -/
def pairStore (p x : Int) (nan : Bool) : Int × Int := if nan then (2, 0) else (2 * (roundSig 48 (p : Rat)).num + 1, x)

/-- The value that waits, if one does. -/
def pairValue (c : Int × Int) : Option Ext :=
  if c.1 = 0 then none else if c.1 % 2 = 0 then some .nan else some (.fin ((((c.1 - 1) / 2 : Int) : Rat) * pow2 c.2))

/-- Whether a delivered A16 result waits for its pair (R107). -/
def pairWaits (f : AccFmt) (sp : Spindle) (key : Nat) (lastExt : Bool) : Bool :=
  match f with
  | .a16 _ => (pairValue (tget (0, 0) sp.pair key)).isNone && !lastExt
  | _ => false

/-- Add a delivered value into entry `e` of a slot; an A16 result waits for its pair, unless its extent ends (R104, R105,
R107). -/
def addDelivered (f : AccFmt) (sp : Spindle) (key slot e : Nat) (lastExt : Bool) (g : GroupRes) (v : Ext) : Spindle × BitVec 8 :=
  if pairWaits f sp key lastExt then
    ({ sp with pair := tput (0, 0) sp.pair key (pairStore (g.reg * (g.ma : Int) * (g.mb : Int)) (g.xa + g.xb) g.nonfinite) }, 0#8)
  else
    let u := match f with | .a16 _ => pairValue (tget (0, 0) sp.pair key) | _ => none
    let (w', fl) := accAdd f (tileEntry sp f slot e) (match u with | some u => (extAdd u v).1 | none => v)
    (setTileEntry { sp with pair := if u.isSome then tput (0, 0) sp.pair key (0, 0) else sp.pair } f slot e w', fl)

/-- Add a bound's register into its companion entry (R256); at G2 and G3 it gains 2^b (R254). -/
def addBound (w : Work) (sp : Spindle) (slot e : Nat) (g : GroupRes) : Spindle :=
  let b := g.reg.toNat + if w.x.shave = 0 then 0 else 2 ^ w.x.shave
  let k := 256 * slot + e
  { sp with acc := tput 0#64 sp.acc k (BitVec.ofNat 64 (boundAdd (bits (tget 0#64 sp.acc k).toNat 0 32) g b)) }

/-- A group register of the draining set as its rescale adds it into its entry (R81 to R85, R88, R105, R107, R256). -/
def rescaleInto (w : Work) (c : Chuck) (t : Tile) (a : RescaleArgs) (set : Nat) (bound : Bool) (r : Int) (sp : Spindle) :
    Spindle × BitVec 8 :=
  let key := 256 * a.slot + a.entry
  let (m, n) := w.output t a.entry
  let full := groupRes w.x (passOf w.o) w.lathe t.batch m n c.grp
  let g := { full with reg := if bound then r else w.x.shaved t.batch m n c.grp.1 r }
  let sp := { sp with drain := sp.drain.filter fun z => z.key != key }
  if bound then (addBound w sp (4 * set + a.slot) a.entry g, 0#8)
  else addDelivered w.x.acc sp key (4 * set + a.slot) a.entry c.lastExt g (deliver w.x.acc w.x.e g)

/-- A group register of the draining set is rescaled and added into its entry, once its running residue has been checked (R81,
R489, R493, R495). -/
def execGroupRescale (a : RescaleArgs) (s : State) : Out :=
  match workOn s a.spindle with
  | none => notNow
  | some w =>
    let sp := getSpindle s a.spindle
    let j := jobFor w.o sp
    let key := 256 * a.slot + a.entry
    match sp.drain.find? fun y => y.key = key with
    | none => notNow
    | some y =>
      match w.cs[y.chuck]? with
      | none => notNow
      | some c =>
        let bound := decide (opCode w.o = 0x13) && !(c.tiles.any fun t => w.place t == a.slot)
        match roundSet j c.round, c.tiles.find? fun t => w.place t + (if bound then 2 else 0) = a.slot with
        | some set, some t =>
          let r := reg48 (y.reg + a.err)
          if checksResidue w.o && res7 r != y.res then .next (residueEnd s w.o a.spindle (a.entry % sliverCols w.o) 1)
          else
            let f : AccFmt := if bound then .c64 else w.x.acc
            let word := 256 * (4 * set + a.slot) + wordOf f a.entry
            match guardAcc s (if pairWaits f sp key c.lastExt then [] else [(a.spindle, word)]) with
            | (s, fl, some _) => .next (accEnd s w.o fl a.spindle word)
            | (s, fl, none) =>
              let x := rescaleInto w c t a set bound r sp
              let sp := endRounds w j (w.spent s j x.1) x.1
              .next (addOpFlags (perfFree (setSpindle s a.spindle sp) [4, 5] [w.lathe]) w.o.q w.o.tag (fl ||| x.2))
        | _, _ => notNow

/-! ### The drain of a set (R122, R123, R139, R206, R264) -/

/-- The entries of a drained tile; a row that ran as chunk tiles takes their sum (R241). -/
def drainEntries (s : State) (w : Work) (g : Seg) (h : Held) : List (List Nat) :=
  let cols := sliverCols w.o
  let es := partExtents w.x.plan (fBtK w.o) (partials w.o) g.part
  rectMap (tileRect w.o w.x.plan h) fun m n =>
    let e := if w.x.fedB then (n - h.tile.fed0) * cols + (m - h.tile.held0) else (m - h.tile.fed0) * cols + (n - h.tile.held0)
    let v := tileEntry (getSpindle s h.spindle) w.x.acc (4 * h.set + w.place h.tile) e
    if isChunked w.o w.x w.lathe h.tile.batch (if w.x.fedB then n else m) g.part then
      (entryOf w.o w.x w.lathe v h.tile.batch m n es).1
    else v

/-- Write a drained tile to HBM: as its partial, or through the epilogue. Its bench rows and records follow with the
command's own row (DESIGN CHOICE, log 42). -/
def drainWrite (s0 : State) (w : Work) (g : Seg) (a : Acc) (h : Held) : Acc :=
  let r := tileRect w.o w.x.plan h
  let es := drainEntries s0 w g h
  let code := fun m n => (finishOut s0 w.o w.x h m n).2.2.1
  if opCode w.o = 0x14 then
    if fDefer w.o then a.write fun s => writePartial s w.o r 0 (rectMap r fun m n => finishWide w.o (code m n) (rectGet r 0 es m n))
    else emitConv w.o a r (rectMap r fun m n => finishConv s0 w.o w.x.plan h m n (code m n) (rectGet r 0 es m n))
  else if toPartials w.o then a.write fun s => writePartial s w.o r g.part es
  else emitRect w.o w.x.plan s0 a r es

/-- The spilled tiles of a pass go to their rows (R206, R207). -/
def spillPass (w : Work) (g : Seg) (set : Nat) (s : State) : State :=
  let fa := actualShare s w.o w.x.plan
  g.tiles.foldl (fun s t => spillTile s (spillRef w.o) w.x.acc w.lathe (spillPlace fa w.i t.slot)
    ((List.range 256).map fun e => tileEntry (getSpindle s w.i) w.x.acc (4 * set + w.place t) e)) s

/-- The accumulator words that a set's drain reads: those of its outputs, and of a companion that a finishing pass looks up;
all of a tile that is spilled (R122, R206). -/
def drainWords (s : State) (w : Work) (g : Seg) (set : Nat) : List (Nat × Nat) :=
  if s.mems.upsets.isEmpty then []
  else g.tiles.flatMap fun t =>
    let k := 256 * (4 * set + w.place t)
    let es := if g.final then (tileOutputs w.o w.x.plan t).map (·.1) else List.range 256
    let here := (es.map (wordOf w.x.acc)).eraseDups.map fun e => (w.i, k + e)
    if opCode w.o = 0x14 then here ++ es.map fun e => (w.i, k + 512 + e) else here

/-- A draining set is read through the epilogue, or spilled, and freed (R122, R123, R206, R489). -/
def execTileDrain (i set : Nat) (s : State) : Out :=
  match workOn s i with
  | none => notNow
  | some w =>
    let j := jobFor w.o (getSpindle s i)
    match w.segs.find? fun g => tget 0 j.rounds set = g.round + 1 with
    | none => notNow
    | some g =>
      if getSetState (getSpindle s i) set ≠ .draining then notNow
      else
        match guardAcc s (drainWords s w g set) with
        | (s, fl, some y) => .next (accEnd s w.o fl i y.2)
        | (s, fl, none) =>
        let hs := g.tiles.map fun t => (⟨i, set, t⟩ : Held)
        let x : Res := if g.final then (hs.foldl (drainWrite s w g) { s := s }).res w.o.q else ⟨spillPass w g set s, 0#8, none⟩
        match x.err with
        | some e => .next (endFail x.s w.o (fl ||| x.flags) e)
        | none =>
          let sp := freeSet (getSpindle x.s i) set
          .next (addOpFlags (setSpindle x.s i { sp with job := some { j with rounds := tkeep (fun k => k != set) j.rounds } })
            w.o.q w.o.tag (fl ||| x.flags))

end Sys2Proof.Machine
end

