-- ==== Sys2Proof/Machine/Manage.lean ====
section
/-!
DEFINITION. Management commands (R372 to R379): queries, quotas, the power cap, streams, pattern loads, keep registers
and firmware.
-/

namespace Sys2Proof.Machine

/-! ### MG.QUERY (R373) -/

/-- Read `n` bytes at a host or device address. -/
def mgRead (s : State) (o : Op) (h : HostReply) (host : Bool) (a n : Nat) : State × BitVec 8 × Except Fail (List Byte) :=
  if host then srcHost (opFunc s o) h a s 0 n else srcDev a s 0 n

/-- The result of an item; item 5 takes what it reads first. -/
def queryBytes (s : State) (o : Op) (input : List Byte) : List Byte :=
  let i := mqIndex o
  match mqItem o with
  | 1 => (List.range 8).flatMap fun k => leBytes 8 (identWord k).toNat
  | 2 => (List.range 8).flatMap fun k => leBytes 8 (capWord s k).toNat
  | 3 => leBytes 16 (slotHeader (getSlot s (i / 64) (i % 64)))
  | 4 => leBytes 16 (streamRecord (getStream s i))
  | 5 => leBytes 16 (drawBlock (leNat (input.take 16)) (leNat ((input.drop 32).take 4)) (leNat ((input.drop 16).take 16)))
  | 6 => leBytes 8 (hbmUse s i) ++ leBytes 8 (getLimits s i).hbm
  | 7 =>
    let sp := getSpindle s i
    (match sp.opened with
     | some w => leBytes 4 w.set ++ leBytes 4 w.q
        ++ (List.range 4).flatMap fun j => leBytes 2 (tget 0#16 sp.tags (4 * w.set + j)).toNat
     | none => leBytes 4 0xFFFFFFFF ++ leBytes 12 0)
  | 8 => fenceMap s
  | _ => leBytes 4 (keepReg s i).toNat ++ leBytes 4 (keepWearWord s i)

def queryBody (s : State) (o : Op) (h : HostReply) : Res :=
  let place := fun (s : State) (f : BitVec 8) (a : Nat) (bytes : List Byte) =>
    let d := if mqHost o then Dst.host (opFunc s o) a else Dst.dev a
    let x := landAll d 0 bytes.length (fun s off n => (s, 0#8, .ok ((bytes.drop off).take n))) (pieces d bytes.length)
      { s := s }
    (⟨x.s, f ||| x.flags, x.err⟩ : Res)
  if mqItem o = 5 then
    match mgRead s o h (mqHost o) (mqAddr o) 48 with
    | (s', f, .error e) => ⟨s', f, some e⟩
    | (s', f, .ok b) => place s' f (mqAddr o + 48) (queryBytes s' o b)
  else place s 0#8 (mqAddr o) (queryBytes s o [])

/-- `MG.QUERY` (R373). -/
def execMgQuery (r : OpRef) (s : State) : Out := runBody 0x60 queryBody r s

/-! ### MG.QUOTA (R336 to R341) -/

/-- The row of one `op` of `MG.QUOTA`. -/
def runQuota (q : Nat) (body : State → Op → HostReply → Res) (r : OpRef) (s : State) : Out :=
  match findOp s r.q r.tag with
  | some o => if quOp o = q then runBody 0x62 body r s else notNow
  | none => notNow

/-- Make a reservation, unless the queue's or the function's use would pass its limit (R340). -/
def reserveBody (bench : Bool) (s : State) (o : Op) (_ : HostReply) : Res :=
  let fn := opFunc s o
  let lim := fun k => if bench then (getLimits s k).bench else (getLimits s k).hbm * 0x20_0000
  let use := fun k => sumSizes (reservedBy s bench k) + quSize o
  if lim o.q < use o.q || lim (64 + fn) < use (64 + fn) then ⟨s, 0#8, some (failPlain cOverQuota)⟩
  else
    ⟨{ s with head := { s.head with
        reservations := s.head.reservations ++ [⟨o.q, fn, bench, quBase o, quSize o⟩] } }, 0#8, none⟩

/-- Free a reservation of the function (R336, R372). -/
def freeBody (bench : Bool) (s : State) (o : Op) (_ : HostReply) : Res :=
  match s.head.reservations.find? fun x =>
    x.func == opFunc s o && x.bench == bench && x.base == quBase o && x.size == quSize o with
  | some x => ⟨{ s with head := { s.head with reservations := s.head.reservations.erase x } }, 0#8, none⟩
  | none => ⟨s, 0#8, some (failPlain cBadDescriptor)⟩

/-- The limits with one dimension changed (R338). -/
def setDim (l : Limits) (dim v : Nat) : Limits :=
  match dim with
  | 0 => { l with bench := v }
  | 1 => { l with hbm := v }
  | 2 => { l with tags := v }
  | _ => { l with share := v }

/-- Set a limit of a key. -/
def limitBody (key : Op → Nat) (s : State) (o : Op) (_ : HostReply) : Res :=
  ⟨setLimits s (key o) (setDim (getLimits s (key o)) (quDim o) (quSize o)), 0#8, none⟩

def tallyRangeBody (s : State) (o : Op) (_ : HostReply) : Res :=
  let f := quFunc o
  ⟨{ s with head := { s.head with
    tallyRange := tput (if f = 0 then (0, 4096) else (0, 0)) s.head.tallyRange f (quBase o, quSize o) } }, 0#8, none⟩

/-- `MG.QUOTA`, RESERVE_HBM (R336, R340). -/
def execReserveHbm (r : OpRef) (s : State) : Out := runQuota 0 (reserveBody false) r s

/-- `MG.QUOTA`, RESERVE_BENCH. -/
def execReserveBench (r : OpRef) (s : State) : Out := runQuota 1 (reserveBody true) r s

/-- `MG.QUOTA`, FREE_HBM. -/
def execFreeHbm (r : OpRef) (s : State) : Out := runQuota 2 (freeBody false) r s

/-- `MG.QUOTA`, FREE_BENCH. -/
def execFreeBench (r : OpRef) (s : State) : Out := runQuota 3 (freeBody true) r s

/-- `MG.QUOTA`, LIMIT_QUEUE (R338, R339, R341). -/
def execLimitQueue (r : OpRef) (s : State) : Out := runQuota 4 (limitBody quQueue) r s

/-- `MG.QUOTA`, LIMIT_FUNC. -/
def execLimitFunc (r : OpRef) (s : State) : Out := runQuota 5 (limitBody fun o => 64 + quFunc o) r s

/-- `MG.QUOTA`, TALLY_RANGE. -/
def execTallyRange (r : OpRef) (s : State) : Out := runQuota 6 tallyRangeBody r s

/-! ### MG.POWER_CAP (R375, R464) -/

/-- Set the power cap, limited to 190 to 450 W; whether it was (R375). -/
def setCap (s : State) (w : Nat) : State × Bool :=
  let c := w < 190 || 450 < w
  ({ s with power := { s.power with capW := BitVec.ofNat 16 (max 190 (min 450 w)), capClamped := c } }, c)

def powerCapBody (s : State) (o : Op) (_ : HostReply) : Res :=
  let (s, c) := setCap s (pcWatts o)
  ⟨s, flagIf fClamped c, none⟩

/-- `MG.POWER_CAP` (R375). -/
def execMgPowerCap (r : OpRef) (s : State) : Out := runBody 0x63 powerCapBody r s

/-! ### MG.STREAM_BIND (R297, R302) -/

/-- `MG.STREAM_BIND` took its place in acceptance order (R302); its row ends it. -/
def execMgStreamBind (r : OpRef) (s : State) : Out := runBody 0x65 onlyEnds r s

/-! ### MG.PATTERN_LOAD (R48 to R50, R54, R377) -/

/-- The first faulty byte of a header, but for its CRC (R48, R50). -/
def headerFault (h : Nat) : Option Nat :=
  let codeW := bits h 0 4
  let valueW := bits h 8 5
  if (codeW ≠ 4 && codeW ≠ 8) || bits h 4 4 ≠ 0 then some 0
  else if (valueW ≠ 4 && valueW ≠ 8 && valueW ≠ 16) || bits h 13 3 ≠ 0 then some 1
  else if bits h 17 7 ≠ 0 then some 2
  else if bits h 24 8 ≠ 0 then some 3
  else (List.range 8).findSome? fun i => if bits h (64 + 8 * i) 8 ≠ 0 then some (8 + i) else none

/-- The first byte, from `lo`, of the `n`-byte fields of two words that differ. -/
def firstDiff (a b lo n : Nat) : Option Nat :=
  ((List.range n).map (lo + ·)).find? fun i => bits a (8 * i) 8 ≠ bits b (8 * i) 8

/-- The digit count and string of a value in canonical form, as bits [63:16] of an entry (R49, R72). -/
def digitField (v : Int) : Nat :=
  let ds := csd v.natAbs
  let ds := if v < 0 then ds.map fun d => (!d.1, d.2) else ds
  ds.length * 2 ^ 16 + (ds.zipIdx.foldl (fun w d => w + (d.1.2 + b2n d.1.1 * 16) * 2 ^ (24 + 5 * d.2)) 0)

/-- The first faulty byte of an entry (R50). -/
def entryFault (h e : Nat) : Option Nat :=
  let vw := bits h 8 5
  let v := sext vw (bits e 0 vw)
  if bits e 20 4 ≠ 0 then some 2
  else
    match firstDiff e (v % (2 ^ 16 : Nat)).toNat 0 2 with
    | some i => some i
    | none => if bit h 16 then firstDiff e (digitField v) 2 6 else none

/-- The first faulty byte of an image (R50). -/
def imageFault (w n : Nat) : Option Nat :=
  match headerFault w with
  | some i => some i
  | none =>
    if crc32c ((leBytes (16 + 8 * n) w).drop 16) ≠ bits w 32 32 then some 4
    else (List.range (n - 1)).findSome? fun i => (entryFault w (bits w (128 + 64 * i) 64)).map (16 + 8 * i + ·)

/-- The table of an image of `n` entries. -/
def imageTable (w n : Nat) : PatSlot :=
  .table (BitVec.ofNat 128 (bits w 0 128)) ((List.range n).map fun i => BitVec.ofNat 64 (bits w (128 + 64 * i) 64))

/-- Load a slot of a lathe; an upset of the old table goes with it. -/
def loadSlot (slot : Nat) (t : PatSlot) (s : State) (l : Nat) : State :=
  setSlot { s with mems := { s.mems with upsets := s.mems.upsets.filter fun x => x != .pattern l slot } } l slot t

def patternFail (o : Op) (i : Nat) : Fail :=
  { code := cBadDescriptor, addr := (plImage o + i) % 2 ^ 48, kind := if plHost o then 2 else 1 }

def patternBody (s : State) (o : Op) (h : HostReply) : Res :=
  match mgRead s o h (plHost o) (plImage o) 144 with
  | (s', f, .error e) => ⟨s', f, some e⟩
  | (s', f, .ok b) =>
    let long := bits (leNat b) 0 4 = 8
    let n := if long then 256 else 16
    if long && !plHost o && hbmEnd < plImage o + 2064 then ⟨s', f, some (failAt cAddrRange (plImage o))⟩
    else
      match (if long then mgRead s' o h (plHost o) (plImage o + 144) 1920 else (s', 0#8, .ok [])) with
      | (t, g, .error e) => ⟨t, f ||| g, some e⟩
      | (t, g, .ok b') =>
        let w := leNat (b ++ b')
        match imageFault w n with
        | some i => ⟨t, f ||| g, some (patternFail o i)⟩
        | none =>
          match (plLathes o).find? fun l => !latheUp t l with
          | some l => ⟨t, f ||| g, some (failAt cDomainOff (latheBase l))⟩
          | none => ⟨(plLathes o).foldl (loadSlot (plSlot o) (imageTable w n)) t, f ||| g, none⟩

/-- `MG.PATTERN_LOAD` (R377). -/
def execMgPatternLoad (r : OpRef) (s : State) : Out := runBody 0x66 patternBody r s

/-! ### MG.KEEP_WRITE (R378, R534 to R536) -/

def keepBody (s : State) (o : Op) (_ : HostReply) : Res :=
  match keepWrite s (kwIndex o) (BitVec.ofNat 32 (kwValue o)) with
  | .error e => ⟨s, 0#8, some e⟩
  | .ok t => ⟨t, 0#8, none⟩

/-- `MG.KEEP_WRITE` (R378). -/
def execMgKeepWrite (r : OpRef) (s : State) : Out := runBody 0x67 keepBody r s

/-! ### Firmware commands (R545 to R549, R555) -/

def stageBody (s : State) (o : Op) (h : HostReply) : Res :=
  match mgRead s o h (stHost o) (stSrc o) 65536 with
  | (s', f, .error e) => ⟨s', f, some e⟩
  | (s', f, .ok b) =>
    match stageBlock s' (stBlock o) b (stSrc o) (if stHost o then 2 else 1) with
    | some t => ⟨t, f, none⟩
    | none => ⟨s', f, some { code := cFwRejected, addr := stSrc o, kind := if stHost o then 2 else 1 }⟩

/-- The stages that have started and not yet run, in the order in which they started (R546). -/
def stagesDue (s : State) : List (Nat × Nat) :=
  s.firm.stages.filter fun x => s.head.ops.any fun o => o.q == x.1 && o.tag == x.2 && o.phase == .started && opCode o == 0x68

/-- `MG.FW_STAGE` (R545, R546): in the order of the starts. -/
def execMgFwStage (r : OpRef) (s : State) : Out :=
  match stagesDue s with
  | x :: _ => if x = (r.q, r.tag) then runBody 0x68 stageBody r s else notNow
  | [] => notNow

/-- The command of the activation under way, when it has not lost it (R523). -/
def activator (s : State) : Option Op :=
  s.firm.activating.bind fun x => s.head.ops.find? fun o => o.q = x.1 && o.tag = x.2 && o.phase = .started && opCode o = 0x69

/-- The next event of an activation that has no command, or of its own one's. -/
def activateRow (s : State) (o : Option Op) (readBack : Bool) : State :=
  match activateStep s readBack with
  | (t, none) => t
  | (t, some e) =>
    let t := setFirm t { t.firm with activating := none }
    match o with | some o => endWith t o 0#8 e | none => t

/-- `MG.FW_ACTIVATE` (R547, R548): one event of the activation under way, which runs to its end whatever becomes of its command
(R523). -/
def execMgFwActivate (r : OpRef) (readBack : Bool) (s : State) : Out :=
  if s.firm.activating.isNone then notNow
  else
    match activator s with
    | some o => if o.q = r.q ∧ o.tag = r.tag then .next (activateRow s (some o) readBack) else notNow
    | none => .next (activateRow s none readBack)

def fwConfirmBody (s : State) (_ : Op) (_ : HostReply) : Res := ⟨(confirmBody s).1, 0#8, (confirmBody s).2⟩

/-- `MG.FW_CONFIRM` (R555, R557, R559). -/
def execMgFwConfirm (r : OpRef) (s : State) : Out := runBody 0x6A fwConfirmBody r s

end Sys2Proof.Machine
end

