-- ==== Sys2Proof/Machine/Power.lean ====
section
/-!
DEFINITION. Power and heat: domain switching (R374, R469 to R477), the governor and its sensors (R463 to R468, R478),
the thermal trip (R479), and the die bridge's replays (R497).
-/

namespace Sys2Proof.Machine

def setPower (s : State) (p : Power) : State := { s with power := p }

/-! ### What a domain loses (R374, R469) -/

/-- Whether an upset lies in what a lathe pair loses whenever it leaves ON: accumulator stores, and what its match units and
tailstocks hold. -/
def inStores (d : Nat) (x : Upset) : Bool :=
  match x with
  | .acc i _ _ _ => i / 128 == d
  | .matchUnit l | .tailstock l _ _ => l / 2 == d
  | _ => false

/-- The accumulator stores and open sets of a lathe pair, and what its match units and tailstocks hold. -/
def loseAcc (s : State) (d : Nat) : State :=
  let s := (s.dies.spindles.filter fun e => e.1 / 128 = d).foldl (fun s e => markLost s e.1) s
  { s with
    mems := { s.mems with upsets := s.mems.upsets.filter fun x => !inStores d x }
    dies := { s.dies with
      matches_ := tkeep (fun l => l / 2 != d) s.dies.matches_
      tails := tkeep (fun l => l / 2 != d) s.dies.tails
      spindles :=
        (s.dies.spindles.map fun e => if e.1 / 128 = d then (e.1, e.2.clean) else e).filter fun e => e.2 != Spindle.idle } }

/-- The benches, region tables and pattern slots of a lathe pair that goes OFF; on its return slots 0 to 7 hold the
default tables. -/
def loseBenches (s : State) (d : Nat) : State :=
  let s := zeroBench (zeroBench s (2 * d)) (2 * d + 1)
  { s with
    mems := { s.mems with upsets := s.mems.upsets.filter fun x =>
      match x with | .pattern l _ => l / 2 != d | .region l _ => l / 2 != d | _ => true }
    dies := { s.dies with
      regions := tkeep (fun k => k / 128 != d) s.dies.regions, patterns := tkeep (fun k => k / 128 != d) s.dies.patterns } }

/-- A stack's contents; it returns zero with valid ECC. -/
def loseStack (s : State) (k : Nat) : State :=
  let out := fun u => !(k * stackBytes ≤ u && u < (k + 1) * stackBytes)
  { s with mems := { s.mems with
    dev := memClear s.mems.dev (k * stackBytes) ((k + 1) * stackBytes)
    poison := s.mems.poison.filter out
    upsets := s.mems.upsets.filter fun x => match x with | .hbm u _ => out u | _ => true } }

/-- An N-port's domain goes OFF: its link goes down. -/
def portOff (s : State) (p : Nat) : State :=
  let v := getPort s p
  match v.state with
  | .disabled | .down => s
  | _ => portDown s p

/-- An N-port's domain is ON again: it trains as an inserted cable does (R400). -/
def portOn (s : State) (p : Nat) : State :=
  let v := getPort s p
  if !portEnabled s p then s
  else
    let s := setPort s p { v with state := .down }
    if v.cable then startTraining s p else s

/-- A domain enters its new state. -/
def enterPd (s : State) (d : Nat) (src tgt : Pd) : State :=
  let s := setPd s d (.settled tgt)
  if d < 64 then
    let s := if src = .on then loseAcc s d else s
    if tgt = .off then loseBenches s d else s
  else if d < 72 then (if tgt = .off then loseStack s (d - 64) else s)
  else if d < 78 then (if tgt = .off then portOff s (d - 72) else if tgt = .on then portOn s (d - 72) else s)
  else s

/-! ### Commands that need a domain (R474) -/

/-- Whether a waiting operation uses an N-port of the east half (R15, R18). -/
def usesEastPort (s : State) (o : Op) : Bool :=
  let east := fun d => match routeTo s d with | some p => decide (3 ≤ p) | none => false
  (s.fab.sent.any fun x => x.q == o.q && x.tag == o.tag && east x.dst)
    || (s.fab.pieces.any fun x => x.q == o.q && x.tag == o.tag && east x.dst)
    || (s.fab.colls.any fun c => c.q == o.q && c.tag == o.tag && (membersOf c.members).any east)

/-- What an operation logs that the die bridge cuts off from an N-port of the east half (R18, R474): the first byte that a
transfer has not delivered, what a collective logs, or what `eastCut` says. -/
def eastLost (s : State) (o : Op) : Fail :=
  match s.fab.colls.find? fun c => c.q == o.q && c.tag == o.tag with
  | some c => collCut s c
  | none => if opCode o = 0x40 || opCode o = 0x41 then { undelivered s o.q o.tag with code := cDomainOff } else eastCut

/-- The first address a running command could not reach when a domain goes, if it needs it. -/
def lostBy (s : State) (d : Nat) (o : Op) : Option Fail :=
  if o.phase ≠ .started && o.phase ≠ .waiting then none
  else
    match needsDomain s o d with
    | some a => some (failAt cDomainOff a)
    | none => if d = dBridge && usesEastPort s o then some (eastLost s o) else none

/-- End the running commands that need a domain (R474). -/
def endNeeding (s : State) (d : Nat) : State :=
  s.head.ops.foldl (fun t o =>
    match lostBy s d o with
    | some e => stopWith t o 0#8 e
    | none => t) s

/-- End a waiting `MG.POWER_DOMAIN`. -/
def endSwitch (s : State) (q tag : Nat) (e : Option Fail) : State :=
  match findOp s q tag with
  | some o => if o.phase = .waiting && opCode o = 0x61 then endWith s o 0#8 e else s
  | none => s

/-! ### MG.POWER_DOMAIN (R374, R469 to R477) -/

/-- Domains that a thermal trip turns OFF (R479). -/
def trippable (d : Nat) : Bool := d < 64 || d == dTail || d == dBridge

def wantedPd (o : Op) : Pd := match mpState o with | 0 => .on | 1 => .retain | _ => .off

/-- The address a refused switch of a domain reports: its lathe pair's bench base, else none. -/
def domainFail (d : Nat) : Fail := if d < 64 then failAt cDomainOff (latheBase (2 * d)) else failPlain cDomainOff

/-- Start to switch a domain (R473, R476, R477). -/
def beginSwitch (s : State) (d : Nat) (src tgt : Pd) (q tag : Nat) : State :=
  let s := if src = .on then endNeeding s d else s
  let s := setPd s d (.switching src tgt q tag)
  if src = .on && 72 ≤ d && d < 78 then quiescePort s (d - 72) else s

/-- `MG.POWER_DOMAIN` starts (R471, R473, R477, R479). -/
def execMgPowerDomain (r : OpRef) (s : State) : Out :=
  match findOp s r.q r.tag with
  | none => notNow
  | some o =>
    if o.phase ≠ .started || opCode o ≠ 0x61 then notNow
    else
      let d := mpDomain o
      let tgt := wantedPd o
      match pd s d with
      | .switching _ _ _ _ => notNow
      | .settled src =>
        if src = tgt then .next (endOk s o 0#8)
        else if tgt = .on && s.power.trip && trippable d then .next (endFail s o 0#8 (domainFail d))
        else .next (beginSwitch (putOp s { o with phase := .waiting }) d src tgt o.q o.tag)

/-- Whether an N-port still has packets to answer or to route around it (R398, R476). -/
def portWaits (s : State) (d : Nat) : Bool := 72 ≤ d && d < 78 && (s.fab.routesDue || portBusy s (d - 72))

/-- The writes accepted before the gate closed have committed (events 4 to 6 of R473, DEDUCED, log 40). -/
def execDomainDrainDone (d : Nat) (s : State) : Out :=
  match pd s d with
  | .switching src tgt q tag =>
    if (src = .on || (src = .retain && tgt = .off)) && !portWaits s d then
      .next (endSwitch (enterPd s d src tgt) q tag none)
    else notNow
  | .settled _ => notNow

/-- The drain did not finish in time (R475, R476): the domain stays ON. -/
def execDomainDrainTimeout (d addr : Nat) (s : State) : Out :=
  match pd s d with
  | .switching .on _ q tag =>
    let s := setPd s d (.settled .on)
    if 72 ≤ d && d < 78 then
      let p := d - 72
      let s := if (getPort s p).state = .quiescing then linkChange (setPort s p { getPort s p with state := .up }) p true else s
      .next (endSwitch s q tag (some (failPlain cDomainOff)))
    else .next (endSwitch s q tag (some (failAt cDomainOff addr)))
  | _ => notNow

/-- A domain's return is complete (R469, R477). -/
def execDomainOnComplete (d : Nat) (s : State) : Out :=
  match pd s d with
  | .switching src tgt q tag =>
    if src = .on || (src = .retain && tgt = .off) then notNow
    else .next (endSwitch (enterPd s d src tgt) q tag none)
  | .settled _ => notNow

/-- A domain goes OFF at once, without a drain (R479, R497); a switch under way ends with what it asked for, or with
0x23. -/
def cutDomain (s : State) (d : Nat) : State :=
  let s := endNeeding s d
  match pd s d with
  | .settled src => enterPd s d src .off
  | .switching src tgt q tag =>
    endSwitch (enterPd s d src .off) q tag (if tgt = .off then none else some (domainFail d))

/-! ### The governor (R463 to R466, R478) -/

/-- Sensors that report: the east half's only while the die bridge is not OFF (R580). -/
def bridgeOff (s : State) : Bool := pd s dBridge == .settled .off

def junction (s : State) (i : Nat) : Nat :=
  if 16 ≤ i && bridgeOff s then 0 else (tget 0#8 s.power.junctions i).toNat

def stackTemp (s : State) (k : Nat) : Nat :=
  if pd s (64 + k) == .settled .off then 0 else (tget 0#8 s.power.hbmTemps k).toNat

/-- The hottest of the sensors `lo` to `hi - 1`. -/
def hottest (s : State) (lo hi : Nat) : Nat := ((List.range (hi - lo)).map fun i => junction s (lo + i)).foldl max 0
/-- Whether a junction reads `t` or above. -/
def reaches (s : State) (t : Nat) : Bool := (List.range 32).any fun i => decide (t ≤ junction s i)
def hottestStack (s : State) : Nat := ((List.range 8).map (stackTemp s)).foldl max 0

/-- A table of bytes from a list. -/
def byteTable (xs : List Nat) : SMap (BitVec 8) :=
  (xs.zipIdx).foldl (fun t p => tput 0#8 t p.2 (BitVec.ofNat 8 (min 255 p.1))) []

/-- Whether heat holds the rail down (R478). -/
def tooHot (s : State) : Bool :=
  decide (s.power.thermTarget.toNat < hottest s 0 32) || decide (95 < hottestStack s) || s.power.hot

/-- Whether the draw is above the cap, and whether it is at least 5 % below it (R465). -/
def overCap (s : State) : Bool := decide (s.power.capW.toNat * 16 < s.power.inputP.toNat)
def belowCap (s : State) : Bool := decide (s.power.inputP.toNat * 100 ≤ s.power.capW.toNat * 16 * 95)

/-- The rail after a sample: lower, higher or held as R464 and R465 have it, in steps of 5 mV. While the draw or the heat is
above its limit the rail falls, down to 0.45 V (R24, R466), and while the draw stays below the cap it rises toward its target;
by how many steps it moves is free (DESIGN CHOICE, log 41). -/
def nextRail (s : State) : Nat :=
  let p := s.power
  let old := p.coreMv.toNat
  let top := min old p.vmaxMv.toNat
  let k := Config.freeNat s.freeIdx
  if p.hot then 450
  else if tooHot s || overCap s then 450 + 5 * (k % max 1 (min (cdiv (old - 450) 5) ((top - 450) / 5 + 1)))
  else if belowCap s && old < p.vmaxMv.toNat then min p.vmaxMv.toNat (old + 5 * (1 + k % ((p.vmaxMv.toNat - old) / 5)))
  else top

/-- The binding limit (R464): the lower number when several bind; while the rail is still rising none binds, and the field
keeps its value (DESIGN CHOICE, log 41). -/
def railLimit (s : State) (rail : Nat) : Nat :=
  if rail = s.power.vmaxMv.toNat then 0
  else if overCap s || !(tooHot s || belowCap s) then 1
  else if tooHot s then 2
  else s.power.limit.toNat

/-- Move the rail (R464, R465). -/
def govern (s : State) : State :=
  let rail := nextRail s
  setPower { s with freeIdx := s.freeIdx + 1 } { s.power with
    coreMv := BitVec.ofNat 10 rail, limit := BitVec.ofNat 2 (railLimit s rail) }

/-- The governor samples draw and temperature (R463, R464, R478). -/
def execGovernorSample (x : Sample) (s : State) : Out :=
  if !s.pins.railsUp then notNow
  else
    let w := BitVec.ofNat 16 (min 65535 x.inputP)
    let s := setPower s { s.power with
      inputP := w, peakP := if s.power.peakP < w then w else s.power.peakP
      vinDv := BitVec.ofNat 10 (min 1023 x.vinDv), junctions := byteTable x.junctions, hbmTemps := byteTable x.hbmTemps }
    let h := hottest s 0 32
    let cool := (List.range 32).all fun i => junction s i < s.power.thermTarget.toNat
    let s := setPower s { s.power with
      tjPeak := if s.power.tjPeak.toNat < h then BitVec.ofNat 8 h else s.power.tjPeak
      hotSince := if 105 ≤ h then some (s.power.hotSince.getD s.glob.timestamp) else none
      hot := s.power.hot && !cool }
    .next (govern s)

/-- Raise the device-event interrupt for a bit of THERM_STAT that goes from 0 to 1 (R480, R502). -/
def raiseHeat (s : State) (was : Bool) : State := if was then s else raiseMsix s 0 s.glob.devVec.toNat

/-- A junction has stayed at or above 105 °C for 1 ms (R478, R480). -/
def execHotTimer (s : State) : Out :=
  if s.power.hotSince.isNone then notNow
  else
    let was := s.power.hot
    let s := setPower s { s.power with hot := true }
    let s := setPower s { s.power with coreMv := 450#10, limit := BitVec.ofNat 2 (railLimit s 450) }
    .next (raiseHeat s was)

/-- The domains that a trip turns off go OFF (R479). -/
def tripAll (s : State) : State := ((List.range 80).filter trippable).foldl cutDomain s

/-- A junction at or above 110 °C (R478, R479). -/
def execThermalTrip (s : State) : Out :=
  if !reaches s 110 then notNow
  else .next (raiseHeat (tripAll (setPower s { s.power with trip := true })) s.power.trip)

/-! ### The die bridge (R497) -/

/-- A flit fails its CRC and is replayed; traffic waits meanwhile. -/
def execBridgeCrcFail (s : State) : Out :=
  if bridgeOff s || !s.pins.railsUp then notNow
  else .next (setFab s { s.fab with bridgeReplays := (s.glob.timestamp :: s.fab.bridgeReplays).take 64 })

/-- 64 replays within 1 ms: the bridge retrains. -/
def execBridgeRetrain (s : State) : Out :=
  if bridgeOff s || !replayLimit s s.fab.bridgeReplays then notNow
  else .next (setFab s { s.fab with bridgeReplays := [] })

/-- Retraining fails: the domain goes OFF without a drain, and commands that need it end. -/
def execBridgeRetrainFail (s : State) : Out :=
  if bridgeOff s || !replayLimit s s.fab.bridgeReplays then notNow
  else .next (setDevEvent (cutDomain (setFab s { s.fab with bridgeReplays := [] }) dBridge) eBridge)

end Sys2Proof.Machine
end

