-- ==== Sys2Proof/Machine/Snap.lean ====
section
/-!
DEFINITION. `MG.SNAPSHOT` (R376, R509 to R512): a save, whole into host memory or through the device's own window table and in
WRITE packets to a peer's window, and a restore, one part of the image at a time (DESIGN CHOICE, log 43).
-/

namespace Sys2Proof.Machine

/-! ### What a save reads -/

/-- Insert a number into an ascending list. -/
def insertUp (x : Nat) : List Nat → List Nat
  | [] => [x]
  | y :: r => if x ≤ y then x :: y :: r else y :: insertUp x r

/-- The guarded unit of a device address. -/
def unitOf (a : Nat) : Nat := if isHbm a then a / 64 * 64 else a / 512 * 512

/-- Whether an address lies in a section that a save carries. -/
def inImage (s : State) (a : Nat) : Bool :=
  if isHbm a then !domainDark s (64 + a / stackBytes) else isBench a && !domainDark s (latheOf a / 2)

/-- The units that may not read, in the image's order: bench rows, then HBM sectors. -/
def doubtful (s : State) : List Nat :=
  let us := (s.mems.poison ++ s.mems.upsets.filterMap fun x =>
    match x with | .hbm a _ => some a | .bench a _ => some (unitOf a) | _ => none).dedup.filter (inImage s)
  let us := us.foldr insertUp []
  us.filter isBench ++ us.filter isHbm

/-- Read the doubtful units: which do not read, each with a log entry of its own, and the flags (R484 to R486, R488, R511). -/
def saveUnits (o : Op) : State → List Nat → State × BitVec 8 × List Nat
  | s, [] => (s, 0#8, [])
  | s, u :: r =>
    match guardUnit s u with
    | (s', f, e) =>
      let (t, g, bad) := saveUnits o (match e with | some e => vlogAdd s' (opLog s' o e) | none => s') r
      (t, f ||| g, if e.isSome then u :: bad else bad)

/-- The accumulator words with an error of the pairs that are saved, in the image's order (R488). -/
def doubtfulAcc (s : State) : List (Nat × Nat) :=
  let keys := (s.mems.upsets.filterMap fun x =>
    match x with | .acc i k e _ => if pdOn s (i / 128) then some (i * 2 ^ 32 + 256 * k + e) else none | _ => none).dedup
  (keys.foldr insertUp []).map fun n => (n / 2 ^ 32, n % 2 ^ 32)

/-- What follows an accumulator word of a save that does not read (R489, R503): a set that stands open there is lost. -/
def accLost (s : State) (x : Nat × Nat) : State :=
  noteAccErr (if (getSpindle s x.1).opened.any fun w => w.set == setOfSlot (x.2 / 256) then loseSpindle s x.1 else s) x.1

/-- Count every sector of the stacks read or written (R583). -/
def countStacks (s : State) (write : Bool) (ks : List Nat) : State :=
  if s.perf.freeze then s
  else { s with perf := { s.perf with hbm := ks.foldl (fun t k =>
    let i := 2 * k + b2n write
    tput 0#64 t i (tget 0#64 t i + BitVec.ofNat 64 (stackBytes / 64))) s.perf.hbm } }

/-! ### The image of a save -/

/-- The state of a set as a byte. -/
def setCode (x : SetState) : Nat := match x with | .free => 0 | .working => 1 | .opened => 2 | .draining => 3
def setOfCode (n : Nat) : SetState := match n with | 1 => .working | 2 => .opened | 3 => .draining | _ => .free

/-- What an open set is, and the next-set pointer, as bytes. -/
def openBytes (sp : Spindle) : List Byte :=
  match sp.opened with
  | some w => leBytes 1 (1 + 2 * w.set + 4 * b2n w.rough.isSome + 8 * b2n sp.next1) ++ leBytes 1 w.q ++ leBytes 8 (w.rough.getD 0)
  | none => leBytes 1 (8 * b2n sp.next1) ++ leBytes 9 0

/-- A spindle's tags, set states, open set and recorded placements (R376). -/
def recordTail (sp : Spindle) : List Byte :=
  (List.range 8).flatMap (fun k => leBytes 2 (tget 0#16 sp.tags k).toNat) ++ leBytes 1 (setCode sp.set0) ++ leBytes 1 (setCode sp.set1)
    ++ openBytes sp ++ leBytes 4 sp.tiles.length
    ++ sp.tiles.flatMap fun t => leBytes 4 t.slot ++ leBytes 4 t.batch ++ leBytes 4 t.fed0 ++ leBytes 4 t.held0

/-- The entries of a slot, or of a place beside the slots, at an offset. -/
def slotCells (off : Nat) (sp : Spindle) (k : Nat) : List Host.Cell :=
  (sp.acc.filter fun e => e.1 / 256 = k).flatMap fun e => cellsOf (off + 8 * (e.1 % 256)) (leBytes 8 e.2.toNat)

/-- The cells of a spindle's record at an offset. -/
def recordCells (off : Nat) (sp : Spindle) : List Host.Cell :=
  (List.range 8).flatMap (fun k => slotCells (off + 2048 * k) sp k) ++ cellsOf (off + 16384) (recordTail sp)
    ++ (spindleExtras sp).zipIdx.flatMap fun x =>
      let a := off + recordLen sp.tiles.length x.2
      slotCells a sp x.1 ++ cellsOf (a + 2048) (leBytes 2 (tget 0#16 sp.tags x.1).toNat)

/-- The records of spindles one after another. -/
def recordsCells (s : State) : Nat → List Nat → List Host.Cell
  | _, [] => []
  | off, i :: r => recordCells off (getSpindle s i) ++ recordsCells s (off + recordBytes (getSpindle s i)) r

/-- The spindles of a pair. -/
def pairSpindles (p : Nat) : List Nat := (List.range 128).map (128 * p + ·)

/-- The cells of a section at its offset, with the units that do not read as zeros (R511). -/
def sectionCells (s : State) (bad : List Nat) (i : Nat) : List Host.Cell :=
  let off := sectionOff s i
  if absentSection s i then []
  else if i = 0 then cellsOf off ((List.range 128).flatMap fun k => leBytes 4 (keepReg s k).toNat)
  else if i < 65 then (if pdOn s (i - 1) then recordsCells s off (pairSpindles (i - 1)) else [])
  else (s.mems.dev.filter fun c => inRange (sectionLo i) (sectionHi i) c.1 && !bad.contains (unitOf c.1)).map fun c =>
    (off + (c.1 - sectionLo i), c.2)

/-- The mark of a header. -/
def snapMark : Nat := 0x4E53323931384A48

/-- The header's cells: the section table with each section's offset, length, CRC-32C and whether it is present, the fence map
and the poison list (R376, R511, R512). -/
def headerCells (s : State) (bad : List Nat) (cells : List Host.Cell) : List Host.Cell :=
  let table := (List.range 137).flatMap fun i =>
    let a := sectionOff s i
    let n := sectionLen s i
    leBytes 8 a ++ leBytes 8 n ++ leBytes 4 (crc32cCells cells a (a + n)) ++ leBytes 4 (b2n (!absentSection s i))
  let body := cellsOf 16 table ++ cellsOf 0x1000 (fenceMap s) ++ cellsOf 0x1600 (bad.flatMap (leBytes 8))
  cellsOf 0 (leBytes 8 snapMark ++ leBytes 4 bad.length ++ leBytes 4 (crc32cCells body 16 0xA000)) ++ body

/-- The section that holds a device address. -/
def sectionOf (a : Nat) : Nat := if isHbm a then 129 + a / stackBytes else 65 + latheOf a / 2

/-- Cells in canonical form. -/
def sortCells (cs : List Host.Cell) : List Host.Cell := cs.foldl (fun m c => memPut m c.1 c.2) []

/-- What a save sends: the image, its end, and why it ends before its header, if it does. A save that stops at a section sends
those before it, and no header (R510). -/
structure Shot where
  s : State
  flags : BitVec 8
  image : List Host.Cell
  stop : Nat
  fail : Option Fail

/-- A save up to a section. -/
def partShot (s : State) (flags : BitVec 8) (bad : List Nat) (n : Nat) (e : Fail) : Shot :=
  ⟨s, flags, sortCells ((List.range n).flatMap (sectionCells s bad)), sectionOff s n, some e⟩

/-- A save reads the device (R376, R488, R489, R511, R512). -/
def takeShot (s0 : State) (o : Op) : Shot :=
  match guardAcc s0 (doubtfulAcc s0) with
  | (s, f, some x) =>
    let e := { failAt cEcc (latheBase (x.1 / 64)) with detail := x.2 / 256 % 8 + x.2 % 256 * 8 }
    let t := partShot s f [] (x.1 / 128 + 1) e
    { t with s := accLost s x }
  | (s, f, none) =>
    let (s, g, bad) := saveUnits o s (doubtful s)
    let s := countStacks s false ((List.range 8).filter fun k => !domainDark s (64 + k))
    match bad[4096]? with
    | some u => partShot s (f ||| g) bad (sectionOf u) (failAt cEcc u)
    | none =>
      let cells := (List.range 137).flatMap (sectionCells s bad)
      ⟨s, f ||| g, sortCells (headerCells s bad cells ++ cells), imageLen s, none⟩

/-! ### Ways -/

/-- Where the image of a `MG.SNAPSHOT` stands: in host memory, in a window of the device itself, or in a peer's. -/
inductive SnapWay where
  | host | own | peer
  deriving DecidableEq, Repr

def wayOf (s : State) (o : Op) : SnapWay := if !snToPeer o then .host else if snPeer o = devId s then .own else .peer

/-- Pieces of a part of the image: offsets and lengths, cut at 4 KiB window offsets (R405). -/
def imgPieces (lo hi n : Nat) : List (Nat × Nat) := (cutAt lo 4096 n 0 (hi - lo)).map fun p => (lo + p.1, p.2)

/-- All pieces of a part. -/
def allPieces (lo hi : Nat) : List (Nat × Nat) := imgPieces lo hi ((hi - lo) / 4096 + 2)

/-- The transfer that a part is (DESIGN CHOICE, log 43). -/
def partInfo (s : State) (lo hi : Nat) : XferInfo := ⟨s.fab.xfers % 2 ^ 32, (allPieces lo hi).length, hi - lo, lo⟩

/-- How far a batch of at most 1,024 packets goes (R395). -/
def batchEnd (pos hi : Nat) : Nat := min hi ((pos / 4096 + 1024) * 4096)

/-- Queue the next packets of a job's first part, WRITEs of a save or READs of a restore. -/
def sendBatch (s : State) (o : Op) (j : SnapJob) (lo hi : Nat) : State :=
  let t := partInfo s lo hi
  let mk := fun (p : Nat × Nat) => (⟨o.q, o.tag, snPeer o,
    mkPacket { kind := if snRestore o then kRead else kWrite, vc := 0, src := devId s, dst := snPeer o, win := snWin o, off := p.1
               body := writeBody p.2 t } [], p.1, p.2⟩ : Piece)
  let s := { s with snap := some { j with pos := batchEnd j.pos hi } }
  pump (setFab s { s.fab with pieces := s.fab.pieces ++ (imgPieces j.pos hi 1024).map mk })

/-- Begin a job's first part. -/
def beginPart (s : State) (o : Op) (j : SnapJob) : State :=
  match j.parts with
  | (_, lo, hi) :: _ =>
    let s := countXfer s
    sendBatch s o { j with pos := lo, got := [] } lo hi
  | [] => s

/-- Why a peer's window cannot be reached at the start of a snapshot (R18, R394). -/
def peerCut (s : State) (o : Op) : Option Fail :=
  if (routeTo s (snPeer o)).isNone then some (failAt cLinkDown (latheBase 0))
  else if routeCut s (snPeer o) then some eastCut
  else none

/-- End a `MG.SNAPSHOT`. -/
def endSnap (s : State) (o : Op) (flags : BitVec 8) (e : Option Fail) : State :=
  match e with
  | some e => stopWith s o flags e
  | none => endOk { s with snap := none } o flags

/-! ### Save -/

/-- Put an image's part into host memory; what stood in its place is gone (R510). -/
def putHost (s : State) (o : Op) (x : Shot) : State :=
  let fn := opFunc s o
  let at_ := fun (a : Nat) => hostKey fn (snAddr o) + a
  let lo := if x.fail.isSome then 0xA000 else 0
  { s with mems := { s.mems with
    host := (x.image.filter fun c => inRange lo x.stop c.1).foldl (fun m c => memPut m (at_ c.1) c.2)
      (memClear s.mems.host (at_ lo) (at_ x.stop)) } }

/-- A save into host memory (R440, R509). -/
def saveHost (s : State) (o : Op) : Res :=
  match hostFault s (opFunc s o) (.data []) (snAddr o) 1 with
  | some e => ⟨s, 0#8, some e⟩
  | none =>
    let x := takeShot s o
    ⟨putHost x.s o x, x.flags, x.fail⟩

/-- Write pieces of an image through the device's own window table (R394, R509). -/
def ownWrites (o : Op) (m : List Host.Cell) (t : XferInfo) : List (Nat × Nat) → State → State × BitVec 8 × Option Fail
  | [], s => (s, 0#8, none)
  | p :: r, s =>
    match remoteWrite s (devId s) (snWin o) p.1 0 (memRead m p.1 p.2) t with
    | (u, f, some e) => (u, f, some (remoteFail (devId s) e.code e.addr))
    | (u, f, none) => let (v, g, e) := ownWrites o m t r u; (v, f ||| g, e)

/-- Write a part of an image through the device's own window table. -/
def ownPut (o : Op) (m : List Host.Cell) (lo hi : Nat) (s : State) : State × BitVec 8 × Option Fail :=
  let u := countXfer s
  ownWrites o m (partInfo u lo hi) (allPieces lo hi) u

/-- The header of an image follows its sections, once they are written (R510). -/
def putHeader (o : Op) (x : Shot) (r : State × BitVec 8 × Option Fail) : Res :=
  match r with
  | (s, f, some e) => ⟨s, x.flags ||| f, some e⟩
  | (s, f, none) =>
    match x.fail with
    | some e => ⟨s, x.flags ||| f, some e⟩
    | none =>
      let y := ownPut o x.image 0 0xA000 s
      ⟨y.1, x.flags ||| f ||| y.2.1, y.2.2⟩

/-- A save through the device's own window table, the header last (R510). -/
def saveOwn (s : State) (o : Op) : Res :=
  let x := takeShot s o
  putHeader o x (ownPut o x.image 0xA000 x.stop x.s)

/-- The body of a save that sends no packets (R376, R509 to R512). -/
def saveBody (s : State) (o : Op) (_ : HostReply) : Res :=
  if !pdOn s dBridge then ⟨s, 0#8, some (failAt cDomainOff (latheBase 64))⟩
  else match wayOf s o with
    | .host => saveHost s o
    | _ => saveOwn s o

/-- A save to a peer begins: its image is taken, and its sections go out first. -/
def beginSave (s : State) (o : Op) : Out :=
  if !pdOn s dBridge then .next (endFail s o 0#8 (failAt cDomainOff (latheBase 64)))
  else if s.fab.routesDue then notNow
  else
    match peerCut s o with
    | some e => .next (endFail s o 0#8 e)
    | none =>
      let x := takeShot s o
      let o := { o with phase := .waiting, flags := o.flags ||| x.flags }
      let head := if x.fail.isSome then [] else [(137, 0, 0xA000)]
      .next (beginPart (putOp x.s o) o
        ⟨o.q, o.tag, x.image, (138, 0xA000, x.stop) :: head, 0, [], x.fail.map fun e => (e.code, e.addr, e.detail)⟩)

/-- What a job ends with that has sent all its parts. -/
def shotEnd (j : SnapJob) : Option Fail := j.fail.map fun e => { failAt e.1 e.2.1 with detail := e.2.2 }

/-- A save to a peer goes on once its packets have been answered. -/
def saveOn (s : State) (o : Op) (j : SnapJob) : Out :=
  if xferOpen s o.q o.tag then notNow
  else if o.status ≠ 0 then .next (stopWith s o 0#8 (firstFail o (failPlain 0)))
  else
    match j.parts with
    | (_, lo, hi) :: rest =>
      if j.pos < hi then .next (sendBatch s o j lo hi)
      else if rest.isEmpty then .next (endSnap s o 0#8 (shotEnd j))
      else .next (beginPart s o { j with parts := rest })
    | [] => .next (endSnap s o 0#8 (shotEnd j))

/-- `MG.SNAPSHOT`, save (R376, R509 to R512). -/
def execSnapshotSave (r : OpRef) (s : State) : Out :=
  match findOp s r.q r.tag with
  | none => notNow
  | some o =>
    if snRestore o || opCode o ≠ 0x64 then notNow
    else
      match snapOf s o.q o.tag, o.phase with
      | some j, .waiting => saveOn s o j
      | none, .started => if wayOf s o = .peer then beginSave s o else runBody 0x64 saveBody r s
      | _, _ => notNow

/-! ### Restore -/

/-- Whether an image carries a valid header (R510): its mark, its CRC-32C, and lengths that suit the sections. -/
def headerValid (m : List Host.Cell) : Bool :=
  imgNat m 0 8 == snapMark && imgNat m 12 4 == crc32cCells m 16 0xA000 && (List.range 137).all fun i =>
    let n := (sectionAt m i).len
    if i = 0 then n == 512 else if i < 65 then n == 0 || 128 * recordLen 0 0 ≤ n else n == sectionHi i - sectionLo i

/-- The sections that are present, in table order. -/
def sectionsOf (m : List Host.Cell) : List Section := ((List.range 137).map (sectionAt m)).filter (·.present)

/-- The units that an image lists as poisoned. -/
def poisonList (m : List Host.Cell) : List Nat := (List.range (min 4096 (imgNat m 8 4))).map fun i => imgNat m (0x1600 + 8 * i) 8

/-- The first present section whose domain does not let it be written, in table order (R512). -/
def restoreCheck (s : State) (m : List Host.Cell) : Option Fail :=
  ((sectionsOf m).find? fun x => x.num ≠ 0 &&
    !(if x.num < 129 then latheUp s (2 * sectionPd x.num) else stackUp s (x.num - 129))).map fun x => sectionFail cDomainOff x.num

/-- Write one range from an image: its bytes and its poison (R511, R512). -/
def restoreRange (m : List Host.Cell) (x : Section) (s : State) : State :=
  let here := inRange (sectionLo x.num) (sectionHi x.num)
  { s with mems := { s.mems with
    dev := (devCells m x).foldl (fun m c => memPut m c.1 c.2) (memClear s.mems.dev (sectionLo x.num) (sectionHi x.num))
    poison := (s.mems.poison.filter fun u => !here u) ++ (poisonList m).filter here
    upsets := s.mems.upsets.filter fun u => match u with | .hbm a _ => !here a | .bench a _ => !here a | _ => true } }

/-- What a spindle's record says of its open set. -/
def recordOpen (m : List Host.Cell) (a : Nat) : Option OpenSet :=
  let w := imgNat m a 1
  if bit w 0 then some ⟨bits w 1 1, imgNat m (a + 1) 1, if bit w 2 then some (imgNat m (a + 2) 8) else none⟩ else none

/-- The tiles of a record. -/
def recordTiles (m : List Host.Cell) (a : Nat) : List Tile :=
  (List.range (imgNat m (a + 16412) 4)).map fun k =>
    let b := a + 16416 + 16 * k
    ⟨imgNat m b 4, imgNat m (b + 4) 4, imgNat m (b + 8) 4, imgNat m (b + 12) 4⟩

/-- Where the entries and the tags of a record stand: by slot. -/
def recordSlots (a n : Nat) (extras : List Nat) : List (Nat × Nat × Nat) :=
  (List.range 8).map (fun k => (k, a + 2048 * k, a + 16384 + 2 * k))
    ++ extras.zipIdx.map fun x => (x.1, a + recordLen n x.2, a + recordLen n x.2 + 2048)

/-- A spindle as its record at an offset gives it, with its saved sets open (R376, R512), and the record's length. -/
def readRecord (m : List Host.Cell) (a : Nat) (sp : Spindle) : Spindle × Nat :=
  let tiles := recordTiles m a
  let opened := recordOpen m (a + 16402)
  let extras := match opened with | some w => extraSlots w.set tiles | none => []
  let slots := recordSlots a tiles.length extras
  ({ sp with
    acc := slots.foldl (fun x k => (List.range 256).foldl (fun x e =>
      tput 0#64 x (256 * k.1 + e) (BitVec.ofNat 64 (imgNat m (k.2.1 + 8 * e) 8))) x) []
    tags := slots.foldl (fun x k => tput 0#16 x k.1 (BitVec.ofNat 16 (imgNat m k.2.2 2))) []
    set0 := setOfCode (imgNat m (a + 16400) 1), set1 := setOfCode (imgNat m (a + 16401) 1), next1 := bit (imgNat m (a + 16402) 1) 3
    opened := opened, tiles := tiles }, recordLen tiles.length extras.length)

/-- Read the records of spindles one after another; what was wrong in their stores is overwritten. -/
def readRecords (m : List Host.Cell) : Nat → List Nat → State → State
  | _, [], s => s
  | a, i :: r, s =>
    let x := readRecord m a (getSpindle s i)
    readRecords m (a + x.2) r (dropAcc (setSpindle s i x.1) i fun _ => true)

/-- Mark the sets of an accumulator section open. -/
def restoreSets (m : List Host.Cell) (s : State) (x : Section) : State :=
  if x.num = 0 || 65 ≤ x.num || x.len = 0 then s else readRecords m x.off (pairSpindles (x.num - 1)) s

/-- Write the keep registers as software writes them (R378, R512, R531, R559): each one that its write would refuse, among
them the read-only ones and an anti-rollback version that would fall or rise above the running image's, stays as it is (DESIGN
CHOICE, log 43). -/
def restoreKeepsFrom (m : List Host.Cell) (s : State) : State :=
  let off := (sectionAt m 0).off
  (List.range 128).foldl (fun s i =>
    match keepWrite s i (BitVec.ofNat 32 (imgNat m (off + 4 * i) 4)) with
    | .ok t => t
    | .error _ => s) s

/-- The fence maps agree (R376). -/
def sameFences (s : State) (m : List Host.Cell) : Bool := fenceMap s == memRead m 0x1000 1040

/-- The last step of a restore: keep registers and open sets (R376, R512). -/
def restoreEnd (m : List Host.Cell) (s : State) : State :=
  let s := restoreKeepsFrom m s
  let s := { s with dies := { s.dies with lost := [] } }
  if sameFences s m then (sectionsOf m).foldl (restoreSets m) s else freePairs s fun _ => true

/-- A restore that finds no valid header: the image's first address, which in a peer is the one its window gives it, a free
value here (R510). -/
def noHeader (s : State) (o : Op) : Fail :=
  match wayOf s o with
  | .host => { code := cEcc, addr := snAddr o % 2 ^ 48, kind := 2 }
  | .own => { code := cEcc, addr := (getWindow s (snWin o)).base.toNat, kind := 3, remote := devId s }
  | .peer => { code := cEcc, addr := Config.freeNat s.freeIdx % 2 ^ 48, kind := 3, remote := snPeer o }

/-- A section whose CRC-32C matches is written; the accumulator sections and the keep section are held back, the sets of the
pair free meanwhile (R512). -/
def writeSection (m : List Host.Cell) (x : Section) (s : State) : State :=
  if x.num = 0 then s
  else if x.num < 65 then freePairs s fun p => p = x.num - 1
  else restoreRange m x (if x.num < 129 then s else countStacks s true [x.num - 129])

/-- The image without the bytes of a bench or HBM section, which are written. -/
def dropSection (m : List Host.Cell) (x : Section) : List Host.Cell :=
  if x.num < 65 then m else m.filter fun c => !inRange x.off (x.off + x.len) c.1

/-- The parts of a restore after its header. -/
def restoreParts (m : List Host.Cell) : List (Nat × Nat × Nat) := (sectionsOf m).map fun x => (x.num, x.off, x.off + x.len)

/-- A part of the image has arrived whole: the job with the parts that follow, or why the restore ends. -/
def partArrived (s : State) (o : Op) (j : SnapJob) : State × Except Fail SnapJob :=
  match j.parts with
  | (137, _, _) :: _ =>
    if !headerValid j.image then (nextFree s, .error (noHeader s o))
    else
      match restoreCheck s j.image with
      | some e => (s, .error e)
      | none => (s, .ok { j with parts := restoreParts j.image, got := [] })
  | (i, _, _) :: rest =>
    let x := sectionAt j.image i
    if crc32cCells j.image x.off (x.off + x.len) ≠ x.crc then (s, .error (sectionFail cEcc i))
    else (writeSection j.image x s, .ok { j with parts := rest, image := dropSection j.image x, got := [] })
  | [] => (s, .ok j)

/-- Every section has been verified: the keep registers and the open sets, and the restore ends (R512). -/
def finishRestore (s : State) (o : Op) (j : SnapJob) : State := endOk (restoreEnd j.image { s with snap := none }) o 0#8

/-- What a job makes of a part that has arrived: it goes on by `next`, or ends. -/
def stepRestore (s : State) (o : Op) (j : SnapJob) (next : State → SnapJob → State) : State :=
  match partArrived { s with snap := some j } o j with
  | (t, .error e) => stopWith t o 0#8 e
  | (t, .ok k) => if k.parts.isEmpty then finishRestore t o k else next { t with snap := some k } k

/-- Bytes of host memory arrive for a part: all of them, or those before the first that does not come (R441). -/
def hostPart (s : State) (o : Op) (j : SnapJob) (h : HostReply) (lo hi : Nat) : SnapJob × Option Fail :=
  let fn := opFunc s o
  let base := hostKey fn (snAddr o)
  let upTo := fun (n : Nat) => { j with
    image := (s.mems.host.filter fun c => inRange (base + lo) (base + n) c.1).foldl (fun m c => memPut m (c.1 - base) c.2) j.image
    got := [(lo, n)] }
  match hostFault s fn h (snAddr o + lo) (hi - lo) with
  | none => (upTo hi, none)
  | some e => (upTo (match h with
      | .partly _ bad => (bad.map fun b => b.1 - snAddr o).foldl (fun n b => if lo ≤ b then min n b else n) hi
      | _ => lo), some e)

/-- Bytes arrive for a part through the device's own window table. -/
def ownPart (o : Op) (t : XferInfo) : List (Nat × Nat) → State → SnapJob → State × BitVec 8 × SnapJob × Option Fail
  | [], s, j => (s, 0#8, j, none)
  | p :: r, s, j =>
    match remoteRead s (devId s) (snWin o) p.1 p.2 t with
    | (u, f, .error e) => (u, f, j, some (remoteFail (devId s) e.code e.addr))
    | (u, f, .ok b) => let (v, g, k, e) := ownPart o t r u (j.take p.1 b); (v, f ||| g, k, e)

/-- A restore without packets takes its next part. -/
def localPart (s : State) (o : Op) (j : SnapJob) (h : HostReply) : State :=
  match j.parts with
  | [] => finishRestore s o j
  | (_, lo, hi) :: _ =>
    let (s, f, j, e) : State × BitVec 8 × SnapJob × Option Fail :=
      match wayOf s o with
      | .host => let s := mergeHost s (opFunc s o) h; let x := hostPart s o j h lo hi; (s, 0#8, x.1, x.2)
      | _ => let s := countXfer s; ownPart o (partInfo s lo hi) (allPieces lo hi) s j
    let o := { o with flags := o.flags ||| f }
    match e with
    | some e => stopWith { s with snap := some j } o 0#8 e
    | none => stepRestore (putOp s o) o j fun t _ => t

/-- A restore from a peer begins, with its header. -/
def beginRestore (s : State) (o : Op) (j : SnapJob) : Out :=
  if s.fab.routesDue then notNow
  else
    match peerCut s o with
    | some e => .next (endFail s o 0#8 e)
    | none =>
      let o := { o with phase := .waiting }
      .next (beginPart (putOp s o) o j)

/-- A restore from a peer goes on once its packets have been answered. -/
def restoreOn (s : State) (o : Op) (j : SnapJob) : Out :=
  if xferOpen s o.q o.tag then notNow
  else if o.status ≠ 0 then .next (stopWith s o 0#8 (firstFail o (failPlain 0)))
  else
    match j.parts with
    | (_, lo, hi) :: _ =>
      if j.pos < hi then .next (sendBatch s o j lo hi)
      else .next (stepRestore s o j fun t k => beginPart t o k)
    | [] => .next (finishRestore s o j)

/-- A restore before its first part: its header. -/
def newRestore (o : Op) : SnapJob := ⟨o.q, o.tag, [], [(137, 0, 0xA000)], 0, [], none⟩

/-- `MG.SNAPSHOT`, restore (R376, R510 to R512): one part of the image. -/
def execSnapshotRestore (r : OpRef) (s : State) : Out :=
  match findOp s r.q r.tag with
  | none => notNow
  | some o =>
    if !snRestore o || opCode o ≠ 0x64 then notNow
    else
      match o.phase, snapOf s o.q o.tag, wayOf s o with
      | .started, none, .peer => beginRestore s o (newRestore o)
      | .waiting, some j, .peer => restoreOn s o j
      | .started, j, .host | .started, j, .own => .next (localPart s o (j.getD (newRestore o)) r.host)
      | _, _, _ => notNow

end Sys2Proof.Machine
end

