-- ==== Sys2Proof/Machine/RegMap.lean ====
section
/-!
DEFINITION. BAR0 (ch. 18): which register stands at an offset of a function's BAR0 (R568, R570, R577), what it reads as,
and which requests are refused (R425, R432, R433, R444, R565).
-/

namespace Sys2Proof.Machine

/-- The registers of BAR0 (R568): each 64 bits wide, or 32 where said. -/
inductive Reg where
  | ident (k : Nat)
  | cap (k : Nat)
  | capSpindles (j : Nat)
  | gstat
  | gctl
  | devEvent
  | irqCfg
  | hostCfg
  | timestamp
  /-- 32 bits. -/
  | seed (n : Nat)
  | bar2Win (f : Nat)
  | pwrCtl
  | pwrCap
  | pwrStat
  | thermStat
  | thermSens (j : Nat)
  | hbmTemp
  | pdStat (i : Nat)
  | eccCnt
  | eccLast
  | vlogPtr
  | vlogStat
  | vlog (i w : Nat)
  /-- 32 bits. -/
  | keep (i : Nat)
  /-- 32 bits. -/
  | keepWear (i : Nat)
  | fwStat
  | fwRun (w : Nat)
  | nportStat (p : Nat)
  | nportCnt (p : Nat)
  | win (i w : Nat)
  | perfCtl
  | hbmCount (k : Nat)
  | perf (l i : Nat)
  | sqcfg (q : Nat)
  | sqBase (q : Nat)
  | stqBase (q : Nat)
  | sqHead (q : Nat)
  | stqTail (q : Nat)
  | quotaStatus (q : Nat)
  | qstat (q : Nat)
  | rstat (q w : Nat)
  /-- A 32-bit doorbell. -/
  | sqTail (q : Nat)
  /-- A 32-bit doorbell. -/
  | stqHead (q : Nat)
  | quotaVf (f : Nat)
  | tally (i : Nat)
  | region (l k w : Nat)
  | msixTable (fn v w : Nat)
  | msixPba (fn w : Nat)
  deriving DecidableEq, Repr

/-- Whether a register is 32 bits wide. -/
def Reg.narrow (r : Reg) : Bool :=
  match r with
  | .seed _ | .keep _ | .keepWear _ | .sqTail _ | .stqHead _ => true
  | _ => false

/-- A register of a queue block (R577), at a multiple of 4. -/
def queueReg (q off : Nat) : Option Reg :=
  if off = 0x800 then some (.sqTail q)
  else if off = 0x808 then some (.stqHead q)
  else
    match off / 8 with
    | 0 => some (.sqcfg q)
    | 1 => some (.sqBase q)
    | 2 => some (.stqBase q)
    | 3 => some (.sqHead q)
    | 4 => some (.stqTail q)
    | 5 => some (.quotaStatus q)
    | 6 => some (.qstat q)
    | 8 => some (.rstat q 0)
    | 9 => some (.rstat q 1)
    | _ => none

/-- A register of the physical function's low blocks (R568), below 0x1_0000, at a multiple of 4. -/
def lowReg (off : Nat) : Option Reg :=
  let k := off / 8
  if off < 0x40 then some (.ident k)
  else if off < 0x80 then some (.cap (k - 8))
  else if off < 0x100 then some (.capSpindles (k - 16))
  else if off < 0x1000 then none
  else if off < 0x1100 then
    (match k - 0x200 with
     | 0 => some .gstat
     | 1 => some .gctl
     | 2 => some .devEvent
     | 3 => some .irqCfg
     | 4 => some .hostCfg
     | 6 => some .timestamp
     | 8 | 9 => some (.seed ((off - 0x1040) / 4))
     | _ => none)
  else if off < 0x1100 + 8 * 17 then some (.bar2Win (k - 0x220))
  else if off < 0x2000 then none
  else if off < 0x2060 then
    (match k - 0x400 with
     | 0 => some .pwrCtl
     | 1 => some .pwrCap
     | 2 => some .pwrStat
     | 3 => some .thermStat
     | 4 | 5 | 6 | 7 => some (.thermSens (k - 0x404))
     | 8 => some .hbmTemp
     | _ => some (.pdStat (k - 0x409)))
  else if off < 0x3000 then none
  else if off < 0x3020 then
    (match k - 0x600 with
     | 0 => some .eccCnt
     | 1 => some .eccLast
     | 2 => some .vlogPtr
     | _ => some .vlogStat)
  else if off < 0x4000 then none
  else if off < 0x6000 then some (.vlog ((off - 0x4000) / 32) (k % 4))
  else if off < 0x6200 then some (.keep ((off - 0x6000) / 4))
  else if off < 0x6400 then some (.keepWear ((off - 0x6200) / 4))
  else if off < 0x7000 then none
  else if off < 0x7008 then some .fwStat
  else if off < 0x7018 then some (.fwRun (k - 0xE01))
  else if off < 0x8000 then none
  else if off < 0x8060 then some (if k % 2 = 0 then .nportStat ((off - 0x8000) / 16) else .nportCnt ((off - 0x8000) / 16))
  else none

/-- The register at an offset, a multiple of 4, of the physical function's BAR0 (R568). -/
def pfReg (off : Nat) : Option Reg :=
  let k := off / 8
  if off < 0x1_0000 then lowReg off
  else if off < 0x1_2000 then some (.win ((off - 0x1_0000) / 32) (k % 4))
  else if off < 0x2_0000 then none
  else if off < 0x2_0008 then some .perfCtl
  else if off < 0x2_0100 then none
  else if off < 0x2_0180 then some (.hbmCount (k - 0x4020))
  else if off < 0x2_1000 then none
  else if off < 0x2_3000 then some (.perf ((off - 0x2_1000) / 64) (k % 8))
  else if off < 0x10_0000 then none
  else if off < 0x14_0000 then queueReg ((off - 0x10_0000) / 0x1000) (off % 0x1000)
  else if off < 0x14_0000 + 8 * 17 then some (.quotaVf (k - 0x2_8000))
  else if off < 0x18_0000 then none
  else if off < 0x18_8000 then some (.tally (k - 0x3_0000))
  else if off < 0x20_0000 then none
  else if off < 0x22_0000 then some (.region ((off - 0x20_0000) / 0x400) ((off - 0x20_0000) % 0x400 / 16) (k % 2))
  else if off < 0xFE_0000 then none
  else if off < 0xFE_8000 then some (.msixTable 0 ((off - 0xFE_0000) / 16) (k % 2))
  else if off < 0xFF_0000 then none
  else if off < 0xFF_0100 then some (.msixPba 0 (k - 0x1F_E000))
  else none

/-- The register at an offset of virtual function `f`'s BAR0 (R570). -/
def vfReg (f off : Nat) : Option Reg :=
  let k := off / 8
  if off < 0x4_0000 then queueReg (off / 0x1000) (off % 0x1000)
  else if off < 0x4_0008 then some (.quotaVf f)
  else if off < 0x8_0000 then none
  else if off < 0x8_8000 then some (.tally (k - 0x1_0000))
  else if off < 0xF_0000 then none
  else if off < 0xF_0800 then some (.msixTable f ((off - 0xF_0000) / 16) (k % 2))
  else if off < 0xF_8000 then none
  else if off < 0xF_8010 then some (.msixPba f (k - 0x1_F000))
  else none

def regAt (fn off : Nat) : Option Reg := if fn = 0 then pfReg off else vfReg fn off

/-! ### Offsets of the registers that have rows of their own -/

def queueOff (fn q : Nat) : Nat := (if fn = 0 then 0x10_0000 else 0) + 0x1000 * q
def tallyOff (fn i : Nat) : Nat := (if fn = 0 then 0x18_0000 else 0x8_0000) + 8 * i

/-! ### Values -/

def statCode (p : PdState) : Nat :=
  match p with
  | .settled .on => 0
  | .settled .retain => 1
  | .settled .off => 2
  | .switching _ _ _ _ => 3

def portCode (p : PortState) : Nat :=
  match p with
  | .disabled => 0 | .down => 1 | .training => 2 | .hello => 3 | .up => 4 | .isolated => 5 | .quiesced => 6 | .quiescing => 7

/-- Seconds of the confirmation watchdog that remain, a begun one counted whole (R554, R585, DEDUCED, log 44). -/
def confirmLeft (s : State) : Nat :=
  match s.firm.watchdog with
  | some t => cdiv (t.toNat - s.glob.timestamp.toNat) 100000000
  | none => 0

def sqcfgWord (v : Queue) : Nat :=
  b2n v.enable + b2n v.loc * 2 + b2n v.forerunner * 4 + b2n v.haltOnErr * 8 + v.weight.toNat * 2 ^ 4
    + b2n v.confine * 2 ^ 8 + b2n v.halted * 2 ^ 9 + v.func.toNat * 2 ^ 16 + v.sqLog2.toNat * 2 ^ 24
    + v.stqLog2.toNat * 2 ^ 32 + v.msix.toNat * 2 ^ 48

def gstatWord (s : State) : Nat :=
  let g := s.glob
  b2n g.ready + b2n g.selftest * 2 + b2n g.warm * 4 + b2n g.rolledBack * 8 + b2n g.fwPending * 16
    + g.stFenced.toNat * 2 ^ 8 + g.engBusy.toNat * 2 ^ 16

def winWord (w : Window) : Nat :=
  b2n w.opened + w.peer.toNat * 2 + b2n w.region * 2 ^ 7 + w.base.toNat * 2 ^ 8 + w.size.toNat * 2 ^ 64
    + b2n w.rd * 2 ^ 104 + b2n w.wr * 2 ^ 105 + b2n w.acc * 2 ^ 106 + w.tally.toNat * 2 ^ 107 + w.tunit.toNat * 2 ^ 119
    + w.busy.toNat * 2 ^ 128

def portWord (v : Port) : Nat :=
  portCode v.state + b2n v.laneDegraded * 8 + v.nbrId.toNat * 2 ^ 4 + v.nbrPort.toNat * 2 ^ 10 + b2n v.podMismatch * 2 ^ 13
    + b2n v.miswired * 2 ^ 14 + v.lanesUp.toNat * 2 ^ 16 + v.nbrPod.toNat * 2 ^ 32

/-- Bytes from a list, least first, as a number. -/
def packBytes (xs : List Nat) : Nat := packCodes 8 xs

def thermWord (s : State) : Nat :=
  hottest s 0 16 + (if bridgeOff s then 0 else hottest s 16 32) * 2 ^ 8 + s.power.tjPeak.toNat * 2 ^ 16
    + hottestStack s * 2 ^ 24 + b2n (s.power.limit == 2#2) * 2 ^ 32 + b2n s.power.hot * 2 ^ 33 + b2n s.power.trip * 2 ^ 34

def pwrStatWord (s : State) : Nat :=
  let p := s.power
  p.inputP.toNat + p.peakP.toNat * 2 ^ 16 + p.coreMv.toNat * 2 ^ 32 + p.vinDv.toNat * 2 ^ 42 + p.limit.toNat * 2 ^ 52

def pwrCapWord (s : State) : Nat := s.power.capW.toNat + b2n s.power.capClamped * 2 ^ 16

/-- A register's value. -/
def regNat (s : State) (r : Reg) : Nat :=
  match r with
  | .ident k => (identWord k).toNat
  | .cap k => (capWord s k).toNat
  | .capSpindles j => (capSpindles s j).toNat
  | .gstat => gstatWord s
  | .gctl => 0
  | .devEvent => s.glob.devEvent.toNat
  | .irqCfg => s.glob.vlogVec.toNat + s.glob.devVec.toNat * 2 ^ 16
  | .hostCfg => b2n s.glob.ideEnforce
  | .timestamp => s.glob.timestamp.toNat
  | .seed n => (tget 0#32 s.glob.seed n).toNat
  | .bar2Win f => (tget 0#9 s.glob.bar2Win f).toNat
  | .pwrCtl => s.power.vmaxMv.toNat + s.power.thermTarget.toNat * 2 ^ 16
  | .pwrCap => pwrCapWord s
  | .pwrStat => pwrStatWord s
  | .thermStat => thermWord s
  | .thermSens j => packBytes ((List.range 8).map fun i => junction s (8 * j + i))
  | .hbmTemp => packBytes ((List.range 8).map (stackTemp s))
  | .pdStat i => packCodes 2 ((List.range 32).map fun j => if 32 * i + j < 80 then statCode (pd s (32 * i + j)) else 0)
  | .eccCnt => s.faults.hbmCorr.toNat + s.faults.hbmUncorr.toNat * 2 ^ 16 + s.faults.sramCorr.toNat * 2 ^ 32
      + s.faults.sramUncorr.toNat * 2 ^ 48
  | .eccLast => s.faults.lastAddr.toNat + s.faults.lastKind.toNat * 2 ^ 48
  | .vlogPtr => s.faults.vHead.toNat + s.faults.vTail.toNat * 2 ^ 8 + s.faults.vFill * 2 ^ 16
  | .vlogStat => s.faults.lost.toNat + b2n s.faults.irqEn * 2 ^ 16
  | .vlog i w => bits (tget 0#256 s.faults.vlog i).toNat (64 * w) 64
  | .keep i => (keepReg s i).toNat
  | .keepWear i => keepWearWord s i
  | .fwStat => s.firm.staged.length + stagedCount s * 2 ^ 10 + phaseCode (journal s).phase * 2 ^ 20
      + b2n s.firm.recovery * 2 ^ 23 + b2n (journal s).wdog * 2 ^ 24 + confirmLeft s * 2 ^ 32
  | .fwRun w => if w = 0 then cutFwVer s.firm.executing + cutSecVer s.firm.executing * 2 ^ 32 else Config.fleetId.toNat
  | .nportStat p => portWord (getPort s p)
  | .nportCnt p => (getPort s p).fecCorr.toNat + (getPort s p).discard.toNat * 2 ^ 32 + (getPort s p).downs.toNat * 2 ^ 48
  | .win i w => bits (winWord (getWindow s i)) (64 * w) 64
  | .perfCtl => b2n s.perf.freeze
  | .hbmCount k => (tget 0#64 s.perf.hbm k).toNat
  | .perf l i => (tget 0#64 s.perf.lathe (8 * l + i)).toNat
  | .sqcfg q => sqcfgWord (getQ s q)
  | .sqBase q => (getQ s q).sqBase.toNat
  | .stqBase q => (getQ s q).stqBase.toNat
  | .sqHead q => (getQ s q).sqHead.toNat
  | .stqTail q => (getQ s q).stqTail.toNat
  | .quotaStatus q => (quotaStatus s q).toNat
  | .qstat q => (getQ s q).amax.toNat
  | .rstat q w => if w = 0 then (getQ s q).decided.toNat + (getQ s q).skipped.toNat * 2 ^ 32
      else (getQ s q).audited.toNat + (getQ s q).missed.toNat * 2 ^ 32
  | .sqTail _ => 0
  | .stqHead _ => 0
  | .quotaVf f => (quotaStatus s (64 + f)).toNat
  | .tally i => (getTally s i).toNat
  | .region l k w => leNat (tableBytes s (regionAddr l k + 8 * w) 8)
  | .msixTable fn v w => bits (msixEntry s fn v).toNat (64 * w) 64
  | .msixPba fn w => packCodes 1 ((List.range 64).map fun i => b2n (tget false s.pcie.pba (4096 * fn + 64 * w + i)))

def regWord (s : State) (r : Reg) : BitVec 64 := BitVec.ofNat 64 (regNat s r)

/-! ### Refusals (R425, R432, R433, R444, R447) -/

/-- What BAR0 answers before `GSTAT.READY` and in recovery (R425). -/
def Reg.early (r : Reg) : Bool :=
  match r with
  | .gstat | .ident _ | .cap _ | .capSpindles _ | .fwStat | .fwRun _ | .vlog _ _ | .vlogPtr | .vlogStat
  | .msixTable _ _ _ | .msixPba _ _ => true
  | _ => false

/-- Whether a register is a virtual function's own (R433, R570). -/
def Reg.ownBy (s : State) (fn : Nat) (r : Reg) : Bool :=
  let mine := fun q => (getQ s q).func.toNat == fn
  match r with
  | .sqcfg q | .sqBase q | .stqBase q | .sqHead q | .stqTail q | .quotaStatus q | .qstat q | .rstat q _ | .sqTail q
  | .stqHead q => mine q
  | .tally i => let t := tallyRangeOf s fn; decide (t.1 ≤ i) && decide (i < t.1 + t.2)
  | _ => true

/-- Whether a request of `n` bytes at an offset of a BAR arrives in a secured stream whose address association registers cover
it, or need not (R446, R447). -/
def ideAdmits (s : State) (rq : Req) (bar off n : Nat) : Bool :=
  !s.glob.ideEnforce || (match rq.ide with
    | some i =>
      let v := tget IdeStream.reset s.pcie.ide i
      v.secure && v.bars.any fun r => r.1 == bar && decide (r.2.1 ≤ off ∧ off + n ≤ r.2.2)
    | none => false)

/-- The address a refused access of a register logs: a region entry's device address, else the BAR0 offset (R444, R498). -/
def refusal (code off : Nat) (r : Option Reg) : Fail :=
  match r with
  | some (.region l k w) => failAt code (regionAddr l k + 8 * w)
  | _ => { code := code, addr := off, kind := 4 }

/-- The refusal of a BAR0 access by what the request is, if any: readiness first (R425), then the causes in the order of
R444's table (DEDUCED, log 45). -/
def bar0Refused (s : State) (rq : Req) (off size : Nat) (write : Bool) : Option Fail :=
  let r := regAt rq.fn (off / 4 * 4)
  if !s.glob.ready && !(match r with | some g => g.early | none => false) then some (refusal cDomainOff off r)
  else
  match r with
  | none => some (refusal cAddrRange off none)
  | some g =>
    if (size ≠ 4 && size ≠ 8) || off % size ≠ 0 then some (refusal cAddrRange off none)
    else if rq.fn ≠ 0 && !g.ownBy s rq.fn then some (refusal cAddrRange off r)
    else if write && rq.poisoned then some (refusal cEcc off r)
    else if !ideAdmits s rq 0 off size then some (refusal cAddrRange off r)
    else
      match g with
      | .region l _ _ =>
        if pdServes s write (l / 2) && (l < 64 || pdServes s write dBridge) then none else some (refusal cDomainOff off r)
      | _ => none

/-- The queue whose state a register shows. -/
def Reg.queue (r : Reg) : Option Nat :=
  match r with
  | .sqcfg q | .sqBase q | .stqBase q | .sqHead q | .stqTail q | .qstat q | .rstat q _ | .sqTail q | .stqHead q => some q
  | _ => none

/-- The refusal of an access by the store behind the register: a region entry with a parity error, a tally or a window entry
with a core fault (R490, R491). -/
def storeFault (s : State) (r : Option Reg) (off : Nat) (write : Bool) : Option Fail :=
  match r with
  | some (.region l k w) => if !write && regionBad s l k then some (failAt cEcc (regionAddr l k + 8 * w)) else none
  | some (.tally i) => if coreBad s (.tally i) then some (failReg cEcc off) else none
  | some (.win i _) => if coreBad s (.window i) then some (failReg cEcc off) else none
  | _ => none

/-- The refusal of a BAR0 access, if any. -/
def bar0Fault (s : State) (rq : Req) (off size : Nat) (write : Bool) : Option Fail :=
  match bar0Refused s rq off size write with
  | some e => some e
  | none => storeFault s (regAt rq.fn (off / 4 * 4)) off write

/-- What a host access of a register meets in the store behind it (R482, R490, R491). -/
def touchReg (s : State) (r : Option Reg) (write : Bool) : State :=
  match r with
  | some (.tally i) => if write && !coreBad s (.tally i) then freshTally s i else useCore s (.tally i)
  | some (.win i _) => useCore s (.window i)
  | some (.region l k _) => if !write && regionBad s l k then countUncorr s false else s
  | some g => (match g.queue with | some q => useCore s (.queue q) | none => s)
  | none => s

/-- The state after an access has met the store behind its register, if it gets there. -/
def touchBar0 (s : State) (rq : Req) (off size : Nat) (write : Bool) : State :=
  if (bar0Refused s rq off size write).isSome then s else touchReg s (regAt rq.fn (off / 4 * 4)) write

/-- The log entry of a refused host request (R444, R498). -/
def hostLog (s : State) (rq : Req) (write : Bool) (e : Fail) : State :=
  vlogAdd s { addr := e.addr, kind := e.kind, code := e.code, source := if write then 2 else 1, func := rq.fn }

/-- A refused read completes with Completer Abort, which the function's error registers hold as an advisory non-fatal error
(R444; their bits are PRESUMED, log 69). -/
def hostAbort (s : State) (rq : Req) (e : Fail) : State :=
  let s := hostLog s rq false e
  let f := getFunc s rq.fn
  emit (setFunc s rq.fn { f with aerUncor := f.aerUncor ||| 0x8000#32, aerCor := f.aerCor ||| 0x2000#32 }) (.completerAbort rq.fn)

/-- Whether a function answers memory requests with Unsupported Request (R427, R443); with VF Enable clear no virtual
function is there (PRESUMED, log 50). -/
def unsupportedNow (s : State) (fn : Nat) : Bool :=
  (getFunc s fn).d3hot || !(getFunc s fn).memSpace || (fn ≠ 0 && !s.pcie.vfEnable)

/-- A host request reaches the device: the PCI Express link is up (R424). -/
def hostRow (s : State) (k : State) : Out := if s.glob.cfgUp then .next k else notNow

/-! ### Reads (R565, R566, R461) -/

/-- Bytes of a read that no rule refuses, and the state after it: only the latch of R461 changes. -/
def readReg (s : State) (g : Reg) (off size : Nat) (next : Option Reg) : List Byte × State :=
  let w := (regWord s g).toNat
  if size = 8 then
    (leBytes 8 (if g.narrow then w + (match next with | some h => (regWord s h).toNat * 2 ^ 32 | none => 0) else w), s)
  else
    match g with
    | .timestamp =>
      if off % 8 = 0 then
        (leBytes 4 w, { s with glob := { s.glob with tsLatch := some (BitVec.ofNat 32 (w / 2 ^ 32)) } })
      else
        (leBytes 4 (match s.glob.tsLatch with | some x => x.toNat | none => w / 2 ^ 32), s)
    | _ => (leBytes 4 (if g.narrow || off % 8 = 0 then w else w / 2 ^ 32), s)

/-- A read of BAR0 (R444, R565, R566). -/
def bar0ReadAt (s : State) (rq : Req) (off size : Nat) : State :=
  if unsupportedNow s rq.fn then emit s (.unsupported rq.fn)
  else
    let fault := bar0Fault s rq off size false
    let s := touchBar0 s rq off size false
    match fault, regAt rq.fn (off / 4 * 4) with
    | some e, _ => hostAbort s rq e
    | none, some g =>
      let next := match g with | .sqTail _ | .stqHead _ => none | _ => regAt rq.fn (off + 4)
      let (bs, t) := readReg s g off size next
      emit t (.completion rq.fn bs)
    | none, none => s

/-- A host read of BAR0. -/
def execBar0Read (rq : Req) (offset size : Nat) (s : State) : Out := hostRow s (bar0ReadAt s rq offset size)

/-- A 4-byte read of TIMESTAMP's low half latches the high half (R461). -/
def execTimestampLatchRead (rq : Req) (s : State) : Out :=
  hostRow s (bar0ReadAt s rq 0x1030 4)

end Sys2Proof.Machine
end

