-- ==== Sys2Proof/Machine/RegWrite.lean ====
section
/-!
DEFINITION. Writes of BAR0 (R565 to R567): queue registers and doorbells (R304 to R308, R578), tallies, keep registers,
engine resets (R524), counters, the log's pointers (R500, R501), windows of BAR2, region entries (R166, R569).
-/

namespace Sys2Proof.Machine

/-- A write that a rule drops: logged as BAD_DESCRIPTOR at the register's offset (R305, R334, DEDUCED, log 46). -/
def dropWrite (s : State) (rq : Req) (off : Nat) (r : Reg) : State :=
  hostLog s rq true (refusal cBadDescriptor off (some r))

/-- What the parts of a register that a 4-byte write does not reach are written with: their present value, and nothing
in fields whose written ones act (R565). -/
def keepPart (s : State) (r : Reg) : Nat :=
  match r with
  | .gctl | .devEvent | .eccCnt | .nportCnt _ | .pwrStat | .thermStat => 0
  | .vlogStat => b2n s.faults.irqEn * 2 ^ 16
  | .sqcfg q => sqcfgWord { getQ s q with halted := false }
  | _ => regNat s r

/-- The whole word that a write of `size` bytes at `off` writes to a register (R565, R577). -/
def wholeWord (s : State) (r : Reg) (off size v : Nat) : Nat :=
  if r.narrow then v % 2 ^ 32
  else if size = 8 then v % 2 ^ 64
  else
    let k := keepPart s r
    if off % 8 = 0 then v % 2 ^ 32 + k / 2 ^ 32 * 2 ^ 32 else k % 2 ^ 32 + v % 2 ^ 32 * 2 ^ 32

/-! ### Queue registers (R304 to R308, R578) -/

/-- The fields a write of SQCFG asks for; a virtual function cannot change FUNC and CONFINE (R305). -/
def sqcfgOf (v : Queue) (pf : Bool) (w : Nat) : Queue :=
  { v with
    loc := bit w 1
    forerunner := bit w 2
    haltOnErr := bit w 3
    weight := BitVec.ofNat 4 (bits w 4 4)
    confine := if pf then bit w 8 else v.confine
    func := if pf then BitVec.ofNat 5 (bits w 16 5) else v.func
    sqLog2 := BitVec.ofNat 5 (bits w 24 5)
    stqLog2 := BitVec.ofNat 5 (bits w 32 5)
    msix := BitVec.ofNat 11 (bits w 48 11)
    halted := v.halted && !bit w 9 }

/-- Whether a write of SQCFG is allowed whole (R305, R434, R578). -/
def sqcfgSound (v n : Queue) : Bool :=
  (!v.enable || (n.loc == v.loc && n.func == v.func && n.sqLog2 == v.sqLog2 && n.stqLog2 == v.stqLog2))
    && decide (n.func.toNat ≤ 16)
    && decide (4 ≤ n.sqLog2.toNat) && decide (n.sqLog2.toNat ≤ 16)
    && decide (4 ≤ n.stqLog2.toNat) && decide (n.stqLog2.toNat ≤ 16)
    && (n.func == 0#5 || decide (n.msix.toNat ≤ 127))

/-- A queue that goes into service (R306). -/
def startQueue (n : Queue) : Queue :=
  { n with
    enable := true, halted := false, phase := true, sqHead := 0#16, sqTail := 0#16, stqHead := 0#16, stqTail := 0#16
    resetting := false, returning := none, deferred := [], relaySlots := [] }

/-- The counts of R413 and the expert maps of R419 begin anew when a queue is enabled. -/
def forgetColls (s : State) (q : Nat) : State :=
  { s with head := { s.head with
    collCount := s.head.collCount.filter fun e => e.1.1 ≠ q
    expertMaps := s.head.expertMaps.filter fun e => e.queue ≠ q } }

/-- The forced end of a queue reset: the replies not yet written are dropped (R525). -/
def forceReset (s : State) (q : Nat) : State :=
  modQ s q Queue.afterReset

/-- A queue that passes to another function holds the limits that function's queues start with: zero for a virtual function's,
the maxima for the physical one's (R338, R339; DESIGN CHOICE, log 66). -/
def assignQueue (s : State) (q : Nat) (v n : Queue) : State :=
  if n.func == v.func then s else setLimits s q (if n.func == 0#5 then Limits.cold 64 else Limits.cold 65)

/-- A write of SQCFG (R305, R306, R525, R578). -/
def writeSqcfg (s : State) (rq : Req) (q off w : Nat) : State :=
  let v := getQ s q
  let n := sqcfgOf v (rq.fn == 0) w
  if !sqcfgSound v n then dropWrite s rq off (.sqcfg q)
  else if bit w 0 then
    if v.enable then setQ s q n else setQ (forgetColls (assignQueue s q v n) q) q (startQueue n)
  else if !v.enable then setQ (assignQueue s q v n) q n
  else if v.resetting then forceReset (setQ s q n) q
  else resetQueue (setQ s q n) q

/-- A doorbell of the submission ring (R305, R307). -/
def writeSqTail (s : State) (rq : Req) (q off w : Nat) : State :=
  let i := bits w 0 16
  if 2 ^ (getQ s q).sqLog2.toNat ≤ i then dropWrite s rq off (.sqTail q)
  else modQ s q fun v => { v with sqTail := BitVec.ofNat 16 i }

/-- A doorbell of the status ring releases replies (R305, R308), on a gateway the target's copies with them (R411). -/
def writeStqHead (s : State) (rq : Req) (q off w : Nat) : State :=
  let v := getQ s q
  let i := bits w 0 16
  let n := 2 ^ v.stqLog2.toNat
  if n ≤ i then dropWrite s rq off (.stqHead q)
  else releaseCopies (setQ s q { v with stqHead := BitVec.ofNat 16 i }) q ((i + n - v.stqHead.toNat) % n)

/-- A ring's base address (R304, R305). -/
def baseSound (v : Queue) (w : Nat) : Bool := !v.enable && w % 4096 == 0

/-- A write of QSTAT.AMAX: a negative, infinite or NaN value is dropped (R579, DEDUCED, log 47). -/
def writeQstat (s : State) (rq : Req) (q off w : Nat) : State :=
  let a := bits w 0 32
  if bit a 31 || bits a 23 8 == 255 then dropWrite s rq off (.qstat q)
  else modQ s q fun v => { v with amax := BitVec.ofNat 32 a }

/-! ### Engine reset (R520, R524) -/

/-- Every accumulator set of every spindle is free and the units idle (R120, R122). -/
def freeAllSets (s : State) : State :=
  { s with dies := { s.dies with
    lost := []
    spindles := (s.dies.spindles.map fun e => (e.1, e.2.clean)).filter fun e => e.2 != Spindle.idle } }

/-- Reset engine class `c` (R521, R524). -/
def resetEngine (s : State) (c : Nat) : State :=
  let s := abortOps s fun o => classOf (opCode o) == c + 1
  let s := if c = 0 then freeAllSets s else s
  let s := if c = 3 then (List.range 64).foldl endRelays s else s
  { s with glob := { s.glob with engBusy := s.glob.engBusy ||| BitVec.ofNat 4 (2 ^ c) } }

/-- A write of GCTL. -/
def writeGctl (s : State) (w : Nat) : State :=
  ((List.range 4).filter (bit w)).foldl resetEngine s

/-! ### Global registers -/

/-- Clear bits of DEV_EVENT; CORE_FAULT stays (R502). -/
def writeDevEvent (s : State) (w : Nat) : State :=
  { s with glob := { s.glob with devEvent := s.glob.devEvent &&& ~~~(BitVec.ofNat 4 w &&& ~~~eCoreFault) } }

def writeIrqCfg (s : State) (w : Nat) : State :=
  { s with glob := { s.glob with vlogVec := BitVec.ofNat 11 (bits w 0 11), devVec := BitVec.ofNat 11 (bits w 16 11) } }

def writeHostCfg (s : State) (w : Nat) : State := { s with glob := { s.glob with ideEnforce := bit w 0 } }

def writeSeed (s : State) (n w : Nat) : State :=
  { s with glob := { s.glob with seed := tput 0#32 s.glob.seed n (BitVec.ofNat 32 w) } }

/-- A window base above 383 is dropped (R436). -/
def writeBar2Win (s : State) (rq : Req) (f off w : Nat) : State :=
  let b := bits w 0 9
  if 383 < b then dropWrite s rq off (.bar2Win f)
  else { s with glob := { s.glob with bar2Win := tput 0#9 s.glob.bar2Win f (BitVec.ofNat 9 b) } }

/-- The governor's limits (R468). -/
def writePwrCtl (s : State) (rq : Req) (off w : Nat) : State :=
  let v := bits w 0 10
  let t := bits w 16 7
  if v < 450 || 800 < v || v % 5 ≠ 0 || t < 60 || 100 < t then dropWrite s rq off .pwrCtl
  else setPower s { s.power with vmaxMv := BitVec.ofNat 10 v, thermTarget := BitVec.ofNat 7 t }

def writePwrStat (s : State) (w : Nat) : State :=
  setPower s { s.power with peakP := if bits w 16 16 = 0 then s.power.peakP else 0#16 }

/-- TJ_PEAK, and TRIP unless a junction reads 95 °C or above (R479, R480). -/
def writeThermStat (s : State) (w : Nat) : State :=
  setPower s { s.power with
    tjPeak := if bits w 16 8 = 0 then s.power.tjPeak else 0#8
    trip := s.power.trip && !(bit w 34 && decide (hottest s 0 32 < 95)) }

def writeEccCnt (s : State) (w : Nat) : State :=
  let f := s.faults
  { s with faults := { f with
    hbmCorr := if bits w 0 16 = 0 then f.hbmCorr else 0#16
    hbmUncorr := if bits w 16 12 = 0 then f.hbmUncorr else 0#12
    sramCorr := if bits w 32 16 = 0 then f.sramCorr else 0#16
    sramUncorr := if bits w 48 12 = 0 then f.sramUncorr else 0#12 } }

/-- Entries a write of HEAD releases. -/
def released (s : State) (w : Nat) : Nat := (bits w 0 8 + 256 - s.faults.vHead.toNat) % 256

/-- A write of VLOG_PTR.HEAD (R500, R501, DEDUCED, log 48). -/
def writeVlogPtr (s : State) (rq : Req) (off w : Nat) : State :=
  let k := released s w
  if s.faults.vFill < k then dropWrite s rq off .vlogPtr
  else
    let s := { s with faults := { s.faults with
      vHead := BitVec.ofNat 8 (bits w 0 8), vFill := s.faults.vFill - k } }
    if s.faults.vFill ≠ 0 && s.faults.irqEn then raiseMsix s 0 s.glob.vlogVec.toNat else s

def writeVlogStat (s : State) (w : Nat) : State :=
  { s with faults := { s.faults with
    lost := if bits w 0 16 = 0 then s.faults.lost else 0#16, irqEn := bit w 16 } }

/-- A write of a keep register: stored with wear counting, or dropped with its code (R531, R536, R581). -/
def writeKeep (s : State) (rq : Req) (i w : Nat) : State :=
  match keepWrite s i (BitVec.ofNat 32 w) with
  | .ok t => t
  | .error e => hostLog s rq true { code := e.code, addr := keepAddr i, kind := 4 }

/-- Freeze and clear act on every counter at once (R583). -/
def writePerfCtl (s : State) (w : Nat) : State :=
  { s with perf :=
    { freeze := bit w 0
      lathe := if bit w 1 then [] else s.perf.lathe
      hbm := if bit w 1 then [] else s.perf.hbm } }

/-- Counters that writing 1 to any bit clears (R390). -/
def writeNportCnt (s : State) (p w : Nat) : State :=
  let v := getPort s p
  setPort s p { v with
    fecCorr := if bits w 0 32 = 0 then v.fecCorr else 0#32
    discard := if bits w 32 16 = 0 then v.discard else 0#16
    downs := if bits w 48 16 = 0 then v.downs else 0#16 }

/-- A region's entry: a write that reaches its low word enables or disables the region, or is dropped (R166, R569). -/
def writeRegion (s : State) (rq : Req) (l k w off v : Nat) : State :=
  if w ≠ 0 then s
  else
    match regionWrite s l k v with
    | some t => t
    | none => dropWrite s rq off (.region l k 0)

/-- A word of an MSI-X entry, whose reserved vector-control bits read zero (PRESUMED, log 49); messages that the write unmasks
go out (R432). -/
def writeMsix (s : State) (fn v w x : Nat) : State :=
  let old := (msixEntry s fn v).toNat
  let new := setBits old (64 * w) 64 (if w = 0 then x else x % 2 ^ 33)
  flushMsix { s with pcie := { s.pcie with msix := tput msixReset s.pcie.msix (4096 * fn + v) (BitVec.ofNat 128 new) } } fn

/-! ### The write -/

/-- Write the whole word `w` to a register; a read-only one ignores it (R566). -/
def writeReg (s : State) (rq : Req) (r : Reg) (off w : Nat) : State :=
  match r with
  | .gctl => writeGctl s w
  | .devEvent => writeDevEvent s w
  | .irqCfg => writeIrqCfg s w
  | .hostCfg => writeHostCfg s w
  | .seed n => writeSeed s n w
  | .bar2Win f => writeBar2Win s rq f off w
  | .pwrCtl => writePwrCtl s rq off w
  | .pwrStat => writePwrStat s w
  | .thermStat => writeThermStat s w
  | .eccCnt => writeEccCnt s w
  | .vlogPtr => writeVlogPtr s rq off w
  | .vlogStat => writeVlogStat s w
  | .keep i => writeKeep s rq i w
  | .nportCnt p => writeNportCnt s p w
  | .perfCtl => writePerfCtl s w
  | .sqcfg q => writeSqcfg s rq q off w
  | .sqBase q => if baseSound (getQ s q) w then modQ s q fun v => { v with sqBase := BitVec.ofNat 64 w } else dropWrite s rq off r
  | .stqBase q => if baseSound (getQ s q) w then modQ s q fun v => { v with stqBase := BitVec.ofNat 64 w } else dropWrite s rq off r
  | .qstat q => writeQstat s rq q off w
  | .rstat q k =>
    let lo := BitVec.ofNat 32 (bits w 0 32)
    let hi := BitVec.ofNat 32 (bits w 32 32)
    modQ s q fun v => if k = 0 then { v with decided := lo, skipped := hi } else { v with audited := lo, missed := hi }
  | .sqTail q => writeSqTail s rq q off w
  | .stqHead q => writeStqHead s rq q off w
  | .tally i => setTally s i (BitVec.ofNat 32 (bits w 0 32))
  | .region l k x => writeRegion s rq l k x off w
  | .msixTable fn v x => writeMsix s fn v x w
  | .ident _ | .cap _ | .capSpindles _ | .gstat | .timestamp | .pwrCap | .thermSens _ | .hbmTemp | .pdStat _ | .eccLast
  | .vlog _ _ | .keepWear _ | .fwStat | .fwRun _ | .nportStat _ | .win _ _ | .hbmCount _ | .perf _ _ | .sqHead _
  | .stqTail _ | .quotaStatus _ | .quotaVf _ | .msixPba _ _ => s

/-- A write of BAR0 (R444, R565). A function that answers with Unsupported Request takes no write (R427). -/
def bar0WriteAt (s : State) (rq : Req) (off size : Nat) (v : BitVec 64) : State :=
  if unsupportedNow s rq.fn then s
  else
    let fault := bar0Fault s rq off size true
    let s := touchBar0 s rq off size true
    match fault, regAt rq.fn (off / 4 * 4) with
    | some e, _ => hostLog s rq true e
    | none, none => s
    | none, some r =>
      let t := writeReg s rq r off (wholeWord s r off size v.toNat)
      match r with
      | .seed n => if size = 8 then writeReg t rq (.seed (n + 1)) (off + 4) (v.toNat / 2 ^ 32) else t
      | .keep i => if size = 8 then writeReg t rq (.keep (i + 1)) (off + 4) (v.toNat / 2 ^ 32) else t
      | _ => t

/-- A register with no row of its own, and the general form of every write. -/
def execRegisterWrite (rq : Req) (offset size : Nat) (value : BitVec 64) (s : State) : Out :=
  hostRow s (bar0WriteAt s rq offset size value)

/-- A write of a register that the physical function's BAR0 holds. From a virtual function the same offset reaches what
its own BAR0 has there, or nothing (R444). -/
def pfWrite (rq : Req) (off size v : Nat) (s : State) : Out := hostRow s (bar0WriteAt s rq off size (BitVec.ofNat 64 v))

def execSqTailDoorbell (rq : Req) (q : Nat) (value : BitVec 16) (s : State) : Out :=
  hostRow s (bar0WriteAt s rq (queueOff rq.fn q + 0x800) 4 (value.setWidth 64))

def execStqHeadDoorbell (rq : Req) (q : Nat) (value : BitVec 16) (s : State) : Out :=
  hostRow s (bar0WriteAt s rq (queueOff rq.fn q + 0x808) 4 (value.setWidth 64))

/-- A write of SQCFG with its whole value; with ENABLE going from 0 to 1 it is a queue's start (R306). -/
def execQueueEnable (rq : Req) (q : Nat) (value : BitVec 64) (s : State) : Out :=
  hostRow s (bar0WriteAt s rq (queueOff rq.fn q) 8 value)

/-- A write of SQCFG; with ENABLE going from 1 to 0 it is a queue reset (R525). -/
def execQueueReset (rq : Req) (q : Nat) (value : BitVec 64) (s : State) : Out :=
  hostRow s (bar0WriteAt s rq (queueOff rq.fn q) 8 value)

/-- A write of SQCFG; with ENABLE 0 while a queue reset waits it ends the wait (R525). -/
def execQueueResetForce (rq : Req) (q : Nat) (value : BitVec 64) (s : State) : Out :=
  hostRow s (bar0WriteAt s rq (queueOff rq.fn q) 8 value)

/-- A write of SQCFG; with HALTED 1 it resumes acceptance (R304). -/
def execQueueResume (rq : Req) (q : Nat) (value : BitVec 64) (s : State) : Out :=
  hostRow s (bar0WriteAt s rq (queueOff rq.fn q) 8 value)

/-- A SET (R322, R576). -/
def execTallyWrite (rq : Req) (i : Nat) (value : BitVec 32) (s : State) : Out :=
  hostRow s (bar0WriteAt s rq (tallyOff rq.fn i) 4 (value.setWidth 64))

def execKeepRegisterWrite (rq : Req) (i : Nat) (value : BitVec 32) (s : State) : Out :=
  pfWrite rq (keepAddr i) 4 value.toNat s

def execEngReset (rq : Req) (mask : BitVec 4) (s : State) : Out := pfWrite rq 0x1008 4 mask.toNat s

/-- An engine's units are idle again (R524). -/
def execEngineResetDone (cls : Nat) (s : State) : Out :=
  if s.glob.engBusy.getLsbD cls then
    .next { s with glob := { s.glob with engBusy := s.glob.engBusy &&& ~~~(BitVec.ofNat 4 (2 ^ cls)) } }
  else notNow

def execPerfFreeze (rq : Req) (freeze : Bool) (s : State) : Out := pfWrite rq 0x2_0000 8 (b2n freeze) s

def execPerfClear (rq : Req) (s : State) : Out := pfWrite rq 0x2_0000 8 (b2n s.perf.freeze + 2) s

def execVlogRelease (rq : Req) (head : BitVec 8) (s : State) : Out := pfWrite rq 0x3010 4 head.toNat s

def execTripClear (rq : Req) (s : State) : Out := pfWrite rq 0x2018 8 (2 ^ 34) s

/-- The low word of an entry of the region table (R166). -/
def execRegionEntryWrite (rq : Req) (lathe k : Nat) (value : BitVec 64) (s : State) : Out :=
  pfWrite rq (0x20_0000 + 0x400 * lathe + 0x10 * k) 8 value.toNat s

def execBar2WinWrite (rq : Req) (f : Nat) (base : BitVec 32) (s : State) : Out :=
  pfWrite rq (0x1100 + 8 * f) 4 base.toNat s

def execQstatWrite (rq : Req) (q : Nat) (value : BitVec 32) (s : State) : Out :=
  hostRow s (bar0WriteAt s rq (queueOff rq.fn q + 0x30) 4 (value.setWidth 64))

end Sys2Proof.Machine
end

