-- ==== Sys2Proof/Machine/HostPort.lean ====
section
/-!
DEFINITION. The host attachment: BAR2 (R435 to R439, R444, R445), function-level resets (R430, R520, R522), D3hot (R427),
Bus Master Enable (R440), the size of BAR2 (R435) and selective IDE streams (R447).
-/

namespace Sys2Proof.Machine

/-! ### BAR2 -/

/-- The device address of an offset of a function's BAR2 (R436). -/
def bar2Addr (s : State) (fn off : Nat) : Nat := (tget 0#9 s.glob.bar2Win fn).toNat * 2 ^ 30 + off

/-- Whether a request lies in the function's BAR2 at all (R435). -/
def inBar2 (s : State) (fn off n : Nat) : Bool := decide (off + n ≤ 2 ^ ((getFunc s fn).bar2Log + 30))

/-- The refusal of a BAR2 request, if any: readiness first (R425), then the causes of R444 in its table's order (DEDUCED, log
45). -/
def bar2Fault (s : State) (rq : Req) (a n : Nat) (write : Bool) : Option Fail :=
  if !s.glob.ready then some (failAt cDomainOff a)
  else if hbmEnd < a + n then some (failAt cAddrRange (max a hbmEnd))
  else
    match (if rq.fn = 0 then none else firstOutside s rq.fn a n) with
    | some x => some (failAt cAddrRange x)
    | none =>
      match refusedIn s write a n with
      | some x => some (failAt cDomainOff x)
      | none =>
        if write && rq.poisoned then some (failAt cEcc a)
        else if !ideAdmits s rq 2 (a - bar2Addr s rq.fn 0) n then some (failAt cAddrRange a)
        else none

def bar2ReadAt (s : State) (rq : Req) (a n : Nat) : State :=
  match bar2Fault s rq a n false with
  | some e => hostAbort s rq e
  | none =>
    match devRead s a n with
    | (s', _, .error e) => hostAbort s' rq e
    | (s', _, .ok bytes) => emit (countHbm s' false (unitsOf a n)) (.completion rq.fn bytes)

def bar2WriteAt (s : State) (rq : Req) (a : Nat) (bytes : List Byte) : State :=
  match bar2Fault s rq a bytes.length true with
  | some e => hostLog s rq true e
  | none =>
    match hbmWrite s a bytes with
    | (s', _, some e) => hostLog s' rq true e
    | (s', _, none) => s'

/-- A host read through BAR2 (R436, R438, R439, R444, R445). -/
def execBar2Read (rq : Req) (offset len : Nat) (s : State) : Out :=
  if !inBar2 s rq.fn offset len then notNow
  else hostRow s (if unsupportedNow s rq.fn then emit s (.unsupported rq.fn)
    else bar2ReadAt s rq (bar2Addr s rq.fn offset) len)

/-- A host write through BAR2 (R436, R438, R439, R444, R445). -/
def execBar2Write (rq : Req) (offset : Nat) (bytes : List Byte) (s : State) : Out :=
  if !inBar2 s rq.fn offset bytes.length then notNow
  else hostRow s (if unsupportedNow s rq.fn then s else bar2WriteAt s rq (bar2Addr s rq.fn offset) bytes)

/-! ### Function-level resets (R430, R520, R522) -/

/-- A queue goes through a queue reset, before its registers return to their reset values with FUNC kept where it is to be
(R522); replies without room are waited for, as in any queue reset (R308, R525; DEDUCED, log 51). -/
def flrQueue (keepFunc : Bool) (s : State) (q : Nat) : State :=
  resetQueue (modQ s q fun v => { v with returning := some keepFunc }) q

/-- The function's configuration and MSI-X table after its reset (R430): the size of BAR2, the largest payload, ASPM and the
error registers stay (PRESUMED, log 50). -/
def flrFunc (s : State) (f : Nat) : State :=
  let v := getFunc s f
  let s := setFunc s f { Func.reset f with
    bar2Log := v.bar2Log, maxPayload := v.maxPayload, aspmL1 := v.aspmL1, aerUncor := v.aerUncor, aerCor := v.aerCor }
  { s with pcie := { s.pcie with msix := tkeep (fun k => k / 4096 != f) s.pcie.msix, pba := tkeep (fun k => k / 4096 != f) s.pcie.pba } }

/-- Free a function's reservations (R336). -/
def freeReservations (s : State) (f : Nat) : State :=
  { s with head := { s.head with reservations := s.head.reservations.filter fun r => r.func ≠ f } }

/-- Close the windows that the given queues opened (R520). -/
def closeWindowsOf (s : State) (qs : List Nat) : State :=
  ((List.range 256).filter fun i => (getWindow s i).opened && qs.contains (getWindow s i).owner).foldl closeWindow s

/-- The queues of a function. -/
def queuesOf (s : State) (f : Nat) : List Nat := (List.range 64).filter fun q => (getQ s q).func.toNat == f

/-- A reset of virtual function `f` (R430, R520, R522). -/
def vfReset (s : State) (f : Nat) : State :=
  let qs := queuesOf s f
  let s := closeWindowsOf (qs.foldl (flrQueue true) s) qs
  let s := freeReservations (flrFunc s f) f
  { s with glob := { s.glob with bar2Win := tput 0#9 s.glob.bar2Win f 0#9 } }

/-- The virtual functions: TotalVFs 16 (R428). -/
def totalVfs : Nat := 16
def vfs : List Nat := (List.range totalVfs).map (· + 1)

/-- A reset of the physical function, and of every virtual one with it (R430, R520, R522). -/
def pfReset (s : State) : State :=
  let s := (List.range 64).foldl (flrQueue false) s
  let s := closeWindowsOf (freeAllSets (unbindOf s fun _ => true)) (List.range 64)
  let s := (0 :: vfs).foldl flrFunc s
  { s with
    head := { s.head with limits := [], tallyRange := [], reservations := [] }
    glob := { s.glob with bar2Win := [], ideEnforce := false } }

/-- A Function Level Reset of a virtual function (R430). -/
def execVfFunctionLevelReset (f : Nat) (s : State) : Out :=
  if f = 0 || 16 < f || !s.pcie.vfEnable then notNow else hostRow s (vfReset s f)

/-- A Function Level Reset of the physical function (R522). -/
def execPfFunctionLevelReset (s : State) : Out := hostRow s (pfReset s)

/-- Clearing VF Enable resets every virtual function (R430). -/
def execVfEnableClear (s : State) : Out :=
  let t := vfs.foldl vfReset s
  hostRow s { t with pcie := { t.pcie with vfEnable := false } }

/-! ### Power states and enables of a function -/

/-- Entry into D3hot changes no other state (R427). -/
def execD3hotEntry (f : Nat) (s : State) : Out :=
  if (getFunc s f).d3hot then notNow else hostRow s (setFunc s f { getFunc s f with d3hot := true })

/-- Return to D0: held interrupts go out, and replies and data writes that waited may proceed (R427). -/
def execD0Return (f : Nat) (s : State) : Out :=
  if !(getFunc s f).d3hot then notNow else hostRow s (flushMsix (setFunc s f { getFunc s f with d3hot := false }) f)

/-- Bus Master Enable changes; once it is set, messages held as pending bits go out (R440). -/
def execBusMasterEnableChange (f : Nat) (on : Bool) (s : State) : Out :=
  if (getFunc s f).busMaster == on then notNow
  else hostRow s (flushMsix (setFunc s f { getFunc s f with busMaster := on }) f)

/-- The size of BAR2: 1 GiB to 512 GiB (R435, R438). -/
def execBar2Resize (f log2GiB : Nat) (s : State) : Out :=
  if 9 < log2GiB then notNow else hostRow s (setFunc s f { getFunc s f with bar2Log := log2GiB })

/-- A selective IDE stream leaves its secure state (R447). -/
def execIdeStreamExit (stream : Nat) (s : State) : Out :=
  let v := tget IdeStream.reset s.pcie.ide stream
  if !v.secure then notNow
  else .next { s with pcie := { s.pcie with ide := tput IdeStream.reset s.pcie.ide stream { v with secure := false } } }

end Sys2Proof.Machine
end

