-- ==== Sys2Proof/Machine/Keys.lean ====
section
/-!
DEFINITION. The device's key seeds (R562): HKDF-SHA-384 (RFC 5869) over the device secret, and the signatures and certificate
chains made with them (R449, R563).
-/

namespace Sys2Proof.Machine

/-- The bytes of an ASCII text. -/
def asciiBytes (t : String) : List Byte := t.toList.map fun c => BitVec.ofNat 8 c.toNat

/-- A key of at most 128 bytes, padded to a block and added to a byte. -/
def hmacPad (b : Byte) (key : List Byte) : List Byte :=
  (key ++ List.replicate (128 - key.length) 0#8).map fun k => k ^^^ b

/-- HMAC-SHA-384. -/
def hmac384 (key msg : List Byte) : List Byte :=
  Config.sha384 (hmacPad 0x5C#8 key ++ Config.sha384 (hmacPad 0x36#8 key ++ msg))

/-- 32 bytes of HKDF-SHA-384: extracted under the salt, expanded under the info field (R562). -/
def hkdf384 (salt ikm info : List Byte) : List Byte := (hmac384 (hmac384 salt ikm) (info ++ [1#8])).take 32

/-- A key's seed, of its label and info field (R562). -/
def keySeed (label : String) (info : List Byte) : List Byte :=
  hkdf384 (leBytes 32 Config.deviceSecret.toNat) (asciiBytes label) info

/-- The DeviceID seed of a certificate slot, for the device's life (R562, R563). -/
def deviceIdSeed (slot : Nat) : List Byte := keySeed (if slot = 0 then "EVK-ID-ED" else "EVK-ID-PQ") []

/-- The alias seed of a slot while an image runs (R562). -/
def aliasSeed (slot : Nat) (x : Image) : List Byte :=
  keySeed (if slot = 0 then "EVK-AL-ED" else "EVK-AL-PQ") (Config.sha384 (signedPart x))

/-- The chain of slot 0 or 1 (R563). -/
def slotChain (s : State) (slot : Nat) : List Byte :=
  Config.certChain slot (deviceIdSeed slot) (aliasSeed slot s.firm.executing) (signedPart s.firm.executing)

/-- The signatures of a message under the alias keys (R449, R563); one of ML-DSA-65 has 3,309 bytes (R450). -/
def edSigned (s : State) (msg : List Byte) : List Byte := Config.edSign (aliasSeed 0 s.firm.executing) msg
def pqSigned (s : State) (msg : List Byte) : List Byte :=
  (Config.pqSign (aliasSeed 1 s.firm.executing) (asciiBytes "SCERAD-SPDM-PQ1") msg ++ List.replicate 3309 0#8).take 3309

end Sys2Proof.Machine
end

