-- ==== Sys2Proof/Machine/Spdm.lean ====
section
/-!
DEFINITION. The DOE mailbox and the SPDM responder (R448 to R452), its certificates and measurements (R563, R564), IDE
key management (R446), and the Evokin recovery object (R560). What the SPDM and PCI Express specifications fix and this
spec does not state is presumed or opaque (PRESUMED, log 52).
-/

namespace Sys2Proof.Machine

/-- The I3C target answers from the first start's event 5 until PWR_EN falls (R590). -/
def i3cUp (s : State) : Bool := s.pins.pwrEn && s.pins.railsUp && !s.glob.coldPending

/-- Whether a transport carries messages to the responder now. -/
def viaUp (s : State) (v : Transport) : Bool :=
  match v with
  | .doe => s.glob.cfgUp
  | .mctp => i3cUp s && s.pins.i3cAddr.isSome

def getSpdm (s : State) (v : Transport) : Spdm := match v with | .doe => s.spdmDoe | .mctp => s.spdmMctp

def setSpdm (s : State) (v : Transport) (x : Spdm) : State :=
  match v with
  | .doe => { s with spdmDoe := x }
  | .mctp => { s with spdmMctp := x }

/-! ### Requests and responses -/

/-- An SPDM request reaches the responder: the signature pending on its transport is kept no longer (R451). In recovery
SPDM is not served (R560): nothing answers. -/
def spdmRow (m : SpdmReq) (s : State) (k : State → State) : Out :=
  if !viaUp s m.via then notNow
  else if s.firm.recovery then .next s
  else .next (k (setSpdm s m.via { getSpdm s m.via with pending := none }))

/-- An error response of SPDM (PRESUMED, log 52): 0x01 InvalidRequest, 0x02 InvalidSession. -/
def spdmRefuse (s : State) (m : SpdmReq) (code : Nat) : State := emit s (.spdmError m.via code)

/-- Whether the session a request travels in is established, or it travels in none. -/
def sessionOk (s : State) (m : SpdmReq) : Bool :=
  match m.session with
  | none => true
  | some n => (getSpdm s m.via).sessions.contains (n, true)

/-- A response whose body the SPDM specification fixes: free here. -/
def spdmPlain (s : State) (m : SpdmReq) (code : Nat) : State :=
  if !sessionOk s m then spdmRefuse s m 0x02
  else emit (nextFree s) (.spdm m.via code (Config.spdmBody s.freeIdx m.body))

/-- A signed response (R449, R563): under the alias keys, an Ed25519 signature over the message M follows its body, and the
ML-DSA-65 signature over the same M is kept. -/
def spdmSigned (s : State) (m : SpdmReq) (code : Nat) (body : List Byte) : State :=
  let mm := Config.spdmBody s.freeIdx (m.body ++ body)
  let s := setSpdm (nextFree s) m.via { getSpdm s m.via with pending := some ⟨code, pqSigned s mm, m.session⟩ }
  emit s (.spdm m.via code (body ++ edSigned s mm))

/-- A signed response with a body the SPDM specification fixes, under slot 0 only (R449). -/
def spdmSignedPlain (s : State) (m : SpdmReq) (slot code : Nat) : State :=
  if !sessionOk s m then spdmRefuse s m 0x02
  else if slot ≠ 0 then spdmRefuse s m 0x01
  else spdmSigned (nextFree s) m code (Config.spdmBody s.freeIdx m.body)

/-- The version that the responder implements: SPDM 1.3 (R448; the layouts of this and the next two answers are PRESUMED, log
52). -/
def versionBytes : List Byte := leBytes 1 0 ++ leBytes 1 1 ++ leBytes 2 0x1300

/-- The responder's capabilities: certificates, challenges, signed measurements, encrypted sessions with key exchange,
heartbeat, key update and chunks, and no mutual authentication (R448). -/
def capabilityFlags : Nat := 2 ^ 1 + 2 ^ 2 + 2 * 2 ^ 3 + 2 ^ 6 + 2 ^ 7 + 2 ^ 9 + 2 ^ 13 + 2 ^ 14 + 2 ^ 17
def capabilityBytes (free : List Byte) : List Byte :=
  let n := leNat free
  leBytes 1 0 ++ leBytes 3 (bits n 0 24) ++ leBytes 4 capabilityFlags ++ leBytes 8 (bits n 24 64)

/-- The algorithms: SHA-384 for measurements, Ed25519, SHA-384, and in their structures secp384r1, AES-256-GCM, no algorithm
for a requester's signature, and SPDM's key schedule (R448). -/
def algorithmBytes : List Byte :=
  let alg := fun (t v : Nat) => leBytes 1 t ++ leBytes 1 0x20 ++ leBytes 2 v
  leBytes 2 52 ++ leBytes 1 1 ++ leBytes 1 0 ++ leBytes 4 4 ++ leBytes 4 0x400 ++ leBytes 4 2 ++ leBytes 12 0 ++ leBytes 4 0
    ++ alg 2 0x10 ++ alg 3 2 ++ alg 4 0 ++ alg 5 1

/-- An answer whose bytes the spec gives, as far as it does. -/
def spdmFixed (s : State) (m : SpdmReq) (code : Nat) (body : List Byte) : State :=
  if !sessionOk s m then spdmRefuse s m 0x02 else emit s (.spdm m.via code body)

def execGetVersion (m : SpdmReq) (s : State) : Out := spdmRow m s fun s => spdmFixed s m 0x04 versionBytes
def execGetCapabilities (m : SpdmReq) (s : State) : Out :=
  spdmRow m s fun s => spdmFixed (nextFree s) m 0x61 (capabilityBytes (Config.spdmBody s.freeIdx m.body))
def execNegotiateAlgorithms (m : SpdmReq) (s : State) : Out := spdmRow m s fun s => spdmFixed s m 0x63 algorithmBytes
def execGetDigests (m : SpdmReq) (s : State) : Out := spdmRow m s fun s => spdmPlain s m 0x01

/-- The portion of a chain that a request asks for by offset and length, with its length and the remainder (PRESUMED, log 52).
-/
def certPortion (req chain : List Byte) : List Byte :=
  let off := leNat ((req.drop 2).take 2)
  let part := (chain.drop off).take (leNat ((req.drop 4).take 2))
  leBytes 2 part.length ++ leBytes 2 (chain.length - off - part.length) ++ part

/-- The chains of slots 0 and 1; slots 2 to 7 are empty (R563). -/
def execGetCertificate (m : SpdmReq) (slot : Nat) (s : State) : Out :=
  spdmRow m s fun s =>
    if !sessionOk s m then spdmRefuse s m 0x02
    else if 1 < slot then spdmRefuse s m 0x01
    else emit s (.spdm m.via 0x02 (certPortion m.body (slotChain s slot)))

def execChallenge (m : SpdmReq) (slot : Nat) (s : State) : Out := spdmRow m s fun s => spdmSignedPlain s m slot 0x03

/-! ### Measurements (R564) -/

/-- Block 9's 16 bytes. -/
def statusBytes (s : State) : List Byte :=
  leBytes 4 (keepReg s 1).toNat ++ leBytes 4 (cutFwVer s.firm.executing) ++ leBytes 1 (phaseCode (journal s).phase)
    ++ leBytes 1 (b2n s.glob.fwPending + b2n s.glob.rolledBack * 2 + b2n s.glob.ideEnforce * 4) ++ leBytes 6 0

/-- A measurement block's value (R564). -/
def measureValue (s : State) (i : Nat) : List Byte :=
  let x := s.firm.executing
  match i with
  | 1 => Config.loaderDigest
  | 2 | 3 | 4 | 5 | 6 | 7 => compDigest x (compOf x (i - 1))
  | 8 => Config.sha384 (signedPart x)
  | 9 => statusBytes s
  | _ => Config.sha384 ((List.range 9).flatMap fun k => leBytes 4 (keepReg s k).toNat)

/-- A block as the DMTF measurement specification wraps it: index, specification, sizes, and the form, raw for block 9
(PRESUMED, log 52). -/
def measureBlock (s : State) (i : Nat) : List Byte :=
  let v := measureValue s i
  leBytes 1 i ++ leBytes 1 1 ++ leBytes 2 (v.length + 3) ++ leBytes 1 (if i = 9 then 0x80 else 0) ++ leBytes 2 v.length ++ v

/-- The blocks a request asks for: one index, or all (PRESUMED, log 52). -/
def measureRecord (s : State) (op : Nat) : List Byte :=
  if op = 0xFF then (List.range 10).flatMap fun i => measureBlock s (i + 1)
  else if 1 ≤ op ∧ op ≤ 10 then measureBlock s op
  else []

/-- GET_MEASUREMENTS, signed or not (R449, R564). -/
def execGetMeasurements (m : SpdmReq) (signed : Bool) (s : State) : Out :=
  spdmRow m s fun s =>
    let op := leNat ((m.body.drop 1).take 1)
    let body := measureRecord s op
    if !sessionOk s m then spdmRefuse s m 0x02
    else if 10 < op && op ≠ 0xFF then spdmRefuse s m 0x01
    else if signed then spdmSigned s m 0x60 body
    else emit s (.spdm m.via 0x60 body)

/-! ### Sessions -/

/-- A number no session of the transport has (PRESUMED, log 52). -/
def newSession (x : Spdm) : Nat := x.sessions.foldl (fun n p => max n (p.1 + 1)) 1

/-- KEY_EXCHANGE opens a session that FINISH establishes (R448, R449). -/
def execKeyExchange (m : SpdmReq) (slot : Nat) (s : State) : Out :=
  spdmRow m s fun s =>
    let t := spdmSignedPlain s m slot 0x64
    if sessionOk s m && slot == 0 then
      setSpdm t m.via { getSpdm t m.via with sessions := (newSession (getSpdm t m.via), false) :: (getSpdm t m.via).sessions }
    else t

/-- FINISH establishes the session. -/
def execFinish (m : SpdmReq) (session : Nat) (s : State) : Out :=
  spdmRow m s fun s =>
    let x := getSpdm s m.via
    if x.sessions.contains (session, false) then
      let s := setSpdm s m.via { x with sessions := x.sessions.map fun p => if p.1 = session then (session, true) else p }
      emit (nextFree s) (.spdm m.via 0x65 (Config.spdmBody s.freeIdx m.body))
    else spdmRefuse s m 0x02

/-- A message that only an established session carries. -/
def inSession (s : State) (m : SpdmReq) (code : Nat) : State :=
  if m.session.isNone then spdmRefuse s m 0x01 else spdmPlain s m code

def execHeartbeat (m : SpdmReq) (s : State) : Out := spdmRow m s fun s => inSession s m 0x68
def execKeyUpdate (m : SpdmReq) (s : State) : Out := spdmRow m s fun s => inSession s m 0x69

/-- END_SESSION ends the session it travels in. -/
def execEndSession (m : SpdmReq) (s : State) : Out :=
  spdmRow m s fun s =>
    let t := inSession s m 0x6C
    let x := getSpdm t m.via
    if sessionOk s m then setSpdm t m.via { x with sessions := x.sessions.filter fun p => some p.1 != m.session } else t

def execChunkSend (m : SpdmReq) (s : State) : Out := spdmRow m s fun s => spdmPlain s m 0x05
def execChunkGet (m : SpdmReq) (s : State) : Out := spdmRow m s fun s => spdmPlain s m 0x06

/-! ### GET_PQ_SIG (R450, R451) -/

/-- The response payload of R450: op, length and body. -/
def pqPayload (op : Nat) (body : List Byte) : List Byte := leBytes 1 1 ++ leBytes 1 op ++ leBytes 2 body.length ++ body

/-- The answer to a GET_PQ_SIG payload, given the signature that was pending when it arrived (R451). -/
def pqAnswer (p : Option PendingSig) (session : Option Nat) (req : List Byte) : List Byte :=
  let at_ := fun i => leNat ((req.drop i).take 1)
  if req.length ≠ 4 || at_ 0 ≠ 1 || at_ 1 ≠ 1 || at_ 3 ≠ 0 then pqPayload 0xFF (leBytes 1 2)
  else
    match p with
    | some g => if g.code = at_ 2 && g.session == session then pqPayload 0x81 g.sig else pqPayload 0xFF (leBytes 1 1)
    | none => pqPayload 0xFF (leBytes 1 1)

/-- A vendor's head of a VENDOR_DEFINED message: StandardID 3 (PCI-SIG), Len 2 and its VendorID (R450; where they stand is
PRESUMED, log 52). -/
def vendorHead (vendor : Nat) : List Byte := leBytes 2 3 ++ leBytes 1 2 ++ leBytes 2 vendor

/-- The payload of a vendor's request, if it bears that head and its length. -/
def vendorPayload (vendor : Nat) (body : List Byte) : Option (List Byte) :=
  let p := body.drop 9
  if (body.drop 2).take 5 == vendorHead vendor && leNat ((body.drop 7).take 2) == p.length then some p else none

def vendorReply (vendor : Nat) (payload : List Byte) : List Byte := vendorHead vendor ++ leBytes 2 payload.length ++ payload

/-- GET_PQ_SIG: a VENDOR_DEFINED_REQUEST of `ID_PCI.VENDOR` (R450, R451); one of another vendor is not supported (PRESUMED,
log 52). -/
def execGetPqSig (m : SpdmReq) (s : State) : Out :=
  let p := (getSpdm s m.via).pending
  let v := Config.vendorId.toNat
  spdmRow m s fun s =>
    if !sessionOk s m then spdmRefuse s m 0x02
    else
      match vendorPayload v m.body with
      | none => spdmRefuse s m 0x07
      | some x => emit s (.spdm m.via 0x7E (vendorReply v (pqAnswer p m.session x)))

/-- What an IDE_KM object does to a stream: KEY_PROG gives it keys, K_SET_GO makes a stream with keys secure, K_SET_STOP ends
that (R446, R447; the objects are PRESUMED, log 52). -/
def kmStream (object : Nat) (v : IdeStream) : IdeStream :=
  match object with
  | 2 => { v with keyed := true }
  | 4 => { v with secure := v.keyed }
  | 5 => { v with secure := false }
  | _ => v

/-- The object that answers one. -/
def kmAnswer (object : Nat) : Nat := match object with | 0 => 1 | 2 => 3 | _ => 6

/-- IDE_KM programs a stream's keys inside a secured session over DOE (R446, R448). -/
def execIdeKm (m : SpdmReq) (stream : Nat) (s : State) : Out :=
  spdmRow m s fun s =>
    if m.via == .mctp || m.session.isNone then spdmRefuse s m 0x01
    else if !sessionOk s m then spdmRefuse s m 0x02
    else
      match vendorPayload 1 m.body with
      | none => spdmRefuse s m 0x07
      | some p =>
        let object := leNat ((p.drop 1).take 1)
        let v := kmStream object (tget IdeStream.reset s.pcie.ide stream)
        emit (nextFree { s with pcie := { s.pcie with ide := tput IdeStream.reset s.pcie.ide stream v } })
          (.spdm m.via 0x7E (vendorReply 1 (leBytes 1 0 ++ leBytes 1 (kmAnswer object) ++ Config.spdmBody s.freeIdx m.body)))

/-! ### DOE Discovery and recovery (R448, R560) -/

/-- The data object types: vendor and type (R448, R560). -/
def doeTypes (s : State) : List (Nat × Nat) :=
  [(1, 0), (1, 1), (1, 2)] ++ (if s.firm.recovery then [(Config.vendorId.toNat, 0x80)] else [])

/-- The answer for an index: vendor, type, and the next index, 0 after the last (PRESUMED, log 52). -/
def doeAnswer (s : State) (i : Nat) : List Byte :=
  match (doeTypes s)[i]? with
  | some x => leBytes 2 x.1 ++ leBytes 1 x.2 ++ leBytes 1 (if i + 1 < (doeTypes s).length then i + 1 else 0)
  | none => leBytes 2 0xFFFF ++ leBytes 2 0

def execDoeDiscovery (index : Nat) (s : State) : Out := hostRow s (emit s (.doe (doeAnswer s index)))

/-- The Evokin recovery object is there only in recovery (R560). -/
def recoveryRow (s : State) (k : State) : Out := if s.glob.cfgUp && s.firm.recovery then .next k else notNow

/-- STAGE (R545, R546, R560). -/
def execRecoveryStage (block : Nat) (data : List Byte) (s : State) : Out :=
  recoveryRow s (match stageBlock s block data 0 0 with
    | some t => emit t (.recovery 1 0)
    | none => emit s (.recovery 1 cFwRejected))

/-- ACTIVATE writes the running and the rollback regions both (R547, R548, R560). -/
def execRecoveryActivate (readBack : Bool) (s : State) : Out :=
  recoveryRow s (match activateBoth s readBack with
    | (t, some _) => emit t (.recovery 2 cFwRejected)
    | (t, none) => emit t (.recovery 2 0))

end Sys2Proof.Machine
end

