-- ==== Sys2Proof/Machine/Reset.lean ====
section
/-!
DEFINITION. Power, cold and warm starts (R424, R426, R513 to R520, R593 to R596), the confirmation watchdog (R556), and
the scrubbers (R487, R488).
-/

namespace Sys2Proof.Machine

/-! ### Stopping (R517 to R519) -/

/-- Write a reply of a stopped command: only to an HBM ring with room; any other is dropped (R518, R519). -/
def stopReply (s : State) (q : Nat) (w : BitVec 128) (irq : Bool) : State :=
  if (getQ s q).loc && stqRoom s q && !ringBad s q then writeReply s q w irq else s

/-- End an operation with 0x60, with its signals under `sig_always` and its reply (R517, R518, R521). -/
def stopOp (s : State) (o : Op) : State :=
  let t := if o.phase = .ended then s else endFail (cutSnap s o.q o.tag) o 0#8 (snapFail s o (failPlain cAborted))
  match findOp t o.q o.tag with
  | none => t
  | some p =>
    let t := if !p.signalled && (p.status ≤ 1 || pSigAlways p) then applySignals t p else t
    if replyWaits s o.q o.tag then t else stopReply t o.q (opReply p) (pIrq p)

/-- Replies of a queue that waited for room: those that find it now are written, the others dropped (R519). -/
def stopDeferred (s : State) (q : Nat) : State :=
  let ds := (getQ s q).deferred
  ds.foldl (fun s d => stopReply s q d.1 d.2) s

/-- Packets that a gateway has sent on and that have no reply are commands in flight: each ends with 0x60 (R327, R518). -/
def stopRelay (s : State) (r : Relay) : State :=
  r.awaiting.foldl (fun s x => stopReply (relayLog s r cAborted x) r.srcQ (replyWord r.srcQ x.1 0 cAborted 0 x.2.1 0 0 0) false) s

/-- The device stops: no acceptance, every command ended, and no transfer under way (R517, R518). -/
def stopAll (s : State) : State :=
  let s := { s with glob := { s.glob with ready := false, selftest := false, padTest := false } }
  let s := (List.range 64).foldl stopDeferred s
  let s := s.fab.relays.foldl stopRelay (s.head.ops.foldl stopOp s)
  let s := (List.range 64).foldl (fun s q => if (getQ s q).deferred.isEmpty then s else modQ s q fun v => { v with deferred := [] }) s
  setFab (setOps s []) { s.fab with outq := [], sent := [], pieces := [], colls := [] }

/-! ### Starts (R514, R518, R520) -/

/-- A port at a start: it keeps its cable, and its counters when the start is warm (R520), and takes the pod's identity from
the keep registers (R391). -/
def startPort (s : State) (v : Port) (warm : Bool) : Port :=
  let x := { Port.reset with cable := v.cable, podAt := keepReg s 2, posAt := keepReg s 3 }
  if warm then { x with fecCorr := v.fecCorr, discard := v.discard, downs := v.downs } else x

/-- Ports after event 6 of R514: a port whose EN bit is 0 is OFF and DISABLED, any other trains when it is cabled. -/
def startPorts (s : State) (warm : Bool) : State :=
  (List.range 6).foldl (fun s p =>
    let s := setPort s p (startPort s (getPort s p) warm)
    if !portEnabled s p then
      let v := { getPort s p with state := .disabled }
      setPd (setPort s p v) (72 + p) (.settled .off)
    else if (getPort s p).cable then startTraining s p
    else s) s

/-- Whether an upset outlives a warm start: in HBM only (R491, R520, R526). -/
def outlives (x : Upset) : Bool := match x with | .hbm _ _ => true | _ => false

/-- What a warm start leaves of the stores and registers before anything starts (R520): HBM with its poison, the fence
map, tallies and seed, the log and the fault counters, TIMESTAMP, and what the sensors measure (DEDUCED, log 53). -/
def warmState (s : State) : State :=
  { s with
    glob := { Glob.reset with
      coldPending := false
      devEvent := s.glob.devEvent &&& ~~~eCoreFault
      timestamp := s.glob.timestamp
      seed := s.glob.seed
      epoch := s.glob.epoch
      rolledBack := s.glob.rolledBack }
    pcie := Pcie.reset
    mems := { s.mems with
      dev := memClear s.mems.dev benchBase benchEnd, poison := s.mems.poison.filter isHbm
      upsets := s.mems.upsets.filter outlives }
    dies := { s.dies with regions := [], patterns := [], spindles := [], matches_ := [], tails := [], lost := [] }
    head := { Head.reset with tallies := s.head.tallies }
    fab := { Fabric.reset with ports := s.fab.ports }
    power := { Power.reset with
      inputP := s.power.inputP, vinDv := s.power.vinDv, junctions := s.power.junctions, hbmTemps := s.power.hbmTemps
      hotSince := s.power.hotSince }
    spdmDoe := ⟨none, []⟩
    spdmMctp := ⟨none, []⟩
    perf := ⟨false, [], []⟩
    face := { s.face with refusedUntil := none } }

/-- The start itself, from the loader to `GSTAT.READY` (R514, R518). In recovery only configuration requests are
answered (R560). -/
def startUp (s : State) (st : StartIn) (warm : Bool) : State :=
  let s := { s with glob := { s.glob with epoch := s.glob.epoch + 1#16, coldPending := false } }
  let s := loaderStart s
  let s := { s with glob := { s.glob with cfgUp := true, warm := warm } }
  let s := (setCap s (bits (keepReg s 5).toNat 0 16)).1
  let s := startPorts s warm
  if s.firm.recovery then s
  else
    let s := noteBase (selfTest s st)
    { s with glob := { s.glob with selftestDone := true, ready := true } }

/-- A warm start (R518). -/
def warmStart (s : State) (st : StartIn) : State := startUp (warmState s) st true

/-! ### Power (R589, R593 to R596) -/

/-- Only the cables remain of the ports (R520). -/
def cabledPorts (t : SMap Port) : SMap Port :=
  t.filterMap fun e => if e.2.cable then some (e.1, { Port.reset with cable := true }) else none

/-- What a loss of power leaves (R594): keep registers with their wear counts and shadow, the flash regions and the
journal; outside the block the host's memory, cables, straps and pins (DESIGN CHOICE, log 8). -/
def powerLoss (s : State) : State :=
  let s := tearRecord s
  { State.reset with
    pins := { s.pins with railsUp := false, i3cAddr := none }
    glob := { Glob.reset with epoch := s.glob.epoch }
    mems := { Mems.reset with host := s.mems.host }
    fab := { Fabric.reset with ports := cabledPorts s.fab.ports }
    power := { Power.reset with vinDv := s.power.vinDv }
    firm := { Firm.reset with
      keep := s.firm.keep, wear := s.firm.wear, shadow := s.firm.shadow, migrationWorn := s.firm.migrationWorn
      staged := s.firm.staged, running := s.firm.running, rollback := s.firm.rollback, ring := s.firm.ring
      awaitingStart := s.firm.awaitingStart }
    out := s.out
    freeIdx := s.freeIdx
    pending := s.pending }

/-- The input within its operating range, PWR_EN rises, and every rail comes up; a latched shutdown ends (R593 to
R595). -/
def execPowerOn (vinDv : Nat) (slotId : BitVec 3) (s : State) : Out :=
  if s.pins.pwrEn || s.pins.railsUp || s.pins.perstN || vinDv < 460 || 580 < vinDv then notNow
  else .next { s with
    pins := { s.pins with pwrEn := true, railsUp := true, shutdown := false, slotId := slotId }
    power := { s.power with vinDv := BitVec.ofNat 10 vinDv } }

/-- PERST_N rises: a cold start after power-on, else a warm one (R424, R513, R514, R518). -/
def execPerstDeassert (st : StartIn) (s : State) : Out :=
  if s.pins.perstN || !s.pins.railsUp then notNow
  else
    let s := { s with pins := { s.pins with perstN := true } }
    .next (if s.glob.coldPending then startUp s st false else warmStart s st)

/-- PERST_N falls (R517 to R519); without power only the pin changes. -/
def execPerstAssert (s : State) : Out :=
  if !s.pins.perstN then notNow
  else
    let s := { s with pins := { s.pins with perstN := false } }
    if !s.pins.railsUp then .next s
    else .next (stopAll { s with glob := { s.glob with cfgUp := false } })

/-- A warm start with PERST_N high. -/
def restart (st : StartIn) (s : State) : Out :=
  if !s.pins.perstN || !s.glob.cfgUp then notNow
  else .next (warmStart (stopAll { s with glob := { s.glob with cfgUp := false } }) st)

/-- A hot reset acts as a warm start (R426). -/
def execHotReset (st : StartIn) (s : State) : Out := restart st s

/-- Loss of the trained link acts as a warm start (R426). -/
def execPcieLinkLoss (st : StartIn) (s : State) : Out := restart st s

/-- PWR_EN falls: the rails drop, in an orderly power-down or not (R596). -/
def execPwrEnFall (s : State) : Out :=
  if !s.pins.pwrEn then notNow
  else
    let t := if s.pins.railsUp then powerLoss s else s
    .next { t with pins := { t.pins with pwrEn := false } }

/-- A shutdown removes every rail and latches (R593, R594). -/
def execPowerShutdown (_cause : ShutdownCause) (s : State) : Out :=
  if !s.pins.railsUp then notNow
  else
    let t := powerLoss s
    .next { t with pins := { t.pins with shutdown := true } }

/-- Whether the confirmation watchdog has run out, and no confirmation that started before holds it back (R554, R556). -/
def watchdogDue (s : State) : Bool :=
  (s.firm.watchdog.any fun t => decide (t ≤ s.glob.timestamp))
    && !s.head.ops.any fun o => o.phase == .started && opCode o == 0x6A

/-- The confirmation watchdog expires: the device stops, restores, and awaits a start (R556). -/
def execWatchdogExpiry (s : State) : Out :=
  if !watchdogDue s || !s.pins.railsUp then notNow
  else
    let s := restoreImage (stopAll s) true
    .next (setFirm s { s.firm with awaitingStart := true })

/-! ### Scrubbers (R487, R488) -/

/-- An uncorrectable error that a scrubber finds is logged with source INTERNAL (R487, R498). -/
def scrubLog (s : State) (a : Nat) : State := vlogAdd s { addr := a, kind := 1, code := cEcc, source := 5 }

/-- A wrong symbol of a sector, or a wrong bit of a word of a bench row; which one is free. -/
def newUpset (s : State) (a k : Nat) : Upset :=
  let n := Config.freeNat s.freeIdx
  if isHbm a then .hbm a (n % 32 + k) else .bench (a + 8 * (n % 64)) (n / 64 % 64 + k)

/-- An error that a scrubber meets in a unit that had none (R483, R488; DESIGN CHOICE, log 16). -/
def arise (s : State) (a : Nat) (found : Finding) : State :=
  if s.mems.upsets.any (upsetIn a) then s
  else
    match found with
    | .clean => s
    | .correctable => nextFree (setUpsets s (newUpset s a 0 :: s.mems.upsets))
    | .uncorrectable => nextFree (setUpsets s (newUpset s a 0 :: newUpset s a 1 :: s.mems.upsets))

/-- A scrubber reads a unit: what can be corrected is, and what cannot is logged (R484 to R488). -/
def scrub (s : State) (a : Nat) : State :=
  match guardUnit s a with
  | (t, _, none) => t
  | (t, _, some _) => scrubLog t a

/-- The patrol scrubber reads a sector (R484 to R487). -/
def execPatrolScrub (addr : Nat) (found : Finding) (s : State) : Out :=
  if !s.glob.ready || !pdOn s (64 + addr / stackBytes) then notNow else .next (scrub (arise s addr found) addr)

/-- The bench scrubber reads a row and rewrites one that holds a corrected word (R488). -/
def execBenchScrub (lathe row : Nat) (found : Finding) (s : State) : Out :=
  let a := latheBase lathe + 512 * row
  if !s.pins.railsUp || s.glob.coldPending || !readsServed (pd s (lathe / 2)) then notNow
  else .next (scrub (arise s a found) a)

end Sys2Proof.Machine
end

