-- ==== Sys2Proof/Machine/Pad.lean ====
section
/-!
DEFINITION. The module's side: I3C and MCTP (R590, R591), the attention pad (R527, R528, R601, R602), and the outputs
PWR_GOOD, ALERT_N and the light bar (R589, R592, R599, R600).
-/

namespace Sys2Proof.Machine

/-! ### I3C (R590, R591) -/

/-- Take a dynamic address; a target that has one does not answer (PRESUMED, log 54). -/
def takeAddr (s : State) (a : BitVec 7) : Out :=
  if !i3cUp s then notNow
  else if s.pins.i3cAddr.isSome then .next s
  else .next (emit { s with pins := { s.pins with i3cAddr := some a } } (.i3cAck a))

/-- SETDASA names the target by its static address 0x30 + SLOT_ID (R590). -/
def execSetdasa (addr : BitVec 7) (s : State) : Out := takeAddr s addr

/-- ENTDAA (R590). -/
def execEntdaa (addr : BitVec 7) (s : State) : Out := takeAddr s addr

/-- A vendor command over MCTP. -/
def mctpRow (s : State) (k : State) : Out := if viaUp s .mctp then .next k else notNow

/-- READ_TELEMETRY: PWR_STAT, PWR_CAP, THERM_STAT and HBM_TEMP (R591). -/
def execReadTelemetry (s : State) : Out :=
  mctpRow s (emit s (.mctp (leBytes 8 (regNat s .pwrStat) ++ leBytes 8 (regNat s .pwrCap) ++ leBytes 8 (regNat s .thermStat)
    ++ leBytes 8 (regNat s .hbmTemp))))

/-- READ_ID: ID_PCI, ID_SERIAL and SLOT_ID (R591). -/
def execReadId (s : State) : Out :=
  mctpRow s (emit s (.mctp (leBytes 8 (identWord 0).toNat ++ leBytes 8 (identWord 3).toNat ++ leBytes 1 s.pins.slotId.toNat)))

/-- The identify display runs for 30 s from now (R599). -/
def startIdentify (s : State) : State :=
  { s with face := { s.face with identifyUntil := some (s.glob.timestamp + 3000000000#64) } }

/-- IDENTIFY (R591). -/
def execIdentify (s : State) : Out := mctpRow s (emit (startIdentify s) (.mctp [0#8]))

/-- The identify display ends (R599). -/
def execIdentifyExpiry (s : State) : Out :=
  if s.face.identifyUntil.isNone then notNow else .next { s with face := { s.face with identifyUntil := none } }

/-! ### The attention pad (R601, R602) -/

/-- Whether the pad has effect (R602). -/
def padActs (s : State) : Bool := s.pins.pwrEn && s.glob.ready

def padRow (s : State) (k : State) : Out := .next (if padActs s then k else s)

/-- A touch released before 1 s. -/
def execPadIdentifyTouch (s : State) : Out := padRow s (startIdentify s)

/-- A hold reaches 3 s: segments 0 to 5 flash. -/
def execPadHold3s (s : State) : Out := padRow s (emit s (.flash [0, 1, 2, 3, 4, 5]))

/-- Every port that is UP quiesces (R398, R602). -/
def quiesceAll (s : State) : State :=
  ((List.range 6).filter fun p => (getPort s p).state == .up).foldl quiescePort s

def execPadQuiesceRelease (s : State) : Out := padRow s (quiesceAll s)

/-- Whether a requested self-test may start (R527, R602). -/
def mayTest (s : State) : Bool :=
  s.glob.ready && !s.glob.selftest && s.head.ops.isEmpty && s.firm.activating.isNone
    && (List.range 64).all fun q => (getQ s q).sqHead == (getQ s q).sqTail

/-- A hold reaches 10 s: the request is judged at that instant (R527, R601). -/
def askTest (s : State) : State :=
  let s := emit s (.flash [0, 1, 2, 3, 4, 5, 6, 7])
  if mayTest s then
    { s with glob := { s.glob with selftest := true, padTest := true }, face := { s.face with refusedUntil := none } }
  else { s with face := { s.face with refusedUntil := some (s.glob.timestamp + 75000000#64) } }

def execPadSelftestRequest (s : State) : Out := padRow s (askTest s)

/-- A requested self-test ends (R526, R528). -/
def execPadSelftestDone (st : StartIn) (s : State) : Out :=
  if !s.glob.padTest then notNow
  else
    let s := selfTest s st
    .next { s with glob := { s.glob with selftest := false, padTest := false } }

/-! ### Outputs -/

/-- PWR_GOOD is released high while every rail is up (R589). -/
def pwrGood (s : State) : Bool := s.pins.railsUp

/-- ALERT_N is low (R592). -/
def alertLow (s : State) : Bool :=
  s.power.hot || s.power.trip || s.firm.awaitingStart || decide (s.power.vinDv.toNat < 470)

/-- What a light-bar segment shows (R599). -/
inductive Light where
  | off
  | whiteSteady | whiteSlow
  | blueSlow
  | redSteady | redSlow | redThree
  | amberSteady | amberSlow | amberFast
  | greenAmber
  | greenSteady | greenSlow
  deriving DecidableEq, Repr

def identifying (s : State) : Bool := s.face.identifyUntil.isSome

/-- The segment of port `p` (R599). -/
def portLight (s : State) (p : Nat) : Light :=
  let v := getPort s p
  match v.state with
  | .quiesced => .whiteSteady
  | .quiescing => .whiteSlow
  | st =>
    if identifying s then .blueSlow
    else
      match st with
      | .isolated => if v.miswired then .redSlow else .amberSlow
      | .up => if v.laneDegraded then .greenAmber else .greenSteady
      | .training | .hello => .greenSlow
      | _ => .off

/-- The power segment (R599). -/
def powerLight (s : State) : Light :=
  if s.pins.shutdown then .redSteady
  else if identifying s then .blueSlow
  else if s.firm.recovery then .amberSlow
  else if s.glob.ready then .greenSteady
  else if pwrGood s then .greenSlow
  else if s.pins.pwrEn then .amberSteady
  else .off

/-- The refusal of a self-test shows for its three fast blinks, of 4 Hz (R599, DEDUCED, log 58). -/
def refusedShows (s : State) : Bool :=
  match s.face.refusedUntil with
  | some t => decide (s.glob.timestamp < t)
  | none => false

/-- The health segment (R599). -/
def healthLight (s : State) : Light :=
  if s.power.trip then .redSteady
  else if s.glob.devEvent &&& (eCoreFault ||| eBridge) ≠ 0#4 || s.firm.awaitingStart then .redSlow
  else if refusedShows s then .redThree
  else if s.power.hot then .amberFast
  else if identifying s then .blueSlow
  else if s.glob.selftest then .greenSlow
  else if s.power.limit = 2#2 then .amberSteady
  else if s.glob.fwPending then .amberSlow
  else if s.glob.ready then .greenSteady
  else .off

/-- Codes shown although the brightness is 0 (R600). -/
def alwaysShown (x : Light) : Bool :=
  match x with
  | .whiteSteady | .whiteSlow | .blueSlow | .redSteady | .redSlow | .redThree => true
  | _ => false

/-- A segment's luminance in fifteenths of full (R600). -/
def luminance (s : State) (x : Light) : Nat :=
  let l := bits (keepReg s 8).toNat 0 4
  if l = 0 then (if alwaysShown x then 8 else 0) else l

end Sys2Proof.Machine
end

