-- ==== Sys2Proof/Machine/Dispatch.lean ====
section
/-!
DEFINITION. Which meaning each command has: one arm per constructor.
-/

namespace Sys2Proof.Machine

def exec (i : Instr) (s : State) : Host.Outcome State Fault Refusal :=
  match i with
  | .mmDense r => Sys2Proof.Machine.execMmDense r s
  | .mmSparse24 r => Sys2Proof.Machine.execMmSparse24 r s
  | .mmCsr r => Sys2Proof.Machine.execMmCsr r s
  | .mmRough r => Sys2Proof.Machine.execMmRough r s
  | .mmFinish r => Sys2Proof.Machine.execMmFinish r s
  | .mmAccRead r => Sys2Proof.Machine.execMmAccRead r s
  | .mmAccWrite r => Sys2Proof.Machine.execMmAccWrite r s
  | .mmDrain r => Sys2Proof.Machine.execMmDrain r s
  | .veElementwise r => Sys2Proof.Machine.execVeElementwise r s
  | .veReduce r => Sys2Proof.Machine.execVeReduce r s
  | .veSoftmax r => Sys2Proof.Machine.execVeSoftmax r s
  | .veSoftmaxBwd r => Sys2Proof.Machine.execVeSoftmaxBwd r s
  | .veNorm r => Sys2Proof.Machine.execVeNorm r s
  | .veNormBwd r => Sys2Proof.Machine.execVeNormBwd r s
  | .veSumPartials r => Sys2Proof.Machine.execVeSumPartials r s
  | .veKnotFix r => Sys2Proof.Machine.execVeKnotFix r s
  | .veAmax r => Sys2Proof.Machine.execVeAmax r s
  | .veQuantize r => Sys2Proof.Machine.execVeQuantize r s
  | .veTopkMerge r => Sys2Proof.Machine.execVeTopkMerge r s
  | .veOptStep r => Sys2Proof.Machine.execVeOptStep r s
  | .ceCopy r => Sys2Proof.Machine.execCeCopy r s
  | .copyCompressPair24 r => Sys2Proof.Machine.execCopyCompressPair24 r s
  | .copyCompressRows r => Sys2Proof.Machine.execCopyCompressRows r s
  | .copyCompressRoute r => Sys2Proof.Machine.execCopyCompressRoute r s
  | .copyCompressActive r => Sys2Proof.Machine.execCopyCompressActive r s
  | .ceTranspose r => Sys2Proof.Machine.execCeTranspose r s
  | .ceGather r => Sys2Proof.Machine.execCeGather r s
  | .ceScatter r => Sys2Proof.Machine.execCeScatter r s
  | .ceFill r => Sys2Proof.Machine.execCeFill r s
  | .fePut r => Sys2Proof.Machine.execFePut r s
  | .feGet r => Sys2Proof.Machine.execFeGet r s
  | .feAllreduce r => Sys2Proof.Machine.execFeAllreduce r s
  | .alltoallDispatch r => Sys2Proof.Machine.execAlltoallDispatch r s
  | .alltoallCombine r => Sys2Proof.Machine.execAlltoallCombine r s
  | .feWindowOpen r => Sys2Proof.Machine.execFeWindowOpen r s
  | .feWindowClose r => Sys2Proof.Machine.execFeWindowClose r s
  | .feRelay r => Sys2Proof.Machine.execFeRelay r s
  | .syWait r => Sys2Proof.Machine.execSyWait r s
  | .sySignal r => Sys2Proof.Machine.execSySignal r s
  | .syFence r => Sys2Proof.Machine.execSyFence r s
  | .syPodBarrier r => Sys2Proof.Machine.execSyPodBarrier r s
  | .mgQuery r => Sys2Proof.Machine.execMgQuery r s
  | .mgPowerDomain r => Sys2Proof.Machine.execMgPowerDomain r s
  | .reserveHbm r => Sys2Proof.Machine.execReserveHbm r s
  | .reserveBench r => Sys2Proof.Machine.execReserveBench r s
  | .freeHbm r => Sys2Proof.Machine.execFreeHbm r s
  | .freeBench r => Sys2Proof.Machine.execFreeBench r s
  | .limitQueue r => Sys2Proof.Machine.execLimitQueue r s
  | .limitFunc r => Sys2Proof.Machine.execLimitFunc r s
  | .tallyRange r => Sys2Proof.Machine.execTallyRange r s
  | .mgPowerCap r => Sys2Proof.Machine.execMgPowerCap r s
  | .snapshotSave r => Sys2Proof.Machine.execSnapshotSave r s
  | .snapshotRestore r => Sys2Proof.Machine.execSnapshotRestore r s
  | .mgStreamBind r => Sys2Proof.Machine.execMgStreamBind r s
  | .mgPatternLoad r => Sys2Proof.Machine.execMgPatternLoad r s
  | .mgKeepWrite r => Sys2Proof.Machine.execMgKeepWrite r s
  | .mgFwStage r => Sys2Proof.Machine.execMgFwStage r s
  | .mgFwActivate r readBack => Sys2Proof.Machine.execMgFwActivate r readBack s
  | .mgFwConfirm r => Sys2Proof.Machine.execMgFwConfirm r s
  | .fenceUnit r => Sys2Proof.Machine.execFenceUnit r s
  | .unfenceUnit r pass => Sys2Proof.Machine.execUnfenceUnit r pass s
  | .packetAccept q host => Sys2Proof.Machine.execPacketAccept q host s
  | .commandStart r => Sys2Proof.Machine.execCommandStart r s
  | .commandComplete r => Sys2Proof.Machine.execCommandComplete r s
  | .replyWrite q => Sys2Proof.Machine.execReplyWrite q s
  | .sqTailDoorbell rq q value => Sys2Proof.Machine.execSqTailDoorbell rq q value s
  | .stqHeadDoorbell rq q value => Sys2Proof.Machine.execStqHeadDoorbell rq q value s
  | .queueEnable rq q value => Sys2Proof.Machine.execQueueEnable rq q value s
  | .queueReset rq q value => Sys2Proof.Machine.execQueueReset rq q value s
  | .queueResetForce rq q value => Sys2Proof.Machine.execQueueResetForce rq q value s
  | .queueResume rq q value => Sys2Proof.Machine.execQueueResume rq q value s
  | .tallyWrite rq idx value => Sys2Proof.Machine.execTallyWrite rq idx value s
  | .keepRegisterWrite rq idx value => Sys2Proof.Machine.execKeepRegisterWrite rq idx value s
  | .engReset rq mask => Sys2Proof.Machine.execEngReset rq mask s
  | .engineResetDone cls => Sys2Proof.Machine.execEngineResetDone cls s
  | .perfFreeze rq freeze => Sys2Proof.Machine.execPerfFreeze rq freeze s
  | .perfClear rq => Sys2Proof.Machine.execPerfClear rq s
  | .vlogRelease rq head => Sys2Proof.Machine.execVlogRelease rq head s
  | .tripClear rq => Sys2Proof.Machine.execTripClear rq s
  | .regionEntryWrite rq lathe k value => Sys2Proof.Machine.execRegionEntryWrite rq lathe k value s
  | .bar2WinWrite rq f base => Sys2Proof.Machine.execBar2WinWrite rq f base s
  | .qstatWrite rq q value => Sys2Proof.Machine.execQstatWrite rq q value s
  | .timestampLatchRead rq => Sys2Proof.Machine.execTimestampLatchRead rq s
  | .registerWrite rq offset size value => Sys2Proof.Machine.execRegisterWrite rq offset size value s
  | .bar2Read rq offset len => Sys2Proof.Machine.execBar2Read rq offset len s
  | .bar2Write rq offset bytes => Sys2Proof.Machine.execBar2Write rq offset bytes s
  | .vfFunctionLevelReset f => Sys2Proof.Machine.execVfFunctionLevelReset f s
  | .pfFunctionLevelReset => Sys2Proof.Machine.execPfFunctionLevelReset s
  | .vfEnableClear => Sys2Proof.Machine.execVfEnableClear s
  | .d3hotEntry f => Sys2Proof.Machine.execD3hotEntry f s
  | .d0Return f => Sys2Proof.Machine.execD0Return f s
  | .busMasterEnableChange f on => Sys2Proof.Machine.execBusMasterEnableChange f on s
  | .bar2Resize f log2GiB => Sys2Proof.Machine.execBar2Resize f log2GiB s
  | .ideStreamExit stream => Sys2Proof.Machine.execIdeStreamExit stream s
  | .ideKm m stream => Sys2Proof.Machine.execIdeKm m stream s
  | .doeDiscovery index => Sys2Proof.Machine.execDoeDiscovery index s
  | .getVersion m => Sys2Proof.Machine.execGetVersion m s
  | .getCapabilities m => Sys2Proof.Machine.execGetCapabilities m s
  | .negotiateAlgorithms m => Sys2Proof.Machine.execNegotiateAlgorithms m s
  | .getDigests m => Sys2Proof.Machine.execGetDigests m s
  | .getCertificate m slot => Sys2Proof.Machine.execGetCertificate m slot s
  | .challenge m slot => Sys2Proof.Machine.execChallenge m slot s
  | .getMeasurements m signed => Sys2Proof.Machine.execGetMeasurements m signed s
  | .keyExchange m slot => Sys2Proof.Machine.execKeyExchange m slot s
  | .finish m session => Sys2Proof.Machine.execFinish m session s
  | .heartbeat m => Sys2Proof.Machine.execHeartbeat m s
  | .keyUpdate m => Sys2Proof.Machine.execKeyUpdate m s
  | .endSession m => Sys2Proof.Machine.execEndSession m s
  | .chunkSend m => Sys2Proof.Machine.execChunkSend m s
  | .chunkGet m => Sys2Proof.Machine.execChunkGet m s
  | .getPqSig m => Sys2Proof.Machine.execGetPqSig m s
  | .recoveryStage block data => Sys2Proof.Machine.execRecoveryStage block data s
  | .recoveryActivate readBack => Sys2Proof.Machine.execRecoveryActivate readBack s
  | .setdasa addr => Sys2Proof.Machine.execSetdasa addr s
  | .entdaa addr => Sys2Proof.Machine.execEntdaa addr s
  | .readTelemetry => Sys2Proof.Machine.execReadTelemetry s
  | .readId => Sys2Proof.Machine.execReadId s
  | .identify => Sys2Proof.Machine.execIdentify s
  | .powerOn vinDv slotId => Sys2Proof.Machine.execPowerOn vinDv slotId s
  | .perstDeassert st => Sys2Proof.Machine.execPerstDeassert st s
  | .perstAssert => Sys2Proof.Machine.execPerstAssert s
  | .hotReset st => Sys2Proof.Machine.execHotReset st s
  | .pcieLinkLoss st => Sys2Proof.Machine.execPcieLinkLoss st s
  | .pwrEnFall => Sys2Proof.Machine.execPwrEnFall s
  | .powerShutdown cause => Sys2Proof.Machine.execPowerShutdown cause s
  | .padIdentifyTouch => Sys2Proof.Machine.execPadIdentifyTouch s
  | .padHold3s => Sys2Proof.Machine.execPadHold3s s
  | .padQuiesceRelease => Sys2Proof.Machine.execPadQuiesceRelease s
  | .padSelftestRequest => Sys2Proof.Machine.execPadSelftestRequest s
  | .padSelftestDone st => Sys2Proof.Machine.execPadSelftestDone st s
  | .identifyExpiry => Sys2Proof.Machine.execIdentifyExpiry s
  | .frameReceive port fec message => Sys2Proof.Machine.execFrameReceive port fec message s
  | .linkFlit port flit => Sys2Proof.Machine.execLinkFlit port flit s
  | .replayLimitRetrain port => Sys2Proof.Machine.execReplayLimitRetrain port s
  | .helloFlit port h => Sys2Proof.Machine.execHelloFlit port h s
  | .routeFlit port news => Sys2Proof.Machine.execRouteFlit port news s
  | .routeRecompute => Sys2Proof.Machine.execRouteRecompute s
  | .writePacket p => Sys2Proof.Machine.execWritePacket p s
  | .readPacket p => Sys2Proof.Machine.execReadPacket p s
  | .dataPacket p => Sys2Proof.Machine.execDataPacket p s
  | .respPacket p => Sys2Proof.Machine.execRespPacket p s
  | .collPacket p => Sys2Proof.Machine.execCollPacket p s
  | .relayPacket p => Sys2Proof.Machine.execRelayPacket p s
  | .replyPacket p => Sys2Proof.Machine.execReplyPacket p s
  | .retransmitTimeout dst txn => Sys2Proof.Machine.execRetransmitTimeout dst txn s
  | .laneFailure port whole => Sys2Proof.Machine.execLaneFailure port whole s
  | .cablePull port => Sys2Proof.Machine.execCablePull port s
  | .cableInsert port => Sys2Proof.Machine.execCableInsert port s
  | .portQuiesced port => Sys2Proof.Machine.execPortQuiesced port s
  | .portRejoinTimer port => Sys2Proof.Machine.execPortRejoinTimer port s
  | .fabricWindowTick => Sys2Proof.Machine.execFabricWindowTick s
  | .bridgeCrcFail => Sys2Proof.Machine.execBridgeCrcFail s
  | .bridgeRetrain => Sys2Proof.Machine.execBridgeRetrain s
  | .bridgeRetrainFail => Sys2Proof.Machine.execBridgeRetrainFail s
  | .governorSample x => Sys2Proof.Machine.execGovernorSample x s
  | .hotTimer => Sys2Proof.Machine.execHotTimer s
  | .thermalTrip => Sys2Proof.Machine.execThermalTrip s
  | .domainDrainDone d => Sys2Proof.Machine.execDomainDrainDone d s
  | .domainDrainTimeout d addr => Sys2Proof.Machine.execDomainDrainTimeout d addr s
  | .domainOnComplete d => Sys2Proof.Machine.execDomainOnComplete d s
  | .patrolScrub addr found => Sys2Proof.Machine.execPatrolScrub addr found s
  | .benchScrub lathe row found => Sys2Proof.Machine.execBenchScrub lathe row found s
  | .watchdogExpiry => Sys2Proof.Machine.execWatchdogExpiry s
  | .spindleStep x => Sys2Proof.Machine.execSpindleStep x s
  | .chuckSwap spindle => Sys2Proof.Machine.execChuckSwap spindle s
  | .groupRescale x => Sys2Proof.Machine.execGroupRescale x s
  | .tileDrain spindle set => Sys2Proof.Machine.execTileDrain spindle set s
  | .bar0Read rq offset size => Sys2Proof.Machine.execBar0Read rq offset size s
  | .portTrainingComplete port whole => Sys2Proof.Machine.execPortTrainingComplete port whole s

end Sys2Proof.Machine
end

