-- ==== Sys2Proof/Machine/Idle.lean ====
section
/-!
DEFINITION. The passing of time (R460, DESIGN CHOICE, log 2).
-/

namespace Sys2Proof.Machine

/-- One 10 ns period of TIMESTAMP, while the rails are up (R460); nothing else happens by itself (DESIGN CHOICE, log 2). -/
def idle (s : State) : State :=
  if s.pins.railsUp then { s with glob := { s.glob with timestamp := s.glob.timestamp + 1#64 } } else s

end Sys2Proof.Machine
end

