-- ==== Sys2Proof/Safety.lean ====
section
/-!
DEFINITION. The terms statements use: a step that answers a next state, a started operation and what its body leaves,
the memories' canonical form, the shadow's indices, and where the spindle's own steps complete.
-/

namespace Sys2Proof.Machine

/-- A command runs at a state: its row answers a next state. -/
def Runs (c : Instr) (s : State) : Prop := ∃ t, exec c s = .next t

/-- The state once the host's answer, to the function of queue `q`, has come (R431, R441). -/
def heard (s : State) (q : Nat) (h : HostReply) : State := mergeHost s (getQ s q).func.toNat h

/-- Operation `o` of an opcode is started and waits for its row. -/
def Started (s : State) (r : OpRef) (code : Nat) (o : Op) : Prop :=
  findOp s r.q r.tag = some o ∧ o.phase = .started ∧ opCode o = code

/-- What the body of a started command leaves: the body's writes, and the operation ended with its flags and its status
(R316, R330, R331). -/
def ran (body : State → Op → HostReply → Res) (r : OpRef) (s : State) (o : Op) : State :=
  let x := body (mergeHost s (opFunc s o) r.host) o r.host
  endWith x.s o x.flags x.err

/-- A Matrix Engine row of a started command completes. Where no error of the stores waits to be found, the command ends
with the body's writes, run from its spindles' beginnings; or, when it does work and the open sets are no longer what it
asks of them, with the error that its start would have given (R116, R118). -/
def ArrayRow (c : Instr) (code : Nat) (body : State → Op → HostReply → Res) (r : OpRef) (s : State) (o : Op) : Prop :=
  Started s r code o → Runs c s ∧ (s.mems.upsets = [] →
    (o.mCount = some 0 ∨ checkSets (rewindOn s o) o = .ok () → exec c s = .next (ran body r (rewindOn s o) o))
    ∧ ∀ e, o.mCount ≠ some 0 → checkSets (rewindOn s o) o = .error e →
        exec c s = .next (endFail (rewindOn s o) o 0#8 e))

/-- A host request of `n` bytes at `off` of a BAR that finds the link up, the device in service, its function enabled, its
data whole and an IDE stream where one is asked for, and no error that waits in the stores (R424, R425, R427, R443, R444,
R447, R491). -/
def Reaches (s : State) (rq : Req) (bar off n : Nat) : Prop :=
  s.glob.cfgUp = true ∧ s.glob.ready = true ∧ unsupportedNow s rq.fn = false ∧ rq.poisoned = false
    ∧ ideAdmits s rq bar off n = true ∧ s.mems.upsets = []

/-- A request of the physical function, or of the virtual function that owns the queue or tally (R433). -/
def Owns (s : State) (rq : Req) (g : Reg) : Prop := rq.fn = 0 ∨ g.ownBy s rq.fn = true

/-- A packet that an N-port delivers to this device, whole and by no more than 15 links (R384, R385). -/
def Delivered (s : State) (p : Packet) (kind : Nat) : Prop :=
  onFabric s = true ∧ hKind p.hdr = kind ∧ hHops p.hdr ≠ 16 ∧ hDst p.hdr = devId s
    ∧ e2eOf p.hdr p.data = hE2e p.hdr ∧ cdiv p.data.length 64 = hFlits p.hdr

/-- A transaction that the device has not yet completed (R395). -/
def Fresh (s : State) (p : Packet) : Prop :=
  s.fab.seen.find? (fun x => x.1 = hSrc p.hdr && x.2.1 = hTxn p.hdr) = none

/-- Both memories are in their canonical form. -/
def MemsCanonical (s : State) : Prop := memWf s.mems.dev = true ∧ memWf s.mems.host = true

/-- The shadow of R557 never holds the anti-rollback version. -/
def ShadowSpares (s : State) : Prop := ∀ vs, s.firm.shadow = some vs → ∀ p ∈ vs, p.1 ≠ 1

/-- Everything but device memory, the dies' stores with their low-slice rails, the statistics of the operation's queue, the
operation itself, the tallies, the counters and the logs is as it was; host memory, but for what the host answered,
too. -/
def LeavesTheRest (s t : State) (r : OpRef) : Prop :=
  t.mems.host = (heard s r.q r.host).mems.host ∧ t.pins = s.pins ∧ t.fab = s.fab
    ∧ t.power = { s.power with lowDrop := t.power.lowDrop } ∧ t.firm = s.firm
    ∧ t.spdmDoe = s.spdmDoe ∧ t.spdmMctp = s.spdmMctp ∧ t.face = s.face ∧ t.snap = s.snap
    ∧ t.glob = { s.glob with devEvent := t.glob.devEvent } ∧ t.pcie = { s.pcie with pba := t.pcie.pba }
    ∧ t.head = { s.head with queues := t.head.queues, ops := t.head.ops, tallies := t.head.tallies }
    ∧ (∀ q, q ≠ r.q → getQ t q = getQ s q)
    ∧ (∀ q tag, q ≠ r.q ∨ tag ≠ r.tag → findOp t q tag = findOp s q tag)

/-! ### Snapshots -/

/-- `MG.SNAPSHOT` (R376, R509 to R512). A save into host memory, or through the device's own window table, is its body's
writes, with the command ended; a restore from there takes its next part. A save to a peer and a restore from one begin,
and go on once the packets of the part under way have been answered. That a restore takes one part of its image a row is
the model's choice (log 43). -/
def SnapshotRows : Prop :=
  ∀ (r : OpRef) (s : State) (o : Op),
    (Started s r 0x64 o →
      (snRestore o = false → snapOf s o.q o.tag = none → wayOf s o ≠ .peer → heldByD3 s o = false →
        exec (.snapshotSave r) s = .next (ran saveBody r s o))
      ∧ (snRestore o = true → wayOf s o ≠ .peer → exec (.snapshotRestore r) s
          = .next (localPart s o ((snapOf s o.q o.tag).getD (newRestore o)) r.host))
      ∧ (wayOf s o = .peer → snapOf s o.q o.tag = none → s.fab.routesDue = false → peerCut s o = none →
        (snRestore o = false → pdOn s dBridge = true → Runs (.snapshotSave r) s ∧ exec (.snapshotSave r) s = beginSave s o)
        ∧ (snRestore o = true →
          exec (.snapshotRestore r) s = .next (beginPart (putOp s { o with phase := .waiting })
            { o with phase := .waiting } (newRestore o)))))
    ∧ ∀ j, findOp s r.q r.tag = some o → o.phase = .waiting → opCode o = 0x64 → snapOf s o.q o.tag = some j →
      wayOf s o = .peer → xferOpen s o.q o.tag = false →
      (snRestore o = false → Runs (.snapshotSave r) s ∧ exec (.snapshotSave r) s = saveOn s o j)
      ∧ (snRestore o = true → Runs (.snapshotRestore r) s ∧ exec (.snapshotRestore r) s = restoreOn s o j)

/-! ### The spindle's own steps -/

/-- A step of a spindle. The adder group of a row that may step does: every column lane's group register takes what the
group's tree sums, modulo 2^48, its running residue what that should have, and no other register changes; a residue that does
not match ends the command instead (R73 to R75, R78 to R80, R98, R493). It waits only where it would finish a vector while the
draining set still holds another group's registers (R95). -/
def StepCompletes : Prop :=
  ∀ (a : StepArgs) (s : State) (w : Work) (c : Chuck), workOn s a.spindle = some w →
    let sp := getSpindle s a.spindle
    let j := jobFor w.o sp
    let fs := w.feeds s c
    let st := standOf w.o sp
    let g := a.row / groupRows w.o
    let p := st.getD g (0, 0, 0)
    let feed := fs.getD p.1 []
    let v := (chuckVecs w.o c).getD p.1 (⟨0, 0, 0, 0⟩, 0, 0)
    let st' := stepGroup (w.steps fs) st g
    let sp' := setStand st' (stepRegs w feed v g p.2.1 a.errLane a.err sp)
    let a0 := allDone st (w.steps fs).length
    let b0 := allDone st' (w.steps fs).length
    w.chuck j = some c → a.row < 16 → a.errLane < sliverCols w.o → mayStep (w.steps fs) st g = true →
    (∀ lane, badLane w sp feed g p.2.1 a.errLane a.err = some lane →
      exec (.spindleStep a) s = .next (residueEnd s w.o a.spindle lane 0))
    ∧ (badLane w sp feed g p.2.1 a.errLane a.err = none → ∀ x, finishVecs s w c (j.chuck - 1) a0 b0 sp' = some x →
      ∃ t, exec (.spindleStep a) s = .next t
        ∧ (getSpindle t a.spindle).regs = x.regs ∧ (getSpindle t a.spindle).resids = x.resids
        ∧ (getSpindle t a.spindle).drain = x.drain
        ∧ (getSpindle t a.spindle).pos = x.pos ∧ (getSpindle t a.spindle).held = sp.held ∧ t.mems = s.mems)
    ∧ (c.last = false ∨ b0 ≤ a0 ∨ sp.drain = [] → (finishVecs s w c (j.chuck - 1) a0 b0 sp').isSome = true)

/-- What a step adds: column lane `k` of the fed vector gains the sum over the group's rows, each held lane times its digit
(R73, R80), and its running residue the residue of that sum (R493), in the companion's register when it is the bound step
(R255); and every other register is as it was. -/
def StepAddsTheTreeSum : Prop :=
  ∀ (w : Work) (feed : List RowFeed) (v : Tile × Nat × Nat) (g t lane : Nat) (err : Int) (sp : Spindle),
    let base := 256 * (w.place v.1 + if (groupSteps w.o w.x.log feed g).1 ≤ t then 2 else 0) + v.2.1 * sliverCols w.o
    let sp' := stepRegs w feed v g t lane err sp
    (∀ k, k < sliverCols w.o →
      tget 0 sp'.regs (base + k)
        = reg48 (tget 0 sp.regs (base + k) + treeSum w sp feed g t k + if k = lane then err else 0)
      ∧ tget 0 sp'.resids (base + k) = (tget 0 sp.resids (base + k) + treeRes w sp feed g t k) % 7)
    ∧ (∀ n, (∀ k, k < sliverCols w.o → n ≠ base + k) →
        tget 0 sp'.regs n = tget 0 sp.regs n ∧ tget 0 sp'.resids n = tget 0 sp.resids n)
    ∧ sp'.held = sp.held ∧ sp'.acc = sp.acc ∧ sp'.drain = sp.drain

/-- A chuck swap: once the last step of the present chuck has been presented, the loading chuck becomes the working one, the
chuck after it loads, and the spindle counts one chuck more; it waits for its round's set, for the match unit, and for the
draining set (R70, R76, R95, R122, R237); a row that a spilled tile is reloaded from and that cannot be corrected ends the
command (R206, R488). -/
def SwapCompletes : Prop :=
  ∀ (i : Nat) (s u u' : State) (w : Work) (c : Chuck) (j : Job) (sp : Spindle) (f : BitVec 8), workOn s i = some w →
    let j0 := jobFor w.o (getSpindle s i)
    let sp0 := if j0.chuck = 0 then (getSpindle s i).cleared else getSpindle s i
    w.cs[j0.chuck]? = some c → w.spent s j0 sp0 = true → enterChuck s w c j0 sp0 = some (j, sp) →
    readyMatch s w c = some u →
    (∀ e, guardReload u w c j0 = (u', f, some e) → exec (.chuckSwap i) s = .next (endFail u' w.o f e))
    ∧ ∀ x, guardReload u w c j0 = (u', f, none) → swapIn u' w c j sp = some x →
      ∃ t, exec (.chuckSwap i) s = .next t ∧ t.mems.dev = u'.mems.dev ∧ t.mems.host = u'.mems.host
      ∧ (getSpindle t i).held = sp.loading.getD (chuckWords u' w.o w.x w.lathe c)
      ∧ (getSpindle t i).loading = (w.cs[j.chuck + 1]?).map (chuckWords u' w.o w.x w.lathe)
      ∧ (getSpindle t i).job.map (·.chuck) = some (j0.chuck + 1)

/-- A group rescale: the register leaves the draining set, and its delivered value is added into its entry of the round's
set, with the flags of that addition; an A16 result waits for its pair instead, and the bound of a roughing pass goes into
its companion's entry; a running residue that does not match ends the command (R81 to R85, R88, R98, R105, R107, R256,
R493). -/
def RescaleCompletes : Prop :=
  ∀ (a : RescaleArgs) (s : State) (w : Work) (y : Waiting) (c : Chuck) (set : Nat) (tile : Tile),
    workOn s a.spindle = some w →
    let sp := getSpindle s a.spindle
    let key := 256 * a.slot + a.entry
    let bound := decide (opCode w.o = 0x13) && !(c.tiles.any fun t => w.place t == a.slot)
    let r := reg48 (y.reg + a.err)
    sp.drain.find? (fun z => z.key = key) = some y → w.cs[y.chuck]? = some c →
    roundSet (jobFor w.o sp) c.round = some set →
    c.tiles.find? (fun t => w.place t + (if bound then 2 else 0) = a.slot) = some tile →
    (checksResidue w.o = true → res7 r ≠ y.res →
      exec (.groupRescale a) s = .next (residueEnd s w.o a.spindle (a.entry % sliverCols w.o) 1))
    ∧ (checksResidue w.o = false ∨ res7 r = y.res → s.mems.upsets = [] → ∃ t, exec (.groupRescale a) s = .next t
      ∧ t.mems = s.mems ∧ (∀ z ∈ (getSpindle t a.spindle).drain, z ∈ sp.drain ∧ z.key ≠ key)
      ∧ (bound = false → (w.x.acc = .i48 ∨ w.x.acc = .c64) →
          let o := w.output tile a.entry
          let g := { groupRes w.x (passOf w.o) w.lathe tile.batch o.1 o.2 c.grp with reg := w.x.shaved tile.batch o.1 o.2 c.grp.1 r }
          let e := accAdd w.x.acc (tileEntry sp w.x.acc (4 * set + a.slot) a.entry) (deliver w.x.acc w.x.e g)
          tget 0#64 (getSpindle t a.spindle).acc (256 * (4 * set + a.slot) + a.entry) = BitVec.ofNat 64 e.1
          ∧ ∀ n, n ≠ 256 * (4 * set + a.slot) + a.entry → tget 0#64 (getSpindle t a.spindle).acc n = tget 0#64 sp.acc n))

/-- A set that drains is free afterwards, its tiles read through the epilogue, written as partials or spilled, or its command
has ended with an error (R122, R123, R139, R206). -/
def DrainCompletes : Prop :=
  ∀ (i set : Nat) (s : State) (w : Work) (g : Seg), workOn s i = some w →
    w.segs.find? (fun g => tget 0 (jobFor w.o (getSpindle s i)).rounds set = g.round + 1) = some g →
    getSetState (getSpindle s i) set = .draining →
    ∃ t, exec (.tileDrain i set) s = .next t
      ∧ (getSetState (getSpindle t i) set = .free
        ∨ ∃ u, findOp t w.o.q w.o.tag = some u ∧ u.phase = .ended)

end Sys2Proof.Machine
end

