-- ==== Sys2Proof/WellFormed.lean ====
section
/-!
DEFINITION. Which commands are well formed: operands within the ranges the spec gives the things they name. An
ill-formed command names something the device does not have.
-/

namespace Sys2Proof

/-- A queue (0 to 63, R304) and a tag (13 bits, R327). -/
def OpRef.wf (r : OpRef) : Bool := decide (r.q < 64) && decide (r.tag < 8192)

/-- A PCI Express function: the physical one or one of 16 virtual ones (R427); a selective IDE stream 0 to 3 (R446). -/
def Req.wf (r : Req) : Bool :=
  decide (r.fn < 17) && (match r.ide with | none => true | some i => decide (i < 4))

/-- Spindles 0 to 8191 and lathes 0 to 127 (R12, R14). -/
def StartIn.wf (x : StartIn) : Bool :=
  x.badSpindles.all (fun i => decide (i < 8192)) && x.badLathes.all (fun l => decide (l < 128))

/-- A fabric packet: a header of 512 bits and at most 4,096 bytes of data (R384). -/
def Packet.wf (p : Packet) : Bool := decide (p.hdr < 2 ^ 512) && decide (p.data.length ≤ 4096)

/-- A spindle of the device, a row of its grid and a column lane (R70). -/
def StepArgs.wf (x : StepArgs) : Bool := decide (x.spindle < 8192) && decide (x.row < 16) && decide (x.errLane < 128)

/-- A spindle, a slot and one of its 256 entries (R74). -/
def RescaleArgs.wf (x : RescaleArgs) : Bool :=
  decide (x.spindle < 8192) && decide (x.slot < 4) && decide (x.entry < 256)

/-- 32 junction sensors and 8 stacks (R478). -/
def Sample.wf (x : Sample) : Bool := decide (x.junctions.length = 32) && decide (x.hbmTemps.length = 8)

/-- One of the six N-ports (R380). -/
def portWf (p : Nat) : Bool := decide (p < 6)

/-- The size of a host access to BAR0, in bytes: a power of two up to 8. -/
def sizeWf (n : Nat) : Bool := n == 1 || n == 2 || n == 4 || n == 8

/-- The operands of a command lie in their ranges. -/
def Instr.wf (i : Instr) : Bool :=
  match i with
  | .mmDense r | .mmSparse24 r | .mmCsr r | .mmRough r | .mmFinish r | .mmAccRead r | .mmAccWrite r | .mmDrain r
  | .veElementwise r | .veReduce r | .veSoftmax r | .veSoftmaxBwd r | .veNorm r | .veNormBwd r | .veSumPartials r
  | .veKnotFix r | .veAmax r | .veQuantize r | .veTopkMerge r | .veOptStep r | .ceCopy r | .copyCompressPair24 r
  | .copyCompressRows r | .copyCompressRoute r | .copyCompressActive r | .ceTranspose r | .ceGather r | .ceScatter r
  | .ceFill r | .fePut r | .feGet r | .feAllreduce r | .alltoallDispatch r | .alltoallCombine r | .feWindowOpen r
  | .feWindowClose r | .feRelay r | .syWait r | .sySignal r | .syFence r | .syPodBarrier r | .mgQuery r
  | .mgPowerDomain r | .reserveHbm r | .reserveBench r | .freeHbm r | .freeBench r | .limitQueue r | .limitFunc r
  | .tallyRange r | .mgPowerCap r | .snapshotSave r | .snapshotRestore r | .mgStreamBind r | .mgPatternLoad r | .mgKeepWrite r
  | .mgFwStage r | .mgFwConfirm r | .fenceUnit r | .commandStart r | .commandComplete r => r.wf
  | .mgFwActivate r _ | .unfenceUnit r _ => r.wf
  | .packetAccept q _ | .replyWrite q => decide (q < 64)
  | .sqTailDoorbell rq q _ | .stqHeadDoorbell rq q _ | .queueEnable rq q _ | .queueReset rq q _
  | .queueResetForce rq q _ | .queueResume rq q _ | .qstatWrite rq q _ => rq.wf && decide (q < 64)
  | .tallyWrite rq i _ => rq.wf && decide (i < 4096)
  | .keepRegisterWrite rq i _ => rq.wf && decide (i < 128)
  | .engReset rq _ | .perfFreeze rq _ | .perfClear rq | .vlogRelease rq _ | .tripClear rq
  | .timestampLatchRead rq => rq.wf
  | .engineResetDone c => decide (c < 4)
  | .regionEntryWrite rq l k _ => rq.wf && decide (l < 128) && decide (k < 64)
  | .bar2WinWrite rq f _ => rq.wf && decide (f < 17)
  | .registerWrite rq _ n _ | .bar0Read rq _ n => rq.wf && sizeWf n
  | .bar2Read rq _ n => rq.wf && decide (0 < n)
  | .bar2Write rq _ b => rq.wf && !b.isEmpty
  | .vfFunctionLevelReset f => decide (1 ≤ f) && decide (f < 17)
  | .pfFunctionLevelReset | .vfEnableClear | .recoveryActivate _ | .readTelemetry | .readId | .identify | .perstAssert
  | .pwrEnFall | .powerShutdown _ | .padIdentifyTouch | .padHold3s | .padQuiesceRelease | .padSelftestRequest
  | .identifyExpiry | .routeRecompute | .fabricWindowTick | .bridgeCrcFail | .bridgeRetrain | .bridgeRetrainFail
  | .hotTimer | .thermalTrip | .watchdogExpiry => true
  | .d3hotEntry f | .d0Return f | .busMasterEnableChange f _ => decide (f < 17)
  | .bar2Resize f _ => decide (f < 17)
  | .ideStreamExit i | .ideKm _ i => decide (i < 4)
  | .doeDiscovery i => decide (i < 256)
  | .getVersion _ | .getCapabilities _ | .negotiateAlgorithms _ | .getDigests _ | .getMeasurements _ _ | .heartbeat _
  | .keyUpdate _ | .endSession _ | .chunkSend _ | .chunkGet _ | .getPqSig _ => true
  | .getCertificate _ sl | .challenge _ sl | .keyExchange _ sl => decide (sl < 256)
  | .finish _ n => decide (n < 2 ^ 32)
  | .recoveryStage b d => decide (b < 65536) && decide (d.length = 65536)
  | .setdasa _ | .entdaa _ => true
  | .powerOn v _ => decide (v < 1024)
  | .perstDeassert st | .hotReset st | .pcieLinkLoss st | .padSelftestDone st => st.wf
  | .frameReceive p _ _ | .linkFlit p _ | .replayLimitRetrain p | .helloFlit p _ | .routeFlit p _ | .laneFailure p _
  | .cablePull p | .cableInsert p | .portQuiesced p | .portRejoinTimer p | .portTrainingComplete p _ => portWf p
  | .writePacket p | .readPacket p | .dataPacket p | .respPacket p | .collPacket p | .relayPacket p | .replyPacket p => p.wf
  | .retransmitTimeout d t => decide (d < 64) && decide (t < 2 ^ 32)
  | .governorSample x => x.wf
  | .domainDrainDone d | .domainOnComplete d => decide (d < 80)
  | .domainDrainTimeout d _ => decide (d < 80)
  | .patrolScrub a _ => decide (a < 0x60_0000_0000) && a % 64 == 0
  | .benchScrub l r _ => decide (l < 128) && decide (r < 4096)
  | .spindleStep x => x.wf
  | .chuckSwap i => decide (i < 8192)
  | .groupRescale x => x.wf
  | .tileDrain i k => decide (i < 8192) && decide (k < 2)

end Sys2Proof
end

