-- ==== Sys2Proof/Certificates/Slice0/Obligations.lean ====
section
/-!
DEFINITION. The statements for the provers: what a step runs, what every step keeps, what each row does and leaves, and
where each command completes.
-/

open Sys2Proof Sys2Proof.Machine

/-! ### The step -/

/-- A step takes the command at the front of the queue and runs it on the state with the queue's rest. -/
def Obligations.StepRunsFrontCommand : Prop :=
  ∀ (c : Instr) (rest : List Instr) (s : State),
    s.pending = c :: rest → step s = exec c { s with pending := rest }

/-- With an empty queue one 10 ns period of TIMESTAMP passes while the rails are up, and nothing else (R460; that an
empty queue ticks is the model's choice, log 2). -/
def Obligations.EmptyQueueCountsTime : Prop :=
  ∀ s : State, s.pending = [] →
    (s.pins.railsUp = true →
      step s = .next { s with glob := { s.glob with timestamp := s.glob.timestamp + 1#64 } })
    ∧ (s.pins.railsUp = false → step s = .next s)

/-! ### What every step keeps -/

/-- Every step keeps device memory and host memory in their canonical form. -/
def Obligations.StepKeepsMemoryCanonical : Prop :=
  ∀ s t : State, MemsCanonical s → step s = .next t → MemsCanonical t

/-- Every step leaves the wear count of every keep register as it was or higher, changes a keep register only with its
count, and never changes one whose count has reached 200,000 (R536). -/
def Obligations.KeepRegisterEndurance : Prop :=
  ∀ (s t : State) (i : Nat), step s = .next t →
    keepWear s i ≤ keepWear t i
    ∧ (keepReg t i ≠ keepReg s i → keepWear s i < keepWear t i ∧ keepWear s i < 200000)

/-- The anti-rollback version, keep register 1, never falls: in any state whose shadow does not name it, a step keeps it
or raises it, and leaves a state whose shadow again does not name it (R558). -/
def Obligations.AntiRollbackVersionNeverFalls : Prop :=
  ∀ s t : State, ShadowSpares s → step s = .next t →
    (keepReg s 1).toNat ≤ (keepReg t 1).toNat ∧ ShadowSpares t

/-- No row of the table touches the queue of waiting commands. -/
def Obligations.NoRowTouchesTheQueue : Prop :=
  ∀ (c : Instr) (s t : State), exec c s = .next t → t.pending = s.pending

/-- What a cold start finds: memories in canonical form, an empty queue, a shadow that names no register 1, keep registers
that were never written (the model's choice, log 8); and of the registers that R520 names, tallies, seed and windows
clear, region tables disabled, streams unbound, queues disabled, every domain ON. -/
def Obligations.ResetState : Prop :=
  MemsCanonical State.reset ∧ ShadowSpares State.reset ∧ State.reset.pending = []
    ∧ (∀ i, keepWear State.reset i = 0)
    ∧ (∀ i, getTally State.reset i = 0#32)
    ∧ (∀ l k, (getRegion State.reset l k).enable = false)
    ∧ (∀ i, (getWindow State.reset i).opened = false)
    ∧ (∀ i, (getStream State.reset i).bound = false)
    ∧ (∀ q, (getQ State.reset q).enable = false ∧ (getQ State.reset q).func = 0#5)
    ∧ (∀ d, pd State.reset d = .settled .on)
    ∧ State.reset.head.reservations = [] ∧ State.reset.faults.vFill = 0 ∧ State.reset.glob.timestamp = 0#64
    ∧ State.reset.dies.fencedSpindles = [] ∧ State.reset.dies.fencedLathes = [] ∧ State.reset.glob.ready = false

/-! ### The life of a command -/

/-- How a command ends: without error 0x00 or, with any flag set, 0x01; with an error its code; and in both cases every
flag raised (R331). Said of the operation whose row ends it and of the reply made from it. -/
def Obligations.StatusOfACommand : Prop :=
  ∀ (s : State) (r : OpRef) (o : Op) (f : BitVec 8), findOp s r.q r.tag = some o →
    (∃ p, findOp (endWith s o f none) r.q r.tag = some p ∧ p.phase = .ended ∧ p.flags = o.flags ||| f
      ∧ p.status = (if o.flags ||| f = 0#8 then 0x00 else 0x01))
    ∧ ∀ e : Fail, ∃ p, findOp (endWith s o f (some e)) r.q r.tag = some p ∧ p.phase = .ended
      ∧ p.flags = o.flags ||| f ∧ p.status = e.code

/-- Every field of a reply reads back at the bits R329 gives it, and every field of a violation-log entry at those R498
gives it; their reserved bits are zero. -/
def Obligations.RecordFieldsReadBack : Prop :=
  (∀ q tag dup st fl code addr kind remote : Nat,
    q < 64 → tag < 8192 → dup < 2 → st < 256 → fl < 256 → code < 256 → addr < 2 ^ 48 → kind < 4 → remote < 64 →
    let w := (replyWord q tag dup st fl code addr kind remote).toNat
    bits w 0 13 = tag ∧ bits w 13 1 = dup ∧ bits w 14 2 = 0 ∧ bits w 16 8 = st ∧ bits w 24 8 = fl ∧ bits w 32 8 = code
      ∧ bits w 40 6 = q ∧ bits w 46 18 = 0 ∧ bits w 64 48 = (if kind = 0 then 0 else addr) ∧ bits w 112 4 = kind
      ∧ bits w 116 4 = 0 ∧ bits w 120 6 = (if kind = 3 then remote else 0) ∧ bits w 126 2 = 0)
  ∧ ∀ (time : BitVec 64) (x : LogRec),
    x.addr < 2 ^ 48 → x.kind < 16 → x.code < 256 → x.source < 8 → x.func < 32 → x.queue < 64 → x.remote < 64 →
    x.tag < 8192 → x.opcode < 256 → x.detail < 2 ^ 32 →
    let w := (logWord time x).toNat
    bits w 0 64 = time.toNat ∧ bits w 64 48 = x.addr ∧ bits w 112 4 = x.kind ∧ bits w 120 8 = x.code
      ∧ bits w 128 3 = x.source ∧ bits w 136 5 = x.func ∧ bits w 144 6 = x.queue ∧ bits w 152 6 = x.remote
      ∧ bits w 160 13 = x.tag ∧ bits w 176 8 = x.opcode ∧ bits w 192 32 = x.detail
      ∧ bits w 116 4 = 0 ∧ bits w 131 5 = 0 ∧ bits w 141 3 = 0 ∧ bits w 150 2 = 0 ∧ bits w 158 2 = 0 ∧ bits w 173 3 = 0
      ∧ bits w 184 8 = 0 ∧ bits w 224 32 = 0

/-- A packet is accepted: from a queue that accepts, the packet at SQ_HEAD is read and SQ_HEAD moves past it; where the
queue feeds no relay, a packet whose tag is free enters as an operation (R307, R314, R327), and where it feeds one the
packet is sent to the relay's target (R409). -/
def Obligations.AcceptanceEntersThePacket : Prop :=
  ∀ (q : Nat) (h : HostReply) (s t : State) (w : Nat),
    let u := heard s q h
    mayAccept u q = true → readPacket u q h = (t, .ok w) →
    (relayOf u q = none → (findOp (passHead t q) q (bits w 8 13)).isSome = false →
      exec (.packetAccept q h) s = .next (enterOp (passHead t q) { mkOp q w with relayed := headRelayed u q } h))
    ∧ ∀ r, relayOf u q = some r → exec (.packetAccept q h) s = .next (relaySend (passHead t q) r w)

/-- A packet whose tag is in flight in its queue is refused at acceptance with 0x11 and `dup`; the operation in flight,
and every other, stays as it was, and a tag in flight in another queue is no conflict (R328). -/
def Obligations.DuplicateTagIsRefused : Prop :=
  (∀ (s : State) (q tag : Nat), (∀ o ∈ s.head.ops, o.tag = tag → o.q ≠ q) → (findOp s q tag).isSome = false)
  ∧ ∀ (q : Nat) (h : HostReply) (s t : State) (w : Nat),
    let u := heard s q h
    mayAccept u q = true → relayOf u q = none →
    readPacket u q h = (t, .ok w) → (findOp (passHead t q) q (bits w 8 13)).isSome = true →
    exec (.packetAccept q h) s = .next (refuseDup (passHead t q) q w)
    ∧ (refuseDup (passHead t q) q w).head.ops = t.head.ops
    ∧ ∃ v, v.head.ops = t.head.ops ∧ refuseDup (passHead t q) q w
        = giveReply v q (replyWord q (bits w 8 13) 1 0x11 0 (bits w 0 8) 0 0 0) (pIrq (mkOp q w))

/-- A command starts: every check passes, no activation runs beside an `MG.FW_ACTIVATE`, and the operation waits for its
row as started (R313, R315, R549). -/
def Obligations.StartAfterEveryCheck : Prop :=
  ∀ (r : OpRef) (s : State) (o p : Op),
    findOp s r.q r.tag = some o → mayStart (heard s r.q r.host) o r.host = true →
    let x := startOp (takeService (heard s r.q r.host) r.q) o r.host
    x.res = .ok p → parityHit x.s p = none → (opDraws p && !opDraws o) = false →
    (opCode o = 0x69 → s.firm.activating = none) →
    ∃ t u, exec (.commandStart r) s = .next t ∧ findOp t r.q r.tag = some u ∧ u.phase = .started
      ∧ u.packet = o.packet

/-- What holds a command back (R318, R319, R311, R324): it does not start unless its wait entries hold, GE by the sign of
the difference and EQ by equality; nor behind an earlier packet of its queue when it carries `fence`, when either is
`SY.FENCE`, when one of its own class waits to start, when a `SY.WAIT` still waits, or when a started one holds its
accumulator slots; nor before a queue that comes earlier in the rotation and has a command that could start (R314). -/
def Obligations.StartsAreOrdered : Prop :=
  ∀ (r : OpRef) (s t : State) (o : Op), findOp s r.q r.tag = some o → exec (.commandStart r) s = .next t →
    let m := heard s r.q r.host
    o.phase = .accepted
    ∧ (∀ q ∈ before s.head.served.toNat o.q, ∀ p ∈ m.head.ops, p.q = q → startable m p r.host = false)
    ∧ (pWaitAny o = false → ∀ i, i < pNWait o → waitHolds s o i = true)
    ∧ (pWaitAny o = true → pNWait o ≠ 0 → ∃ i, i < pNWait o ∧ waitHolds s o i = true)
    ∧ (∀ i, waitHolds s o i = true →
        (bits (waitEntry o i) 16 2 = 0 →
          (getTally s (bits (waitEntry o i) 0 12) - BitVec.ofNat 32 (bits (waitEntry o i) 32 32)).toNat < 2 ^ 31)
        ∧ (bits (waitEntry o i) 16 2 = 1 →
          getTally s (bits (waitEntry o i) 0 12) = BitVec.ofNat 32 (bits (waitEntry o i) 32 32)))
    ∧ ∀ p ∈ earlier s o, p.q = o.q →
        pFence o = false ∧ opCode o ≠ 0x52 ∧ opCode p ≠ 0x52
        ∧ (classOf (opCode p) = classOf (opCode o) → p.phase ≠ .accepted)
        ∧ (opCode p = 0x50 → p.phase = .accepted → waitsHold s p = true)
        ∧ setsHold m (peeked m p r.host) (peeked m o r.host) = false

/-- A packet with a privileged opcode from a queue whose FUNC is not 0 ends with 0x10 when it starts; nothing is raised
against it before (no core word that it names holds an error past correction, R491) (R347). -/
def Obligations.PrivilegedOpcodeIsRefused : Prop :=
  ∀ (r : OpRef) (s : State) (o : Op),
    findOp s r.q r.tag = some o → mayStart (heard s r.q r.host) o r.host = true →
    (∀ w ∈ coreOfPacket o, coreBad s w = false) →
    (getQ s r.q).func ≠ 0#5 →
    (opCode o = 0x46 ∨ opCode o = 0x61 ∨ opCode o = 0x63 ∨ opCode o = 0x64 ∨ (0x66 ≤ opCode o ∧ opCode o ≤ 0x6B)) →
    ∃ t u, exec (.commandStart r) s = .next t ∧ findOp t r.q r.tag = some u ∧ u.phase = .ended ∧ u.status = 0x10

/-- An ended command completes: its signals and its reply, and its tag is released once the reply is written; a reply that
waited for room is written once there is room, in completion order (R308, R316, R317). -/
def Obligations.CompletionReleasesTheTag : Prop :=
  (∀ (r : OpRef) (s : State) (o : Op),
    findOp s r.q r.tag = some o → o.phase = .ended → replyWaits s r.q r.tag = false →
    (replyWaits (finishOp s o) r.q r.tag = false →
      exec (.commandComplete r) s = .next (delOp (finishOp s o) r.q r.tag)
      ∧ findOp (delOp (finishOp s o) r.q r.tag) r.q r.tag = none)
    ∧ (replyWaits (finishOp s o) r.q r.tag = true → exec (.commandComplete r) s = .next (finishOp s o)))
  ∧ ∀ (q : Nat) (s : State) (w : BitVec 128) (irq : Bool) (rest : List (BitVec 128 × Bool)),
    (getQ s q).deferred = (w, irq) :: rest → stqRoom s q = true → ringBad s q = false →
    let written := returnReply (writeReply (setQ s q { getQ s q with deferred := rest }) q w irq) q w irq
    (bit w.toNat 13 = true → exec (.replyWrite q) s = .next (endReset written q))
    ∧ (bit w.toNat 13 = false →
        exec (.replyWrite q) s = .next (endReset (delOp written q (bits w.toNat 0 13)) q))

/-- A reply advances STQ_TAIL by one, around the ring's end with a new phase, sets HALTED when HALT_ON_ERR is 1 and its
status is 0x10 or above, and changes no other queue; a halted queue accepts nothing (R308, R333). -/
def Obligations.ReplyAdvancesTheRing : Prop :=
  ∀ (q : Nat) (s : State) (w : BitVec 128) (irq : Bool),
    let v := getQ s q
    let u := getQ (writeReply s q w irq) q
    (v.stqTail.toNat + 1 = 2 ^ v.stqLog2.toNat → u.stqTail = 0#16 ∧ u.phase = !v.phase)
    ∧ (v.stqTail.toNat + 1 ≠ 2 ^ v.stqLog2.toNat → u.stqTail = v.stqTail + 1#16 ∧ u.phase = v.phase)
    ∧ (v.haltOnErr = true → 0x10 ≤ bits w.toNat 16 8 → u.halted = true)
    ∧ (v.haltOnErr = false ∨ bits w.toNat 16 8 < 0x10 → u.halted = v.halted)
    ∧ (∀ p, p ≠ q → getQ (writeReply s q w irq) p = getQ s p)
    ∧ (writeReply s q w irq).head.ops = s.head.ops
    ∧ ∀ t : State, (getQ t q).halted = true → mayAccept t q = false

/-! ### Engine commands -/

/-- Every Matrix Engine row of a started command answers a next state in which the command has ended; where no error of
the stores waits to be found (R488 to R491), that state is the body's writes with the command ended by its flags and
status, or, where the open sets no longer are what the command needs, the command ended with that error (R116, R118). -/
def Obligations.MatrixRowsComplete : Prop :=
  ∀ (r : OpRef) (s : State) (o : Op),
    ArrayRow (.mmDense r) 0x10 productBody r s o
    ∧ ArrayRow (.mmSparse24 r) 0x11 productBody r s o
    ∧ ArrayRow (.mmCsr r) 0x12 productBody r s o
    ∧ ArrayRow (.mmRough r) 0x13 roughBody r s o
    ∧ ArrayRow (.mmFinish r) 0x14 finishBody r s o
    ∧ ArrayRow (.mmAccRead r) 0x15 accReadBody r s o
    ∧ ArrayRow (.mmAccWrite r) 0x16 accWriteBody r s o
    ∧ ArrayRow (.mmDrain r) 0x17 drainBody r s o

/-- Every Vector Engine row of a started command is its body's writes, with the command ended by its flags and status. -/
def Obligations.VectorRowsComplete : Prop :=
  ∀ (r : OpRef) (s : State) (o : Op),
    (Started s r 0x20 o → exec (.veElementwise r) s = .next (ran elementwiseBody r s o))
    ∧ (Started s r 0x21 o → exec (.veReduce r) s = .next (ran reduceBody r s o))
    ∧ (Started s r 0x22 o → exec (.veSoftmax r) s = .next (ran softmaxBody r s o))
    ∧ (Started s r 0x23 o → exec (.veSoftmaxBwd r) s = .next (ran softmaxBwdBody r s o))
    ∧ (Started s r 0x24 o → exec (.veNorm r) s = .next (ran normBody r s o))
    ∧ (Started s r 0x25 o → exec (.veNormBwd r) s = .next (ran normBwdBody r s o))
    ∧ (Started s r 0x26 o → exec (.veSumPartials r) s = .next (ran sumPartialsBody r s o))
    ∧ (Started s r 0x27 o → exec (.veKnotFix r) s = .next (ran knotFixBody r s o))
    ∧ (Started s r 0x28 o → exec (.veAmax r) s = .next (ran amaxBody r s o))
    ∧ (Started s r 0x29 o → exec (.veQuantize r) s = .next (ran quantizeBody r s o))
    ∧ (Started s r 0x2A o → exec (.veTopkMerge r) s = .next (ran topkMergeBody r s o))
    ∧ (Started s r 0x2B o → exec (.veOptStep r) s = .next (ran optStepBody r s o))

/-- Every Copy Engine row of a started command is its body's writes, with the command ended by its flags and status; a
write of host memory waits while the queue's function is in D3hot (R427). -/
def Obligations.CopyRowsComplete : Prop :=
  ∀ (r : OpRef) (s : State) (o : Op),
    (Started s r 0x30 o → heldByD3 s o = false → exec (.ceCopy r) s = .next (ran copyBody r s o))
    ∧ (Started s r 0x31 o → ccForm o = 0 → exec (.copyCompressPair24 r) s = .next (ran pair24Body r s o))
    ∧ (Started s r 0x31 o → ccForm o = 1 → exec (.copyCompressRows r) s = .next (ran rowsBody r s o))
    ∧ (Started s r 0x31 o → ccForm o = 2 → exec (.copyCompressRoute r) s = .next (ran routeBody r s o))
    ∧ (Started s r 0x31 o → ccForm o = 3 → exec (.copyCompressActive r) s = .next (ran activeBody r s o))
    ∧ (Started s r 0x32 o → exec (.ceTranspose r) s = .next (ran transposeBody r s o))
    ∧ (Started s r 0x33 o → exec (.ceGather r) s = .next (ran (moveLines false) r s o))
    ∧ (Started s r 0x34 o → exec (.ceScatter r) s = .next (ran (moveLines true) r s o))
    ∧ (Started s r 0x35 o → heldByD3 s o = false → exec (.ceFill r) s = .next (ran fillBody r s o))

/-- A command of the Vector Engine, or one of the Copy Engine that works on tensors, leaves everything but device memory,
its own queue's statistics, its own operation, the dies' stores and the counters and logs as it was; one of the Matrix
Engine also, but for the tally that a kerf exchange counts on (R172) and the low-slice rails (R272), where no error of
the stores waits to be found. That a row runs a whole command is the model's choice (log 3). -/
def Obligations.EngineRowsLeaveTheRest : Prop :=
  ∀ (r : OpRef) (s t : State) (c : Instr), exec c s = .next t →
    (c ∈ [.veElementwise r, .veReduce r, .veSoftmax r, .veSoftmaxBwd r, .veNorm r, .veNormBwd r, .veSumPartials r,
        .veKnotFix r, .veAmax r, .veQuantize r, .veTopkMerge r, .veOptStep r, .copyCompressPair24 r, .copyCompressRows r,
        .copyCompressRoute r, .copyCompressActive r, .ceTranspose r, .ceGather r, .ceScatter r] →
      LeavesTheRest s t r ∧ t.head.tallies = s.head.tallies ∧ t.power = s.power)
    ∧ (c ∈ [.mmDense r, .mmSparse24 r, .mmCsr r, .mmRough r, .mmFinish r, .mmAccRead r, .mmAccWrite r, .mmDrain r] →
      s.mems.upsets = [] → LeavesTheRest s t r)

/-- A Vector Engine command that writes one tensor changes no other byte of HBM: outside the lines of its result, over the
rows it works on, every byte of HBM is as it was (R209, R352, R360, R361). -/
def Obligations.VectorWritesOnlyItsResult : Prop :=
  ∀ (r : OpRef) (s t : State) (o : Op) (a : Nat), MemsCanonical s → findOp s r.q r.tag = some o → isHbm a = true →
    let m := (dynRows o (refA o)).rows
    let outside := fun w => ∀ x ∈ ((refC o).withRows m).ranges w, a < x.1 ∨ x.1 + x.2 ≤ a
    ((exec (.veElementwise r) s = .next t ∨ exec (.veSoftmaxBwd r) s = .next t
        ∨ (fVeSub o = false ∧ exec (.veSoftmax r) s = .next t)) → outside (fmtBits (outFmt o)) →
      memByte t.mems.dev a = memByte s.mems.dev a)
    ∧ ((exec (.veTopkMerge r) s = .next t ∨ (fVeSub o = true ∧ exec (.veSoftmax r) s = .next t)) → outside 64 →
      memByte t.mems.dev a = memByte s.mems.dev a)
    ∧ (exec (.veReduce r) s = .next t → outside 32 → memByte t.mems.dev a = memByte s.mems.dev a)

/-- Between places in HBM that are served and hold no error, a copy stores at its destination the bytes of its source, a
fill stores its 32-bit value repeated, and neither changes another byte of the device; the command ends without error
(R363, R364). That a row runs a whole command is the model's choice (log 3). -/
def Obligations.CopyAndFillMoveTheBytes : Prop :=
  ∀ (r : OpRef) (s : State) (o : Op) (a : Nat), MemsCanonical s → s.mems.upsets = [] → s.mems.poison = [] →
    (∀ d, 64 ≤ d → d < 80 → pdOn s d = true) →
    (Started s r 0x30 o → cpSrcHost o = false → cpDstHost o = false → cpSrcRegion o = false → cpDstRegion o = false →
      cpSrc o + cpLen o ≤ hbmEnd → cpDst o + cpLen o ≤ hbmEnd →
      (cpSrc o + cpLen o ≤ cpDst o ∨ cpDst o + cpLen o ≤ cpSrc o) →
      ∃ t u, exec (.ceCopy r) s = .next t ∧ findOp t r.q r.tag = some u ∧ u.phase = .ended ∧ u.flags = o.flags
        ∧ u.status ≤ 1
        ∧ memByte t.mems.dev a = if cpDst o ≤ a ∧ a < cpDst o + cpLen o then memByte s.mems.dev (cpSrc o + (a - cpDst o))
            else memByte s.mems.dev a)
    ∧ (Started s r 0x35 o → flDstHost o = false → flDst o + flLen o ≤ hbmEnd →
      ∃ t u, exec (.ceFill r) s = .next t ∧ findOp t r.q r.tag = some u ∧ u.phase = .ended ∧ u.flags = o.flags
        ∧ u.status ≤ 1
        ∧ memByte t.mems.dev a = if flDst o ≤ a ∧ a < flDst o + flLen o
            then BitVec.ofNat 8 (flValue o >>> (8 * ((a - flDst o) % 4))) else memByte s.mems.dev a)

/-- A fill leaves every byte outside its destination as it was: HBM and bench bytes outside the bytes it stores (a bench
row that it reaches is stored whole, R151), and host memory outside the host bytes that it stores for its function (R364,
R431). -/
def Obligations.FillFrame : Prop :=
  ∀ (r : OpRef) (s t : State) (o : Op) (a : Nat), MemsCanonical s → Started s r 0x35 o →
    exec (.ceFill r) s = .next t →
    let first := hostKey (opFunc s o) (flDst o)
    let host := memByte (heard s r.q r.host).mems.host a
    (flDstHost o = true →
      memByte t.mems.dev a = memByte s.mems.dev a
      ∧ (a < first ∨ first + flLen o ≤ a → memByte t.mems.host a = host))
    ∧ (flDstHost o = false → memByte t.mems.host a = host
      ∧ (isHbm (flDst o) = true → a < flDst o ∨ flDst o + flLen o ≤ a → memByte t.mems.dev a = memByte s.mems.dev a)
      ∧ (isHbm (flDst o) = false → a < flDst o / 512 * 512 ∨ (flDst o + flLen o + 511) / 512 * 512 ≤ a →
          memByte t.mems.dev a = memByte s.mems.dev a))

/-- A row commit stores the bytes supplied at their place and zeros in the rest of the row, and leaves every byte outside
the row as it was (R151). -/
def Obligations.ShortRowWriteIsZeroFilled : Prop :=
  ∀ (s : State) (row off a : Nat) (bytes : List Byte), MemsCanonical s → off + bytes.length ≤ 512 →
    let t := rowCommit s row off bytes
    (row + off ≤ a → a < row + off + bytes.length →
      memByte t.mems.dev a = bytes.getD (a - (row + off)) 0#8)
    ∧ (row ≤ a → a < row + 512 → (a < row + off ∨ row + off + bytes.length ≤ a) → memByte t.mems.dev a = 0#8)
    ∧ ((a < row ∨ row + 512 ≤ a) → memByte t.mems.dev a = memByte s.mems.dev a)

/-! ### Values -/

/-- An I48 add: the sum of a finite entry and a delivered integer is the new value when it lies in 56 bits, else the
infinity of its sign with OVERFLOW and a zero value field (R105). The epilogue reads a finite entry outside 48 bits as
the infinity of its sign with OVERFLOW, and one inside as value × 2^i48_exp, exactly (R106). -/
def Obligations.I48AddAndRead : Prop :=
  ∀ (w : Nat) (v x e : Int), i48Ext w = .fin (v : Rat) →
    (-(2 ^ 55 : Int) ≤ v + x → v + x ≤ 2 ^ 55 - 1 →
      i48Ext (accAdd .i48 w (.fin (x : Rat))).1 = .fin ((v + x : Int) : Rat) ∧ (accAdd .i48 w (.fin (x : Rat))).2 = 0#8)
    ∧ (2 ^ 55 - 1 < v + x →
      i48Ext (accAdd .i48 w (.fin (x : Rat))).1 = .pinf ∧ bits (accAdd .i48 w (.fin (x : Rat))).1 0 56 = 0
      ∧ (accAdd .i48 w (.fin (x : Rat))).2 = fOverflow)
    ∧ (v + x < -(2 ^ 55 : Int) →
      i48Ext (accAdd .i48 w (.fin (x : Rat))).1 = .ninf ∧ bits (accAdd .i48 w (.fin (x : Rat))).1 0 56 = 0
      ∧ (accAdd .i48 w (.fin (x : Rat))).2 = fOverflow)
    ∧ (-(2 ^ 47 : Int) ≤ v → v ≤ 2 ^ 47 - 1 → accRead .i48 e w = (.fin (pow2 e * (v : Rat)), 0#8))
    ∧ (2 ^ 47 - 1 < v → accRead .i48 e w = (.pinf, fOverflow))
    ∧ (v < -(2 ^ 47 : Int) → accRead .i48 e w = (.ninf, fOverflow))

/-- For C64 and A16 the rescale unit delivers the product rounded to 48 significant bits times its power of two (R82); the
rounding is exact below 2^48, to the nearest multiple of the last place, and away from zero on a tie. -/
def Obligations.RoundTo48Bits : Prop :=
  (∀ (f : AccFmt) (e : Int) (g : GroupRes), f ≠ .i48 → g.nonfinite = false →
    deliver f e g = .fin (roundSig 48 ((g.reg * g.ma * g.mb : Int) : Rat) * pow2 (g.xa + g.xb)))
  ∧ (∀ p : Int, p.natAbs < 2 ^ 48 → roundSig 48 (p : Rat) = (p : Rat))
  ∧ ∀ x : Rat, x ≠ 0 → ∃ (m l : Int), roundSig 48 x = (m : Rat) * pow2 l ∧ 2 ^ 47 ≤ m.natAbs ∧ m.natAbs ≤ 2 ^ 48
    ∧ rabs (roundSig 48 x - x) ≤ pow2 (l - 1)
    ∧ (rabs (roundSig 48 x - x) = pow2 (l - 1) → rabs x < rabs (roundSig 48 x))

/-- What the rescale unit delivers: canonical NaN from a non-finite group whatever its scales, exact zero where a scale
is zero, and under I48 the integer P × 2^(X − e), exact for X ≥ e, else to the nearest integer with ties away from zero
(R83, R84). -/
def Obligations.DeliveredValues : Prop :=
  ∀ (f : AccFmt) (e : Int) (g : GroupRes),
    let p := g.reg * g.ma * g.mb
    let x := g.xa + g.xb
    (g.nonfinite = true → deliver f e g = .nan)
    ∧ (g.nonfinite = false → g.ma = 0 ∨ g.mb = 0 → deliver f e g = .fin 0)
    ∧ (g.nonfinite = false → f = .i48 → e ≤ x → deliver f e g = .fin ((p * 2 ^ (x - e).toNat : Int) : Rat))
    ∧ (g.nonfinite = false → f = .i48 → x < e → ∃ y : Int, deliver f e g = .fin (y : Rat)
        ∧ 2 * (y * 2 ^ (e - x).toNat - p).natAbs ≤ 2 ^ (e - x).toNat
        ∧ (2 * (y * 2 ^ (e - x).toNat - p).natAbs = 2 ^ (e - x).toNat → p.natAbs < (y * 2 ^ (e - x).toNat).natAbs))

/-- The signed digits of a magnitude, most significant first, add up to it, no two stand next to each other, and a
magnitude below 2^n has at most n / 2 + 1 of them (R72). -/
def Obligations.SignedDigitsDenoteTheMagnitude : Prop :=
  ∀ m : Nat, digitsVal (csd m) = (m : Int)
    ∧ (csd m).Pairwise (fun d e => e.2 + 2 ≤ d.2)
    ∧ ∀ n, m < 2 ^ n → (csd m).length ≤ n / 2 + 1

/-- Every finite code of a float format but −0 is what its own value converts back to, under a scale of 1 (R29, R64). -/
def Obligations.FloatCodesRoundTrip : Prop :=
  ∀ (f : Fmt) (sh : FpShape) (c : Nat) (x : Rat), fpShape f = some sh → c < 2 ^ fmtBits f →
    floatVal sh c = .fin x → c ≠ 2 ^ (sh.mb + sh.eb) → quantFin f [] .near x 1 = c

/-- Conversion to a float format is to a nearest value of it: no code's value lies closer to a number within the format's
range than that of the code it is given (R64, R129). -/
def Obligations.ConversionIsToNearest : Prop :=
  ∀ (f : Fmt) (sh : FpShape) (x : Rat), fpShape f = some sh → rabs x ≤ fpMax sh →
    ∃ v : Rat, floatVal sh (quantFin f [] .near x 1) = .fin v
      ∧ ∀ (c : Nat) (w : Rat), floatVal sh c = .fin w → rabs (v - x) ≤ rabs (w - x)

/-! ### Synchronisation, tallies and quotas -/

/-- Tallies are zero after a cold start and a reset of any other kind changes none where no command is in flight to
signal (R520, R521); an ADD adds modulo 2^32, a SET writes its value, and a BAR0 write is a SET of all 32 bits
(R322). -/
def Obligations.TallyRules : Prop :=
  (∀ i, getTally State.reset i = 0#32)
  ∧ (∀ (s : State) (i : Nat), getTally (powerLoss s) i = 0#32)
  ∧ (∀ (s t : State) (st : StartIn) (i : Nat), s.head.ops = [] →
      exec .perstAssert s = .next t ∨ exec (.hotReset st) s = .next t ∨ exec (.pcieLinkLoss st) s = .next t
        ∨ (s.glob.coldPending = false ∧ exec (.perstDeassert st) s = .next t) →
      getTally t i = getTally s i)
  ∧ (∀ (s : State) (i j n : Nat), getTally (addTally s i n) j
      = if i = j then BitVec.ofNat 32 ((getTally s i).toNat + n) else getTally s j)
  ∧ (∀ (s : State) (i j : Nat) (v : BitVec 32), getTally (setTally s i v) j = if i = j then v else getTally s j)
  ∧ (∀ (s : State) (rq : Req) (i : Nat) (v : BitVec 32), i < 4096 → Reaches s rq 0 (tallyOff rq.fn i) 4 →
      Owns s rq (.tally i) →
      exec (.tallyWrite rq i v) s = .next (setTally s i v))

/-- The headstock's rows of a started command. `SY.WAIT` and `SY.FENCE` end, `SY.SIGNAL` applies its signals and ends, a
window opens or closes, `MG.STREAM_BIND` ends (R298, R318, R321, R368); a query, a quota, the power cap, a pattern, a keep
register, an image block in the order of the starts, the confirmation of an image and a fence are their bodies' writes,
with the command ended by its flags and status (R370 to R379, R546); an activation takes its next event, also without its
command (R523, R548). What writes host memory waits in D3hot (R427). A snapshot runs in one row, or goes on part by part
(R509 to R512; how a restore is cut into rows is the model's choice, log 43). -/
def Obligations.HeadstockRowsComplete : Prop :=
  SnapshotRows ∧ ∀ (r : OpRef) (s : State) (o : Op),
    (Started s r 0x50 o → exec (.syWait r) s = .next (ran onlyEnds r s o))
    ∧ (Started s r 0x51 o → exec (.sySignal r) s = .next (endOk (applySignals s o) { o with signalled := true } 0#8))
    ∧ (Started s r 0x52 o → exec (.syFence r) s = .next (ran onlyEnds r s o))
    ∧ (Started s r 0x44 o → exec (.feWindowOpen r) s = .next (ran windowOpenBody r s o))
    ∧ (Started s r 0x45 o → exec (.feWindowClose r) s = .next (ran windowCloseBody r s o))
    ∧ (Started s r 0x65 o → exec (.mgStreamBind r) s = .next (ran onlyEnds r s o))
    ∧ (Started s r 0x60 o → heldByD3 s o = false → exec (.mgQuery r) s = .next (ran queryBody r s o))
    ∧ (Started s r 0x62 o → quOp o = 0 → exec (.reserveHbm r) s = .next (ran (reserveBody false) r s o))
    ∧ (Started s r 0x62 o → quOp o = 1 → exec (.reserveBench r) s = .next (ran (reserveBody true) r s o))
    ∧ (Started s r 0x62 o → quOp o = 2 → exec (.freeHbm r) s = .next (ran (freeBody false) r s o))
    ∧ (Started s r 0x62 o → quOp o = 3 → exec (.freeBench r) s = .next (ran (freeBody true) r s o))
    ∧ (Started s r 0x62 o → quOp o = 4 → exec (.limitQueue r) s = .next (ran (limitBody quQueue) r s o))
    ∧ (Started s r 0x62 o → quOp o = 5 → exec (.limitFunc r) s = .next (ran (limitBody fun o => 64 + quFunc o) r s o))
    ∧ (Started s r 0x62 o → quOp o = 6 → exec (.tallyRange r) s = .next (ran tallyRangeBody r s o))
    ∧ (Started s r 0x63 o → exec (.mgPowerCap r) s = .next (ran powerCapBody r s o))
    ∧ (Started s r 0x66 o → exec (.mgPatternLoad r) s = .next (ran patternBody r s o))
    ∧ (Started s r 0x67 o → exec (.mgKeepWrite r) s = .next (ran keepBody r s o))
    ∧ (Started s r 0x68 o → (stagesDue s).head? = some (r.q, r.tag) →
        exec (.mgFwStage r) s = .next (ran stageBody r s o))
    ∧ (∀ b, Started s r 0x69 o → s.firm.activating = some (r.q, r.tag) →
        exec (.mgFwActivate r b) s = .next (activateRow s (some o) b))
    ∧ (∀ b, s.firm.activating.isSome = true → activator s = none →
        exec (.mgFwActivate r b) s = .next (activateRow s none b))
    ∧ (Started s r 0x6A o → exec (.mgFwConfirm r) s = .next (ran fwConfirmBody r s o))
    ∧ (Started s r 0x6B o → isFence o = true → exec (.fenceUnit r) s = .next (ran fenceBody r s o))
    ∧ (∀ b, Started s r 0x6B o → isFence o = false → exec (.unfenceUnit r b) s = .next (ran (unfenceBody b) r s o))

/-- A reservation that would take the queue's or the function's use above its limit ends with 0x31 and reserves nothing;
any other is added; use is the sum of the sizes of the reservations (R340). -/
def Obligations.ReservationRule : Prop :=
  ∀ (r : OpRef) (s : State) (o : Op) (bench : Bool), Started s r 0x62 o → quOp o = (if bench then 1 else 0) →
    let c := if bench then Instr.reserveBench r else Instr.reserveHbm r
    let lim := fun k => if bench then (getLimits s k).bench else (getLimits s k).hbm * 0x20_0000
    let use := fun k => ((reservedBy s bench k).map (·.size)).sum
    let f := 64 + opFunc s o
    (lim o.q < use o.q + quSize o ∨ lim f < use f + quSize o →
      ∃ t u, exec c s = .next t ∧ findOp t r.q r.tag = some u ∧ u.phase = .ended ∧ u.status = 0x31
        ∧ t.head.reservations = s.head.reservations)
    ∧ (use o.q + quSize o ≤ lim o.q → use f + quSize o ≤ lim f →
      ∃ t u, exec c s = .next t ∧ findOp t r.q r.tag = some u ∧ u.phase = .ended ∧ u.status ≤ 1
        ∧ t.head.reservations = s.head.reservations ++ [⟨o.q, opFunc s o, bench, quBase o, quSize o⟩])

/-- The power cap a command sets: the value asked for, limited to 190 W and 450 W, with CLAMPED exactly when it was
(R375). -/
def Obligations.PowerCapIsClamped : Prop :=
  ∀ (s : State) (o : Op) (h : HostReply),
    let x := powerCapBody s o h
    (pcWatts o < 190 → x.s.power.capW = 190#16 ∧ x.flags = fClamped)
    ∧ (450 < pcWatts o → x.s.power.capW = 450#16 ∧ x.flags = fClamped)
    ∧ (190 ≤ pcWatts o → pcWatts o ≤ 450 → x.s.power.capW.toNat = pcWatts o ∧ x.flags = 0#8)
    ∧ x.err = none ∧ x.s.head = s.head ∧ x.s.mems = s.mems ∧ x.s.firm = s.firm ∧ x.s.dies = s.dies

/-- `MG.POWER_DOMAIN` on a settled domain: the state it holds already ends the command at once; a domain a trip turned
off stays off until TRIP is cleared; any other request begins to switch (R471, R473, R479). A switch ends in the state
asked for, once its drain is done or its supply is up; a drain that takes too long returns the domain to ON (R473, R475,
R477). -/
def Obligations.PowerDomainSwitches : Prop :=
  (∀ (r : OpRef) (s : State) (o : Op) (src : Pd), Started s r 0x61 o → pd s (mpDomain o) = .settled src →
    (src = wantedPd o → exec (.mgPowerDomain r) s = .next (endOk s o 0#8))
    ∧ (src ≠ wantedPd o → (wantedPd o = .on ∧ s.power.trip = true ∧ trippable (mpDomain o) = true) →
        exec (.mgPowerDomain r) s = .next (endFail s o 0#8 (domainFail (mpDomain o))))
    ∧ (src ≠ wantedPd o → ¬(wantedPd o = .on ∧ s.power.trip = true ∧ trippable (mpDomain o) = true) →
        exec (.mgPowerDomain r) s
          = .next (beginSwitch (putOp s { o with phase := .waiting }) (mpDomain o) src (wantedPd o) o.q o.tag)))
  ∧ ∀ (d : Nat) (s : State) (src tgt : Pd) (q tag : Nat), pd s d = .switching src tgt q tag →
    ((src = .on ∨ (src = .retain ∧ tgt = .off)) → portWaits s d = false →
      exec (.domainDrainDone d) s = .next (endSwitch (enterPd s d src tgt) q tag none))
    ∧ (¬(src = .on ∨ (src = .retain ∧ tgt = .off)) →
      exec (.domainOnComplete d) s = .next (endSwitch (enterPd s d src tgt) q tag none))
    ∧ (∀ a, src = .on → (d < 72 ∨ 78 ≤ d) →
      exec (.domainDrainTimeout d a) s = .next (endSwitch (setPd s d (.settled .on)) q tag (some (failAt 0x23 a))))
    ∧ (∀ a, src = .on → Runs (.domainDrainTimeout d a) s)

/-! ### The fabric -/

/-- The fabric's commands begin. A transfer to the device itself runs through its own windows, and one to a peer that a
route reaches sends its packets (R367, R405, R407); a collective sends its contribution, once no recomputation of
routes is due (R413, R415 to R420); `FE.RELAY` asks its target to take the queue's packets, or ends with 0x23 where the
die bridge cuts the route off (R18), and its end tells the target once every reply is back (R369, R408). The packets'
form is the model's (log 36). -/
def Obligations.FabricCommandsBegin : Prop :=
  (∀ (r : OpRef) (s : State) (o : Op),
    (Started s r 0x40 o → fpPeer o = devId (countXfer s) →
      exec (.fePut r) s = .next (ownXfer true (xferInfo s o) (countXfer s) o))
    ∧ (Started s r 0x41 o → fpPeer o = devId (countXfer s) →
      exec (.feGet r) s = .next (ownXfer false (xferInfo s o) (countXfer s) o))
    ∧ (Started s r 0x40 o → fpPeer o ≠ devId (countXfer s) → s.fab.routesDue = false →
      (routeTo (countXfer s) (fpPeer o)).isSome = true → routeCut (countXfer s) (fpPeer o) = false →
      exec (.fePut r) s = .next (issueXfer true (xferInfo s o) (countXfer s) o))
    ∧ (Started s r 0x41 o → fpPeer o ≠ devId (countXfer s) → s.fab.routesDue = false →
      (routeTo (countXfer s) (fpPeer o)).isSome = true → routeCut (countXfer s) (fpPeer o) = false →
      exec (.feGet r) s = .next (issueXfer false (xferInfo s o) (countXfer s) o)))
  ∧ (∀ (r : OpRef) (s : State) (o : Op), s.fab.routesDue = false →
    (Started s r 0x42 o → exec (.feAllreduce r) s = .next (pump (goAllreduce s o)))
    ∧ (Started s r 0x43 o → collBit o = false → exec (.alltoallDispatch r) s = .next (pump (goDispatch s o)))
    ∧ (Started s r 0x43 o → collBit o = true → exec (.alltoallCombine r) s = .next (pump (goCombine s o)))
    ∧ (Started s r 0x53 o → exec (.syPodBarrier r) s = .next (pump (goBarrier s o))))
  ∧ ∀ (r : OpRef) (s : State) (o : Op), Started s r 0x46 o →
    (frEnable o = true → frTarget o ≠ devId s → s.fab.routesDue = false → (routeTo s (frTarget o)).isSome = true →
      (routeCut s (frTarget o) = false → unanswered s (frTarget o) < 1024 → exec (.feRelay r) s = .next (relayAsk s o))
      ∧ (routeCut s (frTarget o) = true → ∃ t u, exec (.feRelay r) s = .next t ∧ findOp t r.q r.tag = some u
          ∧ u.phase = .ended ∧ u.status = 0x23))
    ∧ (frEnable o = false → relayOf s (frSrc o) = none → exec (.feRelay r) s = .next (endOk s o 0#8))
    ∧ ∀ x, frEnable o = false → relayOf s (frSrc o) = some x → x.awaiting = [] → s.fab.routesDue = false →
      (routeCut s x.target = false → exec (.feRelay r) s = .next (relayStop s o x))
      ∧ (routeCut s x.target = true → ∃ t u, exec (.feRelay r) s = .next t ∧ findOp t r.q r.tag = some u
          ∧ u.phase = .ended ∧ u.status = 0x23)

/-- Packets that arrive for this device: a WRITE and a READ of a window, DATA and RESP of a transaction in flight, a
RELAY control and a relayed packet, a REPLY, and a collective's packet (R384, R395, R403 to R413); each leaves the receive
buffers that it lies in (R386). What R384 leaves open of a header, and that a region takes one transfer at a time, is the
model's (log 36). -/
def Obligations.PacketsArrive : Prop :=
  ∀ (p : Packet) (s : State),
    let took := fun u => Host.Outcome.next (freeBuffer u p)
    (Delivered s p kWrite → Fresh s p → regionWaits s (hSrc p.hdr) (hWin p.hdr) (readXfer p.hdr) = false →
      let x := remoteWrite s (hSrc p.hdr) (hWin p.hdr) (hOff p.hdr) (hMode p.hdr) (p.data.take (hLen p.hdr)) (readXfer p.hdr)
      exec (.writePacket p) s = took (answerTo x.1 p.hdr x.2.1 x.2.2))
    ∧ (Delivered s p kRead → Fresh s p →
      let x := remoteRead s (hSrc p.hdr) (hWin p.hdr) (hOff p.hdr) (hLen p.hdr) (readXfer p.hdr)
      let h : Hdr := { kind := kData, vc := 1, src := devId s, dst := hSrc p.hdr, txn := hTxn p.hdr, body := answer 0 x.2.1 }
      (∀ b, x.2.2 = .ok b → exec (.readPacket p) s = took (sendPacket x.1 (mkPacket h b)))
      ∧ ∀ e, x.2.2 = .error e → exec (.readPacket p) s = took (answerTo x.1 p.hdr x.2.1 (some e)))
    ∧ (∀ x, (Delivered s p kWrite ∨ Delivered s p kRead) →
      s.fab.seen.find? (fun y => y.1 = hSrc p.hdr && y.2.1 = hTxn p.hdr) = some x →
      exec (if hKind p.hdr = kWrite then .writePacket p else .readPacket p) s
        = took (respond s (hSrc p.hdr) (hTxn p.hdr) x.2.2.1 x.2.2.2))
    ∧ (Delivered s p kData →
      (sentFor s p = none → exec (.dataPacket p) s = took s)
      ∧ ∀ x o, sentFor s p = some x → findOp (dropSent s x) x.q x.tag = some o →
        let u := dropSent s x
        let l := landGet u o x.local_ (p.data.take x.len)
          (decide (fpLocal o < x.local_) && landed u x.q x.tag (x.local_ - 1))
          (decide (x.local_ + x.len < fpLocal o + fpLen o) && landed u x.q x.tag (x.local_ + x.len))
        (snapOf u x.q x.tag = none → l.err = none → exec (.dataPacket p) s
            = took (settleXfer (pump (addOpFlags l.s x.q x.tag (l.flags ||| hFlags p.hdr))) x.q x.tag))
        ∧ (∀ e, snapOf u x.q x.tag = none → l.err = some e → exec (.dataPacket p) s
            = took (settleXfer (markFail l.s x.q x.tag (l.flags ||| hFlags p.hdr) e) x.q x.tag))
        ∧ ∀ j, snapOf u x.q x.tag = some j → exec (.dataPacket p) s
            = took (pump (addOpFlags { u with snap := some (j.take x.local_ (p.data.take x.len)) } x.q x.tag (hFlags p.hdr))))
    ∧ (Delivered s p kResp →
      (sentFor s p = none → exec (.respPacket p) s = took s)
      ∧ ∀ x o, sentFor s p = some x → findOp (dropSent s x) x.q x.tag = some o →
        (opCode o = 0x40 → hKind x.packet.hdr = kWrite →
          (hStatus p.hdr = 0 → exec (.respPacket p) s
              = took (settleXfer (pump (addOpFlags (dropSent s x) x.q x.tag (hFlags p.hdr))) x.q x.tag))
          ∧ (hStatus p.hdr ≠ 0 → exec (.respPacket p) s = took (settleXfer (markFail (dropSent s x) x.q x.tag (hFlags p.hdr)
              (remoteFail (hSrc p.hdr) (hStatus p.hdr) (hAddr p.hdr))) x.q x.tag)))
        ∧ (opCode o = 0x46 → hKind x.packet.hdr = kRelay → o.phase = .waiting → x.packet.data = [] →
          exec (.respPacket p) s = took (relaySetUp (dropSent s x) o p.hdr)))
    ∧ (Delivered s p kRelay → hFlits p.hdr = 0 → ∃ t, exec (.relayPacket p) s = took t
        ∧ relayCommand p s (bits (hColl p.hdr) 6 6) (bits (hColl p.hdr) 0 6) = .next t)
    ∧ (Delivered s p kRelay → Fresh s p → hFlits p.hdr ≠ 0 →
        let dq := bits (hColl p.hdr) 6 6
        let v := getQ s dq
        let slot := v.sqTail.toNat
        v.enable = true → s.fab.relaysIn.contains ⟨dq, hSrc p.hdr, bits (hColl p.hdr) 0 6⟩ = true →
        sqUsed v < 2 ^ v.sqLog2.toNat - 1 →
        exec (.relayPacket p) s = took (respond (modQ (ringWrite s (v.sqBase.toNat + 64 * slot) (p.data.take 64)) dq
          fun v => { v with
            sqTail := ringAdd v.sqTail 1 v.sqLog2.toNat, relaySlots := slot :: v.relaySlots.filter (· ≠ slot) })
          (hSrc p.hdr) (hTxn p.hdr) 0 slot))
    ∧ (Delivered s p kReply →
      (relayOf s (bits (hColl p.hdr) 0 6) = none → exec (.replyPacket p) s = took s)
      ∧ ∀ r, relayOf s (bits (hColl p.hdr) 0 6) = some r → r.target = hSrc p.hdr → r.dstQ = bits (hColl p.hdr) 6 6 →
        let w := setBits (leNat (p.data.take 16)) 40 6 (bits (hColl p.hdr) 0 6)
        let left := takeAwaiting r.awaiting (bits w 0 13) (bit w 13)
        (left.length ≠ r.awaiting.length → exec (.replyPacket p) s
          = took (giveReply (setRelay s { r with awaiting := left, copies := r.copies ++ [true] })
              (bits (hColl p.hdr) 0 6) (BitVec.ofNat 128 w) (bit (hBody p.hdr) 0)))
        ∧ (left.length = r.awaiting.length → exec (.replyPacket p) s = took (sendControl s r (3 + 2 ^ 16))))
    ∧ (Delivered s p kColl → Fresh s p →
      let m := readColl p
      let f := queueFunc s m.queue
      let port := (routeTo s m.src).getD 0
      shareLets s f port (collCost p) = true →
      exec (.collPacket p) s
        = took (pump (respond (collDeliver (charge s f port (collCost p)) m) (hSrc p.hdr) (hTxn p.hdr) 0 0)))

/-- A packet for another device is passed on with `hops` one higher and nothing else changed; one that has crossed 16
links, or whose `e2e` does not match, is discarded and counted, whatever its kind, and leaves the receive buffers that it lies
in (R384 to R386). Sending what waits never takes more credit of a channel than its port holds (R386). The form of the check
is the model's (logs 34 and 36). -/
def Obligations.PassingPackets : Prop :=
  (∀ (s : State) (port c : Nat),
    tget 0#16 (getPort (drain s) port).credits c ≤ tget 0#16 (getPort s port).credits c)
  ∧ ∀ (p : Packet) (s : State) (c : Instr), onFabric s = true →
    (c, hKind p.hdr) ∈ [(.writePacket p, kWrite), (.readPacket p, kRead), (.dataPacket p, kData), (.respPacket p, kResp),
      (.collPacket p, kColl), (.relayPacket p, kRelay), (.replyPacket p, kReply)] →
    (hHops p.hdr = 16 → exec c s = .next (freeBuffer (countDiscard s (hSrc p.hdr)) p))
    ∧ (hHops p.hdr ≠ 16 → hDst p.hdr ≠ devId s →
        exec c s = .next (sendPacket s { p with hdr := setBits p.hdr 25 5 (hHops p.hdr + 1) }))
    ∧ (hHops p.hdr ≠ 16 → hDst p.hdr = devId s → e2eOf p.hdr p.data ≠ hE2e p.hdr →
        exec c s = .next (freeBuffer (countDiscard s (hSrc p.hdr)) p))

/-- Routes are computed anew when that is due, a window of shares ends, and the bridge's replays and retrains run (R342,
R393, R497); a packet without an answer is due again after a timeout, up to four times, and what may be sent is (R395). The
packets' form is the model's (log 36). -/
def Obligations.FabricTimersRun : Prop :=
  (∀ s : State,
    (s.fab.routesDue = true → ∃ t, exec .routeRecompute s = .next t ∧ t.fab.routes = newRoutes s
      ∧ t.fab.routesDue = false)
    ∧ exec .fabricWindowTick s = .next (pump (setFab s { s.fab with usage := [], shares := windowShares s }))
    ∧ (bridgeOff s = false → s.pins.railsUp = true → exec .bridgeCrcFail s
        = .next (setFab s { s.fab with bridgeReplays := (s.glob.timestamp :: s.fab.bridgeReplays).take 64 }))
    ∧ (bridgeOff s = false → replayLimit s s.fab.bridgeReplays = true →
        exec .bridgeRetrain s = .next (setFab s { s.fab with bridgeReplays := [] })
        ∧ exec .bridgeRetrainFail s
          = .next (setDevEvent (cutDomain (setFab s { s.fab with bridgeReplays := [] }) dBridge) eBridge)))
  ∧ ∀ (dst txn : Nat) (s : State) (x : Sent),
    s.fab.sent.find? (fun x => x.dst = dst && x.txn = txn) = some x → s.fab.routesDue = false →
    (routeTo s dst).isSome = true →
    x.due = false →
    (x.tries < 4 → exec (.retransmitTimeout dst txn) s
      = .next (pump (putSent s { x with tries := x.tries + 1, due := true })))
    ∧ Runs (.retransmitTimeout dst txn) s

/-- A frame that arrives at a port which carries frames completes, whatever its codewords and bits: corrected codewords are
counted; a frame that does not decode or whose CRC does not fit is discarded and asked for again, one out of order is
discarded and asked for unless a replay is awaited, and one in order has its 20 slots taken (R382 to R384). So a frame in
order raises the expected sequence number, and 20 data flits of the packet under way are delivered in order; any other
frame delivers nothing, is counted, and leaves the expected number as it was. A header of a reserved kind, 11 to 15, is
discarded and counted, and the data flits that it announces are discarded with it. The form of the CRC is the model's
(log 34). -/
def Obligations.FrameDelivery : Prop :=
  (∀ (port m : Nat) (fec : Fec) (s : State), carries (getPort s port) = true →
    let u := countFec s port fec
    exec (.frameReceive port fec m) s = .next (
      if frameGood fec m = false then discardFrame u port true
      else if bits m 10240 12 ≠ (getPort u port).expSeq.toNat then discardFrame u port (!(getPort u port).discarding)
      else takeFrame u port m))
  ∧ (∀ (port m n : Nat) (s : State), carries (getPort s port) = true →
    let v := getPort s port
    (crc16 1283 m = bits m 10264 16 → bits m 10240 12 = v.expSeq.toNat →
      ∃ t, exec (.frameReceive port (.corrected n) m) s = .next t ∧ (getPort t port).expSeq = v.expSeq + 1#12
        ∧ (getPort t port).discarding = false
        ∧ (20 ≤ v.rxLeft → (getPort t port).rxLeft = v.rxLeft - 20)
        ∧ (20 ≤ v.rxLeft → v.rxDrop = false →
            (s.out ++ (List.range 20).map fun i => Msg.deliver port (bits m (512 * i) 512)) <+: t.out))
    ∧ ∀ fec, (frameGood fec m = false ∨ bits m 10240 12 ≠ v.expSeq.toNat) →
      ∃ t, exec (.frameReceive port fec m) s = .next t ∧ (getPort t port).expSeq = v.expSeq
        ∧ (getPort t port).discard = satInc v.discard
        ∧ ∀ x ∈ t.out.drop s.out.length, ∀ f, x ≠ .deliver port f)
  ∧ ∀ (port flit : Nat) (s : State), 11 ≤ hKind flit → (getPort s port).rxLeft = 0 →
    let t := takeFlit port s flit
    t.out = s.out ∧ (getPort t port).discard = satInc (getPort s port).discard
      ∧ (getPort t port).rxLeft = hFlits flit ∧ (getPort t port).rxDrop = true
      ∧ ∀ f, 0 < hFlits flit → (takeFlit port t f).out = s.out ∧ (getPort (takeFlit port t f) port).rxLeft = hFlits flit - 1

/-- The rows of an N-port: LINK flits, the replay limit, HELLO, ROUTE, lanes, cables, training, quiescing and rejoining
(R383, R386 to R400). -/
def Obligations.PortRowsComplete : Prop :=
  ∀ (port : Nat) (s : State),
    (carries (getPort s port) = true → ∀ f, ∃ u, (∀ c, c < 4 → tget 0#16 (getPort u port).credits c
          = tget 0#16 (getPort s port).credits c + BitVec.ofNat 16 (bits f (160 + 16 * c) 16))
      ∧ u.out = s.out ∧ u.fab.outq = s.fab.outq
      ∧ exec (.linkFlit port f) s = .next (drain
          (if bit f 236 then replay u port (framesFrom (bits f 224 12) (getPort s port).sent) else u)))
    ∧ (carries (getPort s port) = true → replayLimit s (getPort s port).replays = true →
        exec (.replayLimitRetrain port) s
          = .next (startTraining (portDown (setPort s port { getPort s port with replays := [] }) port) port))
    ∧ (carries (getPort s port) = true → ∀ h, ∃ t, exec (.helloFlit port h) s = .next t
      ∧ (h.podId % 2 ^ 32 = 0 ∨ (getPort s port).podAt.toNat ≠ h.podId % 2 ^ 32 →
          (getPort t port).state = .isolated ∧ (getPort t port).podMismatch = true)
      ∧ (let shape := bits (getPort s port).posAt.toNat 8 2
        shape = 0 ∨ shape ≠ h.shape % 4 ∨ h.devId ≠ nbrDev shape (bits (getPort s port).posAt.toNat 0 6) port
            ∨ h.port ≠ nbrPortOf shape port →
          (getPort t port).state = .isolated ∧ (getPort t port).miswired = true)
      ∧ (getPort t port).nbrId = BitVec.ofNat 6 h.devId ∧ (getPort t port).nbrPod = BitVec.ofNat 32 h.podId)
    ∧ ((getPort s port).state = .up ∨ (getPort s port).state = .quiescing → ∀ n, ∃ t, exec (.routeFlit port n) s = .next t
      ∧ ((∃ x ∈ n.links, x.dev ≠ devId s ∧ liveLink s x.dev x.port ≠ x.live) →
          t.fab.routesDue = true
          ∧ ((∀ x ∈ n.links, x.dev = devId s → liveLink s x.dev x.port = x.live) → t.out.getLast? = some (.route n))))
    ∧ (carries (getPort s port) = true → ∀ w : BitVec 8, w &&& (getPort s port).lanesUp ≠ (getPort s port).lanesUp →
        (∀ x, usableLanes w = some x → exec (.laneFailure port w) s = .next (startTraining s port))
        ∧ (usableLanes w = none → exec (.laneFailure port w) s = .next (portDown s port)))
    ∧ ((getPort s port).cable = true → ∃ t, exec (.cablePull port) s = .next t ∧ (getPort t port).cable = false
      ∧ ((getPort s port).state ≠ .disabled → (getPort t port).state = .down))
    ∧ ((getPort s port).cable = false → ∃ t, exec (.cableInsert port) s = .next t ∧ (getPort t port).cable = true
      ∧ (mayTrain s port = true → (getPort s port).state = .down → (getPort t port).state = .training))
    ∧ ((getPort s port).state = .training → ∀ w, ∃ t, exec (.portTrainingComplete port w) s = .next t
      ∧ (usableLanes w = none → (getPort t port).state = .down)
      ∧ ∀ l half, usableLanes w = some (l, half) → (getPort t port).state = .hello ∧ (getPort t port).lanesUp = l
          ∧ (getPort t port).laneDegraded = half)
    ∧ ((getPort s port).state = .quiescing → pdOn s (72 + port) = true → s.fab.routesDue = false →
        portBusy s port = false → exec (.portQuiesced port) s = .next (setPort s port
          { getPort s port with state := .quiesced, rejoinAt := some (s.glob.timestamp + 6000000000#64) }))
    ∧ ((getPort s port).state = .quiesced → cameBy s (getPort s port).rejoinAt = true → (getPort s port).cable = true →
        exec (.portRejoinTimer port) s = .next (startTraining s port))

/-! ### The host's registers -/

/-- A 64-bit register that a function may read answers with its eight bytes, least first (R4, R565); and a read of BAR0
that is not refused, where no error waits in the stores, changes no state but the TIMESTAMP latch and what the device has sent
(R566). -/
def Obligations.RegisterReads : Prop :=
  (∀ (s : State) (rq : Req) (off : Nat) (g : Reg),
    Reaches s rq 0 off 8 → off % 8 = 0 → regAt rq.fn off = some g → g.narrow = false → bar0Fault s rq off 8 false = none →
    exec (.bar0Read rq off 8) s = .next (emit s (.completion rq.fn (leBytes 8 (regWord s g).toNat))))
  ∧ ∀ (s t : State) (rq : Req) (off size : Nat), s.mems.upsets = [] → bar0Fault s rq off size false = none →
    exec (.bar0Read rq off size) s = .next t →
    t = { s with out := t.out, glob := { s.glob with tsLatch := t.glob.tsLatch } }

/-- TIMESTAMP: an 8-byte read answers with the whole counter; a 4-byte read of the low word answers with it and latches
the high word, and a following 4-byte read of the high word answers with the latched one (R461). -/
def Obligations.TimestampLatch : Prop :=
  ∀ (s : State) (rq : Req), rq.fn = 0 → Reaches s rq 0 0x1030 8 →
    exec (.bar0Read rq 0x1030 8) s = .next (emit s (.completion 0 (leBytes 8 s.glob.timestamp.toNat)))
    ∧ ∃ t, exec (.timestampLatchRead rq) s = .next t
      ∧ t.out = s.out ++ [.completion 0 (leBytes 4 s.glob.timestamp.toNat)]
      ∧ t.glob.timestamp = s.glob.timestamp
      ∧ ∀ x : BitVec 64,
        exec (.bar0Read rq 0x1034 4) { t with glob := { t.glob with timestamp := x } }
          = .next (emit { t with glob := { t.glob with timestamp := x } }
              (.completion 0 (leBytes 4 (s.glob.timestamp.toNat / 2 ^ 32))))

/-- A memory request to a function whose Memory Space Enable is 0 completes with Unsupported Request when it is a read,
changes nothing when it is a write, and is not logged (R443); the same in D3hot (R427). -/
def Obligations.DisabledFunctionIsUnsupported : Prop :=
  ∀ (s : State) (rq : Req) (off size : Nat) (v : BitVec 64) (bytes : List Byte), s.glob.cfgUp = true →
    (getFunc s rq.fn).memSpace = false ∨ (getFunc s rq.fn).d3hot = true →
    exec (.bar0Read rq off size) s = .next (emit s (.unsupported rq.fn))
    ∧ exec (.registerWrite rq off size v) s = .next s
    ∧ (inBar2 s rq.fn off size = true → exec (.bar2Read rq off size) s = .next (emit s (.unsupported rq.fn)))
    ∧ (inBar2 s rq.fn off bytes.length = true → exec (.bar2Write rq off bytes) s = .next s)
    ∧ exec (.timestampLatchRead rq) s = .next (emit s (.unsupported rq.fn))
    ∧ ∀ (i k : Nat) (d : BitVec 16) (x : BitVec 32) (m : BitVec 4) (h : BitVec 8) (b : Bool) (c : Instr),
      c ∈ [.sqTailDoorbell rq i d, .stqHeadDoorbell rq i d, .queueEnable rq i v, .queueReset rq i v, .queueResetForce rq i v,
        .queueResume rq i v, .tallyWrite rq i x, .keepRegisterWrite rq i x, .engReset rq m, .perfFreeze rq b, .perfClear rq,
        .vlogRelease rq h, .tripClear rq, .regionEntryWrite rq i k v, .bar2WinWrite rq i x, .qstatWrite rq i x] →
      exec c s = .next s

/-- The writes of a queue's registers: doorbells, the start of a queue with its pointers zero and its phase 1 (R306), a
queue reset, its forced end (R525), and the resumption of a halted queue (R304). -/
def Obligations.QueueRegisterWrites : Prop :=
  ∀ (s : State) (rq : Req) (q : Nat) (w : BitVec 64) (i : BitVec 16), q < 64 → Reaches s rq 0 (queueOff rq.fn q) 0x1000 →
    Owns s rq (.sqcfg q) →
    let v := getQ s q
    let n := sqcfgOf v (rq.fn == 0) w.toNat
    (i.toNat < 2 ^ v.sqLog2.toNat → exec (.sqTailDoorbell rq q i) s = .next (modQ s q fun v => { v with sqTail := i }))
    ∧ (i.toNat < 2 ^ v.stqLog2.toNat → exec (.stqHeadDoorbell rq q i) s
        = .next (releaseCopies (setQ s q { v with stqHead := i }) q
            ((i.toNat + 2 ^ v.stqLog2.toNat - v.stqHead.toNat) % 2 ^ v.stqLog2.toNat)))
    ∧ (sqcfgSound v n = true → bit w.toNat 0 = true → v.enable = false →
        exec (.queueEnable rq q w) s = .next (setQ (forgetColls (assignQueue s q v n) q) q (startQueue n)))
    ∧ (sqcfgSound v n = true → bit w.toNat 0 = true → v.enable = true →
        exec (.queueResume rq q w) s = .next (setQ s q n) ∧ n.halted = (v.halted && !bit w.toNat 9))
    ∧ (sqcfgSound v n = true → bit w.toNat 0 = false → v.enable = true → v.resetting = false →
        exec (.queueReset rq q w) s = .next (resetQueue (setQ s q n) q))
    ∧ (sqcfgSound v n = true → bit w.toNat 0 = false → v.enable = true → v.resetting = true →
        exec (.queueResetForce rq q w) s = .next (forceReset (setQ s q n) q))

/-- A queue that ENABLE puts into service has its four pointers zero, HALTED clear and the phase 1 (R306). -/
def Obligations.EnabledQueueStartsAtZero : Prop :=
  ∀ (s : State) (rq : Req) (q : Nat) (w : BitVec 64), q < 64 → Reaches s rq 0 (queueOff rq.fn q) 0x1000 →
    Owns s rq (.sqcfg q) →
    sqcfgSound (getQ s q) (sqcfgOf (getQ s q) (rq.fn == 0) w.toNat) = true → bit w.toNat 0 = true →
    (getQ s q).enable = false →
    ∃ t, exec (.queueEnable rq q w) s = .next t
      ∧ (getQ t q).enable = true ∧ (getQ t q).halted = false ∧ (getQ t q).phase = true
      ∧ (getQ t q).sqHead = 0#16 ∧ (getQ t q).sqTail = 0#16 ∧ (getQ t q).stqHead = 0#16 ∧ (getQ t q).stqTail = 0#16
      ∧ (∀ p, p ≠ q → getQ t p = getQ s p)
      ∧ t.mems = s.mems ∧ t.dies = s.dies ∧ t.head.ops = s.head.ops ∧ t.head.tallies = s.head.tallies
      ∧ t.power = s.power ∧ t.firm = s.firm ∧ t.fab = s.fab ∧ t.out = s.out

/-- The physical function's writes of global registers: the power and performance counters, the log's head, TRIP, engine
resets, a window of BAR2, and keep registers (R436, R479, R500, R524, R536, R583). How many entries a write of the log's
head releases is the model's choice (log 48). -/
def Obligations.GlobalRegisterWrites : Prop :=
  ∀ (s : State) (rq : Req), rq.fn = 0 →
    (Reaches s rq 0 0x2_0000 8 →
      (∀ b, exec (.perfFreeze rq b) s = .next { s with perf := { s.perf with freeze := b } })
      ∧ exec (.perfClear rq) s = .next { s with perf := ⟨s.perf.freeze, [], []⟩ })
    ∧ (∀ m : BitVec 4, Reaches s rq 0 0x1008 4 → exec (.engReset rq m) s = .next (writeGctl s m.toNat))
    ∧ (∀ h : BitVec 8, Reaches s rq 0 0x3010 4 → released s h.toNat ≤ s.faults.vFill →
        ∃ t, exec (.vlogRelease rq h) s = .next t
        ∧ t.faults = { s.faults with vHead := h, vFill := s.faults.vFill - released s h.toNat })
    ∧ (Reaches s rq 0 0x2018 8 → ∃ t, exec (.tripClear rq) s = .next t
        ∧ t = setPower s { s.power with trip := s.power.trip && decide (95 ≤ hottest s 0 32) })

/-- Writes that name an entry: a window of BAR2 with a base of at most 383 (R436), a keep register that is not refused
(R536), a region's entry whose domain takes the write (R166), and the statistics of a queue, which take a non-negative
finite AMAX (R579; that they drop a value with the sign set, −0 among them, is the model's choice, log 47). -/
def Obligations.IndexedRegisterWrites : Prop :=
  (∀ (s : State) (rq : Req), rq.fn = 0 →
    (∀ (f : Nat) (b : BitVec 32), f < 17 → Reaches s rq 0 (0x1100 + 8 * f) 4 → b.toNat ≤ 383 →
      exec (.bar2WinWrite rq f b) s
      = .next { s with glob := { s.glob with bar2Win := tput 0#9 s.glob.bar2Win f (BitVec.ofNat 9 b.toNat) } })
    ∧ (∀ (i : Nat) (v : BitVec 32) (t : State), i < 128 → Reaches s rq 0 (keepAddr i) 4 → keepWrite s i v = .ok t →
        exec (.keepRegisterWrite rq i v) s = .next t)
    ∧ (∀ (l k : Nat) (v : BitVec 64) (t : State), l < 128 → k < 64 →
        Reaches s rq 0 (0x20_0000 + 0x400 * l + 0x10 * k) 8 → pdServes s true (l / 2) = true →
        (l < 64 ∨ pdServes s true dBridge = true) → regionWrite s l k v.toNat = some t →
        exec (.regionEntryWrite rq l k v) s = .next t))
  ∧ ∀ (s : State) (rq : Req) (q : Nat) (v : BitVec 32), q < 64 → Reaches s rq 0 (queueOff rq.fn q + 0x30) 4 →
    Owns s rq (.qstat q) →
    (bit v.toNat 31 = false → bits v.toNat 23 8 ≠ 255 →
      exec (.qstatWrite rq q v) s = .next (modQ s q fun x => { x with amax := v }))
    ∧ exec (.registerWrite rq (queueOff rq.fn q + 0x30) 4 (v.setWidth 64)) s = exec (.qstatWrite rq q v) s

/-- A write to a read-only register is ignored; a write of DEV_EVENT clears the bits it writes as ones, but never
CORE_FAULT (R445, R502, R566). -/
def Obligations.ReadOnlyAndStickyBits : Prop :=
  ∀ (s : State) (rq : Req), rq.fn = 0 →
    (∀ (off : Nat) (v : BitVec 64), Reaches s rq 0 off 8 →
      off ∈ [0x0, 0x40, 0x80, 0x1000, 0x1030, 0x2008, 0x2020, 0x2040, 0x2048, 0x3008, 0x4000, 0x7000, 0x7008, 0x8000,
        0x1_0000, 0x2_0100, 0x2_1000, 0x10_0018, 0x10_0020, 0x10_0028, 0x14_0000, 0xFF_0000] →
      exec (.registerWrite rq off 8 v) s = .next s)
    ∧ ∀ v : BitVec 64, Reaches s rq 0 0x1010 8 → ∃ t, exec (.registerWrite rq 0x1010 8 v) s = .next t
      ∧ t.glob.devEvent = s.glob.devEvent &&& (eCoreFault ||| ~~~(v.setWidth 4))
      ∧ t = { s with glob := { s.glob with devEvent := t.glob.devEvent } }

/-- A queue reset, an engine reset and a function reset answer a next state; an engine's units report idle again (R430,
R522, R524). A reset of a function frees its reservations and returns its BAR2 window to its reset value, and the physical
one every reservation, limit, tally range and window of BAR2 (R520). What the spec leaves open of a function's reset is the
model's (logs 50 and 51). -/
def Obligations.ResetRowsComplete : Prop :=
  (∀ s : State,
    (∀ f, 1 ≤ f → f ≤ 16 → s.pcie.vfEnable = true → s.glob.cfgUp = true →
      exec (.vfFunctionLevelReset f) s = .next (vfReset s f))
    ∧ (s.glob.cfgUp = true → exec .pfFunctionLevelReset s = .next (pfReset s))
    ∧ (s.glob.cfgUp = true → ∃ t, exec .vfEnableClear s = .next t ∧ t.pcie.vfEnable = false)
    ∧ ∀ c, s.glob.engBusy.getLsbD c = true → exec (.engineResetDone c) s
        = .next { s with glob := { s.glob with engBusy := s.glob.engBusy &&& ~~~(BitVec.ofNat 4 (2 ^ c)) } })
  ∧ ∀ (s t : State) (f : Nat),
    (exec (.vfFunctionLevelReset f) s = .next t →
      t.head.reservations = s.head.reservations.filter (fun x => x.func ≠ f) ∧ tget 0#9 t.glob.bar2Win f = 0#9)
    ∧ (exec .pfFunctionLevelReset s = .next t →
      t.head.reservations = [] ∧ t.head.limits = [] ∧ t.head.tallyRange = [] ∧ t.glob.bar2Win = []
      ∧ t.glob.ideEnforce = false)

/-- A function's power states and enables: D3hot and back to D0 (R427), Bus Master Enable and the size of BAR2 are set,
and an IDE stream leaves its secure state (R435, R440, R447). A transition to D3hot and back leaves every function as it
was, and with no message pending every other state too (R427). -/
def Obligations.FunctionControlsComplete : Prop :=
  (∀ (s : State) (f : Nat), s.glob.cfgUp = true →
    ((getFunc s f).d3hot = false → exec (.d3hotEntry f) s = .next (setFunc s f { getFunc s f with d3hot := true }))
    ∧ ((getFunc s f).d3hot = true →
        exec (.d0Return f) s = .next (flushMsix (setFunc s f { getFunc s f with d3hot := false }) f))
    ∧ (∀ on, (getFunc s f).busMaster ≠ on →
        exec (.busMasterEnableChange f on) s = .next (flushMsix (setFunc s f { getFunc s f with busMaster := on }) f))
    ∧ (∀ n, n ≤ 9 → exec (.bar2Resize f n) s = .next (setFunc s f { getFunc s f with bar2Log := n }))
    ∧ (∀ i, (tget IdeStream.reset s.pcie.ide i).secure = true → exec (.ideStreamExit i) s
        = .next { s with pcie := { s.pcie with
            ide := tput IdeStream.reset s.pcie.ide i { tget IdeStream.reset s.pcie.ide i with secure := false } } }))
  ∧ ∀ (s t u : State) (f : Nat), s.pcie.pba = [] → exec (.d3hotEntry f) s = .next t → exec (.d0Return f) t = .next u →
    (∀ g, getFunc u g = getFunc s g) ∧ u = { s with pcie := { s.pcie with funcs := u.pcie.funcs } }

/-- BAR2: a read that is not refused answers with the bytes the device memory holds; a write that is not refused stores
its bytes and no other; a refused read returns no data and a refused write changes no byte (R436, R439, R445). -/
def Obligations.HbmWindowAccesses : Prop :=
  ∀ (s : State) (rq : Req) (off : Nat) (bytes : List Byte) (n a : Nat), MemsCanonical s → s.glob.cfgUp = true →
    unsupportedNow s rq.fn = false → 0 < n → bytes ≠ [] → s.mems.upsets = [] → s.mems.poison = [] →
    (inBar2 s rq.fn off n = true → bar2Fault s rq (bar2Addr s rq.fn off) n false = none →
      ∃ t, exec (.bar2Read rq off n) s = .next t ∧ t.mems = s.mems
        ∧ t.out = s.out ++ [.completion rq.fn ((List.range n).map fun i => memByte s.mems.dev (bar2Addr s rq.fn off + i))])
    ∧ (inBar2 s rq.fn off bytes.length = true → bar2Fault s rq (bar2Addr s rq.fn off) bytes.length true = none →
      ∃ t, exec (.bar2Write rq off bytes) s = .next t ∧ t.mems.host = s.mems.host
        ∧ memByte t.mems.dev a = if bar2Addr s rq.fn off ≤ a ∧ a < bar2Addr s rq.fn off + bytes.length
            then bytes.getD (a - bar2Addr s rq.fn off) 0#8 else memByte s.mems.dev a)

/-- A refused BAR2 request: a read completes with Completer Abort and no data, a write changes no byte, and each enters
one violation (R334, R444, R445). -/
def Obligations.RefusedWindowAccesses : Prop :=
  ∀ (s : State) (rq : Req) (off n : Nat) (bytes : List Byte) (e : Fail), s.glob.cfgUp = true →
    unsupportedNow s rq.fn = false →
    (inBar2 s rq.fn off n = true → bar2Fault s rq (bar2Addr s rq.fn off) n false = some e →
      exec (.bar2Read rq off n) s = .next (hostAbort s rq e) ∧ (hostAbort s rq e).mems = s.mems)
    ∧ (inBar2 s rq.fn off bytes.length = true → bar2Fault s rq (bar2Addr s rq.fn off) bytes.length true = some e →
      exec (.bar2Write rq off bytes) s = .next (hostLog s rq true e) ∧ (hostLog s rq true e).mems = s.mems)

/-- A violation enters the log at TAIL, with FILL one higher, or, when the log is full, raises LOST and enters nothing;
the ring keeps TAIL = HEAD + FILL modulo 256 (R499, R500). -/
def Obligations.ViolationLogRing : Prop :=
  ∀ (s : State) (x : LogRec), s.faults.vFill ≤ 256 →
    s.faults.vTail = s.faults.vHead + BitVec.ofNat 8 s.faults.vFill →
    let t := vlogAdd s x
    (s.faults.vFill < 256 → t.faults.vFill = s.faults.vFill + 1 ∧ t.faults.vTail = s.faults.vTail + 1#8
      ∧ tget 0#256 t.faults.vlog s.faults.vTail.toNat = logWord s.glob.timestamp x
      ∧ (∀ i, i ≠ s.faults.vTail.toNat → tget 0#256 t.faults.vlog i = tget 0#256 s.faults.vlog i)
      ∧ t.faults.lost = s.faults.lost)
    ∧ (s.faults.vFill = 256 → t.faults.vFill = 256 ∧ t.faults.vTail = s.faults.vTail ∧ t.faults.vlog = s.faults.vlog
      ∧ t.faults.lost = satInc s.faults.lost)
    ∧ t.faults.vFill ≤ 256 ∧ t.faults.vTail = t.faults.vHead + BitVec.ofNat 8 t.faults.vFill
    ∧ t.mems = s.mems ∧ t.head = s.head ∧ t.dies = s.dies ∧ t.power = s.power ∧ t.firm = s.firm

/-! ### Attestation, the module and its power -/

/-- Every SPDM request over a transport that carries it is answered by one message, outside recovery; a request to the
DOE mailbox's discovery too (R448 to R451, R563, R564). These rows leave memory, the dies, the headstock, the fabric,
power and the firmware as they were. The contents of the messages are presumed (log 52). -/
def Obligations.AttestationRowsAnswer : Prop :=
  (∀ (s : State) (m : SpdmReq), viaUp s m.via = true → s.firm.recovery = false →
    (∀ c : Instr, c ∈ [.getVersion m, .getCapabilities m, .negotiateAlgorithms m, .getDigests m, .heartbeat m, .keyUpdate m,
        .endSession m, .chunkSend m, .chunkGet m, .getPqSig m] → ∃ t x, exec c s = .next t ∧ t.out = s.out ++ [x])
    ∧ (∀ n, ∃ t x, exec (.getCertificate m n) s = .next t ∧ t.out = s.out ++ [x])
    ∧ (∀ n, ∃ t x, exec (.challenge m n) s = .next t ∧ t.out = s.out ++ [x])
    ∧ (∀ b, ∃ t x, exec (.getMeasurements m b) s = .next t ∧ t.out = s.out ++ [x])
    ∧ (∀ n, ∃ t x, exec (.keyExchange m n) s = .next t ∧ t.out = s.out ++ [x])
    ∧ (∀ n, ∃ t x, exec (.finish m n) s = .next t ∧ t.out = s.out ++ [x])
    ∧ (∀ n, ∃ t x, exec (.ideKm m n) s = .next t ∧ t.out = s.out ++ [x])
    ∧ (s.glob.cfgUp = true → ∀ i, exec (.doeDiscovery i) s = .next (emit s (.doe (doeAnswer s i)))))
  ∧ ∀ (s t : State) (m : SpdmReq) (n : Nat) (b : Bool) (c : Instr),
    c ∈ [.getVersion m, .getCapabilities m, .negotiateAlgorithms m, .getDigests m, .heartbeat m, .keyUpdate m,
      .endSession m, .chunkSend m, .chunkGet m, .getPqSig m, .getCertificate m n, .challenge m n, .getMeasurements m b,
      .keyExchange m n, .finish m n, .ideKm m n, .doeDiscovery n] →
    exec c s = .next t →
    t.mems = s.mems ∧ t.dies = s.dies ∧ t.head = s.head ∧ t.fab = s.fab ∧ t.power = s.power ∧ t.faults = s.faults
      ∧ t.firm = s.firm ∧ t.glob = s.glob ∧ t.pins = s.pins ∧ t.perf = s.perf ∧ t.face = s.face ∧ t.snap = s.snap

/-- The module's own interfaces. The I3C target takes an address, and its vendor commands answer with the registers they
name; IDENTIFY starts 30 s of the display (R590, R591, R599). The attention pad acts while PWR_EN is high and the device
is ready, and has no effect otherwise (R601, R602). The recovery object stages a block or activates an image, and answers
with 0x00 or 0x61; an activation writes both regions (R560). What an I3C address does that is held is the model's (log 54). -/
def Obligations.ModuleRowsAnswer : Prop :=
  (∀ s : State,
    (i3cUp s = true → s.pins.i3cAddr = none → ∀ a : BitVec 7,
      exec (.setdasa a) s = .next (emit { s with pins := { s.pins with i3cAddr := some a } } (.i3cAck a))
      ∧ exec (.entdaa a) s = .next (emit { s with pins := { s.pins with i3cAddr := some a } } (.i3cAck a)))
    ∧ (viaUp s .mctp = true →
      exec .readTelemetry s = .next (emit s (.mctp (leBytes 8 (regNat s .pwrStat) ++ leBytes 8 (regNat s .pwrCap)
        ++ leBytes 8 (regNat s .thermStat) ++ leBytes 8 (regNat s .hbmTemp))))
      ∧ exec .readId s = .next (emit s (.mctp (leBytes 8 (identWord 0).toNat ++ leBytes 8 (identWord 3).toNat
        ++ leBytes 1 s.pins.slotId.toNat)))
      ∧ exec .identify s = .next (emit (startIdentify s) (.mctp [0#8])))
    ∧ (startIdentify s).face.identifyUntil = some (s.glob.timestamp + 3000000000#64)
    ∧ (s.face.identifyUntil.isSome = true →
      exec .identifyExpiry s = .next { s with face := { s.face with identifyUntil := none } }))
  ∧ ∀ s : State,
    (s.pins.pwrEn = true → s.glob.ready = true →
      exec .padIdentifyTouch s = .next (startIdentify s)
      ∧ exec .padHold3s s = .next (emit s (.flash [0, 1, 2, 3, 4, 5]))
      ∧ exec .padQuiesceRelease s = .next (quiesceAll s)
      ∧ exec .padSelftestRequest s = .next (askTest s))
    ∧ (s.pins.pwrEn = false ∨ s.glob.ready = false →
      exec .padIdentifyTouch s = .next s ∧ exec .padHold3s s = .next s ∧ exec .padQuiesceRelease s = .next s
      ∧ exec .padSelftestRequest s = .next s)
    ∧ (s.glob.padTest = true → ∀ st, ∃ t, exec (.padSelftestDone st) s = .next t
      ∧ t.glob.selftest = false ∧ t.glob.padTest = false)
  ∧ ∀ (s : State) (k : Nat) (d : List Byte), s.glob.cfgUp = true → s.firm.recovery = true →
    exec (.recoveryStage k d) s = .next (match stageBlock s k d 0 0 with
      | some t => emit t (.recovery 1 0)
      | none => emit s (.recovery 1 0x61))
    ∧ ∀ b, (∀ e, activateCheck s = .error e → exec (.recoveryActivate b) s = .next (emit s (.recovery 2 0x61)))
      ∧ ∀ x, activateCheck s = .ok x → ∃ t, exec (.recoveryActivate b) s = .next t
        ∧ t.firm.running = x ∧ t.firm.rollback = x
        ∧ t.out = s.out ++ [.recovery 2 (if b then 0 else 0x61)] ∧ (b = true → t.firm.staged = [])

/-- Power comes up within the input's operating range, and a start runs when PERST_N rises: a cold one after power-on, else
a warm one; PERST_N low, a hot reset and a lost link stop the device (R426, R513, R517, R518, R593, R595). Where the block
stands after reset is the model's choice (log 1). -/
def Obligations.StartsAndStops : Prop :=
  ∀ (s : State) (st : StartIn),
    (∀ (v : Nat) (id : BitVec 3), s.pins.pwrEn = false → s.pins.railsUp = false → s.pins.perstN = false → 460 ≤ v → v ≤ 580 →
      ∃ t, exec (.powerOn v id) s = .next t ∧ t.pins.pwrEn = true ∧ t.pins.railsUp = true ∧ t.pins.shutdown = false
        ∧ t.pins.slotId = id)
    ∧ (s.pins.perstN = false → s.pins.railsUp = true →
      (s.glob.coldPending = true → exec (.perstDeassert st) s
        = .next (startUp { s with pins := { s.pins with perstN := true } } st false))
      ∧ (s.glob.coldPending = false → exec (.perstDeassert st) s
        = .next (warmStart { s with pins := { s.pins with perstN := true } } st)))
    ∧ (s.pins.perstN = true → ∃ t, exec .perstAssert s = .next t ∧ t.pins.perstN = false)
    ∧ (s.pins.perstN = true → s.glob.cfgUp = true →
      exec (.hotReset st) s = .next (warmStart (stopAll { s with glob := { s.glob with cfgUp := false } }) st)
      ∧ exec (.pcieLinkLoss st) s = .next (warmStart (stopAll { s with glob := { s.glob with cfgUp := false } }) st))

/-- A shutdown removes the rails, latches, and loses every state but the keep registers with their wear counts and the
flash regions; a fall of PWR_EN acts the same without the latch (R594, R596). That every other
state is at its reset value is the model's choice (log 8). -/
def Obligations.PowerLossKeepsTheKeepRegisters : Prop :=
  ∀ (s t : State) (c : ShutdownCause),
    (s.pins.railsUp = true → Runs (.powerShutdown c) s)
    ∧ (s.pins.pwrEn = true → Runs .pwrEnFall s)
    ∧ (exec (.powerShutdown c) s = .next t ∨ (s.pins.railsUp = true ∧ exec .pwrEnFall s = .next t) →
      t.pins.railsUp = false ∧ t.firm.keep = s.firm.keep ∧ t.firm.wear = s.firm.wear ∧ t.firm.staged = s.firm.staged
      ∧ t.firm.running = s.firm.running ∧ t.firm.rollback = s.firm.rollback ∧ t.firm.shadow = s.firm.shadow
      ∧ (s.firm.activating = none → t.firm.ring = s.firm.ring)
      ∧ t.firm.ring = (tearRecord s).firm.ring
      ∧ t.mems.dev = [] ∧ t.mems.poison = [] ∧ t.dies = State.reset.dies ∧ t.head = State.reset.head
      ∧ t.faults = State.reset.faults ∧ t.glob.ready = false)
    ∧ (exec (.powerShutdown c) s = .next t → t.pins.shutdown = true)
    ∧ (exec .pwrEnFall s = .next t → t.pins.pwrEn = false)

/-- The governor samples, the heat timer and a trip run, and the scrubbers and the confirmation watchdog (R463, R478 to
R480, R487, R488, R556). A scrubber corrects and counts one wrong symbol or bit, and logs what it cannot correct; where a
sector's symbol or a row's bit is wrong is free (log 16), and so is by how many steps the rail moves (log 41). -/
def Obligations.HeatAndScrubRowsComplete : Prop :=
  ∀ s : State,
    (s.pins.railsUp = true → ∀ x, ∃ t, exec (.governorSample x) s = .next t
      ∧ t.power.inputP = BitVec.ofNat 16 (min 65535 x.inputP) ∧ t.power.junctions = byteTable x.junctions
      ∧ t.power.hbmTemps = byteTable x.hbmTemps
      ∧ (s.power.coreMv.toNat ≤ s.power.vmaxMv.toNat → 450 ≤ s.power.vmaxMv.toNat →
          t.power.coreMv.toNat ≤ s.power.vmaxMv.toNat))
    ∧ (s.power.hotSince.isSome = true → ∃ t, exec .hotTimer s = .next t ∧ t.power.hot = true ∧ t.power.coreMv = 450#10)
    ∧ (reaches s 110 = true → exec .thermalTrip s
        = .next (raiseHeat (tripAll (setPower s { s.power with trip := true })) s.power.trip))
    ∧ (∀ a, s.glob.ready = true → pdOn s (64 + a / stackBytes) = true → isHbm a = true →
        s.mems.poison.contains a = false → (∀ x ∈ s.mems.upsets, upsetIn a x = false) →
        exec (.patrolScrub a .clean) s = .next s
        ∧ exec (.patrolScrub a .correctable) s = .next (nextFree (countCorr s true a 0))
        ∧ exec (.patrolScrub a .uncorrectable) s = .next (scrubLog (poisonAt (nextFree (countUncorr s true)) a) a))
    ∧ (∀ l row, s.pins.railsUp = true → s.glob.coldPending = false → readsServed (pd s (l / 2)) = true →
        l < 128 → row < 4096 →
        let a := latheBase l + 512 * row
        s.mems.poison.contains a = false → (∀ x ∈ s.mems.upsets, upsetIn a x = false) →
        exec (.benchScrub l row .clean) s = .next s
        ∧ exec (.benchScrub l row .correctable) s
          = .next (nextFree (countCorr s false (a + 8 * (Config.freeNat s.freeIdx % 64)) 1))
        ∧ ∃ t, exec (.benchScrub l row .uncorrectable) s = .next (scrubLog (countUncorr t false) a)
          ∧ t = nextFree { s with mems := { s.mems with upsets := t.mems.upsets } } ∧ hardRow t a = true)
    ∧ (watchdogDue s = true → s.pins.railsUp = true → ∃ t, exec .watchdogExpiry s = .next t
        ∧ t.firm.awaitingStart = true)

/-- The spindle's own steps. A step adds to the group register of every column lane what its adder group's rows present, and
changes no other register; a chuck swap makes the loading chuck the working one; a rescale adds a waiting register's result
into its entry; a tile that drains leaves its set free, or ends its command with an error; and each completes whenever the
spindle's work stands at it, a residue that does not match ending the command (R73 to R85, R95, R98, R122, R123, R206, R237,
R255; that they act on the spindle's state beside the whole command's row is the model's choice, log 42). -/
def Obligations.SpindleStepsComplete : Prop :=
  StepCompletes ∧ StepAddsTheTreeSum ∧ SwapCompletes ∧ RescaleCompletes ∧ DrainCompletes
end

