-- ==== Sys2Proof/Laws/Mem.lean ====
section
/-!
SUPPORT. The sparse tables and byte memories: reading after writing, and the canonical form, which every memory
operation keeps.
-/

namespace Sys2Proof.Machine

/-! ### Tables -/

/-- Every key of a table is above `a`, and the keys rise. -/
def keysAbove {α : Type} (a : Nat) : SMap α → Prop
  | [] => True
  | c :: r => a < c.1 ∧ keysAbove c.1 r

/-- Keys rise strictly. -/
def keysRise {α : Type} : SMap α → Prop
  | [] => True
  | c :: r => keysAbove c.1 r

theorem keysAbove_mono {α : Type} {a b : Nat} (h : a ≤ b) : ∀ {t : SMap α}, keysAbove b t → keysAbove a t
  | [], _ => trivial
  | _ :: _, ⟨h1, h2⟩ => ⟨by omega, h2⟩

theorem keysAbove_mem {α : Type} {a : Nat} : ∀ {t : SMap α}, keysAbove a t → ∀ c ∈ t, a < c.1
  | [], _, _, hc => by simp at hc
  | d :: r, h, c, hc => by
    rcases List.mem_cons.mp hc with rfl | hc
    · exact h.1
    · exact Nat.lt_trans h.1 (keysAbove_mem h.2 c hc)

theorem keysAbove_rise {α : Type} {a : Nat} {t : SMap α} (h : keysAbove a t) : keysRise t := by
  cases t with
  | nil => trivial
  | cons c r => exact h.2

theorem keysAbove_filter {α : Type} {a : Nat} (p : Nat × α → Bool) :
    ∀ {t : SMap α}, keysAbove a t → keysAbove a (t.filter p)
  | [], _ => trivial
  | d :: r, h => by
    simp only [List.filter]
    split
    · exact ⟨h.1, keysAbove_filter p h.2⟩
    · exact keysAbove_filter p (keysAbove_mono (Nat.le_of_lt h.1) h.2)

theorem keysRise_filter {α : Type} (p : Nat × α → Bool) {t : SMap α} (h : keysRise t) : keysRise (t.filter p) := by
  cases t with
  | nil => trivial
  | cons c r =>
    simp only [List.filter]
    split
    · exact keysAbove_filter p h
    · exact keysAbove_rise (keysAbove_filter p h)

theorem keysAbove_tins {α : Type} {a k : Nat} (v : α) (hk : a < k) :
    ∀ {t : SMap α}, keysAbove a t → keysAbove a (tins t k v)
  | [], _ => ⟨hk, trivial⟩
  | (i, w) :: r, h => by
    simp only [tins]
    split
    · subst i; exact ⟨hk, h.2⟩
    · split
      · exact ⟨hk, by assumption, h.2⟩
      · exact ⟨h.1, keysAbove_tins v (by omega) h.2⟩

theorem keysRise_tins {α : Type} {k : Nat} (v : α) {t : SMap α} (h : keysRise t) : keysRise (tins t k v) := by
  cases t with
  | nil => trivial
  | cons c r =>
    obtain ⟨i, w⟩ := c
    simp only [tins]
    split
    · subst i; exact h
    · split
      · exact ⟨by assumption, h⟩
      · exact keysAbove_tins v (by omega) h

theorem keysAbove_tdel {α : Type} {a k : Nat} : ∀ {t : SMap α}, keysAbove a t → keysAbove a (tdel t k)
  | [], _ => trivial
  | (i, w) :: r, h => by
    simp only [tdel]
    split
    · exact keysAbove_mono (Nat.le_of_lt h.1) (keysAbove_tdel h.2)
    · exact ⟨h.1, keysAbove_tdel h.2⟩

theorem keysRise_tdel {α : Type} {k : Nat} {t : SMap α} (h : keysRise t) : keysRise (tdel t k) := by
  cases t with
  | nil => trivial
  | cons c r =>
    obtain ⟨i, w⟩ := c
    simp only [tdel]
    split
    · exact keysAbove_rise (keysAbove_tdel h)
    · exact keysAbove_tdel h

theorem tget_tins {α : Type} (d v : α) (k j : Nat) : ∀ t : SMap α, tget d (tins t k v) j = if k = j then v else tget d t j
  | [] => by simp [tins, tget]
  | (i, w) :: r => by
    simp only [tins]
    by_cases h1 : i = k
    · subst h1; by_cases h2 : i = j <;> simp [tget, h2]
    · by_cases h3 : k < i
      · simp only [h1, if_false, h3, if_true, tget]
      · simp only [h1, if_false, h3, tget, tget_tins d v k j r]
        by_cases h2 : i = j
        · subst h2; simp [Ne.symm h1]
        · simp [h2]

theorem tget_above {α : Type} (d : α) {a j : Nat} : ∀ {t : SMap α}, keysAbove a t → j ≤ a → tget d t j = d
  | [], _, _ => rfl
  | (i, w) :: r, h, hj => by
    have : i ≠ j := by have := h.1; simp at this; omega
    simp only [tget, this, if_false]
    exact tget_above d h.2 (by have := h.1; simp at this; simp; omega)

theorem tget_tdel {α : Type} (d : α) (k j : Nat) :
    ∀ t : SMap α, tget d (tdel t k) j = if k = j then d else tget d t j
  | [] => by simp [tdel, tget]
  | (i, w) :: r => by
    simp only [tdel]
    by_cases h1 : i = k
    · subst h1
      by_cases h2 : i = j
      · subst h2; simp [tget_tdel d i i r]
      · simp [tget, h2, tget_tdel d i j r]
    · simp only [h1, if_false, tget, tget_tdel d k j r]
      by_cases h2 : i = j
      · subst h2; simp [Ne.symm h1]
      · simp [h2]

theorem keysRise_tput {α : Type} [DecidableEq α] {d v : α} {k : Nat} {t : SMap α} (h : keysRise t) :
    keysRise (tput d t k v) := by
  unfold tput
  split
  · exact keysRise_tdel h
  · exact keysRise_tins v h

/-- A table read after a write. -/
theorem tget_tput {α : Type} [DecidableEq α] (d v : α) (k j : Nat) (t : SMap α) :
    tget d (tput d t k v) j = if k = j then v else tget d t j := by
  unfold tput
  split
  · subst v; exact tget_tdel d k j t
  · exact tget_tins d v k j t

/-- A table read at the key just written, whatever the table. -/
theorem tget_tput_ne {α : Type} [DecidableEq α] (d v : α) (k : Nat) (t : SMap α) (h : v ≠ d) :
    tget d (tput d t k v) k = v := by
  simp [tput, h, tget_tins]

/-! ### Memories in canonical form -/

theorem memWf_iff (m : List Host.Cell) : memWf m = true ↔ keysRise m ∧ ∀ c ∈ m, c.2 ≠ 0#8 := by
  induction m with
  | nil => simp [memWf, keysRise]
  | cons c r ih =>
    cases r with
    | nil => simp [memWf, keysRise, keysAbove]
    | cons d r =>
      simp only [memWf, Bool.and_eq_true, bne_iff_ne, decide_eq_true_eq, ih, List.mem_cons, keysRise, keysAbove]
      constructor
      · rintro ⟨⟨h1, h2⟩, h3, h4⟩
        refine ⟨⟨h2, h3⟩, ?_⟩
        rintro x (rfl | hx)
        · exact h1
        · exact h4 x hx
      · rintro ⟨⟨h1, h2⟩, h3⟩
        exact ⟨⟨h3 c (Or.inl rfl), h1⟩, h2, fun x hx => h3 x (Or.inr hx)⟩

theorem memWf_filter (p : Host.Cell → Bool) {m : List Host.Cell} (h : memWf m = true) : memWf (m.filter p) = true := by
  rw [memWf_iff] at h ⊢
  exact ⟨keysRise_filter p h.1, fun c hc => h.2 c (List.mem_filter.mp hc).1⟩

theorem mem_tins {α : Type} {k : Nat} {v : α} {c : Nat × α} : ∀ {t : SMap α}, c ∈ tins t k v → c = (k, v) ∨ c ∈ t
  | [], h => by simpa [tins] using h
  | (i, w) :: r, h => by
    simp only [tins] at h
    split at h
    · rcases List.mem_cons.mp h with h | h
      · exact .inl h
      · exact .inr (List.mem_cons_of_mem _ h)
    · split at h
      · rcases List.mem_cons.mp h with h | h
        · exact .inl h
        · exact .inr h
      · rcases List.mem_cons.mp h with h | h
        · exact .inr (h ▸ List.mem_cons_self)
        · rcases mem_tins h with h | h
          · exact .inl h
          · exact .inr (List.mem_cons_of_mem _ h)

theorem mem_tdel {α : Type} {k : Nat} {c : Nat × α} : ∀ {t : SMap α}, c ∈ tdel t k → c ∈ t
  | [], h => h
  | (i, w) :: r, h => by
    simp only [tdel] at h
    split at h
    · exact List.mem_cons_of_mem _ (mem_tdel h)
    · rcases List.mem_cons.mp h with h | h
      · exact h ▸ List.mem_cons_self
      · exact List.mem_cons_of_mem _ (mem_tdel h)

theorem memWf_memPut {m : List Host.Cell} (a : Nat) (b : Byte) (h : memWf m = true) : memWf (memPut m a b) = true := by
  rw [memWf_iff] at h ⊢
  refine ⟨keysRise_tput h.1, ?_⟩
  intro c hc
  unfold memPut tput at hc
  split at hc
  · exact h.2 c (mem_tdel hc)
  · rcases mem_tins hc with rfl | hc
    · assumption
    · exact h.2 c hc

theorem keysAbove_cellsOf : ∀ (bs : List Byte) (a b : Nat), b < a → keysAbove b (cellsOf a bs)
  | [], _, _, _ => trivial
  | x :: r, a, b, h => by
    simp only [cellsOf]
    split
    · exact keysAbove_cellsOf r _ _ (by omega)
    · exact ⟨h, keysAbove_cellsOf r _ _ (by omega)⟩

theorem cellsOf_ne : ∀ (bs : List Byte) (a : Nat), ∀ c ∈ cellsOf a bs, c.2 ≠ 0#8 ∧ a ≤ c.1 ∧ c.1 < a + bs.length
  | [], _, c, hc => by simp [cellsOf] at hc
  | x :: r, a, c, hc => by
    simp only [cellsOf] at hc
    split at hc
    · have := cellsOf_ne r _ c hc
      exact ⟨this.1, by omega, by simp only [List.length_cons]; omega⟩
    · rcases List.mem_cons.mp hc with rfl | hc
      · simp; assumption
      · have := cellsOf_ne r _ c hc
        exact ⟨this.1, by omega, by simp only [List.length_cons]; omega⟩

theorem keysRise_cellsOf (bs : List Byte) (a : Nat) : keysRise (cellsOf a bs) := by
  cases bs with
  | nil => trivial
  | cons x r =>
    simp only [cellsOf]
    split
    · exact keysAbove_rise (keysAbove_cellsOf r _ a (by omega))
    · exact keysAbove_cellsOf r _ _ (by simp)

theorem keysAbove_append {α : Type} {a : Nat} :
    ∀ {t u : SMap α}, keysAbove a t → keysAbove a u → (∀ c ∈ t, ∀ d ∈ u, c.1 < d.1) → keysAbove a (t ++ u)
  | [], _, _, hu, _ => hu
  | c :: r, u, ht, hu, h => by
    refine ⟨ht.1, keysAbove_append ht.2 ?_ (fun x hx => h x (List.mem_cons_of_mem _ hx))⟩
    cases u with
    | nil => trivial
    | cons d w => exact ⟨h c List.mem_cons_self d List.mem_cons_self, hu.2⟩

theorem keysRise_append {α : Type} {t u : SMap α} (ht : keysRise t) (hu : keysRise u)
    (h : ∀ c ∈ t, ∀ d ∈ u, c.1 < d.1) : keysRise (t ++ u) := by
  cases t with
  | nil => exact hu
  | cons c r =>
    refine keysAbove_append ht ?_ (fun x hx => h x (List.mem_cons_of_mem _ hx))
    cases u with
    | nil => trivial
    | cons d w => exact ⟨h c List.mem_cons_self d List.mem_cons_self, hu⟩

theorem keysAbove_memWrite {a lo : Nat} {bs : List Byte} (h : lo < a) :
    ∀ {m : List Host.Cell}, keysAbove lo m → keysAbove lo (memWrite m a bs)
  | [], _ => keysAbove_cellsOf bs a lo h
  | c :: r, hm => by
    simp only [memWrite]
    split
    · exact ⟨hm.1, keysAbove_memWrite (by assumption) hm.2⟩
    · refine keysAbove_append (keysAbove_cellsOf bs a lo h) (keysAbove_filter _ hm) ?_
      intro x hx y hy
      have := (cellsOf_ne bs a x hx).2.2
      have := (List.mem_filter.mp hy).2
      simp at this; omega

theorem memWf_memWrite {m : List Host.Cell} (a : Nat) (bs : List Byte) (h : memWf m = true) :
    memWf (memWrite m a bs) = true := by
  rw [memWf_iff] at h ⊢
  constructor
  · cases m with
    | nil => exact keysRise_cellsOf bs a
    | cons c r =>
      simp only [memWrite]
      split
      · exact keysAbove_memWrite (by assumption) h.1
      · refine keysRise_append (keysRise_cellsOf bs a) (keysRise_filter _ h.1) ?_
        intro x hx y hy
        have := (cellsOf_ne bs a x hx).2.2
        have := (List.mem_filter.mp hy).2
        simp at this; omega
  · replace h := h.2
    induction m with
    | nil => intro c hc; exact (cellsOf_ne bs a c hc).1
    | cons d r ih =>
      intro c hc
      simp only [memWrite] at hc
      split at hc
      · rcases List.mem_cons.mp hc with rfl | hc
        · exact h _ List.mem_cons_self
        · exact ih (fun x hx => h x (List.mem_cons_of_mem _ hx)) c hc
      · rcases List.mem_append.mp hc with hc | hc
        · exact (cellsOf_ne bs a c hc).1
        · exact h c (List.mem_filter.mp hc).1

theorem memWf_memClear {m : List Host.Cell} (lo hi : Nat) (h : memWf m = true) : memWf (memClear m lo hi) = true :=
  memWf_filter _ h

theorem memWf_foldPut {α : Type} (f : List Host.Cell → α → Nat × Byte) (l : List α) :
    ∀ {m : List Host.Cell}, memWf m = true → memWf (l.foldl (fun m c => memPut m (f m c).1 (f m c).2) m) = true := by
  induction l with
  | nil => exact fun h => h
  | cons c r ih => exact fun h => ih (memWf_memPut _ _ h)

/-! ### Reading after writing -/

theorem memByte_memPut (m : List Host.Cell) (a x : Nat) (b : Byte) :
    memByte (memPut m a b) x = if a = x then b else memByte m x :=
  tget_tput 0#8 b a x m

theorem tget_filter {α : Type} (d : α) (p : Nat → Bool) (j : Nat) :
    ∀ t : SMap α, tget d (t.filter fun c => p c.1) j = if p j then tget d t j else d
  | [] => by simp [tget]
  | (i, w) :: r => by
    simp only [List.filter]
    by_cases hi : i = j
    · subst hi; cases hp : p i <;> simp [tget, tget_filter d p i r, hp]
    · cases hp : p i <;> simp [tget, hi, tget_filter d p j r]

theorem memByte_memClear (m : List Host.Cell) (lo hi x : Nat) :
    memByte (memClear m lo hi) x = if lo ≤ x ∧ x < hi then 0#8 else memByte m x := by
  have h := tget_filter 0#8 (fun a => decide (a < lo) || decide (hi ≤ a)) x m
  unfold memByte memClear
  rw [h]
  by_cases h1 : lo ≤ x ∧ x < hi
  · have : ¬ x < lo ∧ ¬ hi ≤ x := by omega
    simp [h1, this]
  · have : x < lo ∨ hi ≤ x := by omega
    simp only [h1, if_false]
    rcases this with h2 | h2 <;> simp [h2]

theorem tget_append {α : Type} (d : α) (j : Nat) (u : SMap α) :
    ∀ t : SMap α, (∀ c ∈ t, c.1 ≠ j) → tget d (t ++ u) j = tget d u j
  | [], _ => rfl
  | (i, w) :: r, h => by
    have hi : i ≠ j := h (i, w) List.mem_cons_self
    simp only [List.cons_append, tget, hi, if_false]
    exact tget_append d j u r fun c hc => h c (List.mem_cons_of_mem _ hc)

theorem tget_append_left {α : Type} (d : α) (j : Nat) (u : SMap α) (hu : tget d u j = d) :
    ∀ t : SMap α, tget d (t ++ u) j = tget d t j
  | [] => hu
  | (i, w) :: r => by simp only [List.cons_append, tget, tget_append_left d j u hu r]

theorem memByte_cellsOf (x : Nat) : ∀ (bs : List Byte) (a : Nat),
    memByte (cellsOf a bs) x = if a ≤ x ∧ x < a + bs.length then bs.getD (x - a) 0#8 else 0#8
  | [], a => by simp [cellsOf, memByte, tget]
  | b :: r, a => by
    have ih := memByte_cellsOf x r (a + 1)
    unfold memByte at ih ⊢
    simp only [cellsOf]
    by_cases hx : x = a
    · subst hx
      by_cases hb : b = 0#8
      · simp only [hb, if_true, ih]; simp
      · simp [hb, tget]
    · have hax : a ≠ x := fun h => hx h.symm
      have : tget 0#8 (if b = 0#8 then cellsOf (a + 1) r else (a, b) :: cellsOf (a + 1) r) x
          = tget 0#8 (cellsOf (a + 1) r) x := by
        split
        · rfl
        · simp [tget, hax]
      rw [this, ih]
      by_cases h : a + 1 ≤ x ∧ x < a + 1 + r.length
      · have h2 : a ≤ x ∧ x < a + (b :: r).length := by simp; omega
        have h3 : x - a = (x - (a + 1)) + 1 := by omega
        simp only [h, h2, and_self, if_true, h3]
        simp
      · have h2 : ¬ (a ≤ x ∧ x < a + (b :: r).length) := by simp; omega
        simp only [h, h2, if_false]

/-- A byte of memory after a list of bytes has been written at `a`. -/
theorem memByte_memWrite (a x : Nat) (bs : List Byte) {m : List Host.Cell} (h : memWf m = true) :
    memByte (memWrite m a bs) x = if a ≤ x ∧ x < a + bs.length then bs.getD (x - a) 0#8 else memByte m x := by
  have hr := ((memWf_iff m).mp h).1
  clear h
  induction m with
  | nil => simp only [memWrite]; exact (memByte_cellsOf x bs a).trans (by simp [memByte, tget])
  | cons c r ih =>
    have hc : keysAbove c.1 r := hr
    have ih := ih (keysAbove_rise hc)
    simp only [memWrite]
    by_cases h1 : c.1 < a
    · simp only [h1, if_true]
      unfold memByte at ih ⊢
      obtain ⟨i, w⟩ := c
      by_cases hi : i = x
      · subst hi
        have : ¬ (a ≤ i ∧ i < a + bs.length) := by simp at h1; omega
        simp [tget, this]
      · simp only [tget, hi, if_false]; exact ih
    · simp only [h1, if_false]
      unfold memByte
      have hf := tget_filter 0#8 (fun k => decide (a + bs.length ≤ k)) x (c :: r)
      by_cases h2 : a ≤ x ∧ x < a + bs.length
      · rw [tget_append_left]
        · exact (memByte_cellsOf x bs a).trans (by simp [h2])
        · rw [hf]; have : ¬ a + bs.length ≤ x := by omega
          simp [this]
      · rw [tget_append]
        · rw [hf]
          simp only [h2, if_false]
          by_cases h3 : a + bs.length ≤ x
          · simp [h3]
          · have : x < a := by omega
            simp only [h3, decide_false, Bool.false_eq_true, if_false]
            obtain ⟨i, w⟩ := c
            have hix : i ≠ x := by simp at h1; omega
            simp only [tget, hix, if_false]
            exact (tget_above 0#8 hc (by simp at h1 ⊢; omega)).symm
        · intro d hd
          have := cellsOf_ne bs a d hd
          omega

end Sys2Proof.Machine
end

