-- ==== Sys2Proof/Laws/Kept.lean ====
section
/-!
SUPPORT. What every operation of the block keeps, as one relation between a state and a later one: memories stay in
canonical form, wear counts do not fall and bound the changes of the keep registers, the anti-rollback version does not
fall, and the queue of commands is left alone. It is shown once for each shared operation.
-/

namespace Sys2Proof.Machine

/-- The later state keeps what the earlier one has. -/
structure Kept (s t : State) : Prop where
  dev : memWf s.mems.dev = true → memWf t.mems.dev = true
  host : memWf s.mems.host = true → memWf t.mems.host = true
  wear : ∀ i, keepWear s i ≤ keepWear t i
  worn : ∀ i, keepReg t i ≠ keepReg s i → keepWear s i < 200000 ∧ keepWear s i < keepWear t i
  spares : ShadowSpares s → ShadowSpares t
  version : ShadowSpares s → (keepReg s 1).toNat ≤ (keepReg t 1).toNat
  pending : t.pending = s.pending

/-- Every next state of an outcome keeps what the state has. -/
def KeptOut (s : State) (x : Out) : Prop :=
  match x with
  | .next t => Kept s t
  | _ => True

theorem Kept.refl (s : State) : Kept s s :=
  ⟨id, id, fun _ => Nat.le_refl _, fun _ h => absurd rfl h, id, fun _ => Nat.le_refl _, rfl⟩

theorem Kept.trans {s t u : State} (h : Kept s t) (k : Kept t u) : Kept s u where
  dev := fun x => k.dev (h.dev x)
  host := fun x => k.host (h.host x)
  wear := fun i => Nat.le_trans (h.wear i) (k.wear i)
  worn := fun i x => by
    by_cases hi : keepReg t i = keepReg s i
    · have := k.worn i (by rw [hi]; exact x)
      have := h.wear i
      omega
    · have := h.worn i hi
      have := k.wear i
      omega
  spares := fun x => k.spares (h.spares x)
  version := fun x => Nat.le_trans (h.version x) (k.version (h.spares x))
  pending := k.pending.trans h.pending

/-- A state that differs elsewhere only. -/
theorem Kept.same {s0 s t : State} (h : Kept s0 s) (hd : t.mems.dev = s.mems.dev) (hh : t.mems.host = s.mems.host)
    (hk : t.firm.keep = s.firm.keep) (hw : t.firm.wear = s.firm.wear) (hs : t.firm.shadow = s.firm.shadow)
    (hp : t.pending = s.pending) : Kept s0 t :=
  h.trans {
    dev := by rw [hd]; exact id
    host := by rw [hh]; exact id
    wear := fun i => by unfold keepWear; rw [hw]
    worn := fun i x => absurd (by unfold keepReg; rw [hk]) x
    spares := by unfold ShadowSpares; rw [hs]; exact id
    version := fun _ => by unfold keepReg; rw [hk]
    pending := hp }

/-- The same for a state written out. -/
theorem Kept.lit {s0 s : State} (h : Kept s0 s) {pins glob pcie dies head fab power faults spdmDoe spdmMctp perf face
    snap out freeIdx pending} {m : Mems} {f : Firm} (hd : m.dev = s.mems.dev) (hh : m.host = s.mems.host)
    (hk : f.keep = s.firm.keep) (hw : f.wear = s.firm.wear) (hs : f.shadow = s.firm.shadow)
    (hp : pending = s.pending) :
    Kept s0 ⟨pins, glob, pcie, m, dies, head, fab, power, faults, f, spdmDoe, spdmMctp, perf, face, snap, out, freeIdx,
      pending⟩ := h.same hd hh hk hw hs hp

/-- A state that differs elsewhere and in its device memory, which stays in canonical form. -/
theorem Kept.devMem {s0 s t : State} (h : Kept s0 s) (hd : memWf s.mems.dev = true → memWf t.mems.dev = true)
    (hh : t.mems.host = s.mems.host) (hk : t.firm.keep = s.firm.keep) (hw : t.firm.wear = s.firm.wear)
    (hs : t.firm.shadow = s.firm.shadow) (hp : t.pending = s.pending) : Kept s0 t :=
  h.trans {
    dev := hd
    host := by rw [hh]; exact id
    wear := fun i => by unfold keepWear; rw [hw]
    worn := fun i x => absurd (by unfold keepReg; rw [hk]) x
    spares := by unfold ShadowSpares; rw [hs]; exact id
    version := fun _ => by unfold keepReg; rw [hk]
    pending := hp }

/-- A state that differs elsewhere and in the host's memory, which stays in canonical form. -/
theorem Kept.hostMem {s0 s t : State} (h : Kept s0 s) (hh : memWf s.mems.host = true → memWf t.mems.host = true)
    (hd : t.mems.dev = s.mems.dev) (hk : t.firm.keep = s.firm.keep) (hw : t.firm.wear = s.firm.wear)
    (hs : t.firm.shadow = s.firm.shadow) (hp : t.pending = s.pending) : Kept s0 t :=
  h.trans {
    dev := by rw [hd]; exact id
    host := hh
    wear := fun i => by unfold keepWear; rw [hw]
    worn := fun i x => absurd (by unfold keepReg; rw [hk]) x
    spares := by unfold ShadowSpares; rw [hs]; exact id
    version := fun _ => by unfold keepReg; rw [hk]
    pending := hp }

/-- The state that an operation with several results answers. -/
theorem Kept.fst {α : Type} {s0 t : State} {p : State × α} {a : α} (h : Kept s0 p.1) (e : p = (t, a)) : Kept s0 t := by
  rw [e] at h; exact h

/-! ### Folds -/

theorem kept_fold {α : Type} {s0 s : State} {f : State → α → State} (l : List α) (h : Kept s0 s)
    (hf : ∀ s x, Kept s0 s → Kept s0 (f s x)) : Kept s0 (l.foldl f s) := by
  induction l generalizing s with
  | nil => exact h
  | cons x r ih => exact ih (hf s x h)

theorem kept_fold_fst {α β : Type} {s0 : State} {f : State × β → α → State × β} (l : List α) {a : State × β}
    (h : Kept s0 a.1) (hf : ∀ a x, Kept s0 a.1 → Kept s0 (f a x).1) : Kept s0 (l.foldl f a).1 := by
  induction l generalizing a with
  | nil => exact h
  | cons x r ih => exact ih (hf a x h)

theorem keptOut_notNow {s0 : State} : KeptOut s0 notNow := trivial

theorem keptOut_refused {s0 : State} {r : Refusal} : KeptOut s0 (.refused r) := trivial

theorem keptOut_next {s0 t : State} (h : Kept s0 t) : KeptOut s0 (.next t) := h

end Sys2Proof.Machine
end

