-- ==== Sys2Proof/Laws/KeptOps.lean ====
section
/-!
SUPPORT. What the operations over the stores keep.
-/

namespace Sys2Proof.Machine


theorem kept_fold_s {α : Type} {s0 : State} {f : Acc → α → Acc} (l : List α) {a : Acc} (h : Kept s0 a.s)
    (hf : ∀ a x, Kept s0 a.s → Kept s0 (f a x).s) : Kept s0 (l.foldl f a).s := by
  induction l generalizing a with
  | nil => exact h
  | cons x r ih => exact ih (hf a x h)

theorem kept_fold_as {α β : Type} {s0 : State} {f : Acc × β → α → Acc × β} (l : List α) {a : Acc × β}
    (h : Kept s0 a.1.s)
    (hf : ∀ a x, Kept s0 a.1.s → Kept s0 (f a x).1.s) : Kept s0 (l.foldl f a).1.s := by
  induction l generalizing a with
  | nil => exact h
  | cons x r ih => exact ih (hf a x h)

theorem kept_fold_land {α : Type} {s0 : State} {f : Land → α → Land} (l : List α) {a : Land} (h : Kept s0 a.s)
    (hf : ∀ a x, Kept s0 a.s → Kept s0 (f a x).s) : Kept s0 (l.foldl f a).s := by
  induction l generalizing a with
  | nil => exact h
  | cons x r ih => exact ih (hf a x h)

theorem kept_ite {s0 a b : State} {c : Prop} [Decidable c] (h1 : Kept s0 a) (h2 : Kept s0 b) :
    Kept s0 (if c then a else b) := by
  by_cases hc : c
  · rw [if_pos hc]; exact h1
  · rw [if_neg hc]; exact h2

theorem kept_iteRes {s0 : State} {a b : Res} {c : Prop} [Decidable c] (h1 : Kept s0 a.s) (h2 : Kept s0 b.s) :
    Kept s0 (if c then a else b).s := by
  by_cases hc : c
  · rw [if_pos hc]; exact h1
  · rw [if_neg hc]; exact h2

theorem kept_setQ {s0 : State} {s : State} {q : Nat} {v : Queue} (hk0 : Kept s0 s) :
    Kept s0 (setQ s q v) := hk0.same rfl rfl rfl rfl rfl rfl

theorem kept_modQ {s0 : State} {s : State} {q : Nat} {f : Queue → Queue} (hk0 : Kept s0 s) :
    Kept s0 (modQ s q f) := by
  unfold modQ
  try dsimp only
  repeat' first
    | assumption
    | with_reducible apply kept_setQ

theorem kept_setOps {s0 : State} {s : State} {ops : List Op} (hk0 : Kept s0 s) :
    Kept s0 (setOps s ops) := hk0.same rfl rfl rfl rfl rfl rfl

theorem kept_setTally {s0 : State} {s : State} {i : Nat} {v : BitVec 32} (hk0 : Kept s0 s) :
    Kept s0 (setTally s i v) := hk0.same rfl rfl rfl rfl rfl rfl

theorem kept_addTally {s0 : State} {s : State} {i n : Nat} (hk0 : Kept s0 s) :
    Kept s0 (addTally s i n) := by
  unfold addTally
  try dsimp only
  repeat' first
    | assumption
    | with_reducible apply kept_setTally

theorem kept_setFunc {s0 : State} {s : State} {f : Nat} {v : Func} (hk0 : Kept s0 s) :
    Kept s0 (setFunc s f v) := hk0.same rfl rfl rfl rfl rfl rfl

theorem kept_setSpindle {s0 : State} {s : State} {i : Nat} {v : Spindle} (hk0 : Kept s0 s) :
    Kept s0 (setSpindle s i v) := hk0.same rfl rfl rfl rfl rfl rfl

theorem kept_setPort {s0 : State} {s : State} {p : Nat} {v : Port} (hk0 : Kept s0 s) :
    Kept s0 (setPort s p v) := hk0.same rfl rfl rfl rfl rfl rfl

theorem kept_setWindow {s0 : State} {s : State} {i : Nat} {v : Window} (hk0 : Kept s0 s) :
    Kept s0 (setWindow s i v) := hk0.same rfl rfl rfl rfl rfl rfl

theorem kept_setRegion {s0 : State} {s : State} {lathe k : Nat} {v : Region} (hk0 : Kept s0 s) :
    Kept s0 (setRegion s lathe k v) := hk0.same rfl rfl rfl rfl rfl rfl

theorem kept_setSlot {s0 : State} {s : State} {lathe slot : Nat} {v : PatSlot} (hk0 : Kept s0 s) :
    Kept s0 (setSlot s lathe slot v) := hk0.same rfl rfl rfl rfl rfl rfl

theorem kept_setStream {s0 : State} {s : State} {i : Nat} {v : Stream} (hk0 : Kept s0 s) :
    Kept s0 (setStream s i v) := hk0.same rfl rfl rfl rfl rfl rfl

theorem kept_setLimits {s0 : State} {s : State} {key : Nat} {v : Limits} (hk0 : Kept s0 s) :
    Kept s0 (setLimits s key v) := hk0.same rfl rfl rfl rfl rfl rfl

theorem kept_emit {s0 : State} {s : State} {m : Msg} (hk0 : Kept s0 s) :
    Kept s0 (emit s m) := hk0.same rfl rfl rfl rfl rfl rfl

theorem kept_nextFree {s0 : State} {s : State} (hk0 : Kept s0 s) :
    Kept s0 (nextFree s) := hk0.same rfl rfl rfl rfl rfl rfl

theorem kept_setPd {s0 : State} {s : State} {d : Nat} {v : PdState} (hk0 : Kept s0 s) :
    Kept s0 (setPd s d v) := hk0.same rfl rfl rfl rfl rfl rfl

theorem kept_raiseMsix {s0 : State} {s : State} {fn v : Nat} (hk0 : Kept s0 s) :
    Kept s0 (raiseMsix s fn v) := by
  unfold raiseMsix
  try dsimp only
  repeat' first
    | assumption
    | with_reducible apply kept_emit
    | (fail_if_no_progress with_reducible refine Kept.lit ?_ rfl rfl rfl rfl rfl rfl)
    | with_reducible refine Kept.fst ?_ (by assumption)
    | with_reducible apply keptOut_next
    | exact keptOut_notNow
    | exact keptOut_refused
    | dsimp only
    | split

theorem kept_flushMsix {s0 : State} {s : State} {fn : Nat} (hk0 : Kept s0 s) :
    Kept s0 (flushMsix s fn) := by
  unfold flushMsix
  try dsimp only
  repeat' first
    | assumption
    | with_reducible apply kept_raiseMsix
    | with_reducible apply kept_fold
    | with_reducible apply kept_fold_fst
    | with_reducible apply kept_fold_as
    | with_reducible apply kept_fold_s
    | with_reducible apply kept_fold_land
    | (fail_if_no_progress with_reducible refine Kept.lit ?_ rfl rfl rfl rfl rfl rfl)
    | with_reducible refine Kept.fst ?_ (by assumption)
    | with_reducible apply keptOut_next
    | exact keptOut_notNow
    | exact keptOut_refused
    | dsimp only
    | split
    | intro _

theorem kept_setDevEvent {s0 : State} {s : State} {m : BitVec 4} (hk0 : Kept s0 s) :
    Kept s0 (setDevEvent s m) := by
  unfold setDevEvent
  try dsimp only
  repeat' first
    | assumption
    | with_reducible apply kept_raiseMsix
    | (fail_if_no_progress with_reducible refine Kept.lit ?_ rfl rfl rfl rfl rfl rfl)
    | with_reducible refine Kept.fst ?_ (by assumption)
    | with_reducible apply keptOut_next
    | exact keptOut_notNow
    | exact keptOut_refused
    | dsimp only
    | split

theorem kept_vlogAdd {s0 : State} {s : State} {r : LogRec} (hk0 : Kept s0 s) :
    Kept s0 (vlogAdd s r) := by
  unfold vlogAdd
  try dsimp only
  repeat' first
    | assumption
    | with_reducible apply kept_raiseMsix
    | with_reducible apply kept_setDevEvent
    | (fail_if_no_progress with_reducible refine Kept.lit ?_ rfl rfl rfl rfl rfl rfl)
    | with_reducible refine Kept.fst ?_ (by assumption)
    | with_reducible apply keptOut_next
    | exact keptOut_notNow
    | exact keptOut_refused
    | dsimp only
    | split

theorem kept_countCorr {s0 : State} {s : State} {hbm : Bool} {addr kind : Nat} (hk0 : Kept s0 s) :
    Kept s0 (countCorr s hbm addr kind) := by
  unfold countCorr
  try dsimp only
  repeat' first
    | assumption
    | (fail_if_no_progress with_reducible refine Kept.lit ?_ rfl rfl rfl rfl rfl rfl)

theorem kept_countUncorr {s0 : State} {s : State} {hbm : Bool} (hk0 : Kept s0 s) :
    Kept s0 (countUncorr s hbm) := by
  unfold countUncorr
  try dsimp only
  repeat' first
    | assumption
    | (fail_if_no_progress with_reducible refine Kept.lit ?_ rfl rfl rfl rfl rfl rfl)

theorem kept_setUpsets {s0 : State} {s : State} {us : List Upset} (hk0 : Kept s0 s) :
    Kept s0 (setUpsets s us) := hk0.same rfl rfl rfl rfl rfl rfl

theorem kept_dropUpset {s0 : State} {s : State} {u : Nat} (hk0 : Kept s0 s) :
    Kept s0 (dropUpset s u) := by
  unfold dropUpset
  try dsimp only
  repeat' first
    | assumption
    | with_reducible apply kept_setUpsets

theorem kept_poisonAt {s0 : State} {s : State} {u : Nat} (hk0 : Kept s0 s) :
    Kept s0 (poisonAt s u) := by
  unfold poisonAt
  try dsimp only
  repeat' first
    | assumption
    | (fail_if_no_progress with_reducible refine Kept.lit ?_ rfl rfl rfl rfl rfl rfl)

theorem kept_correctRow {s0 : State} {s : State} {row : Nat} (hk0 : Kept s0 s) :
    Kept s0 (correctRow s row).1 := by
  unfold correctRow
  try dsimp only
  repeat' first
    | assumption
    | with_reducible apply kept_countCorr
    | with_reducible apply kept_setUpsets
    | with_reducible apply kept_fold
    | with_reducible apply kept_fold_fst
    | with_reducible apply kept_fold_as
    | with_reducible apply kept_fold_s
    | with_reducible apply kept_fold_land
    | (fail_if_no_progress with_reducible refine Kept.lit ?_ rfl rfl rfl rfl rfl rfl)
    | with_reducible refine Kept.fst ?_ (by assumption)
    | with_reducible apply keptOut_next
    | exact keptOut_notNow
    | exact keptOut_refused
    | dsimp only
    | split
    | intro _

theorem kept_guardUnit {s0 : State} {s : State} {u : Nat} (hk0 : Kept s0 s) :
    Kept s0 (guardUnit s u).1 := by
  unfold guardUnit
  try dsimp only
  repeat' first
    | assumption
    | with_reducible apply kept_countCorr
    | with_reducible apply kept_countUncorr
    | with_reducible apply kept_dropUpset
    | with_reducible apply kept_poisonAt
    | with_reducible apply kept_correctRow
    | (fail_if_no_progress with_reducible refine Kept.lit ?_ rfl rfl rfl rfl rfl rfl)
    | with_reducible refine Kept.fst ?_ (by assumption)
    | with_reducible apply keptOut_next
    | exact keptOut_notNow
    | exact keptOut_refused
    | dsimp only
    | split

theorem kept_guardUnits {s0 : State} : ∀ {us : List Nat} {s : State}, Kept s0 s → Kept s0 (guardUnits s us).1
  | [], _, h => h
  | u :: r, s, h => by
    have h1 := kept_guardUnit (u := u) h
    simp only [guardUnits]
    split
    · exact Kept.fst h1 (by assumption)
    · exact kept_guardUnits (Kept.fst h1 (by assumption))

theorem kept_devRead {s0 : State} {s : State} {a n : Nat} (hk0 : Kept s0 s) :
    Kept s0 (devRead s a n).1 := by
  unfold devRead
  try dsimp only
  repeat' first
    | assumption
    | with_reducible apply kept_guardUnits
    | (fail_if_no_progress with_reducible refine Kept.lit ?_ rfl rfl rfl rfl rfl rfl)
    | with_reducible refine Kept.fst ?_ (by assumption)
    | with_reducible apply keptOut_next
    | exact keptOut_notNow
    | exact keptOut_refused
    | dsimp only
    | split

theorem kept_countHbm {s0 : State} {s : State} {write : Bool} {sectors : List Nat} (hk0 : Kept s0 s) :
    Kept s0 (countHbm s write sectors) := by
  unfold countHbm
  try dsimp only
  repeat' first
    | assumption
    | with_reducible apply kept_fold
    | with_reducible apply kept_fold_fst
    | with_reducible apply kept_fold_as
    | with_reducible apply kept_fold_s
    | with_reducible apply kept_fold_land
    | (fail_if_no_progress with_reducible refine Kept.lit ?_ rfl rfl rfl rfl rfl rfl)
    | with_reducible refine Kept.fst ?_ (by assumption)
    | with_reducible apply keptOut_next
    | exact keptOut_notNow
    | exact keptOut_refused
    | dsimp only
    | split

theorem kept_hbmWrite {s0 : State} {s : State} {a : Nat} {bytes : List Byte} (hk0 : Kept s0 s) :
    Kept s0 (hbmWrite s a bytes).1 := by
  unfold hbmWrite
  dsimp only
  split
  · exact hk0
  · split
    · exact Kept.fst (kept_guardUnits hk0) (by assumption)
    · refine Kept.devMem (kept_countHbm (write := true) (sectors := unitsOf a bytes.length) (kept_countHbm (write := false)
        (sectors := (unitsOf a bytes.length).filter fun u => !coversUnit a bytes.length u)
        (Kept.fst (kept_guardUnits hk0) (by assumption)))) (fun h => memWf_memWrite _ _ h) rfl rfl rfl rfl rfl

theorem kept_rowCommit {s0 : State} {s : State} {row off : Nat} {bytes : List Byte} (hk0 : Kept s0 s) :
    Kept s0 (rowCommit s row off bytes) :=
  Kept.devMem hk0 (fun h => memWf_memWrite _ _ (memWf_memClear _ _ h)) rfl rfl rfl rfl rfl

theorem kept_rowAccumulate {s0 : State} {s : State} {row off wmode : Nat} {bytes : List Byte} (hk0 : Kept s0 s) :
    Kept s0 (rowAccumulate s row off wmode bytes).1 := by
  unfold rowAccumulate
  try dsimp only
  repeat' first
    | assumption
    | with_reducible apply kept_guardUnit
    | with_reducible apply kept_rowCommit
    | (fail_if_no_progress with_reducible refine Kept.lit ?_ rfl rfl rfl rfl rfl rfl)
    | with_reducible refine Kept.fst ?_ (by assumption)
    | with_reducible apply keptOut_next
    | exact keptOut_notNow
    | exact keptOut_refused
    | dsimp only
    | split

theorem kept_mergeHost {s0 : State} {s : State} {fn : Nat} {h : HostReply} (hk0 : Kept s0 s) : Kept s0
    (mergeHost s fn h) := by
  unfold mergeHost
  split
  · exact Kept.hostMem hk0 (fun h => memWf_foldPut (fun _ (c : Host.Cell) => (hostKey fn c.1, c.2)) _ h) rfl rfl rfl rfl rfl
  · exact Kept.hostMem hk0 (fun h => memWf_foldPut (fun _ (c : Host.Cell) => (hostKey fn c.1, c.2)) _ h) rfl rfl rfl rfl rfl
  · exact hk0

theorem kept_hostWrite {s0 : State} {s : State} {fn a : Nat} {bytes : List Byte} {data : Bool} (hk0 : Kept s0 s) :
    Kept s0 (hostWrite s fn a bytes data) :=
  kept_emit (Kept.hostMem hk0 (fun h => memWf_memWrite _ _ h) rfl rfl rfl rfl rfl)

theorem kept_coreFault {s0 : State} {s : State} (hk0 : Kept s0 s) :
    Kept s0 (coreFault s) := by
  unfold coreFault
  try dsimp only
  repeat' first
    | assumption
    | with_reducible apply kept_setDevEvent
    | with_reducible apply kept_countUncorr

theorem kept_useCore {s0 : State} {s : State} {w : CoreWord} (hk0 : Kept s0 s) :
    Kept s0 (useCore s w) := by
  unfold useCore
  try dsimp only
  repeat' first
    | assumption
    | with_reducible apply kept_countCorr
    | with_reducible apply kept_setUpsets
    | with_reducible apply kept_coreFault
    | (fail_if_no_progress with_reducible refine Kept.lit ?_ rfl rfl rfl rfl rfl rfl)
    | with_reducible refine Kept.fst ?_ (by assumption)
    | with_reducible apply keptOut_next
    | exact keptOut_notNow
    | exact keptOut_refused
    | dsimp only
    | split

theorem kept_useCores {s0 : State} : ∀ {ws : List CoreWord} {s : State}, Kept s0 s → Kept s0 (useCores s ws).1
  | [], _, h => h
  | w :: r, s, h => by
    unfold useCores
    split
    · exact kept_useCore h
    · exact kept_useCores (kept_useCore h)

theorem kept_freshTally {s0 : State} {s : State} {i : Nat} (hk0 : Kept s0 s) :
    Kept s0 (freshTally s i) := by
  unfold freshTally
  try dsimp only
  repeat' first
    | assumption
    | with_reducible apply kept_setUpsets
    | (fail_if_no_progress with_reducible refine Kept.lit ?_ rfl rfl rfl rfl rfl rfl)
    | with_reducible refine Kept.fst ?_ (by assumption)
    | with_reducible apply keptOut_next
    | exact keptOut_notNow
    | exact keptOut_refused
    | dsimp only
    | split

theorem kept_putOp {s0 : State} {s : State} {o : Op} (hk0 : Kept s0 s) :
    Kept s0 (putOp s o) := by
  unfold putOp
  try dsimp only
  repeat' first
    | assumption
    | with_reducible apply kept_setOps

theorem kept_delOp {s0 : State} {s : State} {q tag : Nat} (hk0 : Kept s0 s) :
    Kept s0 (delOp s q tag) := by
  unfold delOp
  try dsimp only
  repeat' first
    | assumption
    | with_reducible apply kept_setOps

theorem kept_endOk {s0 : State} {s : State} {o : Op} {flags : BitVec 8} (hk0 : Kept s0 s) :
    Kept s0 (endOk s o flags) := by
  unfold endOk
  try dsimp only
  repeat' first
    | assumption
    | with_reducible apply kept_putOp

theorem kept_mapSpindles {s0 : State} {s : State} {f : Spindle → Spindle} (hk0 : Kept s0 s) :
    Kept s0 (mapSpindles s f) := hk0.same rfl rfl rfl rfl rfl rfl

theorem kept_dropJobs {s0 : State} {s : State} {q tag : Nat} (hk0 : Kept s0 s) :
    Kept s0 (dropJobs s q tag) := by
  unfold dropJobs
  try dsimp only
  repeat' first
    | assumption
    | with_reducible apply kept_mapSpindles
    | (fail_if_no_progress with_reducible refine Kept.lit ?_ rfl rfl rfl rfl rfl rfl)

theorem kept_endFail {s0 : State} {s : State} {o : Op} {flags : BitVec 8} {e : Fail} (hk0 : Kept s0 s) :
    Kept s0 (endFail s o flags e) := by
  unfold endFail
  try dsimp only
  repeat' first
    | assumption
    | with_reducible apply kept_vlogAdd
    | with_reducible apply kept_putOp
    | with_reducible apply kept_dropJobs

theorem kept_endWith {s0 : State} {s : State} {o : Op} {flags : BitVec 8} {e : Option Fail} (hk0 : Kept s0 s) :
    Kept s0 (endWith s o flags e) := by
  unfold endWith
  try dsimp only
  repeat' first
    | assumption
    | with_reducible apply kept_endOk
    | with_reducible apply kept_endFail
    | (fail_if_no_progress with_reducible refine Kept.lit ?_ rfl rfl rfl rfl rfl rfl)
    | with_reducible refine Kept.fst ?_ (by assumption)
    | with_reducible apply keptOut_next
    | exact keptOut_notNow
    | exact keptOut_refused
    | dsimp only
    | split

theorem keptOut_runBody {s0 : State} {code : Nat} {body : State → Op → HostReply → Res} {r : OpRef} {s : State}
    (hk0 : Kept s0 s) (hb : ∀ s o h, Kept s0 s → Kept s0 (body s o h).s) : KeptOut s0 (runBody code body r s) := by
  unfold runBody
  split
  · split
    · exact kept_endWith (hb _ _ _ (kept_mergeHost hk0))
    · trivial
  · trivial

theorem kept_ringWrite {s0 : State} {s : State} {a : Nat} {bytes : List Byte} (hk0 : Kept s0 s) :
    Kept s0 (ringWrite s a bytes) := by
  unfold ringWrite
  try dsimp only
  repeat' first
    | assumption
    | with_reducible apply kept_vlogAdd
    | with_reducible apply kept_hbmWrite
    | (fail_if_no_progress with_reducible refine Kept.lit ?_ rfl rfl rfl rfl rfl rfl)
    | with_reducible refine Kept.fst ?_ (by assumption)
    | with_reducible apply keptOut_next
    | exact keptOut_notNow
    | exact keptOut_refused
    | dsimp only
    | split

theorem kept_ringGuard {s0 : State} {s : State} {q : Nat} (hk0 : Kept s0 s) :
    Kept s0 (ringGuard s q).1 := by
  unfold ringGuard
  try dsimp only
  repeat' first
    | assumption
    | with_reducible apply kept_guardUnits
    | (fail_if_no_progress with_reducible refine Kept.lit ?_ rfl rfl rfl rfl rfl rfl)
    | with_reducible refine Kept.fst ?_ (by assumption)
    | with_reducible apply keptOut_next
    | exact keptOut_notNow
    | exact keptOut_refused
    | dsimp only
    | split

theorem kept_writeReply {s0 : State} {s : State} {q : Nat} {r : BitVec 128} {irq : Bool} (hk0 : Kept s0 s) :
    Kept s0 (writeReply s q r irq) := by
  unfold writeReply
  try dsimp only
  repeat' first
    | assumption
    | with_reducible apply kept_setQ
    | with_reducible apply kept_raiseMsix
    | with_reducible apply kept_hostWrite
    | with_reducible apply kept_ringWrite
    | (fail_if_no_progress with_reducible refine Kept.lit ?_ rfl rfl rfl rfl rfl rfl)
    | with_reducible refine Kept.fst ?_ (by assumption)
    | with_reducible apply keptOut_next
    | exact keptOut_notNow
    | exact keptOut_refused
    | dsimp only
    | split

theorem kept_deferReply {s0 : State} {s : State} {q : Nat} {r : BitVec 128} {irq : Bool} (hk0 : Kept s0 s) :
    Kept s0 (deferReply s q r irq) := by
  unfold deferReply
  try dsimp only
  repeat' first
    | assumption
    | with_reducible apply kept_modQ

theorem kept_postReply {s0 : State} {s : State} {q : Nat} {r : BitVec 128} {irq : Bool} (hk0 : Kept s0 s) :
    Kept s0 (postReply s q r irq) := by
  unfold postReply
  try dsimp only
  repeat' first
    | assumption
    | with_reducible apply kept_vlogAdd
    | with_reducible apply kept_ringGuard
    | with_reducible apply kept_writeReply
    | with_reducible apply kept_deferReply
    | (fail_if_no_progress with_reducible refine Kept.lit ?_ rfl rfl rfl rfl rfl rfl)
    | with_reducible refine Kept.fst ?_ (by assumption)
    | with_reducible apply keptOut_next
    | exact keptOut_notNow
    | exact keptOut_refused
    | dsimp only
    | split

theorem kept_writeAll {s0 : State} : ∀ {ws : List (Nat × List Byte)} {s : State}, Kept s0 s → Kept s0 (writeAll s ws).1
  | [], _, h => h
  | (a, bs) :: r, s, h => by
    have h1 := kept_hbmWrite (a := a) (bytes := bs) h
    simp only [writeAll]
    split
    · exact Kept.fst h1 (by assumption)
    · exact kept_writeAll (Kept.fst h1 (by assumption))

theorem kept_readAll {s0 : State} : ∀ {rs : List (Nat × Nat)} {s : State}, Kept s0 s → Kept s0 (readAll s rs).1
  | [], _, h => h
  | (a, n) :: r, s, h => by
    have h1 := kept_guardUnits (us := unitsOf a n) h
    simp only [readAll]
    split
    · exact h
    · split
      · exact Kept.fst h1 (by assumption)
      · refine kept_readAll ?_
        split
        · exact kept_countHbm (Kept.fst h1 (by assumption))
        · exact Kept.fst h1 (by assumption)

theorem kept_readThen {s0 : State} {s : State} {rs : List (Nat × Nat)} {k : State → Res} (hk0 : Kept s0 s)
    (hb : ∀ s, Kept s0 s → Kept s0 (k s).s) : Kept s0 (readThen s rs k).s := by
  have h1 := kept_readAll (rs := rs) hk0
  unfold readThen
  split
  · exact Kept.fst h1 (by assumption)
  · exact hb _ (Kept.fst h1 (by assumption))

theorem kept_writeThen {s0 : State} {s : State} {flags : BitVec 8} {ws : List (Nat × List Byte)} {k : State → State}
    (hk0 : Kept s0 s) (hb : ∀ s, Kept s0 s → Kept s0 (k s)) : Kept s0 (writeThen s flags ws k).s := by
  have h1 := kept_writeAll (ws := ws) hk0
  unfold writeThen
  split
  · exact Kept.fst h1 (by assumption)
  · exact hb _ (Kept.fst h1 (by assumption))

theorem kept_consumeRel {s0 : State} {s : State} {l k : Nat} {js : List Nat} (hk0 : Kept s0 s) :
    Kept s0 (consumeRel s l k js) := by
  unfold consumeRel
  try dsimp only
  repeat' first
    | assumption
    | with_reducible apply kept_setRegion

theorem kept_kerfTally {s0 : State} {s : State} {o : Op} {p : Plan} {ran : List BTile} (hk0 : Kept s0 s) :
    Kept s0 (kerfTally s o p ran) := by
  unfold kerfTally
  try dsimp only
  repeat' first
    | assumption
    | with_reducible apply kept_addTally
    | (fail_if_no_progress with_reducible refine Kept.lit ?_ rfl rfl rfl rfl rfl rfl)
    | with_reducible refine Kept.fst ?_ (by assumption)
    | with_reducible apply keptOut_next
    | exact keptOut_notNow
    | exact keptOut_refused
    | dsimp only
    | split

theorem kept_updAmax {s0 : State} {s : State} {q a : Nat} (hk0 : Kept s0 s) :
    Kept s0 (updAmax s q a) := by
  unfold updAmax
  try dsimp only
  repeat' first
    | assumption
    | with_reducible apply kept_modQ

theorem kept_writePartial {s0 : State} {s : State} {o : Op} {r : Rect} {pi : Nat} {es : List (List Nat)}
    (hk0 : Kept s0 s) :
    Kept s0 (writePartial s o r pi es).1 := by
  unfold writePartial
  try dsimp only
  repeat' first
    | assumption
    | with_reducible apply kept_writeAll

theorem kept_writeOutputs {s0 : State} {s : State} {o : Op} {r : Rect} {cs : List (List Conv)} (hk0 : Kept s0 s) :
    Kept s0 (writeOutputs s o r cs).1 := by
  unfold writeOutputs
  try dsimp only
  repeat' first
    | assumption
    | with_reducible apply kept_writeAll
    | (fail_if_no_progress with_reducible refine Kept.lit ?_ rfl rfl rfl rfl rfl rfl)
    | with_reducible refine Kept.fst ?_ (by assumption)
    | with_reducible apply keptOut_next
    | exact keptOut_notNow
    | exact keptOut_refused
    | dsimp only
    | split

theorem kept_Acc_write {s0 : State} {a : Acc} {f : State → State × BitVec 8 × Option Fail} (hk0 : Kept s0 a.s)
    (hf : ∀ s, Kept s0 s → Kept s0 (f s).1) : Kept s0 (a.write f).s := by
  unfold Acc.write
  split
  · exact hk0
  · exact hf _ hk0

theorem kept_Acc_flag {s0 : State} {a : Acc} {f : BitVec 8} (hk0 : Kept s0 a.s) :
    Kept s0 (Acc.flag a f).s := by
  unfold Acc.flag
  try dsimp only
  repeat' first
    | assumption

theorem kept_Acc_keep {s0 : State} {a : Acc} {r : Rect} {ws : List (List Nat)} (hk0 : Kept s0 a.s) :
    Kept s0 (Acc.keep a r ws).s := by
  unfold Acc.keep
  try dsimp only
  repeat' first
    | assumption
    | (fail_if_no_progress with_reducible refine Kept.lit ?_ rfl rfl rfl rfl rfl rfl)
    | with_reducible refine Kept.fst ?_ (by assumption)
    | with_reducible apply keptOut_next
    | exact keptOut_notNow
    | exact keptOut_refused
    | dsimp only
    | split

theorem kept_emitConv {s0 : State} {o : Op} {a : Acc} {r : Rect} {cs : List (List Conv)} (hk0 : Kept s0 a.s) :
    Kept s0 (emitConv o a r cs).s := by
  unfold emitConv
  try dsimp only
  repeat' first
    | assumption
    | with_reducible apply kept_writeOutputs
    | with_reducible apply kept_Acc_write
    | with_reducible apply kept_Acc_keep
    | (fail_if_no_progress with_reducible refine Kept.lit ?_ rfl rfl rfl rfl rfl rfl)
    | with_reducible refine Kept.fst ?_ (by assumption)
    | with_reducible apply keptOut_next
    | exact keptOut_notNow
    | exact keptOut_refused
    | dsimp only
    | split
    | intro _

theorem kept_emitRect {t0 : State} {o : Op} {p : Plan} {s0 : State} {a : Acc} {r : Rect} {es : List (List Nat)}
    (hk0 : Kept t0 a.s) :
    Kept t0 (emitRect o p s0 a r es).s := by
  unfold emitRect
  try dsimp only
  repeat' first
    | assumption
    | with_reducible apply kept_emitConv

theorem kept_emitPartial {s0 : State} {o : Op} {i : Nat} {a : Acc} {r : Rect} {ws : List (List Nat)}
    (hk0 : Kept s0 a.s) :
    Kept s0 (emitPartial o i a r ws).s := by
  unfold emitPartial
  try dsimp only
  repeat' first
    | assumption
    | with_reducible apply kept_writePartial
    | with_reducible apply kept_Acc_write
    | with_reducible apply kept_Acc_keep
    | (fail_if_no_progress with_reducible refine Kept.lit ?_ rfl rfl rfl rfl rfl rfl)
    | with_reducible refine Kept.fst ?_ (by assumption)
    | with_reducible apply keptOut_next
    | exact keptOut_notNow
    | exact keptOut_refused
    | dsimp only
    | split
    | intro _

theorem kept_emitRecords {s0 : State} {o : Op} {p : Plan} {a : Acc} (hk0 : Kept s0 a.s) :
    Kept s0 (emitRecords o p a).s := by
  unfold emitRecords
  try dsimp only
  repeat' first
    | assumption
    | with_reducible apply kept_writeAll
    | with_reducible apply kept_Acc_write
    | with_reducible apply kept_fold
    | with_reducible apply kept_fold_fst
    | with_reducible apply kept_fold_as
    | with_reducible apply kept_fold_s
    | with_reducible apply kept_fold_land
    | (fail_if_no_progress with_reducible refine Kept.lit ?_ rfl rfl rfl rfl rfl rfl)
    | with_reducible refine Kept.fst ?_ (by assumption)
    | with_reducible apply keptOut_next
    | exact keptOut_notNow
    | exact keptOut_refused
    | dsimp only
    | split
    | intro _

theorem kept_Acc_res {s0 : State} {a : Acc} {q : Nat} (hk0 : Kept s0 a.s) :
    Kept s0 (Acc.res a q).s := by
  unfold Acc.res
  try dsimp only
  repeat' first
    | assumption
    | with_reducible apply kept_updAmax

theorem kept_commitRows {s0 : State} {s : State} {b : BRef} {l i0 : Nat} {rows : List (List Byte)} (hk0 : Kept s0 s) :
    Kept s0 (commitRows s b l i0 rows) := by
  unfold commitRows
  try dsimp only
  repeat' first
    | assumption
    | with_reducible apply kept_rowCommit
    | with_reducible apply kept_fold
    | with_reducible apply kept_fold_fst
    | with_reducible apply kept_fold_as
    | with_reducible apply kept_fold_s
    | with_reducible apply kept_fold_land
    | (fail_if_no_progress with_reducible refine Kept.lit ?_ rfl rfl rfl rfl rfl rfl)
    | with_reducible refine Kept.fst ?_ (by assumption)
    | with_reducible apply keptOut_next
    | exact keptOut_notNow
    | exact keptOut_refused
    | dsimp only
    | split
    | intro _

theorem kept_stageSlices {s0 : State} {α : Type} {s : State} {b : BRef} {l : Nat} {need : Option Nat} {len : α → Nat}
    {rows : α → List (List Byte)} {xs : List α} (hk0 : Kept s0 s) :
    Kept s0 (stageSlices s b l need len rows xs) := by
  unfold stageSlices
  try dsimp only
  repeat' first
    | assumption
    | with_reducible apply kept_commitRows
    | with_reducible apply kept_fold
    | with_reducible apply kept_fold_fst
    | with_reducible apply kept_fold_as
    | with_reducible apply kept_fold_s
    | with_reducible apply kept_fold_land
    | (fail_if_no_progress with_reducible refine Kept.lit ?_ rfl rfl rfl rfl rfl rfl)
    | with_reducible refine Kept.fst ?_ (by assumption)
    | with_reducible apply keptOut_next
    | exact keptOut_notNow
    | exact keptOut_refused
    | dsimp only
    | split
    | intro _

theorem kept_stageLathe {t0 : State} {s0 : State} {o : Op} {ts : List BTile} {l : Nat} {s : State} (hk0 : Kept t0 s) :
    Kept t0 (stageLathe s0 o ts l s) := by
  unfold stageLathe
  try dsimp only
  repeat' first
    | assumption
    | with_reducible apply kept_stageSlices
    | (fail_if_no_progress with_reducible refine Kept.lit ?_ rfl rfl rfl rfl rfl rfl)
    | with_reducible refine Kept.fst ?_ (by assumption)
    | with_reducible apply keptOut_next
    | exact keptOut_notNow
    | exact keptOut_refused
    | dsimp only
    | split

theorem kept_stageOperands {s0 : State} {s : State} {o : Op} {ts : List BTile} (hk0 : Kept s0 s) :
    Kept s0 (stageOperands s o ts) := by
  unfold stageOperands
  try dsimp only
  repeat' first
    | assumption
    | with_reducible apply kept_stageLathe
    | with_reducible apply kept_fold
    | with_reducible apply kept_fold_fst
    | with_reducible apply kept_fold_as
    | with_reducible apply kept_fold_s
    | with_reducible apply kept_fold_land
    | (fail_if_no_progress with_reducible refine Kept.lit ?_ rfl rfl rfl rfl rfl rfl)
    | with_reducible refine Kept.fst ?_ (by assumption)
    | with_reducible apply keptOut_next
    | exact keptOut_notNow
    | exact keptOut_refused
    | dsimp only
    | split
    | intro _

theorem kept_consumeTiles {t0 : State} {s0 : State} {o : Op} {ts : List BTile} {cut : Nat} {u : Option Underrun}
    {s : State} (hk0 : Kept t0 s) :
    Kept t0 (consumeTiles s0 o ts cut u s) := by
  unfold consumeTiles
  try dsimp only
  repeat' first
    | assumption
    | with_reducible apply kept_consumeRel
    | with_reducible apply kept_fold
    | with_reducible apply kept_fold_fst
    | with_reducible apply kept_fold_as
    | with_reducible apply kept_fold_s
    | with_reducible apply kept_fold_land
    | (fail_if_no_progress with_reducible refine Kept.lit ?_ rfl rfl rfl rfl rfl rfl)
    | with_reducible refine Kept.fst ?_ (by assumption)
    | with_reducible apply keptOut_next
    | exact keptOut_notNow
    | exact keptOut_refused
    | dsimp only
    | split
    | intro _

theorem kept_outRow {s0 : State} {a : Acc} {wmode addr : Nat} {bytes : List Byte} (hk0 : Kept s0 a.s) :
    Kept s0 (outRow a wmode addr bytes).s := by
  unfold outRow
  try dsimp only
  repeat' first
    | assumption
    | with_reducible apply kept_rowCommit
    | with_reducible apply kept_rowAccumulate
    | with_reducible apply kept_Acc_write
    | (fail_if_no_progress with_reducible refine Kept.lit ?_ rfl rfl rfl rfl rfl rfl)
    | with_reducible refine Kept.fst ?_ (by assumption)
    | with_reducible apply keptOut_next
    | exact keptOut_notNow
    | exact keptOut_refused
    | dsimp only
    | split
    | intro _

theorem kept_pushRows {s0 : State} {b : BRef} {l : Nat} :
    ∀ {k : Nat} {rows : List (List Byte)} {a : Acc}, Kept s0 a.s → Kept s0 (pushRows b l k rows a).s
  | 0, _, _, h => h
  | k + 1, rows, a, h => by
    unfold pushRows
    dsimp only
    split
    · exact h
    · split
      · exact kept_Acc_write h fun _ h => h
      · refine kept_pushRows (kept_Acc_write (kept_fold_s _ h ?_) ?_)
        · intro _ _ h; exact kept_outRow h
        · intro _ h; exact kept_setRegion h

theorem kept_outRows {s0 : State} {b : BRef} {l : Nat} {rows : List (List Byte)} {a : Acc} (hk0 : Kept s0 a.s) :
    Kept s0 (outRows b l rows a).s := by
  unfold outRows
  try dsimp only
  repeat' first
    | assumption
    | with_reducible apply kept_outRow
    | with_reducible apply kept_pushRows
    | with_reducible apply kept_fold
    | with_reducible apply kept_fold_fst
    | with_reducible apply kept_fold_as
    | with_reducible apply kept_fold_s
    | with_reducible apply kept_fold_land
    | (fail_if_no_progress with_reducible refine Kept.lit ?_ rfl rfl rfl rfl rfl rfl)
    | with_reducible refine Kept.fst ?_ (by assumption)
    | with_reducible apply keptOut_next
    | exact keptOut_notNow
    | exact keptOut_refused
    | dsimp only
    | split
    | intro _

theorem kept_benchOut {s0 : State} {o : Op} {inner : Bool} {width : Nat} {a : Acc} (hk0 : Kept s0 a.s) :
    Kept s0 (benchOut o inner width a).s := by
  unfold benchOut
  try dsimp only
  repeat' first
    | assumption
    | with_reducible apply kept_outRows
    | with_reducible apply kept_fold
    | with_reducible apply kept_fold_fst
    | with_reducible apply kept_fold_as
    | with_reducible apply kept_fold_s
    | with_reducible apply kept_fold_land
    | (fail_if_no_progress with_reducible refine Kept.lit ?_ rfl rfl rfl rfl rfl rfl)
    | with_reducible refine Kept.fst ?_ (by assumption)
    | with_reducible apply keptOut_next
    | exact keptOut_notNow
    | exact keptOut_refused
    | dsimp only
    | split

theorem kept_spillTile {s0 : State} {s : State} {b : BRef} {f : AccFmt} {l t : Nat} {es : List Nat} (hk0 : Kept s0 s) :
    Kept s0 (spillTile s b f l t es) := by
  unfold spillTile
  try dsimp only
  repeat' first
    | assumption
    | with_reducible apply kept_rowCommit
    | with_reducible apply kept_fold
    | with_reducible apply kept_fold_fst
    | with_reducible apply kept_fold_as
    | with_reducible apply kept_fold_s
    | with_reducible apply kept_fold_land
    | (fail_if_no_progress with_reducible refine Kept.lit ?_ rfl rfl rfl rfl rfl rfl)
    | with_reducible refine Kept.fst ?_ (by assumption)
    | with_reducible apply keptOut_next
    | exact keptOut_notNow
    | exact keptOut_refused
    | dsimp only
    | split
    | intro _

theorem kept_chunkOut {s0 : State} {b : BRef} {f : AccFmt} {l t : Nat} {es : List Nat} {a : Acc} (hk0 : Kept s0 a.s) :
    Kept s0 (chunkOut b f l t es a).s := by
  unfold chunkOut
  try dsimp only
  repeat' first
    | assumption
    | with_reducible apply kept_Acc_write
    | with_reducible apply kept_commitRows
    | with_reducible apply kept_pushRows
    | (fail_if_no_progress with_reducible refine Kept.lit ?_ rfl rfl rfl rfl rfl rfl)
    | with_reducible refine Kept.fst ?_ (by assumption)
    | with_reducible apply keptOut_next
    | exact keptOut_notNow
    | exact keptOut_refused
    | dsimp only
    | split
    | intro _

theorem kept_takeTails {s0 s t : State} {o : Op} {x : Mm} {l : Nat} {c : Chuck} (hk0 : Kept s0 t) :
    Kept s0 (takeTails s o x l c t) :=
  kept_fold _ hk0 fun t isB h => by
    dsimp only
    split
    · exact h
    · exact h.same rfl rfl rfl rfl rfl rfl

theorem kept_perfAdd {s0 : State} {s : State} {l i n : Nat} (hk0 : Kept s0 s) :
    Kept s0 (perfAdd s l i n) := by
  unfold perfAdd
  try dsimp only
  repeat' first
    | assumption
    | (fail_if_no_progress with_reducible refine Kept.lit ?_ rfl rfl rfl rfl rfl rfl)
    | with_reducible refine Kept.fst ?_ (by assumption)
    | with_reducible apply keptOut_next
    | exact keptOut_notNow
    | exact keptOut_refused
    | dsimp only
    | split

theorem kept_perfFree {s0 : State} {s : State} {is lathes : List Nat} (hk0 : Kept s0 s) :
    Kept s0 (perfFree s is lathes) := by
  unfold perfFree
  try dsimp only
  repeat' first
    | assumption
    | with_reducible apply kept_perfAdd
    | with_reducible apply kept_fold
    | with_reducible apply kept_fold_fst
    | with_reducible apply kept_fold_as
    | with_reducible apply kept_fold_s
    | with_reducible apply kept_fold_land
    | (fail_if_no_progress with_reducible refine Kept.lit ?_ rfl rfl rfl rfl rfl rfl)
    | with_reducible refine Kept.fst ?_ (by assumption)
    | with_reducible apply keptOut_next
    | exact keptOut_notNow
    | exact keptOut_refused
    | dsimp only
    | split
    | intro _

theorem kept_perfChucks {t0 : State} {s0 : State} {o : Op} {x : Mm} {pass : Pass} {wanted : Nat → Tile → Nat → Bool}
    {ran : List BTile} {spindle : Nat} {gs : List Seg} {s : State} (hk0 : Kept t0 s) :
    Kept t0 (perfChucks s0 o x pass wanted ran spindle gs s) := by
  unfold perfChucks
  try dsimp only
  repeat' first
    | assumption
    | with_reducible apply kept_perfAdd

theorem kept_settleRail {s0 : State} {s : State} {o : Op} {pair : Nat} (hk0 : Kept s0 s) :
    Kept s0 (settleRail s o pair) := by
  unfold settleRail
  try dsimp only
  repeat' first
    | assumption
    | with_reducible apply kept_fold
    | with_reducible apply kept_fold_fst
    | with_reducible apply kept_fold_as
    | with_reducible apply kept_fold_s
    | with_reducible apply kept_fold_land
    | (fail_if_no_progress with_reducible refine Kept.lit ?_ rfl rfl rfl rfl rfl rfl)

theorem kept_dropRegionUpset {s0 : State} {s : State} {l k : Nat} (hk0 : Kept s0 s) :
    Kept s0 (dropRegionUpset s l k) := hk0.same rfl rfl rfl rfl rfl rfl

theorem kept_regionWrite {s0 : State} {s t : State} {l k v : Nat} (hk0 : Kept s0 s) (h : regionWrite s l k v = some t) :
    Kept s0 t := by
  unfold regionWrite at h
  dsimp only at h
  split at h
  · split at h
    · cases h; exact kept_setRegion (kept_dropRegionUpset hk0)
    · cases h
  · cases h; exact kept_setRegion (kept_dropRegionUpset hk0)

theorem kept_Land_count {s0 : State} {x : Land} {u : Nat} (hk0 : Kept s0 x.s) :
    Kept s0 (Land.count x u).s := by
  unfold Land.count
  try dsimp only
  repeat' first
    | assumption
    | with_reducible apply kept_addTally
    | (fail_if_no_progress with_reducible refine Kept.lit ?_ rfl rfl rfl rfl rfl rfl)
    | with_reducible refine Kept.fst ?_ (by assumption)
    | with_reducible apply keptOut_next
    | exact keptOut_notNow
    | exact keptOut_refused
    | dsimp only
    | split

theorem kept_Land_fail {s0 : State} {x : Land} {e : Fail} (hk0 : Kept s0 x.s) :
    Kept s0 (Land.fail x e).s := by
  unfold Land.fail
  try dsimp only
  repeat' first
    | assumption

theorem kept_Land_refuse {s0 : State} {x : Land} {e : Fail} (hk0 : Kept s0 x.s) :
    Kept s0 (Land.refuse x e).s := by
  unfold Land.refuse
  try dsimp only
  repeat' first
    | assumption

theorem kept_landRow {s0 : State} {x : Land} {wmode a : Nat} {bytes : List Byte} (hk0 : Kept s0 x.s) :
    Kept s0 (landRow x wmode a bytes).s := by
  unfold landRow
  try dsimp only
  repeat' first
    | assumption
    | with_reducible apply kept_rowCommit
    | with_reducible apply kept_rowAccumulate
    | with_reducible apply kept_Land_count
    | with_reducible apply kept_Land_refuse
    | (fail_if_no_progress with_reducible refine Kept.lit ?_ rfl rfl rfl rfl rfl rfl)
    | with_reducible refine Kept.fst ?_ (by assumption)
    | with_reducible apply keptOut_next
    | exact keptOut_notNow
    | exact keptOut_refused
    | dsimp only
    | split

theorem kept_landEntry {s0 : State} {x : Land} {l k a : Nat} {bytes : List Byte} (hk0 : Kept s0 x.s) :
    Kept s0 (landEntry x l k a bytes).s := by
  unfold landEntry
  try dsimp only
  repeat' first
    | assumption
    | with_reducible apply kept_countUncorr
    | with_reducible exact kept_regionWrite (by assumption) (by assumption)
    | with_reducible apply kept_Land_fail
    | (fail_if_no_progress with_reducible refine Kept.lit ?_ rfl rfl rfl rfl rfl rfl)
    | with_reducible refine Kept.fst ?_ (by assumption)
    | with_reducible apply keptOut_next
    | exact keptOut_notNow
    | exact keptOut_refused
    | dsimp only
    | split

theorem kept_landPiece {s0 : State} {d : Dst} {wmode len : Nat} {x : Land} {off : Nat} {bytes : List Byte}
    (hk0 : Kept s0 x.s) :
    Kept s0 (landPiece d wmode len x off bytes).s := by
  unfold landPiece
  try dsimp only
  repeat' first
    | assumption
    | with_reducible apply kept_setRegion
    | with_reducible apply kept_hbmWrite
    | with_reducible apply kept_hostWrite
    | with_reducible apply kept_Land_count
    | with_reducible apply kept_Land_fail
    | with_reducible apply kept_Land_refuse
    | with_reducible apply kept_landRow
    | with_reducible apply kept_landEntry
    | with_reducible apply kept_fold
    | with_reducible apply kept_fold_fst
    | with_reducible apply kept_fold_as
    | with_reducible apply kept_fold_s
    | with_reducible apply kept_fold_land
    | (fail_if_no_progress with_reducible refine Kept.lit ?_ rfl rfl rfl rfl rfl rfl)
    | with_reducible refine Kept.fst ?_ (by assumption)
    | with_reducible apply keptOut_next
    | exact keptOut_notNow
    | exact keptOut_refused
    | dsimp only
    | split
    | intro _

theorem kept_landAll {s0 : State} {d : Dst} {wmode len : Nat}
    {src : State → Nat → Nat → State × BitVec 8 × Except Fail (List Byte)}
    (hs : ∀ s off n, Kept s0 s → Kept s0 (src s off n).1) :
    ∀ {ps : List (Nat × Nat)} {x : Land}, Kept s0 x.s → Kept s0 (landAll d wmode len src ps x).s
  | [], x, h => kept_Land_count h
  | (off, n) :: rest, x, h => by
    have h1 := hs x.s off n h
    simp only [landAll]
    split
    · exact Kept.fst h1 (by assumption)
    · rename_i t f bytes e
      have h2 : Kept s0 (landPiece d wmode len { x with s := t, flags := x.flags ||| f } off bytes).s :=
        kept_landPiece (Kept.fst h1 e)
      split
      · exact h2
      · exact kept_landAll hs h2

theorem kept_srcDev {s0 : State} {a : Nat} {s : State} {off n : Nat} (hk0 : Kept s0 s) :
    Kept s0 (srcDev a s off n).1 := by
  unfold srcDev
  try dsimp only
  repeat' first
    | assumption
    | with_reducible apply kept_countUncorr
    | with_reducible apply kept_devRead
    | with_reducible apply kept_countHbm
    | (fail_if_no_progress with_reducible refine Kept.lit ?_ rfl rfl rfl rfl rfl rfl)
    | with_reducible refine Kept.fst ?_ (by assumption)
    | with_reducible apply keptOut_next
    | exact keptOut_notNow
    | exact keptOut_refused
    | dsimp only
    | split

theorem kept_srcHost {s0 : State} {fn : Nat} {h : HostReply} {a : Nat} {s : State} {off n : Nat} (hk0 : Kept s0 s) :
    Kept s0 (srcHost fn h a s off n).1 := by
  unfold srcHost
  try dsimp only
  repeat' first
    | assumption
    | (fail_if_no_progress with_reducible refine Kept.lit ?_ rfl rfl rfl rfl rfl rfl)
    | with_reducible refine Kept.fst ?_ (by assumption)
    | with_reducible apply keptOut_next
    | exact keptOut_notNow
    | exact keptOut_refused
    | dsimp only
    | split

theorem kept_consumeSlots {s0 : State} {s : State} {l k h0 : Nat} {ks : List Nat} (hk0 : Kept s0 s) :
    Kept s0 (consumeSlots s l k h0 ks) := by
  unfold consumeSlots
  try dsimp only
  repeat' first
    | assumption
    | with_reducible apply kept_setRegion

theorem kept_srcRegion {s0 : State} {l k h0 fill0 len : Nat} {s : State} {off n : Nat} (hk0 : Kept s0 s) :
    Kept s0 (srcRegion l k h0 fill0 len s off n).1 := by
  unfold srcRegion
  dsimp only
  split
  · exact hk0
  · generalize List.find? _ _ = x
    cases x with
    | some j => exact kept_consumeSlots hk0
    | none =>
      generalize refusedIn _ _ _ _ = y
      cases y with
      | some _ => exact hk0
      | none =>
        generalize hp : guardUnits _ _ = p
        have h1 : Kept s0 p.1 := hp ▸ kept_guardUnits hk0
        obtain ⟨t, f, e⟩ := p
        cases e with
        | some _ => exact h1
        | none => exact kept_consumeSlots h1

end Sys2Proof.Machine
end

