-- ==== Sys2Proof/Laws/KeptEngine.lean ====
section
/-!
SUPPORT. What the bodies of the engines keep.
-/

namespace Sys2Proof.Machine

theorem kept_emitSliver {t0 : State} {s0 : State} {o : Op} {x : Mm} {ts : List Held} {i : Nat} {a : Acc} {y : Sliver}
    (hk0 : Kept t0 a.s) :
    Kept t0 (emitSliver s0 o x ts i a y).s := by
  unfold emitSliver
  try dsimp only
  repeat' first
    | assumption
    | with_reducible apply kept_Acc_flag
    | with_reducible apply kept_emitRect
    | with_reducible apply kept_emitPartial
    | with_reducible apply kept_fold
    | with_reducible apply kept_fold_fst
    | with_reducible apply kept_fold_as
    | with_reducible apply kept_fold_s
    | with_reducible apply kept_fold_land
    | (fail_if_no_progress with_reducible refine Kept.lit ?_ rfl rfl rfl rfl rfl rfl)
    | with_reducible refine Kept.fst ?_ (by assumption)
    | with_reducible apply keptOut_next
    | exact keptOut_notNow
    | exact keptOut_refused
    | dsimp only
    | split

theorem kept_emitTile {t0 : State} {s0 : State} {o : Op} {x : Mm} {ts : List Held} {ys : List Sliver} {a : Acc}
    {st : BTile × Nat} (hk0 : Kept t0 a.s) :
    Kept t0 (emitTile s0 o x ts ys a st).s := by
  unfold emitTile
  try dsimp only
  repeat' first
    | assumption
    | with_reducible apply kept_benchOut
    | with_reducible apply kept_emitSliver
    | with_reducible apply kept_fold
    | with_reducible apply kept_fold_fst
    | with_reducible apply kept_fold_as
    | with_reducible apply kept_fold_s

theorem kept_storeTile {t0 : State} {s0 : State} {o : Op} {x : Mm} {ts : List Held} {h : Held} {st : State × BitVec 8}
    (hk0 : Kept t0 st.1) :
    Kept t0 (storeTile s0 o x ts h st).1 := by
  unfold storeTile
  try dsimp only
  repeat' first
    | assumption
    | with_reducible apply kept_setSpindle
    | with_reducible apply kept_fold
    | with_reducible apply kept_fold_fst
    | with_reducible apply kept_fold_as
    | with_reducible apply kept_fold_s
    | with_reducible apply kept_fold_land
    | (fail_if_no_progress with_reducible refine Kept.lit ?_ rfl rfl rfl rfl rfl rfl)
    | with_reducible refine Kept.fst ?_ (by assumption)
    | with_reducible apply keptOut_next
    | exact keptOut_notNow
    | exact keptOut_refused
    | dsimp only
    | split
    | intro _

theorem kept_makeGood {s0 : State} {s : State} {q : Nat} {ts : List Held} (hk0 : Kept s0 s) :
    Kept s0 (makeGood s q ts) := by
  unfold makeGood
  try dsimp only
  repeat' first
    | assumption
    | (fail_if_no_progress with_reducible refine Kept.lit ?_ rfl rfl rfl rfl rfl rfl)

theorem kept_forgetLost {s0 : State} {s : State} {o : Op} (hk0 : Kept s0 s) :
    Kept s0 (forgetLost s o) := by
  unfold forgetLost
  try dsimp only
  repeat' first
    | assumption
    | (fail_if_no_progress with_reducible refine Kept.lit ?_ rfl rfl rfl rfl rfl rfl)
    | with_reducible refine Kept.fst ?_ (by assumption)
    | with_reducible apply keptOut_next
    | exact keptOut_notNow
    | exact keptOut_refused
    | dsimp only
    | split

theorem kept_settleSets {s0 : State} {s : State} {o : Op} {p : Plan} {rough : Option Nat} {ps : List Placed}
    {kept : List Held} (hk0 : Kept s0 s) :
    Kept s0 (settleSets s o p rough ps kept) := by
  unfold settleSets
  try dsimp only
  repeat' first
    | assumption
    | with_reducible apply kept_setSpindle
    | with_reducible apply kept_makeGood
    | with_reducible apply kept_forgetLost
    | with_reducible apply kept_fold
    | with_reducible apply kept_fold_fst
    | with_reducible apply kept_fold_as
    | with_reducible apply kept_fold_s
    | with_reducible apply kept_fold_land
    | (fail_if_no_progress with_reducible refine Kept.lit ?_ rfl rfl rfl rfl rfl rfl)
    | with_reducible refine Kept.fst ?_ (by assumption)
    | with_reducible apply keptOut_next
    | exact keptOut_notNow
    | exact keptOut_refused
    | dsimp only
    | split
    | intro _

theorem kept_freeHeld {s0 : State} {s : State} {ts : List Held} (hk0 : Kept s0 s) :
    Kept s0 (freeHeld s ts) := by
  unfold freeHeld
  try dsimp only
  repeat' first
    | assumption
    | with_reducible apply kept_setSpindle
    | with_reducible apply kept_fold
    | with_reducible apply kept_fold_fst
    | with_reducible apply kept_fold_as
    | with_reducible apply kept_fold_s
    | with_reducible apply kept_fold_land
    | (fail_if_no_progress with_reducible refine Kept.lit ?_ rfl rfl rfl rfl rfl rfl)
    | with_reducible refine Kept.fst ?_ (by assumption)
    | with_reducible apply keptOut_next
    | exact keptOut_notNow
    | exact keptOut_refused
    | dsimp only
    | split
    | intro _

theorem kept_storeTiles {t0 : State} {s0 : State} {o : Op} {x : Mm} {ts kept : List Held} {s : State}
    (hk0 : Kept t0 s) :
    Kept t0 (storeTiles s0 o x ts kept s).1 := by
  unfold storeTiles
  try dsimp only
  repeat' first
    | assumption
    | with_reducible apply kept_storeTile
    | with_reducible apply kept_fold
    | with_reducible apply kept_fold_fst
    | with_reducible apply kept_fold_as
    | with_reducible apply kept_fold_s
    | with_reducible apply kept_fold_land
    | (fail_if_no_progress with_reducible refine Kept.lit ?_ rfl rfl rfl rfl rfl rfl)
    | with_reducible refine Kept.fst ?_ (by assumption)
    | with_reducible apply keptOut_next
    | exact keptOut_notNow
    | exact keptOut_refused
    | dsimp only
    | split
    | intro _

theorem kept_productSets {s0 : State} {o : Op} {x : Mm} {ps : List Placed} {mine kept : List Held} {s : State}
    (hk0 : Kept s0 s) :
    Kept s0 (productSets o x ps mine kept s) := by
  unfold productSets
  try dsimp only
  repeat' first
    | assumption
    | with_reducible apply kept_settleSets
    | with_reducible apply kept_freeHeld
    | (fail_if_no_progress with_reducible refine Kept.lit ?_ rfl rfl rfl rfl rfl rfl)
    | with_reducible refine Kept.fst ?_ (by assumption)
    | with_reducible apply keptOut_next
    | exact keptOut_notNow
    | exact keptOut_refused
    | dsimp only
    | split

theorem kept_spillTiles {t0 : State} {s0 : State} {o : Op} {x : Mm} {ts : List Held} {ran : List BTile}
    {ps : List Placed} {s : State} (hk0 : Kept t0 s) :
    Kept t0 (spillTiles s0 o x ts ran ps s) := by
  unfold spillTiles
  try dsimp only
  repeat' first
    | assumption
    | with_reducible apply kept_spillTile
    | with_reducible apply kept_fold
    | with_reducible apply kept_fold_fst
    | with_reducible apply kept_fold_as
    | with_reducible apply kept_fold_s
    | with_reducible apply kept_fold_land
    | (fail_if_no_progress with_reducible refine Kept.lit ?_ rfl rfl rfl rfl rfl rfl)
    | with_reducible refine Kept.fst ?_ (by assumption)
    | with_reducible apply keptOut_next
    | exact keptOut_notNow
    | exact keptOut_refused
    | dsimp only
    | split
    | intro _

theorem kept_chunkTiles {s0 : State} {o : Op} {x : Mm} {ys : List Sliver} {a : Acc} {st : BTile × Nat}
    (hk0 : Kept s0 a.s) :
    Kept s0 (chunkTiles o x ys a st).s := by
  unfold chunkTiles
  try dsimp only
  repeat' first
    | assumption
    | with_reducible apply kept_chunkOut
    | with_reducible apply kept_fold
    | with_reducible apply kept_fold_fst
    | with_reducible apply kept_fold_as
    | with_reducible apply kept_fold_s
    | with_reducible apply kept_fold_land
    | (fail_if_no_progress with_reducible refine Kept.lit ?_ rfl rfl rfl rfl rfl rfl)
    | with_reducible refine Kept.fst ?_ (by assumption)
    | with_reducible apply keptOut_next
    | exact keptOut_notNow
    | exact keptOut_refused
    | dsimp only
    | split
    | intro _

theorem kept_productEmit {s0 : State} {s : State} {o : Op} {x : Mm} {ts : List Held} {ran : List BTile}
    {steps : List (BTile × Nat)} {ys : List Sliver} (hk0 : Kept s0 s) :
    Kept s0 (productEmit s o x ts ran steps ys).s := by
  unfold productEmit
  try dsimp only
  repeat' first
    | assumption
    | with_reducible apply kept_emitRecords
    | with_reducible apply kept_emitTile
    | with_reducible apply kept_fold
    | with_reducible apply kept_fold_fst
    | with_reducible apply kept_fold_as
    | with_reducible apply kept_fold_s
    | with_reducible apply kept_fold_land
    | (fail_if_no_progress with_reducible refine Kept.lit ?_ rfl rfl rfl rfl rfl rfl)
    | with_reducible refine Kept.fst ?_ (by assumption)
    | with_reducible apply keptOut_next
    | exact keptOut_notNow
    | exact keptOut_refused
    | dsimp only
    | split

theorem kept_layerTraces {t0 : State} {s0 : State} {o : Op} {ts : List BTile} {cut : Option Cut} {s : State}
    (hk0 : Kept t0 s) :
    Kept t0 (layerTraces s0 o ts cut s) := by
  unfold layerTraces
  try dsimp only
  repeat' first
    | assumption
    | with_reducible apply kept_stageOperands
    | with_reducible apply kept_consumeTiles

theorem kept_productTraces {t0 : State} {s0 : State} {o : Op} {x : Mm} {ts : List Held} {ps : List Placed}
    {bs : List BTile} {cut : Option Cut} {ys : List Sliver} {steps : List (BTile × Nat)} {a : Acc} (hk0 : Kept t0 a.s)
    :
    Kept t0 (productTraces s0 o x ts ps bs cut ys steps a).s := by
  unfold productTraces
  try dsimp only
  repeat' first
    | assumption
    | with_reducible apply kept_spillTiles
    | with_reducible apply kept_chunkTiles
    | with_reducible apply kept_layerTraces
    | with_reducible apply kept_fold
    | with_reducible apply kept_fold_fst
    | with_reducible apply kept_fold_as
    | with_reducible apply kept_fold_s
    | with_reducible apply kept_fold_land
    | (fail_if_no_progress with_reducible refine Kept.lit ?_ rfl rfl rfl rfl rfl rfl)
    | with_reducible refine Kept.fst ?_ (by assumption)
    | with_reducible apply keptOut_next
    | exact keptOut_notNow
    | exact keptOut_refused
    | dsimp only
    | split

theorem kept_matrixEnd {t0 : State} {s0 : State} {o : Op} {x : Mm} {wanted : Nat → Tile → Nat → Bool}
    {work : List (Nat × List Seg)} {ran : List BTile} {early : Bool} {s : State} (hk0 : Kept t0 s) :
    Kept t0 (matrixEnd s0 o x wanted work ran early s) := by
  unfold matrixEnd
  try dsimp only
  repeat' first
    | assumption
    | with_reducible apply kept_dropJobs
    | with_reducible apply kept_kerfTally
    | with_reducible apply kept_takeTails
    | with_reducible apply kept_perfFree
    | with_reducible apply kept_perfChucks
    | with_reducible apply kept_settleRail
    | with_reducible apply kept_fold
    | with_reducible apply kept_fold_fst
    | with_reducible apply kept_fold_as
    | with_reducible apply kept_fold_s
    | with_reducible apply kept_fold_land
    | (fail_if_no_progress with_reducible refine Kept.lit ?_ rfl rfl rfl rfl rfl rfl)
    | with_reducible refine Kept.fst ?_ (by assumption)
    | with_reducible apply keptOut_next
    | exact keptOut_notNow
    | exact keptOut_refused
    | dsimp only
    | split
    | intro _

theorem kept_productEnd {t0 : State} {s0 : State} {o : Op} {r : Run} {cut : Option Cut} {a : Acc} (hk0 : Kept t0 a.s) :
    Kept t0 (productEnd s0 o r cut a).s := by
  unfold productEnd
  try dsimp only
  repeat' first
    | assumption
    | with_reducible apply kept_Acc_res
    | with_reducible apply kept_storeTiles
    | with_reducible apply kept_productSets
    | with_reducible apply kept_productTraces
    | with_reducible apply kept_matrixEnd
    | (fail_if_no_progress with_reducible refine Kept.lit ?_ rfl rfl rfl rfl rfl rfl)
    | with_reducible refine Kept.fst ?_ (by assumption)
    | with_reducible apply keptOut_next
    | exact keptOut_notNow
    | exact keptOut_refused
    | dsimp only
    | split

theorem kept_productRun {s0 : State} {s : State} {o : Op} (hk0 : Kept s0 s) :
    Kept s0 (productRun s o).s := by
  unfold productRun
  try dsimp only
  repeat' first
    | assumption
    | with_reducible apply kept_emitTile
    | with_reducible apply kept_productEmit
    | with_reducible apply kept_productEnd
    | (fail_if_no_progress with_reducible refine Kept.lit ?_ rfl rfl rfl rfl rfl rfl)
    | with_reducible refine Kept.fst ?_ (by assumption)
    | with_reducible apply keptOut_next
    | exact keptOut_notNow
    | exact keptOut_refused
    | dsimp only
    | split

theorem kept_productBody {s0 : State} {s : State} {o : Op} {u1 : HostReply} (hk0 : Kept s0 s) :
    Kept s0 (productBody s o u1).s := by
  unfold productBody
  try dsimp only
  repeat' first
    | assumption
    | with_reducible apply kept_readThen
    | with_reducible apply kept_productRun
    | (fail_if_no_progress with_reducible refine Kept.lit ?_ rfl rfl rfl rfl rfl rfl)
    | with_reducible refine Kept.fst ?_ (by assumption)
    | with_reducible apply keptOut_next
    | exact keptOut_notNow
    | exact keptOut_refused
    | dsimp only
    | split
    | intro _

theorem kept_writeMask {s0 : State} {o : Op} {ds : List (Held × List Rough)} {a : Acc} (hk0 : Kept s0 a.s) :
    Kept s0 (writeMask o ds a).s := by
  unfold writeMask
  try dsimp only
  repeat' first
    | assumption
    | with_reducible apply kept_writeAll
    | with_reducible apply kept_Acc_write
    | with_reducible apply kept_fold
    | with_reducible apply kept_fold_fst
    | with_reducible apply kept_fold_as
    | with_reducible apply kept_fold_s
    | with_reducible apply kept_fold_land
    | (fail_if_no_progress with_reducible refine Kept.lit ?_ rfl rfl rfl rfl rfl rfl)
    | with_reducible refine Kept.fst ?_ (by assumption)
    | with_reducible apply keptOut_next
    | exact keptOut_notNow
    | exact keptOut_refused
    | dsimp only
    | split
    | intro _

theorem kept_storeRough {s0 : State} {x : Mm} {h : Held} {s : State} {z : Rough} (hk0 : Kept s0 s) :
    Kept s0 (storeRough x h s z) := by
  unfold storeRough
  try dsimp only
  repeat' first
    | assumption
    | with_reducible apply kept_setSpindle

theorem kept_countRough {s0 : State} {s : State} {q : Nat} {all : List Rough} (hk0 : Kept s0 s) :
    Kept s0 (countRough s q all) := by
  unfold countRough
  try dsimp only
  repeat' first
    | assumption
    | with_reducible apply kept_modQ

theorem kept_roughEnd {t0 : State} {s0 : State} {o : Op} {x : Mm} {ps : List Placed} {kept : List Held}
    {bs : List BTile} {cut : Option Cut} {ds : List (Held × List Rough)} {a : Acc} (hk0 : Kept t0 a.s) :
    Kept t0 (roughEnd s0 o x ps kept bs cut ds a).s := by
  unfold roughEnd
  try dsimp only
  repeat' first
    | assumption
    | with_reducible apply kept_Acc_res
    | with_reducible apply kept_settleSets
    | with_reducible apply kept_layerTraces
    | with_reducible apply kept_matrixEnd
    | with_reducible apply kept_storeRough
    | with_reducible apply kept_countRough
    | with_reducible apply kept_fold
    | with_reducible apply kept_fold_fst
    | with_reducible apply kept_fold_as
    | with_reducible apply kept_fold_s
    | with_reducible apply kept_fold_land
    | (fail_if_no_progress with_reducible refine Kept.lit ?_ rfl rfl rfl rfl rfl rfl)
    | with_reducible refine Kept.fst ?_ (by assumption)
    | with_reducible apply keptOut_next
    | exact keptOut_notNow
    | exact keptOut_refused
    | dsimp only
    | split
    | intro _

theorem kept_roughRun {s0 : State} {s : State} {o : Op} (hk0 : Kept s0 s) :
    Kept s0 (roughRun s o).s := by
  unfold roughRun
  extract_lets x ps kept bs cut ended ds a
  exact kept_roughEnd (kept_writeMask hk0)

theorem kept_roughBody {s0 : State} {s : State} {o : Op} {u1 : HostReply} (hk0 : Kept s0 s) :
    Kept s0 (roughBody s o u1).s := by
  unfold roughBody
  try dsimp only
  repeat' first
    | assumption
    | with_reducible apply kept_readThen
    | with_reducible apply kept_roughRun
    | (fail_if_no_progress with_reducible refine Kept.lit ?_ rfl rfl rfl rfl rfl rfl)
    | with_reducible refine Kept.fst ?_ (by assumption)
    | with_reducible apply keptOut_next
    | exact keptOut_notNow
    | exact keptOut_refused
    | dsimp only
    | split
    | intro _

theorem kept_emitFinish {t0 : State} {s0 : State} {o : Op} {x : Mm} {h : Held}
    {es : List (List (Nat × BitVec 8 × Nat × Bool))} {a : Acc} (hk0 : Kept t0 a.s) :
    Kept t0 (emitFinish s0 o x h es a).s := by
  unfold emitFinish
  try dsimp only
  repeat' first
    | assumption
    | with_reducible apply kept_emitConv
    | with_reducible apply kept_emitPartial
    | (fail_if_no_progress with_reducible refine Kept.lit ?_ rfl rfl rfl rfl rfl rfl)
    | with_reducible refine Kept.fst ?_ (by assumption)
    | with_reducible apply keptOut_next
    | exact keptOut_notNow
    | exact keptOut_refused
    | dsimp only
    | split

theorem kept_finishTile {t0 : State} {s0 : State} {o : Op} {x : Mm} {a : Acc × Nat} {h : Held} (hk0 : Kept t0 a.1.s) :
    Kept t0 (finishTile s0 o x a h).1.s := by
  unfold finishTile
  try dsimp only
  repeat' first
    | assumption
    | with_reducible apply kept_emitFinish

theorem kept_finishGroup {t0 : State} {s0 : State} {o : Op} {x : Mm} {ts : List Held} {a : Acc × Nat} {t : BTile}
    (hk0 : Kept t0 a.1.s) :
    Kept t0 (finishGroup s0 o x ts a t).1.s := by
  unfold finishGroup
  try dsimp only
  repeat' first
    | assumption
    | with_reducible apply kept_benchOut
    | with_reducible apply kept_finishTile
    | with_reducible apply kept_fold
    | with_reducible apply kept_fold_fst
    | with_reducible apply kept_fold_as

theorem kept_finishEnd {t0 : State} {s0 : State} {o : Op} {x : Mm} {ts : List Held} {bs : List BTile}
    {cut : Option Cut} {miss : Nat} {a : Acc} (hk0 : Kept t0 a.s) :
    Kept t0 (finishEnd s0 o x ts bs cut miss a).s := by
  unfold finishEnd
  try dsimp only
  repeat' first
    | assumption
    | with_reducible apply kept_modQ
    | with_reducible apply kept_Acc_res
    | with_reducible apply kept_freeHeld
    | with_reducible apply kept_layerTraces
    | with_reducible apply kept_matrixEnd
    | (fail_if_no_progress with_reducible refine Kept.lit ?_ rfl rfl rfl rfl rfl rfl)
    | with_reducible refine Kept.fst ?_ (by assumption)
    | with_reducible apply keptOut_next
    | exact keptOut_notNow
    | exact keptOut_refused
    | dsimp only
    | split

theorem kept_finishRun {s0 : State} {s : State} {o : Op} (hk0 : Kept s0 s) :
    Kept s0 (finishRun s o).s := by
  unfold finishRun
  try dsimp only
  repeat' first
    | assumption
    | with_reducible apply kept_emitRecords
    | with_reducible apply kept_finishGroup
    | with_reducible apply kept_finishEnd
    | with_reducible apply kept_fold
    | with_reducible apply kept_fold_fst
    | with_reducible apply kept_fold_as
    | with_reducible apply kept_fold_s
    | with_reducible apply kept_fold_land
    | (fail_if_no_progress with_reducible refine Kept.lit ?_ rfl rfl rfl rfl rfl rfl)
    | with_reducible refine Kept.fst ?_ (by assumption)
    | with_reducible apply keptOut_next
    | exact keptOut_notNow
    | exact keptOut_refused
    | dsimp only
    | split
    | intro _

theorem kept_finishBody {s0 : State} {s : State} {o : Op} {u1 : HostReply} (hk0 : Kept s0 s) :
    Kept s0 (finishBody s o u1).s := by
  unfold finishBody
  try dsimp only
  repeat' first
    | assumption
    | with_reducible apply kept_readThen
    | with_reducible apply kept_finishRun
    | (fail_if_no_progress with_reducible refine Kept.lit ?_ rfl rfl rfl rfl rfl rfl)
    | with_reducible refine Kept.fst ?_ (by assumption)
    | with_reducible apply keptOut_next
    | exact keptOut_notNow
    | exact keptOut_refused
    | dsimp only
    | split
    | intro _

theorem kept_readLathe {t0 : State} {s0 : State} {o : Op} {ts : List Held} {a : Acc} {l : Nat} (hk0 : Kept t0 a.s) :
    Kept t0 (readLathe s0 o ts a l).s := by
  unfold readLathe
  try dsimp only
  repeat' first
    | assumption
    | with_reducible apply kept_outRow
    | with_reducible apply kept_pushRows
    | with_reducible apply kept_fold
    | with_reducible apply kept_fold_fst
    | with_reducible apply kept_fold_as
    | with_reducible apply kept_fold_s
    | with_reducible apply kept_fold_land
    | (fail_if_no_progress with_reducible refine Kept.lit ?_ rfl rfl rfl rfl rfl rfl)
    | with_reducible refine Kept.fst ?_ (by assumption)
    | with_reducible apply keptOut_next
    | exact keptOut_notNow
    | exact keptOut_refused
    | dsimp only
    | split
    | intro _

theorem kept_accReadBody {s0 : State} {s : State} {o : Op} {u1 : HostReply} (hk0 : Kept s0 s) :
    Kept s0 (accReadBody s o u1).s := by
  unfold accReadBody
  try dsimp only
  repeat' first
    | assumption
    | with_reducible apply kept_perfFree
    | with_reducible apply kept_readLathe
    | with_reducible apply kept_fold
    | with_reducible apply kept_fold_fst
    | with_reducible apply kept_fold_as
    | with_reducible apply kept_fold_s

theorem kept_accWriteEntry {t0 : State} {s0 : State} {o : Op} {i j : Nat} {st : State × BitVec 8} {e : Nat}
    (hk0 : Kept t0 st.1) :
    Kept t0 (accWriteEntry s0 o i j st e).1 := by
  unfold accWriteEntry
  try dsimp only
  repeat' first
    | assumption
    | with_reducible apply kept_setSpindle

theorem kept_accWriteSlot {t0 s0 : State} {o : Op} {i j : Nat} {st : State × BitVec 8} (hk0 : Kept t0 st.1) :
    Kept t0 (accWriteSlot s0 o i j st).1 :=
  kept_fold_fst _ hk0 fun _ _ h => kept_accWriteEntry h

theorem kept_accConsume {s0 : State} {o : Op} {is slots : List Nat} :
    ∀ {ls : List Nat} {s : State}, Kept s0 s → Kept s0 (accConsume s o is slots ls).1
  | [], _, h => h
  | l :: r, s, h => by
    unfold accConsume
    dsimp only
    split
    · exact kept_consumeRel h
    · exact kept_accConsume (kept_consumeRel h)

theorem kept_accWriteBody {s0 : State} {s : State} {o : Op} {u1 : HostReply} (hk0 : Kept s0 s) :
    Kept s0 (accWriteBody s o u1).s := by
  unfold accWriteBody
  try dsimp only
  repeat' first
    | assumption
    | with_reducible apply kept_setSpindle
    | with_reducible apply kept_guardUnits
    | with_reducible apply kept_perfFree
    | with_reducible apply kept_makeGood
    | with_reducible apply kept_accWriteSlot
    | with_reducible apply kept_accConsume
    | with_reducible apply kept_fold
    | with_reducible apply kept_fold_fst
    | with_reducible apply kept_fold_as
    | with_reducible apply kept_fold_s
    | with_reducible apply kept_fold_land
    | (fail_if_no_progress with_reducible refine Kept.lit ?_ rfl rfl rfl rfl rfl rfl)
    | with_reducible refine Kept.fst ?_ (by assumption)
    | with_reducible apply keptOut_next
    | exact keptOut_notNow
    | exact keptOut_refused
    | dsimp only
    | split
    | intro _

theorem kept_drainTile {t0 : State} {s0 : State} {o : Op} {p : Plan} {a : Acc} {h : Held} (hk0 : Kept t0 a.s) :
    Kept t0 (drainTile s0 o p a h).s := by
  unfold drainTile
  try dsimp only
  repeat' first
    | assumption
    | with_reducible apply kept_emitRect
    | with_reducible apply kept_emitPartial
    | with_reducible apply kept_benchOut
    | (fail_if_no_progress with_reducible refine Kept.lit ?_ rfl rfl rfl rfl rfl rfl)
    | with_reducible refine Kept.fst ?_ (by assumption)
    | with_reducible apply keptOut_next
    | exact keptOut_notNow
    | exact keptOut_refused
    | dsimp only
    | split

theorem kept_drainEnd {s0 : State} {o : Op} {ts : List Held} {a : Acc} (hk0 : Kept s0 a.s) :
    Kept s0 (drainEnd o ts a).s := by
  unfold drainEnd
  try dsimp only
  repeat' first
    | assumption
    | with_reducible apply kept_Acc_res
    | with_reducible apply kept_perfFree
    | with_reducible apply kept_freeHeld
    | (fail_if_no_progress with_reducible refine Kept.lit ?_ rfl rfl rfl rfl rfl rfl)
    | with_reducible refine Kept.fst ?_ (by assumption)
    | with_reducible apply keptOut_next
    | exact keptOut_notNow
    | exact keptOut_refused
    | dsimp only
    | split

theorem kept_drainRun {s0 : State} {s : State} {o : Op} (hk0 : Kept s0 s) :
    Kept s0 (drainRun s o).s := by
  unfold drainRun
  try dsimp only
  repeat' first
    | assumption
    | with_reducible apply kept_emitRecords
    | with_reducible apply kept_drainTile
    | with_reducible apply kept_drainEnd
    | with_reducible apply kept_fold
    | with_reducible apply kept_fold_fst
    | with_reducible apply kept_fold_as
    | with_reducible apply kept_fold_s
    | with_reducible apply kept_fold_land
    | (fail_if_no_progress with_reducible refine Kept.lit ?_ rfl rfl rfl rfl rfl rfl)
    | with_reducible refine Kept.fst ?_ (by assumption)
    | with_reducible apply keptOut_next
    | exact keptOut_notNow
    | exact keptOut_refused
    | dsimp only
    | split

theorem kept_drainBody {s0 : State} {s : State} {o : Op} {u1 : HostReply} (hk0 : Kept s0 s) :
    Kept s0 (drainBody s o u1).s := by
  unfold drainBody
  try dsimp only
  repeat' first
    | assumption
    | with_reducible apply kept_readThen
    | with_reducible apply kept_drainRun
    | (fail_if_no_progress with_reducible refine Kept.lit ?_ rfl rfl rfl rfl rfl rfl)
    | with_reducible refine Kept.fst ?_ (by assumption)
    | with_reducible apply keptOut_next
    | exact keptOut_notNow
    | exact keptOut_refused
    | dsimp only
    | split
    | intro _

theorem kept_readSlots {t0 : State} {s0 : State} {o : Op} {d : Side} {two : Bool} {l k : Nat} {s : State}
    (hk0 : Kept t0 s) :
    Kept t0 (readSlots s0 o d two l k s).1 := by
  unfold readSlots
  try dsimp only
  repeat' first
    | assumption
    | with_reducible apply kept_setRegion
    | with_reducible apply kept_fold
    | with_reducible apply kept_fold_fst
    | with_reducible apply kept_fold_as
    | with_reducible apply kept_fold_s
    | with_reducible apply kept_fold_land
    | (fail_if_no_progress with_reducible refine Kept.lit ?_ rfl rfl rfl rfl rfl rfl)
    | with_reducible refine Kept.fst ?_ (by assumption)
    | with_reducible apply keptOut_next
    | exact keptOut_notNow
    | exact keptOut_refused
    | dsimp only
    | split

theorem kept_stageLine {t0 : State} {s0 : State} {o : Op} {two : Bool} {k : Nat} {d : Side} {s : State}
    (hk0 : Kept t0 s) :
    Kept t0 (stageLine s0 o two k d s).1 := by
  unfold stageLine
  try dsimp only
  repeat' first
    | assumption
    | with_reducible apply kept_commitRows
    | with_reducible apply kept_readSlots
    | (fail_if_no_progress with_reducible refine Kept.lit ?_ rfl rfl rfl rfl rfl rfl)
    | with_reducible refine Kept.fst ?_ (by assumption)
    | with_reducible apply keptOut_next
    | exact keptOut_notNow
    | exact keptOut_refused
    | dsimp only
    | split

theorem kept_veLines {t0 : State} {s0 : State} {o : Op} {sides : List Side} {stream : Bool} {outs : Nat}
    {out : Nat → Acc → Acc} (hk0 : Kept t0 s0) (h_out : ∀ s1 a1, Kept t0 a1.s → Kept t0 (out s1 a1).s) :
    Kept t0 (veLines s0 o sides stream outs out).s := by
  unfold veLines
  try dsimp only
  repeat' first
    | assumption
    | with_reducible apply kept_Acc_write
    | with_reducible apply kept_stageLine
    | with_reducible apply h_out
    | with_reducible apply kept_fold
    | with_reducible apply kept_fold_fst
    | with_reducible apply kept_fold_as
    | with_reducible apply kept_fold_s
    | with_reducible apply kept_fold_land
    | (fail_if_no_progress with_reducible refine Kept.lit ?_ rfl rfl rfl rfl rfl rfl)
    | with_reducible refine Kept.fst ?_ (by assumption)
    | with_reducible apply keptOut_next
    | exact keptOut_notNow
    | exact keptOut_refused
    | dsimp only
    | split
    | intro _

theorem kept_emitLine {t0 : State} {s0 : State} {o : Op} {bench : Option BRef} {r : TRef} {width b l : Nat}
    {cs : List Conv} {a : Acc} (hk0 : Kept t0 a.s) :
    Kept t0 (emitLine s0 o bench r width b l cs a).s := by
  unfold emitLine
  try dsimp only
  repeat' first
    | assumption
    | with_reducible apply kept_writeAll
    | with_reducible apply kept_Acc_write
    | with_reducible apply kept_outRows
    | (fail_if_no_progress with_reducible refine Kept.lit ?_ rfl rfl rfl rfl rfl rfl)
    | with_reducible refine Kept.fst ?_ (by assumption)
    | with_reducible apply keptOut_next
    | exact keptOut_notNow
    | exact keptOut_refused
    | dsimp only
    | split
    | intro _

theorem kept_emitAt {t0 : State} {s0 : State} {o : Op} {bench : Option BRef} {r : TRef} {width : Nat}
    {f : Nat → Nat → Nat → Conv} {k : Nat} {a : Acc} (hk0 : Kept t0 a.s) :
    Kept t0 (emitAt s0 o bench r width f k a).s := by
  unfold emitAt
  try dsimp only
  repeat' first
    | assumption
    | with_reducible apply kept_emitLine

theorem kept_veRows {s0 : State} {s : State} {o : Op} {sides : List Side} {width : Nat} {row : Nat → Nat → List Conv}
    (hk0 : Kept s0 s) :
    Kept s0 (veRows s o sides width row).s := by
  unfold veRows
  try dsimp only
  repeat' first
    | assumption
    | with_reducible apply kept_veLines
    | with_reducible apply kept_emitLine
    | with_reducible apply kept_emitAt
    | (fail_if_no_progress with_reducible refine Kept.lit ?_ rfl rfl rfl rfl rfl rfl)
    | with_reducible refine Kept.fst ?_ (by assumption)
    | with_reducible apply keptOut_next
    | exact keptOut_notNow
    | exact keptOut_refused
    | dsimp only
    | split
    | intro _

theorem kept_veBody {s0 : State} {ranges : State → Op → List (Nat × Nat)} {run : State → Op → Acc} {s : State}
    {o : Op} {u1 : HostReply} (hk0 : Kept s0 s) (h_run : ∀ s1 a1, Kept s0 s1 → Kept s0 (run s1 a1).s) :
    Kept s0 (veBody ranges run s o u1).s := by
  unfold veBody
  try dsimp only
  repeat' first
    | assumption
    | with_reducible apply kept_readThen
    | with_reducible apply kept_Acc_res
    | with_reducible apply h_run
    | (fail_if_no_progress with_reducible refine Kept.lit ?_ rfl rfl rfl rfl rfl rfl)
    | with_reducible refine Kept.fst ?_ (by assumption)
    | with_reducible apply keptOut_next
    | exact keptOut_notNow
    | exact keptOut_refused
    | dsimp only
    | split
    | intro _

theorem kept_elementwiseRun {s0 : State} {s : State} {o : Op} (hk0 : Kept s0 s) :
    Kept s0 (elementwiseRun s o).s := by
  unfold elementwiseRun
  try dsimp only
  repeat' first
    | assumption
    | with_reducible apply kept_veRows

theorem kept_elementwiseBody {s0 : State} {u1 : State} {u2 : Op} {u3 : HostReply} (hk0 : Kept s0 u1) :
    Kept s0 (elementwiseBody u1 u2 u3).s := by
  unfold elementwiseBody
  try dsimp only
  repeat' first
    | assumption
    | with_reducible apply kept_veBody
    | with_reducible apply kept_elementwiseRun

theorem kept_reduceRun {s0 : State} {s : State} {o : Op} (hk0 : Kept s0 s) :
    Kept s0 (reduceRun s o).s := by
  unfold reduceRun
  try dsimp only
  repeat' first
    | assumption
    | with_reducible apply kept_veRows

theorem kept_reduceBody {s0 : State} {u1 : State} {u2 : Op} {u3 : HostReply} (hk0 : Kept s0 u1) :
    Kept s0 (reduceBody u1 u2 u3).s := by
  unfold reduceBody
  try dsimp only
  repeat' first
    | assumption
    | with_reducible apply kept_veBody
    | with_reducible apply kept_reduceRun

theorem kept_softmaxRun {s0 : State} {s : State} {o : Op} (hk0 : Kept s0 s) :
    Kept s0 (softmaxRun s o).s := by
  unfold softmaxRun
  try dsimp only
  repeat' first
    | assumption
    | with_reducible apply kept_veRows
    | (fail_if_no_progress with_reducible refine Kept.lit ?_ rfl rfl rfl rfl rfl rfl)
    | with_reducible refine Kept.fst ?_ (by assumption)
    | with_reducible apply keptOut_next
    | exact keptOut_notNow
    | exact keptOut_refused
    | dsimp only
    | split

theorem kept_softmaxBody {s0 : State} {u1 : State} {u2 : Op} {u3 : HostReply} (hk0 : Kept s0 u1) :
    Kept s0 (softmaxBody u1 u2 u3).s := by
  unfold softmaxBody
  try dsimp only
  repeat' first
    | assumption
    | with_reducible apply kept_veBody
    | with_reducible apply kept_softmaxRun

theorem kept_softmaxBwdRun {s0 : State} {s : State} {o : Op} (hk0 : Kept s0 s) :
    Kept s0 (softmaxBwdRun s o).s := kept_veRows hk0

theorem kept_softmaxBwdBody {s0 : State} {u1 : State} {u2 : Op} {u3 : HostReply} (hk0 : Kept s0 u1) :
    Kept s0 (softmaxBwdBody u1 u2 u3).s := by
  unfold softmaxBwdBody
  try dsimp only
  repeat' first
    | assumption
    | with_reducible apply kept_veBody
    | with_reducible apply kept_softmaxBwdRun

theorem kept_normRun {s0 : State} {s : State} {o : Op} (hk0 : Kept s0 s) :
    Kept s0 (normRun s o).s := by
  unfold normRun
  try dsimp only
  repeat' first
    | assumption
    | with_reducible apply kept_emitAt
    | with_reducible apply kept_veRows
    | with_reducible apply kept_fold
    | with_reducible apply kept_fold_fst
    | with_reducible apply kept_fold_as
    | with_reducible apply kept_fold_s
    | with_reducible apply kept_fold_land
    | (fail_if_no_progress with_reducible refine Kept.lit ?_ rfl rfl rfl rfl rfl rfl)
    | with_reducible refine Kept.fst ?_ (by assumption)
    | with_reducible apply keptOut_next
    | exact keptOut_notNow
    | exact keptOut_refused
    | dsimp only
    | split
    | intro _

theorem kept_normBody {s0 : State} {u1 : State} {u2 : Op} {u3 : HostReply} (hk0 : Kept s0 u1) :
    Kept s0 (normBody u1 u2 u3).s := by
  unfold normBody
  try dsimp only
  repeat' first
    | assumption
    | with_reducible apply kept_veBody
    | with_reducible apply kept_normRun

theorem kept_gradPartials {s0 : State} {s : State} {o : Op} {r : TRef} {term : Nat → Nat → Nat → Sval} {a : Acc}
    (hk0 : Kept s0 a.s) :
    Kept s0 (gradPartials s o r term a).s := by
  unfold gradPartials
  try dsimp only
  repeat' first
    | assumption
    | with_reducible apply kept_emitAt
    | with_reducible apply kept_fold
    | with_reducible apply kept_fold_fst
    | with_reducible apply kept_fold_as
    | with_reducible apply kept_fold_s
    | with_reducible apply kept_fold_land
    | (fail_if_no_progress with_reducible refine Kept.lit ?_ rfl rfl rfl rfl rfl rfl)
    | with_reducible refine Kept.fst ?_ (by assumption)
    | with_reducible apply keptOut_next
    | exact keptOut_notNow
    | exact keptOut_refused
    | dsimp only
    | split
    | intro _

theorem kept_normBwdRun {s0 : State} {s : State} {o : Op} (hk0 : Kept s0 s) :
    Kept s0 (normBwdRun s o).s := by
  unfold normBwdRun
  try dsimp only
  repeat' first
    | assumption
    | with_reducible apply kept_veRows
    | with_reducible apply kept_gradPartials

theorem kept_normBwdBody {s0 : State} {u1 : State} {u2 : Op} {u3 : HostReply} (hk0 : Kept s0 u1) :
    Kept s0 (normBwdBody u1 u2 u3).s := by
  unfold normBwdBody
  try dsimp only
  repeat' first
    | assumption
    | with_reducible apply kept_veBody
    | with_reducible apply kept_normBwdRun

theorem kept_sumRun {s0 : State} {s : State} {o : Op} (hk0 : Kept s0 s) :
    Kept s0 (sumRun s o).s := by
  unfold sumRun
  try dsimp only
  repeat' first
    | assumption
    | with_reducible apply kept_emitRecords
    | with_reducible apply kept_veLines
    | with_reducible apply kept_emitAt
    | with_reducible apply kept_fold
    | with_reducible apply kept_fold_fst
    | with_reducible apply kept_fold_as
    | with_reducible apply kept_fold_s
    | with_reducible apply kept_fold_land
    | (fail_if_no_progress with_reducible refine Kept.lit ?_ rfl rfl rfl rfl rfl rfl)
    | with_reducible refine Kept.fst ?_ (by assumption)
    | with_reducible apply keptOut_next
    | exact keptOut_notNow
    | exact keptOut_refused
    | dsimp only
    | split

theorem kept_sumPartialsBody {s0 : State} {u1 : State} {u2 : Op} {u3 : HostReply} (hk0 : Kept s0 u1) :
    Kept s0 (sumPartialsBody u1 u2 u3).s := by
  unfold sumPartialsBody
  try dsimp only
  repeat' first
    | assumption
    | with_reducible apply kept_veBody
    | with_reducible apply kept_sumRun

theorem kept_knotFixApply {s0 : State} {s : State} {o : Op} (hk0 : Kept s0 s) :
    Kept s0 (knotFixApply s o).s := by
  unfold knotFixApply
  try dsimp only
  repeat' first
    | assumption
    | with_reducible apply kept_writeAll
    | with_reducible apply kept_Acc_write
    | with_reducible apply kept_Acc_flag
    | with_reducible apply kept_veLines
    | with_reducible apply kept_fold
    | with_reducible apply kept_fold_fst
    | with_reducible apply kept_fold_as
    | with_reducible apply kept_fold_s
    | with_reducible apply kept_fold_land
    | (fail_if_no_progress with_reducible refine Kept.lit ?_ rfl rfl rfl rfl rfl rfl)
    | with_reducible refine Kept.fst ?_ (by assumption)
    | with_reducible apply keptOut_next
    | exact keptOut_notNow
    | exact keptOut_refused
    | dsimp only
    | split
    | intro _

theorem kept_knotFixRun {s0 : State} {s : State} {o : Op} (hk0 : Kept s0 s) :
    Kept s0 (knotFixRun s o).s := by
  unfold knotFixRun
  try dsimp only
  repeat' first
    | assumption
    | with_reducible apply kept_knotFixApply
    | (fail_if_no_progress with_reducible refine Kept.lit ?_ rfl rfl rfl rfl rfl rfl)
    | with_reducible refine Kept.fst ?_ (by assumption)
    | with_reducible apply keptOut_next
    | exact keptOut_notNow
    | exact keptOut_refused
    | dsimp only
    | split

theorem kept_knotFixBody {s0 : State} {u1 : State} {u2 : Op} {u3 : HostReply} (hk0 : Kept s0 u1) :
    Kept s0 (knotFixBody u1 u2 u3).s := by
  unfold knotFixBody
  try dsimp only
  repeat' first
    | assumption
    | with_reducible apply kept_veBody
    | with_reducible apply kept_knotFixRun

theorem kept_writeWords {t0 : State} {s0 : State} {o : Op} {x : VeIn} {k : Nat} {a : Acc} (hk0 : Kept t0 a.s) :
    Kept t0 (writeWords s0 o x k a).s := by
  unfold writeWords
  try dsimp only
  repeat' first
    | assumption
    | with_reducible apply kept_writeAll
    | with_reducible apply kept_Acc_write

theorem kept_writeAllWords {t0 : State} {s0 : State} {o : Op} {x : VeIn} {a : Acc} (hk0 : Kept t0 a.s) :
    Kept t0 (writeAllWords s0 o x a).s := by
  unfold writeAllWords
  try dsimp only
  repeat' first
    | assumption
    | with_reducible apply kept_writeWords
    | with_reducible apply kept_fold
    | with_reducible apply kept_fold_fst
    | with_reducible apply kept_fold_as
    | with_reducible apply kept_fold_s
    | with_reducible apply kept_fold_land
    | (fail_if_no_progress with_reducible refine Kept.lit ?_ rfl rfl rfl rfl rfl rfl)
    | with_reducible refine Kept.fst ?_ (by assumption)
    | with_reducible apply keptOut_next
    | exact keptOut_notNow
    | exact keptOut_refused
    | dsimp only
    | split
    | intro _

theorem kept_amaxRun {s0 : State} {s : State} {o : Op} (hk0 : Kept s0 s) :
    Kept s0 (amaxRun s o).s := by
  unfold amaxRun
  try dsimp only
  repeat' first
    | assumption
    | with_reducible apply kept_veLines
    | with_reducible apply kept_writeWords
    | with_reducible apply kept_writeAllWords
    | (fail_if_no_progress with_reducible refine Kept.lit ?_ rfl rfl rfl rfl rfl rfl)
    | with_reducible refine Kept.fst ?_ (by assumption)
    | with_reducible apply keptOut_next
    | exact keptOut_notNow
    | exact keptOut_refused
    | dsimp only
    | split
    | intro _

theorem kept_amaxBody {s0 : State} {u1 : State} {u2 : Op} {u3 : HostReply} (hk0 : Kept s0 u1) :
    Kept s0 (amaxBody u1 u2 u3).s := by
  unfold amaxBody
  try dsimp only
  repeat' first
    | assumption
    | with_reducible apply kept_veBody
    | with_reducible apply kept_amaxRun

theorem kept_quantizeRun {s0 : State} {s : State} {o : Op} (hk0 : Kept s0 s) :
    Kept s0 (quantizeRun s o).s := by
  unfold quantizeRun
  try dsimp only
  repeat' first
    | assumption
    | with_reducible apply kept_veLines
    | with_reducible apply kept_emitAt
    | with_reducible apply kept_writeWords
    | with_reducible apply kept_writeAllWords
    | (fail_if_no_progress with_reducible refine Kept.lit ?_ rfl rfl rfl rfl rfl rfl)
    | with_reducible refine Kept.fst ?_ (by assumption)
    | with_reducible apply keptOut_next
    | exact keptOut_notNow
    | exact keptOut_refused
    | dsimp only
    | split
    | intro _

theorem kept_quantizeBody {s0 : State} {u1 : State} {u2 : Op} {u3 : HostReply} (hk0 : Kept s0 u1) :
    Kept s0 (quantizeBody u1 u2 u3).s := by
  unfold quantizeBody
  try dsimp only
  repeat' first
    | assumption
    | with_reducible apply kept_veBody
    | with_reducible apply kept_quantizeRun

theorem kept_topkRun {s0 : State} {s : State} {o : Op} (hk0 : Kept s0 s) :
    Kept s0 (topkRun s o).s := by
  unfold topkRun
  try dsimp only
  repeat' first
    | assumption
    | with_reducible apply kept_veRows

theorem kept_topkMergeBody {s0 : State} {u1 : State} {u2 : Op} {u3 : HostReply} (hk0 : Kept s0 u1) :
    Kept s0 (topkMergeBody u1 u2 u3).s := by
  unfold topkMergeBody
  try dsimp only
  repeat' first
    | assumption
    | with_reducible apply kept_veBody
    | with_reducible apply kept_topkRun

theorem kept_emitMoment {s0 : State} {s : State} {o : Op} {i : Nat} {f : Nat → Nat → Nat → Conv} {a : Acc}
    (hk0 : Kept s0 a.s) :
    Kept s0 (emitMoment s o i f a).s := by
  unfold emitMoment
  try dsimp only
  repeat' first
    | assumption
    | with_reducible apply kept_emitAt
    | with_reducible apply kept_fold
    | with_reducible apply kept_fold_fst
    | with_reducible apply kept_fold_as
    | with_reducible apply kept_fold_s
    | with_reducible apply kept_fold_land
    | (fail_if_no_progress with_reducible refine Kept.lit ?_ rfl rfl rfl rfl rfl rfl)
    | with_reducible refine Kept.fst ?_ (by assumption)
    | with_reducible apply keptOut_next
    | exact keptOut_notNow
    | exact keptOut_refused
    | dsimp only
    | split
    | intro _

theorem kept_optRun {s0 : State} {s : State} {o : Op} (hk0 : Kept s0 s) :
    Kept s0 (optRun s o).s := by
  unfold optRun
  try dsimp only
  repeat' first
    | assumption
    | with_reducible apply kept_veLines
    | with_reducible apply kept_emitAt
    | with_reducible apply kept_emitMoment
    | (fail_if_no_progress with_reducible refine Kept.lit ?_ rfl rfl rfl rfl rfl rfl)
    | with_reducible refine Kept.fst ?_ (by assumption)
    | with_reducible apply keptOut_next
    | exact keptOut_notNow
    | exact keptOut_refused
    | dsimp only
    | split

theorem kept_optStepBody {s0 : State} {u1 : State} {u2 : Op} {u3 : HostReply} (hk0 : Kept s0 u1) :
    Kept s0 (optStepBody u1 u2 u3).s := by
  unfold optStepBody
  try dsimp only
  repeat' first
    | assumption
    | with_reducible apply kept_veBody
    | with_reducible apply kept_optRun

theorem kept_cpSource {s0 : State} {t : State} {o : Op} {h : HostReply} {s : State} {off n : Nat} (hk0 : Kept s0 s) :
    Kept s0 (cpSource t o h s off n).1 := by
  unfold cpSource
  split
  · exact kept_srcRegion hk0
  · split
    · exact kept_srcHost hk0
    · exact kept_srcDev hk0

theorem kept_copyBody {s0 : State} {s : State} {o : Op} {h : HostReply} (hk0 : Kept s0 s) :
    Kept s0 (copyBody s o h).s := by
  unfold copyBody
  try dsimp only
  repeat' first
    | assumption
    | with_reducible apply kept_landAll
    | with_reducible apply kept_cpSource

theorem kept_srcFill {s0 : State} {v : Nat} {s : State} {off n : Nat} (hk0 : Kept s0 s) :
    Kept s0 (srcFill v s off n).1 := by
  unfold srcFill
  try dsimp only
  repeat' first
    | assumption

theorem kept_fillBody {s0 : State} {s : State} {o : Op} {u1 : HostReply} (hk0 : Kept s0 s) :
    Kept s0 (fillBody s o u1).s := by
  unfold fillBody
  try dsimp only
  repeat' first
    | assumption
    | with_reducible apply kept_landAll
    | with_reducible apply kept_srcFill

theorem kept_transposeBody {s0 : State} {s : State} {o : Op} {u1 : HostReply} (hk0 : Kept s0 s) :
    Kept s0 (transposeBody s o u1).s := by
  unfold transposeBody
  try dsimp only
  repeat' first
    | assumption
    | with_reducible apply kept_readThen
    | with_reducible apply kept_writeThen
    | (fail_if_no_progress with_reducible refine Kept.lit ?_ rfl rfl rfl rfl rfl rfl)
    | with_reducible refine Kept.fst ?_ (by assumption)
    | with_reducible apply keptOut_next
    | exact keptOut_notNow
    | exact keptOut_refused
    | dsimp only
    | split
    | intro _

theorem kept_moveLine {s0 : State} {src dst : TRef} {b l l' : Nat} {s : State} (hk0 : Kept s0 s) :
    Kept s0 (moveLine src dst b l l' s).1 := by
  unfold moveLine
  try dsimp only
  repeat' first
    | assumption
    | with_reducible apply kept_writeAll
    | with_reducible apply kept_readAll
    | (fail_if_no_progress with_reducible refine Kept.lit ?_ rfl rfl rfl rfl rfl rfl)
    | with_reducible refine Kept.fst ?_ (by assumption)
    | with_reducible apply keptOut_next
    | exact keptOut_notNow
    | exact keptOut_refused
    | dsimp only
    | split

theorem kept_moveLines {s0 : State} {toIdx : Bool} {s : State} {o : Op} {u1 : HostReply} (hk0 : Kept s0 s) :
    Kept s0 (moveLines toIdx s o u1).s := by
  unfold moveLines
  try dsimp only
  repeat' first
    | assumption
    | with_reducible apply kept_readThen
    | with_reducible apply kept_Acc_write
    | with_reducible apply kept_moveLine
    | with_reducible apply kept_fold
    | with_reducible apply kept_fold_fst
    | with_reducible apply kept_fold_as
    | with_reducible apply kept_fold_s
    | with_reducible apply kept_fold_land
    | (fail_if_no_progress with_reducible refine Kept.lit ?_ rfl rfl rfl rfl rfl rfl)
    | with_reducible refine Kept.fst ?_ (by assumption)
    | with_reducible apply keptOut_next
    | exact keptOut_notNow
    | exact keptOut_refused
    | dsimp only
    | split
    | intro _

theorem keptOut_runForm {s0 : State} {form : Nat} {body : State → Op → HostReply → Res} {r : OpRef} {s : State}
    (hk0 : Kept s0 s) (hb : ∀ s o h, Kept s0 s → Kept s0 (body s o h).s) : KeptOut s0 (runForm form body r s) := by
  unfold runForm
  split
  · split
    · exact keptOut_runBody hk0 hb
    · trivial
  · trivial

theorem kept_pairLine {t0 : State} {s0 : State} {o : Op} {b l : Nat} {a : Acc} (hk0 : Kept t0 a.s) :
    Kept t0 (pairLine s0 o b l a).s := by
  unfold pairLine
  try dsimp only
  repeat' first
    | assumption
    | with_reducible apply kept_writeAll
    | with_reducible apply kept_Acc_write
    | (fail_if_no_progress with_reducible refine Kept.lit ?_ rfl rfl rfl rfl rfl rfl)
    | with_reducible refine Kept.fst ?_ (by assumption)
    | with_reducible apply keptOut_next
    | exact keptOut_notNow
    | exact keptOut_refused
    | dsimp only
    | split
    | intro _

theorem kept_pair24Body {s0 : State} {s : State} {o : Op} {u1 : HostReply} (hk0 : Kept s0 s) :
    Kept s0 (pair24Body s o u1).s := by
  unfold pair24Body
  try dsimp only
  repeat' first
    | assumption
    | with_reducible apply kept_readThen
    | with_reducible apply kept_pairLine
    | with_reducible apply kept_fold
    | with_reducible apply kept_fold_fst
    | with_reducible apply kept_fold_as
    | with_reducible apply kept_fold_s
    | with_reducible apply kept_fold_land
    | (fail_if_no_progress with_reducible refine Kept.lit ?_ rfl rfl rfl rfl rfl rfl)
    | with_reducible refine Kept.fst ?_ (by assumption)
    | with_reducible apply keptOut_next
    | exact keptOut_notNow
    | exact keptOut_refused
    | dsimp only
    | split
    | intro _

theorem kept_writeImg {s0 : State} {s : State} {base cap : Nat} {blk : Option (Nat × Nat)} {x : Img} (hk0 : Kept s0 s) :
    Kept s0 (writeImg s base cap blk x).s := by
  unfold writeImg
  try dsimp only
  repeat' first
    | assumption
    | with_reducible apply kept_writeThen
    | (fail_if_no_progress with_reducible refine Kept.lit ?_ rfl rfl rfl rfl rfl rfl)
    | with_reducible refine Kept.fst ?_ (by assumption)
    | with_reducible apply keptOut_next
    | exact keptOut_notNow
    | exact keptOut_refused
    | dsimp only
    | split
    | intro _

theorem kept_rowsBody {s0 : State} {s : State} {o : Op} {u1 : HostReply} (hk0 : Kept s0 s) :
    Kept s0 (rowsBody s o u1).s := by
  unfold rowsBody
  try dsimp only
  repeat' first
    | assumption
    | with_reducible apply kept_readThen
    | with_reducible apply kept_writeImg
    | (fail_if_no_progress with_reducible refine Kept.lit ?_ rfl rfl rfl rfl rfl rfl)
    | with_reducible refine Kept.fst ?_ (by assumption)
    | with_reducible apply keptOut_next
    | exact keptOut_notNow
    | exact keptOut_refused
    | dsimp only
    | split
    | intro _

theorem kept_routeBody {s0 : State} {s : State} {o : Op} {u1 : HostReply} (hk0 : Kept s0 s) :
    Kept s0 (routeBody s o u1).s := by
  unfold routeBody
  try dsimp only
  repeat' first
    | assumption
    | with_reducible apply kept_readThen
    | with_reducible apply kept_writeImg
    | (fail_if_no_progress with_reducible refine Kept.lit ?_ rfl rfl rfl rfl rfl rfl)
    | with_reducible refine Kept.fst ?_ (by assumption)
    | with_reducible apply keptOut_next
    | exact keptOut_notNow
    | exact keptOut_refused
    | dsimp only
    | split
    | intro _

theorem kept_activeBody {s0 : State} {s : State} {o : Op} {u1 : HostReply} (hk0 : Kept s0 s) :
    Kept s0 (activeBody s o u1).s := by
  unfold activeBody
  try dsimp only
  repeat' first
    | assumption
    | with_reducible apply kept_readThen
    | with_reducible apply kept_writeImg
    | (fail_if_no_progress with_reducible refine Kept.lit ?_ rfl rfl rfl rfl rfl rfl)
    | with_reducible refine Kept.fst ?_ (by assumption)
    | with_reducible apply keptOut_next
    | exact keptOut_notNow
    | exact keptOut_refused
    | dsimp only
    | split
    | intro _

end Sys2Proof.Machine
end

