-- ==== Sys2Proof/Laws/KeptHead.lean ====
section
/-!
SUPPORT. What the headstock and the links keep.
-/

namespace Sys2Proof.Machine

theorem kept_freePairs {s0 : State} {s : State} {p : Nat → Bool} (hk0 : Kept s0 s) : Kept s0 (freePairs s p) :=
  hk0.same rfl rfl rfl rfl rfl rfl

theorem kept_mixRange {s0 : State} {j : SnapJob} {x : Section} {s : State} (hk0 : Kept s0 s) :
    Kept s0 (mixRange s j x) := by
  unfold mixRange
  split
  · exact hk0
  · exact kept_nextFree (hk0.devMem (fun h => memWf_foldPut (fun _ a => (a, _)) _ h) rfl rfl rfl rfl rfl)

theorem kept_cutSnap {s0 : State} {s : State} {q tag : Nat} (hk0 : Kept s0 s) :
    Kept s0 (cutSnap s q tag) := by
  unfold cutSnap
  try dsimp only
  repeat' first
    | assumption
    | with_reducible apply kept_freePairs
    | with_reducible apply kept_mixRange
    | (fail_if_no_progress with_reducible refine Kept.lit ?_ rfl rfl rfl rfl rfl rfl)
    | with_reducible refine Kept.fst ?_ (by assumption)
    | with_reducible apply keptOut_next
    | exact keptOut_notNow
    | exact keptOut_refused
    | dsimp only
    | split

theorem kept_readPtr {s0 : State} {s : State} {o : Op} {h : HostReply} {host : Bool} {a n : Nat} (hk0 : Kept s0 s) :
    Kept s0 (readPtr s o h host a n).1 := by
  unfold readPtr
  try dsimp only
  repeat' first
    | assumption
    | with_reducible apply kept_readAll
    | (fail_if_no_progress with_reducible refine Kept.lit ?_ rfl rfl rfl rfl rfl rfl)
    | with_reducible refine Kept.fst ?_ (by assumption)
    | with_reducible apply keptOut_next
    | exact keptOut_notNow
    | exact keptOut_refused
    | dsimp only
    | split

theorem kept_Start_check {s0 : State} {x : Start} {c : State → Op → Chk} (hk0 : Kept s0 x.s) : Kept s0 (x.check c).s
    := by
  unfold Start.check
  split
  · exact hk0
  · split
    · exact hk0
    · exact hk0

theorem kept_Start_read {s0 : State} {x : Start} {h : HostReply} {want : Op → Option (Bool × Nat × Nat)}
    {put : Op → Nat → Op} (hk0 : Kept s0 x.s) : Kept s0 (x.read h want put).s := by
  unfold Start.read
  split
  · exact hk0
  · split
    · exact hk0
    · rename_i host a n _
      rename_i o _ _ _
      have h1 := kept_readPtr (o := o) (h := h) (host := host) (a := a) (n := n) hk0
      split
      · exact Kept.fst h1 (by assumption)
      · exact Kept.fst h1 (by assumption)

theorem kept_Start_core {s0 : State} {x : Start} {ws : State → Op → List CoreWord} (hk0 : Kept s0 x.s) :
    Kept s0 (Start.core x ws).s := by
  unfold Start.core
  try dsimp only
  repeat' first
    | assumption
    | with_reducible apply kept_useCores
    | with_reducible apply kept_Acc_res
    | (fail_if_no_progress with_reducible refine Kept.lit ?_ rfl rfl rfl rfl rfl rfl)
    | with_reducible refine Kept.fst ?_ (by assumption)
    | with_reducible apply keptOut_next
    | exact keptOut_notNow
    | exact keptOut_refused
    | dsimp only
    | split

theorem kept_Start_headers {s0 : State} {x : Start} (hk0 : Kept s0 x.s) :
    Kept s0 (Start.headers x).s := by
  unfold Start.headers
  try dsimp only
  repeat' first
    | assumption
    | with_reducible apply kept_readAll
    | with_reducible apply kept_Acc_res
    | (fail_if_no_progress with_reducible refine Kept.lit ?_ rfl rfl rfl rfl rfl rfl)
    | with_reducible refine Kept.fst ?_ (by assumption)
    | with_reducible apply keptOut_next
    | exact keptOut_notNow
    | exact keptOut_refused
    | dsimp only
    | split

theorem kept_startOp {s0 : State} {s : State} {o : Op} {h : HostReply} (hk0 : Kept s0 s) : Kept s0 (startOp s o h).s :=
  kept_Start_core (kept_Start_check (kept_Start_headers (kept_Start_read (kept_Start_check (kept_Start_read (kept_Start_check
    (kept_Start_check (kept_Start_check (kept_Start_read (kept_Start_check (kept_Start_check (kept_Start_check
      (kept_Start_core hk0)))))))))))))

theorem kept_putFrame {s0 : State} {s : State} {p f : Nat} (hk0 : Kept s0 s) :
    Kept s0 (putFrame s p f) := by
  unfold putFrame
  try dsimp only
  repeat' first
    | assumption
    | with_reducible apply kept_emit

theorem kept_sendFrame {s0 : State} {s : State} {p : Nat} {flits : List Nat} (hk0 : Kept s0 s) :
    Kept s0 (sendFrame s p flits) := by
  unfold sendFrame
  try dsimp only
  repeat' first
    | assumption
    | with_reducible apply kept_setPort
    | with_reducible apply kept_putFrame

theorem kept_sendFlits {s0 : State} {p : Nat} : ∀ {n : Nat} {fs : List Nat} {s : State}, Kept s0 s →
    Kept s0 (sendFlits s p n fs)
  | 0, _, _, h => h
  | n + 1, fs, s, h => by
    simp only [sendFlits]
    split
    · exact h
    · exact kept_sendFlits (kept_sendFrame h)

theorem kept_setFab {s0 : State} {s : State} {f : Fabric} (hk0 : Kept s0 s) :
    Kept s0 (setFab s f) := hk0.same rfl rfl rfl rfl rfl rfl

theorem kept_returnCredit {s0 : State} {s : State} {p : Nat} (hk0 : Kept s0 s) :
    Kept s0 (returnCredit s p) := by
  unfold returnCredit
  try dsimp only
  repeat' first
    | assumption
    | with_reducible apply kept_setPort
    | with_reducible apply kept_sendFrame
    | (fail_if_no_progress with_reducible refine Kept.lit ?_ rfl rfl rfl rfl rfl rfl)
    | with_reducible refine Kept.fst ?_ (by assumption)
    | with_reducible apply keptOut_next
    | exact keptOut_notNow
    | exact keptOut_refused
    | dsimp only
    | split

theorem kept_freeBuffer {s0 : State} {s : State} {k : Packet} (hk0 : Kept s0 s) :
    Kept s0 (freeBuffer s k) := by
  unfold freeBuffer
  try dsimp only
  repeat' first
    | assumption
    | with_reducible apply kept_setPort
    | with_reducible apply kept_returnCredit
    | (fail_if_no_progress with_reducible refine Kept.lit ?_ rfl rfl rfl rfl rfl rfl)
    | with_reducible refine Kept.fst ?_ (by assumption)
    | with_reducible apply keptOut_next
    | exact keptOut_notNow
    | exact keptOut_refused
    | dsimp only
    | split

theorem kept_freePassed {s0 : State} {s : State} {k : Packet} (hk0 : Kept s0 s) :
    Kept s0 (freePassed s k) := by
  unfold freePassed
  try dsimp only
  repeat' first
    | assumption
    | with_reducible apply kept_freeBuffer
    | (fail_if_no_progress with_reducible refine Kept.lit ?_ rfl rfl rfl rfl rfl rfl)
    | with_reducible refine Kept.fst ?_ (by assumption)
    | with_reducible apply keptOut_next
    | exact keptOut_notNow
    | exact keptOut_refused
    | dsimp only
    | split

theorem kept_putPacket {s0 : State} {s : State} {p : Nat} {k : Packet} (hk0 : Kept s0 s) :
    Kept s0 (putPacket s p k) := by
  unfold putPacket
  try dsimp only
  repeat' first
    | assumption
    | with_reducible apply kept_setPort
    | with_reducible apply kept_emit
    | with_reducible apply kept_sendFlits
    | with_reducible apply kept_freePassed

theorem kept_drainGo {s0 : State} :
    ∀ {xs : List (Option Nat × Packet)} {bs : List (Nat × Nat × Bool)} {ks : List (Option Nat × Packet)} {s : State},
      Kept s0 s → Kept s0 (drainGo xs bs ks s)
  | [], _, _, _, h => kept_setFab h
  | x :: r, bs, ks, s, h => by
    unfold drainGo
    split
    · split
      · exact kept_drainGo h
      · exact kept_drainGo (kept_freePassed h)
    · dsimp only
      split
      · exact kept_drainGo h
      · exact kept_drainGo (kept_putPacket h)

theorem kept_drain {s0 : State} {s : State} (hk0 : Kept s0 s) :
    Kept s0 (drain s) := by
  unfold drain
  try dsimp only
  repeat' first
    | assumption
    | with_reducible apply kept_drainGo

theorem kept_queueOut {s0 : State} {s : State} {x : Option Nat × Packet} (hk0 : Kept s0 s) :
    Kept s0 (queueOut s x) := by
  unfold queueOut
  try dsimp only
  repeat' first
    | assumption
    | with_reducible apply kept_setFab
    | (fail_if_no_progress with_reducible refine Kept.lit ?_ rfl rfl rfl rfl rfl rfl)
    | with_reducible refine Kept.fst ?_ (by assumption)
    | with_reducible apply keptOut_next
    | exact keptOut_notNow
    | exact keptOut_refused
    | dsimp only
    | split

theorem kept_sendPacket {s0 : State} {s : State} {p : Packet} (hk0 : Kept s0 s) :
    Kept s0 (sendPacket s p) := by
  unfold sendPacket
  try dsimp only
  repeat' first
    | assumption
    | with_reducible apply kept_drain
    | with_reducible apply kept_queueOut

theorem kept_countDiscard {s0 : State} {s : State} {src : Nat} (hk0 : Kept s0 s) :
    Kept s0 (countDiscard s src) := by
  unfold countDiscard
  try dsimp only
  repeat' first
    | assumption
    | with_reducible apply kept_setPort

theorem kept_takeTxn {s0 : State} {s : State} {d : Nat} (hk0 : Kept s0 s) : Kept s0 (takeTxn s d).2 :=
  hk0.same rfl rfl rfl rfl rfl rfl

theorem kept_sendTracked {s0 : State} {s : State} {q tag : Nat} {p : Packet} {local_ len : Nat} (hk0 : Kept s0 s) :
    Kept s0 (sendTracked s q tag p local_ len) := by
  unfold sendTracked
  try dsimp only
  repeat' first
    | assumption
    | with_reducible apply kept_setFab
    | with_reducible apply kept_sendPacket
    | with_reducible apply kept_takeTxn

theorem kept_sendRoute {s0 : State} {s : State} {n : RouteNews} (hk0 : Kept s0 s) :
    Kept s0 (sendRoute s n) := by
  unfold sendRoute
  try dsimp only
  repeat' first
    | assumption
    | with_reducible apply kept_emit
    | with_reducible apply kept_drain
    | with_reducible apply kept_queueOut
    | with_reducible apply kept_fold
    | with_reducible apply kept_fold_fst
    | with_reducible apply kept_fold_as
    | with_reducible apply kept_fold_s
    | with_reducible apply kept_fold_land
    | (fail_if_no_progress with_reducible refine Kept.lit ?_ rfl rfl rfl rfl rfl rfl)
    | with_reducible refine Kept.fst ?_ (by assumption)
    | with_reducible apply keptOut_next
    | exact keptOut_notNow
    | exact keptOut_refused
    | dsimp only
    | split
    | intro _

theorem kept_announce {s0 : State} {s : State} (hk0 : Kept s0 s) :
    Kept s0 (announce s) := by
  unfold announce
  try dsimp only
  repeat' first
    | assumption
    | with_reducible apply kept_sendRoute

theorem kept_sendControl {s0 : State} {s : State} {r : Relay} {ctl : Nat} (hk0 : Kept s0 s) :
    Kept s0 (sendControl s r ctl) := by
  unfold sendControl
  try dsimp only
  repeat' first
    | assumption
    | with_reducible apply kept_setFab
    | with_reducible apply kept_sendTracked
    | (fail_if_no_progress with_reducible refine Kept.lit ?_ rfl rfl rfl rfl rfl rfl)
    | with_reducible refine Kept.fst ?_ (by assumption)
    | with_reducible apply keptOut_next
    | exact keptOut_notNow
    | exact keptOut_refused
    | dsimp only
    | split

theorem kept_collSend {s0 : State} {s : State} {c : Coll} {d : Nat} {b : CollBody} (hk0 : Kept s0 s) :
    Kept s0 (collSend s c d b) := by
  unfold collSend
  try dsimp only
  repeat' first
    | assumption
    | with_reducible apply kept_setFab

theorem kept_collCast {s0 : State} {s : State} {c : Coll} {b : CollBody} (hk0 : Kept s0 s) :
    Kept s0 (collCast s c b) := by
  unfold collCast
  try dsimp only
  repeat' first
    | assumption
    | with_reducible apply kept_collSend
    | with_reducible apply kept_fold
    | with_reducible apply kept_fold_fst
    | with_reducible apply kept_fold_as
    | with_reducible apply kept_fold_s
    | with_reducible apply kept_fold_land
    | (fail_if_no_progress with_reducible refine Kept.lit ?_ rfl rfl rfl rfl rfl rfl)
    | with_reducible refine Kept.fst ?_ (by assumption)
    | with_reducible apply keptOut_next
    | exact keptOut_notNow
    | exact keptOut_refused
    | dsimp only
    | split
    | intro _

theorem kept_tellPlace {s0 : State} {s : State} {o : Op} (hk0 : Kept s0 s) :
    Kept s0 (tellPlace s o) := by
  unfold tellPlace
  try dsimp only
  repeat' first
    | assumption
    | with_reducible apply kept_Land_count
    | with_reducible apply kept_setFab
    | with_reducible apply kept_fold
    | with_reducible apply kept_fold_fst
    | with_reducible apply kept_fold_as
    | with_reducible apply kept_fold_s
    | with_reducible apply kept_fold_land
    | (fail_if_no_progress with_reducible refine Kept.lit ?_ rfl rfl rfl rfl rfl rfl)
    | with_reducible refine Kept.fst ?_ (by assumption)
    | with_reducible apply keptOut_next
    | exact keptOut_notNow
    | exact keptOut_refused
    | dsimp only
    | split
    | intro _

theorem kept_dropFabric {s0 : State} {s : State} {q tag : Nat} (hk0 : Kept s0 s) :
    Kept s0 (dropFabric s q tag) := by
  unfold dropFabric
  try dsimp only
  repeat' first
    | assumption
    | with_reducible apply kept_cutSnap
    | with_reducible apply kept_setFab
    | with_reducible apply kept_collCast
    | with_reducible apply kept_tellPlace
    | with_reducible apply kept_fold
    | with_reducible apply kept_fold_fst
    | with_reducible apply kept_fold_as
    | with_reducible apply kept_fold_s
    | with_reducible apply kept_fold_land
    | (fail_if_no_progress with_reducible refine Kept.lit ?_ rfl rfl rfl rfl rfl rfl)
    | with_reducible refine Kept.fst ?_ (by assumption)
    | with_reducible apply keptOut_next
    | exact keptOut_notNow
    | exact keptOut_refused
    | dsimp only
    | split
    | intro _

theorem kept_stopWith {s0 : State} {s : State} {o : Op} {flags : BitVec 8} {e : Fail} (hk0 : Kept s0 s) :
    Kept s0 (stopWith s o flags e) := by
  unfold stopWith
  try dsimp only
  repeat' first
    | assumption
    | with_reducible apply kept_endFail
    | with_reducible apply kept_dropFabric

theorem kept_streamAccept {s0 s t : State} {o p : Op} (hk0 : Kept s0 s) (h : streamAccept s o = .ok (t, p)) :
    Kept s0 t := by
  unfold streamAccept at h
  dsimp only at h
  split at h
  · split at h
    · cases h; exact hk0
    · cases h
  · split at h
    · cases h
    · split at h
      · cases h
      · cases h; exact kept_setStream hk0

theorem kept_bindAccept {s0 s t : State} {o : Op} (hk0 : Kept s0 s) (h : bindAccept s o = .ok t) : Kept s0 t := by
  unfold bindAccept at h
  dsimp only at h
  split at h
  · cases h
  · cases h; exact kept_setStream hk0

theorem kept_setRelay {s0 : State} {s : State} {r : Relay} (hk0 : Kept s0 s) :
    Kept s0 (setRelay s r) := by
  unfold setRelay
  try dsimp only
  repeat' first
    | assumption
    | with_reducible apply kept_setFab

theorem kept_readPacket {s0 : State} {s : State} {q : Nat} {h : HostReply} (hk0 : Kept s0 s) :
    Kept s0 (readPacket s q h).1 := by
  unfold readPacket
  try dsimp only
  repeat' first
    | assumption
    | with_reducible apply kept_readAll
    | (fail_if_no_progress with_reducible refine Kept.lit ?_ rfl rfl rfl rfl rfl rfl)
    | with_reducible refine Kept.fst ?_ (by assumption)
    | with_reducible apply keptOut_next
    | exact keptOut_notNow
    | exact keptOut_refused
    | dsimp only
    | split

theorem kept_takeTurn {s0 : State} {s : State} {q : Nat} (hk0 : Kept s0 s) :
    Kept s0 (takeTurn s q) := hk0.same rfl rfl rfl rfl rfl rfl

theorem kept_passHead {s0 : State} {s : State} {q : Nat} (hk0 : Kept s0 s) :
    Kept s0 (passHead s q) := by
  unfold passHead
  try dsimp only
  repeat' first
    | assumption
    | with_reducible apply kept_modQ
    | with_reducible apply kept_takeTurn

theorem kept_issueColl {s0 : State} {s : State} {q kind mask : Nat} (hk0 : Kept s0 s) :
    Kept s0 (issueColl s q kind mask) := hk0.same rfl rfl rfl rfl rfl rfl

theorem kept_placeColl {s0 : State} {s : State} {o p : Op} (hk0 : Kept s0 s) :
    Kept s0 (placeColl s o p).1 := by
  unfold placeColl
  try dsimp only
  repeat' first
    | assumption
    | with_reducible apply kept_issueColl
    | (fail_if_no_progress with_reducible refine Kept.lit ?_ rfl rfl rfl rfl rfl rfl)
    | with_reducible refine Kept.fst ?_ (by assumption)
    | with_reducible apply keptOut_next
    | exact keptOut_notNow
    | exact keptOut_refused
    | dsimp only
    | split

theorem kept_replaceColl {s0 : State} {s : State} {o : Op} (hk0 : Kept s0 s) :
    Kept s0 (replaceColl s o).1 := by
  unfold replaceColl
  try dsimp only
  repeat' first
    | assumption
    | with_reducible apply kept_placeColl
    | (fail_if_no_progress with_reducible refine Kept.lit ?_ rfl rfl rfl rfl rfl rfl)
    | with_reducible refine Kept.fst ?_ (by assumption)
    | with_reducible apply keptOut_next
    | exact keptOut_notNow
    | exact keptOut_refused
    | dsimp only
    | split

theorem kept_enterOp {s0 : State} {s : State} {o : Op} {h : HostReply} (hk0 : Kept s0 s) : Kept s0 (enterOp s o h) := by
  unfold enterOp
  extract_lets p x t u add
  have h1 : Kept s0 t := kept_placeColl hk0
  clear_value t u
  split
  · split
    · exact kept_setOps (kept_streamAccept h1 (by assumption))
    · exact kept_endFail (kept_setOps h1)
  · split
    · split
      · exact kept_setOps (kept_bindAccept h1 (by assumption))
      · exact kept_endFail (kept_setOps h1)
    · exact kept_setOps h1

theorem kept_applySignals {s0 : State} {s : State} {o : Op} (hk0 : Kept s0 s) :
    Kept s0 (applySignals s o) := by
  unfold applySignals
  try dsimp only
  repeat' first
    | assumption
    | with_reducible apply kept_setTally
    | with_reducible apply kept_addTally
    | with_reducible apply kept_coreFault
    | with_reducible apply kept_useCore
    | with_reducible apply kept_fold
    | with_reducible apply kept_fold_fst
    | with_reducible apply kept_fold_as
    | with_reducible apply kept_fold_s
    | with_reducible apply kept_fold_land
    | (fail_if_no_progress with_reducible refine Kept.lit ?_ rfl rfl rfl rfl rfl rfl)
    | with_reducible refine Kept.fst ?_ (by assumption)
    | with_reducible apply keptOut_next
    | exact keptOut_notNow
    | exact keptOut_refused
    | dsimp only
    | split
    | intro _

theorem kept_returnReply {s0 : State} {s : State} {q : Nat} {w : BitVec 128} {irq : Bool} (hk0 : Kept s0 s) :
    Kept s0 (returnReply s q w irq) := by
  unfold returnReply
  try dsimp only
  repeat' first
    | assumption
    | with_reducible apply kept_sendPacket
    | (fail_if_no_progress with_reducible refine Kept.lit ?_ rfl rfl rfl rfl rfl rfl)
    | with_reducible refine Kept.fst ?_ (by assumption)
    | with_reducible apply keptOut_next
    | exact keptOut_notNow
    | exact keptOut_refused
    | dsimp only
    | split

theorem kept_giveReply {s0 : State} {s : State} {q : Nat} {w : BitVec 128} {irq : Bool} (hk0 : Kept s0 s) :
    Kept s0 (giveReply s q w irq) := by
  unfold giveReply
  try dsimp only
  repeat' first
    | assumption
    | with_reducible apply kept_postReply
    | with_reducible apply kept_returnReply
    | (fail_if_no_progress with_reducible refine Kept.lit ?_ rfl rfl rfl rfl rfl rfl)
    | with_reducible refine Kept.fst ?_ (by assumption)
    | with_reducible apply keptOut_next
    | exact keptOut_notNow
    | exact keptOut_refused
    | dsimp only
    | split

theorem kept_relayLog {s0 : State} {s : State} {r : Relay} {code : Nat} {x : Nat × Nat × Nat} (hk0 : Kept s0 s) :
    Kept s0 (relayLog s r code x) := by
  unfold relayLog
  try dsimp only
  repeat' first
    | assumption
    | with_reducible apply kept_vlogAdd

theorem kept_relayRefuse {s0 : State} {s : State} {r : Relay} {code : Nat} {x : Nat × Nat × Nat} {irq : Bool}
    (hk0 : Kept s0 s) :
    Kept s0 (relayRefuse s r code x irq) := by
  unfold relayRefuse
  try dsimp only
  repeat' first
    | assumption
    | with_reducible apply kept_postReply
    | with_reducible apply kept_setRelay
    | with_reducible apply kept_relayLog

theorem kept_relaySend {s0 : State} {s : State} {r : Relay} {w : Nat} (hk0 : Kept s0 s) :
    Kept s0 (relaySend s r w) := by
  unfold relaySend
  try dsimp only
  repeat' first
    | assumption
    | with_reducible apply kept_sendTracked
    | with_reducible apply kept_setRelay
    | with_reducible apply kept_relayRefuse
    | (fail_if_no_progress with_reducible refine Kept.lit ?_ rfl rfl rfl rfl rfl rfl)
    | with_reducible refine Kept.fst ?_ (by assumption)
    | with_reducible apply keptOut_next
    | exact keptOut_notNow
    | exact keptOut_refused
    | dsimp only
    | split

theorem kept_refuseDup {s0 : State} {s : State} {q w : Nat} (hk0 : Kept s0 s) :
    Kept s0 (refuseDup s q w) := by
  unfold refuseDup
  try dsimp only
  repeat' first
    | assumption
    | with_reducible apply kept_vlogAdd
    | with_reducible apply kept_applySignals
    | with_reducible apply kept_giveReply
    | (fail_if_no_progress with_reducible refine Kept.lit ?_ rfl rfl rfl rfl rfl rfl)
    | with_reducible refine Kept.fst ?_ (by assumption)
    | with_reducible apply keptOut_next
    | exact keptOut_notNow
    | exact keptOut_refused
    | dsimp only
    | split

theorem keptOut_readThenTake {s0 : State} {s : State} {q : Nat} {host : HostReply} {take : State → Nat → State}
    (hk0 : Kept s0 s) (h_take : ∀ s1 a1, Kept s0 s1 → Kept s0 (take s1 a1)) :
    KeptOut s0 (readThenTake s q host take) := by
  unfold readThenTake
  try dsimp only
  repeat' first
    | assumption
    | with_reducible apply kept_modQ
    | with_reducible apply kept_vlogAdd
    | with_reducible apply kept_readPacket
    | with_reducible apply kept_takeTurn
    | with_reducible apply kept_passHead
    | with_reducible apply h_take
    | (fail_if_no_progress with_reducible refine Kept.lit ?_ rfl rfl rfl rfl rfl rfl)
    | with_reducible refine Kept.fst ?_ (by assumption)
    | with_reducible apply keptOut_next
    | exact keptOut_notNow
    | exact keptOut_refused
    | dsimp only
    | split

theorem kept_takeService {s0 : State} {s : State} {q : Nat} (hk0 : Kept s0 s) :
    Kept s0 (takeService s q) := hk0.same rfl rfl rfl rfl rfl rfl

theorem kept_parityLeaves {s0 : State} {s : State} {u : Upset} (hk0 : Kept s0 s) :
    Kept s0 (parityLeaves s u) := by
  unfold parityLeaves
  try dsimp only
  repeat' first
    | assumption
    | with_reducible apply kept_setSlot
    | with_reducible apply kept_countUncorr
    | with_reducible apply kept_setUpsets
    | (fail_if_no_progress with_reducible refine Kept.lit ?_ rfl rfl rfl rfl rfl rfl)
    | with_reducible refine Kept.fst ?_ (by assumption)
    | with_reducible apply keptOut_next
    | exact keptOut_notNow
    | exact keptOut_refused
    | dsimp only
    | split

theorem kept_refuseStart {s0 : State} {s : State} {o : Op} {flags : BitVec 8} {e : Fail} (hk0 : Kept s0 s) :
    Kept s0 (refuseStart s o flags e) := by
  unfold refuseStart
  try dsimp only
  repeat' first
    | assumption
    | with_reducible apply kept_endFail
    | with_reducible apply kept_tellPlace

theorem kept_noteStart {s0 : State} {s : State} {o : Op} (hk0 : Kept s0 s) :
    Kept s0 (noteStart s o) := by
  unfold noteStart
  try dsimp only
  repeat' first
    | assumption
    | (fail_if_no_progress with_reducible refine Kept.lit ?_ rfl rfl rfl rfl rfl rfl)
    | with_reducible refine Kept.fst ?_ (by assumption)
    | with_reducible apply keptOut_next
    | exact keptOut_notNow
    | exact keptOut_refused
    | dsimp only
    | split

theorem kept_finishOp {s0 : State} {s : State} {o : Op} (hk0 : Kept s0 s) :
    Kept s0 (finishOp s o) := by
  unfold finishOp
  try dsimp only
  repeat' first
    | assumption
    | with_reducible apply kept_putOp
    | with_reducible apply kept_applySignals
    | with_reducible apply kept_giveReply
    | (fail_if_no_progress with_reducible refine Kept.lit ?_ rfl rfl rfl rfl rfl rfl)
    | with_reducible refine Kept.fst ?_ (by assumption)
    | with_reducible apply keptOut_next
    | exact keptOut_notNow
    | exact keptOut_refused
    | dsimp only
    | split

theorem kept_endReset {s0 : State} {s : State} {q : Nat} (hk0 : Kept s0 s) :
    Kept s0 (endReset s q) := by
  unfold endReset
  try dsimp only
  repeat' first
    | assumption
    | with_reducible apply kept_modQ

theorem kept_abortOp {s0 : State} {s : State} {o : Op} (hk0 : Kept s0 s) :
    Kept s0 (abortOp s o) := by
  unfold abortOp
  try dsimp only
  repeat' first
    | assumption
    | with_reducible apply kept_stopWith
    | (fail_if_no_progress with_reducible refine Kept.lit ?_ rfl rfl rfl rfl rfl rfl)
    | with_reducible refine Kept.fst ?_ (by assumption)
    | with_reducible apply keptOut_next
    | exact keptOut_notNow
    | exact keptOut_refused
    | dsimp only
    | split

theorem kept_abortOps {s0 : State} {s : State} {p : Op → Bool} (hk0 : Kept s0 s) : Kept s0 (abortOps s p) :=
  kept_fold _ hk0 fun _ _ h => kept_abortOp h

theorem kept_resetOp {s0 : State} {s : State} {o : Op} (hk0 : Kept s0 s) :
    Kept s0 (resetOp s o) := by
  unfold resetOp
  try dsimp only
  repeat' first
    | assumption
    | with_reducible apply kept_stopWith

theorem kept_endRelays {s0 : State} {s : State} {q : Nat} (hk0 : Kept s0 s) :
    Kept s0 (endRelays s q) := by
  unfold endRelays
  try dsimp only
  repeat' first
    | assumption
    | with_reducible apply kept_postReply
    | with_reducible apply kept_setFab
    | with_reducible apply kept_announce
    | with_reducible apply kept_sendControl
    | with_reducible apply kept_relayLog
    | with_reducible apply kept_fold
    | with_reducible apply kept_fold_fst
    | with_reducible apply kept_fold_as
    | with_reducible apply kept_fold_s
    | with_reducible apply kept_fold_land
    | (fail_if_no_progress with_reducible refine Kept.lit ?_ rfl rfl rfl rfl rfl rfl)
    | with_reducible refine Kept.fst ?_ (by assumption)
    | with_reducible apply keptOut_next
    | exact keptOut_notNow
    | exact keptOut_refused
    | dsimp only
    | split
    | intro _

theorem kept_freeSetsOf {s0 : State} {s : State} {p : Nat → Bool} (hk0 : Kept s0 s) :
    Kept s0 (freeSetsOf s p) := by
  unfold freeSetsOf
  try dsimp only
  repeat' first
    | assumption
    | (fail_if_no_progress with_reducible refine Kept.lit ?_ rfl rfl rfl rfl rfl rfl)

theorem kept_unbindOf {s0 : State} {s : State} {p : Nat → Bool} (hk0 : Kept s0 s) :
    Kept s0 (unbindOf s p) := hk0.same rfl rfl rfl rfl rfl rfl

theorem kept_redoReplies {s0 : State} {s : State} {q : Nat} (hk0 : Kept s0 s) :
    Kept s0 (redoReplies s q) := by
  unfold redoReplies
  try dsimp only
  repeat' first
    | assumption
    | with_reducible apply kept_modQ

theorem kept_resetQueue {s0 : State} {s : State} {q : Nat} (hk0 : Kept s0 s) :
    Kept s0 (resetQueue s q) := by
  unfold resetQueue
  try dsimp only
  repeat' first
    | assumption
    | with_reducible apply kept_modQ
    | with_reducible apply kept_setOps
    | with_reducible apply kept_finishOp
    | with_reducible apply kept_endReset
    | with_reducible apply kept_resetOp
    | with_reducible apply kept_endRelays
    | with_reducible apply kept_freeSetsOf
    | with_reducible apply kept_unbindOf
    | with_reducible apply kept_redoReplies
    | with_reducible apply kept_fold

theorem kept_putLink {s0 : State} {s : State} {n : LinkNews} (hk0 : Kept s0 s) :
    Kept s0 (putLink s n) := by
  unfold putLink
  try dsimp only
  repeat' first
    | assumption
    | with_reducible apply kept_setFab

theorem kept_linkChange {s0 : State} {s : State} {p : Nat} {live : Bool} (hk0 : Kept s0 s) :
    Kept s0 (linkChange s p live) := by
  unfold linkChange
  try dsimp only
  repeat' first
    | assumption
    | with_reducible apply kept_setFab
    | with_reducible apply kept_sendRoute
    | with_reducible apply kept_putLink

theorem kept_askReplay {s0 : State} {s : State} {p : Nat} (hk0 : Kept s0 s) :
    Kept s0 (askReplay s p) := by
  unfold askReplay
  try dsimp only
  repeat' first
    | assumption
    | with_reducible apply kept_setPort
    | with_reducible apply kept_emit
    | with_reducible apply kept_sendFrame

theorem kept_countFrame {s0 : State} {s : State} {p : Nat} (hk0 : Kept s0 s) :
    Kept s0 (countFrame s p) := by
  unfold countFrame
  try dsimp only
  repeat' first
    | assumption
    | with_reducible apply kept_setPort

theorem kept_holdPacket {s0 : State} {s : State} {port : Nat} (hk0 : Kept s0 s) :
    Kept s0 (holdPacket s port) := by
  unfold holdPacket
  try dsimp only
  repeat' first
    | assumption
    | with_reducible apply kept_setPort
    | (fail_if_no_progress with_reducible refine Kept.lit ?_ rfl rfl rfl rfl rfl rfl)
    | with_reducible refine Kept.fst ?_ (by assumption)
    | with_reducible apply keptOut_next
    | exact keptOut_notNow
    | exact keptOut_refused
    | dsimp only
    | split

theorem kept_takeFlit {s0 : State} {port : Nat} {s : State} {flit : Nat} (hk0 : Kept s0 s) :
    Kept s0 (takeFlit port s flit) := by
  unfold takeFlit
  try dsimp only
  repeat' first
    | assumption
    | with_reducible apply kept_setPort
    | with_reducible apply kept_emit
    | with_reducible apply kept_holdPacket
    | (fail_if_no_progress with_reducible refine Kept.lit ?_ rfl rfl rfl rfl rfl rfl)
    | with_reducible refine Kept.fst ?_ (by assumption)
    | with_reducible apply keptOut_next
    | exact keptOut_notNow
    | exact keptOut_refused
    | dsimp only
    | split

theorem kept_countFec {s0 : State} {s : State} {port : Nat} {fec : Fec} (hk0 : Kept s0 s) :
    Kept s0 (countFec s port fec) := by
  unfold countFec
  try dsimp only
  repeat' first
    | assumption
    | with_reducible apply kept_setPort
    | (fail_if_no_progress with_reducible refine Kept.lit ?_ rfl rfl rfl rfl rfl rfl)
    | with_reducible refine Kept.fst ?_ (by assumption)
    | with_reducible apply keptOut_next
    | exact keptOut_notNow
    | exact keptOut_refused
    | dsimp only
    | split

theorem kept_discardFrame {s0 : State} {s : State} {port : Nat} {ask : Bool} (hk0 : Kept s0 s) :
    Kept s0 (discardFrame s port ask) := by
  have h := kept_countFrame (p := port) hk0
  unfold discardFrame
  dsimp only
  generalize countFrame s port = t at h
  split
  · exact kept_askReplay h
  · exact h

theorem kept_takeFrame {s0 : State} {s : State} {port message : Nat} (hk0 : Kept s0 s) :
    Kept s0 (takeFrame s port message) := by
  unfold takeFrame
  generalize List.map _ (List.range 20) = fs
  exact kept_returnCredit (kept_fold fs (kept_setPort hk0) fun _ _ h => kept_takeFlit h)

theorem kept_replay {s0 : State} {s : State} {port : Nat} {fs : List Nat} (hk0 : Kept s0 s) :
    Kept s0 (replay s port fs) := by
  unfold replay
  try dsimp only
  repeat' first
    | assumption
    | with_reducible apply kept_emit
    | with_reducible apply kept_putFrame
    | with_reducible apply kept_fold
    | with_reducible apply kept_fold_fst
    | with_reducible apply kept_fold_as
    | with_reducible apply kept_fold_s
    | with_reducible apply kept_fold_land
    | (fail_if_no_progress with_reducible refine Kept.lit ?_ rfl rfl rfl rfl rfl rfl)
    | with_reducible refine Kept.fst ?_ (by assumption)
    | with_reducible apply keptOut_next
    | exact keptOut_notNow
    | exact keptOut_refused
    | dsimp only
    | split
    | intro _

theorem kept_leaveRoutes {s0 : State} {s : State} {p : Nat} (hk0 : Kept s0 s) :
    Kept s0 (leaveRoutes s p) := by
  unfold leaveRoutes
  try dsimp only
  repeat' first
    | assumption
    | with_reducible apply kept_linkChange
    | (fail_if_no_progress with_reducible refine Kept.lit ?_ rfl rfl rfl rfl rfl rfl)
    | with_reducible refine Kept.fst ?_ (by assumption)
    | with_reducible apply keptOut_next
    | exact keptOut_notNow
    | exact keptOut_refused
    | dsimp only
    | split

theorem kept_startTraining {s0 : State} {s : State} {p : Nat} (hk0 : Kept s0 s) :
    Kept s0 (startTraining s p) := by
  unfold startTraining
  try dsimp only
  repeat' first
    | assumption
    | with_reducible apply kept_setPort
    | with_reducible apply kept_setPd
    | with_reducible apply kept_leaveRoutes
    | (fail_if_no_progress with_reducible refine Kept.lit ?_ rfl rfl rfl rfl rfl rfl)
    | with_reducible refine Kept.fst ?_ (by assumption)
    | with_reducible apply keptOut_next
    | exact keptOut_notNow
    | exact keptOut_refused
    | dsimp only
    | split

theorem kept_portDown {s0 : State} {s : State} {p : Nat} (hk0 : Kept s0 s) :
    Kept s0 (portDown s p) := by
  unfold portDown
  try dsimp only
  repeat' first
    | assumption
    | with_reducible apply kept_setPort
    | with_reducible apply kept_leaveRoutes

theorem kept_failFabricOp {s0 : State} {s : State} {q tag : Nat} {flags : BitVec 8} {e : Fail} (hk0 : Kept s0 s) :
    Kept s0 (failFabricOp s q tag flags e) := by
  unfold failFabricOp
  try dsimp only
  repeat' first
    | assumption
    | with_reducible apply kept_stopWith
    | (fail_if_no_progress with_reducible refine Kept.lit ?_ rfl rfl rfl rfl rfl rfl)
    | with_reducible refine Kept.fst ?_ (by assumption)
    | with_reducible apply keptOut_next
    | exact keptOut_notNow
    | exact keptOut_refused
    | dsimp only
    | split

theorem kept_failColl {s0 : State} {s : State} {c : Coll} {e : Fail} {tell : Option CollBody} (hk0 : Kept s0 s) :
    Kept s0 (failColl s c e tell) := by
  unfold failColl
  try dsimp only
  repeat' first
    | assumption
    | with_reducible apply kept_setFab
    | with_reducible apply kept_collCast
    | with_reducible apply kept_failFabricOp
    | (fail_if_no_progress with_reducible refine Kept.lit ?_ rfl rfl rfl rfl rfl rfl)
    | with_reducible refine Kept.fst ?_ (by assumption)
    | with_reducible apply keptOut_next
    | exact keptOut_notNow
    | exact keptOut_refused
    | dsimp only
    | split

theorem kept_failRelay {s0 : State} {s : State} {r : Relay} {code : Nat} (hk0 : Kept s0 s) :
    Kept s0 (failRelay s r code) := by
  unfold failRelay
  try dsimp only
  repeat' first
    | assumption
    | with_reducible apply kept_setRelay
    | with_reducible apply kept_giveReply
    | with_reducible apply kept_relayLog
    | with_reducible apply kept_fold
    | with_reducible apply kept_fold_fst
    | with_reducible apply kept_fold_as
    | with_reducible apply kept_fold_s
    | with_reducible apply kept_fold_land
    | (fail_if_no_progress with_reducible refine Kept.lit ?_ rfl rfl rfl rfl rfl rfl)
    | with_reducible refine Kept.fst ?_ (by assumption)
    | with_reducible apply keptOut_next
    | exact keptOut_notNow
    | exact keptOut_refused
    | dsimp only
    | split
    | intro _

theorem kept_remoteReset {s0 : State} {s : State} {d : Nat} (hk0 : Kept s0 s) :
    Kept s0 (remoteReset s d) := by
  unfold remoteReset
  try dsimp only
  repeat' first
    | assumption
    | with_reducible apply kept_setFab
    | with_reducible apply kept_failFabricOp
    | with_reducible apply kept_failColl
    | with_reducible apply kept_failRelay
    | with_reducible apply kept_fold
    | with_reducible apply kept_fold_fst
    | with_reducible apply kept_fold_as
    | with_reducible apply kept_fold_s
    | with_reducible apply kept_fold_land
    | (fail_if_no_progress with_reducible refine Kept.lit ?_ rfl rfl rfl rfl rfl rfl)
    | with_reducible refine Kept.fst ?_ (by assumption)
    | with_reducible apply keptOut_next
    | exact keptOut_notNow
    | exact keptOut_refused
    | dsimp only
    | split
    | intro _

theorem kept_hearEpoch {s0 : State} {s : State} {d : Nat} {e : BitVec 16} (hk0 : Kept s0 s) :
    Kept s0 (hearEpoch s d e) := by
  unfold hearEpoch
  try dsimp only
  repeat' first
    | assumption
    | with_reducible apply kept_setFab
    | with_reducible apply kept_remoteReset
    | (fail_if_no_progress with_reducible refine Kept.lit ?_ rfl rfl rfl rfl rfl rfl)
    | with_reducible refine Kept.fst ?_ (by assumption)
    | with_reducible apply keptOut_next
    | exact keptOut_notNow
    | exact keptOut_refused
    | dsimp only
    | split

theorem kept_putGateway {s0 : State} {s : State} {g : Nat × Bool} (hk0 : Kept s0 s) :
    Kept s0 (putGateway s g) := by
  unfold putGateway
  try dsimp only
  repeat' first
    | assumption
    | with_reducible apply kept_setFab
    | (fail_if_no_progress with_reducible refine Kept.lit ?_ rfl rfl rfl rfl rfl rfl)
    | with_reducible refine Kept.fst ?_ (by assumption)
    | with_reducible apply keptOut_next
    | exact keptOut_notNow
    | exact keptOut_refused
    | dsimp only
    | split

theorem kept_quiescePort {s0 : State} {s : State} {p : Nat} (hk0 : Kept s0 s) :
    Kept s0 (quiescePort s p) := by
  unfold quiescePort
  try dsimp only
  repeat' first
    | assumption
    | with_reducible apply kept_setPort
    | with_reducible apply kept_leaveRoutes
    | (fail_if_no_progress with_reducible refine Kept.lit ?_ rfl rfl rfl rfl rfl rfl)
    | with_reducible refine Kept.fst ?_ (by assumption)
    | with_reducible apply keptOut_next
    | exact keptOut_notNow
    | exact keptOut_refused
    | dsimp only
    | split

end Sys2Proof.Machine
end

