-- ==== Sys2Proof/Laws/KeptFabric.lean ====
section
/-!
SUPPORT. What transfers and collectives keep.
-/

namespace Sys2Proof.Machine

theorem kept_winAccess {s0 : State} {s : State} {src i off len : Nat} {t : XferInfo} {mode : Nat} {write : Bool}
    (hk0 : Kept s0 s) :
    Kept s0 (winAccess s src i off len t mode write).1 := by
  unfold winAccess
  try dsimp only
  repeat' first
    | assumption
    | with_reducible apply kept_countUncorr
    | with_reducible apply kept_useCores
    | (fail_if_no_progress with_reducible refine Kept.lit ?_ rfl rfl rfl rfl rfl rfl)
    | with_reducible refine Kept.fst ?_ (by assumption)
    | with_reducible apply keptOut_next
    | exact keptOut_notNow
    | exact keptOut_refused
    | dsimp only
    | split

theorem kept_logRemote {s0 : State} {s : State} {src : Nat} {e : Fail} (hk0 : Kept s0 s) :
    Kept s0 (logRemote s src e) := by
  unfold logRemote
  try dsimp only
  repeat' first
    | assumption
    | with_reducible apply kept_vlogAdd

theorem kept_setArrivals {s0 : State} {s : State} {as : List Arrival} (hk0 : Kept s0 s) :
    Kept s0 (setArrivals s as) := by
  unfold setArrivals
  try dsimp only
  repeat' first
    | assumption
    | with_reducible apply kept_setFab

theorem kept_fillSlot {s0 : State} {x : Land} {wmode base per : Nat} {t : XferInfo} (hk0 : Kept s0 x.s) :
    Kept s0 (fillSlot x wmode base per t).s := by
  unfold fillSlot
  try dsimp only
  repeat' first
    | assumption
    | with_reducible apply kept_landRow
    | with_reducible apply kept_fold
    | with_reducible apply kept_fold_fst
    | with_reducible apply kept_fold_as
    | with_reducible apply kept_fold_s
    | with_reducible apply kept_fold_land
    | (fail_if_no_progress with_reducible refine Kept.lit ?_ rfl rfl rfl rfl rfl rfl)
    | with_reducible refine Kept.fst ?_ (by assumption)
    | with_reducible apply keptOut_next
    | exact keptOut_notNow
    | exact keptOut_refused
    | dsimp only
    | split
    | intro _

theorem kept_srcConst {s0 : State} {bytes : List Byte} {s : State} {off n : Nat} (hk0 : Kept s0 s) :
    Kept s0 (srcConst bytes s off n).1 := hk0

theorem kept_landSlot {s0 : State} {x : Land} {wmode base off : Nat} {bytes : List Byte} (hk0 : Kept s0 x.s) :
    Kept s0 (landSlot x wmode base off bytes).s := by
  unfold landSlot
  try dsimp only
  repeat' first
    | assumption
    | with_reducible apply kept_landRow
    | with_reducible apply kept_fold
    | with_reducible apply kept_fold_fst
    | with_reducible apply kept_fold_as
    | with_reducible apply kept_fold_s
    | with_reducible apply kept_fold_land
    | (fail_if_no_progress with_reducible refine Kept.lit ?_ rfl rfl rfl rfl rfl rfl)
    | with_reducible refine Kept.fst ?_ (by assumption)
    | with_reducible apply keptOut_next
    | exact keptOut_notNow
    | exact keptOut_refused
    | dsimp only
    | split
    | intro _

theorem kept_refuseArrival {s0 : State} {s : State} {src i : Nat} {t : XferInfo} {e : Fail} (hk0 : Kept s0 s) :
    Kept s0 (refuseArrival s src i t e) := by
  unfold refuseArrival
  try dsimp only
  repeat' first
    | assumption
    | with_reducible apply kept_setArrivals

theorem kept_landPush {s0 : State} {x0 : Land} {i off mode : Nat} {bytes : List Byte} {t : XferInfo}
    {slot : Option Nat} {last : Bool} (hk0 : Kept s0 x0.s) :
    Kept s0 (landPush x0 i off mode bytes t slot last).1.s := by
  unfold landPush
  try dsimp only
  repeat' first
    | assumption
    | with_reducible apply kept_setRegion
    | with_reducible apply kept_Land_count
    | with_reducible apply kept_Land_fail
    | with_reducible apply kept_fillSlot
    | with_reducible apply kept_landSlot
    | (fail_if_no_progress with_reducible refine Kept.lit ?_ rfl rfl rfl rfl rfl rfl)
    | with_reducible refine Kept.fst ?_ (by assumption)
    | with_reducible apply keptOut_next
    | exact keptOut_notNow
    | exact keptOut_refused
    | dsimp only
    | split

theorem kept_commitWrite {s0 : State} {s : State} {src i off mode : Nat} {bytes : List Byte} {t : XferInfo}
    (hk0 : Kept s0 s) :
    Kept s0 (commitWrite s src i off mode bytes t).1 := by
  unfold commitWrite
  try dsimp only
  repeat' first
    | assumption
    | with_reducible apply kept_addTally
    | with_reducible apply kept_landAll
    | with_reducible apply kept_setArrivals
    | with_reducible apply kept_srcConst
    | with_reducible apply kept_refuseArrival
    | with_reducible apply kept_landPush
    | (fail_if_no_progress with_reducible refine Kept.lit ?_ rfl rfl rfl rfl rfl rfl)
    | with_reducible refine Kept.fst ?_ (by assumption)
    | with_reducible apply keptOut_next
    | exact keptOut_notNow
    | exact keptOut_refused
    | dsimp only
    | split

theorem kept_remoteWrite {s0 : State} {s : State} {src i off mode : Nat} {bytes : List Byte} {t : XferInfo}
    (hk0 : Kept s0 s) :
    Kept s0 (remoteWrite s src i off mode bytes t).1 := by
  unfold remoteWrite
  try dsimp only
  repeat' first
    | assumption
    | with_reducible apply kept_winAccess
    | with_reducible apply kept_logRemote
    | with_reducible apply kept_refuseArrival
    | with_reducible apply kept_commitWrite
    | (fail_if_no_progress with_reducible refine Kept.lit ?_ rfl rfl rfl rfl rfl rfl)
    | with_reducible refine Kept.fst ?_ (by assumption)
    | with_reducible apply keptOut_next
    | exact keptOut_notNow
    | exact keptOut_refused
    | dsimp only
    | split

theorem kept_remoteRead {s0 : State} {s : State} {src i off len : Nat} {t : XferInfo} (hk0 : Kept s0 s) :
    Kept s0 (remoteRead s src i off len t).1 := by
  unfold remoteRead
  try dsimp only
  repeat' first
    | assumption
    | with_reducible apply kept_srcDev
    | with_reducible apply kept_winAccess
    | with_reducible apply kept_logRemote
    | (fail_if_no_progress with_reducible refine Kept.lit ?_ rfl rfl rfl rfl rfl rfl)
    | with_reducible refine Kept.fst ?_ (by assumption)
    | with_reducible apply keptOut_next
    | exact keptOut_notNow
    | exact keptOut_refused
    | dsimp only
    | split

theorem kept_addShare {s0 : State} {s : State} {f p d n : Nat} (hk0 : Kept s0 s) :
    Kept s0 (addShare s f p d n) := by
  unfold addShare
  try dsimp only
  repeat' first
    | assumption
    | with_reducible apply kept_setFab

theorem kept_charge {s0 : State} {s : State} {f p : Nat} {c : Nat × Nat} (hk0 : Kept s0 s) :
    Kept s0 (charge s f p c) := by
  unfold charge
  try dsimp only
  repeat' first
    | assumption
    | with_reducible apply kept_addShare
    | (fail_if_no_progress with_reducible refine Kept.lit ?_ rfl rfl rfl rfl rfl rfl)
    | with_reducible refine Kept.fst ?_ (by assumption)
    | with_reducible apply keptOut_next
    | exact keptOut_notNow
    | exact keptOut_refused
    | dsimp only
    | split

theorem kept_dropPiece {s0 : State} {s : State} {x : Piece} (hk0 : Kept s0 s) :
    Kept s0 (dropPiece s x) := by
  unfold dropPiece
  try dsimp only
  repeat' first
    | assumption
    | with_reducible apply kept_setFab

theorem kept_addOpFlags {s0 : State} {s : State} {q tag : Nat} {f : BitVec 8} (hk0 : Kept s0 s) :
    Kept s0 (addOpFlags s q tag f) := by
  unfold addOpFlags
  try dsimp only
  repeat' first
    | assumption
    | with_reducible apply kept_putOp
    | (fail_if_no_progress with_reducible refine Kept.lit ?_ rfl rfl rfl rfl rfl rfl)
    | with_reducible refine Kept.fst ?_ (by assumption)
    | with_reducible apply keptOut_next
    | exact keptOut_notNow
    | exact keptOut_refused
    | dsimp only
    | split

theorem kept_markFail {s0 : State} {s : State} {q tag : Nat} {f : BitVec 8} {e : Fail} (hk0 : Kept s0 s) :
    Kept s0 (markFail s q tag f e) := by
  unfold markFail
  try dsimp only
  repeat' first
    | assumption
    | with_reducible apply kept_putOp
    | with_reducible apply kept_setFab
    | (fail_if_no_progress with_reducible refine Kept.lit ?_ rfl rfl rfl rfl rfl rfl)
    | with_reducible refine Kept.fst ?_ (by assumption)
    | with_reducible apply keptOut_next
    | exact keptOut_notNow
    | exact keptOut_refused
    | dsimp only
    | split

theorem kept_settleXfer {s0 : State} {s : State} {q tag : Nat} (hk0 : Kept s0 s) :
    Kept s0 (settleXfer s q tag) := by
  unfold settleXfer
  try dsimp only
  repeat' first
    | assumption
    | with_reducible apply kept_endOk
    | with_reducible apply kept_endFail
    | (fail_if_no_progress with_reducible refine Kept.lit ?_ rfl rfl rfl rfl rfl rfl)
    | with_reducible refine Kept.fst ?_ (by assumption)
    | with_reducible apply keptOut_next
    | exact keptOut_notNow
    | exact keptOut_refused
    | dsimp only
    | split

theorem kept_pieceBytes {s0 : State} {s : State} {x : Piece} (hk0 : Kept s0 s) :
    Kept s0 (pieceBytes s x).1 := by
  unfold pieceBytes
  try dsimp only
  repeat' first
    | assumption
    | with_reducible apply kept_srcDev
    | (fail_if_no_progress with_reducible refine Kept.lit ?_ rfl rfl rfl rfl rfl rfl)
    | with_reducible refine Kept.fst ?_ (by assumption)
    | with_reducible apply keptOut_next
    | exact keptOut_notNow
    | exact keptOut_refused
    | dsimp only
    | split

theorem kept_sendPiece {s0 : State} {s : State} {x : Piece} (hk0 : Kept s0 s) :
    Kept s0 (sendPiece s x) := by
  unfold sendPiece
  try dsimp only
  repeat' first
    | assumption
    | with_reducible apply kept_sendTracked
    | with_reducible apply kept_addOpFlags
    | with_reducible apply kept_markFail
    | with_reducible apply kept_settleXfer
    | with_reducible apply kept_pieceBytes
    | (fail_if_no_progress with_reducible refine Kept.lit ?_ rfl rfl rfl rfl rfl rfl)
    | with_reducible refine Kept.fst ?_ (by assumption)
    | with_reducible apply keptOut_next
    | exact keptOut_notNow
    | exact keptOut_refused
    | dsimp only
    | split

theorem kept_pumpOne {s0 : State} {s : State} {x : Piece} (hk0 : Kept s0 s) :
    Kept s0 (pumpOne s x) := by
  unfold pumpOne
  try dsimp only
  repeat' first
    | assumption
    | with_reducible apply kept_charge
    | with_reducible apply kept_dropPiece
    | with_reducible apply kept_sendPiece
    | (fail_if_no_progress with_reducible refine Kept.lit ?_ rfl rfl rfl rfl rfl rfl)
    | with_reducible refine Kept.fst ?_ (by assumption)
    | with_reducible apply keptOut_next
    | exact keptOut_notNow
    | exact keptOut_refused
    | dsimp only
    | split

theorem kept_putSent {s0 : State} {s : State} {x : Sent} (hk0 : Kept s0 s) :
    Kept s0 (putSent s x) := by
  unfold putSent
  try dsimp only
  repeat' first
    | assumption
    | with_reducible apply kept_setFab

theorem kept_resendOne {s0 : State} {s : State} {x : Sent} (hk0 : Kept s0 s) :
    Kept s0 (resendOne s x) := by
  unfold resendOne
  try dsimp only
  repeat' first
    | assumption
    | with_reducible apply kept_sendPacket
    | with_reducible apply kept_charge
    | with_reducible apply kept_putSent
    | (fail_if_no_progress with_reducible refine Kept.lit ?_ rfl rfl rfl rfl rfl rfl)
    | with_reducible refine Kept.fst ?_ (by assumption)
    | with_reducible apply keptOut_next
    | exact keptOut_notNow
    | exact keptOut_refused
    | dsimp only
    | split

theorem kept_pump {s0 : State} {s : State} (hk0 : Kept s0 s) :
    Kept s0 (pump s) := by
  unfold pump
  try dsimp only
  repeat' first
    | assumption
    | with_reducible apply kept_pumpOne
    | with_reducible apply kept_resendOne
    | with_reducible apply kept_fold

theorem kept_landGet {s0 : State} {s : State} {o : Op} {a : Nat} {bytes : List Byte} {before after : Bool}
    (hk0 : Kept s0 s) :
    Kept s0 (landGet s o a bytes before after).s := by
  unfold landGet
  try dsimp only
  repeat' first
    | assumption
    | with_reducible apply kept_landAll
    | with_reducible apply kept_srcConst

theorem kept_selfXfer {s0 : State} {put : Bool} {o : Op} {t : XferInfo} :
    ∀ {xs : List (Nat × Nat)} {s : State} {f : BitVec 8}, Kept s0 s → Kept s0 (selfXfer put o t xs s f).s
  | [], _, _, h => h
  | (off, n) :: rest, s, f, h => by
    simp only [selfXfer]
    split
    · have h1 := kept_srcDev (a := fpLocal o + (off - fpOff o)) (off := 0) (n := n) h
      split
      · exact Kept.fst h1 (by assumption)
      · rename_i b e
        have h2 := kept_remoteWrite (src := devId s) (i := fpWin o) (off := off) (mode := fpMode o) (bytes := b) (t := t)
          (Kept.fst h1 e)
        split
        · exact Kept.fst h2 (by assumption)
        · exact kept_selfXfer (Kept.fst h2 (by assumption))
    · have h1 := kept_remoteRead (src := devId s) (i := fpWin o) (off := off) (len := n) (t := t) h
      split
      · exact Kept.fst h1 (by assumption)
      · rename_i s' g b e
        have h2 : Kept s0 (landGet s' o (fpLocal o + (off - fpOff o)) b true false).s := kept_landGet (Kept.fst h1 e)
        split
        · exact h2
        · exact kept_selfXfer h2

theorem kept_ownXfer {s0 s : State} {put : Bool} {t : XferInfo} {o : Op} (hk0 : Kept s0 s) :
    Kept s0 (ownXfer put t s o) := kept_endWith (kept_selfXfer hk0)

theorem kept_issueXfer {s0 s : State} {put : Bool} {t : XferInfo} {o : Op} (hk0 : Kept s0 s) :
    Kept s0 (issueXfer put t s o) := kept_pump (kept_setFab (kept_putOp hk0))

theorem kept_countXfer {s0 s : State} (hk0 : Kept s0 s) : Kept s0 (countXfer s) := kept_setFab hk0

theorem keptOut_beginXfer {s0 : State} {put : Bool} {code : Nat} {r : OpRef} {s : State} (hk0 : Kept s0 s) :
    KeptOut s0 (beginXfer put code r s) := by
  unfold beginXfer
  split
  · trivial
  · split
    · trivial
    · dsimp only
      have h := kept_countXfer hk0
      generalize countXfer s = u at h
      split
      · exact kept_ownXfer h
      · split
        · trivial
        · split
          · exact kept_endFail h
          · split
            · exact kept_endFail h
            · exact kept_issueXfer h

theorem kept_windowOpenBody {s0 : State} {s : State} {o : Op} {u1 : HostReply} (hk0 : Kept s0 s) :
    Kept s0 (windowOpenBody s o u1).s := by
  unfold windowOpenBody
  try dsimp only
  repeat' first
    | assumption
    | with_reducible apply kept_setWindow
    | (fail_if_no_progress with_reducible refine Kept.lit ?_ rfl rfl rfl rfl rfl rfl)
    | with_reducible refine Kept.fst ?_ (by assumption)
    | with_reducible apply keptOut_next
    | exact keptOut_notNow
    | exact keptOut_refused
    | dsimp only
    | split

theorem kept_closeWindow {s0 : State} {s : State} {i : Nat} (hk0 : Kept s0 s) :
    Kept s0 (closeWindow s i) := by
  unfold closeWindow
  try dsimp only
  repeat' first
    | assumption
    | with_reducible apply kept_setWindow
    | with_reducible apply kept_setArrivals

theorem kept_windowCloseBody {s0 : State} {s : State} {o : Op} {u1 : HostReply} (hk0 : Kept s0 s) :
    Kept s0 (windowCloseBody s o u1).s := by
  unfold windowCloseBody
  try dsimp only
  repeat' first
    | assumption
    | with_reducible apply kept_closeWindow

theorem keptOut_freeAfter {s0 : State} {p : Packet} {x : Out} (h : KeptOut s0 x) : KeptOut s0 (freeAfter p x) := by
  unfold freeAfter
  split
  · exact kept_freeBuffer h
  · exact h

theorem keptOut_arrive {s0 : State} {kind : Nat} {p : Packet} {s : State} {take : State → Out} (hk0 : Kept s0 s)
    (ht : ∀ s, Kept s0 s → KeptOut s0 (take s)) : KeptOut s0 (arrive kind p s take) := by
  unfold arrive
  dsimp only
  repeat' split
  · trivial
  · exact kept_freeBuffer (kept_countDiscard hk0)
  · exact kept_sendPacket hk0
  · exact kept_freeBuffer (kept_countDiscard hk0)
  · exact keptOut_freeAfter (ht s hk0)

theorem kept_respond {s0 : State} {s : State} {src txn status body : Nat} (hk0 : Kept s0 s) :
    Kept s0 (respond s src txn status body) := by
  unfold respond
  try dsimp only
  repeat' first
    | assumption
    | with_reducible apply kept_setFab
    | with_reducible apply kept_sendPacket

theorem keptOut_again {s0 : State} {p : Packet} {s : State} {fresh : State → Out} (hk0 : Kept s0 s)
    (ht : ∀ s, Kept s0 s → KeptOut s0 (fresh s)) : KeptOut s0 (again p s fresh) := by
  unfold again
  split
  · exact kept_respond hk0
  · exact ht s hk0

theorem kept_answerTo {s0 : State} {s : State} {h : Nat} {f : BitVec 8} {e : Option Fail} (hk0 : Kept s0 s) :
    Kept s0 (answerTo s h f e) := by
  unfold answerTo
  try dsimp only
  repeat' first
    | assumption
    | with_reducible apply kept_respond
    | (fail_if_no_progress with_reducible refine Kept.lit ?_ rfl rfl rfl rfl rfl rfl)
    | with_reducible refine Kept.fst ?_ (by assumption)
    | with_reducible apply keptOut_next
    | exact keptOut_notNow
    | exact keptOut_refused
    | dsimp only
    | split

theorem kept_dropSent {s0 : State} {s : State} {x : Sent} (hk0 : Kept s0 s) :
    Kept s0 (dropSent s x) := by
  unfold dropSent
  try dsimp only
  repeat' first
    | assumption
    | with_reducible apply kept_setFab

theorem kept_relaySetUp {s0 : State} {s : State} {o : Op} {h : Nat} (hk0 : Kept s0 s) :
    Kept s0 (relaySetUp s o h) := by
  unfold relaySetUp
  try dsimp only
  repeat' first
    | assumption
    | with_reducible apply kept_endOk
    | with_reducible apply kept_endFail
    | with_reducible apply kept_setFab
    | with_reducible apply kept_announce
    | (fail_if_no_progress with_reducible refine Kept.lit ?_ rfl rfl rfl rfl rfl rfl)
    | with_reducible refine Kept.fst ?_ (by assumption)
    | with_reducible apply keptOut_next
    | exact keptOut_notNow
    | exact keptOut_refused
    | dsimp only
    | split

theorem kept_relayAnswered {s0 : State} {s : State} {x : Sent} {h : Nat} (hk0 : Kept s0 s) :
    Kept s0 (relayAnswered s x h) := by
  unfold relayAnswered
  try dsimp only
  repeat' first
    | assumption
    | with_reducible apply kept_setRelay
    | with_reducible apply kept_giveReply
    | with_reducible apply kept_relayLog
    | (fail_if_no_progress with_reducible refine Kept.lit ?_ rfl rfl rfl rfl rfl rfl)
    | with_reducible refine Kept.fst ?_ (by assumption)
    | with_reducible apply keptOut_next
    | exact keptOut_notNow
    | exact keptOut_refused
    | dsimp only
    | split

theorem kept_relayAsk {s0 s : State} {o : Op} (hk0 : Kept s0 s) : Kept s0 (relayAsk s o) :=
  kept_sendTracked (kept_putOp hk0)

theorem kept_relayStop {s0 s : State} {o : Op} {x : Relay} (hk0 : Kept s0 s) : Kept s0 (relayStop s o x) :=
  kept_endOk (kept_announce (kept_setFab (kept_sendControl hk0)))

theorem keptOut_relayCommand {s0 : State} {p : Packet} {s : State} {dq sq : Nat} (hk0 : Kept s0 s) :
    KeptOut s0 (relayCommand p s dq sq) := by
  unfold relayCommand
  try dsimp only
  repeat' first
    | assumption
    | with_reducible apply kept_modQ
    | with_reducible apply kept_setFab
    | with_reducible apply kept_logRemote
    | with_reducible apply kept_respond
    | with_reducible apply keptOut_again
    | (fail_if_no_progress with_reducible refine Kept.lit ?_ rfl rfl rfl rfl rfl rfl)
    | with_reducible refine Kept.fst ?_ (by assumption)
    | with_reducible apply keptOut_next
    | exact keptOut_notNow
    | exact keptOut_refused
    | dsimp only
    | split
    | intro _

theorem kept_releaseCopies {s0 : State} {s : State} {q n : Nat} (hk0 : Kept s0 s) :
    Kept s0 (releaseCopies s q n) := by
  unfold releaseCopies
  try dsimp only
  repeat' first
    | assumption
    | with_reducible apply kept_sendControl
    | with_reducible apply kept_setRelay
    | (fail_if_no_progress with_reducible refine Kept.lit ?_ rfl rfl rfl rfl rfl rfl)
    | with_reducible refine Kept.fst ?_ (by assumption)
    | with_reducible apply keptOut_next
    | exact keptOut_notNow
    | exact keptOut_refused
    | dsimp only
    | split

theorem kept_endToward {s0 : State} {s : State} {p : Nat → Bool} {f : Fail → Fail} {code : Nat} (hk0 : Kept s0 s) :
    Kept s0 (endToward s p f code) := by
  unfold endToward
  try dsimp only
  repeat' first
    | assumption
    | with_reducible apply kept_setFab
    | with_reducible apply kept_failFabricOp
    | with_reducible apply kept_failColl
    | with_reducible apply kept_failRelay
    | with_reducible apply kept_fold
    | with_reducible apply kept_fold_fst
    | with_reducible apply kept_fold_as
    | with_reducible apply kept_fold_s
    | with_reducible apply kept_fold_land
    | (fail_if_no_progress with_reducible refine Kept.lit ?_ rfl rfl rfl rfl rfl rfl)
    | with_reducible refine Kept.fst ?_ (by assumption)
    | with_reducible apply keptOut_next
    | exact keptOut_notNow
    | exact keptOut_refused
    | dsimp only
    | split
    | intro _

theorem kept_giveUp {s0 : State} {s : State} {x : Sent} (hk0 : Kept s0 s) :
    Kept s0 (giveUp s x) := by
  unfold giveUp
  try dsimp only
  repeat' first
    | assumption
    | with_reducible apply kept_setRelay
    | with_reducible apply kept_giveReply
    | with_reducible apply kept_relayLog
    | with_reducible apply kept_failFabricOp
    | with_reducible apply kept_failColl
    | with_reducible apply kept_dropSent
    | (fail_if_no_progress with_reducible refine Kept.lit ?_ rfl rfl rfl rfl rfl rfl)
    | with_reducible refine Kept.fst ?_ (by assumption)
    | with_reducible apply keptOut_next
    | exact keptOut_notNow
    | exact keptOut_refused
    | dsimp only
    | split

theorem kept_putColl {s0 : State} {s : State} {c : Coll} (hk0 : Kept s0 s) :
    Kept s0 (putColl s c) := by
  unfold putColl
  try dsimp only
  repeat' first
    | assumption
    | with_reducible apply kept_setFab

theorem kept_dropColl {s0 : State} {s : State} {c : Coll} (hk0 : Kept s0 s) :
    Kept s0 (dropColl s c) := by
  unfold dropColl
  try dsimp only
  repeat' first
    | assumption
    | with_reducible apply kept_setFab

theorem kept_refuseColl {s0 : State} {s : State} {c : Coll} {e : Fail} (hk0 : Kept s0 s) :
    Kept s0 (refuseColl s c e) := by
  unfold refuseColl
  try dsimp only
  repeat' first
    | assumption
    | with_reducible apply kept_vlogAdd
    | with_reducible apply kept_failColl
    | (fail_if_no_progress with_reducible refine Kept.lit ?_ rfl rfl rfl rfl rfl rfl)
    | with_reducible refine Kept.fst ?_ (by assumption)
    | with_reducible apply keptOut_next
    | exact keptOut_notNow
    | exact keptOut_refused
    | dsimp only
    | split

theorem kept_outcomeOf {s0 : State} {s : State} {o : Op} {t : List (List (List Conv))} (hk0 : Kept s0 s) :
    Kept s0 (outcomeOf s o t).s := by
  unfold outcomeOf
  try dsimp only
  repeat' first
    | assumption

theorem kept_arPrepare {s0 : State} {s : State} {c : Coll} {o : Op} (hk0 : Kept s0 s) :
    Kept s0 (arPrepare s c o).1 := by
  unfold arPrepare
  try dsimp only
  repeat' first
    | assumption
    | with_reducible apply kept_writeAll
    | with_reducible apply kept_outcomeOf
    | (fail_if_no_progress with_reducible refine Kept.lit ?_ rfl rfl rfl rfl rfl rfl)
    | with_reducible refine Kept.fst ?_ (by assumption)
    | with_reducible apply keptOut_next
    | exact keptOut_notNow
    | exact keptOut_refused
    | dsimp only
    | split

theorem kept_stagedWrites {s0 : State} {s : State} {c : Coll} {o : Op} (hk0 : Kept s0 s) :
    Kept s0 (stagedWrites s c o).1 := by
  unfold stagedWrites
  try dsimp only
  repeat' first
    | assumption
    | with_reducible apply kept_readAll
    | (fail_if_no_progress with_reducible refine Kept.lit ?_ rfl rfl rfl rfl rfl rfl)
    | with_reducible refine Kept.fst ?_ (by assumption)
    | with_reducible apply keptOut_next
    | exact keptOut_notNow
    | exact keptOut_refused
    | dsimp only
    | split

theorem kept_dispatchPrepare {s0 : State} {s : State} {c : Coll} {o : Op} (hk0 : Kept s0 s) :
    Kept s0 (dispatchPrepare s c o).1 := by
  unfold dispatchPrepare
  try dsimp only
  repeat' first
    | assumption
    | (fail_if_no_progress with_reducible refine Kept.lit ?_ rfl rfl rfl rfl rfl rfl)
    | with_reducible refine Kept.fst ?_ (by assumption)
    | with_reducible apply keptOut_next
    | exact keptOut_notNow
    | exact keptOut_refused
    | dsimp only
    | split

theorem kept_combinePrepare {s0 : State} {s : State} {c : Coll} {o : Op} (hk0 : Kept s0 s) :
    Kept s0 (combinePrepare s c o).1 := by
  unfold combinePrepare
  try dsimp only
  repeat' first
    | assumption
    | with_reducible apply kept_outcomeOf
    | (fail_if_no_progress with_reducible refine Kept.lit ?_ rfl rfl rfl rfl rfl rfl)
    | with_reducible refine Kept.fst ?_ (by assumption)
    | with_reducible apply keptOut_next
    | exact keptOut_notNow
    | exact keptOut_refused
    | dsimp only
    | split

theorem kept_prepare {s0 : State} {s : State} {c : Coll} {o : Op} (hk0 : Kept s0 s) :
    Kept s0 (prepare s c o).1 := by
  unfold prepare
  try dsimp only
  repeat' first
    | assumption
    | with_reducible apply kept_arPrepare
    | with_reducible apply kept_dispatchPrepare
    | with_reducible apply kept_combinePrepare
    | (fail_if_no_progress with_reducible refine Kept.lit ?_ rfl rfl rfl rfl rfl rfl)
    | with_reducible refine Kept.fst ?_ (by assumption)
    | with_reducible apply keptOut_next
    | exact keptOut_notNow
    | exact keptOut_refused
    | dsimp only
    | split

theorem kept_commitColl {s0 : State} {s : State} {c : Coll} (hk0 : Kept s0 s) :
    Kept s0 (commitColl s c) := by
  unfold commitColl
  try dsimp only
  repeat' first
    | assumption
    | with_reducible apply kept_writeAll
    | with_reducible apply kept_collCast
    | with_reducible apply kept_putColl
    | with_reducible apply kept_refuseColl
    | with_reducible apply kept_stagedWrites
    | (fail_if_no_progress with_reducible refine Kept.lit ?_ rfl rfl rfl rfl rfl rfl)
    | with_reducible refine Kept.fst ?_ (by assumption)
    | with_reducible apply keptOut_next
    | exact keptOut_notNow
    | exact keptOut_refused
    | dsimp only
    | split

theorem kept_endColl {s0 : State} {s : State} {c : Coll} (hk0 : Kept s0 s) :
    Kept s0 (endColl s c) := by
  unfold endColl
  try dsimp only
  repeat' first
    | assumption
    | with_reducible apply kept_endOk
    | with_reducible apply kept_updAmax
    | with_reducible apply kept_dropColl
    | (fail_if_no_progress with_reducible refine Kept.lit ?_ rfl rfl rfl rfl rfl rfl)
    | with_reducible refine Kept.fst ?_ (by assumption)
    | with_reducible apply keptOut_next
    | exact keptOut_notNow
    | exact keptOut_refused
    | dsimp only
    | split

theorem kept_advanceColl {s0 : State} {q tag : Nat} : ∀ {n : Nat} {s : State}, Kept s0 s → Kept s0
    (advanceColl q tag n s)
  | 0, _, h => h
  | n + 1, s, h => by
    simp only [advanceColl]
    split
    · rename_i c o _ _
      split
      · split
        · exact h
        · split
          · exact kept_endColl h
          · have h1 := kept_prepare (c := c) (o := o) h
            split
            · exact kept_refuseColl (Kept.fst h1 (by assumption))
            · refine kept_advanceColl ?_
              split
              · exact kept_putColl (Kept.fst h1 (by assumption))
              · exact kept_collSend (kept_putColl (Kept.fst h1 (by assumption)))
      · split
        · split
          · exact kept_advanceColl (kept_commitColl (kept_collCast h))
          · exact h
        · split
          · exact kept_endColl h
          · exact h
    · exact h

theorem kept_collTake {s0 : State} {s : State} {c : Coll} {m : CollMsg} (hk0 : Kept s0 s) :
    Kept s0 (collTake s c m) := by
  unfold collTake
  try dsimp only
  repeat' first
    | assumption
    | with_reducible apply kept_Land_count
    | with_reducible apply kept_failColl
    | with_reducible apply kept_putColl
    | with_reducible apply kept_refuseColl
    | with_reducible apply kept_commitColl
    | (fail_if_no_progress with_reducible refine Kept.lit ?_ rfl rfl rfl rfl rfl rfl)
    | with_reducible refine Kept.fst ?_ (by assumption)
    | with_reducible apply keptOut_next
    | exact keptOut_notNow
    | exact keptOut_refused
    | dsimp only
    | split

theorem kept_collDeliver {s0 : State} {s : State} {m : CollMsg} (hk0 : Kept s0 s) :
    Kept s0 (collDeliver s m) := by
  unfold collDeliver
  try dsimp only
  repeat' first
    | assumption
    | with_reducible apply kept_setFab
    | with_reducible apply kept_advanceColl
    | with_reducible apply kept_collTake
    | (fail_if_no_progress with_reducible refine Kept.lit ?_ rfl rfl rfl rfl rfl rfl)
    | with_reducible refine Kept.fst ?_ (by assumption)
    | with_reducible apply keptOut_next
    | exact keptOut_notNow
    | exact keptOut_refused
    | dsimp only
    | split

theorem kept_takeInbox {s0 : State} {s : State} (hk0 : Kept s0 s) :
    Kept s0 (takeInbox s) := by
  unfold takeInbox
  try dsimp only
  repeat' first
    | assumption
    | with_reducible apply kept_setFab
    | with_reducible apply kept_collDeliver
    | with_reducible apply kept_fold

theorem kept_contribute {s0 : State} {s : State} {c : Coll} {bs : List Byte} (hk0 : Kept s0 s) :
    Kept s0 (contribute s c bs) := by
  unfold contribute
  try dsimp only
  repeat' first
    | assumption
    | with_reducible apply kept_collCast
    | with_reducible apply kept_putColl
    | with_reducible apply kept_advanceColl
    | with_reducible apply kept_takeInbox
    | with_reducible apply kept_fold
    | with_reducible apply kept_fold_fst
    | with_reducible apply kept_fold_as
    | with_reducible apply kept_fold_s
    | with_reducible apply kept_fold_land
    | (fail_if_no_progress with_reducible refine Kept.lit ?_ rfl rfl rfl rfl rfl rfl)
    | with_reducible refine Kept.fst ?_ (by assumption)
    | with_reducible apply keptOut_next
    | exact keptOut_notNow
    | exact keptOut_refused
    | dsimp only
    | split
    | intro _

theorem kept_startColl {s0 : State} {s : State} {o : Op} {kind members : Nat} {summary : List Nat}
    {reads : List (Nat × Nat)} {own : State → Except Fail (List Byte)} (hk0 : Kept s0 s) :
    Kept s0 (startColl s o kind members summary reads own) := by
  unfold startColl
  extract_lets me at_ c s1 fb s2 others
  have h2 : Kept s0 s2 := kept_setFab (kept_putOp hk0)
  split
  · exact kept_failColl h2
  · split
    · exact kept_refuseColl h2
    · have h3 := kept_readAll (rs := reads) h2
      split
      · exact kept_refuseColl (Kept.fst h3 (by assumption))
      · have h4 : Kept s0 _ := Kept.fst h3 (by assumption)
        split
        · exact kept_refuseColl h4
        · exact kept_contribute (kept_addOpFlags h4)

theorem keptOut_runColl {s0 : State} {code : Nat} {want : Op → Bool} {go : State → Op → State} {r : OpRef} {s : State}
    (hk0 : Kept s0 s) (hg : ∀ s o, Kept s0 s → Kept s0 (go s o)) : KeptOut s0 (runColl code want go r s) := by
  unfold runColl
  split
  · split
    · exact kept_pump (hg _ _ hk0)
    · trivial
  · trivial

theorem kept_goAllreduce {s0 : State} {s : State} {o : Op} (hk0 : Kept s0 s) : Kept s0 (goAllreduce s o) := by
  unfold goAllreduce
  exact kept_startColl hk0

theorem kept_goDispatch {s0 : State} {s : State} {o : Op} (hk0 : Kept s0 s) : Kept s0 (goDispatch s o) := by
  unfold goDispatch
  exact kept_startColl hk0

theorem kept_goCombine {s0 : State} {s : State} {o : Op} (hk0 : Kept s0 s) : Kept s0 (goCombine s o) := by
  unfold goCombine
  exact kept_startColl hk0

theorem kept_goBarrier {s0 : State} {s : State} {o : Op} (hk0 : Kept s0 s) : Kept s0 (goBarrier s o) := by
  unfold goBarrier
  exact kept_startColl hk0

theorem kept_onlyEnds {s0 : State} {s : State} {u1 : Op} {u2 : HostReply} (hk0 : Kept s0 s) :
    Kept s0 (onlyEnds s u1 u2).s := by
  unfold onlyEnds
  try dsimp only
  repeat' first
    | assumption

end Sys2Proof.Machine
end

