-- ==== Sys2Proof/Laws/KeptManage.lean ====
section
/-!
SUPPORT. What management, power and snapshots keep.
-/

namespace Sys2Proof.Machine

theorem tget_tput_other {α : Type} [DecidableEq α] (d v : α) {k j : Nat} (h : k ≠ j) (t : SMap α) :
    tget d (tput d t k v) j = tget d t j := (tget_tput d v k j t).trans (if_neg h)

theorem kept_storeKeep {s0 : State} {s : State} {i : Nat} {v : BitVec 32} (hk0 : Kept s0 s)
    (hi : ShadowSpares s0 → i = 1 → (keepReg s 1).toNat ≤ v.toNat) : Kept s0 (storeKeep s i v) := by
  unfold storeKeep
  split
  · exact hk0
  · rename_i hc
    simp only [Bool.or_eq_true, not_or, beq_iff_eq, keepLocked, decide_eq_true_eq] at hc
    have hw : ∀ j, keepWear { s with firm := { s.firm with
        keep := tput 0#32 s.firm.keep i v, wear := tput 0 s.firm.wear i (keepWear s i + 1) } } j =
        if i = j then keepWear s i + 1 else keepWear s j := by
      intro j
      show tget 0 (tput 0 s.firm.wear i (keepWear s i + 1)) j = _
      split
      · subst j; exact tget_tput_ne _ _ _ _ (by omega)
      · exact tget_tput_other _ _ (by assumption) _
    have hr : ∀ j, i ≠ j → keepReg { s with firm := { s.firm with
        keep := tput 0#32 s.firm.keep i v, wear := tput 0 s.firm.wear i (keepWear s i + 1) } } j = keepReg s j :=
      fun j hj => tget_tput_other _ _ hj _
    refine ⟨hk0.dev, hk0.host, ?_, ?_, hk0.spares, ?_, hk0.pending⟩
    · intro j
      rw [hw]
      have := hk0.wear j
      split
      · subst j; omega
      · exact this
    · intro j hj
      rw [hw]
      by_cases h : i = j
      · subst j
        have := hk0.wear i
        simp; omega
      · rw [hr j h] at hj
        have := hk0.worn j hj
        simp [h]; exact this
    · intro hs
      have h1 := hk0.version hs
      by_cases h : i = 1
      · subst i
        have h2 := hi hs rfl
        have hv : v ≠ 0#32 := by
          intro e
          apply hc.2
          apply BitVec.eq_of_toNat_eq
          rw [e] at h2 ⊢
          simp at h2 ⊢
          omega
        have : keepReg { s with firm := { s.firm with
            keep := tput 0#32 s.firm.keep 1 v, wear := tput 0 s.firm.wear 1 (keepWear s 1 + 1) } } 1 = v :=
          tget_tput_ne _ _ _ _ hv
        rw [this]; omega
      · rw [hr 1 h]; exact h1

theorem kept_fold_mem {α : Type} {s0 s : State} {f : State → α → State} (l : List α) (h : Kept s0 s)
    (hf : ∀ s x, x ∈ l → Kept s0 s → Kept s0 (f s x)) : Kept s0 (l.foldl f s) := by
  induction l generalizing s with
  | nil => exact h
  | cons x r ih =>
    exact ih (hf s x List.mem_cons_self h) fun s y hy => hf s y (List.mem_cons_of_mem _ hy)

theorem kept_retrainPorts {s0 : State} {s : State} {old : BitVec 32} (hk0 : Kept s0 s) :
    Kept s0 (retrainPorts s old) := by
  unfold retrainPorts
  try dsimp only
  repeat' first
    | assumption
    | with_reducible apply kept_startTraining
    | with_reducible apply kept_fold
    | with_reducible apply kept_fold_fst
    | with_reducible apply kept_fold_as
    | with_reducible apply kept_fold_s
    | with_reducible apply kept_fold_land
    | (fail_if_no_progress with_reducible refine Kept.lit ?_ rfl rfl rfl rfl rfl rfl)
    | with_reducible refine Kept.fst ?_ (by assumption)
    | with_reducible apply keptOut_next
    | exact keptOut_notNow
    | exact keptOut_refused
    | dsimp only
    | split
    | intro _

theorem kept_keepWrite {s0 s t : State} {i : Nat} {v : BitVec 32} (hk0 : Kept s0 s) (h : keepWrite s i v = .ok t) :
    Kept s0 t := by
  unfold keepWrite at h
  dsimp only at h
  split at h
  · cases h
  · split at h
    · cases h
    · split at h
      · cases h
      · rename_i hc _
        have h1 : Kept s0 (storeKeep s i (v &&& keepMask i)) := by
          refine kept_storeKeep hk0 fun _ e => ?_
          subst e
          by_cases e : v &&& keepMask 1 = keepReg s 1
          · rw [e]
          · simp [e] at hc; simpa using hc.1
        cases h
        split
        · exact kept_retrainPorts h1
        · exact h1

theorem kept_setFirm {s0 : State} {s : State} {f : Firm} (hk0 : Kept s0 s) (hk : f.keep = s.firm.keep)
    (hw : f.wear = s.firm.wear) (hs : f.shadow = s.firm.shadow) : Kept s0 (setFirm s f) :=
  hk0.same rfl rfl hk hw hs rfl

theorem kept_pushRecord {s0 : State} {s : State} {r : JRecord} (hk0 : Kept s0 s) :
    Kept s0 (pushRecord s r) := by
  unfold pushRecord
  try dsimp only
  repeat' first
    | assumption
    | with_reducible apply kept_setFirm
    | rfl

theorem kept_writeRecord {s0 : State} {s : State} {f : Journal → Journal} (hk0 : Kept s0 s) :
    Kept s0 (writeRecord s f) := by
  unfold writeRecord
  try dsimp only
  repeat' first
    | assumption
    | with_reducible apply kept_pushRecord

theorem kept_enterPhase {s0 : State} {s : State} {p : JPhase} (hk0 : Kept s0 s) :
    Kept s0 (enterPhase s p) := by
  unfold enterPhase
  try dsimp only
  repeat' first
    | assumption
    | with_reducible apply kept_writeRecord

theorem kept_tearRecord {s0 : State} {s : State} (hk0 : Kept s0 s) :
    Kept s0 (tearRecord s) := by
  unfold tearRecord
  try dsimp only
  repeat' first
    | assumption
    | with_reducible apply kept_pushRecord
    | (fail_if_no_progress with_reducible refine Kept.lit ?_ rfl rfl rfl rfl rfl rfl)
    | with_reducible refine Kept.fst ?_ (by assumption)
    | with_reducible apply keptOut_next
    | exact keptOut_notNow
    | exact keptOut_refused
    | dsimp only
    | split

theorem kept_stageBlock {s0 s t : State} {block : Nat} {data : List Byte} {src kind : Nat} (hk0 : Kept s0 s)
    (h : stageBlock s block data src kind = some t) : Kept s0 t := by
  unfold stageBlock at h
  dsimp only at h
  split at h
  · cases h
  · split at h
    · split at h
      · cases h; exact hk0.same rfl rfl rfl rfl rfl rfl
      · cases h
    · split at h
      · cases h
      · cases h; exact hk0.same rfl rfl rfl rfl rfl rfl

theorem kept_noShadow {s0 s t : State} (h : Kept s0 s) (hm : t.mems = s.mems) (hk : t.firm.keep = s.firm.keep)
    (hw : t.firm.wear = s.firm.wear) (hs : ShadowSpares s0 → ShadowSpares t) (hp : t.pending = s.pending) : Kept s0 t where
  dev := by rw [hm]; exact h.dev
  host := by rw [hm]; exact h.host
  wear := fun i => by have := h.wear i; unfold keepWear at *; rw [hw]; exact this
  worn := fun i x => by
    have : keepReg t i = keepReg s i := by unfold keepReg; rw [hk]
    rw [this] at x
    have := h.worn i x
    have e : keepWear t i = keepWear s i := by unfold keepWear; rw [hw]
    rw [e]; exact this
  spares := hs
  version := fun x => by have := h.version x; unfold keepReg at *; rw [hk]; exact this
  pending := hp.trans h.pending

theorem kept_restoreKeeps {s0 : State} {s : State} (hk0 : Kept s0 s) : Kept s0 (restoreKeeps s) := by
  unfold restoreKeeps
  split
  · exact hk0
  · rename_i vs hs
    have hf : Kept s0 (vs.foldl (fun s p => storeKeep s p.1 p.2) s) :=
      kept_fold_mem vs hk0 fun s' p hp h => kept_storeKeep h fun x e => absurd e (hk0.spares x vs hs p hp)
    exact kept_noShadow hf rfl rfl rfl (fun _ vs h => by cases h) rfl

theorem kept_restoreImage {s0 : State} {s : State} {wdog : Bool} (hk0 : Kept s0 s) :
    Kept s0 (restoreImage s wdog) := by
  unfold restoreImage
  try dsimp only
  repeat' first
    | assumption
    | with_reducible apply kept_setFirm
    | with_reducible apply kept_writeRecord
    | with_reducible apply kept_restoreKeeps
    | rfl
    | (fail_if_no_progress with_reducible refine Kept.lit ?_ rfl rfl rfl rfl rfl rfl)
    | with_reducible refine Kept.fst ?_ (by assumption)
    | with_reducible apply keptOut_next
    | exact keptOut_notNow
    | exact keptOut_refused
    | dsimp only
    | split

theorem kept_readBackRow {s0 : State} {s : State} {readBack : Bool} (hk0 : Kept s0 s) :
    Kept s0 (readBackRow s readBack).1 := by
  unfold readBackRow
  try dsimp only
  repeat' first
    | assumption
    | with_reducible apply kept_enterPhase
    | with_reducible apply kept_restoreImage
    | (fail_if_no_progress with_reducible refine Kept.lit ?_ rfl rfl rfl rfl rfl rfl)
    | with_reducible refine Kept.fst ?_ (by assumption)
    | with_reducible apply keptOut_next
    | exact keptOut_notNow
    | exact keptOut_refused
    | dsimp only
    | split

theorem kept_commitRow {s0 : State} {s : State} (hk0 : Kept s0 s) :
    Kept s0 (commitRow s) := by
  unfold commitRow
  try dsimp only
  repeat' first
    | assumption
    | with_reducible apply kept_setFirm
    | with_reducible apply kept_enterPhase
    | rfl

theorem kept_activateStep {s0 : State} {s : State} {readBack : Bool} (hk0 : Kept s0 s) :
    Kept s0 (activateStep s readBack).1 := by
  unfold activateStep
  try dsimp only
  repeat' first
    | assumption
    | with_reducible apply kept_setFirm
    | with_reducible apply kept_writeRecord
    | with_reducible apply kept_enterPhase
    | with_reducible apply kept_readBackRow
    | with_reducible apply kept_commitRow
    | rfl
    | (fail_if_no_progress with_reducible refine Kept.lit ?_ rfl rfl rfl rfl rfl rfl)
    | with_reducible refine Kept.fst ?_ (by assumption)
    | with_reducible apply keptOut_next
    | exact keptOut_notNow
    | exact keptOut_refused
    | dsimp only
    | split

theorem kept_activateBoth {s0 : State} {s : State} {readBack : Bool} (hk0 : Kept s0 s) :
    Kept s0 (activateBoth s readBack).1 := by
  unfold activateBoth
  try dsimp only
  repeat' first
    | assumption
    | with_reducible apply kept_setFirm
    | with_reducible apply kept_writeRecord
    | with_reducible apply kept_readBackRow
    | with_reducible apply kept_commitRow
    | rfl
    | (fail_if_no_progress with_reducible refine Kept.lit ?_ rfl rfl rfl rfl rfl rfl)
    | with_reducible refine Kept.fst ?_ (by assumption)
    | with_reducible apply keptOut_next
    | exact keptOut_notNow
    | exact keptOut_refused
    | dsimp only
    | split

theorem kept_confirmBody {s0 : State} {s : State} (hk0 : Kept s0 s) : Kept s0 (confirmBody s).1 := by
  unfold confirmBody
  split
  · exact hk0
  · split
    · exact hk0
    · split
      · exact hk0
      · split
        · exact hk0
        · extract_lets s1 j s2
          have h1 : Kept s0 s1 := by
            by_cases hc : (keepReg s 1).toNat < runSecVer s
            · have e : s1 = storeKeep s 1 (BitVec.ofNat 32 (runSecVer s)) := if_pos hc
              rw [e]
              refine kept_storeKeep hk0 fun _ _ => ?_
              have : runSecVer s < 2 ^ 32 := Nat.mod_lt _ (by decide)
              rw [BitVec.toNat_ofNat, Nat.mod_eq_of_lt this]
              omega
            · have e : s1 = s := if_neg hc
              rw [e]; exact hk0
          exact kept_noShadow h1 rfl rfl rfl (fun _ vs h => by cases h) rfl

theorem kept_storeLayout {s0 : State} {s : State} {new : Nat} (hk0 : Kept s0 s) : Kept s0 (storeLayout s new) := by
  refine kept_storeKeep (kept_fold_mem _ hk0 fun t i hi h => kept_storeKeep h fun _ e => ?_) fun _ e => by cases e
  subst e
  simp at hi

theorem kept_takeShadow {s0 : State} {old s : State} (hk0 : Kept s0 s) : Kept s0 (takeShadow old s) := by
  refine kept_noShadow hk0 rfl rfl rfl ?_ rfl
  intro _ vs hv p hp
  have : some (layoutKeeps.map fun i => (i, keepReg old i)) = some vs := hv
  cases this
  simp only [layoutKeeps, List.mem_map, List.mem_cons, List.mem_range] at hp
  obtain ⟨i, hi, rfl⟩ := hp
  rcases hi with rfl | ⟨j, _, rfl⟩
  · simp
  · simp

theorem kept_migrate {s0 : State} {s : State} (hk0 : Kept s0 s) : Kept s0 (migrate s) := by
  unfold migrate
  extract_lets new
  split
  · exact hk0
  · exact kept_takeShadow (kept_storeLayout hk0)

theorem kept_firstStart {s0 : State} {s : State} (hk0 : Kept s0 s) :
    Kept s0 (firstStart s) := by
  unfold firstStart
  try dsimp only
  repeat' first
    | assumption
    | with_reducible apply kept_setFirm
    | with_reducible apply kept_writeRecord
    | rfl
    | (fail_if_no_progress with_reducible refine Kept.lit ?_ rfl rfl rfl rfl rfl rfl)

theorem kept_actOnPhase {s0 : State} {s : State} {awaited : Bool} (hk0 : Kept s0 s) :
    Kept s0 (actOnPhase s awaited) := by
  unfold actOnPhase
  try dsimp only
  repeat' first
    | assumption
    | with_reducible apply kept_writeRecord
    | with_reducible apply kept_enterPhase
    | with_reducible apply kept_restoreImage
    | with_reducible apply kept_firstStart
    | (fail_if_no_progress with_reducible refine Kept.lit ?_ rfl rfl rfl rfl rfl rfl)
    | with_reducible refine Kept.fst ?_ (by assumption)
    | with_reducible apply keptOut_next
    | exact keptOut_notNow
    | exact keptOut_refused
    | dsimp only
    | split

theorem kept_loaderStart {s0 : State} {s : State} (hk0 : Kept s0 s) :
    Kept s0 (loaderStart s) := by
  unfold loaderStart
  try dsimp only
  repeat' first
    | assumption
    | with_reducible apply kept_setFirm
    | with_reducible apply kept_restoreImage
    | with_reducible apply kept_migrate
    | with_reducible apply kept_actOnPhase
    | rfl
    | (fail_if_no_progress with_reducible refine Kept.lit ?_ rfl rfl rfl rfl rfl rfl)
    | with_reducible refine Kept.fst ?_ (by assumption)
    | with_reducible apply keptOut_next
    | exact keptOut_notNow
    | exact keptOut_refused
    | dsimp only
    | split

theorem kept_noteBase {s0 : State} {s : State} (hk0 : Kept s0 s) :
    Kept s0 (noteBase s) := by
  unfold noteBase
  try dsimp only
  repeat' first
    | assumption
    | with_reducible apply kept_writeRecord
    | (fail_if_no_progress with_reducible refine Kept.lit ?_ rfl rfl rfl rfl rfl rfl)
    | with_reducible refine Kept.fst ?_ (by assumption)
    | with_reducible apply keptOut_next
    | exact keptOut_notNow
    | exact keptOut_refused
    | dsimp only
    | split

theorem kept_markLost {s0 : State} {s : State} {i : Nat} (hk0 : Kept s0 s) :
    Kept s0 (markLost s i) := by
  unfold markLost
  try dsimp only
  repeat' first
    | assumption
    | (fail_if_no_progress with_reducible refine Kept.lit ?_ rfl rfl rfl rfl rfl rfl)
    | with_reducible refine Kept.fst ?_ (by assumption)
    | with_reducible apply keptOut_next
    | exact keptOut_notNow
    | exact keptOut_refused
    | dsimp only
    | split

theorem kept_loseSpindle {s0 : State} {s : State} {i : Nat} (hk0 : Kept s0 s) :
    Kept s0 (loseSpindle s i) := by
  unfold loseSpindle
  try dsimp only
  repeat' first
    | assumption
    | with_reducible apply kept_setSpindle
    | with_reducible apply kept_markLost

theorem kept_autoReport {s0 : State} {s : State} {l : Nat} (hk0 : Kept s0 s) :
    Kept s0 (autoReport s l) := by
  unfold autoReport
  try dsimp only
  repeat' first
    | assumption
    | with_reducible apply kept_setDevEvent
    | with_reducible apply kept_vlogAdd

theorem kept_fenceLathe {s0 : State} {s : State} {l : Nat} {auto : Bool} (hk0 : Kept s0 s) :
    Kept s0 (fenceLathe s l auto) := by
  unfold fenceLathe
  split
  · exact hk0
  · dsimp only
    refine kept_abortOps (kept_fold _ ?_ fun _ _ h => kept_loseSpindle h)
    split
    · exact kept_autoReport (hk0.same rfl rfl rfl rfl rfl rfl)
    · exact hk0.same rfl rfl rfl rfl rfl rfl

theorem kept_fenceSpindle {s0 : State} {s : State} {i : Nat} {auto : Bool} (hk0 : Kept s0 s) :
    Kept s0 (fenceSpindle s i auto) := by
  unfold fenceSpindle
  try dsimp only
  repeat' first
    | assumption
    | with_reducible apply kept_abortOps
    | with_reducible apply kept_loseSpindle
    | with_reducible apply kept_autoReport
    | with_reducible apply kept_fenceLathe
    | (fail_if_no_progress with_reducible refine Kept.lit ?_ rfl rfl rfl rfl rfl rfl)
    | with_reducible refine Kept.fst ?_ (by assumption)
    | with_reducible apply keptOut_next
    | exact keptOut_notNow
    | exact keptOut_refused
    | dsimp only
    | split

theorem kept_zeroBench {s0 : State} {s : State} {l : Nat} (hk0 : Kept s0 s) : Kept s0 (zeroBench s l) :=
  hk0.devMem (fun h => memWf_memClear _ _ h) rfl rfl rfl rfl rfl

theorem kept_zeroAll {s0 : State} {s : State} (hk0 : Kept s0 s) : Kept s0 (zeroAll s) :=
  hk0.devMem (fun h => memWf_memClear _ _ h) rfl rfl rfl rfl rfl

theorem kept_selfTest {s0 : State} {s : State} {st : StartIn} (hk0 : Kept s0 s) :
    Kept s0 (selfTest s st) := by
  unfold selfTest
  try dsimp only
  repeat' first
    | assumption
    | with_reducible apply kept_fenceLathe
    | with_reducible apply kept_fenceSpindle
    | with_reducible apply kept_zeroAll
    | with_reducible apply kept_fold
    | with_reducible apply kept_fold_fst
    | with_reducible apply kept_fold_as
    | with_reducible apply kept_fold_s
    | with_reducible apply kept_fold_land
    | (fail_if_no_progress with_reducible refine Kept.lit ?_ rfl rfl rfl rfl rfl rfl)
    | with_reducible refine Kept.fst ?_ (by assumption)
    | with_reducible apply keptOut_next
    | exact keptOut_notNow
    | exact keptOut_refused
    | dsimp only
    | split
    | intro _

theorem kept_fenceBody {s0 : State} {s : State} {o : Op} {u1 : HostReply} (hk0 : Kept s0 s) :
    Kept s0 (fenceBody s o u1).s := by
  unfold fenceBody
  try dsimp only
  repeat' first
    | assumption
    | with_reducible apply kept_fenceLathe
    | with_reducible apply kept_fenceSpindle
    | (fail_if_no_progress with_reducible refine Kept.lit ?_ rfl rfl rfl rfl rfl rfl)
    | with_reducible refine Kept.fst ?_ (by assumption)
    | with_reducible apply keptOut_next
    | exact keptOut_notNow
    | exact keptOut_refused
    | dsimp only
    | split

theorem kept_unfence {s0 : State} {s : State} {lathe : Bool} {u : Nat} (hk0 : Kept s0 s) :
    Kept s0 (unfence s lathe u) := by
  unfold unfence
  try dsimp only
  repeat' first
    | assumption
    | with_reducible apply kept_setSpindle
    | with_reducible apply kept_setUpsets
    | with_reducible apply kept_fenceLathe
    | with_reducible apply kept_zeroBench
    | (fail_if_no_progress with_reducible refine Kept.lit ?_ rfl rfl rfl rfl rfl rfl)
    | with_reducible refine Kept.fst ?_ (by assumption)
    | with_reducible apply keptOut_next
    | exact keptOut_notNow
    | exact keptOut_refused
    | dsimp only
    | split

theorem kept_unfenceBody {s0 : State} {pass : Bool} {s : State} {o : Op} {u1 : HostReply} (hk0 : Kept s0 s) :
    Kept s0 (unfenceBody pass s o u1).s := by
  unfold unfenceBody
  try dsimp only
  repeat' first
    | assumption
    | with_reducible apply kept_fenceLathe
    | with_reducible apply kept_fenceSpindle
    | with_reducible apply kept_unfence
    | (fail_if_no_progress with_reducible refine Kept.lit ?_ rfl rfl rfl rfl rfl rfl)
    | with_reducible refine Kept.fst ?_ (by assumption)
    | with_reducible apply keptOut_next
    | exact keptOut_notNow
    | exact keptOut_refused
    | dsimp only
    | split

theorem keptOut_runFence {s0 : State} {fence : Bool} {body : State → Op → HostReply → Res} {r : OpRef} {s : State}
    (hk0 : Kept s0 s) (hb : ∀ s o h, Kept s0 s → Kept s0 (body s o h).s) : KeptOut s0 (runFence fence body r s) := by
  unfold runFence
  split
  · split
    · exact keptOut_runBody hk0 hb
    · trivial
  · trivial

theorem kept_noteResidue {s0 : State} {s : State} {i : Nat} (hk0 : Kept s0 s) :
    Kept s0 (noteResidue s i) := by
  unfold noteResidue
  try dsimp only
  repeat' first
    | assumption
    | with_reducible apply kept_setSpindle
    | with_reducible apply kept_fenceSpindle
    | (fail_if_no_progress with_reducible refine Kept.lit ?_ rfl rfl rfl rfl rfl rfl)
    | with_reducible refine Kept.fst ?_ (by assumption)
    | with_reducible apply keptOut_next
    | exact keptOut_notNow
    | exact keptOut_refused
    | dsimp only
    | split

theorem kept_noteAccErr {s0 : State} {s : State} {i : Nat} (hk0 : Kept s0 s) :
    Kept s0 (noteAccErr s i) := by
  unfold noteAccErr
  try dsimp only
  repeat' first
    | assumption
    | with_reducible apply kept_setSpindle
    | with_reducible apply kept_fenceSpindle
    | (fail_if_no_progress with_reducible refine Kept.lit ?_ rfl rfl rfl rfl rfl rfl)
    | with_reducible refine Kept.fst ?_ (by assumption)
    | with_reducible apply keptOut_next
    | exact keptOut_notNow
    | exact keptOut_refused
    | dsimp only
    | split

theorem kept_dropAcc {s0 s : State} {i : Nat} {p : Nat → Bool} (hk0 : Kept s0 s) : Kept s0 (dropAcc s i p) :=
  kept_setUpsets hk0

theorem kept_guardAcc {s0 : State} : ∀ {xs : List (Nat × Nat)} {s : State}, Kept s0 s → Kept s0 (guardAcc s xs).1
  | [], _, h => h
  | x :: r, s, h => by
    unfold guardAcc
    split
    · exact kept_guardAcc h
    · exact kept_guardAcc (kept_setUpsets (kept_countCorr h))
    · exact kept_countUncorr h

theorem kept_accEnd {s0 : State} {s : State} {o : Op} {flags : BitVec 8} {i key : Nat} (hk0 : Kept s0 s) :
    Kept s0 (accEnd s o flags i key) := by
  unfold accEnd
  try dsimp only
  repeat' first
    | assumption
    | with_reducible apply kept_endFail
    | with_reducible apply kept_loseSpindle
    | with_reducible apply kept_noteAccErr
    | (fail_if_no_progress with_reducible refine Kept.lit ?_ rfl rfl rfl rfl rfl rfl)
    | with_reducible refine Kept.fst ?_ (by assumption)
    | with_reducible apply keptOut_next
    | exact keptOut_notNow
    | exact keptOut_refused
    | dsimp only
    | split

theorem kept_dropBegun {s0 : State} {s : State} {o : Op} (hk0 : Kept s0 s) :
    Kept s0 (dropBegun s o) := by
  unfold dropBegun
  try dsimp only
  repeat' first
    | assumption
    | with_reducible apply kept_dropAcc
    | with_reducible apply kept_fold
    | with_reducible apply kept_fold_fst
    | with_reducible apply kept_fold_as
    | with_reducible apply kept_fold_s
    | with_reducible apply kept_fold_land
    | (fail_if_no_progress with_reducible refine Kept.lit ?_ rfl rfl rfl rfl rfl rfl)
    | with_reducible refine Kept.fst ?_ (by assumption)
    | with_reducible apply keptOut_next
    | exact keptOut_notNow
    | exact keptOut_refused
    | dsimp only
    | split
    | intro _

theorem kept_rewindOn {s0 : State} {s : State} {o : Op} (hk0 : Kept s0 s) :
    Kept s0 (rewindOn s o) := by
  unfold rewindOn
  try dsimp only
  repeat' first
    | assumption
    | (fail_if_no_progress with_reducible refine Kept.lit ?_ rfl rfl rfl rfl rfl rfl)

theorem keptOut_runArray {t0 : State} {code : Nat} {body : State → Op → HostReply → Res} {r : OpRef} {s0 : State}
    (hk0 : Kept t0 s0) (hb : ∀ s o h, Kept t0 s → Kept t0 (body s o h).s) : KeptOut t0 (runArray code body r s0) := by
  unfold runArray
  split
  · trivial
  · rename_i o _
    have h0 : Kept t0 (rewindOn s0 o) := kept_rewindOn hk0
    dsimp only
    generalize rewindOn s0 o = s at h0
    split
    · split
      · trivial
      · exact kept_endFail h0
    · split
      · trivial
      · have h1 : Kept t0 (guardAcc (dropBegun s o) (accMet s o)).1 := kept_guardAcc (kept_dropBegun h0)
        split
        · exact kept_accEnd (Kept.fst h1 (by assumption))
        · exact keptOut_runBody (Kept.fst h1 (by assumption)) fun s o h k => hb s o h k

theorem kept_residueEnd {s0 : State} {s : State} {o : Op} {i lane stage : Nat} (hk0 : Kept s0 s) :
    Kept s0 (residueEnd s o i lane stage) := by
  unfold residueEnd
  try dsimp only
  repeat' first
    | assumption
    | with_reducible apply kept_endFail
    | with_reducible apply kept_noteResidue

theorem kept_countStep {s0 : State} {w : Work} {empty : Bool} {before after : Stand} {j : Job} {s : State}
    (hk0 : Kept s0 s) :
    Kept s0 (countStep w empty before after j s).2 := by
  unfold countStep
  try dsimp only
  repeat' first
    | assumption
    | with_reducible apply kept_perfAdd
    | with_reducible apply kept_perfFree

theorem kept_readyMatch {s0 s t : State} {w : Work} {c : Chuck} (hk0 : Kept s0 s) (h : readyMatch s w c = some t) :
    Kept s0 t := by
  unfold readyMatch at h
  split at h
  · cases h; exact hk0
  · dsimp only at h
    split at h
    · cases h; exact hk0
    · split at h
      · cases h
      · cases h; exact hk0.same rfl rfl rfl rfl rfl rfl

theorem kept_guardReload {s0 : State} {s : State} {w : Work} {c : Chuck} {j : Job} (hk0 : Kept s0 s) :
    Kept s0 (guardReload s w c j).1 := by
  unfold guardReload
  try dsimp only
  repeat' first
    | assumption
    | with_reducible apply kept_guardUnits
    | (fail_if_no_progress with_reducible refine Kept.lit ?_ rfl rfl rfl rfl rfl rfl)
    | with_reducible refine Kept.fst ?_ (by assumption)
    | with_reducible apply keptOut_next
    | exact keptOut_notNow
    | exact keptOut_refused
    | dsimp only
    | split

theorem kept_freshSet {s0 : State} {w : Work} {c : Chuck} {j j' : Job} {s : State} (hk0 : Kept s0 s) :
    Kept s0 (freshSet w c j j' s) := by
  unfold freshSet
  try dsimp only
  repeat' first
    | assumption
    | with_reducible apply kept_dropAcc
    | (fail_if_no_progress with_reducible refine Kept.lit ?_ rfl rfl rfl rfl rfl rfl)
    | with_reducible refine Kept.fst ?_ (by assumption)
    | with_reducible apply keptOut_next
    | exact keptOut_notNow
    | exact keptOut_refused
    | dsimp only
    | split

theorem kept_drainWrite {t0 : State} {s0 : State} {w : Work} {g : Seg} {a : Acc} {h : Held} (hk0 : Kept t0 a.s) :
    Kept t0 (drainWrite s0 w g a h).s := by
  unfold drainWrite
  try dsimp only
  repeat' first
    | assumption
    | with_reducible apply kept_writePartial
    | with_reducible apply kept_Acc_write
    | with_reducible apply kept_emitConv
    | with_reducible apply kept_emitRect
    | (fail_if_no_progress with_reducible refine Kept.lit ?_ rfl rfl rfl rfl rfl rfl)
    | with_reducible refine Kept.fst ?_ (by assumption)
    | with_reducible apply keptOut_next
    | exact keptOut_notNow
    | exact keptOut_refused
    | dsimp only
    | split
    | intro _

theorem kept_spillPass {s0 : State} {w : Work} {g : Seg} {set : Nat} {s : State} (hk0 : Kept s0 s) :
    Kept s0 (spillPass w g set s) := by
  unfold spillPass
  try dsimp only
  repeat' first
    | assumption
    | with_reducible apply kept_spillTile
    | with_reducible apply kept_fold
    | with_reducible apply kept_fold_fst
    | with_reducible apply kept_fold_as
    | with_reducible apply kept_fold_s
    | with_reducible apply kept_fold_land
    | (fail_if_no_progress with_reducible refine Kept.lit ?_ rfl rfl rfl rfl rfl rfl)
    | with_reducible refine Kept.fst ?_ (by assumption)
    | with_reducible apply keptOut_next
    | exact keptOut_notNow
    | exact keptOut_refused
    | dsimp only
    | split
    | intro _

theorem kept_mgRead {s0 : State} {s : State} {o : Op} {h : HostReply} {host : Bool} {a n : Nat} (hk0 : Kept s0 s) :
    Kept s0 (mgRead s o h host a n).1 := by
  unfold mgRead
  try dsimp only
  repeat' first
    | assumption
    | with_reducible apply kept_srcDev
    | with_reducible apply kept_srcHost
    | (fail_if_no_progress with_reducible refine Kept.lit ?_ rfl rfl rfl rfl rfl rfl)
    | with_reducible refine Kept.fst ?_ (by assumption)
    | with_reducible apply keptOut_next
    | exact keptOut_notNow
    | exact keptOut_refused
    | dsimp only
    | split

theorem kept_queryBody {s0 : State} {s : State} {o : Op} {h : HostReply} (hk0 : Kept s0 s) :
    Kept s0 (queryBody s o h).s := by
  unfold queryBody
  try dsimp only
  repeat' first
    | assumption
    | with_reducible apply kept_landAll
    | with_reducible apply kept_mgRead
    | (fail_if_no_progress with_reducible refine Kept.lit ?_ rfl rfl rfl rfl rfl rfl)
    | with_reducible refine Kept.fst ?_ (by assumption)
    | with_reducible apply keptOut_next
    | exact keptOut_notNow
    | exact keptOut_refused
    | dsimp only
    | split
    | intro _

theorem keptOut_runQuota {s0 : State} {q : Nat} {body : State → Op → HostReply → Res} {r : OpRef} {s : State}
    (hk0 : Kept s0 s) (hb : ∀ s o h, Kept s0 s → Kept s0 (body s o h).s) : KeptOut s0 (runQuota q body r s) := by
  unfold runQuota
  split
  · split
    · exact keptOut_runBody hk0 hb
    · trivial
  · trivial

theorem kept_reserveBody {s0 : State} {bench : Bool} {s : State} {o : Op} {u1 : HostReply} (hk0 : Kept s0 s) :
    Kept s0 (reserveBody bench s o u1).s := by
  unfold reserveBody
  try dsimp only
  repeat' first
    | assumption
    | (fail_if_no_progress with_reducible refine Kept.lit ?_ rfl rfl rfl rfl rfl rfl)
    | with_reducible refine Kept.fst ?_ (by assumption)
    | with_reducible apply keptOut_next
    | exact keptOut_notNow
    | exact keptOut_refused
    | dsimp only
    | split

theorem kept_freeBody {s0 : State} {bench : Bool} {s : State} {o : Op} {u1 : HostReply} (hk0 : Kept s0 s) :
    Kept s0 (freeBody bench s o u1).s := by
  unfold freeBody
  try dsimp only
  repeat' first
    | assumption
    | (fail_if_no_progress with_reducible refine Kept.lit ?_ rfl rfl rfl rfl rfl rfl)
    | with_reducible refine Kept.fst ?_ (by assumption)
    | with_reducible apply keptOut_next
    | exact keptOut_notNow
    | exact keptOut_refused
    | dsimp only
    | split

theorem kept_limitBody {s0 : State} {key : Op → Nat} {s : State} {o : Op} {h : HostReply} (hk0 : Kept s0 s) :
    Kept s0 (limitBody key s o h).s := kept_setLimits hk0

theorem kept_tallyRangeBody {s0 : State} {s : State} {o : Op} {u1 : HostReply} (hk0 : Kept s0 s) :
    Kept s0 (tallyRangeBody s o u1).s := by
  unfold tallyRangeBody
  try dsimp only
  repeat' first
    | assumption
    | (fail_if_no_progress with_reducible refine Kept.lit ?_ rfl rfl rfl rfl rfl rfl)

theorem kept_setCap {s0 : State} {s : State} {w : Nat} (hk0 : Kept s0 s) :
    Kept s0 (setCap s w).1 := by
  unfold setCap
  try dsimp only
  repeat' first
    | assumption
    | (fail_if_no_progress with_reducible refine Kept.lit ?_ rfl rfl rfl rfl rfl rfl)

theorem kept_powerCapBody {s0 : State} {s : State} {o : Op} {u1 : HostReply} (hk0 : Kept s0 s) :
    Kept s0 (powerCapBody s o u1).s := by
  unfold powerCapBody
  try dsimp only
  repeat' first
    | assumption
    | with_reducible apply kept_setCap

theorem kept_loadSlot {s0 : State} {slot : Nat} {t : PatSlot} {s : State} {l : Nat} (hk0 : Kept s0 s) :
    Kept s0 (loadSlot slot t s l) := by
  unfold loadSlot
  try dsimp only
  repeat' first
    | assumption
    | with_reducible apply kept_setSlot
    | (fail_if_no_progress with_reducible refine Kept.lit ?_ rfl rfl rfl rfl rfl rfl)

theorem kept_patternBody {s0 : State} {s : State} {o : Op} {h : HostReply} (hk0 : Kept s0 s) :
    Kept s0 (patternBody s o h).s := by
  unfold patternBody
  try dsimp only
  repeat' first
    | assumption
    | with_reducible apply kept_mgRead
    | with_reducible apply kept_loadSlot
    | with_reducible apply kept_fold
    | with_reducible apply kept_fold_fst
    | with_reducible apply kept_fold_as
    | with_reducible apply kept_fold_s
    | with_reducible apply kept_fold_land
    | (fail_if_no_progress with_reducible refine Kept.lit ?_ rfl rfl rfl rfl rfl rfl)
    | with_reducible refine Kept.fst ?_ (by assumption)
    | with_reducible apply keptOut_next
    | exact keptOut_notNow
    | exact keptOut_refused
    | dsimp only
    | split

theorem kept_keepBody {s0 : State} {s : State} {o : Op} {u1 : HostReply} (hk0 : Kept s0 s) :
    Kept s0 (keepBody s o u1).s := by
  unfold keepBody
  try dsimp only
  repeat' first
    | assumption
    | with_reducible exact kept_keepWrite (by assumption) (by assumption)
    | (fail_if_no_progress with_reducible refine Kept.lit ?_ rfl rfl rfl rfl rfl rfl)
    | with_reducible refine Kept.fst ?_ (by assumption)
    | with_reducible apply keptOut_next
    | exact keptOut_notNow
    | exact keptOut_refused
    | dsimp only
    | split

theorem kept_stageBody {s0 : State} {s : State} {o : Op} {h : HostReply} (hk0 : Kept s0 s) :
    Kept s0 (stageBody s o h).s := by
  have h1 := kept_mgRead (o := o) (h := h) (host := stHost o) (a := stSrc o) (n := 65536) hk0
  unfold stageBody
  split
  · exact Kept.fst h1 (by assumption)
  · split
    · exact kept_stageBlock (Kept.fst h1 (by assumption)) (by assumption)
    · exact Kept.fst h1 (by assumption)

theorem kept_activateRow {s0 : State} {s : State} {o : Option Op} {readBack : Bool} (hk0 : Kept s0 s) :
    Kept s0 (activateRow s o readBack) := by
  unfold activateRow
  try dsimp only
  repeat' first
    | assumption
    | with_reducible apply kept_endWith
    | with_reducible apply kept_setFirm
    | with_reducible apply kept_activateStep
    | rfl
    | (fail_if_no_progress with_reducible refine Kept.lit ?_ rfl rfl rfl rfl rfl rfl)
    | with_reducible refine Kept.fst ?_ (by assumption)
    | with_reducible apply keptOut_next
    | exact keptOut_notNow
    | exact keptOut_refused
    | dsimp only
    | split

theorem kept_fwConfirmBody {s0 : State} {s : State} {u1 : Op} {u2 : HostReply} (hk0 : Kept s0 s) :
    Kept s0 (fwConfirmBody s u1 u2).s := by
  unfold fwConfirmBody
  try dsimp only
  repeat' first
    | assumption
    | with_reducible apply kept_confirmBody

theorem kept_setPower {s0 : State} {s : State} {p : Power} (hk0 : Kept s0 s) :
    Kept s0 (setPower s p) := hk0.same rfl rfl rfl rfl rfl rfl

theorem kept_loseAcc {s0 : State} {s : State} {d : Nat} (hk0 : Kept s0 s) :
    Kept s0 (loseAcc s d) := by
  unfold loseAcc
  try dsimp only
  repeat' first
    | assumption
    | with_reducible apply kept_markLost
    | with_reducible apply kept_fold
    | with_reducible apply kept_fold_fst
    | with_reducible apply kept_fold_as
    | with_reducible apply kept_fold_s
    | with_reducible apply kept_fold_land
    | (fail_if_no_progress with_reducible refine Kept.lit ?_ rfl rfl rfl rfl rfl rfl)
    | with_reducible refine Kept.fst ?_ (by assumption)
    | with_reducible apply keptOut_next
    | exact keptOut_notNow
    | exact keptOut_refused
    | dsimp only
    | split
    | intro _

theorem kept_loseBenches {s0 : State} {s : State} {d : Nat} (hk0 : Kept s0 s) :
    Kept s0 (loseBenches s d) := by
  unfold loseBenches
  try dsimp only
  repeat' first
    | assumption
    | with_reducible apply kept_zeroBench
    | (fail_if_no_progress with_reducible refine Kept.lit ?_ rfl rfl rfl rfl rfl rfl)

theorem kept_loseStack {s0 : State} {s : State} {k : Nat} (hk0 : Kept s0 s) : Kept s0 (loseStack s k) :=
  hk0.devMem (fun h => memWf_memClear _ _ h) rfl rfl rfl rfl rfl

theorem kept_portOff {s0 : State} {s : State} {p : Nat} (hk0 : Kept s0 s) :
    Kept s0 (portOff s p) := by
  unfold portOff
  try dsimp only
  repeat' first
    | assumption
    | with_reducible apply kept_portDown
    | (fail_if_no_progress with_reducible refine Kept.lit ?_ rfl rfl rfl rfl rfl rfl)
    | with_reducible refine Kept.fst ?_ (by assumption)
    | with_reducible apply keptOut_next
    | exact keptOut_notNow
    | exact keptOut_refused
    | dsimp only
    | split

theorem kept_portOn {s0 : State} {s : State} {p : Nat} (hk0 : Kept s0 s) :
    Kept s0 (portOn s p) := by
  unfold portOn
  try dsimp only
  repeat' first
    | assumption
    | with_reducible apply kept_setPort
    | with_reducible apply kept_startTraining
    | (fail_if_no_progress with_reducible refine Kept.lit ?_ rfl rfl rfl rfl rfl rfl)
    | with_reducible refine Kept.fst ?_ (by assumption)
    | with_reducible apply keptOut_next
    | exact keptOut_notNow
    | exact keptOut_refused
    | dsimp only
    | split

theorem kept_enterPd {s0 : State} {s : State} {d : Nat} {src tgt : Pd} (hk0 : Kept s0 s) :
    Kept s0 (enterPd s d src tgt) := by
  unfold enterPd
  try dsimp only
  repeat' first
    | assumption
    | with_reducible apply kept_setPd
    | with_reducible apply kept_loseAcc
    | with_reducible apply kept_loseBenches
    | with_reducible apply kept_loseStack
    | with_reducible apply kept_portOff
    | with_reducible apply kept_portOn
    | (fail_if_no_progress with_reducible refine Kept.lit ?_ rfl rfl rfl rfl rfl rfl)
    | with_reducible refine Kept.fst ?_ (by assumption)
    | with_reducible apply keptOut_next
    | exact keptOut_notNow
    | exact keptOut_refused
    | dsimp only
    | split

theorem kept_endNeeding {s0 : State} {s : State} {d : Nat} (hk0 : Kept s0 s) :
    Kept s0 (endNeeding s d) := by
  unfold endNeeding
  try dsimp only
  repeat' first
    | assumption
    | with_reducible apply kept_stopWith
    | with_reducible apply kept_fold
    | with_reducible apply kept_fold_fst
    | with_reducible apply kept_fold_as
    | with_reducible apply kept_fold_s
    | with_reducible apply kept_fold_land
    | (fail_if_no_progress with_reducible refine Kept.lit ?_ rfl rfl rfl rfl rfl rfl)
    | with_reducible refine Kept.fst ?_ (by assumption)
    | with_reducible apply keptOut_next
    | exact keptOut_notNow
    | exact keptOut_refused
    | dsimp only
    | split
    | intro _

theorem kept_endSwitch {s0 : State} {s : State} {q tag : Nat} {e : Option Fail} (hk0 : Kept s0 s) :
    Kept s0 (endSwitch s q tag e) := by
  unfold endSwitch
  try dsimp only
  repeat' first
    | assumption
    | with_reducible apply kept_endWith
    | (fail_if_no_progress with_reducible refine Kept.lit ?_ rfl rfl rfl rfl rfl rfl)
    | with_reducible refine Kept.fst ?_ (by assumption)
    | with_reducible apply keptOut_next
    | exact keptOut_notNow
    | exact keptOut_refused
    | dsimp only
    | split

theorem kept_beginSwitch {s0 : State} {s : State} {d : Nat} {src tgt : Pd} {q tag : Nat} (hk0 : Kept s0 s) :
    Kept s0 (beginSwitch s d src tgt q tag) := by
  unfold beginSwitch
  try dsimp only
  repeat' first
    | assumption
    | with_reducible apply kept_setPd
    | with_reducible apply kept_quiescePort
    | with_reducible apply kept_endNeeding
    | (fail_if_no_progress with_reducible refine Kept.lit ?_ rfl rfl rfl rfl rfl rfl)
    | with_reducible refine Kept.fst ?_ (by assumption)
    | with_reducible apply keptOut_next
    | exact keptOut_notNow
    | exact keptOut_refused
    | dsimp only
    | split

theorem kept_cutDomain {s0 : State} {s : State} {d : Nat} (hk0 : Kept s0 s) :
    Kept s0 (cutDomain s d) := by
  unfold cutDomain
  try dsimp only
  repeat' first
    | assumption
    | with_reducible apply kept_enterPd
    | with_reducible apply kept_endNeeding
    | with_reducible apply kept_endSwitch
    | (fail_if_no_progress with_reducible refine Kept.lit ?_ rfl rfl rfl rfl rfl rfl)
    | with_reducible refine Kept.fst ?_ (by assumption)
    | with_reducible apply keptOut_next
    | exact keptOut_notNow
    | exact keptOut_refused
    | dsimp only
    | split

theorem kept_govern {s0 : State} {s : State} (hk0 : Kept s0 s) :
    Kept s0 (govern s) := by
  unfold govern
  try dsimp only
  repeat' first
    | assumption
    | with_reducible apply kept_setPower
    | (fail_if_no_progress with_reducible refine Kept.lit ?_ rfl rfl rfl rfl rfl rfl)

theorem kept_raiseHeat {s0 : State} {s : State} {was : Bool} (hk0 : Kept s0 s) :
    Kept s0 (raiseHeat s was) := by
  unfold raiseHeat
  try dsimp only
  repeat' first
    | assumption
    | with_reducible apply kept_raiseMsix
    | (fail_if_no_progress with_reducible refine Kept.lit ?_ rfl rfl rfl rfl rfl rfl)
    | with_reducible refine Kept.fst ?_ (by assumption)
    | with_reducible apply keptOut_next
    | exact keptOut_notNow
    | exact keptOut_refused
    | dsimp only
    | split

theorem kept_tripAll {s0 : State} {s : State} (hk0 : Kept s0 s) : Kept s0 (tripAll s) :=
  kept_fold _ hk0 fun _ _ h => kept_cutDomain h

theorem kept_saveUnits {s0 : State} {o : Op} : ∀ {us : List Nat} {s : State}, Kept s0 s → Kept s0 (saveUnits o s us).1
  | [], _, h => h
  | u :: r, s, h => by
    have h1 := kept_guardUnit (u := u) h
    unfold saveUnits
    generalize guardUnit s u = p at h1
    obtain ⟨s', f, e⟩ := p
    cases e with
    | some e => exact kept_saveUnits (kept_vlogAdd h1)
    | none => exact kept_saveUnits h1

theorem kept_accLost {s0 : State} {s : State} {x : Nat × Nat} (hk0 : Kept s0 s) :
    Kept s0 (accLost s x) := by
  unfold accLost
  try dsimp only
  repeat' first
    | assumption
    | with_reducible apply kept_loseSpindle
    | with_reducible apply kept_noteAccErr
    | (fail_if_no_progress with_reducible refine Kept.lit ?_ rfl rfl rfl rfl rfl rfl)
    | with_reducible refine Kept.fst ?_ (by assumption)
    | with_reducible apply keptOut_next
    | exact keptOut_notNow
    | exact keptOut_refused
    | dsimp only
    | split

theorem kept_countStacks {s0 : State} {s : State} {write : Bool} {ks : List Nat} (hk0 : Kept s0 s) :
    Kept s0 (countStacks s write ks) := by
  unfold countStacks
  try dsimp only
  repeat' first
    | assumption
    | with_reducible apply kept_fold
    | with_reducible apply kept_fold_fst
    | with_reducible apply kept_fold_as
    | with_reducible apply kept_fold_s
    | with_reducible apply kept_fold_land
    | (fail_if_no_progress with_reducible refine Kept.lit ?_ rfl rfl rfl rfl rfl rfl)
    | with_reducible refine Kept.fst ?_ (by assumption)
    | with_reducible apply keptOut_next
    | exact keptOut_notNow
    | exact keptOut_refused
    | dsimp only
    | split

theorem kept_partShot {s0 : State} {s : State} {flags : BitVec 8} {bad : List Nat} {n : Nat} {e : Fail}
    (hk0 : Kept s0 s) :
    Kept s0 (partShot s flags bad n e).s := by
  unfold partShot
  try dsimp only
  repeat' first
    | assumption

theorem kept_takeShot {s0 s : State} {o : Op} (hk0 : Kept s0 s) : Kept s0 (takeShot s o).s := by
  have h1 : Kept s0 (guardAcc s (doubtfulAcc s)).1 := kept_guardAcc hk0
  unfold takeShot
  split
  · exact kept_accLost (Kept.fst h1 (by assumption))
  · rename_i t f e
    have h2 : Kept s0 (saveUnits o t (doubtful t)).1 := kept_saveUnits (Kept.fst h1 e)
    generalize saveUnits o t (doubtful t) = p at h2
    obtain ⟨u, g, bad⟩ := p
    have h3 := kept_countStacks (write := false) (ks := (List.range 8).filter fun k => !domainDark u (64 + k)) h2
    dsimp only
    split
    · exact h3
    · exact h3

theorem kept_sendBatch {s0 : State} {s : State} {o : Op} {j : SnapJob} {lo hi : Nat} (hk0 : Kept s0 s) :
    Kept s0 (sendBatch s o j lo hi) := by
  unfold sendBatch
  try dsimp only
  repeat' first
    | assumption
    | with_reducible apply kept_setFab
    | with_reducible apply kept_pump
    | (fail_if_no_progress with_reducible refine Kept.lit ?_ rfl rfl rfl rfl rfl rfl)

theorem kept_beginPart {s0 : State} {s : State} {o : Op} {j : SnapJob} (hk0 : Kept s0 s) :
    Kept s0 (beginPart s o j) := by
  unfold beginPart
  try dsimp only
  repeat' first
    | assumption
    | with_reducible apply kept_countXfer
    | with_reducible apply kept_sendBatch
    | (fail_if_no_progress with_reducible refine Kept.lit ?_ rfl rfl rfl rfl rfl rfl)
    | with_reducible refine Kept.fst ?_ (by assumption)
    | with_reducible apply keptOut_next
    | exact keptOut_notNow
    | exact keptOut_refused
    | dsimp only
    | split

theorem kept_endSnap {s0 : State} {s : State} {o : Op} {flags : BitVec 8} {e : Option Fail} (hk0 : Kept s0 s) :
    Kept s0 (endSnap s o flags e) := by
  unfold endSnap
  try dsimp only
  repeat' first
    | assumption
    | with_reducible apply kept_endOk
    | with_reducible apply kept_stopWith
    | (fail_if_no_progress with_reducible refine Kept.lit ?_ rfl rfl rfl rfl rfl rfl)
    | with_reducible refine Kept.fst ?_ (by assumption)
    | with_reducible apply keptOut_next
    | exact keptOut_notNow
    | exact keptOut_refused
    | dsimp only
    | split

theorem kept_putHost {s0 s : State} {o : Op} {x : Shot} (hk0 : Kept s0 s) : Kept s0 (putHost s o x) := by
  unfold putHost
  extract_lets fn at_ lo
  exact hk0.hostMem (fun h => memWf_foldPut (fun _ (c : Host.Cell) => (at_ c.1, c.2)) _ (memWf_memClear _ _ h)) rfl rfl rfl
    rfl rfl

theorem kept_saveHost {s0 s : State} {o : Op} (hk0 : Kept s0 s) : Kept s0 (saveHost s o).s := by
  unfold saveHost
  split
  · exact hk0
  · exact kept_putHost (kept_takeShot hk0)

theorem kept_ownWrites {s0 : State} {o : Op} {m : List Host.Cell} {t : XferInfo} :
    ∀ {xs : List (Nat × Nat)} {s : State}, Kept s0 s → Kept s0 (ownWrites o m t xs s).1
  | [], _, h => h
  | p :: r, s, h => by
    have h1 := kept_remoteWrite (src := devId s) (i := snWin o) (off := p.1) (mode := 0) (bytes := memRead m p.1 p.2) (t := t) h
    unfold ownWrites
    split
    · exact Kept.fst h1 (by assumption)
    · exact kept_ownWrites (Kept.fst h1 (by assumption))

theorem kept_ownPut {s0 s : State} {o : Op} {m : List Host.Cell} {lo hi : Nat} (hk0 : Kept s0 s) :
    Kept s0 (ownPut o m lo hi s).1 := kept_ownWrites (kept_countXfer hk0)

theorem kept_putHeader {s0 : State} {o : Op} {x : Shot} {r : State × BitVec 8 × Option Fail} (hk0 : Kept s0 r.1) :
    Kept s0 (putHeader o x r).s := by
  obtain ⟨s, f, e⟩ := r
  unfold putHeader
  cases e with
  | some e => exact hk0
  | none =>
    dsimp only
    split
    · exact hk0
    · exact kept_ownPut hk0

theorem kept_saveOwn {s0 s : State} {o : Op} (hk0 : Kept s0 s) : Kept s0 (saveOwn s o).s := by
  unfold saveOwn
  generalize hr : ownPut _ _ _ _ _ = r
  exact kept_putHeader (hr ▸ kept_ownPut (kept_takeShot hk0))

theorem kept_saveBody {s0 s : State} {o : Op} {h : HostReply} (hk0 : Kept s0 s) : Kept s0 (saveBody s o h).s := by
  unfold saveBody
  split
  · exact hk0
  · split
    · exact kept_saveHost hk0
    · exact kept_saveOwn hk0

theorem keptOut_beginSave {s0 s : State} {o : Op} (hk0 : Kept s0 s) : KeptOut s0 (beginSave s o) := by
  unfold beginSave
  split
  · exact kept_endFail hk0
  · split
    · trivial
    · split
      · exact kept_endFail hk0
      · exact kept_beginPart (kept_putOp (kept_takeShot hk0))

theorem keptOut_saveOn {s0 s : State} {o : Op} {j : SnapJob} (hk0 : Kept s0 s) : KeptOut s0 (saveOn s o j) := by
  unfold saveOn
  split
  · trivial
  · split
    · exact kept_stopWith hk0
    · split
      · split
        · exact kept_sendBatch hk0
        · split
          · exact kept_endSnap hk0
          · exact kept_beginPart hk0
      · exact kept_endSnap hk0

theorem kept_restoreRange {s0 : State} {m : List Host.Cell} {x : Section} {s : State} (hk0 : Kept s0 s) :
    Kept s0 (restoreRange m x s) :=
  hk0.devMem (fun h => memWf_foldPut (fun _ c => c) _ (memWf_memClear _ _ h)) rfl rfl rfl rfl rfl

theorem kept_readRecords {s0 : State} {m : List Host.Cell} :
    ∀ {is : List Nat} {a : Nat} {s : State}, Kept s0 s → Kept s0 (readRecords m a is s)
  | [], _, _, h => h
  | i :: _, _, s, h => by
    unfold readRecords
    exact kept_readRecords (kept_dropAcc (kept_setSpindle h))

theorem kept_restoreSets {s0 s : State} {m : List Host.Cell} {x : Section} (hk0 : Kept s0 s) :
    Kept s0 (restoreSets m s x) := kept_ite hk0 (kept_readRecords hk0)

theorem kept_restoreKeepsFrom {s0 : State} {m : List Host.Cell} {s : State} (hk0 : Kept s0 s) :
    Kept s0 (restoreKeepsFrom m s) := by
  unfold restoreKeepsFrom
  refine kept_fold _ hk0 fun s i h => ?_
  split
  · exact kept_keepWrite h (by assumption)
  · exact h

theorem kept_restoreEnd {s0 : State} {m : List Host.Cell} {s : State} (hk0 : Kept s0 s) : Kept s0 (restoreEnd m s) := by
  have h1 := kept_restoreKeepsFrom (m := m) hk0
  unfold restoreEnd
  generalize restoreKeepsFrom m s = s1 at h1
  extract_lets d0 d s2
  have h2 : Kept s0 s2 := h1.same rfl rfl rfl rfl rfl rfl
  clear_value s2
  refine kept_ite ?_ ?_
  · exact kept_fold _ h2 fun _ _ h => kept_restoreSets h
  · exact kept_freePairs h2

theorem kept_writeSection {s0 : State} {m : List Host.Cell} {x : Section} {s : State} (hk0 : Kept s0 s) :
    Kept s0 (writeSection m x s) := by
  unfold writeSection
  try dsimp only
  repeat' first
    | assumption
    | with_reducible apply kept_freePairs
    | with_reducible apply kept_countStacks
    | with_reducible apply kept_restoreRange
    | (fail_if_no_progress with_reducible refine Kept.lit ?_ rfl rfl rfl rfl rfl rfl)
    | with_reducible refine Kept.fst ?_ (by assumption)
    | with_reducible apply keptOut_next
    | exact keptOut_notNow
    | exact keptOut_refused
    | dsimp only
    | split

theorem kept_partArrived {s0 s : State} {o : Op} {j : SnapJob} (hk0 : Kept s0 s) : Kept s0 (partArrived s o j).1 := by
  unfold partArrived
  split
  · split
    · exact kept_nextFree hk0
    · split
      · exact hk0
      · exact hk0
  · dsimp only
    split
    · exact hk0
    · exact kept_writeSection hk0
  · exact hk0

theorem kept_finishRestore {s0 s : State} {o : Op} {j : SnapJob} (hk0 : Kept s0 s) : Kept s0 (finishRestore s o j) :=
  kept_endOk (kept_restoreEnd (hk0.same rfl rfl rfl rfl rfl rfl))

theorem kept_stepRestore {s0 s : State} {o : Op} {j : SnapJob} {next : State → SnapJob → State} (hk0 : Kept s0 s)
    (h_next : ∀ s1 a1, Kept s0 s1 → Kept s0 (next s1 a1)) : Kept s0 (stepRestore s o j next) := by
  have h1 := kept_partArrived (o := o) (j := j) (Kept.same hk0 (t := { s with snap := some j }) rfl rfl rfl rfl rfl rfl)
  unfold stepRestore
  split
  · exact kept_stopWith (Kept.fst h1 (by assumption))
  · have h2 := Kept.fst h1 (by assumption)
    exact kept_ite (kept_finishRestore h2) (h_next _ _ (h2.same rfl rfl rfl rfl rfl rfl))

theorem kept_ownPart {s0 : State} {o : Op} {t : XferInfo} :
    ∀ {xs : List (Nat × Nat)} {s : State} {j : SnapJob}, Kept s0 s → Kept s0 (ownPart o t xs s j).1
  | [], _, _, h => h
  | p :: r, s, j, h => by
    have h1 := kept_remoteRead (src := devId s) (i := snWin o) (off := p.1) (len := p.2) (t := t) h
    unfold ownPart
    split
    · exact Kept.fst h1 (by assumption)
    · exact kept_ownPart (Kept.fst h1 (by assumption))

theorem kept_localPart {s0 s : State} {o : Op} {j : SnapJob} {h : HostReply} (hk0 : Kept s0 s) :
    Kept s0 (localPart s o j h) := by
  unfold localPart
  split
  · exact kept_finishRestore hk0
  · rename_i lo hi _ _
    have key : ∀ x : State × BitVec 8 × SnapJob × Option Fail, Kept s0 x.1 → Kept s0 (
        match x with
        | (s, f, j, e) =>
          let o := { o with flags := o.flags ||| f }
          match e with
          | some e => stopWith { s with snap := some j } o 0#8 e
          | none => stepRestore (putOp s o) o j fun t _ => t) := by
      rintro ⟨u, f, k, e⟩ hu
      cases e with
      | some e => exact kept_stopWith (hu.same rfl rfl rfl rfl rfl rfl)
      | none => exact kept_stepRestore (kept_putOp hu) fun _ _ h => h
    apply key
    split
    · exact kept_mergeHost hk0
    · exact kept_ownPart (kept_countXfer hk0)

theorem keptOut_beginRestore {s0 s : State} {o : Op} {j : SnapJob} (hk0 : Kept s0 s) : KeptOut s0 (beginRestore s o j)
    := by
  unfold beginRestore
  split
  · trivial
  · split
    · exact kept_endFail hk0
    · exact kept_beginPart (kept_putOp hk0)

theorem keptOut_restoreOn {s0 s : State} {o : Op} {j : SnapJob} (hk0 : Kept s0 s) : KeptOut s0 (restoreOn s o j) := by
  unfold restoreOn
  split
  · trivial
  · split
    · exact kept_stopWith hk0
    · split
      · split
        · exact kept_sendBatch hk0
        · exact kept_stepRestore hk0 fun _ _ h => kept_beginPart h
      · exact kept_finishRestore hk0

end Sys2Proof.Machine
end

