-- ==== Sys2Proof/Laws/KeptPorts.lean ====
section
/-!
SUPPORT. What the host port, the requests for measurements and the starts keep.
-/

namespace Sys2Proof.Machine

theorem kept_touchReg {s0 : State} {s : State} {r : Option Reg} {write : Bool} (hk0 : Kept s0 s) :
    Kept s0 (touchReg s r write) := by
  unfold touchReg
  try dsimp only
  repeat' first
    | assumption
    | with_reducible apply kept_countUncorr
    | with_reducible apply kept_useCore
    | with_reducible apply kept_freshTally
    | (fail_if_no_progress with_reducible refine Kept.lit ?_ rfl rfl rfl rfl rfl rfl)
    | with_reducible refine Kept.fst ?_ (by assumption)
    | with_reducible apply keptOut_next
    | exact keptOut_notNow
    | exact keptOut_refused
    | dsimp only
    | split

theorem kept_touchBar0 {s0 : State} {s : State} {rq : Req} {off size : Nat} {write : Bool} (hk0 : Kept s0 s) :
    Kept s0 (touchBar0 s rq off size write) := by
  unfold touchBar0
  try dsimp only
  repeat' first
    | assumption
    | with_reducible apply kept_touchReg
    | (fail_if_no_progress with_reducible refine Kept.lit ?_ rfl rfl rfl rfl rfl rfl)
    | with_reducible refine Kept.fst ?_ (by assumption)
    | with_reducible apply keptOut_next
    | exact keptOut_notNow
    | exact keptOut_refused
    | dsimp only
    | split

theorem kept_hostLog {s0 : State} {s : State} {rq : Req} {write : Bool} {e : Fail} (hk0 : Kept s0 s) :
    Kept s0 (hostLog s rq write e) := by
  unfold hostLog
  try dsimp only
  repeat' first
    | assumption
    | with_reducible apply kept_vlogAdd

theorem kept_hostAbort {s0 : State} {s : State} {rq : Req} {e : Fail} (hk0 : Kept s0 s) :
    Kept s0 (hostAbort s rq e) := by
  unfold hostAbort
  try dsimp only
  repeat' first
    | assumption
    | with_reducible apply kept_setFunc
    | with_reducible apply kept_emit
    | with_reducible apply kept_hostLog

theorem keptOut_hostRow {s0 s k : State} (hk0 : Kept s0 k) : KeptOut s0 (hostRow s k) := by
  unfold hostRow
  split
  · exact hk0
  · trivial

theorem kept_readReg {s0 s : State} {g : Reg} {off size : Nat} {next : Option Reg} (hk0 : Kept s0 s) :
    Kept s0 (readReg s g off size next).2 := by
  unfold readReg
  dsimp only
  split
  · exact hk0
  · split
    · split
      · exact hk0.same rfl rfl rfl rfl rfl rfl
      · exact hk0
    · exact hk0

theorem kept_bar0ReadAt {s0 s : State} {rq : Req} {off size : Nat} (hk0 : Kept s0 s) :
    Kept s0 (bar0ReadAt s rq off size) := by
  unfold bar0ReadAt
  split
  · exact kept_emit hk0
  · have h1 := kept_touchBar0 (rq := rq) (off := off) (size := size) (write := false) hk0
    dsimp only
    generalize touchBar0 s rq off size false = t at h1
    split
    · exact kept_hostAbort h1
    · exact kept_emit (kept_readReg h1)
    · exact h1

theorem kept_dropWrite {s0 : State} {s : State} {rq : Req} {off : Nat} {r : Reg} (hk0 : Kept s0 s) :
    Kept s0 (dropWrite s rq off r) := by
  unfold dropWrite
  try dsimp only
  repeat' first
    | assumption
    | with_reducible apply kept_hostLog

theorem kept_forgetColls {s0 : State} {s : State} {q : Nat} (hk0 : Kept s0 s) :
    Kept s0 (forgetColls s q) := hk0.same rfl rfl rfl rfl rfl rfl

theorem kept_forceReset {s0 : State} {s : State} {q : Nat} (hk0 : Kept s0 s) :
    Kept s0 (forceReset s q) := by
  unfold forceReset
  try dsimp only
  repeat' first
    | assumption
    | with_reducible apply kept_modQ

theorem kept_assignQueue {s0 : State} {s : State} {q : Nat} {v n : Queue} (hk0 : Kept s0 s) :
    Kept s0 (assignQueue s q v n) := by
  unfold assignQueue
  try dsimp only
  repeat' first
    | assumption
    | with_reducible apply kept_setLimits
    | (fail_if_no_progress with_reducible refine Kept.lit ?_ rfl rfl rfl rfl rfl rfl)
    | with_reducible refine Kept.fst ?_ (by assumption)
    | with_reducible apply keptOut_next
    | exact keptOut_notNow
    | exact keptOut_refused
    | dsimp only
    | split

theorem kept_writeSqcfg {s0 : State} {s : State} {rq : Req} {q off w : Nat} (hk0 : Kept s0 s) :
    Kept s0 (writeSqcfg s rq q off w) := by
  unfold writeSqcfg
  try dsimp only
  repeat' first
    | assumption
    | with_reducible apply kept_setQ
    | with_reducible apply kept_resetQueue
    | with_reducible apply kept_dropWrite
    | with_reducible apply kept_forgetColls
    | with_reducible apply kept_forceReset
    | with_reducible apply kept_assignQueue
    | (fail_if_no_progress with_reducible refine Kept.lit ?_ rfl rfl rfl rfl rfl rfl)
    | with_reducible refine Kept.fst ?_ (by assumption)
    | with_reducible apply keptOut_next
    | exact keptOut_notNow
    | exact keptOut_refused
    | dsimp only
    | split

theorem kept_writeSqTail {s0 : State} {s : State} {rq : Req} {q off w : Nat} (hk0 : Kept s0 s) :
    Kept s0 (writeSqTail s rq q off w) := by
  unfold writeSqTail
  try dsimp only
  repeat' first
    | assumption
    | with_reducible apply kept_modQ
    | with_reducible apply kept_dropWrite
    | (fail_if_no_progress with_reducible refine Kept.lit ?_ rfl rfl rfl rfl rfl rfl)
    | with_reducible refine Kept.fst ?_ (by assumption)
    | with_reducible apply keptOut_next
    | exact keptOut_notNow
    | exact keptOut_refused
    | dsimp only
    | split

theorem kept_writeStqHead {s0 : State} {s : State} {rq : Req} {q off w : Nat} (hk0 : Kept s0 s) :
    Kept s0 (writeStqHead s rq q off w) := by
  unfold writeStqHead
  try dsimp only
  repeat' first
    | assumption
    | with_reducible apply kept_setQ
    | with_reducible apply kept_releaseCopies
    | with_reducible apply kept_dropWrite
    | (fail_if_no_progress with_reducible refine Kept.lit ?_ rfl rfl rfl rfl rfl rfl)
    | with_reducible refine Kept.fst ?_ (by assumption)
    | with_reducible apply keptOut_next
    | exact keptOut_notNow
    | exact keptOut_refused
    | dsimp only
    | split

theorem kept_writeQstat {s0 : State} {s : State} {rq : Req} {q off w : Nat} (hk0 : Kept s0 s) :
    Kept s0 (writeQstat s rq q off w) := by
  unfold writeQstat
  try dsimp only
  repeat' first
    | assumption
    | with_reducible apply kept_modQ
    | with_reducible apply kept_dropWrite
    | (fail_if_no_progress with_reducible refine Kept.lit ?_ rfl rfl rfl rfl rfl rfl)
    | with_reducible refine Kept.fst ?_ (by assumption)
    | with_reducible apply keptOut_next
    | exact keptOut_notNow
    | exact keptOut_refused
    | dsimp only
    | split

theorem kept_freeAllSets {s0 : State} {s : State} (hk0 : Kept s0 s) :
    Kept s0 (freeAllSets s) := hk0.same rfl rfl rfl rfl rfl rfl

theorem kept_resetEngine {s0 s : State} {c : Nat} (hk0 : Kept s0 s) : Kept s0 (resetEngine s c) := by
  unfold resetEngine
  extract_lets a t u
  have h1 : Kept s0 a := kept_abortOps hk0
  clear_value a
  have h2 : Kept s0 t := kept_ite (kept_freeAllSets h1) h1
  clear_value t
  have h3 : Kept s0 u := kept_ite (kept_fold _ h2 fun _ _ h => kept_endRelays h) h2
  clear_value u
  exact h3.same rfl rfl rfl rfl rfl rfl

theorem kept_writeGctl {s0 : State} {s : State} {w : Nat} (hk0 : Kept s0 s) :
    Kept s0 (writeGctl s w) := by
  unfold writeGctl
  try dsimp only
  repeat' first
    | assumption
    | with_reducible apply kept_resetEngine
    | with_reducible apply kept_fold

theorem kept_writeDevEvent {s0 : State} {s : State} {w : Nat} (hk0 : Kept s0 s) :
    Kept s0 (writeDevEvent s w) := hk0.same rfl rfl rfl rfl rfl rfl

theorem kept_writeIrqCfg {s0 : State} {s : State} {w : Nat} (hk0 : Kept s0 s) :
    Kept s0 (writeIrqCfg s w) := hk0.same rfl rfl rfl rfl rfl rfl

theorem kept_writeHostCfg {s0 : State} {s : State} {w : Nat} (hk0 : Kept s0 s) :
    Kept s0 (writeHostCfg s w) := hk0.same rfl rfl rfl rfl rfl rfl

theorem kept_writeSeed {s0 : State} {s : State} {n w : Nat} (hk0 : Kept s0 s) :
    Kept s0 (writeSeed s n w) := hk0.same rfl rfl rfl rfl rfl rfl

theorem kept_writeBar2Win {s0 : State} {s : State} {rq : Req} {f off w : Nat} (hk0 : Kept s0 s) :
    Kept s0 (writeBar2Win s rq f off w) := by
  unfold writeBar2Win
  try dsimp only
  repeat' first
    | assumption
    | with_reducible apply kept_dropWrite
    | (fail_if_no_progress with_reducible refine Kept.lit ?_ rfl rfl rfl rfl rfl rfl)
    | with_reducible refine Kept.fst ?_ (by assumption)
    | with_reducible apply keptOut_next
    | exact keptOut_notNow
    | exact keptOut_refused
    | dsimp only
    | split

theorem kept_writePwrCtl {s0 : State} {s : State} {rq : Req} {off w : Nat} (hk0 : Kept s0 s) :
    Kept s0 (writePwrCtl s rq off w) := by
  unfold writePwrCtl
  try dsimp only
  repeat' first
    | assumption
    | with_reducible apply kept_setPower
    | with_reducible apply kept_dropWrite
    | (fail_if_no_progress with_reducible refine Kept.lit ?_ rfl rfl rfl rfl rfl rfl)
    | with_reducible refine Kept.fst ?_ (by assumption)
    | with_reducible apply keptOut_next
    | exact keptOut_notNow
    | exact keptOut_refused
    | dsimp only
    | split

theorem kept_writePwrStat {s0 : State} {s : State} {w : Nat} (hk0 : Kept s0 s) :
    Kept s0 (writePwrStat s w) := by
  unfold writePwrStat
  try dsimp only
  repeat' first
    | assumption
    | with_reducible apply kept_setPower

theorem kept_writeThermStat {s0 : State} {s : State} {w : Nat} (hk0 : Kept s0 s) :
    Kept s0 (writeThermStat s w) := by
  unfold writeThermStat
  try dsimp only
  repeat' first
    | assumption
    | with_reducible apply kept_setPower

theorem kept_writeEccCnt {s0 : State} {s : State} {w : Nat} (hk0 : Kept s0 s) :
    Kept s0 (writeEccCnt s w) := by
  unfold writeEccCnt
  try dsimp only
  repeat' first
    | assumption
    | (fail_if_no_progress with_reducible refine Kept.lit ?_ rfl rfl rfl rfl rfl rfl)

theorem kept_writeVlogPtr {s0 : State} {s : State} {rq : Req} {off w : Nat} (hk0 : Kept s0 s) :
    Kept s0 (writeVlogPtr s rq off w) := by
  unfold writeVlogPtr
  try dsimp only
  repeat' first
    | assumption
    | with_reducible apply kept_raiseMsix
    | with_reducible apply kept_dropWrite
    | (fail_if_no_progress with_reducible refine Kept.lit ?_ rfl rfl rfl rfl rfl rfl)
    | with_reducible refine Kept.fst ?_ (by assumption)
    | with_reducible apply keptOut_next
    | exact keptOut_notNow
    | exact keptOut_refused
    | dsimp only
    | split

theorem kept_writeVlogStat {s0 : State} {s : State} {w : Nat} (hk0 : Kept s0 s) :
    Kept s0 (writeVlogStat s w) := by
  unfold writeVlogStat
  try dsimp only
  repeat' first
    | assumption
    | (fail_if_no_progress with_reducible refine Kept.lit ?_ rfl rfl rfl rfl rfl rfl)

theorem kept_writeKeep {s0 : State} {s : State} {rq : Req} {i w : Nat} (hk0 : Kept s0 s) :
    Kept s0 (writeKeep s rq i w) := by
  unfold writeKeep
  try dsimp only
  repeat' first
    | assumption
    | with_reducible exact kept_keepWrite (by assumption) (by assumption)
    | with_reducible apply kept_hostLog
    | (fail_if_no_progress with_reducible refine Kept.lit ?_ rfl rfl rfl rfl rfl rfl)
    | with_reducible refine Kept.fst ?_ (by assumption)
    | with_reducible apply keptOut_next
    | exact keptOut_notNow
    | exact keptOut_refused
    | dsimp only
    | split

theorem kept_writePerfCtl {s0 : State} {s : State} {w : Nat} (hk0 : Kept s0 s) :
    Kept s0 (writePerfCtl s w) := by
  unfold writePerfCtl
  try dsimp only
  repeat' first
    | assumption
    | (fail_if_no_progress with_reducible refine Kept.lit ?_ rfl rfl rfl rfl rfl rfl)

theorem kept_writeNportCnt {s0 : State} {s : State} {p w : Nat} (hk0 : Kept s0 s) :
    Kept s0 (writeNportCnt s p w) := by
  unfold writeNportCnt
  try dsimp only
  repeat' first
    | assumption
    | with_reducible apply kept_setPort

theorem kept_writeRegion {s0 : State} {s : State} {rq : Req} {l k w off v : Nat} (hk0 : Kept s0 s) :
    Kept s0 (writeRegion s rq l k w off v) := by
  unfold writeRegion
  try dsimp only
  repeat' first
    | assumption
    | with_reducible exact kept_regionWrite (by assumption) (by assumption)
    | with_reducible apply kept_dropWrite
    | (fail_if_no_progress with_reducible refine Kept.lit ?_ rfl rfl rfl rfl rfl rfl)
    | with_reducible refine Kept.fst ?_ (by assumption)
    | with_reducible apply keptOut_next
    | exact keptOut_notNow
    | exact keptOut_refused
    | dsimp only
    | split

theorem kept_writeMsix {s0 : State} {s : State} {fn v w x : Nat} (hk0 : Kept s0 s) :
    Kept s0 (writeMsix s fn v w x) := by
  unfold writeMsix
  try dsimp only
  repeat' first
    | assumption
    | with_reducible apply kept_flushMsix
    | (fail_if_no_progress with_reducible refine Kept.lit ?_ rfl rfl rfl rfl rfl rfl)

theorem kept_writeReg {s0 : State} {s : State} {rq : Req} {r : Reg} {off w : Nat} (hk0 : Kept s0 s) :
    Kept s0 (writeReg s rq r off w) := by
  unfold writeReg
  try dsimp only
  repeat' first
    | assumption
    | with_reducible apply kept_modQ
    | with_reducible apply kept_setTally
    | with_reducible apply kept_dropWrite
    | with_reducible apply kept_writeSqcfg
    | with_reducible apply kept_writeSqTail
    | with_reducible apply kept_writeStqHead
    | with_reducible apply kept_writeQstat
    | with_reducible apply kept_writeGctl
    | with_reducible apply kept_writeDevEvent
    | with_reducible apply kept_writeIrqCfg
    | with_reducible apply kept_writeHostCfg
    | with_reducible apply kept_writeSeed
    | with_reducible apply kept_writeBar2Win
    | with_reducible apply kept_writePwrCtl
    | with_reducible apply kept_writePwrStat
    | with_reducible apply kept_writeThermStat
    | with_reducible apply kept_writeEccCnt
    | with_reducible apply kept_writeVlogPtr
    | with_reducible apply kept_writeVlogStat
    | with_reducible apply kept_writeKeep
    | with_reducible apply kept_writePerfCtl
    | with_reducible apply kept_writeNportCnt
    | with_reducible apply kept_writeRegion
    | with_reducible apply kept_writeMsix
    | (fail_if_no_progress with_reducible refine Kept.lit ?_ rfl rfl rfl rfl rfl rfl)
    | with_reducible refine Kept.fst ?_ (by assumption)
    | with_reducible apply keptOut_next
    | exact keptOut_notNow
    | exact keptOut_refused
    | dsimp only
    | split

theorem kept_bar0WriteAt {s0 : State} {s : State} {rq : Req} {off size : Nat} {v : BitVec 64} (hk0 : Kept s0 s) :
    Kept s0 (bar0WriteAt s rq off size v) := by
  unfold bar0WriteAt
  try dsimp only
  repeat' first
    | assumption
    | with_reducible apply kept_touchBar0
    | with_reducible apply kept_hostLog
    | with_reducible apply kept_writeReg
    | (fail_if_no_progress with_reducible refine Kept.lit ?_ rfl rfl rfl rfl rfl rfl)
    | with_reducible refine Kept.fst ?_ (by assumption)
    | with_reducible apply keptOut_next
    | exact keptOut_notNow
    | exact keptOut_refused
    | dsimp only
    | split

theorem keptOut_pfWrite {s0 s : State} {rq : Req} {off size v : Nat} (hk0 : Kept s0 s) :
    KeptOut s0 (pfWrite rq off size v s) := by
  unfold pfWrite
  exact keptOut_hostRow (kept_bar0WriteAt hk0)

theorem kept_bar2ReadAt {s0 : State} {s : State} {rq : Req} {a n : Nat} (hk0 : Kept s0 s) :
    Kept s0 (bar2ReadAt s rq a n) := by
  unfold bar2ReadAt
  try dsimp only
  repeat' first
    | assumption
    | with_reducible apply kept_emit
    | with_reducible apply kept_devRead
    | with_reducible apply kept_countHbm
    | with_reducible apply kept_hostAbort
    | (fail_if_no_progress with_reducible refine Kept.lit ?_ rfl rfl rfl rfl rfl rfl)
    | with_reducible refine Kept.fst ?_ (by assumption)
    | with_reducible apply keptOut_next
    | exact keptOut_notNow
    | exact keptOut_refused
    | dsimp only
    | split

theorem kept_bar2WriteAt {s0 : State} {s : State} {rq : Req} {a : Nat} {bytes : List Byte} (hk0 : Kept s0 s) :
    Kept s0 (bar2WriteAt s rq a bytes) := by
  unfold bar2WriteAt
  try dsimp only
  repeat' first
    | assumption
    | with_reducible apply kept_hbmWrite
    | with_reducible apply kept_hostLog
    | (fail_if_no_progress with_reducible refine Kept.lit ?_ rfl rfl rfl rfl rfl rfl)
    | with_reducible refine Kept.fst ?_ (by assumption)
    | with_reducible apply keptOut_next
    | exact keptOut_notNow
    | exact keptOut_refused
    | dsimp only
    | split

theorem kept_flrQueue {s0 : State} {keepFunc : Bool} {s : State} {q : Nat} (hk0 : Kept s0 s) :
    Kept s0 (flrQueue keepFunc s q) := by
  unfold flrQueue
  try dsimp only
  repeat' first
    | assumption
    | with_reducible apply kept_modQ
    | with_reducible apply kept_resetQueue

theorem kept_flrFunc {s0 : State} {s : State} {f : Nat} (hk0 : Kept s0 s) :
    Kept s0 (flrFunc s f) := by
  unfold flrFunc
  try dsimp only
  repeat' first
    | assumption
    | with_reducible apply kept_setFunc
    | (fail_if_no_progress with_reducible refine Kept.lit ?_ rfl rfl rfl rfl rfl rfl)

theorem kept_freeReservations {s0 : State} {s : State} {f : Nat} (hk0 : Kept s0 s) :
    Kept s0 (freeReservations s f) := hk0.same rfl rfl rfl rfl rfl rfl

theorem kept_closeWindowsOf {s0 : State} {s : State} {qs : List Nat} (hk0 : Kept s0 s) :
    Kept s0 (closeWindowsOf s qs) := by
  unfold closeWindowsOf
  try dsimp only
  repeat' first
    | assumption
    | with_reducible apply kept_closeWindow
    | with_reducible apply kept_fold

theorem kept_vfReset {s0 : State} {s : State} {f : Nat} (hk0 : Kept s0 s) :
    Kept s0 (vfReset s f) := by
  unfold vfReset
  try dsimp only
  repeat' first
    | assumption
    | with_reducible apply kept_flrQueue
    | with_reducible apply kept_flrFunc
    | with_reducible apply kept_freeReservations
    | with_reducible apply kept_closeWindowsOf
    | with_reducible apply kept_fold
    | with_reducible apply kept_fold_fst
    | with_reducible apply kept_fold_as
    | with_reducible apply kept_fold_s
    | with_reducible apply kept_fold_land
    | (fail_if_no_progress with_reducible refine Kept.lit ?_ rfl rfl rfl rfl rfl rfl)

theorem kept_pfReset {s0 s : State} (hk0 : Kept s0 s) : Kept s0 (pfReset s) := by
  unfold pfReset
  extract_lets a b c
  have h1 : Kept s0 a := kept_fold _ hk0 fun _ _ h => kept_flrQueue h
  clear_value a
  have h2 : Kept s0 b := kept_closeWindowsOf (kept_freeAllSets (kept_unbindOf h1))
  clear_value b
  have h3 : Kept s0 c := kept_fold _ h2 fun _ _ h => kept_flrFunc h
  clear_value c
  exact h3.same rfl rfl rfl rfl rfl rfl

theorem kept_setSpdm {s0 : State} {s : State} {v : Transport} {x : Spdm} (hk0 : Kept s0 s) :
    Kept s0 (setSpdm s v x) := by
  unfold setSpdm
  try dsimp only
  repeat' first
    | assumption
    | (fail_if_no_progress with_reducible refine Kept.lit ?_ rfl rfl rfl rfl rfl rfl)
    | with_reducible refine Kept.fst ?_ (by assumption)
    | with_reducible apply keptOut_next
    | exact keptOut_notNow
    | exact keptOut_refused
    | dsimp only
    | split

theorem keptOut_spdmRow {s0 s : State} {m : SpdmReq} {k : State → State} (hk0 : Kept s0 s)
    (hb : ∀ s, Kept s0 s → Kept s0 (k s)) : KeptOut s0 (spdmRow m s k) := by
  unfold spdmRow
  split
  · trivial
  · split
    · exact hk0
    · exact hb _ (kept_setSpdm hk0)

theorem kept_spdmRefuse {s0 : State} {s : State} {m : SpdmReq} {code : Nat} (hk0 : Kept s0 s) :
    Kept s0 (spdmRefuse s m code) := by
  unfold spdmRefuse
  try dsimp only
  repeat' first
    | assumption
    | with_reducible apply kept_emit

theorem kept_spdmPlain {s0 : State} {s : State} {m : SpdmReq} {code : Nat} (hk0 : Kept s0 s) :
    Kept s0 (spdmPlain s m code) := by
  unfold spdmPlain
  try dsimp only
  repeat' first
    | assumption
    | with_reducible apply kept_emit
    | with_reducible apply kept_nextFree
    | with_reducible apply kept_spdmRefuse
    | (fail_if_no_progress with_reducible refine Kept.lit ?_ rfl rfl rfl rfl rfl rfl)
    | with_reducible refine Kept.fst ?_ (by assumption)
    | with_reducible apply keptOut_next
    | exact keptOut_notNow
    | exact keptOut_refused
    | dsimp only
    | split

theorem kept_spdmSigned {s0 : State} {s : State} {m : SpdmReq} {code : Nat} {body : List Byte} (hk0 : Kept s0 s) :
    Kept s0 (spdmSigned s m code body) := by
  unfold spdmSigned
  try dsimp only
  repeat' first
    | assumption
    | with_reducible apply kept_emit
    | with_reducible apply kept_nextFree
    | with_reducible apply kept_setSpdm

theorem kept_spdmSignedPlain {s0 : State} {s : State} {m : SpdmReq} {slot code : Nat} (hk0 : Kept s0 s) :
    Kept s0 (spdmSignedPlain s m slot code) := by
  unfold spdmSignedPlain
  try dsimp only
  repeat' first
    | assumption
    | with_reducible apply kept_nextFree
    | with_reducible apply kept_spdmRefuse
    | with_reducible apply kept_spdmSigned
    | (fail_if_no_progress with_reducible refine Kept.lit ?_ rfl rfl rfl rfl rfl rfl)
    | with_reducible refine Kept.fst ?_ (by assumption)
    | with_reducible apply keptOut_next
    | exact keptOut_notNow
    | exact keptOut_refused
    | dsimp only
    | split

theorem kept_spdmFixed {s0 : State} {s : State} {m : SpdmReq} {code : Nat} {body : List Byte} (hk0 : Kept s0 s) :
    Kept s0 (spdmFixed s m code body) := by
  unfold spdmFixed
  try dsimp only
  repeat' first
    | assumption
    | with_reducible apply kept_emit
    | with_reducible apply kept_spdmRefuse
    | (fail_if_no_progress with_reducible refine Kept.lit ?_ rfl rfl rfl rfl rfl rfl)
    | with_reducible refine Kept.fst ?_ (by assumption)
    | with_reducible apply keptOut_next
    | exact keptOut_notNow
    | exact keptOut_refused
    | dsimp only
    | split

theorem kept_inSession {s0 : State} {s : State} {m : SpdmReq} {code : Nat} (hk0 : Kept s0 s) :
    Kept s0 (inSession s m code) := by
  unfold inSession
  try dsimp only
  repeat' first
    | assumption
    | with_reducible apply kept_spdmRefuse
    | with_reducible apply kept_spdmPlain
    | (fail_if_no_progress with_reducible refine Kept.lit ?_ rfl rfl rfl rfl rfl rfl)
    | with_reducible refine Kept.fst ?_ (by assumption)
    | with_reducible apply keptOut_next
    | exact keptOut_notNow
    | exact keptOut_refused
    | dsimp only
    | split

theorem keptOut_recoveryRow {s0 : State} {s : State} {k : State} (hk0 : Kept s0 s) (hk1 : Kept s0 k) :
    KeptOut s0 (recoveryRow s k) := by
  unfold recoveryRow
  try dsimp only
  repeat' first
    | assumption
    | (fail_if_no_progress with_reducible refine Kept.lit ?_ rfl rfl rfl rfl rfl rfl)
    | with_reducible refine Kept.fst ?_ (by assumption)
    | with_reducible apply keptOut_next
    | exact keptOut_notNow
    | exact keptOut_refused
    | dsimp only
    | split

theorem kept_stopReply {s0 : State} {s : State} {q : Nat} {w : BitVec 128} {irq : Bool} (hk0 : Kept s0 s) :
    Kept s0 (stopReply s q w irq) := by
  unfold stopReply
  try dsimp only
  repeat' first
    | assumption
    | with_reducible apply kept_writeReply
    | (fail_if_no_progress with_reducible refine Kept.lit ?_ rfl rfl rfl rfl rfl rfl)
    | with_reducible refine Kept.fst ?_ (by assumption)
    | with_reducible apply keptOut_next
    | exact keptOut_notNow
    | exact keptOut_refused
    | dsimp only
    | split

theorem kept_stopOp {s0 : State} {s : State} {o : Op} (hk0 : Kept s0 s) :
    Kept s0 (stopOp s o) := by
  unfold stopOp
  try dsimp only
  repeat' first
    | assumption
    | with_reducible apply kept_endFail
    | with_reducible apply kept_cutSnap
    | with_reducible apply kept_applySignals
    | with_reducible apply kept_stopReply
    | (fail_if_no_progress with_reducible refine Kept.lit ?_ rfl rfl rfl rfl rfl rfl)
    | with_reducible refine Kept.fst ?_ (by assumption)
    | with_reducible apply keptOut_next
    | exact keptOut_notNow
    | exact keptOut_refused
    | dsimp only
    | split

theorem kept_stopDeferred {s0 : State} {s : State} {q : Nat} (hk0 : Kept s0 s) :
    Kept s0 (stopDeferred s q) := by
  unfold stopDeferred
  try dsimp only
  repeat' first
    | assumption
    | with_reducible apply kept_stopReply
    | with_reducible apply kept_fold
    | with_reducible apply kept_fold_fst
    | with_reducible apply kept_fold_as
    | with_reducible apply kept_fold_s
    | with_reducible apply kept_fold_land
    | (fail_if_no_progress with_reducible refine Kept.lit ?_ rfl rfl rfl rfl rfl rfl)
    | with_reducible refine Kept.fst ?_ (by assumption)
    | with_reducible apply keptOut_next
    | exact keptOut_notNow
    | exact keptOut_refused
    | dsimp only
    | split
    | intro _

theorem kept_stopRelay {s0 : State} {s : State} {r : Relay} (hk0 : Kept s0 s) :
    Kept s0 (stopRelay s r) := by
  unfold stopRelay
  try dsimp only
  repeat' first
    | assumption
    | with_reducible apply kept_relayLog
    | with_reducible apply kept_stopReply
    | with_reducible apply kept_fold
    | with_reducible apply kept_fold_fst
    | with_reducible apply kept_fold_as
    | with_reducible apply kept_fold_s
    | with_reducible apply kept_fold_land
    | (fail_if_no_progress with_reducible refine Kept.lit ?_ rfl rfl rfl rfl rfl rfl)
    | with_reducible refine Kept.fst ?_ (by assumption)
    | with_reducible apply keptOut_next
    | exact keptOut_notNow
    | exact keptOut_refused
    | dsimp only
    | split
    | intro _

theorem kept_stopAll {s0 s : State} (hk0 : Kept s0 s) : Kept s0 (stopAll s) := by
  unfold stopAll
  extract_lets g a b c d
  have h1 : Kept s0 a := hk0.same rfl rfl rfl rfl rfl rfl
  clear_value a
  have h2 : Kept s0 b := kept_fold _ h1 fun _ _ h => kept_stopDeferred h
  clear_value b
  have h3 : Kept s0 c := kept_fold _ (kept_fold _ h2 fun _ _ h => kept_stopOp h) fun _ _ h => kept_stopRelay h
  clear_value c
  have h4 : Kept s0 d := kept_fold _ h3 fun _ _ h => kept_ite h (kept_modQ h)
  clear_value d
  exact kept_setFab (kept_setOps h4)

theorem kept_startPorts {s0 : State} {s : State} {warm : Bool} (hk0 : Kept s0 s) :
    Kept s0 (startPorts s warm) := by
  unfold startPorts
  try dsimp only
  repeat' first
    | assumption
    | with_reducible apply kept_setPort
    | with_reducible apply kept_setPd
    | with_reducible apply kept_startTraining
    | with_reducible apply kept_fold
    | with_reducible apply kept_fold_fst
    | with_reducible apply kept_fold_as
    | with_reducible apply kept_fold_s
    | with_reducible apply kept_fold_land
    | (fail_if_no_progress with_reducible refine Kept.lit ?_ rfl rfl rfl rfl rfl rfl)
    | with_reducible refine Kept.fst ?_ (by assumption)
    | with_reducible apply keptOut_next
    | exact keptOut_notNow
    | exact keptOut_refused
    | dsimp only
    | split
    | intro _

theorem kept_warmState {s0 s : State} (hk0 : Kept s0 s) : Kept s0 (warmState s) :=
  hk0.devMem (fun h => memWf_memClear _ _ h) rfl rfl rfl rfl rfl

theorem kept_startUp {s0 : State} {s : State} {st : StartIn} {warm : Bool} (hk0 : Kept s0 s) :
    Kept s0 (startUp s st warm) := by
  unfold startUp
  try dsimp only
  repeat' first
    | assumption
    | with_reducible apply kept_loaderStart
    | with_reducible apply kept_noteBase
    | with_reducible apply kept_selfTest
    | with_reducible apply kept_setCap
    | with_reducible apply kept_startPorts
    | (fail_if_no_progress with_reducible refine Kept.lit ?_ rfl rfl rfl rfl rfl rfl)
    | with_reducible refine Kept.fst ?_ (by assumption)
    | with_reducible apply keptOut_next
    | exact keptOut_notNow
    | exact keptOut_refused
    | dsimp only
    | split

theorem kept_warmStart {s0 : State} {s : State} {st : StartIn} (hk0 : Kept s0 s) :
    Kept s0 (warmStart s st) := by
  unfold warmStart
  try dsimp only
  repeat' first
    | assumption
    | with_reducible apply kept_warmState
    | with_reducible apply kept_startUp

theorem kept_powerLoss {s0 s : State} (hk0 : Kept s0 s) : Kept s0 (powerLoss s) := by
  have h1 := kept_tearRecord hk0
  unfold powerLoss
  generalize tearRecord s = t at h1
  exact h1.devMem (fun _ => rfl) rfl rfl rfl rfl rfl

theorem keptOut_restart {s0 s : State} {st : StartIn} (hk0 : Kept s0 s) : KeptOut s0 (restart st s) := by
  unfold restart
  split
  · trivial
  · have h1 : Kept s0 { s with glob := { s.glob with cfgUp := false } } := hk0.same rfl rfl rfl rfl rfl rfl
    exact kept_warmStart (kept_stopAll h1)

theorem kept_scrubLog {s0 : State} {s : State} {a : Nat} (hk0 : Kept s0 s) :
    Kept s0 (scrubLog s a) := by
  unfold scrubLog
  try dsimp only
  repeat' first
    | assumption
    | with_reducible apply kept_vlogAdd

theorem kept_arise {s0 : State} {s : State} {a : Nat} {found : Finding} (hk0 : Kept s0 s) :
    Kept s0 (arise s a found) := by
  unfold arise
  try dsimp only
  repeat' first
    | assumption
    | with_reducible apply kept_nextFree
    | with_reducible apply kept_setUpsets
    | (fail_if_no_progress with_reducible refine Kept.lit ?_ rfl rfl rfl rfl rfl rfl)
    | with_reducible refine Kept.fst ?_ (by assumption)
    | with_reducible apply keptOut_next
    | exact keptOut_notNow
    | exact keptOut_refused
    | dsimp only
    | split

theorem kept_scrub {s0 : State} {s : State} {a : Nat} (hk0 : Kept s0 s) :
    Kept s0 (scrub s a) := by
  unfold scrub
  try dsimp only
  repeat' first
    | assumption
    | with_reducible apply kept_guardUnit
    | with_reducible apply kept_scrubLog
    | (fail_if_no_progress with_reducible refine Kept.lit ?_ rfl rfl rfl rfl rfl rfl)
    | with_reducible refine Kept.fst ?_ (by assumption)
    | with_reducible apply keptOut_next
    | exact keptOut_notNow
    | exact keptOut_refused
    | dsimp only
    | split

theorem keptOut_takeAddr {s0 : State} {s : State} {a : BitVec 7} (hk0 : Kept s0 s) :
    KeptOut s0 (takeAddr s a) := by
  unfold takeAddr
  try dsimp only
  repeat' first
    | assumption
    | with_reducible apply kept_emit
    | (fail_if_no_progress with_reducible refine Kept.lit ?_ rfl rfl rfl rfl rfl rfl)
    | with_reducible refine Kept.fst ?_ (by assumption)
    | with_reducible apply keptOut_next
    | exact keptOut_notNow
    | exact keptOut_refused
    | dsimp only
    | split

theorem keptOut_mctpRow {s0 s k : State} (hk0 : Kept s0 k) : KeptOut s0 (mctpRow s k) := by
  unfold mctpRow
  split
  · exact hk0
  · trivial

theorem kept_startIdentify {s0 : State} {s : State} (hk0 : Kept s0 s) :
    Kept s0 (startIdentify s) := hk0.same rfl rfl rfl rfl rfl rfl

theorem keptOut_padRow {s0 s k : State} (hk0 : Kept s0 s) (hk1 : Kept s0 k) : KeptOut s0 (padRow s k) := by
  unfold padRow
  show Kept s0 _
  split
  · exact hk1
  · exact hk0

theorem kept_quiesceAll {s0 : State} {s : State} (hk0 : Kept s0 s) :
    Kept s0 (quiesceAll s) := by
  unfold quiesceAll
  try dsimp only
  repeat' first
    | assumption
    | with_reducible apply kept_quiescePort
    | with_reducible apply kept_fold

theorem kept_askTest {s0 : State} {s : State} (hk0 : Kept s0 s) :
    Kept s0 (askTest s) := by
  unfold askTest
  try dsimp only
  repeat' first
    | assumption
    | with_reducible apply kept_emit
    | (fail_if_no_progress with_reducible refine Kept.lit ?_ rfl rfl rfl rfl rfl rfl)
    | with_reducible refine Kept.fst ?_ (by assumption)
    | with_reducible apply keptOut_next
    | exact keptOut_notNow
    | exact keptOut_refused
    | dsimp only
    | split

end Sys2Proof.Machine
end

