-- ==== Sys2Proof/Laws/PerInstr.lean ====
section
/-!
SUPPORT. What holds of every command as syntax, one lemma for each constructor: a well-formed command names a queue
the device has.
-/

namespace Sys2Proof.Laws.QueueBound

/-- The queue a command names, if it names one. -/
def queueOf (i : Instr) : Option Nat :=
  match i with
  | .mmDense r | .mmSparse24 r | .mmCsr r | .mmRough r | .mmFinish r | .mmAccRead r | .mmAccWrite r
  | .mmDrain r | .veElementwise r | .veReduce r | .veSoftmax r | .veSoftmaxBwd r | .veNorm r | .veNormBwd r
  | .veSumPartials r | .veKnotFix r | .veAmax r | .veQuantize r | .veTopkMerge r | .veOptStep r | .ceCopy r
  | .copyCompressPair24 r | .copyCompressRows r | .copyCompressRoute r | .copyCompressActive r | .ceTranspose r
  | .ceGather r | .ceScatter r | .ceFill r | .fePut r | .feGet r | .feAllreduce r | .alltoallDispatch r
  | .alltoallCombine r | .feWindowOpen r | .feWindowClose r | .feRelay r | .syWait r | .sySignal r | .syFence r
  | .syPodBarrier r | .mgQuery r | .mgPowerDomain r | .reserveHbm r | .reserveBench r | .freeHbm r
  | .freeBench r | .limitQueue r | .limitFunc r | .tallyRange r | .mgPowerCap r | .snapshotSave r
  | .snapshotRestore r | .mgStreamBind r | .mgPatternLoad r | .mgKeepWrite r | .mgFwStage r
  | .mgFwActivate r _ | .mgFwConfirm r | .fenceUnit r | .unfenceUnit r _ | .commandStart r | .commandComplete r
    => some r.q
  | .packetAccept q _ | .replyWrite q | .sqTailDoorbell _ q _ | .stqHeadDoorbell _ q _ | .queueEnable _ q _
  | .queueReset _ q _ | .queueResetForce _ q _ | .queueResume _ q _ | .qstatWrite _ q _ => some q
  | .tallyWrite _ _ _ | .keepRegisterWrite _ _ _ | .engReset _ _ | .engineResetDone _ | .perfFreeze _ _
  | .perfClear _ | .vlogRelease _ _ | .tripClear _ | .regionEntryWrite _ _ _ _ | .bar2WinWrite _ _ _
  | .timestampLatchRead _ | .registerWrite _ _ _ _ | .bar2Read _ _ _ | .bar2Write _ _ _
  | .vfFunctionLevelReset _ | .pfFunctionLevelReset | .vfEnableClear | .d3hotEntry _ | .d0Return _
  | .busMasterEnableChange _ _ | .bar2Resize _ _ | .ideStreamExit _ | .ideKm _ _ | .doeDiscovery _
  | .getVersion _ | .getCapabilities _ | .negotiateAlgorithms _ | .getDigests _ | .getCertificate _ _
  | .challenge _ _ | .getMeasurements _ _ | .keyExchange _ _ | .finish _ _ | .heartbeat _ | .keyUpdate _
  | .endSession _ | .chunkSend _ | .chunkGet _ | .getPqSig _ | .recoveryStage _ _ | .recoveryActivate _
  | .setdasa _ | .entdaa _ | .readTelemetry | .readId | .identify | .powerOn _ _ | .perstDeassert _
  | .perstAssert | .hotReset _ | .pcieLinkLoss _ | .pwrEnFall | .powerShutdown _ | .padIdentifyTouch
  | .padHold3s | .padQuiesceRelease | .padSelftestRequest | .padSelftestDone _ | .identifyExpiry
  | .frameReceive _ _ _ | .linkFlit _ _ | .replayLimitRetrain _ | .helloFlit _ _ | .routeFlit _ _
  | .routeRecompute | .writePacket _ | .readPacket _ | .dataPacket _ | .respPacket _ | .collPacket _
  | .relayPacket _ | .replyPacket _ | .retransmitTimeout _ _ | .laneFailure _ _ | .cablePull _ | .cableInsert _
  | .portQuiesced _ | .portRejoinTimer _ | .fabricWindowTick | .bridgeCrcFail | .bridgeRetrain
  | .bridgeRetrainFail | .governorSample _ | .hotTimer | .thermalTrip | .domainDrainDone _
  | .domainDrainTimeout _ _ | .domainOnComplete _ | .patrolScrub _ _ | .benchScrub _ _ _ | .watchdogExpiry
  | .spindleStep _ | .chuckSwap _ | .groupRescale _ | .tileDrain _ _ | .bar0Read _ _ _ | .portTrainingComplete _ _ => none

/-- A well-formed command that names a queue names one of 0 to 63 (R304). -/
def Statement (i : Instr) : Prop := i.wf = true → ∀ q, queueOf i = some q → q < 64

theorem of_ref {i : Instr} {r : OpRef} (hq : queueOf i = some r.q) (hw : i.wf = true → r.wf = true) : Statement i := by
  intro w q e
  have h := hw w
  simp only [OpRef.wf, Bool.and_eq_true, decide_eq_true_eq] at h
  rw [hq] at e
  cases e
  exact h.1

theorem of_queue {i : Instr} {q : Nat} (hq : queueOf i = some q) (hw : i.wf = true → q < 64) : Statement i := by
  intro w p e
  rw [hq] at e
  cases e
  exact hw w

theorem of_none {i : Instr} (hq : queueOf i = none) : Statement i := by
  intro _ q e
  rw [hq] at e
  cases e

theorem mmDense (r : OpRef) : Statement (.mmDense r) := of_ref rfl id
theorem mmSparse24 (r : OpRef) : Statement (.mmSparse24 r) := of_ref rfl id
theorem mmCsr (r : OpRef) : Statement (.mmCsr r) := of_ref rfl id
theorem mmRough (r : OpRef) : Statement (.mmRough r) := of_ref rfl id
theorem mmFinish (r : OpRef) : Statement (.mmFinish r) := of_ref rfl id
theorem mmAccRead (r : OpRef) : Statement (.mmAccRead r) := of_ref rfl id
theorem mmAccWrite (r : OpRef) : Statement (.mmAccWrite r) := of_ref rfl id
theorem mmDrain (r : OpRef) : Statement (.mmDrain r) := of_ref rfl id
theorem veElementwise (r : OpRef) : Statement (.veElementwise r) := of_ref rfl id
theorem veReduce (r : OpRef) : Statement (.veReduce r) := of_ref rfl id
theorem veSoftmax (r : OpRef) : Statement (.veSoftmax r) := of_ref rfl id
theorem veSoftmaxBwd (r : OpRef) : Statement (.veSoftmaxBwd r) := of_ref rfl id
theorem veNorm (r : OpRef) : Statement (.veNorm r) := of_ref rfl id
theorem veNormBwd (r : OpRef) : Statement (.veNormBwd r) := of_ref rfl id
theorem veSumPartials (r : OpRef) : Statement (.veSumPartials r) := of_ref rfl id
theorem veKnotFix (r : OpRef) : Statement (.veKnotFix r) := of_ref rfl id
theorem veAmax (r : OpRef) : Statement (.veAmax r) := of_ref rfl id
theorem veQuantize (r : OpRef) : Statement (.veQuantize r) := of_ref rfl id
theorem veTopkMerge (r : OpRef) : Statement (.veTopkMerge r) := of_ref rfl id
theorem veOptStep (r : OpRef) : Statement (.veOptStep r) := of_ref rfl id
theorem ceCopy (r : OpRef) : Statement (.ceCopy r) := of_ref rfl id
theorem copyCompressPair24 (r : OpRef) : Statement (.copyCompressPair24 r) := of_ref rfl id
theorem copyCompressRows (r : OpRef) : Statement (.copyCompressRows r) := of_ref rfl id
theorem copyCompressRoute (r : OpRef) : Statement (.copyCompressRoute r) := of_ref rfl id
theorem copyCompressActive (r : OpRef) : Statement (.copyCompressActive r) := of_ref rfl id
theorem ceTranspose (r : OpRef) : Statement (.ceTranspose r) := of_ref rfl id
theorem ceGather (r : OpRef) : Statement (.ceGather r) := of_ref rfl id
theorem ceScatter (r : OpRef) : Statement (.ceScatter r) := of_ref rfl id
theorem ceFill (r : OpRef) : Statement (.ceFill r) := of_ref rfl id
theorem fePut (r : OpRef) : Statement (.fePut r) := of_ref rfl id
theorem feGet (r : OpRef) : Statement (.feGet r) := of_ref rfl id
theorem feAllreduce (r : OpRef) : Statement (.feAllreduce r) := of_ref rfl id
theorem alltoallDispatch (r : OpRef) : Statement (.alltoallDispatch r) := of_ref rfl id
theorem alltoallCombine (r : OpRef) : Statement (.alltoallCombine r) := of_ref rfl id
theorem feWindowOpen (r : OpRef) : Statement (.feWindowOpen r) := of_ref rfl id
theorem feWindowClose (r : OpRef) : Statement (.feWindowClose r) := of_ref rfl id
theorem feRelay (r : OpRef) : Statement (.feRelay r) := of_ref rfl id
theorem syWait (r : OpRef) : Statement (.syWait r) := of_ref rfl id
theorem sySignal (r : OpRef) : Statement (.sySignal r) := of_ref rfl id
theorem syFence (r : OpRef) : Statement (.syFence r) := of_ref rfl id
theorem syPodBarrier (r : OpRef) : Statement (.syPodBarrier r) := of_ref rfl id
theorem mgQuery (r : OpRef) : Statement (.mgQuery r) := of_ref rfl id
theorem mgPowerDomain (r : OpRef) : Statement (.mgPowerDomain r) := of_ref rfl id
theorem reserveHbm (r : OpRef) : Statement (.reserveHbm r) := of_ref rfl id
theorem reserveBench (r : OpRef) : Statement (.reserveBench r) := of_ref rfl id
theorem freeHbm (r : OpRef) : Statement (.freeHbm r) := of_ref rfl id
theorem freeBench (r : OpRef) : Statement (.freeBench r) := of_ref rfl id
theorem limitQueue (r : OpRef) : Statement (.limitQueue r) := of_ref rfl id
theorem limitFunc (r : OpRef) : Statement (.limitFunc r) := of_ref rfl id
theorem tallyRange (r : OpRef) : Statement (.tallyRange r) := of_ref rfl id
theorem mgPowerCap (r : OpRef) : Statement (.mgPowerCap r) := of_ref rfl id
theorem snapshotSave (r : OpRef) : Statement (.snapshotSave r) := of_ref rfl id
theorem snapshotRestore (r : OpRef) : Statement (.snapshotRestore r) := of_ref rfl id
theorem mgStreamBind (r : OpRef) : Statement (.mgStreamBind r) := of_ref rfl id
theorem mgPatternLoad (r : OpRef) : Statement (.mgPatternLoad r) := of_ref rfl id
theorem mgKeepWrite (r : OpRef) : Statement (.mgKeepWrite r) := of_ref rfl id
theorem mgFwStage (r : OpRef) : Statement (.mgFwStage r) := of_ref rfl id
theorem mgFwActivate (r : OpRef) (readBack : Bool) : Statement (.mgFwActivate r readBack) := of_ref rfl id
theorem mgFwConfirm (r : OpRef) : Statement (.mgFwConfirm r) := of_ref rfl id
theorem fenceUnit (r : OpRef) : Statement (.fenceUnit r) := of_ref rfl id
theorem unfenceUnit (r : OpRef) (pass : Bool) : Statement (.unfenceUnit r pass) := of_ref rfl id
theorem packetAccept (q : Nat) (host : HostReply) : Statement (.packetAccept q host) := of_queue rfl of_decide_eq_true
theorem commandStart (r : OpRef) : Statement (.commandStart r) := of_ref rfl id
theorem commandComplete (r : OpRef) : Statement (.commandComplete r) := of_ref rfl id
theorem replyWrite (q : Nat) : Statement (.replyWrite q) := of_queue rfl of_decide_eq_true
theorem sqTailDoorbell (rq : Req) (q : Nat) (value : BitVec 16) : Statement (.sqTailDoorbell rq q value) :=
  of_queue rfl fun w => (by simp only [Instr.wf, Bool.and_eq_true, decide_eq_true_eq] at w; exact w.2)
theorem stqHeadDoorbell (rq : Req) (q : Nat) (value : BitVec 16) : Statement (.stqHeadDoorbell rq q value) :=
  of_queue rfl fun w => (by simp only [Instr.wf, Bool.and_eq_true, decide_eq_true_eq] at w; exact w.2)
theorem queueEnable (rq : Req) (q : Nat) (value : BitVec 64) : Statement (.queueEnable rq q value) :=
  of_queue rfl fun w => (by simp only [Instr.wf, Bool.and_eq_true, decide_eq_true_eq] at w; exact w.2)
theorem queueReset (rq : Req) (q : Nat) (value : BitVec 64) : Statement (.queueReset rq q value) :=
  of_queue rfl fun w => (by simp only [Instr.wf, Bool.and_eq_true, decide_eq_true_eq] at w; exact w.2)
theorem queueResetForce (rq : Req) (q : Nat) (value : BitVec 64) : Statement (.queueResetForce rq q value) :=
  of_queue rfl fun w => (by simp only [Instr.wf, Bool.and_eq_true, decide_eq_true_eq] at w; exact w.2)
theorem queueResume (rq : Req) (q : Nat) (value : BitVec 64) : Statement (.queueResume rq q value) :=
  of_queue rfl fun w => (by simp only [Instr.wf, Bool.and_eq_true, decide_eq_true_eq] at w; exact w.2)
theorem tallyWrite (rq : Req) (i : Nat) (value : BitVec 32) : Statement (.tallyWrite rq i value) := of_none rfl
theorem keepRegisterWrite (rq : Req) (i : Nat) (value : BitVec 32) : Statement (.keepRegisterWrite rq i value) :=
  of_none rfl
theorem engReset (rq : Req) (mask : BitVec 4) : Statement (.engReset rq mask) := of_none rfl
theorem engineResetDone (cls : Nat) : Statement (.engineResetDone cls) := of_none rfl
theorem perfFreeze (rq : Req) (freeze : Bool) : Statement (.perfFreeze rq freeze) := of_none rfl
theorem perfClear (rq : Req) : Statement (.perfClear rq) := of_none rfl
theorem vlogRelease (rq : Req) (head : BitVec 8) : Statement (.vlogRelease rq head) := of_none rfl
theorem tripClear (rq : Req) : Statement (.tripClear rq) := of_none rfl
theorem regionEntryWrite (rq : Req) (lathe k : Nat) (value : BitVec 64) : Statement (.regionEntryWrite rq lathe k value) :=
  of_none rfl
theorem bar2WinWrite (rq : Req) (f : Nat) (base : BitVec 32) : Statement (.bar2WinWrite rq f base) := of_none rfl
theorem qstatWrite (rq : Req) (q : Nat) (value : BitVec 32) : Statement (.qstatWrite rq q value) :=
  of_queue rfl fun w => (by simp only [Instr.wf, Bool.and_eq_true, decide_eq_true_eq] at w; exact w.2)
theorem timestampLatchRead (rq : Req) : Statement (.timestampLatchRead rq) := of_none rfl
theorem registerWrite (rq : Req) (offset size : Nat) (value : BitVec 64) : Statement (.registerWrite rq offset size value) :=
  of_none rfl
theorem bar2Read (rq : Req) (offset len : Nat) : Statement (.bar2Read rq offset len) := of_none rfl
theorem bar2Write (rq : Req) (offset : Nat) (bytes : List Byte) : Statement (.bar2Write rq offset bytes) :=
  of_none rfl
theorem vfFunctionLevelReset (f : Nat) : Statement (.vfFunctionLevelReset f) := of_none rfl
theorem pfFunctionLevelReset : Statement (.pfFunctionLevelReset) := of_none rfl
theorem vfEnableClear : Statement (.vfEnableClear) := of_none rfl
theorem d3hotEntry (f : Nat) : Statement (.d3hotEntry f) := of_none rfl
theorem d0Return (f : Nat) : Statement (.d0Return f) := of_none rfl
theorem busMasterEnableChange (f : Nat) (on : Bool) : Statement (.busMasterEnableChange f on) := of_none rfl
theorem bar2Resize (f log2GiB : Nat) : Statement (.bar2Resize f log2GiB) := of_none rfl
theorem ideStreamExit (stream : Nat) : Statement (.ideStreamExit stream) := of_none rfl
theorem ideKm (m : SpdmReq) (stream : Nat) : Statement (.ideKm m stream) := of_none rfl
theorem doeDiscovery (index : Nat) : Statement (.doeDiscovery index) := of_none rfl
theorem getVersion (m : SpdmReq) : Statement (.getVersion m) := of_none rfl
theorem getCapabilities (m : SpdmReq) : Statement (.getCapabilities m) := of_none rfl
theorem negotiateAlgorithms (m : SpdmReq) : Statement (.negotiateAlgorithms m) := of_none rfl
theorem getDigests (m : SpdmReq) : Statement (.getDigests m) := of_none rfl
theorem getCertificate (m : SpdmReq) (slot : Nat) : Statement (.getCertificate m slot) := of_none rfl
theorem challenge (m : SpdmReq) (slot : Nat) : Statement (.challenge m slot) := of_none rfl
theorem getMeasurements (m : SpdmReq) (signed : Bool) : Statement (.getMeasurements m signed) := of_none rfl
theorem keyExchange (m : SpdmReq) (slot : Nat) : Statement (.keyExchange m slot) := of_none rfl
theorem finish (m : SpdmReq) (session : Nat) : Statement (.finish m session) := of_none rfl
theorem heartbeat (m : SpdmReq) : Statement (.heartbeat m) := of_none rfl
theorem keyUpdate (m : SpdmReq) : Statement (.keyUpdate m) := of_none rfl
theorem endSession (m : SpdmReq) : Statement (.endSession m) := of_none rfl
theorem chunkSend (m : SpdmReq) : Statement (.chunkSend m) := of_none rfl
theorem chunkGet (m : SpdmReq) : Statement (.chunkGet m) := of_none rfl
theorem getPqSig (m : SpdmReq) : Statement (.getPqSig m) := of_none rfl
theorem recoveryStage (block : Nat) (data : List Byte) : Statement (.recoveryStage block data) := of_none rfl
theorem recoveryActivate (readBack : Bool) : Statement (.recoveryActivate readBack) := of_none rfl
theorem setdasa (addr : BitVec 7) : Statement (.setdasa addr) := of_none rfl
theorem entdaa (addr : BitVec 7) : Statement (.entdaa addr) := of_none rfl
theorem readTelemetry : Statement (.readTelemetry) := of_none rfl
theorem readId : Statement (.readId) := of_none rfl
theorem identify : Statement (.identify) := of_none rfl
theorem powerOn (vinDv : Nat) (slotId : BitVec 3) : Statement (.powerOn vinDv slotId) := of_none rfl
theorem perstDeassert (st : StartIn) : Statement (.perstDeassert st) := of_none rfl
theorem perstAssert : Statement (.perstAssert) := of_none rfl
theorem hotReset (st : StartIn) : Statement (.hotReset st) := of_none rfl
theorem pcieLinkLoss (st : StartIn) : Statement (.pcieLinkLoss st) := of_none rfl
theorem pwrEnFall : Statement (.pwrEnFall) := of_none rfl
theorem powerShutdown (cause : ShutdownCause) : Statement (.powerShutdown cause) := of_none rfl
theorem padIdentifyTouch : Statement (.padIdentifyTouch) := of_none rfl
theorem padHold3s : Statement (.padHold3s) := of_none rfl
theorem padQuiesceRelease : Statement (.padQuiesceRelease) := of_none rfl
theorem padSelftestRequest : Statement (.padSelftestRequest) := of_none rfl
theorem padSelftestDone (st : StartIn) : Statement (.padSelftestDone st) := of_none rfl
theorem identifyExpiry : Statement (.identifyExpiry) := of_none rfl
theorem frameReceive (port : Nat) (fec : Fec) (message : Nat) : Statement (.frameReceive port fec message) :=
  of_none rfl
theorem linkFlit (port : Nat) (flit : Nat) : Statement (.linkFlit port flit) := of_none rfl
theorem replayLimitRetrain (port : Nat) : Statement (.replayLimitRetrain port) := of_none rfl
theorem helloFlit (port : Nat) (h : Hello) : Statement (.helloFlit port h) := of_none rfl
theorem routeFlit (port : Nat) (news : RouteNews) : Statement (.routeFlit port news) := of_none rfl
theorem routeRecompute : Statement (.routeRecompute) := of_none rfl
theorem writePacket (p : Packet) : Statement (.writePacket p) := of_none rfl
theorem readPacket (p : Packet) : Statement (.readPacket p) := of_none rfl
theorem dataPacket (p : Packet) : Statement (.dataPacket p) := of_none rfl
theorem respPacket (p : Packet) : Statement (.respPacket p) := of_none rfl
theorem collPacket (p : Packet) : Statement (.collPacket p) := of_none rfl
theorem relayPacket (p : Packet) : Statement (.relayPacket p) := of_none rfl
theorem replyPacket (p : Packet) : Statement (.replyPacket p) := of_none rfl
theorem retransmitTimeout (dst txn : Nat) : Statement (.retransmitTimeout dst txn) := of_none rfl
theorem laneFailure (port : Nat) (whole : BitVec 8) : Statement (.laneFailure port whole) := of_none rfl
theorem cablePull (port : Nat) : Statement (.cablePull port) := of_none rfl
theorem cableInsert (port : Nat) : Statement (.cableInsert port) := of_none rfl
theorem portQuiesced (port : Nat) : Statement (.portQuiesced port) := of_none rfl
theorem portRejoinTimer (port : Nat) : Statement (.portRejoinTimer port) := of_none rfl
theorem fabricWindowTick : Statement (.fabricWindowTick) := of_none rfl
theorem bridgeCrcFail : Statement (.bridgeCrcFail) := of_none rfl
theorem bridgeRetrain : Statement (.bridgeRetrain) := of_none rfl
theorem bridgeRetrainFail : Statement (.bridgeRetrainFail) := of_none rfl
theorem governorSample (x : Sample) : Statement (.governorSample x) := of_none rfl
theorem hotTimer : Statement (.hotTimer) := of_none rfl
theorem thermalTrip : Statement (.thermalTrip) := of_none rfl
theorem domainDrainDone (d : Nat) : Statement (.domainDrainDone d) := of_none rfl
theorem domainDrainTimeout (d addr : Nat) : Statement (.domainDrainTimeout d addr) := of_none rfl
theorem domainOnComplete (d : Nat) : Statement (.domainOnComplete d) := of_none rfl
theorem patrolScrub (addr : Nat) (found : Finding) : Statement (.patrolScrub addr found) := of_none rfl
theorem benchScrub (lathe row : Nat) (found : Finding) : Statement (.benchScrub lathe row found) := of_none rfl
theorem watchdogExpiry : Statement (.watchdogExpiry) := of_none rfl
theorem spindleStep (x : StepArgs) : Statement (.spindleStep x) := of_none rfl
theorem chuckSwap (spindle : Nat) : Statement (.chuckSwap spindle) := of_none rfl
theorem groupRescale (x : RescaleArgs) : Statement (.groupRescale x) := of_none rfl
theorem tileDrain (spindle set : Nat) : Statement (.tileDrain spindle set) := of_none rfl
theorem bar0Read (rq : Req) (offset size : Nat) : Statement (.bar0Read rq offset size) := of_none rfl
theorem portTrainingComplete (port : Nat) (whole : BitVec 8) : Statement (.portTrainingComplete port whole) :=
  of_none rfl

end Sys2Proof.Laws.QueueBound
end

