-- ==== Sys2Proof/Laws/State.lean ====
section
/-!
SUPPORT. What every update of the state leaves, field by field, and what reading after writing answers.
-/

namespace Sys2Proof.Machine

section
variable (s : State) (q : Nat) (v : Queue)
@[simp] theorem setQ_pins : (setQ s q v).pins = s.pins := rfl
@[simp] theorem setQ_glob : (setQ s q v).glob = s.glob := rfl
@[simp] theorem setQ_pcie : (setQ s q v).pcie = s.pcie := rfl
@[simp] theorem setQ_mems : (setQ s q v).mems = s.mems := rfl
@[simp] theorem setQ_dies : (setQ s q v).dies = s.dies := rfl
@[simp] theorem setQ_head_ops : (setQ s q v).head.ops = s.head.ops := rfl
@[simp] theorem setQ_head_tallies : (setQ s q v).head.tallies = s.head.tallies := rfl
@[simp] theorem setQ_head_limits : (setQ s q v).head.limits = s.head.limits := rfl
@[simp] theorem setQ_head_tallyRange : (setQ s q v).head.tallyRange = s.head.tallyRange := rfl
@[simp] theorem setQ_head_reservations : (setQ s q v).head.reservations = s.head.reservations := rfl
@[simp] theorem setQ_head_streams : (setQ s q v).head.streams = s.head.streams := rfl
@[simp] theorem setQ_head_collCount : (setQ s q v).head.collCount = s.head.collCount := rfl
@[simp] theorem setQ_head_expertMaps : (setQ s q v).head.expertMaps = s.head.expertMaps := rfl
@[simp] theorem setQ_head_turn : (setQ s q v).head.turn = s.head.turn := rfl
@[simp] theorem setQ_head_served : (setQ s q v).head.served = s.head.served := rfl
@[simp] theorem setQ_fab : (setQ s q v).fab = s.fab := rfl
@[simp] theorem setQ_power : (setQ s q v).power = s.power := rfl
@[simp] theorem setQ_faults : (setQ s q v).faults = s.faults := rfl
@[simp] theorem setQ_firm : (setQ s q v).firm = s.firm := rfl
@[simp] theorem setQ_spdmDoe : (setQ s q v).spdmDoe = s.spdmDoe := rfl
@[simp] theorem setQ_spdmMctp : (setQ s q v).spdmMctp = s.spdmMctp := rfl
@[simp] theorem setQ_perf : (setQ s q v).perf = s.perf := rfl
@[simp] theorem setQ_face : (setQ s q v).face = s.face := rfl
@[simp] theorem setQ_snap : (setQ s q v).snap = s.snap := rfl
@[simp] theorem setQ_out : (setQ s q v).out = s.out := rfl
@[simp] theorem setQ_freeIdx : (setQ s q v).freeIdx = s.freeIdx := rfl
@[simp] theorem setQ_pending : (setQ s q v).pending = s.pending := rfl
end

section
variable (s : State) (q : Nat) (v : Queue → Queue)
@[simp] theorem modQ_pins : (modQ s q v).pins = s.pins := rfl
@[simp] theorem modQ_glob : (modQ s q v).glob = s.glob := rfl
@[simp] theorem modQ_pcie : (modQ s q v).pcie = s.pcie := rfl
@[simp] theorem modQ_mems : (modQ s q v).mems = s.mems := rfl
@[simp] theorem modQ_dies : (modQ s q v).dies = s.dies := rfl
@[simp] theorem modQ_head_ops : (modQ s q v).head.ops = s.head.ops := rfl
@[simp] theorem modQ_head_tallies : (modQ s q v).head.tallies = s.head.tallies := rfl
@[simp] theorem modQ_head_limits : (modQ s q v).head.limits = s.head.limits := rfl
@[simp] theorem modQ_head_tallyRange : (modQ s q v).head.tallyRange = s.head.tallyRange := rfl
@[simp] theorem modQ_head_reservations : (modQ s q v).head.reservations = s.head.reservations := rfl
@[simp] theorem modQ_head_streams : (modQ s q v).head.streams = s.head.streams := rfl
@[simp] theorem modQ_head_collCount : (modQ s q v).head.collCount = s.head.collCount := rfl
@[simp] theorem modQ_head_expertMaps : (modQ s q v).head.expertMaps = s.head.expertMaps := rfl
@[simp] theorem modQ_head_turn : (modQ s q v).head.turn = s.head.turn := rfl
@[simp] theorem modQ_head_served : (modQ s q v).head.served = s.head.served := rfl
@[simp] theorem modQ_fab : (modQ s q v).fab = s.fab := rfl
@[simp] theorem modQ_power : (modQ s q v).power = s.power := rfl
@[simp] theorem modQ_faults : (modQ s q v).faults = s.faults := rfl
@[simp] theorem modQ_firm : (modQ s q v).firm = s.firm := rfl
@[simp] theorem modQ_spdmDoe : (modQ s q v).spdmDoe = s.spdmDoe := rfl
@[simp] theorem modQ_spdmMctp : (modQ s q v).spdmMctp = s.spdmMctp := rfl
@[simp] theorem modQ_perf : (modQ s q v).perf = s.perf := rfl
@[simp] theorem modQ_face : (modQ s q v).face = s.face := rfl
@[simp] theorem modQ_snap : (modQ s q v).snap = s.snap := rfl
@[simp] theorem modQ_out : (modQ s q v).out = s.out := rfl
@[simp] theorem modQ_freeIdx : (modQ s q v).freeIdx = s.freeIdx := rfl
@[simp] theorem modQ_pending : (modQ s q v).pending = s.pending := rfl
end

section
variable (s : State) (v : List Op)
@[simp] theorem setOps_pins : (setOps s v).pins = s.pins := rfl
@[simp] theorem setOps_glob : (setOps s v).glob = s.glob := rfl
@[simp] theorem setOps_pcie : (setOps s v).pcie = s.pcie := rfl
@[simp] theorem setOps_mems : (setOps s v).mems = s.mems := rfl
@[simp] theorem setOps_dies : (setOps s v).dies = s.dies := rfl
@[simp] theorem setOps_head_queues : (setOps s v).head.queues = s.head.queues := rfl
@[simp] theorem setOps_head_tallies : (setOps s v).head.tallies = s.head.tallies := rfl
@[simp] theorem setOps_head_limits : (setOps s v).head.limits = s.head.limits := rfl
@[simp] theorem setOps_head_tallyRange : (setOps s v).head.tallyRange = s.head.tallyRange := rfl
@[simp] theorem setOps_head_reservations : (setOps s v).head.reservations = s.head.reservations := rfl
@[simp] theorem setOps_head_streams : (setOps s v).head.streams = s.head.streams := rfl
@[simp] theorem setOps_head_collCount : (setOps s v).head.collCount = s.head.collCount := rfl
@[simp] theorem setOps_head_expertMaps : (setOps s v).head.expertMaps = s.head.expertMaps := rfl
@[simp] theorem setOps_head_turn : (setOps s v).head.turn = s.head.turn := rfl
@[simp] theorem setOps_head_served : (setOps s v).head.served = s.head.served := rfl
@[simp] theorem setOps_fab : (setOps s v).fab = s.fab := rfl
@[simp] theorem setOps_power : (setOps s v).power = s.power := rfl
@[simp] theorem setOps_faults : (setOps s v).faults = s.faults := rfl
@[simp] theorem setOps_firm : (setOps s v).firm = s.firm := rfl
@[simp] theorem setOps_spdmDoe : (setOps s v).spdmDoe = s.spdmDoe := rfl
@[simp] theorem setOps_spdmMctp : (setOps s v).spdmMctp = s.spdmMctp := rfl
@[simp] theorem setOps_perf : (setOps s v).perf = s.perf := rfl
@[simp] theorem setOps_face : (setOps s v).face = s.face := rfl
@[simp] theorem setOps_snap : (setOps s v).snap = s.snap := rfl
@[simp] theorem setOps_out : (setOps s v).out = s.out := rfl
@[simp] theorem setOps_freeIdx : (setOps s v).freeIdx = s.freeIdx := rfl
@[simp] theorem setOps_pending : (setOps s v).pending = s.pending := rfl
end

section
variable (s : State) (v : Op)
@[simp] theorem putOp_pins : (putOp s v).pins = s.pins := rfl
@[simp] theorem putOp_glob : (putOp s v).glob = s.glob := rfl
@[simp] theorem putOp_pcie : (putOp s v).pcie = s.pcie := rfl
@[simp] theorem putOp_mems : (putOp s v).mems = s.mems := rfl
@[simp] theorem putOp_dies : (putOp s v).dies = s.dies := rfl
@[simp] theorem putOp_head_queues : (putOp s v).head.queues = s.head.queues := rfl
@[simp] theorem putOp_head_tallies : (putOp s v).head.tallies = s.head.tallies := rfl
@[simp] theorem putOp_head_limits : (putOp s v).head.limits = s.head.limits := rfl
@[simp] theorem putOp_head_tallyRange : (putOp s v).head.tallyRange = s.head.tallyRange := rfl
@[simp] theorem putOp_head_reservations : (putOp s v).head.reservations = s.head.reservations := rfl
@[simp] theorem putOp_head_streams : (putOp s v).head.streams = s.head.streams := rfl
@[simp] theorem putOp_head_collCount : (putOp s v).head.collCount = s.head.collCount := rfl
@[simp] theorem putOp_head_expertMaps : (putOp s v).head.expertMaps = s.head.expertMaps := rfl
@[simp] theorem putOp_head_turn : (putOp s v).head.turn = s.head.turn := rfl
@[simp] theorem putOp_head_served : (putOp s v).head.served = s.head.served := rfl
@[simp] theorem putOp_fab : (putOp s v).fab = s.fab := rfl
@[simp] theorem putOp_power : (putOp s v).power = s.power := rfl
@[simp] theorem putOp_faults : (putOp s v).faults = s.faults := rfl
@[simp] theorem putOp_firm : (putOp s v).firm = s.firm := rfl
@[simp] theorem putOp_spdmDoe : (putOp s v).spdmDoe = s.spdmDoe := rfl
@[simp] theorem putOp_spdmMctp : (putOp s v).spdmMctp = s.spdmMctp := rfl
@[simp] theorem putOp_perf : (putOp s v).perf = s.perf := rfl
@[simp] theorem putOp_face : (putOp s v).face = s.face := rfl
@[simp] theorem putOp_snap : (putOp s v).snap = s.snap := rfl
@[simp] theorem putOp_out : (putOp s v).out = s.out := rfl
@[simp] theorem putOp_freeIdx : (putOp s v).freeIdx = s.freeIdx := rfl
@[simp] theorem putOp_pending : (putOp s v).pending = s.pending := rfl
end

section
variable (s : State) (q v : Nat)
@[simp] theorem delOp_pins : (delOp s q v).pins = s.pins := rfl
@[simp] theorem delOp_glob : (delOp s q v).glob = s.glob := rfl
@[simp] theorem delOp_pcie : (delOp s q v).pcie = s.pcie := rfl
@[simp] theorem delOp_mems : (delOp s q v).mems = s.mems := rfl
@[simp] theorem delOp_dies : (delOp s q v).dies = s.dies := rfl
@[simp] theorem delOp_head_queues : (delOp s q v).head.queues = s.head.queues := rfl
@[simp] theorem delOp_head_tallies : (delOp s q v).head.tallies = s.head.tallies := rfl
@[simp] theorem delOp_head_limits : (delOp s q v).head.limits = s.head.limits := rfl
@[simp] theorem delOp_head_tallyRange : (delOp s q v).head.tallyRange = s.head.tallyRange := rfl
@[simp] theorem delOp_head_reservations : (delOp s q v).head.reservations = s.head.reservations := rfl
@[simp] theorem delOp_head_streams : (delOp s q v).head.streams = s.head.streams := rfl
@[simp] theorem delOp_head_collCount : (delOp s q v).head.collCount = s.head.collCount := rfl
@[simp] theorem delOp_head_expertMaps : (delOp s q v).head.expertMaps = s.head.expertMaps := rfl
@[simp] theorem delOp_head_turn : (delOp s q v).head.turn = s.head.turn := rfl
@[simp] theorem delOp_head_served : (delOp s q v).head.served = s.head.served := rfl
@[simp] theorem delOp_fab : (delOp s q v).fab = s.fab := rfl
@[simp] theorem delOp_power : (delOp s q v).power = s.power := rfl
@[simp] theorem delOp_faults : (delOp s q v).faults = s.faults := rfl
@[simp] theorem delOp_firm : (delOp s q v).firm = s.firm := rfl
@[simp] theorem delOp_spdmDoe : (delOp s q v).spdmDoe = s.spdmDoe := rfl
@[simp] theorem delOp_spdmMctp : (delOp s q v).spdmMctp = s.spdmMctp := rfl
@[simp] theorem delOp_perf : (delOp s q v).perf = s.perf := rfl
@[simp] theorem delOp_face : (delOp s q v).face = s.face := rfl
@[simp] theorem delOp_snap : (delOp s q v).snap = s.snap := rfl
@[simp] theorem delOp_out : (delOp s q v).out = s.out := rfl
@[simp] theorem delOp_freeIdx : (delOp s q v).freeIdx = s.freeIdx := rfl
@[simp] theorem delOp_pending : (delOp s q v).pending = s.pending := rfl
end

section
variable (s : State) (i : Nat) (v : BitVec 32)
@[simp] theorem setTally_pins : (setTally s i v).pins = s.pins := rfl
@[simp] theorem setTally_glob : (setTally s i v).glob = s.glob := rfl
@[simp] theorem setTally_pcie : (setTally s i v).pcie = s.pcie := rfl
@[simp] theorem setTally_mems : (setTally s i v).mems = s.mems := rfl
@[simp] theorem setTally_dies : (setTally s i v).dies = s.dies := rfl
@[simp] theorem setTally_head_queues : (setTally s i v).head.queues = s.head.queues := rfl
@[simp] theorem setTally_head_ops : (setTally s i v).head.ops = s.head.ops := rfl
@[simp] theorem setTally_head_limits : (setTally s i v).head.limits = s.head.limits := rfl
@[simp] theorem setTally_head_tallyRange : (setTally s i v).head.tallyRange = s.head.tallyRange := rfl
@[simp] theorem setTally_head_reservations : (setTally s i v).head.reservations = s.head.reservations := rfl
@[simp] theorem setTally_head_streams : (setTally s i v).head.streams = s.head.streams := rfl
@[simp] theorem setTally_head_collCount : (setTally s i v).head.collCount = s.head.collCount := rfl
@[simp] theorem setTally_head_expertMaps : (setTally s i v).head.expertMaps = s.head.expertMaps := rfl
@[simp] theorem setTally_head_turn : (setTally s i v).head.turn = s.head.turn := rfl
@[simp] theorem setTally_head_served : (setTally s i v).head.served = s.head.served := rfl
@[simp] theorem setTally_fab : (setTally s i v).fab = s.fab := rfl
@[simp] theorem setTally_power : (setTally s i v).power = s.power := rfl
@[simp] theorem setTally_faults : (setTally s i v).faults = s.faults := rfl
@[simp] theorem setTally_firm : (setTally s i v).firm = s.firm := rfl
@[simp] theorem setTally_spdmDoe : (setTally s i v).spdmDoe = s.spdmDoe := rfl
@[simp] theorem setTally_spdmMctp : (setTally s i v).spdmMctp = s.spdmMctp := rfl
@[simp] theorem setTally_perf : (setTally s i v).perf = s.perf := rfl
@[simp] theorem setTally_face : (setTally s i v).face = s.face := rfl
@[simp] theorem setTally_snap : (setTally s i v).snap = s.snap := rfl
@[simp] theorem setTally_out : (setTally s i v).out = s.out := rfl
@[simp] theorem setTally_freeIdx : (setTally s i v).freeIdx = s.freeIdx := rfl
@[simp] theorem setTally_pending : (setTally s i v).pending = s.pending := rfl
end

section
variable (s : State) (i v : Nat)
@[simp] theorem addTally_pins : (addTally s i v).pins = s.pins := rfl
@[simp] theorem addTally_glob : (addTally s i v).glob = s.glob := rfl
@[simp] theorem addTally_pcie : (addTally s i v).pcie = s.pcie := rfl
@[simp] theorem addTally_mems : (addTally s i v).mems = s.mems := rfl
@[simp] theorem addTally_dies : (addTally s i v).dies = s.dies := rfl
@[simp] theorem addTally_head_queues : (addTally s i v).head.queues = s.head.queues := rfl
@[simp] theorem addTally_head_ops : (addTally s i v).head.ops = s.head.ops := rfl
@[simp] theorem addTally_head_limits : (addTally s i v).head.limits = s.head.limits := rfl
@[simp] theorem addTally_head_tallyRange : (addTally s i v).head.tallyRange = s.head.tallyRange := rfl
@[simp] theorem addTally_head_reservations : (addTally s i v).head.reservations = s.head.reservations := rfl
@[simp] theorem addTally_head_streams : (addTally s i v).head.streams = s.head.streams := rfl
@[simp] theorem addTally_head_collCount : (addTally s i v).head.collCount = s.head.collCount := rfl
@[simp] theorem addTally_head_expertMaps : (addTally s i v).head.expertMaps = s.head.expertMaps := rfl
@[simp] theorem addTally_head_turn : (addTally s i v).head.turn = s.head.turn := rfl
@[simp] theorem addTally_head_served : (addTally s i v).head.served = s.head.served := rfl
@[simp] theorem addTally_fab : (addTally s i v).fab = s.fab := rfl
@[simp] theorem addTally_power : (addTally s i v).power = s.power := rfl
@[simp] theorem addTally_faults : (addTally s i v).faults = s.faults := rfl
@[simp] theorem addTally_firm : (addTally s i v).firm = s.firm := rfl
@[simp] theorem addTally_spdmDoe : (addTally s i v).spdmDoe = s.spdmDoe := rfl
@[simp] theorem addTally_spdmMctp : (addTally s i v).spdmMctp = s.spdmMctp := rfl
@[simp] theorem addTally_perf : (addTally s i v).perf = s.perf := rfl
@[simp] theorem addTally_face : (addTally s i v).face = s.face := rfl
@[simp] theorem addTally_snap : (addTally s i v).snap = s.snap := rfl
@[simp] theorem addTally_out : (addTally s i v).out = s.out := rfl
@[simp] theorem addTally_freeIdx : (addTally s i v).freeIdx = s.freeIdx := rfl
@[simp] theorem addTally_pending : (addTally s i v).pending = s.pending := rfl
end

section
variable (s : State) (f : Nat) (v : Func)
@[simp] theorem setFunc_pins : (setFunc s f v).pins = s.pins := rfl
@[simp] theorem setFunc_glob : (setFunc s f v).glob = s.glob := rfl
@[simp] theorem setFunc_pcie_vfEnable : (setFunc s f v).pcie.vfEnable = s.pcie.vfEnable := rfl
@[simp] theorem setFunc_pcie_msix : (setFunc s f v).pcie.msix = s.pcie.msix := rfl
@[simp] theorem setFunc_pcie_pba : (setFunc s f v).pcie.pba = s.pcie.pba := rfl
@[simp] theorem setFunc_pcie_ide : (setFunc s f v).pcie.ide = s.pcie.ide := rfl
@[simp] theorem setFunc_mems : (setFunc s f v).mems = s.mems := rfl
@[simp] theorem setFunc_dies : (setFunc s f v).dies = s.dies := rfl
@[simp] theorem setFunc_head : (setFunc s f v).head = s.head := rfl
@[simp] theorem setFunc_fab : (setFunc s f v).fab = s.fab := rfl
@[simp] theorem setFunc_power : (setFunc s f v).power = s.power := rfl
@[simp] theorem setFunc_faults : (setFunc s f v).faults = s.faults := rfl
@[simp] theorem setFunc_firm : (setFunc s f v).firm = s.firm := rfl
@[simp] theorem setFunc_spdmDoe : (setFunc s f v).spdmDoe = s.spdmDoe := rfl
@[simp] theorem setFunc_spdmMctp : (setFunc s f v).spdmMctp = s.spdmMctp := rfl
@[simp] theorem setFunc_perf : (setFunc s f v).perf = s.perf := rfl
@[simp] theorem setFunc_face : (setFunc s f v).face = s.face := rfl
@[simp] theorem setFunc_snap : (setFunc s f v).snap = s.snap := rfl
@[simp] theorem setFunc_out : (setFunc s f v).out = s.out := rfl
@[simp] theorem setFunc_freeIdx : (setFunc s f v).freeIdx = s.freeIdx := rfl
@[simp] theorem setFunc_pending : (setFunc s f v).pending = s.pending := rfl
end

section
variable (s : State) (i : Nat) (v : Spindle)
@[simp] theorem setSpindle_pins : (setSpindle s i v).pins = s.pins := rfl
@[simp] theorem setSpindle_glob : (setSpindle s i v).glob = s.glob := rfl
@[simp] theorem setSpindle_pcie : (setSpindle s i v).pcie = s.pcie := rfl
@[simp] theorem setSpindle_mems : (setSpindle s i v).mems = s.mems := rfl
@[simp] theorem setSpindle_dies_regions : (setSpindle s i v).dies.regions = s.dies.regions := rfl
@[simp] theorem setSpindle_dies_patterns : (setSpindle s i v).dies.patterns = s.dies.patterns := rfl
@[simp] theorem setSpindle_dies_fencedSpindles : (setSpindle s i v).dies.fencedSpindles = s.dies.fencedSpindles := rfl
@[simp] theorem setSpindle_dies_fencedLathes : (setSpindle s i v).dies.fencedLathes = s.dies.fencedLathes := rfl
@[simp] theorem setSpindle_dies_lost : (setSpindle s i v).dies.lost = s.dies.lost := rfl
@[simp] theorem setSpindle_dies_tails : (setSpindle s i v).dies.tails = s.dies.tails := rfl
@[simp] theorem setSpindle_dies_matches_ : (setSpindle s i v).dies.matches_ = s.dies.matches_ := rfl
@[simp] theorem setSpindle_head : (setSpindle s i v).head = s.head := rfl
@[simp] theorem setSpindle_fab : (setSpindle s i v).fab = s.fab := rfl
@[simp] theorem setSpindle_power : (setSpindle s i v).power = s.power := rfl
@[simp] theorem setSpindle_faults : (setSpindle s i v).faults = s.faults := rfl
@[simp] theorem setSpindle_firm : (setSpindle s i v).firm = s.firm := rfl
@[simp] theorem setSpindle_spdmDoe : (setSpindle s i v).spdmDoe = s.spdmDoe := rfl
@[simp] theorem setSpindle_spdmMctp : (setSpindle s i v).spdmMctp = s.spdmMctp := rfl
@[simp] theorem setSpindle_perf : (setSpindle s i v).perf = s.perf := rfl
@[simp] theorem setSpindle_face : (setSpindle s i v).face = s.face := rfl
@[simp] theorem setSpindle_snap : (setSpindle s i v).snap = s.snap := rfl
@[simp] theorem setSpindle_out : (setSpindle s i v).out = s.out := rfl
@[simp] theorem setSpindle_freeIdx : (setSpindle s i v).freeIdx = s.freeIdx := rfl
@[simp] theorem setSpindle_pending : (setSpindle s i v).pending = s.pending := rfl
end

section
variable (s : State) (p : Nat) (v : Port)
@[simp] theorem setPort_pins : (setPort s p v).pins = s.pins := rfl
@[simp] theorem setPort_glob : (setPort s p v).glob = s.glob := rfl
@[simp] theorem setPort_pcie : (setPort s p v).pcie = s.pcie := rfl
@[simp] theorem setPort_mems : (setPort s p v).mems = s.mems := rfl
@[simp] theorem setPort_dies : (setPort s p v).dies = s.dies := rfl
@[simp] theorem setPort_head : (setPort s p v).head = s.head := rfl
@[simp] theorem setPort_fab_windows : (setPort s p v).fab.windows = s.fab.windows := rfl
@[simp] theorem setPort_fab_links : (setPort s p v).fab.links = s.fab.links := rfl
@[simp] theorem setPort_fab_gateways : (setPort s p v).fab.gateways = s.fab.gateways := rfl
@[simp] theorem setPort_fab_routes : (setPort s p v).fab.routes = s.fab.routes := rfl
@[simp] theorem setPort_fab_routesDue : (setPort s p v).fab.routesDue = s.fab.routesDue := rfl
@[simp] theorem setPort_fab_sent : (setPort s p v).fab.sent = s.fab.sent := rfl
@[simp] theorem setPort_fab_pieces : (setPort s p v).fab.pieces = s.fab.pieces := rfl
@[simp] theorem setPort_fab_txns : (setPort s p v).fab.txns = s.fab.txns := rfl
@[simp] theorem setPort_fab_seen : (setPort s p v).fab.seen = s.fab.seen := rfl
@[simp] theorem setPort_fab_relays : (setPort s p v).fab.relays = s.fab.relays := rfl
@[simp] theorem setPort_fab_relaysIn : (setPort s p v).fab.relaysIn = s.fab.relaysIn := rfl
@[simp] theorem setPort_fab_colls : (setPort s p v).fab.colls = s.fab.colls := rfl
@[simp] theorem setPort_fab_collInbox : (setPort s p v).fab.collInbox = s.fab.collInbox := rfl
@[simp] theorem setPort_fab_usage : (setPort s p v).fab.usage = s.fab.usage := rfl
@[simp] theorem setPort_fab_bridgeReplays : (setPort s p v).fab.bridgeReplays = s.fab.bridgeReplays := rfl
@[simp] theorem setPort_fab_xfers : (setPort s p v).fab.xfers = s.fab.xfers := rfl
@[simp] theorem setPort_fab_epochs : (setPort s p v).fab.epochs = s.fab.epochs := rfl
@[simp] theorem setPort_fab_outq : (setPort s p v).fab.outq = s.fab.outq := rfl
@[simp] theorem setPort_fab_shares : (setPort s p v).fab.shares = s.fab.shares := rfl
@[simp] theorem setPort_fab_arrivals : (setPort s p v).fab.arrivals = s.fab.arrivals := rfl
@[simp] theorem setPort_power : (setPort s p v).power = s.power := rfl
@[simp] theorem setPort_faults : (setPort s p v).faults = s.faults := rfl
@[simp] theorem setPort_firm : (setPort s p v).firm = s.firm := rfl
@[simp] theorem setPort_spdmDoe : (setPort s p v).spdmDoe = s.spdmDoe := rfl
@[simp] theorem setPort_spdmMctp : (setPort s p v).spdmMctp = s.spdmMctp := rfl
@[simp] theorem setPort_perf : (setPort s p v).perf = s.perf := rfl
@[simp] theorem setPort_face : (setPort s p v).face = s.face := rfl
@[simp] theorem setPort_snap : (setPort s p v).snap = s.snap := rfl
@[simp] theorem setPort_out : (setPort s p v).out = s.out := rfl
@[simp] theorem setPort_freeIdx : (setPort s p v).freeIdx = s.freeIdx := rfl
@[simp] theorem setPort_pending : (setPort s p v).pending = s.pending := rfl
end

section
variable (s : State) (i : Nat) (v : Window)
@[simp] theorem setWindow_pins : (setWindow s i v).pins = s.pins := rfl
@[simp] theorem setWindow_glob : (setWindow s i v).glob = s.glob := rfl
@[simp] theorem setWindow_pcie : (setWindow s i v).pcie = s.pcie := rfl
@[simp] theorem setWindow_mems : (setWindow s i v).mems = s.mems := rfl
@[simp] theorem setWindow_dies : (setWindow s i v).dies = s.dies := rfl
@[simp] theorem setWindow_head : (setWindow s i v).head = s.head := rfl
@[simp] theorem setWindow_fab_ports : (setWindow s i v).fab.ports = s.fab.ports := rfl
@[simp] theorem setWindow_fab_links : (setWindow s i v).fab.links = s.fab.links := rfl
@[simp] theorem setWindow_fab_gateways : (setWindow s i v).fab.gateways = s.fab.gateways := rfl
@[simp] theorem setWindow_fab_routes : (setWindow s i v).fab.routes = s.fab.routes := rfl
@[simp] theorem setWindow_fab_routesDue : (setWindow s i v).fab.routesDue = s.fab.routesDue := rfl
@[simp] theorem setWindow_fab_sent : (setWindow s i v).fab.sent = s.fab.sent := rfl
@[simp] theorem setWindow_fab_pieces : (setWindow s i v).fab.pieces = s.fab.pieces := rfl
@[simp] theorem setWindow_fab_txns : (setWindow s i v).fab.txns = s.fab.txns := rfl
@[simp] theorem setWindow_fab_seen : (setWindow s i v).fab.seen = s.fab.seen := rfl
@[simp] theorem setWindow_fab_relays : (setWindow s i v).fab.relays = s.fab.relays := rfl
@[simp] theorem setWindow_fab_relaysIn : (setWindow s i v).fab.relaysIn = s.fab.relaysIn := rfl
@[simp] theorem setWindow_fab_colls : (setWindow s i v).fab.colls = s.fab.colls := rfl
@[simp] theorem setWindow_fab_collInbox : (setWindow s i v).fab.collInbox = s.fab.collInbox := rfl
@[simp] theorem setWindow_fab_usage : (setWindow s i v).fab.usage = s.fab.usage := rfl
@[simp] theorem setWindow_fab_bridgeReplays : (setWindow s i v).fab.bridgeReplays = s.fab.bridgeReplays := rfl
@[simp] theorem setWindow_fab_xfers : (setWindow s i v).fab.xfers = s.fab.xfers := rfl
@[simp] theorem setWindow_fab_epochs : (setWindow s i v).fab.epochs = s.fab.epochs := rfl
@[simp] theorem setWindow_fab_outq : (setWindow s i v).fab.outq = s.fab.outq := rfl
@[simp] theorem setWindow_fab_shares : (setWindow s i v).fab.shares = s.fab.shares := rfl
@[simp] theorem setWindow_fab_arrivals : (setWindow s i v).fab.arrivals = s.fab.arrivals := rfl
@[simp] theorem setWindow_power : (setWindow s i v).power = s.power := rfl
@[simp] theorem setWindow_faults : (setWindow s i v).faults = s.faults := rfl
@[simp] theorem setWindow_firm : (setWindow s i v).firm = s.firm := rfl
@[simp] theorem setWindow_spdmDoe : (setWindow s i v).spdmDoe = s.spdmDoe := rfl
@[simp] theorem setWindow_spdmMctp : (setWindow s i v).spdmMctp = s.spdmMctp := rfl
@[simp] theorem setWindow_perf : (setWindow s i v).perf = s.perf := rfl
@[simp] theorem setWindow_face : (setWindow s i v).face = s.face := rfl
@[simp] theorem setWindow_snap : (setWindow s i v).snap = s.snap := rfl
@[simp] theorem setWindow_out : (setWindow s i v).out = s.out := rfl
@[simp] theorem setWindow_freeIdx : (setWindow s i v).freeIdx = s.freeIdx := rfl
@[simp] theorem setWindow_pending : (setWindow s i v).pending = s.pending := rfl
end

section
variable (s : State) (l k : Nat) (v : Region)
@[simp] theorem setRegion_pins : (setRegion s l k v).pins = s.pins := rfl
@[simp] theorem setRegion_glob : (setRegion s l k v).glob = s.glob := rfl
@[simp] theorem setRegion_pcie : (setRegion s l k v).pcie = s.pcie := rfl
@[simp] theorem setRegion_mems : (setRegion s l k v).mems = s.mems := rfl
@[simp] theorem setRegion_dies_patterns : (setRegion s l k v).dies.patterns = s.dies.patterns := rfl
@[simp] theorem setRegion_dies_spindles : (setRegion s l k v).dies.spindles = s.dies.spindles := rfl
@[simp] theorem setRegion_dies_fencedSpindles : (setRegion s l k v).dies.fencedSpindles = s.dies.fencedSpindles := rfl
@[simp] theorem setRegion_dies_fencedLathes : (setRegion s l k v).dies.fencedLathes = s.dies.fencedLathes := rfl
@[simp] theorem setRegion_dies_lost : (setRegion s l k v).dies.lost = s.dies.lost := rfl
@[simp] theorem setRegion_dies_tails : (setRegion s l k v).dies.tails = s.dies.tails := rfl
@[simp] theorem setRegion_dies_matches_ : (setRegion s l k v).dies.matches_ = s.dies.matches_ := rfl
@[simp] theorem setRegion_head : (setRegion s l k v).head = s.head := rfl
@[simp] theorem setRegion_fab : (setRegion s l k v).fab = s.fab := rfl
@[simp] theorem setRegion_power : (setRegion s l k v).power = s.power := rfl
@[simp] theorem setRegion_faults : (setRegion s l k v).faults = s.faults := rfl
@[simp] theorem setRegion_firm : (setRegion s l k v).firm = s.firm := rfl
@[simp] theorem setRegion_spdmDoe : (setRegion s l k v).spdmDoe = s.spdmDoe := rfl
@[simp] theorem setRegion_spdmMctp : (setRegion s l k v).spdmMctp = s.spdmMctp := rfl
@[simp] theorem setRegion_perf : (setRegion s l k v).perf = s.perf := rfl
@[simp] theorem setRegion_face : (setRegion s l k v).face = s.face := rfl
@[simp] theorem setRegion_snap : (setRegion s l k v).snap = s.snap := rfl
@[simp] theorem setRegion_out : (setRegion s l k v).out = s.out := rfl
@[simp] theorem setRegion_freeIdx : (setRegion s l k v).freeIdx = s.freeIdx := rfl
@[simp] theorem setRegion_pending : (setRegion s l k v).pending = s.pending := rfl
end

section
variable (s : State) (l k : Nat) (v : PatSlot)
@[simp] theorem setSlot_pins : (setSlot s l k v).pins = s.pins := rfl
@[simp] theorem setSlot_glob : (setSlot s l k v).glob = s.glob := rfl
@[simp] theorem setSlot_pcie : (setSlot s l k v).pcie = s.pcie := rfl
@[simp] theorem setSlot_mems : (setSlot s l k v).mems = s.mems := rfl
@[simp] theorem setSlot_dies_regions : (setSlot s l k v).dies.regions = s.dies.regions := rfl
@[simp] theorem setSlot_dies_spindles : (setSlot s l k v).dies.spindles = s.dies.spindles := rfl
@[simp] theorem setSlot_dies_fencedSpindles : (setSlot s l k v).dies.fencedSpindles = s.dies.fencedSpindles := rfl
@[simp] theorem setSlot_dies_fencedLathes : (setSlot s l k v).dies.fencedLathes = s.dies.fencedLathes := rfl
@[simp] theorem setSlot_dies_lost : (setSlot s l k v).dies.lost = s.dies.lost := rfl
@[simp] theorem setSlot_dies_tails : (setSlot s l k v).dies.tails = s.dies.tails := rfl
@[simp] theorem setSlot_dies_matches_ : (setSlot s l k v).dies.matches_ = s.dies.matches_ := rfl
@[simp] theorem setSlot_head : (setSlot s l k v).head = s.head := rfl
@[simp] theorem setSlot_fab : (setSlot s l k v).fab = s.fab := rfl
@[simp] theorem setSlot_power : (setSlot s l k v).power = s.power := rfl
@[simp] theorem setSlot_faults : (setSlot s l k v).faults = s.faults := rfl
@[simp] theorem setSlot_firm : (setSlot s l k v).firm = s.firm := rfl
@[simp] theorem setSlot_spdmDoe : (setSlot s l k v).spdmDoe = s.spdmDoe := rfl
@[simp] theorem setSlot_spdmMctp : (setSlot s l k v).spdmMctp = s.spdmMctp := rfl
@[simp] theorem setSlot_perf : (setSlot s l k v).perf = s.perf := rfl
@[simp] theorem setSlot_face : (setSlot s l k v).face = s.face := rfl
@[simp] theorem setSlot_snap : (setSlot s l k v).snap = s.snap := rfl
@[simp] theorem setSlot_out : (setSlot s l k v).out = s.out := rfl
@[simp] theorem setSlot_freeIdx : (setSlot s l k v).freeIdx = s.freeIdx := rfl
@[simp] theorem setSlot_pending : (setSlot s l k v).pending = s.pending := rfl
end

section
variable (s : State) (i : Nat) (v : Stream)
@[simp] theorem setStream_pins : (setStream s i v).pins = s.pins := rfl
@[simp] theorem setStream_glob : (setStream s i v).glob = s.glob := rfl
@[simp] theorem setStream_pcie : (setStream s i v).pcie = s.pcie := rfl
@[simp] theorem setStream_mems : (setStream s i v).mems = s.mems := rfl
@[simp] theorem setStream_dies : (setStream s i v).dies = s.dies := rfl
@[simp] theorem setStream_head_queues : (setStream s i v).head.queues = s.head.queues := rfl
@[simp] theorem setStream_head_ops : (setStream s i v).head.ops = s.head.ops := rfl
@[simp] theorem setStream_head_tallies : (setStream s i v).head.tallies = s.head.tallies := rfl
@[simp] theorem setStream_head_limits : (setStream s i v).head.limits = s.head.limits := rfl
@[simp] theorem setStream_head_tallyRange : (setStream s i v).head.tallyRange = s.head.tallyRange := rfl
@[simp] theorem setStream_head_reservations : (setStream s i v).head.reservations = s.head.reservations := rfl
@[simp] theorem setStream_head_collCount : (setStream s i v).head.collCount = s.head.collCount := rfl
@[simp] theorem setStream_head_expertMaps : (setStream s i v).head.expertMaps = s.head.expertMaps := rfl
@[simp] theorem setStream_head_turn : (setStream s i v).head.turn = s.head.turn := rfl
@[simp] theorem setStream_head_served : (setStream s i v).head.served = s.head.served := rfl
@[simp] theorem setStream_fab : (setStream s i v).fab = s.fab := rfl
@[simp] theorem setStream_power : (setStream s i v).power = s.power := rfl
@[simp] theorem setStream_faults : (setStream s i v).faults = s.faults := rfl
@[simp] theorem setStream_firm : (setStream s i v).firm = s.firm := rfl
@[simp] theorem setStream_spdmDoe : (setStream s i v).spdmDoe = s.spdmDoe := rfl
@[simp] theorem setStream_spdmMctp : (setStream s i v).spdmMctp = s.spdmMctp := rfl
@[simp] theorem setStream_perf : (setStream s i v).perf = s.perf := rfl
@[simp] theorem setStream_face : (setStream s i v).face = s.face := rfl
@[simp] theorem setStream_snap : (setStream s i v).snap = s.snap := rfl
@[simp] theorem setStream_out : (setStream s i v).out = s.out := rfl
@[simp] theorem setStream_freeIdx : (setStream s i v).freeIdx = s.freeIdx := rfl
@[simp] theorem setStream_pending : (setStream s i v).pending = s.pending := rfl
end

section
variable (s : State) (k : Nat) (v : Limits)
@[simp] theorem setLimits_pins : (setLimits s k v).pins = s.pins := rfl
@[simp] theorem setLimits_glob : (setLimits s k v).glob = s.glob := rfl
@[simp] theorem setLimits_pcie : (setLimits s k v).pcie = s.pcie := rfl
@[simp] theorem setLimits_mems : (setLimits s k v).mems = s.mems := rfl
@[simp] theorem setLimits_dies : (setLimits s k v).dies = s.dies := rfl
@[simp] theorem setLimits_head_queues : (setLimits s k v).head.queues = s.head.queues := rfl
@[simp] theorem setLimits_head_ops : (setLimits s k v).head.ops = s.head.ops := rfl
@[simp] theorem setLimits_head_tallies : (setLimits s k v).head.tallies = s.head.tallies := rfl
@[simp] theorem setLimits_head_tallyRange : (setLimits s k v).head.tallyRange = s.head.tallyRange := rfl
@[simp] theorem setLimits_head_reservations : (setLimits s k v).head.reservations = s.head.reservations := rfl
@[simp] theorem setLimits_head_streams : (setLimits s k v).head.streams = s.head.streams := rfl
@[simp] theorem setLimits_head_collCount : (setLimits s k v).head.collCount = s.head.collCount := rfl
@[simp] theorem setLimits_head_expertMaps : (setLimits s k v).head.expertMaps = s.head.expertMaps := rfl
@[simp] theorem setLimits_head_turn : (setLimits s k v).head.turn = s.head.turn := rfl
@[simp] theorem setLimits_head_served : (setLimits s k v).head.served = s.head.served := rfl
@[simp] theorem setLimits_fab : (setLimits s k v).fab = s.fab := rfl
@[simp] theorem setLimits_power : (setLimits s k v).power = s.power := rfl
@[simp] theorem setLimits_faults : (setLimits s k v).faults = s.faults := rfl
@[simp] theorem setLimits_firm : (setLimits s k v).firm = s.firm := rfl
@[simp] theorem setLimits_spdmDoe : (setLimits s k v).spdmDoe = s.spdmDoe := rfl
@[simp] theorem setLimits_spdmMctp : (setLimits s k v).spdmMctp = s.spdmMctp := rfl
@[simp] theorem setLimits_perf : (setLimits s k v).perf = s.perf := rfl
@[simp] theorem setLimits_face : (setLimits s k v).face = s.face := rfl
@[simp] theorem setLimits_snap : (setLimits s k v).snap = s.snap := rfl
@[simp] theorem setLimits_out : (setLimits s k v).out = s.out := rfl
@[simp] theorem setLimits_freeIdx : (setLimits s k v).freeIdx = s.freeIdx := rfl
@[simp] theorem setLimits_pending : (setLimits s k v).pending = s.pending := rfl
end

section
variable (s : State) (d : Nat) (v : PdState)
@[simp] theorem setPd_pins : (setPd s d v).pins = s.pins := rfl
@[simp] theorem setPd_glob : (setPd s d v).glob = s.glob := rfl
@[simp] theorem setPd_pcie : (setPd s d v).pcie = s.pcie := rfl
@[simp] theorem setPd_mems : (setPd s d v).mems = s.mems := rfl
@[simp] theorem setPd_dies : (setPd s d v).dies = s.dies := rfl
@[simp] theorem setPd_head : (setPd s d v).head = s.head := rfl
@[simp] theorem setPd_fab : (setPd s d v).fab = s.fab := rfl
@[simp] theorem setPd_power_vmaxMv : (setPd s d v).power.vmaxMv = s.power.vmaxMv := rfl
@[simp] theorem setPd_power_lowDrop : (setPd s d v).power.lowDrop = s.power.lowDrop := rfl
@[simp] theorem setPd_power_thermTarget : (setPd s d v).power.thermTarget = s.power.thermTarget := rfl
@[simp] theorem setPd_power_capW : (setPd s d v).power.capW = s.power.capW := rfl
@[simp] theorem setPd_power_capClamped : (setPd s d v).power.capClamped = s.power.capClamped := rfl
@[simp] theorem setPd_power_inputP : (setPd s d v).power.inputP = s.power.inputP := rfl
@[simp] theorem setPd_power_peakP : (setPd s d v).power.peakP = s.power.peakP := rfl
@[simp] theorem setPd_power_coreMv : (setPd s d v).power.coreMv = s.power.coreMv := rfl
@[simp] theorem setPd_power_vinDv : (setPd s d v).power.vinDv = s.power.vinDv := rfl
@[simp] theorem setPd_power_limit : (setPd s d v).power.limit = s.power.limit := rfl
@[simp] theorem setPd_power_hot : (setPd s d v).power.hot = s.power.hot := rfl
@[simp] theorem setPd_power_trip : (setPd s d v).power.trip = s.power.trip := rfl
@[simp] theorem setPd_power_tjPeak : (setPd s d v).power.tjPeak = s.power.tjPeak := rfl
@[simp] theorem setPd_power_junctions : (setPd s d v).power.junctions = s.power.junctions := rfl
@[simp] theorem setPd_power_hbmTemps : (setPd s d v).power.hbmTemps = s.power.hbmTemps := rfl
@[simp] theorem setPd_power_hotSince : (setPd s d v).power.hotSince = s.power.hotSince := rfl
@[simp] theorem setPd_faults : (setPd s d v).faults = s.faults := rfl
@[simp] theorem setPd_firm : (setPd s d v).firm = s.firm := rfl
@[simp] theorem setPd_spdmDoe : (setPd s d v).spdmDoe = s.spdmDoe := rfl
@[simp] theorem setPd_spdmMctp : (setPd s d v).spdmMctp = s.spdmMctp := rfl
@[simp] theorem setPd_perf : (setPd s d v).perf = s.perf := rfl
@[simp] theorem setPd_face : (setPd s d v).face = s.face := rfl
@[simp] theorem setPd_snap : (setPd s d v).snap = s.snap := rfl
@[simp] theorem setPd_out : (setPd s d v).out = s.out := rfl
@[simp] theorem setPd_freeIdx : (setPd s d v).freeIdx = s.freeIdx := rfl
@[simp] theorem setPd_pending : (setPd s d v).pending = s.pending := rfl
end

section
variable (s : State) (v : List Arrival)
@[simp] theorem setArrivals_pins : (setArrivals s v).pins = s.pins := rfl
@[simp] theorem setArrivals_glob : (setArrivals s v).glob = s.glob := rfl
@[simp] theorem setArrivals_pcie : (setArrivals s v).pcie = s.pcie := rfl
@[simp] theorem setArrivals_mems : (setArrivals s v).mems = s.mems := rfl
@[simp] theorem setArrivals_dies : (setArrivals s v).dies = s.dies := rfl
@[simp] theorem setArrivals_head : (setArrivals s v).head = s.head := rfl
@[simp] theorem setArrivals_fab_ports : (setArrivals s v).fab.ports = s.fab.ports := rfl
@[simp] theorem setArrivals_fab_windows : (setArrivals s v).fab.windows = s.fab.windows := rfl
@[simp] theorem setArrivals_fab_links : (setArrivals s v).fab.links = s.fab.links := rfl
@[simp] theorem setArrivals_fab_gateways : (setArrivals s v).fab.gateways = s.fab.gateways := rfl
@[simp] theorem setArrivals_fab_routes : (setArrivals s v).fab.routes = s.fab.routes := rfl
@[simp] theorem setArrivals_fab_routesDue : (setArrivals s v).fab.routesDue = s.fab.routesDue := rfl
@[simp] theorem setArrivals_fab_sent : (setArrivals s v).fab.sent = s.fab.sent := rfl
@[simp] theorem setArrivals_fab_pieces : (setArrivals s v).fab.pieces = s.fab.pieces := rfl
@[simp] theorem setArrivals_fab_txns : (setArrivals s v).fab.txns = s.fab.txns := rfl
@[simp] theorem setArrivals_fab_seen : (setArrivals s v).fab.seen = s.fab.seen := rfl
@[simp] theorem setArrivals_fab_relays : (setArrivals s v).fab.relays = s.fab.relays := rfl
@[simp] theorem setArrivals_fab_relaysIn : (setArrivals s v).fab.relaysIn = s.fab.relaysIn := rfl
@[simp] theorem setArrivals_fab_colls : (setArrivals s v).fab.colls = s.fab.colls := rfl
@[simp] theorem setArrivals_fab_collInbox : (setArrivals s v).fab.collInbox = s.fab.collInbox := rfl
@[simp] theorem setArrivals_fab_usage : (setArrivals s v).fab.usage = s.fab.usage := rfl
@[simp] theorem setArrivals_fab_bridgeReplays : (setArrivals s v).fab.bridgeReplays = s.fab.bridgeReplays := rfl
@[simp] theorem setArrivals_fab_xfers : (setArrivals s v).fab.xfers = s.fab.xfers := rfl
@[simp] theorem setArrivals_fab_epochs : (setArrivals s v).fab.epochs = s.fab.epochs := rfl
@[simp] theorem setArrivals_fab_outq : (setArrivals s v).fab.outq = s.fab.outq := rfl
@[simp] theorem setArrivals_fab_shares : (setArrivals s v).fab.shares = s.fab.shares := rfl
@[simp] theorem setArrivals_power : (setArrivals s v).power = s.power := rfl
@[simp] theorem setArrivals_faults : (setArrivals s v).faults = s.faults := rfl
@[simp] theorem setArrivals_firm : (setArrivals s v).firm = s.firm := rfl
@[simp] theorem setArrivals_spdmDoe : (setArrivals s v).spdmDoe = s.spdmDoe := rfl
@[simp] theorem setArrivals_spdmMctp : (setArrivals s v).spdmMctp = s.spdmMctp := rfl
@[simp] theorem setArrivals_perf : (setArrivals s v).perf = s.perf := rfl
@[simp] theorem setArrivals_face : (setArrivals s v).face = s.face := rfl
@[simp] theorem setArrivals_snap : (setArrivals s v).snap = s.snap := rfl
@[simp] theorem setArrivals_out : (setArrivals s v).out = s.out := rfl
@[simp] theorem setArrivals_freeIdx : (setArrivals s v).freeIdx = s.freeIdx := rfl
@[simp] theorem setArrivals_pending : (setArrivals s v).pending = s.pending := rfl
end

section
variable (s : State) (v : Fabric)
@[simp] theorem setFab_pins : (setFab s v).pins = s.pins := rfl
@[simp] theorem setFab_glob : (setFab s v).glob = s.glob := rfl
@[simp] theorem setFab_pcie : (setFab s v).pcie = s.pcie := rfl
@[simp] theorem setFab_mems : (setFab s v).mems = s.mems := rfl
@[simp] theorem setFab_dies : (setFab s v).dies = s.dies := rfl
@[simp] theorem setFab_head : (setFab s v).head = s.head := rfl
@[simp] theorem setFab_power : (setFab s v).power = s.power := rfl
@[simp] theorem setFab_faults : (setFab s v).faults = s.faults := rfl
@[simp] theorem setFab_firm : (setFab s v).firm = s.firm := rfl
@[simp] theorem setFab_spdmDoe : (setFab s v).spdmDoe = s.spdmDoe := rfl
@[simp] theorem setFab_spdmMctp : (setFab s v).spdmMctp = s.spdmMctp := rfl
@[simp] theorem setFab_perf : (setFab s v).perf = s.perf := rfl
@[simp] theorem setFab_face : (setFab s v).face = s.face := rfl
@[simp] theorem setFab_snap : (setFab s v).snap = s.snap := rfl
@[simp] theorem setFab_out : (setFab s v).out = s.out := rfl
@[simp] theorem setFab_freeIdx : (setFab s v).freeIdx = s.freeIdx := rfl
@[simp] theorem setFab_pending : (setFab s v).pending = s.pending := rfl
end

section
variable (s : State) (v : Firm)
@[simp] theorem setFirm_pins : (setFirm s v).pins = s.pins := rfl
@[simp] theorem setFirm_glob : (setFirm s v).glob = s.glob := rfl
@[simp] theorem setFirm_pcie : (setFirm s v).pcie = s.pcie := rfl
@[simp] theorem setFirm_mems : (setFirm s v).mems = s.mems := rfl
@[simp] theorem setFirm_dies : (setFirm s v).dies = s.dies := rfl
@[simp] theorem setFirm_head : (setFirm s v).head = s.head := rfl
@[simp] theorem setFirm_fab : (setFirm s v).fab = s.fab := rfl
@[simp] theorem setFirm_power : (setFirm s v).power = s.power := rfl
@[simp] theorem setFirm_faults : (setFirm s v).faults = s.faults := rfl
@[simp] theorem setFirm_spdmDoe : (setFirm s v).spdmDoe = s.spdmDoe := rfl
@[simp] theorem setFirm_spdmMctp : (setFirm s v).spdmMctp = s.spdmMctp := rfl
@[simp] theorem setFirm_perf : (setFirm s v).perf = s.perf := rfl
@[simp] theorem setFirm_face : (setFirm s v).face = s.face := rfl
@[simp] theorem setFirm_snap : (setFirm s v).snap = s.snap := rfl
@[simp] theorem setFirm_out : (setFirm s v).out = s.out := rfl
@[simp] theorem setFirm_freeIdx : (setFirm s v).freeIdx = s.freeIdx := rfl
@[simp] theorem setFirm_pending : (setFirm s v).pending = s.pending := rfl
end

section
variable (s : State) (v : Power)
@[simp] theorem setPower_pins : (setPower s v).pins = s.pins := rfl
@[simp] theorem setPower_glob : (setPower s v).glob = s.glob := rfl
@[simp] theorem setPower_pcie : (setPower s v).pcie = s.pcie := rfl
@[simp] theorem setPower_mems : (setPower s v).mems = s.mems := rfl
@[simp] theorem setPower_dies : (setPower s v).dies = s.dies := rfl
@[simp] theorem setPower_head : (setPower s v).head = s.head := rfl
@[simp] theorem setPower_fab : (setPower s v).fab = s.fab := rfl
@[simp] theorem setPower_faults : (setPower s v).faults = s.faults := rfl
@[simp] theorem setPower_firm : (setPower s v).firm = s.firm := rfl
@[simp] theorem setPower_spdmDoe : (setPower s v).spdmDoe = s.spdmDoe := rfl
@[simp] theorem setPower_spdmMctp : (setPower s v).spdmMctp = s.spdmMctp := rfl
@[simp] theorem setPower_perf : (setPower s v).perf = s.perf := rfl
@[simp] theorem setPower_face : (setPower s v).face = s.face := rfl
@[simp] theorem setPower_snap : (setPower s v).snap = s.snap := rfl
@[simp] theorem setPower_out : (setPower s v).out = s.out := rfl
@[simp] theorem setPower_freeIdx : (setPower s v).freeIdx = s.freeIdx := rfl
@[simp] theorem setPower_pending : (setPower s v).pending = s.pending := rfl
end

section
variable (s : State) (m : Msg)
@[simp] theorem emit_pins : (emit s m).pins = s.pins := rfl
@[simp] theorem emit_glob : (emit s m).glob = s.glob := rfl
@[simp] theorem emit_pcie : (emit s m).pcie = s.pcie := rfl
@[simp] theorem emit_mems : (emit s m).mems = s.mems := rfl
@[simp] theorem emit_dies : (emit s m).dies = s.dies := rfl
@[simp] theorem emit_head : (emit s m).head = s.head := rfl
@[simp] theorem emit_fab : (emit s m).fab = s.fab := rfl
@[simp] theorem emit_power : (emit s m).power = s.power := rfl
@[simp] theorem emit_faults : (emit s m).faults = s.faults := rfl
@[simp] theorem emit_firm : (emit s m).firm = s.firm := rfl
@[simp] theorem emit_spdmDoe : (emit s m).spdmDoe = s.spdmDoe := rfl
@[simp] theorem emit_spdmMctp : (emit s m).spdmMctp = s.spdmMctp := rfl
@[simp] theorem emit_perf : (emit s m).perf = s.perf := rfl
@[simp] theorem emit_face : (emit s m).face = s.face := rfl
@[simp] theorem emit_snap : (emit s m).snap = s.snap := rfl
@[simp] theorem emit_freeIdx : (emit s m).freeIdx = s.freeIdx := rfl
@[simp] theorem emit_pending : (emit s m).pending = s.pending := rfl
end

section
variable (s : State)
@[simp] theorem nextFree_pins : (nextFree s).pins = s.pins := rfl
@[simp] theorem nextFree_glob : (nextFree s).glob = s.glob := rfl
@[simp] theorem nextFree_pcie : (nextFree s).pcie = s.pcie := rfl
@[simp] theorem nextFree_mems : (nextFree s).mems = s.mems := rfl
@[simp] theorem nextFree_dies : (nextFree s).dies = s.dies := rfl
@[simp] theorem nextFree_head : (nextFree s).head = s.head := rfl
@[simp] theorem nextFree_fab : (nextFree s).fab = s.fab := rfl
@[simp] theorem nextFree_power : (nextFree s).power = s.power := rfl
@[simp] theorem nextFree_faults : (nextFree s).faults = s.faults := rfl
@[simp] theorem nextFree_firm : (nextFree s).firm = s.firm := rfl
@[simp] theorem nextFree_spdmDoe : (nextFree s).spdmDoe = s.spdmDoe := rfl
@[simp] theorem nextFree_spdmMctp : (nextFree s).spdmMctp = s.spdmMctp := rfl
@[simp] theorem nextFree_perf : (nextFree s).perf = s.perf := rfl
@[simp] theorem nextFree_face : (nextFree s).face = s.face := rfl
@[simp] theorem nextFree_snap : (nextFree s).snap = s.snap := rfl
@[simp] theorem nextFree_out : (nextFree s).out = s.out := rfl
@[simp] theorem nextFree_pending : (nextFree s).pending = s.pending := rfl
end

section
variable (s : State) (fn a : Nat) (v : List Byte) (d : Bool)
@[simp] theorem hostWrite_pins : (hostWrite s fn a v d).pins = s.pins := rfl
@[simp] theorem hostWrite_glob : (hostWrite s fn a v d).glob = s.glob := rfl
@[simp] theorem hostWrite_pcie : (hostWrite s fn a v d).pcie = s.pcie := rfl
@[simp] theorem hostWrite_mems_dev : (hostWrite s fn a v d).mems.dev = s.mems.dev := rfl
@[simp] theorem hostWrite_mems_poison : (hostWrite s fn a v d).mems.poison = s.mems.poison := rfl
@[simp] theorem hostWrite_mems_upsets : (hostWrite s fn a v d).mems.upsets = s.mems.upsets := rfl
@[simp] theorem hostWrite_dies : (hostWrite s fn a v d).dies = s.dies := rfl
@[simp] theorem hostWrite_head : (hostWrite s fn a v d).head = s.head := rfl
@[simp] theorem hostWrite_fab : (hostWrite s fn a v d).fab = s.fab := rfl
@[simp] theorem hostWrite_power : (hostWrite s fn a v d).power = s.power := rfl
@[simp] theorem hostWrite_faults : (hostWrite s fn a v d).faults = s.faults := rfl
@[simp] theorem hostWrite_firm : (hostWrite s fn a v d).firm = s.firm := rfl
@[simp] theorem hostWrite_spdmDoe : (hostWrite s fn a v d).spdmDoe = s.spdmDoe := rfl
@[simp] theorem hostWrite_spdmMctp : (hostWrite s fn a v d).spdmMctp = s.spdmMctp := rfl
@[simp] theorem hostWrite_perf : (hostWrite s fn a v d).perf = s.perf := rfl
@[simp] theorem hostWrite_face : (hostWrite s fn a v d).face = s.face := rfl
@[simp] theorem hostWrite_snap : (hostWrite s fn a v d).snap = s.snap := rfl
@[simp] theorem hostWrite_out : (hostWrite s fn a v d).out
    = s.out ++ [.memWrite (routingId fn) (d && (getFunc s fn).relaxed) (hostStream s a) a v] := rfl
@[simp] theorem hostWrite_freeIdx : (hostWrite s fn a v d).freeIdx = s.freeIdx := rfl
@[simp] theorem hostWrite_pending : (hostWrite s fn a v d).pending = s.pending := rfl
end

section
variable (s : State) (row off : Nat) (v : List Byte)
@[simp] theorem rowCommit_pins : (rowCommit s row off v).pins = s.pins := rfl
@[simp] theorem rowCommit_glob : (rowCommit s row off v).glob = s.glob := rfl
@[simp] theorem rowCommit_pcie : (rowCommit s row off v).pcie = s.pcie := rfl
@[simp] theorem rowCommit_mems_host : (rowCommit s row off v).mems.host = s.mems.host := rfl
@[simp] theorem rowCommit_dies : (rowCommit s row off v).dies = s.dies := rfl
@[simp] theorem rowCommit_head : (rowCommit s row off v).head = s.head := rfl
@[simp] theorem rowCommit_fab : (rowCommit s row off v).fab = s.fab := rfl
@[simp] theorem rowCommit_power : (rowCommit s row off v).power = s.power := rfl
@[simp] theorem rowCommit_faults : (rowCommit s row off v).faults = s.faults := rfl
@[simp] theorem rowCommit_firm : (rowCommit s row off v).firm = s.firm := rfl
@[simp] theorem rowCommit_spdmDoe : (rowCommit s row off v).spdmDoe = s.spdmDoe := rfl
@[simp] theorem rowCommit_spdmMctp : (rowCommit s row off v).spdmMctp = s.spdmMctp := rfl
@[simp] theorem rowCommit_perf : (rowCommit s row off v).perf = s.perf := rfl
@[simp] theorem rowCommit_face : (rowCommit s row off v).face = s.face := rfl
@[simp] theorem rowCommit_snap : (rowCommit s row off v).snap = s.snap := rfl
@[simp] theorem rowCommit_out : (rowCommit s row off v).out = s.out := rfl
@[simp] theorem rowCommit_freeIdx : (rowCommit s row off v).freeIdx = s.freeIdx := rfl
@[simp] theorem rowCommit_pending : (rowCommit s row off v).pending = s.pending := rfl
end

section
variable (s : State) (q : Nat)
@[simp] theorem takeTurn_pins : (takeTurn s q).pins = s.pins := rfl
@[simp] theorem takeTurn_glob : (takeTurn s q).glob = s.glob := rfl
@[simp] theorem takeTurn_pcie : (takeTurn s q).pcie = s.pcie := rfl
@[simp] theorem takeTurn_mems : (takeTurn s q).mems = s.mems := rfl
@[simp] theorem takeTurn_dies : (takeTurn s q).dies = s.dies := rfl
@[simp] theorem takeTurn_head_queues : (takeTurn s q).head.queues = s.head.queues := rfl
@[simp] theorem takeTurn_head_ops : (takeTurn s q).head.ops = s.head.ops := rfl
@[simp] theorem takeTurn_head_tallies : (takeTurn s q).head.tallies = s.head.tallies := rfl
@[simp] theorem takeTurn_head_limits : (takeTurn s q).head.limits = s.head.limits := rfl
@[simp] theorem takeTurn_head_tallyRange : (takeTurn s q).head.tallyRange = s.head.tallyRange := rfl
@[simp] theorem takeTurn_head_reservations : (takeTurn s q).head.reservations = s.head.reservations := rfl
@[simp] theorem takeTurn_head_streams : (takeTurn s q).head.streams = s.head.streams := rfl
@[simp] theorem takeTurn_head_served : (takeTurn s q).head.served = s.head.served := rfl
@[simp] theorem takeTurn_head_collCount : (takeTurn s q).head.collCount = s.head.collCount := rfl
@[simp] theorem takeTurn_head_expertMaps : (takeTurn s q).head.expertMaps = s.head.expertMaps := rfl
@[simp] theorem takeTurn_fab : (takeTurn s q).fab = s.fab := rfl
@[simp] theorem takeTurn_power : (takeTurn s q).power = s.power := rfl
@[simp] theorem takeTurn_faults : (takeTurn s q).faults = s.faults := rfl
@[simp] theorem takeTurn_firm : (takeTurn s q).firm = s.firm := rfl
@[simp] theorem takeTurn_spdmDoe : (takeTurn s q).spdmDoe = s.spdmDoe := rfl
@[simp] theorem takeTurn_spdmMctp : (takeTurn s q).spdmMctp = s.spdmMctp := rfl
@[simp] theorem takeTurn_perf : (takeTurn s q).perf = s.perf := rfl
@[simp] theorem takeTurn_face : (takeTurn s q).face = s.face := rfl
@[simp] theorem takeTurn_snap : (takeTurn s q).snap = s.snap := rfl
@[simp] theorem takeTurn_out : (takeTurn s q).out = s.out := rfl
@[simp] theorem takeTurn_freeIdx : (takeTurn s q).freeIdx = s.freeIdx := rfl
@[simp] theorem takeTurn_pending : (takeTurn s q).pending = s.pending := rfl
end

section
variable (s : State) (q : Nat)
@[simp] theorem takeService_pins : (takeService s q).pins = s.pins := rfl
@[simp] theorem takeService_glob : (takeService s q).glob = s.glob := rfl
@[simp] theorem takeService_pcie : (takeService s q).pcie = s.pcie := rfl
@[simp] theorem takeService_mems : (takeService s q).mems = s.mems := rfl
@[simp] theorem takeService_dies : (takeService s q).dies = s.dies := rfl
@[simp] theorem takeService_head_queues : (takeService s q).head.queues = s.head.queues := rfl
@[simp] theorem takeService_head_ops : (takeService s q).head.ops = s.head.ops := rfl
@[simp] theorem takeService_head_tallies : (takeService s q).head.tallies = s.head.tallies := rfl
@[simp] theorem takeService_head_limits : (takeService s q).head.limits = s.head.limits := rfl
@[simp] theorem takeService_head_tallyRange : (takeService s q).head.tallyRange = s.head.tallyRange := rfl
@[simp] theorem takeService_head_reservations : (takeService s q).head.reservations = s.head.reservations := rfl
@[simp] theorem takeService_head_streams : (takeService s q).head.streams = s.head.streams := rfl
@[simp] theorem takeService_head_turn : (takeService s q).head.turn = s.head.turn := rfl
@[simp] theorem takeService_head_collCount : (takeService s q).head.collCount = s.head.collCount := rfl
@[simp] theorem takeService_head_expertMaps : (takeService s q).head.expertMaps = s.head.expertMaps := rfl
@[simp] theorem takeService_fab : (takeService s q).fab = s.fab := rfl
@[simp] theorem takeService_power : (takeService s q).power = s.power := rfl
@[simp] theorem takeService_faults : (takeService s q).faults = s.faults := rfl
@[simp] theorem takeService_firm : (takeService s q).firm = s.firm := rfl
@[simp] theorem takeService_spdmDoe : (takeService s q).spdmDoe = s.spdmDoe := rfl
@[simp] theorem takeService_spdmMctp : (takeService s q).spdmMctp = s.spdmMctp := rfl
@[simp] theorem takeService_perf : (takeService s q).perf = s.perf := rfl
@[simp] theorem takeService_face : (takeService s q).face = s.face := rfl
@[simp] theorem takeService_snap : (takeService s q).snap = s.snap := rfl
@[simp] theorem takeService_out : (takeService s q).out = s.out := rfl
@[simp] theorem takeService_freeIdx : (takeService s q).freeIdx = s.freeIdx := rfl
@[simp] theorem takeService_pending : (takeService s q).pending = s.pending := rfl
end

section
variable (s : State) (f : Spindle → Spindle)
@[simp] theorem mapSpindles_pins : (mapSpindles s f).pins = s.pins := rfl
@[simp] theorem mapSpindles_glob : (mapSpindles s f).glob = s.glob := rfl
@[simp] theorem mapSpindles_pcie : (mapSpindles s f).pcie = s.pcie := rfl
@[simp] theorem mapSpindles_mems : (mapSpindles s f).mems = s.mems := rfl
@[simp] theorem mapSpindles_dies_regions : (mapSpindles s f).dies.regions = s.dies.regions := rfl
@[simp] theorem mapSpindles_dies_patterns : (mapSpindles s f).dies.patterns = s.dies.patterns := rfl
@[simp] theorem mapSpindles_dies_matches_ : (mapSpindles s f).dies.matches_ = s.dies.matches_ := rfl
@[simp] theorem mapSpindles_dies_fencedSpindles : (mapSpindles s f).dies.fencedSpindles = s.dies.fencedSpindles := rfl
@[simp] theorem mapSpindles_dies_fencedLathes : (mapSpindles s f).dies.fencedLathes = s.dies.fencedLathes := rfl
@[simp] theorem mapSpindles_dies_lost : (mapSpindles s f).dies.lost = s.dies.lost := rfl
@[simp] theorem mapSpindles_dies_tails : (mapSpindles s f).dies.tails = s.dies.tails := rfl
@[simp] theorem mapSpindles_head : (mapSpindles s f).head = s.head := rfl
@[simp] theorem mapSpindles_fab : (mapSpindles s f).fab = s.fab := rfl
@[simp] theorem mapSpindles_power : (mapSpindles s f).power = s.power := rfl
@[simp] theorem mapSpindles_faults : (mapSpindles s f).faults = s.faults := rfl
@[simp] theorem mapSpindles_firm : (mapSpindles s f).firm = s.firm := rfl
@[simp] theorem mapSpindles_spdmDoe : (mapSpindles s f).spdmDoe = s.spdmDoe := rfl
@[simp] theorem mapSpindles_spdmMctp : (mapSpindles s f).spdmMctp = s.spdmMctp := rfl
@[simp] theorem mapSpindles_perf : (mapSpindles s f).perf = s.perf := rfl
@[simp] theorem mapSpindles_face : (mapSpindles s f).face = s.face := rfl
@[simp] theorem mapSpindles_snap : (mapSpindles s f).snap = s.snap := rfl
@[simp] theorem mapSpindles_out : (mapSpindles s f).out = s.out := rfl
@[simp] theorem mapSpindles_freeIdx : (mapSpindles s f).freeIdx = s.freeIdx := rfl
@[simp] theorem mapSpindles_pending : (mapSpindles s f).pending = s.pending := rfl
end

section
variable (s : State) (v : List Upset)
@[simp] theorem setUpsets_pins : (setUpsets s v).pins = s.pins := rfl
@[simp] theorem setUpsets_glob : (setUpsets s v).glob = s.glob := rfl
@[simp] theorem setUpsets_pcie : (setUpsets s v).pcie = s.pcie := rfl
@[simp] theorem setUpsets_dies : (setUpsets s v).dies = s.dies := rfl
@[simp] theorem setUpsets_head : (setUpsets s v).head = s.head := rfl
@[simp] theorem setUpsets_fab : (setUpsets s v).fab = s.fab := rfl
@[simp] theorem setUpsets_power : (setUpsets s v).power = s.power := rfl
@[simp] theorem setUpsets_faults : (setUpsets s v).faults = s.faults := rfl
@[simp] theorem setUpsets_firm : (setUpsets s v).firm = s.firm := rfl
@[simp] theorem setUpsets_spdmDoe : (setUpsets s v).spdmDoe = s.spdmDoe := rfl
@[simp] theorem setUpsets_spdmMctp : (setUpsets s v).spdmMctp = s.spdmMctp := rfl
@[simp] theorem setUpsets_perf : (setUpsets s v).perf = s.perf := rfl
@[simp] theorem setUpsets_face : (setUpsets s v).face = s.face := rfl
@[simp] theorem setUpsets_snap : (setUpsets s v).snap = s.snap := rfl
@[simp] theorem setUpsets_out : (setUpsets s v).out = s.out := rfl
@[simp] theorem setUpsets_freeIdx : (setUpsets s v).freeIdx = s.freeIdx := rfl
@[simp] theorem setUpsets_pending : (setUpsets s v).pending = s.pending := rfl
@[simp] theorem setUpsets_mems_dev : (setUpsets s v).mems.dev = s.mems.dev := rfl
@[simp] theorem setUpsets_mems_host : (setUpsets s v).mems.host = s.mems.host := rfl
@[simp] theorem setUpsets_mems_poison : (setUpsets s v).mems.poison = s.mems.poison := rfl
@[simp] theorem setUpsets_mems_upsets : (setUpsets s v).mems.upsets = v := rfl
end

/-! ### Reading after writing -/

theorem tget_tdel_elsewhere {α : Type} (e : α) {k j : Nat} (h : k ≠ j) : ∀ t : SMap α, tget e (tdel t k) j = tget e t j
  | t => (tget_tdel e k j t).trans (if_neg h)

/-- A table whose default depends on the key, read at another key. -/
theorem tget_put_elsewhere {α : Type} [DecidableEq α] (d e v : α) {k j : Nat} (h : k ≠ j) (t : SMap α) :
    tget e (tput d t k v) j = tget e t j := by
  unfold tput
  split
  · exact tget_tdel_elsewhere e h t
  · exact (tget_tins e v k j t).trans (if_neg h)

theorem getQ_setQ (s : State) (i j : Nat) (v : Queue) : getQ (setQ s i v) j = if i = j then v else getQ s j := by
  exact tget_tput _ v i j _

theorem getTally_setTally (s : State) (i j : Nat) (v : BitVec 32) : getTally (setTally s i v) j = if i = j then v else getTally s j := by
  exact tget_tput _ v i j _

theorem getFunc_setFunc (s : State) (i j : Nat) (v : Func) : getFunc (setFunc s i v) j = if i = j then v else getFunc s j := by
  by_cases h : i = j
  · subst h; simp [getFunc, setFunc, tget_tput]
  · have := tget_put_elsewhere (Func.reset i) (Func.reset j) v h
    simpa [getFunc, setFunc, h] using this _

theorem getSpindle_setSpindle (s : State) (i j : Nat) (v : Spindle) : getSpindle (setSpindle s i v) j = if i = j then v else getSpindle s j := by
  exact tget_tput _ v i j _

theorem getPort_setPort (s : State) (i j : Nat) (v : Port) : getPort (setPort s i v) j = if i = j then v else getPort s j := by
  exact tget_tput _ v i j _

theorem getWindow_setWindow (s : State) (i j : Nat) (v : Window) : getWindow (setWindow s i v) j = if i = j then v else getWindow s j := by
  exact tget_tput _ v i j _

theorem getStream_setStream (s : State) (i j : Nat) (v : Stream) : getStream (setStream s i v) j = if i = j then v else getStream s j := by
  exact tget_tput _ v i j _

theorem getLimits_setLimits (s : State) (i j : Nat) (v : Limits) : getLimits (setLimits s i v) j = if i = j then v else getLimits s j := by
  by_cases h : i = j
  · subst h; simp [getLimits, setLimits, tget_tput]
  · have := tget_put_elsewhere (Limits.cold i) (Limits.cold j) v h
    simpa [getLimits, setLimits, h] using this _

theorem pd_setPd (s : State) (i j : Nat) (v : PdState) : pd (setPd s i v) j = if i = j then v else pd s j := by
  exact tget_tput _ v i j _

theorem getRegion_setRegion (s : State) (l k m j : Nat) (v : Region) :
    getRegion (setRegion s l k v) m j = if 64 * l + k = 64 * m + j then v else getRegion s m j := by
  exact tget_tput _ v _ _ _

end Sys2Proof.Machine
end

