-- ==== Sys2Proof/Laws/Wire.lean ====
section
/-!
SUPPORT. Laws of the wire: what lies above a header's fields or a frame's message changes neither its fields nor its
check (R382, R384, R385).
-/

namespace Sys2Proof.Machine

/-- The low bytes of a number do not see what lies above them. -/
theorem leBytes_add_high (n w k : Nat) : leBytes n (w + k * 2 ^ (8 * n)) = leBytes n w := by
  induction n generalizing w with
  | zero => rfl
  | succ n ih =>
    have e : w + k * 2 ^ (8 * (n + 1)) = w + 256 * (k * 2 ^ (8 * n)) := by
      rw [show 8 * (n + 1) = 8 * n + 8 by omega, Nat.pow_add]; ring
    have d : (w + 256 * (k * 2 ^ (8 * n))) / 256 = w / 256 + k * 2 ^ (8 * n) := by omega
    have b : BitVec.ofNat 8 (w + 256 * (k * 2 ^ (8 * n))) = BitVec.ofNat 8 w := by
      apply BitVec.eq_of_toNat_eq
      simp only [BitVec.toNat_ofNat]
      omega
    simp only [leBytes, e, d, b, ih]

/-- A field below bit `m` does not see what lies from bit `m` on. -/
theorem bits_add_high (m lo n w k : Nat) (h : lo + n ≤ m) : bits (w + k * 2 ^ m) lo n = bits w lo n := by
  obtain ⟨d, rfl⟩ := Nat.exists_eq_add_of_le h
  unfold bits
  rw [Nat.shiftRight_eq_div_pow, Nat.shiftRight_eq_div_pow]
  have e : w + k * 2 ^ (lo + n + d) = w + k * 2 ^ d * 2 ^ n * 2 ^ lo := by
    rw [Nat.pow_add, Nat.pow_add]; ring
  rw [e, Nat.add_mul_div_right _ _ (Nat.two_pow_pos lo), Nat.add_mul_mod_self_right]

/-- What stands from bit `m` on, when only that is asked for. -/
theorem bits_high (m n w k : Nat) (hw : w < 2 ^ m) (hk : k < 2 ^ n) : bits (w + k * 2 ^ m) m n = k := by
  unfold bits
  rw [Nat.shiftRight_eq_div_pow, Nat.add_mul_div_right _ _ (Nat.two_pow_pos m), Nat.div_eq_of_lt hw, Nat.zero_add, Nat.mod_eq_of_lt hk]

/-- A field is part of its number. -/
theorem bits_mul_le (w lo n : Nat) : bits w lo n * 2 ^ lo ≤ w := by
  unfold bits
  rw [Nat.shiftRight_eq_div_pow]
  calc w / 2 ^ lo % 2 ^ n * 2 ^ lo ≤ w / 2 ^ lo * 2 ^ lo := Nat.mul_le_mul_right _ (Nat.mod_le _ _)
    _ ≤ w := Nat.div_mul_le_self _ _

/-- The end-to-end check does not see the check itself (R385). -/
theorem e2eOf_add_high (h k : Nat) (data : List Byte) : e2eOf (h + k * 2 ^ 480) data = e2eOf h data := by
  unfold e2eOf
  have e : setBits (h + k * 2 ^ 480) 25 5 0 = setBits h 25 5 0 + k * 2 ^ 480 := by
    unfold setBits
    rw [bits_add_high 480 25 5 h k (by omega)]
    have := bits_mul_le h 25 5
    omega
  rw [e]
  have := leBytes_add_high 60 (setBits h 25 5 0) k
  rw [show 8 * 60 = 480 from rfl] at this
  rw [this]

/-- A header with its own check in its last field carries a check that matches (R384, R385). -/
theorem e2eOf_matches (h : Nat) (data : List Byte) (hh : h < 2 ^ 480) :
    e2eOf (h + e2eOf h data * 2 ^ 480) data = hE2e (h + e2eOf h data * 2 ^ 480) := by
  rw [e2eOf_add_high]
  unfold hE2e
  rw [bits_high 480 32 h _ hh]
  unfold e2eOf crc32c
  exact BitVec.isLt _

/-- The check of a frame does not see the check itself (R382). -/
theorem crc16_add_high (m k : Nat) : crc16 1283 (m + k * 2 ^ 10264) = crc16 1283 m := by
  unfold crc16
  have := leBytes_add_high 1283 m k
  rw [show 8 * 1283 = 10264 from rfl] at this
  rw [this]

/-- A frame whose last field is the check of its message is sound (R382, R383). -/
theorem crc16_matches (m : Nat) (hm : m < 2 ^ 10264) :
    crc16 1283 (m + crc16 1283 m * 2 ^ 10264) = bits (m + crc16 1283 m * 2 ^ 10264) 10264 16 := by
  rw [crc16_add_high, bits_high 10264 16 m _ hm]
  unfold crc16
  exact BitVec.isLt _

end Sys2Proof.Machine
end

