-- ==== Sys2Proof/Tests/Slice0.lean ====
section
/-!
SUPPORT. Tests: ill-formed commands that WellFormed refuses, values worked out by hand from the spec, and a witness for
the hypotheses of every statement that has some.
-/

namespace Sys2Proof.Tests

open Sys2Proof.Machine

set_option Elab.async false

/-! ### Helpers -/

/-- The operation the tests name: queue 0, tag 5. -/
def r0 : OpRef := ⟨0, 5, .data []⟩

/-- The physical function. -/
def pf : Req := ⟨0, false, none⟩

/-- The block in service, with Bus Master Enable of the physical function set. -/
def live : State :=
  { State.reset with
    pcie := { Pcie.reset with funcs := [(0, { Func.reset 0 with busMaster := true })] }
    pins := { State.reset.pins with perstN := true }
    glob := { Glob.reset with cfgUp := true, ready := true, coldPending := false } }

/-- A packet with tag 5: its opcode, its bits from byte 44 on. -/
def pkt (code params : Nat) : Nat := code + 5 * 2 ^ 8 + params * 2 ^ 352

/-- An operation of queue 0 in a phase, with a descriptor. -/
def opOf (ph : Phase) (w desc : Nat) : Op := { mkOp 0 w with phase := ph, desc := desc }

/-- The block with operations in flight. -/
def having (os : List Op) : State := { live with head := { Head.reset with ops := os } }

/-- The block with one started operation. -/
def begun (code params : Nat) : State := having [opOf .started (pkt code params) 0]

/-- The block with a queue 0 of the given registers. -/
def queued (v : Queue) (s : State) : State := setQ s 0 v

/-- A queue in service with its ring in HBM at 4,096 and its status ring at 8,192; one packet waits. -/
def ring : Queue :=
  { Queue.reset with enable := true, loc := true, sqBase := 4096#64, stqBase := 8192#64, sqTail := 1#16 }

/-- The block with an N-port 0 in a state. -/
def ported (v : Port) (s : State) : State := setPort s 0 v

/-- Whether a row answers a next state. -/
def nexts : Out → Bool
  | .next _ => true
  | _ => false

/-- The state a row leaves. -/
def after : Out → State
  | .next t => t
  | _ => State.reset

/-! ### WellFormed refuses -/

theorem test_wf_queue : (Instr.syWait ⟨64, 0, .data []⟩).wf = false := by decide
theorem test_wf_tag : (Instr.mmDense ⟨0, 8192, .data []⟩).wf = false := by decide
theorem test_wf_snapshot_queue : (Instr.snapshotRestore ⟨64, 0, .data []⟩).wf = false := by decide
theorem test_wf_activate_queue : (Instr.mgFwActivate ⟨64, 0, .data []⟩ true).wf = false := by decide
theorem test_wf_accept_queue : (Instr.packetAccept 64 (.data [])).wf = false := by decide
theorem test_wf_function : (Instr.perfClear ⟨17, false, none⟩).wf = false := by decide
theorem test_wf_ide_stream : (Instr.perfClear ⟨0, false, some 4⟩).wf = false := by decide
theorem test_wf_doorbell_queue : (Instr.sqTailDoorbell pf 64 0#16).wf = false := by decide
theorem test_wf_tally : (Instr.tallyWrite pf 4096 0#32).wf = false := by decide
theorem test_wf_keep : (Instr.keepRegisterWrite pf 128 0#32).wf = false := by decide
theorem test_wf_engine : (Instr.engineResetDone 4).wf = false := by decide
theorem test_wf_region_lathe : (Instr.regionEntryWrite pf 128 0 0#64).wf = false := by decide
theorem test_wf_region_index : (Instr.regionEntryWrite pf 0 64 0#64).wf = false := by decide
theorem test_wf_window_function : (Instr.bar2WinWrite pf 17 0#32).wf = false := by decide
theorem test_wf_size : (Instr.bar0Read pf 0 3).wf = false := by decide
theorem test_wf_read_length : (Instr.bar2Read pf 0 0).wf = false := by decide
theorem test_wf_write_length : (Instr.bar2Write pf 0 []).wf = false := by decide
theorem test_wf_virtual_function : (Instr.vfFunctionLevelReset 0).wf = false := by decide
theorem test_wf_power_state_function : (Instr.d3hotEntry 17).wf = false := by decide
theorem test_wf_resize_function : (Instr.bar2Resize 17 0).wf = false := by decide
theorem test_wf_stream : (Instr.ideStreamExit 4).wf = false := by decide
theorem test_wf_doe_index : (Instr.doeDiscovery 256).wf = false := by decide
theorem test_wf_slot : (Instr.challenge ⟨.doe, none, []⟩ 256).wf = false := by decide
theorem test_wf_session : (Instr.finish ⟨.doe, none, []⟩ (2 ^ 32)).wf = false := by decide
theorem test_wf_block : (Instr.recoveryStage 0 []).wf = false := by decide
theorem test_wf_input_voltage : (Instr.powerOn 1024 0#3).wf = false := by decide
theorem test_wf_bad_spindle : (Instr.perstDeassert ⟨[8192], []⟩).wf = false := by decide
theorem test_wf_bad_lathe : (Instr.hotReset ⟨[], [128]⟩).wf = false := by decide
theorem test_wf_port : (Instr.cablePull 6).wf = false := by decide
theorem test_wf_header : (Instr.writePacket ⟨2 ^ 512, []⟩).wf = false := by decide +kernel
theorem test_wf_coll_header : (Instr.collPacket ⟨2 ^ 512, []⟩).wf = false := by decide +kernel
theorem test_wf_destination : (Instr.retransmitTimeout 64 0).wf = false := by decide
theorem test_wf_sample : (Instr.governorSample ⟨0, 0, [], []⟩).wf = false := by decide
theorem test_wf_domain : (Instr.domainDrainDone 80).wf = false := by decide
theorem test_wf_drain_domain : (Instr.domainDrainTimeout 80 0).wf = false := by decide
theorem test_wf_sector : (Instr.patrolScrub 32 .clean).wf = false := by decide
theorem test_wf_row : (Instr.benchScrub 0 4096 .clean).wf = false := by decide
theorem test_wf_spindle_row : (Instr.spindleStep { spindle := 0, row := 16 }).wf = false := by decide
theorem test_wf_chuck : (Instr.chuckSwap 8192).wf = false := by decide
theorem test_wf_entry : (Instr.groupRescale { spindle := 0, slot := 0, entry := 256 }).wf = false := by decide
theorem test_wf_set : (Instr.tileDrain 0 2).wf = false := by decide
theorem test_wf_whole : (Instr.spindleStep { spindle := 8191, row := 15, errLane := 127 }).wf = true := by decide

/-! ### Witnesses: the step and what every step keeps -/

theorem test_hyps_step_runs_front_command :
    { live with pending := [.readId] }.pending = .readId :: [] := by decide

theorem test_hyps_empty_queue_counts_time :
    live.pending = [] ∧ live.pins.railsUp = true
      ∧ { live with pins := { live.pins with railsUp := false } }.pins.railsUp = false := by decide

/-- A fill that has started, in front of the queue: 16 bytes of HBM at 4,096. -/
def fillState : State := { begun 0x35 (4096 + 16 * 2 ^ 48 + 0xA1B2C3D4 * 2 ^ 96) with pending := [.ceFill r0] }

theorem test_hyps_step_keeps_memory_canonical :
    MemsCanonical fillState ∧ nexts (step fillState) = true := by unfold MemsCanonical; decide +kernel

theorem test_hyps_keep_register_endurance :
    nexts (step { live with pending := [.keepRegisterWrite pf 20 7#32] }) = true
      ∧ keepReg (after (step { live with pending := [.keepRegisterWrite pf 20 7#32] })) 20 = 7#32 := by decide +kernel

theorem test_hyps_anti_rollback :
    ShadowSpares { live with firm := { live.firm with shadow := some [(2, 7#32)] } }
      ∧ nexts (step { live with pending := [.keepRegisterWrite pf 1 2#32] }) = true := by
  refine ⟨?_, by decide +kernel⟩
  intro vs h p hp
  cases h
  have : p = (2, 7#32) := by simpa using hp
  subst this
  decide

theorem test_hyps_no_row_touches_the_queue : nexts (exec (.setdasa 8#7) live) = true := by decide +kernel

/-! ### Witnesses: the life of a command -/

theorem test_hyps_status_of_a_command :
    findOp (begun 0x50 0) 0 5 = some (opOf .started (pkt 0x50 0) 0) := by decide +kernel

theorem test_hyps_record_fields :
    (63 < 64 ∧ 8191 < 8192 ∧ 1 < 2 ∧ 255 < 256 ∧ 2 ^ 48 - 1 < 2 ^ 48 ∧ 3 < 4)
      ∧ (15 < 16 ∧ 7 < 8 ∧ 31 < 32 ∧ 2 ^ 32 - 1 < 2 ^ 32) := by decide

/-- HBM with the packet of an `SY.FENCE` of tag 5 at the head of queue 0's ring. -/
def packetWaits : State :=
  queued ring { live with mems := { live.mems with dev := [(4096, 0x52#8), (4097, 5#8)] } }

theorem test_hyps_acceptance :
    mayAccept (heard packetWaits 0 (.data [])) 0 = true ∧ relayOf (heard packetWaits 0 (.data [])) 0 = none
      ∧ (match readPacket (heard packetWaits 0 (.data [])) 0 (.data []) with
        | (t, .ok w) => w == pkt 0x52 0 && (findOp (passHead t 0) 0 (bits w 8 13)).isNone
        | _ => false) = true := by decide +kernel

/-- The same with tag 5 in flight. -/
def tagBusy : State := { packetWaits with head := { packetWaits.head with ops := [opOf .started (pkt 0x50 0) 0] } }

theorem test_hyps_duplicate_tag :
    mayAccept (heard tagBusy 0 (.data [])) 0 = true ∧ relayOf (heard tagBusy 0 (.data [])) 0 = none
      ∧ (match readPacket (heard tagBusy 0 (.data [])) 0 (.data []) with
        | (t, .ok w) => (findOp (passHead t 0) 0 (bits w 8 13)).isSome
        | _ => false) = true := by decide +kernel

/-- The block with an accepted operation. -/
def waitsToStart (w : Nat) : State := having [opOf .accepted w 0]

theorem test_hyps_start_after_every_check :
    findOp (waitsToStart (pkt 0x52 0)) 0 5 = some (opOf .accepted (pkt 0x52 0) 0)
      ∧ mayStart (heard (waitsToStart (pkt 0x52 0)) 0 (.data [])) (opOf .accepted (pkt 0x52 0) 0) (.data []) = true
      ∧ (match startOp (takeService (heard (waitsToStart (pkt 0x52 0)) 0 (.data [])) 0) (opOf .accepted (pkt 0x52 0) 0) (.data []) with
        | ⟨s, _, .ok p⟩ => (parityHit s p).isNone && !(opDraws p && !opDraws (opOf .accepted (pkt 0x52 0) 0))
        | _ => false) = true := by decide +kernel

/-- An `MG.FW_ACTIVATE` may start while none runs. -/
theorem test_hyps_start_of_an_activation :
    mayStart (heard (waitsToStart (pkt 0x69 0)) 0 (.data [])) (opOf .accepted (pkt 0x69 0) 0) (.data []) = true
      ∧ (waitsToStart (pkt 0x69 0)).firm.activating = none := by decide +kernel

/-- An `SY.WAIT` with `wait_any` and one wait entry, GE 0 on tally 0, behind a started copy of its queue. -/
def waitBehindCopy : State :=
  having [{ opOf .started (pkt 0x30 0) 0 with tag := 4 }, opOf .accepted (pkt 0x50 0 + 2 ^ 24 + 2 ^ 32) 0]

theorem test_hyps_starts_are_ordered :
    nexts (exec (.commandStart r0) waitBehindCopy) = true ∧ nexts (exec (.commandStart r0) (waitsToStart (pkt 0x52 0))) = true
      ∧ (findOp waitBehindCopy 0 5).any (fun o => pWaitAny o && pNWait o == 1 && waitHolds waitBehindCopy o 0
          && (earlier waitBehindCopy o).any fun p => p.q == o.q) = true := by decide +kernel

/-- Queues 2 and 5 each hold an accepted `SY.FENCE`; queue 63 was served last. -/
def twoQueues : State :=
  having [{ opOf .accepted (pkt 0x52 0) 0 with q := 5 }, { opOf .accepted (pkt 0x52 0) 0 with q := 2 }]

/-- R314: queue 5 starts only after queue 2, which comes first in the rotation. -/
theorem test_rotation :
    nexts (exec (.commandStart ⟨5, 5, .data []⟩) twoQueues) = false
      ∧ nexts (exec (.commandStart ⟨5, 5, .data []⟩) (after (exec (.commandStart ⟨2, 5, .data []⟩) twoQueues))) = true := by
  decide +kernel

/-- A queue of function 1 holds an accepted `MG.POWER_DOMAIN`. -/
def foreign : State := setQ (waitsToStart (pkt 0x61 0)) 0 { Queue.reset with func := 1#5 }

theorem test_hyps_privileged_opcode :
    findOp foreign 0 5 = some (opOf .accepted (pkt 0x61 0) 0)
      ∧ mayStart (heard foreign 0 (.data [])) (opOf .accepted (pkt 0x61 0) 0) (.data []) = true
      ∧ ((coreOfPacket (opOf .accepted (pkt 0x61 0) 0)).all fun w => !coreBad foreign w) = true
      ∧ (getQ foreign 0).func ≠ 0#5 ∧ opCode (opOf .accepted (pkt 0x61 0) 0) = 0x61 := by decide +kernel

/-- Queue 0 in service with an ended command of tag 5. -/
def ends (v : Queue) : State := queued v (having [{ opOf .ended (pkt 0x52 0) 0 with status := 0x12 }])

/-- A status ring of 16 entries that is full. -/
def full : Queue := { ring with stqTail := 15#16 }

theorem test_hyps_completion :
    findOp (ends ring) 0 5 = some { opOf .ended (pkt 0x52 0) 0 with status := 0x12 }
      ∧ replyWaits (ends ring) 0 5 = false
      ∧ replyWaits (finishOp (ends ring) { opOf .ended (pkt 0x52 0) 0 with status := 0x12 }) 0 5 = false
      ∧ replyWaits (finishOp (ends full) { opOf .ended (pkt 0x52 0) 0 with status := 0x12 }) 0 5 = true := by decide +kernel

/-- A reply of tag 5, with or without `dup`, waits in a queue that has room. -/
def deferredReply (dup : Nat) : State :=
  queued { ring with deferred := [(replyWord 0 5 dup 0x11 0 0x52 0 0 0, false)] } live

theorem test_hyps_deferred_reply :
    (∀ dup, dup < 2 → stqRoom (deferredReply dup) 0 = true ∧ ringBad (deferredReply dup) 0 = false ∧ ((getQ (deferredReply dup) 0).deferred.map fun x =>
      bit x.1.toNat 13) = [dup == 1]) := by decide +kernel

theorem test_hyps_reply_advances :
    (full.stqTail.toNat + 1 = 2 ^ full.stqLog2.toNat ∧ ring.stqTail.toNat + 1 ≠ 2 ^ ring.stqLog2.toNat)
      ∧ 0x10 ≤ bits (replyWord 0 5 0 0x10 0 0 0 0 0).toNat 16 8 ∧ bits (replyWord 0 5 0 1 0 0 0 0 0).toNat 16 8 < 0x10
      ∧ mayAccept (queued { ring with halted := true } live) 0 = false
      ∧ mayAccept packetWaits 0 = true := by decide +kernel

/-! ### Witnesses: engine commands and the headstock's -/

/-- Whether a started operation of an opcode satisfies a condition. -/
def startedWith (code params : Nat) (p : State → Op → Bool) : Bool :=
  (findOp (begun code params) 0 5).any fun o => o.phase == .started && opCode o == code && p (begun code params) o

/-- What `startedWith` finds is a started operation. -/
theorem started_of_startedWith (code params : Nat) (p : State → Op → Bool) (h : startedWith code params p = true) :
    ∃ o, Started (begun code params) r0 code o ∧ p (begun code params) o = true := by
  unfold startedWith at h
  cases hf : findOp (begun code params) 0 5 with
  | none => simp [hf] at h
  | some o =>
    simp only [hf, Option.any_some, Bool.and_eq_true, beq_iff_eq] at h
    exact ⟨o, ⟨hf, h.1.1, h.1.2⟩, h.2⟩

theorem test_hyps_matrix_rows : ∀ k, k < 8 → startedWith (0x10 + k) 0 (fun s _ => s.mems.upsets.isEmpty) = true := by
  decide +kernel

/-- What a command asks of the open sets: a `MM.DENSE` that begins finds none in its way, and `MM.DRAIN` none to drain. -/
theorem test_hyps_matrix_sets :
    startedWith 0x10 0 (fun s o => match checkSets (rewindOn s o) o with | .ok _ => true | .error _ => false) = true
      ∧ startedWith 0x17 0 (fun s o => o.mCount != some 0
          && match checkSets (rewindOn s o) o with | .ok _ => false | .error _ => true) = true := by decide +kernel

theorem test_hyps_vector_rows : ∀ k, k < 12 → startedWith (0x20 + k) 0 (fun _ _ => true) = true := by decide +kernel

theorem test_hyps_copy_rows :
    (∀ c ∈ [0x30, 0x32, 0x33, 0x34, 0x35], startedWith c 0 (fun s o => !heldByD3 s o) = true)
      ∧ ∀ f, f < 4 → startedWith 0x31 (f * 2 ^ 104) (fun _ o => ccForm o == f) = true := by decide +kernel

theorem test_hyps_engine_rows_leave_the_rest :
    nexts (exec (.veAmax r0) (begun 0x28 0)) = true ∧ nexts (exec (.mmFinish r0) (begun 0x14 0)) = true
      ∧ (begun 0x14 0).mems.upsets = [] := by decide +kernel

/-- A tensor reference of FP32 values: base, rows, columns, line stride. -/
def fp32 (base rows cols stride : Nat) : Nat := base + rows * 2 ^ 64 + cols * 2 ^ 96 + 2 ^ 128 + stride * 2 ^ 160

/-- The block with 1.0 and 2.5 at 4,096 and 0.5 and −2.5 at 4,160, and a started Vector Engine command over those two
rows, neither scaled, its result at 8,192. -/
def vectorOp (code ve : Nat) : State :=
  let s := having [opOf .started (pkt code 0)
    (fp32 4096 1 2 64 + fp32 4160 1 2 64 * 2 ^ 256 + fp32 8192 1 2 64 * 2 ^ 512 + 3 * 2 ^ 1216 + 3 * 2 ^ 1218 + ve * 2 ^ 1600)]
  { s with mems := { s.mems with dev := [(4098, 0x80#8), (4099, 0x3F#8), (4102, 0x20#8), (4103, 0x40#8), (4163, 0x3F#8),
    (4166, 0x20#8), (4167, 0xC0#8)] } }

/-- Whether the ranges of a started command's result, at a width, are some and end by 16,384. -/
def resultBelow (s : State) (width : Nat) : Bool :=
  (findOp s 0 5).any fun o =>
    let rs := ((refC o).withRows (dynRows o (refA o)).rows).ranges width
    !rs.isEmpty && rs.all fun x => decide (x.1 + x.2 ≤ 16384)

theorem test_hyps_vector_writes_only_its_result :
    isHbm 16384 = true ∧ memWf (vectorOp 0x20 1).mems.dev = true
      ∧ (∀ w ∈ [32, 64], resultBelow (vectorOp 0x20 1) w = true) ∧ nexts (exec (.veElementwise r0) (vectorOp 0x20 1)) = true
      ∧ nexts (exec (.veReduce r0) (vectorOp 0x21 0)) = true ∧ nexts (exec (.veSoftmax r0) (vectorOp 0x22 0)) = true
      ∧ nexts (exec (.veSoftmax r0) (vectorOp 0x22 256)) = true ∧ nexts (exec (.veSoftmaxBwd r0) (vectorOp 0x23 0)) = true
      ∧ nexts (exec (.veTopkMerge r0) (vectorOp 0x2A 0)) = true := by decide +kernel

/-- R361, by hand: 1.0 + 0.5 = 1.5 (0x3FC00000) and 2.5 − 2.5 = 0. -/
theorem test_elementwise_adds :
    memRead (after (exec (.veElementwise r0) (vectorOp 0x20 1))).mems.dev 8192 8
      = [0#8, 0#8, 0xC0#8, 0x3F#8, 0#8, 0#8, 0#8, 0#8] := by decide +kernel

/-- R360, by hand: 1.0 + 2.5 = 3.5 (0x40600000), the greater is 2.5, and the squares sum to 7.25 (0x40E80000). -/
theorem test_reduce :
    (List.range 3).map (fun k => leNat (memRead (after (exec (.veReduce r0) (vectorOp 0x21 k))).mems.dev 8192 4))
      = [0x40600000, 0x40200000, 0x40E80000] := by decide +kernel

/-- Bytes 4,096 to 4,099 to be copied to 8,192. -/
def copyOf4 : State :=
  { begun 0x30 (4096 + 8192 * 2 ^ 48 + 4 * 2 ^ 96) with
    mems := { live.mems with dev := [(4096, 0x11#8), (4099, 0x44#8)] } }

theorem test_hyps_copy_and_fill :
    memWf copyOf4.mems.dev = true ∧ copyOf4.mems.upsets = [] ∧ copyOf4.mems.poison = []
      ∧ ((List.range 80).all fun d => pdOn copyOf4 d) = true
      ∧ (findOp copyOf4 0 5).any (fun o => !cpSrcHost o && !cpDstHost o && !cpSrcRegion o && !cpDstRegion o
          && cpSrc o + cpLen o ≤ hbmEnd && cpDst o + cpLen o ≤ hbmEnd && cpSrc o + cpLen o ≤ cpDst o
          && !heldByD3 copyOf4 o) = true
      ∧ (findOp fillState 0 5).any (fun o => !flDstHost o && flDst o + flLen o ≤ hbmEnd) = true := by decide +kernel

theorem test_copy_moves : memRead (after (exec (.ceCopy r0) copyOf4)).mems.dev 8192 5 = [0x11#8, 0#8, 0#8, 0x44#8, 0#8] := by
  decide +kernel

/-- A fill of the first bench row of lathe 0, and one of host memory. -/
def fillBench : State := begun 0x35 (latheBase 0 + 4 * 2 ^ 48 + 7 * 2 ^ 96)
def fillHost : State := begun 0x35 (4096 + 4 * 2 ^ 48 + 2 ^ 84 + 7 * 2 ^ 96)

theorem test_hyps_fill_frame :
    nexts (exec (.ceFill r0) fillState) = true ∧ isHbm 4096 = true
      ∧ nexts (exec (.ceFill r0) fillBench) = true ∧ isHbm (latheBase 0) = false
      ∧ nexts (exec (.ceFill r0) fillHost) = true
      ∧ (findOp fillHost 0 5).any (fun o => flDstHost o) = true := by decide +kernel

theorem test_fill_repeats :
    memRead (after (exec (.ceFill r0) fillState)).mems.dev 4096 6 = [0xD4#8, 0xC3#8, 0xB2#8, 0xA1#8, 0xD4#8, 0xC3#8] := by
  decide +kernel

theorem test_hyps_short_row_write : MemsCanonical live ∧ 508 + [1#8, 2#8, 3#8, 4#8].length ≤ 512 := by
  unfold MemsCanonical; decide +kernel

/-! ### Witnesses and values: numbers -/

theorem test_hyps_i48 :
    i48Ext (2 ^ 55 - 1) = .fin ((2 ^ 55 - 1 : Int) : Rat) ∧ i48Ext (2 ^ 56 - 2 ^ 55) = .fin ((-(2 ^ 55) : Int) : Rat)
      ∧ i48Ext 5 = .fin ((5 : Int) : Rat) ∧ (-(2 ^ 47 : Int) ≤ 5 ∧ (5 : Int) ≤ 2 ^ 47 - 1)
      ∧ (2 ^ 55 - 1 < (2 ^ 55 - 1 : Int) + 1 ∧ -(2 ^ 55 : Int) + (-1) < -(2 ^ 55 : Int))
      ∧ ((2 : Int) ^ 47 - 1 < 2 ^ 55 - 1 ∧ -(2 ^ 55 : Int) < -(2 ^ 47 : Int)) := by decide +kernel

/-- R105: one past the greatest 56-bit value is +∞ with OVERFLOW. -/
theorem test_i48_overflows :
    (fun r => (i48Ext r.1, r.2)) (accAdd .i48 (2 ^ 55 - 1) (.fin 1)) = (.pinf, fOverflow) := by decide +kernel

/-- A group with a register, mantissas and exponents. -/
def grp (reg : Int) (ma mb : Nat) (xa : Int) (nf : Bool) : GroupRes := ⟨reg, ma, xa, mb, 0, nf⟩

theorem test_hyps_round48 :
    AccFmt.c64 ≠ .i48 ∧ (grp 3 1 1 0 false).nonfinite = false ∧ (2 ^ 48 - 1 : Int).natAbs < 2 ^ 48 ∧ (1 : Rat) ≠ 0 := by
  decide +kernel

/-- R82: a tie at the 48th bit rounds away from zero. -/
theorem test_round48_tie : roundSig 48 (2 ^ 48 + 1) = 2 ^ 48 + 2 ∧ roundSig 48 (-(2 ^ 48 + 1)) = -(2 ^ 48 + 2) := by
  decide +kernel

theorem test_hyps_delivered :
    (grp 3 1 1 0 true).nonfinite = true ∧ (grp 3 0 1 0 false).ma = 0 ∧ (0 : Int) ≤ (grp 3 1 1 0 false).xa + (grp 3 1 1 0 false).xb
      ∧ (grp 3 1 1 (-1) false).xa + (grp 3 1 1 (-1) false).xb < 0 := by decide +kernel

/-- R84: 3 ÷ 2 goes to 2 and −3 ÷ 2 to −2. -/
theorem test_i48_tie :
    deliver .i48 0 (grp 3 1 1 (-1) false) = .fin 2 ∧ deliver .i48 0 (grp (-3) 1 1 (-1) false) = .fin (-2) := by decide +kernel

/-- R72: 7 = 8 − 1. -/
theorem test_digits_of_seven : csd 7 = [(false, 3), (true, 0)] := by decide +kernel

/-- The shape of BF16: 1.0 is 0x3F80. -/
theorem test_hyps_float_codes :
    (fpShape .bf16).any (fun sh => floatVal sh 0x3F80 == .fin 1 && decide (0x3F80 < 2 ^ fmtBits .bf16)
      && decide (0x3F80 ≠ 2 ^ (sh.mb + sh.eb)) && decide (rabs 3 ≤ fpMax sh)) = true := by decide +kernel

/-- R30: 448 is the greatest E4M3 value, 57,344 the greatest E5M2 value and 6 the greatest E2M1 value. -/
theorem test_float_maxima : ([Fmt.e4m3, .e5m2, .e2m1].map fun f => (fpShape f).map fpMax) = [some 448, some 57344, some 6] := by
  decide +kernel

/-- R64: 1 + 2^-8 lies midway between 0x3F80 and 0x3F81 and goes away from zero. -/
theorem test_bf16_tie : quantFin .bf16 [] .near (mkRat 257 256) 1 = 0x3F81 := by decide +kernel

/-! ### Witnesses: tallies, quotas and power -/

/-- A start that finds every unit good. -/
def good : StartIn := ⟨[], []⟩

/-- PERST_N is low in a device that has started before. -/
def warmLow : State := { live with pins := { live.pins with perstN := false } }

theorem live_reaches (bar off n : Nat) : Reaches live pf bar off n :=
  ⟨by decide +kernel, by decide +kernel, by decide +kernel, rfl, rfl, rfl⟩

theorem test_hyps_tally_rules :
    live.head.ops = [] ∧ nexts (exec .perstAssert live) = true ∧ nexts (exec (.hotReset good) live) = true
      ∧ nexts (exec (.pcieLinkLoss good) live) = true ∧ warmLow.glob.coldPending = false
      ∧ nexts (exec (.perstDeassert good) warmLow) = true ∧ 4095 < 4096 := by decide +kernel

theorem test_hyps_tally_write : Reaches live pf 0 (tallyOff 0 4095) 4 ∧ Owns live pf (.tally 4095) :=
  ⟨live_reaches _ _ _, .inl rfl⟩

/-- R322: an ADD wraps modulo 2^32. -/
theorem test_tally_wraps : getTally (addTally (setTally live 7 0xFFFFFFFF#32) 7 3) 7 = 2#32 := by decide +kernel

theorem test_hyps_headstock_rows :
    (∀ c ∈ [0x50, 0x51, 0x52, 0x44, 0x45, 0x65, 0x60, 0x63, 0x66, 0x67, 0x6A],
      startedWith c 0 (fun s o => !heldByD3 s o) = true)
      ∧ (∀ k, k < 7 → startedWith 0x62 k (fun _ o => quOp o == k) = true)
      ∧ startedWith 0x6B 0 (fun _ o => isFence o) = true ∧ startedWith 0x6B 2 (fun _ o => !isFence o) = true := by decide +kernel

/-- A started firmware command that the firmware has noted. -/
def firmNotes (code : Nat) : State :=
  let s := begun code 0
  { s with firm := { s.firm with stages := [(0, 5)], activating := some (0, 5) } }

theorem test_hyps_firmware_rows :
    (findOp (firmNotes 0x68) 0 5).any (fun o => o.phase == .started && opCode o == 0x68) = true
      ∧ (stagesDue (firmNotes 0x68)).head? = some (0, 5)
      ∧ (findOp (firmNotes 0x69) 0 5).any (fun o => o.phase == .started && opCode o == 0x69) = true
      ∧ (firmNotes 0x69).firm.activating = some (0, 5) ∧ activator (firmNotes 0x68) = none := by decide +kernel

theorem test_hyps_snapshots :
    startedWith 0x64 0 (fun s o => !snRestore o && (snapOf s o.q o.tag).isNone && wayOf s o == .host && !heldByD3 s o) = true
      ∧ startedWith 0x64 1 (fun s o => snRestore o && wayOf s o == .host) = true
      ∧ startedWith 0x64 2 (fun s o => !snRestore o && wayOf s o == .own && !heldByD3 s o) = true := by decide +kernel

theorem test_hyps_reservation_rule :
    (∀ b : Bool, ∀ n ∈ [0, 4096], startedWith 0x62 ((if b then 1 else 0) + n * 2 ^ 80) (fun s o =>
      quSize o ≤ (if b then (getLimits s 0).bench else (getLimits s 0).hbm * 0x20_0000)
        && quSize o ≤ (if b then (getLimits s 64).bench else (getLimits s 64).hbm * 0x20_0000)) = true)
      ∧ (∀ b : Bool, startedWith 0x62 ((if b then 1 else 0) + (2 ^ 40 - 1) * 2 ^ 80) (fun s o =>
        decide ((if b then (getLimits s 0).bench else (getLimits s 0).hbm * 0x20_0000) < quSize o)) = true)
      ∧ startedWith 0x62 (1 + 4097 * 2 ^ 80) (fun s o => decide ((getLimits s 0).bench < quSize o)) = true := by
  decide +kernel

/-- R340: the reservation over the limit ends with 0x31. -/
theorem test_reservation_over_quota :
    (findOp (after (exec (.reserveBench r0) (begun 0x62 (1 + 4097 * 2 ^ 80)))) 0 5).map (·.status) = some 0x31 := by
  decide +kernel

theorem test_hyps_power_cap :
    ∀ w ∈ [189, 190, 450, 451], startedWith 0x63 w (fun _ o => pcWatts o == w) = true := by decide +kernel

/-- Domain 3 in a state. -/
def domain (v : PdState) (s : State) : State := setPd s 3 v

/-- The same after a trip. -/
def tripped (v : PdState) (s : State) : State := setPower (domain v s) { (domain v s).power with trip := true }

theorem test_hyps_power_domain_switches :
    startedWith 0x61 3 (fun s o => pd s (mpDomain o) == .settled .on && wantedPd o == .on) = true
      ∧ startedWith 0x61 (3 + 2 * 2 ^ 8) (fun s o => pd s (mpDomain o) == .settled .on && wantedPd o == .off) = true
      ∧ (findOp (tripped (.settled .off) (begun 0x61 3)) 0 5).any (fun o => wantedPd o == .on && trippable (mpDomain o)
          && pd (tripped (.settled .off) (begun 0x61 3)) 3 == .settled .off) = true
      ∧ (∀ v ∈ [PdState.switching .on .off 0 5, .switching .retain .off 0 5, .switching .off .on 0 5],
          pd (domain v live) 3 = v ∧ portWaits (domain v live) 3 = false)
      ∧ pd (setPd live 75 (.switching .on .off 0 5)) 75 = .switching .on .off 0 5 := by decide +kernel

/-! ### Witnesses: the fabric -/

/-- An N-port 0 that is up, with a route to device 1 through it. -/
def onPod (s : State) : State :=
  let s := ported { Port.reset with state := .up, cable := true, lanesUp := 0xFF#8 } s
  setFab s { s.fab with routes := [(1, 0)] }

/-- A `MG.SNAPSHOT` to or from device 1, before and after it begins. -/
def peerSnap (restore : Nat) (ph : Phase) (j : Option SnapJob) : State :=
  { onPod (having [opOf ph (pkt 0x64 (restore + 2 + 2 ^ 2)) 0]) with snap := j }

theorem test_hyps_peer_snapshots :
    (∀ restore, restore < 2 →
      (findOp (peerSnap restore .started none) 0 5).any (fun o => o.phase == .started && opCode o == 0x64
        && wayOf (peerSnap restore .started none) o == .peer && snRestore o == (restore == 1)
        && (snapOf (peerSnap restore .started none) o.q o.tag).isNone && (peerCut (peerSnap restore .started none) o).isNone) = true)
      ∧ (onPod live).fab.routesDue = false ∧ pdOn (onPod live) dBridge = true
      ∧ ∀ restore, restore < 2 →
        let s := peerSnap restore .waiting (some ⟨0, 5, [], [], 0, [], none⟩)
        (findOp s 0 5).any (fun o => o.phase == .waiting && wayOf s o == .peer && snRestore o == (restore == 1)
          && (snapOf s o.q o.tag).isSome && !xferOpen s o.q o.tag) = true := by decide +kernel

theorem test_hyps_fabric_commands :
    (∀ c ∈ [0x40, 0x41], startedWith c 0 (fun s o => fpPeer o == devId (countXfer s)) = true)
      ∧ (∀ c ∈ [0x40, 0x41], (findOp (onPod (begun c (2 ^ 48))) 0 5).any (fun o =>
          fpPeer o != devId (countXfer (onPod (begun c (2 ^ 48)))) && (routeTo (countXfer (onPod (begun c (2 ^ 48)))) (fpPeer o)).isSome
            && !routeCut (countXfer (onPod (begun c (2 ^ 48)))) (fpPeer o)) = true)
      ∧ (onPod live).fab.routesDue = false
      ∧ startedWith 0x42 0 (fun _ _ => true) = true ∧ startedWith 0x53 0 (fun _ _ => true) = true
      ∧ startedWith 0x43 0 (fun _ o => !collBit o) = true ∧ startedWith 0x43 (2 ^ 128) (fun _ o => collBit o) = true := by
  decide +kernel

/-- A relay of queue 0 to queue 2 of device 1 that has no reply out. -/
def relayed0 : Relay := ⟨0, 1, 2, 4096, 4, [], 0, []⟩

/-- The block, on a pod, with that relay. -/
def relaying (s : State) : State := setFab (onPod s) { (onPod s).fab with relays := [relayed0] }

theorem test_hyps_relay_command :
    (findOp (onPod (begun 0x46 (2 ^ 6 + 2 ^ 18))) 0 5).any (fun o => frEnable o
        && frTarget o != devId (onPod (begun 0x46 0)) && (routeTo (onPod live) (frTarget o)).isSome
        && decide (Machine.unanswered (onPod live) (frTarget o) < 1024)) = true
      ∧ startedWith 0x46 0 (fun s o => !frEnable o && (relayOf s (frSrc o)).isNone) = true
      ∧ (findOp (relaying (begun 0x46 0)) 0 5).any (fun o => !frEnable o
          && relayOf (relaying (begun 0x46 0)) (frSrc o) == some relayed0) = true ∧ relayed0.awaiting = []
      ∧ (relaying live).fab.routesDue = false ∧ routeCut (relaying live) relayed0.target = false := by decide +kernel

/-- The same gateway with a packet of queue 0 at the head of its ring. -/
def relayingRing : State := relaying packetWaits

theorem test_hyps_acceptance_for_a_relay :
    mayAccept (heard relayingRing 0 (.data [])) 0 = true ∧ relayOf (heard relayingRing 0 (.data [])) 0 = some relayed0
      ∧ (match readPacket (heard relayingRing 0 (.data [])) 0 (.data []) with | (_, .ok _) => true | _ => false) = true := by
  decide +kernel

/-- The route to device 1 leads over N-port 3, which the die bridge cuts off. -/
def cutOff (s : State) : State :=
  let s := setPd s dBridge (.settled .off)
  setFab s { s.fab with routes := [(1, 3)] }

theorem test_hyps_relay_cut :
    (findOp (cutOff (begun 0x46 (2 ^ 6 + 2 ^ 18))) 0 5).any (fun o => frEnable o && frTarget o == 1) = true
      ∧ (routeTo (cutOff live) 1).isSome = true ∧ routeCut (cutOff live) 1 = true
      ∧ relayOf (cutOff (relaying live)) 0 = some relayed0 ∧ routeCut (cutOff (relaying live)) relayed0.target = true := by
  decide +kernel

/-- The header of a packet from device 1 to device 0, below its check. -/
def lowHdr (kind : Nat) (data : List Byte) (coll status : Nat) : Nat :=
  kind + 2 ^ 6 + cdiv data.length 64 * 2 ^ 18 + 9 * 2 ^ 32 + status * 2 ^ 120 + coll * 2 ^ 128 + data.length * 2 ^ 160

/-- A packet from device 1 to device 0. -/
def fromPeer (kind : Nat) (data : List Byte) (coll status : Nat) : Packet :=
  ⟨lowHdr kind data coll status + e2eOf (lowHdr kind data coll status) data * 2 ^ 480, data⟩

theorem hdr_field (kind : Nat) (data : List Byte) (coll status lo n : Nat) (h : lo + n ≤ 480) :
    bits (fromPeer kind data coll status).hdr lo n = bits (lowHdr kind data coll status) lo n :=
  bits_add_high 480 lo n _ _ h

theorem delivered_fromPeer (s : State) (kind : Nat) (data : List Byte) (coll status : Nat)
    (h : (onFabric s && hKind (lowHdr kind data coll status) == kind && hHops (lowHdr kind data coll status) != 16
      && hDst (lowHdr kind data coll status) == devId s && decide (lowHdr kind data coll status < 2 ^ 480)
      && cdiv data.length 64 == hFlits (lowHdr kind data coll status)) = true) :
    Delivered s (fromPeer kind data coll status) kind := by
  simp only [Bool.and_eq_true, beq_iff_eq, bne_iff_ne, decide_eq_true_eq] at h
  have f := fun lo n h => hdr_field kind data coll status lo n h
  refine ⟨h.1.1.1.1.1, ?_, ?_, ?_, e2eOf_matches _ _ h.1.2, ?_⟩
  · exact (f 0 4 (by omega)).trans h.1.1.1.1.2
  · exact fun e => h.1.1.1.2 ((f 25 5 (by omega)).symm.trans e)
  · exact (f 12 6 (by omega)).trans h.1.1.2
  · exact h.2.trans (f 18 7 (by omega)).symm

/-- The block, on a pod, with a packet of kind `k` for tag 5 unanswered and its operation waiting. -/
def unanswered (code k : Nat) : State :=
  let s := onPod (having [opOf .waiting (pkt code 0) 0])
  setFab s { s.fab with sent := [⟨0, 5, 1, 9, mkPacket { kind := k, vc := 0, src := 0, dst := 1, txn := 9 } [], 4096, 4, 0, false⟩] }

theorem test_hyps_packets_write_read :
    Delivered (onPod live) (fromPeer kWrite [1#8] 0 0) kWrite ∧ Fresh (onPod live) (fromPeer kWrite [1#8] 0 0)
      ∧ (let h := (fromPeer kWrite [1#8] 0 0).hdr; regionWaits (onPod live) (hSrc h) (hWin h) (readXfer h)) = false :=
  ⟨delivered_fromPeer _ _ _ _ _ (by decide +kernel), rfl, rfl⟩

/-- The block with transaction 9 of device 1 complete. -/
def seenNine : State := let s := onPod live; setFab s { s.fab with seen := [(1, 9, 0, 0)] }

theorem test_hyps_packets_again :
    Delivered seenNine (fromPeer kRead [] 0 0) kRead
      ∧ seenNine.fab.seen.find? (fun y => y.1 = hSrc (fromPeer kRead [] 0 0).hdr && y.2.1 = hTxn (fromPeer kRead [] 0 0).hdr)
        = some (1, 9, 0, 0) := by
  refine ⟨delivered_fromPeer _ _ _ _ _ (by decide +kernel), ?_⟩
  have h1 : hSrc (fromPeer kRead [] 0 0).hdr = 1 := (hdr_field kRead [] 0 0 6 6 (by omega)).trans (by decide +kernel)
  have h2 : hTxn (fromPeer kRead [] 0 0).hdr = 9 := (hdr_field kRead [] 0 0 32 32 (by omega)).trans (by decide +kernel)
  rw [h1, h2]
  rfl

/-- A window 0 of device 1 over 64 bytes of HBM at 4,096. -/
def windowed : State :=
  setWindow (onPod live) 0 { Window.closed with opened := true, peer := 1#6, base := 4096#48, size := 64#40, rd := true, wr := true }

theorem test_hyps_packets_read :
    Delivered windowed (fromPeer kRead [] 0 0) kRead ∧ Fresh windowed (fromPeer kRead [] 0 0)
      ∧ (match (remoteRead windowed 1 0 0 4 ⟨0, 1, 4, 0⟩).2.2 with | .ok _ => true | .error _ => false) = true
      ∧ (match (remoteRead (onPod live) 1 0 0 4 ⟨0, 1, 4, 0⟩).2.2 with | .ok _ => false | .error _ => true) = true :=
  ⟨delivered_fromPeer _ _ _ _ _ (by decide +kernel), rfl, by decide +kernel, by decide +kernel⟩

theorem sentFor_unanswered (code k kind : Nat) (data : List Byte) (status : Nat)
    (h : (hSrc (lowHdr kind data 0 status) == 1 && hTxn (lowHdr kind data 0 status) == 9) = true) :
    sentFor (unanswered code k) (fromPeer kind data 0 status)
      = some ⟨0, 5, 1, 9, mkPacket { kind := k, vc := 0, src := 0, dst := 1, txn := 9 } [], 4096, 4, 0, false⟩ := by
  simp only [Bool.and_eq_true, beq_iff_eq] at h
  have h1 : hSrc (fromPeer kind data 0 status).hdr = 1 := (hdr_field kind data 0 status 6 6 (by omega)).trans h.1
  have h2 : hTxn (fromPeer kind data 0 status).hdr = 9 := (hdr_field kind data 0 status 32 32 (by omega)).trans h.2
  unfold sentFor unanswered
  simp only [h1, h2]
  rfl

theorem test_hyps_packets_data :
    Delivered (onPod live) (fromPeer kData [1#8] 0 0) kData ∧ sentFor (onPod live) (fromPeer kData [1#8] 0 0) = none
      ∧ Delivered (unanswered 0x41 kRead) (fromPeer kData [1#8, 2#8, 3#8, 4#8] 0 0) kData
      ∧ ∃ x o, sentFor (unanswered 0x41 kRead) (fromPeer kData [1#8, 2#8, 3#8, 4#8] 0 0) = some x
        ∧ findOp (dropSent (unanswered 0x41 kRead) x) x.q x.tag = some o
        ∧ snapOf (dropSent (unanswered 0x41 kRead) x) x.q x.tag = none :=
  ⟨delivered_fromPeer _ _ _ _ _ (by decide +kernel), rfl, delivered_fromPeer _ _ _ _ _ (by decide +kernel), _, _,
    sentFor_unanswered _ _ _ _ _ (by decide +kernel), rfl, rfl⟩

/-- The same packet when a restore waits for it. -/
theorem test_hyps_packets_data_snapshot :
    snapOf { unanswered 0x64 kRead with snap := some ⟨0, 5, [], [], 0, [], none⟩ } 0 5 = some ⟨0, 5, [], [], 0, [], none⟩ := by
  decide +kernel

/-- Both ways that DATA lands: in place, and at a stack that is off. -/
theorem test_hyps_packets_data_lands :
    (landGet (onPod live) (opOf .waiting (pkt 0x41 0) 0) 4096 [1#8, 2#8, 3#8, 4#8] false false).err.isNone = true
      ∧ (landGet (setPd (onPod live) 64 (.settled .off)) (opOf .waiting (pkt 0x41 0) 0) 4096 [1#8, 2#8, 3#8, 4#8] false false).err.isSome
        = true := by decide +kernel

theorem test_hyps_packets_resp (st : Nat) (h : st = 0 ∨ st = 0x30) :
    Delivered (unanswered 0x40 kWrite) (fromPeer kResp [] 0 st) kResp ∧ hStatus (fromPeer kResp [] 0 st).hdr = st
      ∧ ∃ x o, sentFor (unanswered 0x40 kWrite) (fromPeer kResp [] 0 st) = some x
        ∧ findOp (dropSent (unanswered 0x40 kWrite) x) x.q x.tag = some o ∧ opCode o = 0x40 := by
  rcases h with rfl | rfl <;>
    exact ⟨delivered_fromPeer _ _ _ _ _ (by decide +kernel),
      (hdr_field kResp [] 0 _ 120 8 (by omega)).trans (by decide +kernel), _, _,
      sentFor_unanswered _ _ _ _ _ (by decide +kernel), rfl, by decide +kernel⟩

theorem test_hyps_packets_sent_kind :
    hKind (mkPacket { kind := kWrite, vc := 0, src := 0, dst := 1, txn := 9 } []).hdr = kWrite
      ∧ hKind (mkPacket { kind := kRelay, vc := 0, src := 0, dst := 1, txn := 9 } []).hdr = kRelay
      ∧ (unanswered 0x46 kRelay).head.ops.all (fun o => opCode o == 0x46 && o.phase == .waiting) = true := by
  decide +kernel

/-- The block as the target of a relay from queue 3 of device 1 into queue 2. -/
def target : State :=
  let s := onPod live
  setFab (setQ s 2 { ring with sqTail := 0#16 }) { s.fab with relaysIn := [⟨2, 1, 3⟩] }

theorem test_hyps_packets_relay :
    Delivered target (fromPeer kRelay [] 0 0) kRelay ∧ hFlits (fromPeer kRelay [] 0 0).hdr = 0
      ∧ Delivered target (fromPeer kRelay [7#8] (3 + 64 * 2) 0) kRelay ∧ Fresh target (fromPeer kRelay [7#8] (3 + 64 * 2) 0)
      ∧ hFlits (fromPeer kRelay [7#8] (3 + 64 * 2) 0).hdr = 1 ∧ hSrc (fromPeer kRelay [7#8] (3 + 64 * 2) 0).hdr = 1
      ∧ hColl (fromPeer kRelay [7#8] (3 + 64 * 2) 0).hdr = 3 + 64 * 2 ∧ (getQ target 2).enable = true
      ∧ target.fab.relaysIn.contains ⟨2, 1, 3⟩ = true ∧ sqUsed (getQ target 2) < 2 ^ (getQ target 2).sqLog2.toNat - 1 :=
  ⟨delivered_fromPeer _ _ _ _ _ (by decide +kernel), (hdr_field kRelay [] 0 0 18 7 (by omega)).trans (by decide +kernel),
    delivered_fromPeer _ _ _ _ _ (by decide +kernel), rfl,
    (hdr_field kRelay [7#8] (3 + 64 * 2) 0 18 7 (by omega)).trans (by decide +kernel),
    (hdr_field kRelay [7#8] (3 + 64 * 2) 0 6 6 (by omega)).trans (by decide +kernel),
    (hdr_field kRelay [7#8] (3 + 64 * 2) 0 128 32 (by omega)).trans (by decide +kernel),
    by decide +kernel, by decide +kernel, by decide +kernel⟩

theorem test_hyps_packets_reply_coll :
    Delivered (onPod live) (fromPeer kReply [] 0 0) kReply ∧ relayOf (onPod live) 0 = none
      ∧ Delivered (relaying live) (fromPeer kReply [] (64 * 2) 0) kReply
      ∧ hColl (fromPeer kReply [] (64 * 2) 0).hdr = 64 * 2 ∧ hSrc (fromPeer kReply [] (64 * 2) 0).hdr = relayed0.target
      ∧ relayOf (relaying live) (bits (64 * 2) 0 6) = some relayed0 ∧ relayed0.dstQ = bits (64 * 2) 6 6
      ∧ (takeAwaiting relayed0.awaiting 0 false).length = relayed0.awaiting.length
      ∧ (takeAwaiting [(0, 0x52, 3)] 0 false).length ≠ [(0, 0x52, 3)].length
      ∧ Delivered (onPod live) (fromPeer kColl [] 0 0) kColl ∧ Fresh (onPod live) (fromPeer kColl [] 0 0) :=
  ⟨delivered_fromPeer _ _ _ _ _ (by decide +kernel), by decide +kernel,
    delivered_fromPeer _ _ _ _ _ (by decide +kernel),
    (hdr_field kReply [] (64 * 2) 0 128 32 (by omega)).trans (by decide +kernel),
    (hdr_field kReply [] (64 * 2) 0 6 6 (by omega)).trans (by decide +kernel), by decide +kernel, by decide +kernel,
    by decide +kernel, by decide +kernel,
    delivered_fromPeer _ _ _ _ _ (by decide +kernel), rfl⟩

theorem test_hyps_packets_coll_share :
    (let p := fromPeer kColl [] 0 0
     shareLets (onPod live) (queueFunc (onPod live) (readColl p).queue) ((routeTo (onPod live) (readColl p).src).getD 0) (collCost p))
      = true := by decide +kernel

/-- A WRITE with `hops` 16, one for device 2, and one whose check is broken. -/
theorem test_hyps_passing_packets :
    onFabric (onPod live) = true ∧ hKind (kWrite + 16 * 2 ^ 25) = kWrite ∧ hHops (kWrite + 16 * 2 ^ 25) = 16
      ∧ hKind (kWrite + 2 * 2 ^ 12) = kWrite ∧ hHops (kWrite + 2 * 2 ^ 12) ≠ 16
      ∧ hDst (kWrite + 2 * 2 ^ 12) ≠ devId (onPod live)
      ∧ hDst kWrite = devId (onPod live) ∧ e2eOf kWrite [] ≠ hE2e kWrite := by decide +kernel

/-- RFC 3720's check of CRC-32C, which R385 uses: 32 bytes of zero give 0x8A9136AA. -/
theorem test_crc32c : crc32c (List.replicate 32 0#8) = 0x8A9136AA := by decide +kernel

/-- 64 replays at once on N-port 0 and on the die bridge. -/
def replaying : State :=
  let s := ported { Port.reset with state := .up, cable := true, lanesUp := 0xFF#8, replays := List.replicate 64 0#64 } live
  setFab s { s.fab with bridgeReplays := List.replicate 64 0#64, routesDue := true }

theorem test_hyps_fabric_timers :
    replaying.fab.routesDue = true ∧ bridgeOff replaying = false ∧ replaying.pins.railsUp = true
      ∧ replayLimit replaying replaying.fab.bridgeReplays = true
      ∧ (unanswered 0x40 kWrite).fab.sent.find? (fun x => x.dst = 1 && x.txn = 9)
        = (unanswered 0x40 kWrite).fab.sent.head? ∧ (unanswered 0x40 kWrite).fab.sent ≠ []
      ∧ (unanswered 0x40 kWrite).fab.routesDue = false ∧ (routeTo (unanswered 0x40 kWrite) 1).isSome = true
      ∧ ((unanswered 0x40 kWrite).fab.sent.map fun x => decide (x.tries < 4) && !x.due) = [true] := by decide +kernel

/-- Twenty flits of zeros are frame 0 with some check. -/
theorem test_hyps_frame_delivery :
    carries (getPort (onPod live) 0) = true
      ∧ ∃ m, crc16 1283 m = bits m 10264 16 ∧ bits m 10240 12 = (getPort (onPod live) 0).expSeq.toNat :=
  ⟨by decide +kernel, _, crc16_matches 0 (Nat.two_pow_pos _),
    (bits_add_high 10264 10240 12 0 (crc16 1283 0) (by omega)).trans (by decide +kernel)⟩

/-- N-port 0 in the middle of a packet of 25 data flits. -/
def midPacket : State := ported { getPort (onPod live) 0 with rxLeft := 25 } live

theorem test_hyps_frame_clauses :
    carries (getPort midPacket 0) = true ∧ 20 ≤ (getPort midPacket 0).rxLeft ∧ (getPort midPacket 0).rxDrop = false
      ∧ (∀ m, frameGood .uncorrectable m = false) ∧ bits (2 ^ 10240) 10240 12 ≠ (getPort (onPod live) 0).expSeq.toNat
      ∧ 11 ≤ hKind (11 + 2 ^ 18) ∧ 0 < hFlits (11 + 2 ^ 18) ∧ (getPort live 0).rxLeft = 0 :=
  ⟨by decide +kernel, by decide +kernel, by decide +kernel, fun _ => rfl, by decide +kernel, by decide +kernel⟩

/-- R383: a frame that does not decode is discarded and counted. -/
theorem test_unusable_frame :
    (getPort (after (exec (.frameReceive 0 .uncorrectable 0) (onPod live))) 0).discard = 1#16 := by decide +kernel

/-- N-port 0 in a state, its cable in. -/
def portIn (st : PortState) : State := ported { Port.reset with state := st, cable := true, rejoinAt := some 0#64 } live

theorem test_hyps_port_rows :
    carries (getPort replaying 0) = true ∧ replayLimit replaying (getPort replaying 0).replays = true
      ∧ (getPort (onPod live) 0).state = .up ∧ carries (getPort (onPod live) 0) = true
      ∧ (0x0F#8 &&& (getPort (onPod live) 0).lanesUp ≠ (getPort (onPod live) 0).lanesUp ∧ usableLanes 0x0F#8 = some (0x0F#8, true))
      ∧ (0x33#8 &&& (getPort (onPod live) 0).lanesUp ≠ (getPort (onPod live) 0).lanesUp ∧ usableLanes 0x33#8 = none)
      ∧ (getPort (onPod live) 0).cable = true ∧ (getPort live 0).cable = false ∧ (getPort live 0).state = .down
      ∧ mayTrain live 0 = true ∧ (getPort (portIn .training) 0).state = .training
      ∧ (getPort (portIn .quiescing) 0).state = .quiescing ∧ pdOn (portIn .quiescing) 72 = true
      ∧ portBusy (portIn .quiescing) 0 = false ∧ (getPort (portIn .quiesced) 0).state = .quiesced
      ∧ cameBy (portIn .quiesced) (getPort (portIn .quiesced) 0).rejoinAt = true
      ∧ devId (onPod live) ≠ 5 ∧ liveLink (onPod live) 5 0 ≠ true := by decide +kernel

/-! ### Witnesses: the host's registers -/

theorem test_hyps_register_reads :
    Reaches live pf 0 0x1000 8 ∧ regAt 0 0x1000 = some .gstat ∧ Reg.gstat.narrow = false
      ∧ bar0Fault live pf 0x1000 8 false = none ∧ live.mems.upsets = []
      ∧ nexts (exec (.bar0Read pf 0x1000 8) live) = true := ⟨live_reaches _ _ _, by decide +kernel⟩

/-- R461: the low word is read, the latch keeps the high word, and the high word is then the latched one. -/
theorem test_timestamp_latch :
    let s := { live with glob := { live.glob with timestamp := 0x100000002#64 } }
    let t := after (exec (.timestampLatchRead pf) s)
    (after (exec (.bar0Read pf 0x1034 4) { t with glob := { t.glob with timestamp := 0x500000000#64 } })).out
      = [.completion 0 [2#8, 0#8, 0#8, 0#8], .completion 0 [1#8, 0#8, 0#8, 0#8]] := by decide +kernel

theorem test_hyps_timestamp_latch : pf.fn = 0 ∧ Reaches live pf 0 0x1030 8 := ⟨rfl, live_reaches _ _ _⟩

/-- Function 0 without Memory Space Enable, and in D3hot. -/
def noMem : State := setFunc live 0 { Func.reset 0 with memSpace := false }
def asleep : State := setFunc live 0 { Func.reset 0 with d3hot := true }

theorem test_hyps_disabled_function :
    noMem.glob.cfgUp = true ∧ (getFunc noMem 0).memSpace = false ∧ (getFunc asleep 0).d3hot = true
      ∧ inBar2 noMem 0 64 8 = true ∧ inBar2 noMem 0 64 [1#8].length = true := by decide +kernel

/-- A write of SQCFG with rings of 16 entries: ENABLE, LOCAL and CLEAR_HALTED as given. -/
def sqcfg (enable : Nat) : BitVec 64 := BitVec.ofNat 64 (enable + 2 + 4 * 2 ^ 24 + 4 * 2 ^ 32)

theorem test_hyps_queue_register_writes :
    Reaches live pf 0 (queueOff 0 63) 0x1000 ∧ Owns live pf (.sqcfg 63) ∧ 63 < 64
      ∧ (15#16).toNat < 2 ^ (getQ live 63).sqLog2.toNat ∧ (15#16).toNat < 2 ^ (getQ live 63).stqLog2.toNat
      ∧ sqcfgSound (getQ live 63) (sqcfgOf (getQ live 63) true (sqcfg 1).toNat) = true ∧ bit (sqcfg 1).toNat 0 = true
      ∧ (getQ live 63).enable = false
      ∧ (∀ b, sqcfgSound { ring with resetting := b } (sqcfgOf { ring with resetting := b } true (sqcfg 1).toNat) = true
        ∧ sqcfgSound { ring with resetting := b } (sqcfgOf { ring with resetting := b } true (sqcfg 0).toNat) = true)
      ∧ (getQ packetWaits 0).enable = true ∧ bit (sqcfg 0).toNat 0 = false :=
  ⟨live_reaches _ _ _, .inl rfl, by decide +kernel⟩

theorem test_hyps_enabled_queue :
    Reaches live pf 0 (queueOff 0 63) 0x1000 ∧ Owns live pf (.sqcfg 63) ∧ bit (sqcfg 1).toNat 0 = true ∧ (getQ live 63).enable = false
      ∧ sqcfgSound (getQ live 63) (sqcfgOf (getQ live 63) (pf.fn == 0) (sqcfg 1).toNat) = true :=
  ⟨live_reaches _ _ _, .inl rfl, by decide +kernel⟩

theorem test_hyps_queue_in_service : Reaches packetWaits pf 0 (queueOff 0 0) 0x1000 :=
  ⟨by decide +kernel, by decide +kernel, by decide +kernel, rfl, rfl, rfl⟩

theorem test_hyps_global_register_writes :
    pf.fn = 0 ∧ (∀ off n, Reaches live pf 0 off n)
      ∧ released { live with faults := { live.faults with vFill := 3, vTail := 3#8 } } 2 ≤ 3 :=
  ⟨rfl, fun _ _ => live_reaches _ _ _, by decide +kernel⟩

/-- A region 63 of lathe 127: one slot of one row at bench row 0, enabled, one reader. -/
def regionWord : BitVec 64 := BitVec.ofNat 64 (2 ^ 16 + 2 ^ 46)

theorem test_hyps_indexed_register_writes :
    (∀ off n, Reaches live pf 0 off n) ∧ (383#32).toNat ≤ 383
      ∧ (match keepWrite live 127 5#32 with | .ok _ => true | .error _ => false) = true
      ∧ pdServes live true 63 = true ∧ pdServes live true dBridge = true ∧ (regionWrite live 127 63 regionWord.toNat).isSome = true
      ∧ Owns live pf (.qstat 63) ∧ bit (0x3F800000#32).toNat 31 = false ∧ bits (0x3F800000#32).toNat 23 8 ≠ 255 :=
  ⟨fun _ _ => live_reaches _ _ _, by decide +kernel, by decide +kernel, by decide +kernel, by decide +kernel, by decide +kernel, .inl rfl,
    by decide +kernel, by decide +kernel⟩

theorem test_hyps_read_only : pf.fn = 0 ∧ ∀ off, Reaches live pf 0 off 8 := ⟨rfl, fun _ => live_reaches _ _ _⟩

/-- The copy, vector and fabric engines report a reset in progress. -/
def enginesBusy : State := { live with glob := { live.glob with engBusy := 0xF#4 } }

theorem test_hyps_reset_rows :
    live.pcie.vfEnable = true ∧ live.glob.cfgUp = true ∧ enginesBusy.glob.engBusy.getLsbD 3 = true
      ∧ nexts (exec (.vfFunctionLevelReset 16) live) = true ∧ nexts (exec .pfFunctionLevelReset live) = true := by
  decide +kernel

theorem test_hyps_function_controls :
    live.glob.cfgUp = true ∧ (getFunc live 16).d3hot = false ∧ (getFunc asleep 0).d3hot = true
      ∧ (getFunc live 0).busMaster ≠ false ∧ 9 ≤ 9
      ∧ (tget IdeStream.reset [(3, { IdeStream.reset with secure := true })] 3).secure = true ∧ live.pcie.pba = []
      ∧ nexts (exec (.d3hotEntry 0) live) = true ∧ nexts (exec (.d0Return 0) (after (exec (.d3hotEntry 0) live))) = true := by
  decide +kernel

theorem test_hyps_hbm_window :
    MemsCanonical live ∧ live.glob.cfgUp = true ∧ unsupportedNow live 0 = false ∧ live.mems.upsets = [] ∧ live.mems.poison = []
      ∧ inBar2 live 0 64 8 = true ∧ bar2Fault live pf (bar2Addr live 0 64) 8 false = none
      ∧ bar2Fault live pf (bar2Addr live 0 64) [1#8].length true = none := by
  refine ⟨by unfold MemsCanonical; decide +kernel, by decide +kernel⟩

theorem test_hyps_refused_window :
    live.glob.cfgUp = true ∧ unsupportedNow live 0 = false ∧ inBar2 live 0 hbmEnd 8 = true
      ∧ (bar2Fault live pf (bar2Addr live 0 hbmEnd) 8 false).isSome = true
      ∧ (bar2Fault live ⟨0, true, none⟩ (bar2Addr live 0 64) 1 true).isSome = true := by decide +kernel

/-- The violation log with some entries. -/
def logged (n : Nat) (tail : BitVec 8) : State := { live with faults := { live.faults with vFill := n, vTail := tail } }

theorem test_hyps_violation_log :
    ∀ p ∈ [(255, 255#8), (256, 0#8)], (logged p.1 p.2).faults.vFill ≤ 256
      ∧ (logged p.1 p.2).faults.vTail = (logged p.1 p.2).faults.vHead + BitVec.ofNat 8 (logged p.1 p.2).faults.vFill := by
  decide +kernel

/-! ### Witnesses: attestation, the module and its power -/

/-- The block with an I3C address. -/
def addressed : State := { live with pins := { live.pins with i3cAddr := some 8#7 } }

theorem test_hyps_attestation :
    viaUp live .doe = true ∧ viaUp addressed .mctp = true ∧ live.firm.recovery = false ∧ live.glob.cfgUp = true
      ∧ nexts (exec (.doeDiscovery 0) live) = true ∧ nexts (exec (.heartbeat ⟨.doe, none, []⟩) live) = true := by decide +kernel

/-- The block in recovery, with IDENTIFY showing and a pad test running. -/
def attended : State :=
  { live with
    firm := { live.firm with recovery := true }
    face := { live.face with identifyUntil := some 5#64 }
    glob := { live.glob with padTest := true } }

theorem test_hyps_module :
    i3cUp live = true ∧ live.pins.i3cAddr = none ∧ viaUp addressed .mctp = true
      ∧ attended.face.identifyUntil.isSome = true ∧ live.pins.pwrEn = true ∧ live.glob.ready = true
      ∧ ({ live.glob with ready := false } : Glob).ready = false ∧ attended.glob.padTest = true
      ∧ attended.glob.cfgUp = true ∧ attended.firm.recovery = true := by decide +kernel

/-- No power, the inputs low. -/
def dark : State := { State.reset with pins := { State.reset.pins with pwrEn := false, railsUp := false } }

theorem test_hyps_starts_and_stops :
    dark.pins.pwrEn = false ∧ dark.pins.railsUp = false ∧ dark.pins.perstN = false
      ∧ State.reset.pins.perstN = false ∧ State.reset.pins.railsUp = true ∧ State.reset.glob.coldPending = true
      ∧ warmLow.pins.perstN = false ∧ warmLow.glob.coldPending = false
      ∧ live.pins.perstN = true ∧ live.glob.cfgUp = true := by decide +kernel

/-- R514: a cold start with every unit good ends ready, and warm is not set. -/
theorem test_cold_start :
    let t := after (exec (.perstDeassert good) State.reset)
    t.glob.ready = true ∧ t.glob.warm = false ∧ t.glob.coldPending = false := by decide +kernel

theorem test_hyps_power_loss :
    live.pins.railsUp = true ∧ live.pins.pwrEn = true ∧ live.firm.activating = none
      ∧ nexts (exec (.powerShutdown .railFault) live) = true
      ∧ nexts (exec .pwrEnFall live) = true := by decide +kernel

/-- A junction at 110 degrees since tick 1, and a confirmation watchdog. -/
def hotNow : State :=
  { live with
    power := { live.power with junctions := [(31, 110#8)], hotSince := some 1#64 }
    firm := { live.firm with watchdog := some 0#64 } }

theorem test_hyps_heat_and_scrub :
    live.pins.railsUp = true ∧ live.power.coreMv.toNat ≤ live.power.vmaxMv.toNat ∧ 450 ≤ live.power.vmaxMv.toNat
      ∧ hotNow.power.hotSince.isSome = true ∧ reaches hotNow 110 = true
      ∧ live.glob.ready = true ∧ pdOn live (64 + 64 / stackBytes) = true ∧ live.mems.poison.contains 64 = false
      ∧ live.glob.coldPending = false ∧ readsServed (pd live (127 / 2)) = true ∧ isHbm 64 = true
      ∧ live.mems.poison.contains (latheBase 127 + 512 * 4095) = false ∧ live.mems.upsets = [] ∧ watchdogDue hotNow = true := by
  decide +kernel

/-- A started `MM.DENSE` of 1.0 at 4,096 by 2.0 at 8,192 into 12,288, in H32 with adder groups of 16 rows. -/
def product : State :=
  let word := fun i v => v * 2 ^ (64 * i)
  let d := fp32 4096 1 1 1 + fp32 8192 1 1 1 * 2 ^ 256 + fp32 12288 1 1 1 * 2 ^ 512 + word 18 32 + word 19 15
    + word 20 (2 ^ 32) + word 22 (2 ^ 48 + 0xE41B1B1B * 2 ^ 16) + word 23 (16 + 16 * 2 ^ 20 + 64 * 2 ^ 40)
    + word 24 (16 + 16 * 2 ^ 16 + 64 * 2 ^ 32)
  let s := having [{ opOf .started (pkt 0x10 0) d with resident := true }]
  { s with mems := { s.mems with dev := [(4098, 0x80#8), (4099, 0x3F#8), (8195, 0x40#8)] } }

/-- The spindle after its chuck swap, after its one step, and after its rescale. -/
def swapped : State := after (exec (.chuckSwap 0) product)
def stepped : State := after (exec (.spindleStep { spindle := 0, row := 0 }) swapped)
def rescaled : State := after (exec (.groupRescale { spindle := 0, slot := 0, entry := 0 }) stepped)

theorem test_hyps_chuck_swap :
    (workOn product 0).any (fun w =>
      let j := jobFor w.o (getSpindle product 0)
      let sp := if j.chuck = 0 then (getSpindle product 0).cleared else getSpindle product 0
      match w.cs[j.chuck]? with
      | some c => w.spent product j sp && (enterChuck product w c j sp).any fun x =>
          (readyMatch product w c).any fun u =>
            (guardReload u w c j).2.2.isNone && (swapIn (guardReload u w c j).1 w c x.1 x.2).isSome
      | none => false) = true := by decide +kernel

theorem test_hyps_spindle_step :
    (workOn swapped 0).any (fun w =>
      let sp := getSpindle swapped 0
      let j := jobFor w.o sp
      (w.chuck j).any fun c =>
        let fs := w.feeds swapped c
        let st := standOf w.o sp
        let st' := stepGroup (w.steps fs) st 0
        let v := (chuckVecs w.o c).getD 0 (⟨0, 0, 0, 0⟩, 0, 0)
        mayStep (w.steps fs) st 0 && decide (0 < sliverCols w.o) && badLane w sp (fs.getD 0 []) 0 0 0 1 == some 0
          && (badLane w sp (fs.getD 0 []) 0 0 0 0).isNone && sp.drain.isEmpty
          && (finishVecs swapped w c (j.chuck - 1) (allDone st (w.steps fs).length) (allDone st' (w.steps fs).length)
            (setStand st' (stepRegs w (fs.getD 0 []) v 0 0 0 0 sp))).isSome) = true := by decide +kernel

theorem test_hyps_group_rescale :
    (workOn stepped 0).any (fun w =>
      let sp := getSpindle stepped 0
      (sp.drain.find? fun z => z.key = 0).any fun y =>
        match w.cs[y.chuck]? with
        | some c => (roundSet (jobFor w.o sp) c.round).isSome && (c.tiles.find? fun t => w.place t + 0 = 0).isSome
            && w.x.acc == .c64 && checksResidue w.o && res7 (reg48 (y.reg + 0)) == y.res && res7 (reg48 (y.reg + 1)) != y.res
        | none => false) = true := by decide +kernel

theorem test_hyps_tile_drain :
    getSetState (getSpindle rescaled 0) 0 = .draining
      ∧ (workOn rescaled 0).any (fun w =>
          (w.segs.find? fun g => tget 0 (jobFor w.o (getSpindle rescaled 0)).rounds 0 = g.round + 1).isSome) = true := by
  decide +kernel

/-- R73 to R85 and R122, by hand: 2^23 × 2^15 in the register, then 1.0 × 2.0 = 2.0 (0x40000000) in HBM. -/
theorem test_spindle_product :
    ((getSpindle stepped 0).drain.map (·.reg)) = [2 ^ 38]
      ∧ leNat (memRead (after (exec (.tileDrain 0 0) rescaled)).mems.dev 12288 4) = 0x40000000 := by decide +kernel

end Sys2Proof.Tests
end

section
/-!
The rescale unit's roundings (R82 to R84). The model's exact arithmetic is tied to Mathlib's (powers of two, magnitudes,
floors) once; then come what each rounding answers, and the two statements on delivered values.
-/

namespace Sys2Proof.Machine

/-! ### The model's exact arithmetic in Mathlib's terms -/

@[simp] theorem pow2_eq_zpow (e : Int) : pow2 e = (2 : Rat) ^ e := by
  unfold pow2
  split
  · next h =>
    obtain ⟨n, rfl⟩ := Int.eq_ofNat_of_zero_le h
    simp
  · next h =>
    obtain ⟨n, hn⟩ := Int.eq_ofNat_of_zero_le (show 0 ≤ -e by omega)
    obtain rfl : e = -(n : Int) := by omega
    simp [Rat.mkRat_eq_div]

@[simp] theorem rabs_eq_abs (x : Rat) : rabs x = |x| := by
  unfold rabs
  split
  · next h => exact (abs_of_neg h).symm
  · next h => exact (abs_of_nonneg (not_lt.mp h)).symm

@[simp] theorem rfloor_eq_floor (x : Rat) : rfloor x = ⌊x⌋ := Rat.floor_def'.symm

/-- A positive rational lies within a binade of the difference of its numerator's and denominator's logarithms. -/
theorem zpow_log2_num_sub_log2_den_bounds {x : Rat} (hx : 0 < x) :
    let k : Int := (Nat.log2 x.num.natAbs : Int) - (Nat.log2 x.den : Int)
    (2 : Rat) ^ (k - 1) ≤ x ∧ x < 2 ^ (k + 1) := by
  have hn : x.num.natAbs ≠ 0 := by simpa using hx.ne'
  have hxq : x = (x.num.natAbs : Rat) / x.den := by
    conv_lhs => rw [← Rat.num_div_den x]
    rw [Nat.cast_natAbs, abs_of_pos (Rat.num_pos.mpr hx)]
  have hd : (0 : Rat) < x.den := by exact_mod_cast x.den_pos
  generalize x.num.natAbs = n at hn hxq
  generalize hden : x.den = d at hd hxq
  have hd0 : d ≠ 0 := hden ▸ x.den_ne_zero
  have hn1 : (2 : Rat) ^ n.log2 ≤ n := by exact_mod_cast Nat.log2_self_le hn
  have hn2 : (n : Rat) < 2 ^ (n.log2 + 1) := by exact_mod_cast Nat.lt_log2_self
  have hd1 : (2 : Rat) ^ d.log2 ≤ d := by exact_mod_cast Nat.log2_self_le hd0
  have hd2 : (d : Rat) < 2 ^ (d.log2 + 1) := by exact_mod_cast Nat.lt_log2_self
  subst hxq
  constructor
  · calc (2 : Rat) ^ ((n.log2 : Int) - d.log2 - 1) = 2 ^ n.log2 / 2 ^ (d.log2 + 1) := by
          rw [sub_sub, zpow_sub₀ two_ne_zero]; norm_cast
      _ ≤ n / d := by gcongr
  · calc (n : Rat) / d < 2 ^ (n.log2 + 1) / 2 ^ d.log2 := by gcongr
      _ = 2 ^ ((n.log2 : Int) - d.log2 + 1) := by
          rw [sub_add_eq_add_sub, zpow_sub₀ two_ne_zero]; norm_cast

/-- `ilog2` is the exponent of the binade that holds its argument. -/
theorem zpow_ilog2_le_and_lt {x : Rat} (hx : 0 < x) : (2 : Rat) ^ ilog2 x ≤ x ∧ x < 2 ^ (ilog2 x + 1) := by
  obtain ⟨hlo, hhi⟩ := zpow_log2_num_sub_log2_den_bounds hx
  simp only [ilog2, pow2_eq_zpow]
  split
  · next hk => rw [if_neg (not_le.mpr hhi)]; exact ⟨hk, hhi⟩
  · next hk => exact ⟨hlo, by simpa using hk⟩

theorem ilog2_lt_of_lt_zpow {x : Rat} (hx : 0 < x) {k : Int} (h : x < 2 ^ k) : ilog2 x < k :=
  (zpow_lt_zpow_iff_right₀ one_lt_two).mp ((zpow_ilog2_le_and_lt hx).1.trans_lt h)

/-! ### The nearest integer, ties away from zero -/

theorem rndMag_eq_floor (a : Rat) : rndMag a = ⌊a + 1 / 2⌋₊ := by
  rw [rndMag, rfloor_eq_floor, Int.floor_toNat, Rat.mkRat_eq_div]; norm_num

/-- A magnitude and the natural number that it rounds to: at most one half apart, and a half is rounded up. -/
theorem rndMag_near {a : Rat} (ha : 0 ≤ a) : (rndMag a : Rat) ≤ a + 1 / 2 ∧ a + 1 / 2 < rndMag a + 1 := by
  rw [rndMag_eq_floor]
  exact ⟨Nat.floor_le (by positivity), Nat.lt_floor_add_one _⟩

@[simp] theorem rndMag_natCast (n : Nat) : rndMag n = n := by
  rw [rndMag_eq_floor, Nat.floor_eq_iff (by positivity)]
  constructor <;> linarith

theorem rnd_of_nonneg {x : Rat} (h : 0 ≤ x) : rnd x = (rndMag |x| : Int) := by
  rw [rnd, if_neg (not_lt.mpr h), abs_of_nonneg h]

theorem rnd_of_neg {x : Rat} (h : x < 0) : rnd x = -(rndMag |x| : Int) := by
  rw [rnd, if_pos h, abs_of_neg h]

@[simp] theorem natAbs_rnd (x : Rat) : (rnd x).natAbs = rndMag |x| := by
  obtain h | h := lt_or_ge x 0
  · simp [rnd_of_neg h]
  · simp [rnd_of_nonneg h]

theorem abs_rnd (x : Rat) : |(rnd x : Rat)| = rndMag |x| := by
  rw [← natAbs_rnd, Nat.cast_natAbs, Int.cast_abs]

@[simp] theorem rnd_intCast (z : Int) : rnd z = z := by
  have hmag : (rndMag |(z : Rat)| : Int) = |z| := by
    rw [← Int.cast_abs, Int.abs_eq_natAbs, Int.cast_natCast, rndMag_natCast]
  obtain h | h := lt_or_ge z 0
  · rw [rnd_of_neg (Int.cast_lt_zero.mpr h), hmag, abs_of_neg h, neg_neg]
  · rw [rnd_of_nonneg (Int.cast_nonneg h), hmag, abs_of_nonneg h]

/-- The sign is kept, so the error is that of the magnitude. -/
theorem abs_rnd_sub (x : Rat) : |(rnd x : Rat) - x| = |(rndMag |x| : Rat) - abs x| := by
  obtain h | h := lt_or_ge x 0
  · rw [rnd_of_neg h, abs_of_neg h, ← abs_neg]
    congr 1
    push_cast
    ring
  · rw [rnd_of_nonneg h, abs_of_nonneg h, Int.cast_natCast]

/-- The rounded integer is a nearest one. -/
theorem abs_rnd_sub_le (x : Rat) : |(rnd x : Rat) - x| ≤ 1 / 2 := by
  obtain ⟨hlo, hhi⟩ := rndMag_near (abs_nonneg x)
  rw [abs_rnd_sub, abs_le]
  constructor <;> linarith

/-- On a tie the rounded integer is the one away from zero. -/
theorem abs_lt_abs_rnd_of_tie {x : Rat} (h : |(rnd x : Rat) - x| = 1 / 2) : |x| < |(rnd x : Rat)| := by
  obtain ⟨hlo, hhi⟩ := rndMag_near (abs_nonneg x)
  rw [abs_rnd_sub] at h
  rw [abs_rnd]
  obtain ⟨hc, -⟩ | ⟨hc, -⟩ := abs_cases ((rndMag |x| : Rat) - abs x) <;> linarith

/-! ### Rounding to significant bits (R82) -/

@[simp] theorem roundSig_zero (p : Nat) : roundSig p 0 = 0 := if_pos rfl

/-- The exponent of the last place of `x` to `p` significant bits. -/
def lastPlace (p : Nat) (x : Rat) : Int := ilog2 |x| - ((p : Int) - 1)

theorem roundSig_eq_rnd_mul (p : Nat) {x : Rat} (hx : x ≠ 0) :
    roundSig p x = (rnd (x / 2 ^ lastPlace p x) : Rat) * 2 ^ lastPlace p x := by
  simp [roundSig, lastPlace, hx, mul_comm]

/-- In units of its last place a magnitude has `p` bits before the point. -/
theorem abs_div_lastPlace_bounds {p : Nat} (hp : 1 ≤ p) {x : Rat} (hx : x ≠ 0) :
    (2 : Rat) ^ (p - 1) ≤ |x / 2 ^ lastPlace p x| ∧ |x / 2 ^ lastPlace p x| < 2 ^ p := by
  obtain ⟨hlo, hhi⟩ := zpow_ilog2_le_and_lt (abs_pos.mpr hx)
  have hpos : (0 : Rat) < 2 ^ lastPlace p x := by positivity
  have hlow : (2 : Rat) ^ (p - 1) * 2 ^ lastPlace p x = 2 ^ ilog2 |x| := by
    rw [← zpow_natCast, ← zpow_add₀ two_ne_zero, lastPlace]; congr 1; omega
  have hhigh : (2 : Rat) ^ p * 2 ^ lastPlace p x = 2 ^ (ilog2 |x| + 1) := by
    rw [← zpow_natCast, ← zpow_add₀ two_ne_zero, lastPlace]; congr 1; omega
  rw [abs_div, abs_of_pos hpos, le_div_iff₀ hpos, div_lt_iff₀ hpos, hlow, hhigh]
  exact ⟨hlo, hhi⟩

/-- A magnitude between two natural numbers rounds to one between them. -/
theorem rndMag_mem_of_mem {a : Rat} {lo hi : Nat} (hlo : (lo : Rat) ≤ a) (hhi : a < hi) :
    lo ≤ rndMag a ∧ rndMag a ≤ hi := by
  obtain ⟨hle, hlt⟩ := rndMag_near (lo.cast_nonneg.trans hlo)
  have h1 : (lo : Rat) < (rndMag a + 1 : Nat) := by push_cast; linarith
  have h2 : (rndMag a : Rat) < (hi + 1 : Nat) := by push_cast; linarith
  exact ⟨Nat.lt_succ_iff.mp (by exact_mod_cast h1), Nat.lt_succ_iff.mp (by exact_mod_cast h2)⟩

/-- The mantissa of a rounding to `p` significant bits has `p` bits, or is the power of two above them. -/
theorem natAbs_mantissa_bounds {p : Nat} (hp : 1 ≤ p) {x : Rat} (hx : x ≠ 0) :
    2 ^ (p - 1) ≤ (rnd (x / 2 ^ lastPlace p x)).natAbs ∧ (rnd (x / 2 ^ lastPlace p x)).natAbs ≤ 2 ^ p := by
  obtain ⟨hlo, hhi⟩ := abs_div_lastPlace_bounds hp hx
  rw [natAbs_rnd]
  exact rndMag_mem_of_mem (by exact_mod_cast hlo) (by exact_mod_cast hhi)

/-- The error of a rounding to significant bits is that of its mantissa, in units of the last place. -/
theorem abs_roundSig_sub (p : Nat) {x : Rat} (hx : x ≠ 0) :
    |roundSig p x - x| = |(rnd (x / 2 ^ lastPlace p x) : Rat) - x / 2 ^ lastPlace p x| * 2 ^ lastPlace p x := by
  have hpos : (0 : Rat) < 2 ^ lastPlace p x := by positivity
  calc |roundSig p x - x|
      = |((rnd (x / 2 ^ lastPlace p x) : Rat) - x / 2 ^ lastPlace p x) * 2 ^ lastPlace p x| := by
        rw [roundSig_eq_rnd_mul p hx, sub_mul, div_mul_cancel₀ x hpos.ne']
    _ = |(rnd (x / 2 ^ lastPlace p x) : Rat) - x / 2 ^ lastPlace p x| * 2 ^ lastPlace p x := by
        rw [abs_mul, abs_of_pos hpos]

theorem half_mul_zpow (l : Int) : (1 / 2 : Rat) * 2 ^ l = 2 ^ (l - 1) := by
  rw [zpow_sub_one₀ two_ne_zero]; ring

theorem abs_roundSig_sub_le (p : Nat) {x : Rat} (hx : x ≠ 0) : |roundSig p x - x| ≤ 2 ^ (lastPlace p x - 1) := by
  rw [abs_roundSig_sub p hx, ← half_mul_zpow]
  gcongr
  exact abs_rnd_sub_le _

theorem abs_lt_abs_roundSig_of_tie (p : Nat) {x : Rat} (hx : x ≠ 0)
    (h : |roundSig p x - x| = 2 ^ (lastPlace p x - 1)) : |x| < |roundSig p x| := by
  have hpos : (0 : Rat) < 2 ^ lastPlace p x := by positivity
  rw [abs_roundSig_sub p hx, ← half_mul_zpow] at h
  have hlt := abs_lt_abs_rnd_of_tie (mul_right_cancel₀ hpos.ne' h)
  rw [abs_div, abs_of_pos hpos, div_lt_iff₀ hpos] at hlt
  rwa [roundSig_eq_rnd_mul p hx, abs_mul, abs_of_pos hpos]

/-- An integer of at most `p` bits is a multiple of its last place, so the rounding leaves it as it is. -/
theorem roundSig_intCast {p : Nat} {z : Int} (h : z.natAbs < 2 ^ p) : roundSig p (z : Rat) = z := by
  obtain rfl | hz := eq_or_ne z 0
  · simp
  have hx : (z : Rat) ≠ 0 := Int.cast_ne_zero.mpr hz
  have hlt : |(z : Rat)| < 2 ^ (p : Int) := by
    rw [← Int.cast_abs, Int.abs_eq_natAbs, zpow_natCast]
    exact_mod_cast h
  have hlog := ilog2_lt_of_lt_zpow (abs_pos.mpr hx) hlt
  obtain ⟨n, hn⟩ := Int.eq_ofNat_of_zero_le (show 0 ≤ -lastPlace p (z : Rat) by rw [lastPlace]; omega)
  have hmul : (z : Rat) / 2 ^ lastPlace p (z : Rat) = ((z * 2 ^ n : Int) : Rat) := by
    rw [div_eq_mul_inv, ← zpow_neg, hn]; push_cast; simp
  rw [roundSig_eq_rnd_mul p hx, hmul, rnd_intCast, ← hmul, div_mul_cancel₀]
  positivity

/-! ### Scaling an integer by a power of two (R83) -/

@[simp] theorem scaleInt_zero (x : Int) : scaleInt 0 x = 0 := by
  unfold scaleInt
  split
  · simp
  · next h =>
    have hlt : 2 ^ ((-x).toNat - 1) < 2 ^ (-x).toNat := Nat.pow_lt_pow_right one_lt_two (by omega)
    simp [Nat.div_eq_of_lt hlt]

theorem scaleInt_of_nonneg (p : Int) {x : Int} (h : 0 ≤ x) : scaleInt p x = p * 2 ^ x.toNat := if_pos h

/-- A magnitude divided by 2^d to nearest, a half up. -/
theorem mul_add_half_div_near (n : Nat) {d : Nat} (hd : 0 < d) :
    2 * ((n + 2 ^ (d - 1)) / 2 ^ d * 2 ^ d) ≤ 2 * n + 2 ^ d
    ∧ 2 * n < 2 * ((n + 2 ^ (d - 1)) / 2 ^ d * 2 ^ d) + 2 ^ d := by
  have hpow : 2 ^ d = 2 * 2 ^ (d - 1) := by rw [← pow_succ', Nat.sub_add_cancel hd]
  have hdiv := Nat.div_add_mod' (n + 2 ^ (d - 1)) (2 ^ d)
  have hmod := Nat.mod_lt (n + 2 ^ (d - 1)) (Nat.two_pow_pos d)
  omega

/-- A negative exponent divides the magnitude and keeps the sign. -/
theorem scaleInt_neg_mul_eq (p : Int) {d : Nat} (hd : 0 < d) :
    scaleInt p (-(d : Int)) * 2 ^ d
      = if p < 0 then -(((p.natAbs + 2 ^ (d - 1)) / 2 ^ d * 2 ^ d : Nat) : Int)
        else (((p.natAbs + 2 ^ (d - 1)) / 2 ^ d * 2 ^ d : Nat) : Int) := by
  rw [scaleInt, if_neg (by omega), neg_neg, Int.toNat_natCast]
  split <;> push_cast <;> ring

/-- Under a negative exponent the scaled integer is a nearest one, and on a tie the one away from zero. -/
theorem scaleInt_neg_near (p : Int) {d : Nat} (hd : 0 < d) :
    2 * (scaleInt p (-(d : Int)) * 2 ^ d - p).natAbs ≤ 2 ^ d
    ∧ (2 * (scaleInt p (-(d : Int)) * 2 ^ d - p).natAbs = 2 ^ d → p.natAbs < (scaleInt p (-(d : Int)) * 2 ^ d).natAbs) := by
  obtain ⟨hle, hlt⟩ := mul_add_half_div_near p.natAbs hd
  rw [scaleInt_neg_mul_eq p hd]
  generalize (p.natAbs + 2 ^ (d - 1)) / 2 ^ d * 2 ^ d = m at hle hlt
  generalize 2 ^ d = u at hle hlt
  split <;> omega

/-! ### What the rescale unit delivers (R81 to R84) -/

/-- The integer product P of a register and its two mantissas (R81). -/
def GroupRes.product (g : GroupRes) : Int := g.reg * g.ma * g.mb

theorem GroupRes.product_eq_zero {g : GroupRes} (h : g.ma = 0 ∨ g.mb = 0) : g.product = 0 := by
  obtain h | h := h <;> simp [GroupRes.product, h]

theorem deliver_of_nonfinite (f : AccFmt) (e : Int) {g : GroupRes} (h : g.nonfinite = true) : deliver f e g = .nan :=
  if_pos h

theorem deliver_i48 (e : Int) {g : GroupRes} (h : g.nonfinite = false) :
    deliver .i48 e g = .fin (scaleInt g.product (g.xa + g.xb - e) : Int) := by
  simp [deliver, h, GroupRes.product]

theorem deliver_of_ne_i48 {f : AccFmt} (hf : f ≠ .i48) (e : Int) {g : GroupRes} (h : g.nonfinite = false) :
    deliver f e g = .fin (roundSig 48 (g.product : Rat) * pow2 (g.xa + g.xb)) := by
  cases f with
  | i48 => exact absurd rfl hf
  | c64 => simp [deliver, h, GroupRes.product]
  | a16 => simp [deliver, h, GroupRes.product]

theorem deliver_of_product_eq_zero (f : AccFmt) (e : Int) {g : GroupRes} (h : g.nonfinite = false)
    (hp : g.product = 0) : deliver f e g = .fin 0 := by
  obtain rfl | hf := eq_or_ne f .i48
  · simp [deliver_i48 e h, hp]
  · simp [deliver_of_ne_i48 hf e h, hp]

end Sys2Proof.Machine

open Sys2Proof.Machine

/-- Settles O26: the last place stands 47 below the magnitude's leading bit, and the mantissa is the nearest integer in
units of it. -/
theorem roundTo48Bits : Obligations.RoundTo48Bits := by
  unfold Obligations.RoundTo48Bits
  refine ⟨fun f e g hf h => deliver_of_ne_i48 hf e h, fun p => roundSig_intCast, fun x hx => ?_⟩
  obtain ⟨hlo, hhi⟩ := natAbs_mantissa_bounds (p := 48) (by decide) hx
  simp only [pow2_eq_zpow, rabs_eq_abs]
  exact ⟨_, lastPlace 48 x, roundSig_eq_rnd_mul 48 hx, hlo, hhi, abs_roundSig_sub_le 48 hx,
    abs_lt_abs_roundSig_of_tie 48 hx⟩

/-- Settles O27, by the cases of `deliver` and the bounds on `scaleInt`. -/
theorem deliveredValues : Obligations.DeliveredValues := by
  unfold Obligations.DeliveredValues
  intro f e g p x
  refine ⟨deliver_of_nonfinite f e, fun h hz => deliver_of_product_eq_zero f e h (GroupRes.product_eq_zero hz), ?_, ?_⟩
  · rintro h rfl hle
    rw [deliver_i48 e h, scaleInt_of_nonneg _ (Int.sub_nonneg.mpr hle)]
    rfl
  · rintro h rfl hlt
    obtain ⟨d, hd⟩ := Int.eq_ofNat_of_zero_le (show 0 ≤ e - x by omega)
    refine ⟨scaleInt p (x - e), deliver_i48 e h, ?_⟩
    rw [show x - e = -(d : Int) by omega, hd, Int.toNat_natCast]
    exact scaleInt_neg_near p (by omega)

end

section
/-!
The life of a command (R328, R331) and the reservations of a queue (R340). What leaves the headstock's section of the
state, or the operations in it, as it was is said once for each shared operation; then come how an operation is found
after one has been replaced, and what the row of a started command answers.
-/

namespace Sys2Proof.Machine

/-! ### Operations that leave the headstock's section as it was -/

/-- A fold keeps what each of its steps keeps. -/
theorem foldl_keeps {σ α β : Type} (g : σ → β) {f : σ → α → σ} (h : ∀ s x, g (f s x) = g s) (l : List α) (s : σ) :
    g (l.foldl f s) = g s := by
  induction l generalizing s with
  | nil => rfl
  | cons x r ih => exact (ih (f s x)).trans (h s x)

@[simp] theorem mergeHost_head (s : State) (fn : Nat) (h : HostReply) : (mergeHost s fn h).head = s.head := by
  cases h <;> rfl

@[simp] theorem raiseMsix_head (s : State) (fn v : Nat) : (raiseMsix s fn v).head = s.head := by
  unfold raiseMsix
  split <;> rfl

@[simp] theorem setDevEvent_head (s : State) (m : BitVec 4) : (setDevEvent s m).head = s.head := by
  simp only [setDevEvent]
  split
  · rfl
  · exact raiseMsix_head _ _ _

@[simp] theorem vlogAdd_head (s : State) (r : LogRec) : (vlogAdd s r).head = s.head := by
  simp only [vlogAdd]
  split
  · split
    · exact setDevEvent_head _ _
    · rfl
  · split
    · exact raiseMsix_head _ _ _
    · rfl

@[simp] theorem dropJobs_head (s : State) (q tag : Nat) : (dropJobs s q tag).head = s.head := rfl

@[simp] theorem countCorr_head (s : State) (hbm : Bool) (addr kind : Nat) : (countCorr s hbm addr kind).head = s.head :=
  rfl

@[simp] theorem countUncorr_head (s : State) (hbm : Bool) : (countUncorr s hbm).head = s.head := rfl

@[simp] theorem dropUpset_head (s : State) (u : Nat) : (dropUpset s u).head = s.head := rfl

@[simp] theorem poisonAt_head (s : State) (u : Nat) : (poisonAt s u).head = s.head := rfl

@[simp] theorem correctRow_head (s : State) (row : Nat) : (correctRow s row).1.head = s.head :=
  foldl_keeps State.head (f := fun s w => countCorr s false w 1) (fun _ _ => countCorr_head _ _ _ _) (softWords s row) s

/-- A guard's correction, count and poison touch the stores and the counters alone (R484 to R488). -/
@[simp] theorem guardUnit_head (s : State) (u : Nat) : (guardUnit s u).1.head = s.head := by
  simp only [guardUnit]
  split
  · split
    · exact countUncorr_head s true
    · split <;> simp
  · split <;> simp

@[simp] theorem guardUnits_head (s : State) (us : List Nat) : (guardUnits s us).1.head = s.head := by
  induction us generalizing s with
  | nil => rfl
  | cons u r ih =>
    have hu := guardUnit_head s u
    simp only [guardUnits]
    split
    · next h => rwa [h] at hu
    · next h => rw [h] at hu; exact (ih _).trans hu

@[simp] theorem countHbm_head (s : State) (write : Bool) (us : List Nat) : (countHbm s write us).head = s.head := by
  unfold countHbm
  split <;> rfl

@[simp] theorem hbmWrite_head (s : State) (a : Nat) (bytes : List Byte) : (hbmWrite s a bytes).1.head = s.head := by
  simp only [hbmWrite]
  split
  · rfl
  · split
    · next h => exact (congrArg (·.1.head) h).symm.trans (guardUnits_head s _)
    · next h =>
      refine Eq.trans ?_ ((congrArg (·.1.head) h).symm.trans (guardUnits_head s _))
      exact (countHbm_head _ _ _).trans (countHbm_head _ _ _)

@[simp] theorem ringWrite_head (s : State) (a : Nat) (bytes : List Byte) : (ringWrite s a bytes).head = s.head := by
  have hw := hbmWrite_head s a bytes
  unfold ringWrite
  split
  · next h => rwa [h] at hw
  · next h => rw [h] at hw; exact (vlogAdd_head _ _).trans hw

@[simp] theorem ringGuard_head (s : State) (q : Nat) : (ringGuard s q).1.head = s.head := by
  simp only [ringGuard]
  split
  · exact guardUnits_head s _
  · rfl

@[simp] theorem coreFault_head (s : State) : (coreFault s).head = s.head := by
  simp [coreFault]

@[simp] theorem useCore_head (s : State) (w : CoreWord) : (useCore s w).head = s.head := by
  unfold useCore
  split <;> simp

/-! ### The fabric's sending, which leaves the headstock's section as it was -/

@[simp] theorem sendFrame_head (s : State) (p : Nat) (flits : List Nat) : (sendFrame s p flits).head = s.head := rfl

@[simp] theorem sendFlits_head (s : State) (p n : Nat) (fs : List Nat) : (sendFlits s p n fs).head = s.head := by
  induction n generalizing s fs with
  | zero => rfl
  | succ n ih =>
    unfold sendFlits
    split
    · rfl
    · exact (ih _ _).trans (sendFrame_head s _ _)

@[simp] theorem returnCredit_head (s : State) (p : Nat) : (returnCredit s p).head = s.head := by
  simp only [returnCredit]
  split <;> rfl

@[simp] theorem freeBuffer_head (s : State) (k : Packet) : (freeBuffer s k).head = s.head := by
  simp only [freeBuffer]
  split
  · rfl
  · split
    · exact returnCredit_head _ _
    · rfl

@[simp] theorem freePassed_head (s : State) (k : Packet) : (freePassed s k).head = s.head := by
  unfold freePassed
  split
  · rfl
  · exact freeBuffer_head s _

@[simp] theorem putPacket_head (s : State) (p : Nat) (k : Packet) : (putPacket s p k).head = s.head := by
  simp [putPacket]

@[simp] theorem drainGo_head (xs : List (Option Nat × Packet)) (blocked : List (Nat × Nat × Bool))
    (kept : List (Option Nat × Packet)) (s : State) : (drainGo xs blocked kept s).head = s.head := by
  induction xs generalizing blocked kept s with
  | nil => rfl
  | cons x r ih =>
    simp only [drainGo]
    split
    · split
      · exact ih _ _ _
      · exact (ih _ _ _).trans (freePassed_head s _)
    · split
      · exact ih _ _ _
      · exact (ih _ _ _).trans (putPacket_head s _ _)

@[simp] theorem queueOut_head (s : State) (x : Option Nat × Packet) : (queueOut s x).head = s.head := by
  unfold queueOut
  split <;> rfl

@[simp] theorem sendPacket_head (s : State) (p : Packet) : (sendPacket s p).head = s.head :=
  (drainGo_head _ _ _ _).trans (queueOut_head s _)

@[simp] theorem returnReply_head (s : State) (q : Nat) (w : BitVec 128) (irq : Bool) :
    (returnReply s q w irq).head = s.head := by
  unfold returnReply
  split
  · exact sendPacket_head s _
  · rfl

/-! ### Signals and replies, which leave the operations in flight as they were -/

@[simp] theorem passHead_head_ops (s : State) (q : Nat) : (passHead s q).head.ops = s.head.ops := rfl

@[simp] theorem applySignals_head_ops (s : State) (o : Op) : (applySignals s o).head.ops = s.head.ops := by
  refine foldl_keeps (·.head.ops) (fun s i => ?_) _ s
  dsimp only
  split
  · rfl
  · split
    · exact congrArg Head.ops (coreFault_head s)
    · split <;> simp

@[simp] theorem writeReply_head_ops (s : State) (q : Nat) (r : BitVec 128) (irq : Bool) :
    (writeReply s q r irq).head.ops = s.head.ops := by
  simp only [writeReply]
  split
  · split <;> simp
  · split <;> simp

@[simp] theorem deferReply_head_ops (s : State) (q : Nat) (r : BitVec 128) (irq : Bool) :
    (deferReply s q r irq).head.ops = s.head.ops := rfl

@[simp] theorem postReply_head_ops (s : State) (q : Nat) (r : BitVec 128) (irq : Bool) :
    (postReply s q r irq).head.ops = s.head.ops := by
  have hg := congrArg Head.ops (ringGuard_head s q)
  unfold postReply
  split
  · split
    · next h => rw [h] at hg; exact (writeReply_head_ops _ _ _ _).trans hg
    · next h => rw [h] at hg; simpa using hg
  · exact deferReply_head_ops s q r irq

@[simp] theorem giveReply_head_ops (s : State) (q : Nat) (w : BitVec 128) (irq : Bool) :
    (giveReply s q w irq).head.ops = s.head.ops := by
  simp only [giveReply]
  split <;> simp

/-! ### Operations in flight -/

theorem findOp_key {s : State} {q tag : Nat} {o : Op} (h : findOp s q tag = some o) : o.q = q ∧ o.tag = tag := by
  simpa using List.find?_some h

theorem findOp_of_head_eq {s t : State} (h : t.head = s.head) (q tag : Nat) : findOp t q tag = findOp s q tag := by
  simp only [findOp, h]

/-- An operation found after one has been replaced: the replacement bears the key of the one it replaces. -/
theorem findOp_putOp (s : State) (o : Op) (q tag : Nat) :
    findOp (putOp s o) q tag = (findOp s q tag).map fun p => if p.q = o.q && p.tag = o.tag then o else p := by
  refine List.find?_map.trans (congrArg (Option.map _) (congrArg (List.find? · _) (funext fun p => ?_)))
  by_cases hp : p.q = o.q ∧ p.tag = o.tag
  · simp [hp]
  · simp only [Function.comp, Bool.and_eq_true, decide_eq_true_eq, hp, if_false]

theorem findOp_putOp_same {s : State} {q tag : Nat} {o p : Op} (h : findOp s q tag = some o) (hq : p.q = o.q)
    (htag : p.tag = o.tag) : findOp (putOp s p) q tag = some p := by
  simp [findOp_putOp, h, hq, htag]

theorem findOp_eq_none_of_tag_free {s : State} {q tag : Nat} (h : ∀ o ∈ s.head.ops, o.tag = tag → o.q ≠ q) :
    findOp s q tag = none :=
  List.find?_eq_none.mpr fun o ho hk => by
    obtain ⟨hq, htag⟩ : o.q = q ∧ o.tag = tag := by simpa using hk
    exact h o ho htag hq

/-! ### How a command ends (R331) -/

theorem okStatus_le_one (f : BitVec 8) : okStatus f ≤ 1 := by
  unfold okStatus
  split <;> decide

theorem findOp_endOk {s : State} {q tag : Nat} {o : Op} (h : findOp s q tag = some o) (f : BitVec 8) :
    findOp (endOk s o f) q tag
      = some { o with phase := .ended, flags := o.flags ||| f, status := okStatus (o.flags ||| f) } :=
  findOp_putOp_same h rfl rfl

/-- The operation that an error ends: its phase, its flags and its code, and the address the reply gives. -/
theorem findOp_endFail {s : State} {q tag : Nat} {o : Op} (h : findOp s q tag = some o) (f : BitVec 8) (e : Fail) :
    findOp (endFail s o f e) q tag
      = some { o with
          phase := .ended, flags := o.flags ||| f, status := e.code, faultAddr := e.addr, addrKind := replyKind e.kind
          remoteId := e.remote } := by
  have hd : findOp (dropJobs s o.q o.tag) q tag = some o :=
    (findOp_of_head_eq (dropJobs_head s _ _) q tag).trans h
  exact (findOp_of_head_eq (vlogAdd_head _ _) q tag).trans (findOp_putOp_same hd rfl rfl)

@[simp] theorem endOk_head_reservations (s : State) (o : Op) (f : BitVec 8) :
    (endOk s o f).head.reservations = s.head.reservations := rfl

@[simp] theorem endFail_head_reservations (s : State) (o : Op) (f : BitVec 8) (e : Fail) :
    (endFail s o f e).head.reservations = s.head.reservations := by
  simp [endFail]

/-! ### The row of a started command (R316, R330) -/

theorem runBody_of_started {code : Nat} {body : State → Op → HostReply → Res} {r : OpRef} {s : State} {o : Op}
    (h : Started s r code o) (hd : heldByD3 s o = false) : runBody code body r s = .next (ran body r s o) := by
  obtain ⟨hf, hp, hc⟩ := h
  simp [runBody, ran, hf, hp, hc, hd]

/-! ### A packet whose tag is in flight (R328) -/

theorem readThenTake_of_readPacket {s t : State} {q w : Nat} {h : HostReply} (take : State → Nat → State)
    (hr : readPacket s q h = (t, .ok w)) : readThenTake s q h take = .next (take (passHead t q) w) := by
  simp [readThenTake, hr]

theorem execPacketAccept_of_tag_in_flight {s t : State} {q w : Nat} {h : HostReply}
    (ha : mayAccept (heard s q h) q = true) (hrel : relayOf (heard s q h) q = none) (hr : readPacket (heard s q h) q h = (t, .ok w))
    (hf : (findOp (passHead t q) q (bits w 8 13)).isSome = true) :
    exec (.packetAccept q h) s = .next (refuseDup (passHead t q) q w) := by
  show execPacketAccept q h s = _
  simp only [heard] at ha hrel hr
  simp [execPacketAccept, ha, hrel, readThenTake_of_readPacket _ hr, hf]

/-- The state in which the reply of a refused packet is given: its entry is logged, and its signals are applied under
`sig_always` (R311). -/
def dupLogged (s : State) (q w : Nat) : State :=
  let o := mkOp q w
  let t := vlogAdd s (opLog s o (failPlain cBadDescriptor))
  if pSigAlways o then applySignals t o else t

theorem refuseDup_eq_giveReply (s : State) (q w : Nat) :
    refuseDup s q w
      = giveReply (dupLogged s q w) q (replyWord q (bits w 8 13) 1 0x11 0 (bits w 0 8) 0 0 0) (pIrq (mkOp q w)) := rfl

@[simp] theorem dupLogged_head_ops (s : State) (q w : Nat) : (dupLogged s q w).head.ops = s.head.ops := by
  simp only [dupLogged]
  split <;> simp

@[simp] theorem refuseDup_head_ops (s : State) (q w : Nat) : (refuseDup s q w).head.ops = s.head.ops := by
  simp [refuseDup_eq_giveReply]

/-! ### Reservations (R340) -/

theorem sumSizes_eq_sum (rs : List Reservation) : sumSizes rs = (rs.map (·.size)).sum := by
  simp [sumSizes, List.sum_eq_foldl, List.foldl_map]

/-- A key's limit on reserved rows or bytes (R338). -/
def reserveLimit (s : State) (bench : Bool) (key : Nat) : Nat :=
  if bench then (getLimits s key).bench else (getLimits s key).hbm * 0x20_0000

/-- What the reservations of a key sum to (R340). -/
def reserveUse (s : State) (bench : Bool) (key : Nat) : Nat := ((reservedBy s bench key).map (·.size)).sum

/-- Whether a reservation of `n` would take a key's use above its limit. -/
def overLimit (s : State) (bench : Bool) (n key : Nat) : Prop := reserveLimit s bench key < reserveUse s bench key + n

theorem overLimit_of_head_eq {s t : State} (h : t.head = s.head) (bench : Bool) (n key : Nat) :
    overLimit t bench n key ↔ overLimit s bench n key := by
  simp only [overLimit, reserveLimit, reserveUse, getLimits, reservedBy, h]

theorem opFunc_of_head_eq {s t : State} (h : t.head = s.head) (o : Op) : opFunc t o = opFunc s o := by
  simp only [opFunc, getQ, h]

/-- The state with one more reservation. -/
def withReservation (s : State) (x : Reservation) : State :=
  { s with head := { s.head with reservations := s.head.reservations ++ [x] } }

theorem reserveBody_of_over {s : State} {o : Op} {bench : Bool} (h : HostReply)
    (hl : overLimit s bench (quSize o) o.q ∨ overLimit s bench (quSize o) (64 + opFunc s o)) :
    reserveBody bench s o h = ⟨s, 0#8, some (failPlain cOverQuota)⟩ := by
  simp only [overLimit, reserveLimit, reserveUse, ← sumSizes_eq_sum] at hl
  simp only [reserveBody, Bool.or_eq_true, decide_eq_true_eq, hl, if_true]

theorem reserveBody_of_within {s : State} {o : Op} {bench : Bool} (h : HostReply)
    (hq : ¬ overLimit s bench (quSize o) o.q) (hf : ¬ overLimit s bench (quSize o) (64 + opFunc s o)) :
    reserveBody bench s o h = ⟨withReservation s ⟨o.q, opFunc s o, bench, quBase o, quSize o⟩, 0#8, none⟩ := by
  simp only [overLimit, reserveLimit, reserveUse, ← sumSizes_eq_sum] at hq hf
  simp only [reserveBody, Bool.or_eq_true, decide_eq_true_eq, hq, hf, or_self, if_false]
  rfl

/-- An `MG.QUOTA` writes no host memory, so that D3hot never holds it (R427). -/
theorem heldByD3_of_quota {s : State} {o : Op} (h : opCode o = 0x62) : heldByD3 s o = false := by
  simp [heldByD3, writesHost, h]

/-- The row of a reservation, by the kind of memory that is reserved. -/
def reserveRow (bench : Bool) (r : OpRef) : Instr := if bench then .reserveBench r else .reserveHbm r

theorem exec_reserveRow_of_started {r : OpRef} {s : State} {o : Op} {bench : Bool} (h : Started s r 0x62 o)
    (ho : quOp o = if bench then 1 else 0) :
    exec (reserveRow bench r) s = .next (ran (reserveBody bench) r s o) := by
  have hrow : exec (reserveRow bench r) s = runQuota (if bench then 1 else 0) (reserveBody bench) r s := by
    cases bench <;> rfl
  have ⟨hf, _, hc⟩ := h
  simp [hrow, runQuota, hf, ho, runBody_of_started h (heldByD3_of_quota hc)]

/-- A reservation above a limit leaves the command ended with 0x31, and the reservations as they were. -/
theorem ran_reserveBody_of_over {r : OpRef} {s : State} {o : Op} {bench : Bool}
    (hf : findOp s r.q r.tag = some o)
    (hl : overLimit s bench (quSize o) o.q ∨ overLimit s bench (quSize o) (64 + opFunc s o)) :
    ∃ u, findOp (ran (reserveBody bench) r s o) r.q r.tag = some u ∧ u.phase = .ended ∧ u.status = 0x31
      ∧ (ran (reserveBody bench) r s o).head.reservations = s.head.reservations := by
  have hm := mergeHost_head s (opFunc s o) r.host
  rw [← opFunc_of_head_eq hm o, ← overLimit_of_head_eq hm, ← overLimit_of_head_eq hm] at hl
  simp only [ran, reserveBody_of_over r.host hl, endWith]
  exact ⟨_, findOp_endFail ((findOp_of_head_eq hm _ _).trans hf) _ _, rfl, rfl, by simp⟩

/-- A reservation within both limits leaves the command ended without error, and is added. -/
theorem ran_reserveBody_of_within {r : OpRef} {s : State} {o : Op} {bench : Bool}
    (hf : findOp s r.q r.tag = some o) (hq : ¬ overLimit s bench (quSize o) o.q)
    (hfn : ¬ overLimit s bench (quSize o) (64 + opFunc s o)) :
    ∃ u, findOp (ran (reserveBody bench) r s o) r.q r.tag = some u ∧ u.phase = .ended ∧ u.status ≤ 1
      ∧ (ran (reserveBody bench) r s o).head.reservations
        = s.head.reservations ++ [⟨o.q, opFunc s o, bench, quBase o, quSize o⟩] := by
  have hm := mergeHost_head s (opFunc s o) r.host
  rw [← overLimit_of_head_eq hm] at hq
  rw [← opFunc_of_head_eq hm o, ← overLimit_of_head_eq hm] at hfn
  simp only [ran, reserveBody_of_within r.host hq hfn, endWith]
  exact ⟨_, findOp_endOk ((findOp_of_head_eq hm _ _).trans hf) _, rfl, okStatus_le_one _,
    by simp [withReservation, opFunc_of_head_eq hm]⟩

end Sys2Proof.Machine

open Sys2Proof.Machine

/-- Settles O8, by what replacing an operation leaves to be found. -/
theorem statusOfACommand : Obligations.StatusOfACommand := by
  unfold Obligations.StatusOfACommand
  intro s r o f hf
  exact ⟨⟨_, findOp_endOk hf f, rfl, rfl, rfl⟩, fun e => ⟨_, findOp_endFail hf f e, rfl, rfl, rfl⟩⟩

/-- Settles O11: the refusal is a log entry, signals and a reply, none of which touches an operation in flight. -/
theorem duplicateTagIsRefused : Obligations.DuplicateTagIsRefused := by
  unfold Obligations.DuplicateTagIsRefused
  constructor
  · intro s q tag hfree
    rw [findOp_eq_none_of_tag_free hfree]
    rfl
  · intro q h s t w u ha hrel hr hf
    exact ⟨execPacketAccept_of_tag_in_flight ha hrel hr hf, by simp,
      _, by simp, refuseDup_eq_giveReply (passHead t q) q w⟩

/-- Settles O33, by whether the queue's or the function's limit is passed. -/
theorem reservationRule : Obligations.ReservationRule := by
  unfold Obligations.ReservationRule
  intro r s o bench h ho c lim use f
  have ⟨hf, _, _⟩ := h
  have hrun := exec_reserveRow_of_started h ho
  constructor
  · intro hl
    obtain ⟨u, hu⟩ := ran_reserveBody_of_over (bench := bench) hf hl
    exact ⟨_, u, hrun, hu⟩
  · intro hq hfn
    obtain ⟨u, hu⟩ := ran_reserveBody_of_within (bench := bench) hf (not_lt.mpr hq) (not_lt.mpr hfn)
    exact ⟨_, u, hrun, hu⟩

end

section
/-!
The start of a command whose packet is refused (R313, R315, R347). First which core words are out of order: a use of one
leaves every word that is in order so, hence a packet whose words are all in order comes to its own checks (R491). Then
what a start answers once one of its checks has failed, and what the refusal leaves of the operation.
-/

namespace Sys2Proof.Machine

/-! ### Core words that are in order (R491) -/

@[simp] theorem mergeHost_mems_upsets (s : State) (fn : Nat) (h : HostReply) :
    (mergeHost s fn h).mems.upsets = s.mems.upsets := by
  cases h <;> rfl

theorem mem_coreBits {s : State} {w : CoreWord} {b : Nat} : b ∈ coreBits s w ↔ Upset.core w b ∈ s.mems.upsets := by
  simp only [coreBits, List.mem_dedup, List.mem_filterMap]
  constructor
  · rintro ⟨x, hx, hb⟩
    split at hb
    · split at hb <;> simp_all
    · contradiction
  · exact fun h => ⟨_, h, by simp⟩

/-- With no more latent errors, a word in order stays so. -/
theorem coreBad_eq_false_of_upsets_subset {s t : State} {w : CoreWord} (hsub : t.mems.upsets ⊆ s.mems.upsets)
    (hw : coreBad s w = false) : coreBad t w = false := by
  have hbits : coreBits t w ⊆ coreBits s w := fun _ hb => mem_coreBits.mpr (hsub (mem_coreBits.mp hb))
  have hlen := ((List.nodup_dedup _).subperm hbits).length_le
  simp only [coreBad, decide_eq_false_iff_not] at hw ⊢
  exact fun h => hw (h.trans_le hlen)

/-- A word that is in order is used at no cost, or with the one wrong bit corrected. -/
theorem useCore_upsets_subset {s : State} {w : CoreWord} (hw : coreBad s w = false) :
    (useCore s w).mems.upsets ⊆ s.mems.upsets := by
  unfold useCore
  split
  · exact List.Subset.refl _
  · exact List.filter_subset_self _
  · next hnil hone =>
    match hb : coreBits s w with
    | [] => exact absurd hb hnil
    | [b] => exact absurd hb (hone b)
    | _ :: _ :: _ => simp [coreBad, hb] at hw

/-- Core words that are all in order can be used one after another; the headstock's section stays as it was. -/
theorem useCores_of_in_order {ws : List CoreWord} {s : State} (h : ∀ w ∈ ws, coreBad s w = false) :
    ∃ t, useCores s ws = (t, none) ∧ t.head = s.head := by
  induction ws generalizing s with
  | nil => exact ⟨s, rfl, rfl⟩
  | cons w ws ih =>
    obtain ⟨hw, hws⟩ := List.forall_mem_cons.mp h
    obtain ⟨t, ht, hhead⟩ :=
      ih fun v hv => coreBad_eq_false_of_upsets_subset (useCore_upsets_subset hw) (hws v hv)
    exact ⟨t, by simp [useCores, hw, ht], hhead.trans (useCore_head s w)⟩

/-! ### A start whose check has failed (R315) -/

section
variable {x : Start} {e : Fail} (hx : x.res = .error e)
include hx

theorem Start.check_of_error (c : State → Op → Chk) : x.check c = x := by
  simp [Start.check, hx]

theorem Start.read_of_error (h : HostReply) (want : Op → Option (Bool × Nat × Nat)) (put : Op → Nat → Op) :
    x.read h want put = x := by
  simp [Start.read, hx]

theorem Start.core_of_error (ws : State → Op → List CoreWord) : x.core ws = x := by
  simp [Start.core, hx]

theorem Start.headers_of_error : x.headers = x := by
  simp [Start.headers, hx]

end

theorem Start.check_of_ok {x : Start} {o : Op} {e : Fail} {c : State → Op → Chk} (hx : x.res = .ok o)
    (hc : c x.s o = .error e) : x.check c = { x with res := .error e } := by
  simp [Start.check, hx, hc]

/-- The operation with what its start takes from the registers before any check: the seed (R575), the default grit
level (R270) and the default scale policy (R534). -/
def withDefaults (s : State) (o : Op) : Op :=
  { o with
    seed := (List.range 4).foldl (fun w i => w + (tget 0#32 s.glob.seed i).toNat * 2 ^ (32 * i)) 0
    grit := defaultGrit s, policy := defaultPolicy s }

/-! The operation is split before `rfl`, so that comparing the two records never evaluates the seed. -/

@[simp] theorem withDefaults_packet (s : State) (o : Op) : (withDefaults s o).packet = o.packet := by
  cases o
  rfl

@[simp] theorem withDefaults_q (s : State) (o : Op) : (withDefaults s o).q = o.q := by
  cases o
  rfl

@[simp] theorem withDefaults_tag (s : State) (o : Op) : (withDefaults s o).tag = o.tag := by
  cases o
  rfl

@[simp] theorem opCode_withDefaults (s : State) (o : Op) : opCode (withDefaults s o) = opCode o := by
  simp only [opCode, withDefaults_packet]

@[simp] theorem opFunc_withDefaults (s t : State) (o : Op) : opFunc t (withDefaults s o) = opFunc t o := by
  simp only [opFunc, withDefaults_q]

@[simp] theorem coreOfPacket_withDefaults (s : State) (o : Op) : coreOfPacket (withDefaults s o) = coreOfPacket o := by
  simp only [coreOfPacket, pNWait, pNSig, waitEntry, sigEntry, withDefaults_packet, withDefaults_q, withDefaults_tag]

/-- A packet whose core words are in order and whose own checks fail: nothing else is checked or read. -/
theorem startOp_of_checkPacket_error {s t : State} {o : Op} {e : Fail} (h : HostReply)
    (hcore : useCores s (coreOfPacket o) = (t, none)) (hchk : checkPacket t (withDefaults s o) = .error e) :
    startOp s o h = ⟨t, 0#8, .error e⟩ := by
  have hfirst : Start.core ⟨s, 0#8, .ok (withDefaults s o)⟩ (fun _ o => coreOfPacket o)
      = ⟨t, 0#8, .ok (withDefaults s o)⟩ := by
    simp only [Start.core, coreOfPacket_withDefaults, hcore]
  have hcheck := Start.check_of_ok (x := ⟨t, 0#8, .ok (withDefaults s o)⟩) rfl hchk
  simp only [withDefaults] at hfirst hcheck
  simp only [startOp, hfirst, hcheck, Start.check_of_error (e := e), Start.read_of_error (e := e),
    Start.headers_of_error (e := e), Start.core_of_error (e := e)]

/-! ### The opcodes that only function 0 may use (R347) -/

/-- An unassigned opcode, which is checked first, ends with the same code (R312). -/
theorem checkPacket_of_privileged {s : State} {o : Op} (hp : privileged (opCode o) = true) (hf : opFunc s o ≠ 0) :
    checkPacket s o = .error (failPlain cBadOpcode) := by
  have hpriv : need (!privileged (opCode o) || opFunc s o == 0) (failPlain cBadOpcode)
      = .error (failPlain cBadOpcode) := by
    simp [need, hp, hf]
  simp only [checkPacket, hpriv]
  cases assigned (opCode o)
  · rfl
  · rfl

/-- The start of a privileged packet of another function ends at the packet's own checks. -/
theorem startOp_of_privileged {s : State} {o : Op} (h : HostReply) (hcore : ∀ w ∈ coreOfPacket o, coreBad s w = false)
    (hp : privileged (opCode o) = true) (hf : opFunc s o ≠ 0) :
    ∃ t, startOp s o h = ⟨t, 0#8, .error (failPlain cBadOpcode)⟩ ∧ t.head = s.head := by
  obtain ⟨t, ht, hhead⟩ := useCores_of_in_order hcore
  have hchk : checkPacket t (withDefaults s o) = .error (failPlain cBadOpcode) :=
    checkPacket_of_privileged (by simpa using hp) (by simpa [opFunc_of_head_eq hhead] using hf)
  exact ⟨t, startOp_of_checkPacket_error h ht hchk, hhead⟩

/-! ### A refused start (R315, R331) -/

theorem execCommandStart_of_startOp_error {r : OpRef} {s t : State} {o : Op} {f : BitVec 8} {e : Fail}
    (hf : findOp s r.q r.tag = some o) (hm : mayStart (heard s r.q r.host) o r.host = true)
    (hx : startOp (takeService (heard s r.q r.host) r.q) o r.host = ⟨t, f, .error e⟩) :
    exec (.commandStart r) s = .next (refuseStart t o f e) := by
  have hf' : findOp (heard s r.q r.host) r.q r.tag = some o := (findOp_of_head_eq (mergeHost_head s _ _) _ _).trans hf
  show execCommandStart r s = _
  simp only [heard] at hf' hm hx
  simp [execCommandStart, hf', hm, hx]

@[simp] theorem tellPlace_head (s : State) (o : Op) : (tellPlace s o).head = s.head := by
  unfold tellPlace
  split
  · rfl
  · exact foldl_keeps State.head (fun s _ => setFab_head s _) _ s

/-- The operation that a start refuses has ended, with the error's code. -/
theorem findOp_refuseStart {s : State} {q tag : Nat} {o : Op} (h : findOp s q tag = some o) (f : BitVec 8) (e : Fail) :
    ∃ u, findOp (refuseStart s o f e) q tag = some u ∧ u.phase = .ended ∧ u.status = e.code :=
  ⟨_, findOp_endFail ((findOp_of_head_eq (tellPlace_head s o) q tag).trans h) f e, rfl, rfl⟩

end Sys2Proof.Machine

open Sys2Proof.Machine

/-- Settles O14: the packet's core words being in order, its privilege is the first check that can fail, with the code
that an unassigned opcode has too. -/
theorem privilegedOpcodeIsRefused : Obligations.PrivilegedOpcodeIsRefused := by
  unfold Obligations.PrivilegedOpcodeIsRefused
  intro r s o hf hm hcore hfunc hop
  let m := takeService (heard s r.q r.host) r.q
  have hp : privileged (opCode o) = true := by
    simpa only [privileged, Bool.or_eq_true, Bool.and_eq_true, beq_iff_eq, decide_eq_true_eq, or_assoc] using hop
  have hqueue : getQ m o.q = getQ s r.q := by
    simp [m, takeService, heard, getQ, (findOp_key hf).1]
  have hfn : opFunc m o ≠ 0 := by
    rw [opFunc, hqueue]
    exact fun h => hfunc (BitVec.eq_of_toNat_eq h)
  have hsub : m.mems.upsets ⊆ s.mems.upsets := by simp [m, takeService, heard]
  obtain ⟨t, hx, hhead⟩ :=
    startOp_of_privileged r.host (fun w hw => coreBad_eq_false_of_upsets_subset hsub (hcore w hw)) hp hfn
  have hfound : findOp t r.q r.tag = some o := by
    rw [← hf, findOp_of_head_eq hhead]
    simp [m, findOp, takeService, heard]
  obtain ⟨u, hu⟩ := findOp_refuseStart hfound 0#8 (failPlain cBadOpcode)
  exact ⟨_, u, execCommandStart_of_startOp_error hf hm hx, hu⟩

end

section
/-!
Memory requests that a function answers with Unsupported Request (R427, R443): what each form of a host access does
there, and that every row of a register's write is a write of BAR0, so that one rule speaks of them all.
-/

namespace Sys2Proof.Machine

variable {s : State} {rq : Req} {off n : Nat} {v : BitVec 64} {bytes : List Byte}

theorem unsupportedNow_of_disabled {fn : Nat} (h : (getFunc s fn).memSpace = false ∨ (getFunc s fn).d3hot = true) :
    unsupportedNow s fn = true := by
  obtain h | h := h <;> simp [unsupportedNow, h]

theorem hostRow_of_cfgUp (h : s.glob.cfgUp = true) (k : State) : hostRow s k = .next k := if_pos h

/-! ### The accesses of an unsupported request -/

theorem bar0ReadAt_of_unsupportedNow (h : unsupportedNow s rq.fn = true) :
    bar0ReadAt s rq off n = emit s (.unsupported rq.fn) := if_pos h

theorem bar0WriteAt_of_unsupportedNow (h : unsupportedNow s rq.fn = true) : bar0WriteAt s rq off n v = s := if_pos h

theorem execBar2Read_of_unsupportedNow (hup : s.glob.cfgUp = true) (h : unsupportedNow s rq.fn = true)
    (hin : inBar2 s rq.fn off n = true) : execBar2Read rq off n s = .next (emit s (.unsupported rq.fn)) := by
  simp [execBar2Read, hin, h, hostRow_of_cfgUp hup]

theorem execBar2Write_of_unsupportedNow (hup : s.glob.cfgUp = true) (h : unsupportedNow s rq.fn = true)
    (hin : inBar2 s rq.fn off bytes.length = true) : execBar2Write rq off bytes s = .next s := by
  simp [execBar2Write, hin, h, hostRow_of_cfgUp hup]

/-! ### Rows that write BAR0 (R565) -/

/-- In state `s` row `c` is a write of BAR0 by request `rq`. -/
def WritesBar0 (s : State) (rq : Req) (c : Instr) : Prop :=
  ∃ off n v, exec c s = hostRow s (bar0WriteAt s rq off n v)

theorem exec_of_writesBar0_of_unsupportedNow {c : Instr} (hc : WritesBar0 s rq c) (hup : s.glob.cfgUp = true)
    (h : unsupportedNow s rq.fn = true) : exec c s = .next s := by
  obtain ⟨off, n, v, hx⟩ := hc
  rw [hx, hostRow_of_cfgUp hup, bar0WriteAt_of_unsupportedNow h]

/-- The rows of the registers that have one of their own, with their operands. -/
def registerRows (rq : Req) (i k : Nat) (v : BitVec 64) (d : BitVec 16) (x : BitVec 32) (m : BitVec 4) (h : BitVec 8)
    (b : Bool) : List Instr :=
  [.sqTailDoorbell rq i d, .stqHeadDoorbell rq i d, .queueEnable rq i v, .queueReset rq i v, .queueResetForce rq i v,
    .queueResume rq i v, .tallyWrite rq i x, .keepRegisterWrite rq i x, .engReset rq m, .perfFreeze rq b, .perfClear rq,
    .vlogRelease rq h, .tripClear rq, .regionEntryWrite rq i k v, .bar2WinWrite rq i x, .qstatWrite rq i x]

theorem writesBar0_of_mem_registerRows {i k : Nat} {d : BitVec 16} {x : BitVec 32} {m : BitVec 4} {h : BitVec 8}
    {b : Bool} : ∀ c ∈ registerRows rq i k v d x m h b, WritesBar0 s rq c := by
  simp only [registerRows, List.forall_mem_cons]
  refine ⟨?_, ?_, ?_, ?_, ?_, ?_, ?_, ?_, ?_, ?_, ?_, ?_, ?_, ?_, ?_, ?_, List.forall_mem_nil _⟩
  all_goals exact ⟨_, _, _, rfl⟩

end Sys2Proof.Machine

open Sys2Proof.Machine

/-- Settles O44: a disabled function's request is an unsupported one, whose every read only answers so and whose every
write leaves the state as it was. -/
theorem disabledFunctionIsUnsupported : Obligations.DisabledFunctionIsUnsupported := by
  unfold Obligations.DisabledFunctionIsUnsupported
  intro s rq off size v bytes hup hdis
  have hun : unsupportedNow s rq.fn = true := unsupportedNow_of_disabled hdis
  have hread (off n : Nat) : hostRow s (bar0ReadAt s rq off n) = .next (emit s (.unsupported rq.fn)) := by
    rw [hostRow_of_cfgUp hup, bar0ReadAt_of_unsupportedNow hun]
  have hwrite {c} (hc : WritesBar0 s rq c) : exec c s = .next s :=
    exec_of_writesBar0_of_unsupportedNow hc hup hun
  exact ⟨hread _ _, hwrite ⟨_, _, _, rfl⟩, execBar2Read_of_unsupportedNow hup hun,
    execBar2Write_of_unsupportedNow hup hun, hread _ _,
    fun _ _ _ _ _ _ _ _ hc => hwrite (writesBar0_of_mem_registerRows _ hc)⟩

end

section
/-!
Reads of TIMESTAMP (R461): when a read of BAR0 is not refused, what it then answers, and how the two halves of TIMESTAMP
share a latch.
-/

namespace Sys2Proof.Machine

variable {s t : State} {rq : Req} {bar off off' n n' : Nat} {g : Reg} {bs : List Byte}

/-! ### Requests that no rule refuses (R444, R447) -/

/-- A stream that covers a request covers each part of it. -/
theorem ideAdmits_of_within (h : ideAdmits s rq bar off n = true) (hlo : off ≤ off') (hhi : off' + n' ≤ off + n) :
    ideAdmits s rq bar off' n' = true := by
  unfold ideAdmits at h ⊢
  cases hide : rq.ide with
  | none => simpa only [hide] using h
  | some i =>
    simp only [hide, Bool.or_eq_true, Bool.and_eq_true, List.any_eq_true, decide_eq_true_eq] at h ⊢
    exact h.imp_right fun ⟨hsec, r, hr, hbar, hstart, hend⟩ =>
      ⟨hsec, r, hr, hbar, hstart.trans hlo, hhi.trans hend⟩

theorem reaches_of_within (h : Reaches s rq bar off n) (hlo : off ≤ off') (hhi : off' + n' ≤ off + n) :
    Reaches s rq bar off' n' := by
  obtain ⟨hup, hready, hun, hpoison, hide, hups⟩ := h
  exact ⟨hup, hready, hun, hpoison, ideAdmits_of_within hide hlo hhi, hups⟩

/-- An aligned read of a register of the function's own, outside the region table. -/
theorem bar0Refused_read_eq_none (h : Reaches s rq 0 off n) (hown : Owns s rq g) (hn : n = 4 ∨ n = 8)
    (hal : off % n = 0) (hg : regAt rq.fn (off / 4 * 4) = some g) (hregion : ∀ l k w, g ≠ .region l k w) :
    bar0Refused s rq off n false = none := by
  obtain ⟨-, hready, -, -, hide, -⟩ := h
  have hsize : ¬(¬n = 4 ∧ ¬n = 8) := by omega
  have hmay : ¬(¬rq.fn = 0 ∧ g.ownBy s rq.fn = false) := by
    obtain hfn | hits := hown
    · simp [hfn]
    · simp [hits]
  -- `hregion` sends the match on the register to its last arm.
  simp [bar0Refused, hg, hready, hsize, hal, hmay, hide]

/-! ### What a read answers (R565, R566) -/

theorem bar0ReadAt_of_readReg (hun : unsupportedNow s rq.fn = false) (hfault : bar0Fault s rq off n false = none)
    (htouch : touchBar0 s rq off n false = s) (hg : regAt rq.fn (off / 4 * 4) = some g)
    (hread : ∀ next, readReg s g off n next = (bs, t)) : bar0ReadAt s rq off n = emit t (.completion rq.fn bs) := by
  simp [bar0ReadAt, hun, hfault, htouch, hg, hread]

/-! ### TIMESTAMP (R461) -/

@[simp] theorem regWord_timestamp (s : State) : regWord s .timestamp = s.glob.timestamp := by
  simp [regWord, regNat]

/-- The upper word of the counter, as the latch holds it. -/
def timestampHigh (s : State) : BitVec 32 := BitVec.ofNat 32 (s.glob.timestamp.toNat / 2 ^ 32)

theorem timestampHigh_toNat (s : State) : (timestampHigh s).toNat = s.glob.timestamp.toNat / 2 ^ 32 := by
  have := s.glob.timestamp.isLt
  rw [timestampHigh, BitVec.toNat_ofNat, Nat.mod_eq_of_lt (by omega)]

/-- The state once the latch holds the counter's upper word. -/
def latchTimestamp (s : State) : State := { s with glob := { s.glob with tsLatch := some (timestampHigh s) } }

theorem readReg_timestamp_whole (next : Option Reg) :
    readReg s .timestamp off 8 next = (leBytes 8 s.glob.timestamp.toNat, s) := by
  simp [readReg, Reg.narrow]

theorem readReg_timestamp_low (hoff : off % 8 = 0) (next : Option Reg) :
    readReg s .timestamp off 4 next = (leBytes 4 s.glob.timestamp.toNat, latchTimestamp s) := by
  simp [readReg, hoff, latchTimestamp, timestampHigh]

/-- With the latch set, the counter's own upper word no longer matters. -/
theorem readReg_timestamp_high {x : BitVec 32} (hoff : off % 8 ≠ 0) (hlatch : s.glob.tsLatch = some x)
    (next : Option Reg) : readReg s .timestamp off 4 next = (leBytes 4 x.toNat, s) := by
  simp [readReg, hoff, hlatch]

/-- No store stands behind TIMESTAMP, so that a read which is not refused answers and meets no error. -/
theorem hostRow_bar0ReadAt_timestamp (h : Reaches s rq 0 off n) (hfn : rq.fn = 0) (hn : n = 4 ∨ n = 8)
    (hal : off % n = 0) (hg : regAt 0 (off / 4 * 4) = some .timestamp)
    (hread : ∀ next, readReg s .timestamp off n next = (bs, t)) :
    hostRow s (bar0ReadAt s rq off n) = .next (emit t (.completion 0 bs)) := by
  have hg' : regAt rq.fn (off / 4 * 4) = some .timestamp := hfn ▸ hg
  have hrefused : bar0Refused s rq off n false = none := bar0Refused_read_eq_none h (.inl hfn) hn hal hg' nofun
  have hfault : bar0Fault s rq off n false = none := by simp [bar0Fault, hrefused, hg', storeFault]
  have htouch : touchBar0 s rq off n false = s := by simp [touchBar0, hrefused, hg', touchReg, Reg.queue]
  obtain ⟨hup, -, hun, -⟩ := h
  rw [hostRow_of_cfgUp hup, bar0ReadAt_of_readReg hun hfault htouch hg' hread, hfn]

end Sys2Proof.Machine

open Sys2Proof.Machine

/-- Settles O43: the read of the low word leaves the high word in the latch, from which the read of the high word is
answered whatever the counter has become by then. -/
theorem timestampLatch : Obligations.TimestampLatch := by
  unfold Obligations.TimestampLatch
  intro s rq hfn hwhole
  have hlow : Reaches s rq 0 0x1030 4 := reaches_of_within hwhole (by decide) (by decide)
  have hhigh : Reaches s rq 0 0x1034 4 := reaches_of_within hwhole (by decide) (by decide)
  refine ⟨hostRow_bar0ReadAt_timestamp hwhole hfn (.inr rfl) rfl rfl readReg_timestamp_whole,
    emit (latchTimestamp s) (.completion 0 (leBytes 4 s.glob.timestamp.toNat)), ?_, rfl, rfl, fun x => ?_⟩
  · exact hostRow_bar0ReadAt_timestamp hlow hfn (.inl rfl) rfl rfl (readReg_timestamp_low rfl)
  · rw [← timestampHigh_toNat]
    exact hostRow_bar0ReadAt_timestamp hhigh hfn (.inl rfl) rfl rfl (readReg_timestamp_high (by decide) rfl)

end

section
/-!
What every step keeps (R536, R558). The relation `Kept` is shown of each row of the table, from what its shared operations
keep; the four statements on every step are projections of it.
-/

namespace Sys2Proof.Machine

theorem keptOut_ite {s : State} {p : Prop} [Decidable p] {x y : Out} (hx : KeptOut s x) (hy : KeptOut s y) :
    KeptOut s (if p then x else y) := by
  split
  · exact hx
  · exact hy

/-- A row that is not enabled, or else answers a state that keeps what `s` has. -/
theorem keptOut_unless {s t : State} {p : Prop} [Decidable p] (h : Kept s t) : KeptOut s (if p then notNow else .next t) :=
  keptOut_ite keptOut_notNow h

theorem keptOut_when {s t : State} {p : Prop} [Decidable p] (h : Kept s t) : KeptOut s (if p then .next t else notNow) :=
  keptOut_ite h keptOut_notNow

section
variable (s : State)

/-! ### Queues and commands -/

theorem keptOut_execPacketAccept (q : Nat) (h : HostReply) : KeptOut s (execPacketAccept q h s) := by
  have hm : Kept s (mergeHost s (getQ s q).func.toNat h) := kept_mergeHost (.refl s)
  unfold execPacketAccept
  refine keptOut_ite keptOut_notNow ?_
  split
  · exact keptOut_readThenTake hm fun _ _ => kept_relaySend
  · exact keptOut_readThenTake hm fun _ _ ht => kept_ite (kept_refuseDup ht) (kept_enterOp ht)

theorem keptOut_execCommandStart (r : OpRef) : KeptOut s (execCommandStart r s) := by
  have hm : Kept s (mergeHost s (getQ s r.q).func.toNat r.host) := kept_mergeHost (.refl s)
  unfold execCommandStart
  dsimp only
  generalize mergeHost s (getQ s r.q).func.toNat r.host = m at hm
  split
  · exact keptOut_notNow
  · next o _ =>
    refine keptOut_ite keptOut_notNow ?_
    have hx := kept_startOp (o := o) (h := r.host) (kept_takeService (q := r.q) hm)
    generalize startOp (takeService m r.q) o r.host = x at hx
    have hgo (t : State) (p : Op) (f : BitVec 8) (ht : Kept s t) :
        Kept s (putOp (replaceColl t p).1 { (replaceColl t p).2 with phase := .started, flags := f }) :=
      kept_putOp (kept_replaceColl ht)
    split
    · exact kept_refuseStart hx
    · split
      · exact kept_refuseStart (kept_parityLeaves hx)
      · refine keptOut_ite (kept_refuseStart hx) (keptOut_ite ?_ (kept_noteStart (hgo _ _ _ hx)))
        split
        · next hacc => exact hgo _ _ _ (kept_streamAccept hx hacc)
        · exact kept_endFail hx

theorem keptOut_execCommandComplete (r : OpRef) : KeptOut s (execCommandComplete r s) := by
  unfold execCommandComplete
  split
  · next o _ =>
    have hf : Kept s (finishOp s o) := kept_finishOp (.refl s)
    exact keptOut_when (kept_ite hf (kept_delOp hf))
  · exact keptOut_notNow

theorem keptOut_execReplyWrite (q : Nat) : KeptOut s (execReplyWrite q s) := by
  unfold execReplyWrite
  dsimp only
  split
  · exact keptOut_notNow
  · have hw := fun w irq rest => kept_returnReply (q := q) (w := w) (irq := irq)
      (kept_writeReply (q := q) (r := w) (irq := irq)
        (kept_setQ (q := q) (v := { getQ s q with deferred := rest }) (.refl s)))
    exact keptOut_unless (kept_endReset (kept_ite (hw _ _ _) (kept_delOp (hw _ _ _))))

theorem keptOut_execSySignal (r : OpRef) : KeptOut s (execSySignal r s) := by
  unfold execSySignal
  split
  · exact keptOut_when (kept_endOk (kept_applySignals (.refl s)))
  · exact keptOut_notNow

/-! ### The fabric -/

theorem keptOut_execFrameReceive (port : Nat) (fec : Fec) (m : Nat) : KeptOut s (execFrameReceive port fec m s) := by
  have hc : Kept s (countFec s port fec) := kept_countFec (.refl s)
  exact keptOut_unless (kept_ite (kept_discardFrame hc) (kept_ite (kept_discardFrame hc) (kept_takeFrame hc)))

theorem keptOut_execLinkFlit (port flit : Nat) : KeptOut s (execLinkFlit port flit s) :=
  keptOut_unless (kept_drain (kept_ite (kept_replay (kept_setPort (.refl s))) (kept_setPort (.refl s))))

theorem keptOut_execReplayLimitRetrain (port : Nat) : KeptOut s (execReplayLimitRetrain port s) :=
  keptOut_when (kept_startTraining (kept_portDown (kept_setPort (.refl s))))

theorem keptOut_execLaneFailure (port : Nat) (w : BitVec 8) : KeptOut s (execLaneFailure port w s) := by
  refine keptOut_ite keptOut_notNow ?_
  split
  · exact kept_startTraining (.refl s)
  · exact kept_portDown (.refl s)

theorem keptOut_execPortTrainingComplete (port : Nat) (w : BitVec 8) : KeptOut s (execPortTrainingComplete port w s) := by
  refine keptOut_ite keptOut_notNow ?_
  split
  · exact kept_portDown (.refl s)
  · exact kept_emit (kept_sendFrame (kept_setPort (.refl s)))

theorem keptOut_execHelloFlit (port : Nat) (h : Hello) : KeptOut s (execHelloFlit port h s) := by
  refine keptOut_ite keptOut_notNow ?_
  have heard {p q : Prop} [Decidable p] [Decidable q] {g e n} :
      let u := if p then putGateway (hearEpoch s h.devId e) g else s
      Kept s (if q then sendRoute u n else u) :=
    have hu := kept_ite (kept_putGateway (kept_hearEpoch (.refl s))) (.refl s)
    kept_ite (kept_sendRoute hu) hu
  exact keptOut_ite (kept_leaveRoutes (kept_setPort heard))
    (keptOut_ite (kept_linkChange (kept_setPort heard)) (kept_setPort heard))

theorem keptOut_execRouteFlit (port : Nat) (n : RouteNews) : KeptOut s (execRouteFlit port n s) := by
  unfold execRouteFlit
  extract_lets v a others fresh wrong b c d _ e
  refine keptOut_ite keptOut_notNow ?_
  have ha : Kept s a := by
    unfold a
    split
    · exact kept_returnCredit (kept_setPort (.refl s))
    · exact .refl s
  clear_value a
  have hb : Kept s b := kept_fold _ ha fun _ _ => kept_putLink
  clear_value b
  have hc : Kept s c := kept_fold _ hb fun _ _ => kept_putGateway
  clear_value c
  have hd : Kept s d := kept_fold _ hc fun _ _ => kept_hearEpoch
  clear_value d
  have he : Kept s e := kept_ite (kept_sendRoute (kept_setFab hd)) hd
  exact kept_ite he (kept_sendRoute he)

theorem keptOut_execCablePull (port : Nat) : KeptOut s (execCablePull port s) := by
  refine keptOut_ite keptOut_notNow ?_
  have hs (v : Port) : Kept s (setPort s port v) := kept_setPort (.refl s)
  dsimp only
  split
  · exact hs _
  · exact hs _
  · exact kept_setPort (hs _)
  · exact kept_portDown (hs _)

theorem keptOut_execCableInsert (port : Nat) : KeptOut s (execCableInsert port s) :=
  keptOut_unless (kept_ite (kept_startTraining (kept_setPort (.refl s))) (kept_setPort (.refl s)))

theorem keptOut_execWritePacket (p : Packet) : KeptOut s (execWritePacket p s) :=
  keptOut_arrive (.refl s) fun _ h => keptOut_again h fun _ h => keptOut_unless (kept_answerTo (kept_remoteWrite h))

theorem keptOut_execReadPacket (p : Packet) : KeptOut s (execReadPacket p s) := by
  refine keptOut_arrive (.refl s) fun _ h => keptOut_again h fun u h => ?_
  have hr := kept_remoteRead (src := hSrc p.hdr) (i := hWin p.hdr) (off := hOff p.hdr) (len := hLen p.hdr)
    (t := readXfer p.hdr) h
  dsimp only
  split
  · next hx => exact kept_answerTo (hr.fst hx)
  · next hx => exact kept_sendPacket (hr.fst hx)

theorem keptOut_execDataPacket (p : Packet) : KeptOut s (execDataPacket p s) := by
  refine keptOut_arrive (.refl s) fun _ h => ?_
  split
  · exact h
  · next x _ =>
    have hd := kept_dropSent (x := x) h
    dsimp only
    split
    · exact hd
    · split
      · exact kept_pump (kept_addOpFlags (hd.same rfl rfl rfl rfl rfl rfl))
      · split
        · exact kept_settleXfer (kept_markFail (kept_landGet hd))
        · exact kept_settleXfer (kept_pump (kept_addOpFlags (kept_landGet hd)))

theorem keptOut_execRespPacket (p : Packet) : KeptOut s (execRespPacket p s) := by
  refine keptOut_arrive (.refl s) fun _ h => ?_
  split
  · exact h
  · next x _ =>
    have hd := kept_dropSent (x := x) h
    refine keptOut_ite (kept_pump hd) ?_
    split
    · exact keptOut_ite (kept_relaySetUp hd) (keptOut_ite (kept_pump (kept_relayAnswered hd))
        (keptOut_ite (kept_settleXfer (kept_pump (kept_addOpFlags hd))) (kept_settleXfer (kept_markFail hd))))
    · exact kept_pump (kept_relayAnswered hd)

theorem keptOut_execFeRelay (r : OpRef) : KeptOut s (execFeRelay r s) := by
  have hs := Kept.refl s
  unfold execFeRelay
  split
  · exact keptOut_notNow
  · refine keptOut_ite keptOut_notNow (keptOut_ite ?_ ?_)
    · exact keptOut_ite (kept_endFail hs) (keptOut_ite keptOut_notNow (keptOut_ite (kept_endFail hs)
        (keptOut_ite (kept_endFail hs) (keptOut_unless (kept_relayAsk hs)))))
    · split
      · exact kept_endOk hs
      · exact keptOut_ite keptOut_notNow (keptOut_ite (kept_endFail hs) (kept_relayStop hs))

theorem keptOut_execRelayPacket (p : Packet) : KeptOut s (execRelayPacket p s) :=
  keptOut_arrive (.refl s) fun _ h => keptOut_ite (keptOut_relayCommand h) <| keptOut_again h fun _ h =>
    keptOut_ite (kept_respond (kept_logRemote h)) (keptOut_unless (kept_respond (kept_modQ (kept_ringWrite h))))

theorem keptOut_execReplyPacket (p : Packet) : KeptOut s (execReplyPacket p s) := by
  refine keptOut_arrive (.refl s) fun _ h => ?_
  dsimp only
  split
  · exact h
  · exact keptOut_ite h (keptOut_ite (kept_sendControl h) (kept_giveReply (kept_setRelay h)))

theorem keptOut_execRouteRecompute : KeptOut s (execRouteRecompute s) :=
  keptOut_unless (kept_pump (kept_drain (kept_endToward (kept_endToward (kept_setFab (kept_setFab (.refl s)))))))

theorem keptOut_execRetransmitTimeout (dst txn : Nat) : KeptOut s (execRetransmitTimeout dst txn s) := by
  unfold execRetransmitTimeout
  split
  · exact keptOut_notNow
  · exact keptOut_ite keptOut_notNow
      (keptOut_ite (kept_pump (kept_putSent (.refl s))) (kept_pump (kept_giveUp (.refl s))))

theorem keptOut_execCollPacket (p : Packet) : KeptOut s (execCollPacket p s) :=
  keptOut_arrive (.refl s) fun _ h => keptOut_again h fun _ h =>
    keptOut_unless (kept_pump (kept_respond (kept_collDeliver (kept_charge h))))

/-! ### The spindle's own steps -/

theorem keptOut_execSpindleStep (a : StepArgs) : KeptOut s (execSpindleStep a s) := by
  unfold execSpindleStep
  split
  · exact keptOut_notNow
  · dsimp only
    split
    · exact keptOut_notNow
    · refine keptOut_ite keptOut_notNow ?_
      split
      · exact kept_residueEnd (.refl s)
      · split
        · exact keptOut_notNow
        · exact kept_setSpindle (kept_countStep (kept_settleRail (.refl s)))

theorem keptOut_execChuckSwap (i : Nat) : KeptOut s (execChuckSwap i s) := by
  unfold execChuckSwap
  split
  · exact keptOut_notNow
  · dsimp only
    split
    · exact keptOut_notNow
    · refine keptOut_ite keptOut_notNow ?_
      split
      · next hready =>
        have hg := fun w c j => kept_guardReload (w := w) (c := c) (j := j) (kept_readyMatch (.refl s) hready)
        split
        · next hx => exact kept_endFail ((hg _ _ _).fst hx)
        · next hx =>
          split
          · exact keptOut_notNow
          · exact kept_addOpFlags (kept_setSpindle
              (kept_takeTails (kept_freshSet (kept_perfFree ((hg _ _ _).fst hx)))))
      · exact keptOut_notNow

theorem keptOut_execGroupRescale (a : RescaleArgs) : KeptOut s (execGroupRescale a s) := by
  unfold execGroupRescale
  split
  · exact keptOut_notNow
  · dsimp only
    split
    · exact keptOut_notNow
    · split
      · exact keptOut_notNow
      · split
        · refine keptOut_ite (kept_residueEnd (.refl s)) ?_
          split
          · next hx => exact kept_accEnd ((kept_guardAcc (.refl s)).fst hx)
          · next hx => exact kept_addOpFlags (kept_perfFree (kept_setSpindle ((kept_guardAcc (.refl s)).fst hx)))
        · exact keptOut_notNow

theorem keptOut_execTileDrain (i set : Nat) : KeptOut s (execTileDrain i set s) := by
  unfold execTileDrain
  split
  · exact keptOut_notNow
  · extract_lets j
    split
    · exact keptOut_notNow
    · refine keptOut_ite keptOut_notNow ?_
      split
      · next hx => exact kept_accEnd ((kept_guardAcc (.refl s)).fst hx)
      · next hx =>
        have hg := (kept_guardAcc (.refl s)).fst hx
        extract_lets hs x sp
        have hx : Kept s x.s := by
          unfold x
          split
          · exact kept_Acc_res (kept_fold_s _ hg fun _ _ => kept_drainWrite)
          · exact kept_spillPass hg
        split
        · exact kept_endFail hx
        · exact kept_addOpFlags (kept_setSpindle hx)

/-! ### Firmware, snapshots and power -/

theorem keptOut_execMgFwStage (r : OpRef) : KeptOut s (execMgFwStage r s) := by
  unfold execMgFwStage
  split
  · exact keptOut_ite (keptOut_runBody (.refl s) fun _ _ _ => kept_stageBody) keptOut_notNow
  · exact keptOut_notNow

theorem keptOut_execMgFwActivate (r : OpRef) (b : Bool) : KeptOut s (execMgFwActivate r b s) := by
  refine keptOut_ite keptOut_notNow ?_
  split
  · exact keptOut_when (kept_activateRow (.refl s))
  · exact kept_activateRow (.refl s)

theorem keptOut_execRecoveryStage (k : Nat) (d : List Byte) : KeptOut s (execRecoveryStage k d s) := by
  refine keptOut_recoveryRow (.refl s) ?_
  split
  · next ht => exact kept_emit (kept_stageBlock (.refl s) ht)
  · exact kept_emit (.refl s)

theorem keptOut_execRecoveryActivate (b : Bool) : KeptOut s (execRecoveryActivate b s) := by
  refine keptOut_recoveryRow (.refl s) ?_
  split
  · next hx => exact kept_emit ((kept_activateBoth (.refl s)).fst hx)
  · next hx => exact kept_emit ((kept_activateBoth (.refl s)).fst hx)

theorem keptOut_execSnapshotSave (r : OpRef) : KeptOut s (execSnapshotSave r s) := by
  unfold execSnapshotSave
  split
  · exact keptOut_notNow
  · refine keptOut_ite keptOut_notNow ?_
    split
    · exact keptOut_saveOn (.refl s)
    · exact keptOut_ite (keptOut_beginSave (.refl s)) (keptOut_runBody (.refl s) fun _ _ _ => kept_saveBody)
    · exact keptOut_notNow

theorem keptOut_execSnapshotRestore (r : OpRef) : KeptOut s (execSnapshotRestore r s) := by
  unfold execSnapshotRestore
  split
  · exact keptOut_notNow
  · refine keptOut_ite keptOut_notNow ?_
    split
    · exact keptOut_beginRestore (.refl s)
    · exact keptOut_restoreOn (.refl s)
    · exact kept_localPart (.refl s)
    · exact kept_localPart (.refl s)
    · exact keptOut_notNow

theorem keptOut_execMgPowerDomain (r : OpRef) : KeptOut s (execMgPowerDomain r s) := by
  unfold execMgPowerDomain
  split
  · exact keptOut_notNow
  · refine keptOut_ite keptOut_notNow ?_
    dsimp only
    split
    · exact keptOut_notNow
    · exact keptOut_ite (kept_endOk (.refl s))
        (keptOut_ite (kept_endFail (.refl s)) (kept_beginSwitch (kept_putOp (.refl s))))

theorem keptOut_execDomainDrainDone (d : Nat) : KeptOut s (execDomainDrainDone d s) := by
  unfold execDomainDrainDone
  split
  · exact keptOut_when (kept_endSwitch (kept_enterPd (.refl s)))
  · exact keptOut_notNow

theorem keptOut_execDomainDrainTimeout (d a : Nat) : KeptOut s (execDomainDrainTimeout d a s) := by
  unfold execDomainDrainTimeout
  split
  · have hs : Kept s (setPd s d (.settled .on)) := kept_setPd (.refl s)
    exact keptOut_ite (kept_endSwitch (kept_ite (kept_linkChange (kept_setPort hs)) hs)) (kept_endSwitch hs)
  · exact keptOut_notNow

theorem keptOut_execDomainOnComplete (d : Nat) : KeptOut s (execDomainOnComplete d s) := by
  unfold execDomainOnComplete
  split
  · exact keptOut_unless (kept_endSwitch (kept_enterPd (.refl s)))
  · exact keptOut_notNow

/-! ### The host -/

theorem keptOut_execBar2Read (rq : Req) (off n : Nat) : KeptOut s (execBar2Read rq off n s) :=
  keptOut_ite keptOut_notNow (keptOut_hostRow (kept_ite (kept_emit (.refl s)) (kept_bar2ReadAt (.refl s))))

theorem keptOut_execBar2Write (rq : Req) (off : Nat) (bs : List Byte) : KeptOut s (execBar2Write rq off bs s) :=
  keptOut_ite keptOut_notNow (keptOut_hostRow (kept_ite (.refl s) (kept_bar2WriteAt (.refl s))))

theorem keptOut_execVfEnableClear : KeptOut s (execVfEnableClear s) := by
  have hv : Kept s (vfs.foldl vfReset s) := kept_fold vfs (.refl s) fun _ _ => kept_vfReset
  unfold execVfEnableClear
  generalize vfs.foldl vfReset s = t at hv
  exact keptOut_hostRow (hv.same rfl rfl rfl rfl rfl rfl)

theorem keptOut_execGetCertificate (m : SpdmReq) (slot : Nat) : KeptOut s (execGetCertificate m slot s) :=
  keptOut_spdmRow (.refl s) fun _ h => kept_ite (kept_spdmRefuse h) (kept_ite (kept_spdmRefuse h) (kept_emit h))

theorem keptOut_execGetMeasurements (m : SpdmReq) (b : Bool) : KeptOut s (execGetMeasurements m b s) :=
  keptOut_spdmRow (.refl s) fun _ h =>
    kept_ite (kept_spdmRefuse h) (kept_ite (kept_spdmRefuse h) (kept_ite (kept_spdmSigned h) (kept_emit h)))

theorem keptOut_execKeyExchange (m : SpdmReq) (slot : Nat) : KeptOut s (execKeyExchange m slot s) :=
  keptOut_spdmRow (.refl s) fun _ h => kept_ite (kept_setSpdm (kept_spdmSignedPlain h)) (kept_spdmSignedPlain h)

theorem keptOut_execFinish (m : SpdmReq) (n : Nat) : KeptOut s (execFinish m n s) :=
  keptOut_spdmRow (.refl s) fun _ h => kept_ite (kept_emit (kept_nextFree (kept_setSpdm h))) (kept_spdmRefuse h)

theorem keptOut_execEndSession (m : SpdmReq) : KeptOut s (execEndSession m s) :=
  keptOut_spdmRow (.refl s) fun _ h => kept_ite (kept_setSpdm (kept_inSession h)) (kept_inSession h)

theorem keptOut_execGetPqSig (m : SpdmReq) : KeptOut s (execGetPqSig m s) := by
  unfold execGetPqSig
  extract_lets p v
  refine keptOut_spdmRow (.refl s) fun _ h => kept_ite (kept_spdmRefuse h) ?_
  split
  · exact kept_spdmRefuse h
  · exact kept_emit h

theorem keptOut_execIdeKm (m : SpdmReq) (n : Nat) : KeptOut s (execIdeKm m n s) := by
  refine keptOut_spdmRow (.refl s) fun _ h => kept_ite (kept_spdmRefuse h) (kept_ite (kept_spdmRefuse h) ?_)
  split
  · exact kept_spdmRefuse h
  · exact kept_emit (kept_nextFree (h.same rfl rfl rfl rfl rfl rfl))

/-! ### Starts and stops -/

theorem keptOut_execPerstDeassert (st : StartIn) : KeptOut s (execPerstDeassert st s) := by
  have hp : Kept s { s with pins := { s.pins with perstN := true } } := (Kept.refl s).same rfl rfl rfl rfl rfl rfl
  exact keptOut_unless (kept_ite (kept_startUp hp) (kept_warmStart hp))

theorem keptOut_execPerstAssert : KeptOut s (execPerstAssert s) := by
  have hp : Kept s { s with pins := { s.pins with perstN := false } } := (Kept.refl s).same rfl rfl rfl rfl rfl rfl
  exact keptOut_ite keptOut_notNow (keptOut_ite hp (kept_stopAll (hp.same rfl rfl rfl rfl rfl rfl)))

theorem keptOut_execPwrEnFall : KeptOut s (execPwrEnFall s) :=
  keptOut_unless ((kept_ite (kept_powerLoss (.refl s)) (.refl s)).same rfl rfl rfl rfl rfl rfl)

theorem keptOut_execPowerShutdown (c : ShutdownCause) : KeptOut s (execPowerShutdown c s) :=
  keptOut_unless ((kept_powerLoss (.refl s)).same rfl rfl rfl rfl rfl rfl)

theorem keptOut_execWatchdogExpiry : KeptOut s (execWatchdogExpiry s) := by
  have hr : Kept s (restoreImage (stopAll s) true) := kept_restoreImage (kept_stopAll (.refl s))
  unfold execWatchdogExpiry
  generalize restoreImage (stopAll s) true = t at hr
  exact keptOut_unless (kept_setFirm hr rfl rfl rfl)

theorem keptOut_execPadSelftestDone (st : StartIn) : KeptOut s (execPadSelftestDone st s) :=
  keptOut_unless ((kept_selfTest (.refl s)).same rfl rfl rfl rfl rfl rfl)

/-! ### Every row -/

/-- Every row of the table keeps what the state has. -/
theorem keptOut_exec (c : Instr) : KeptOut s (exec c s) := by
  have hs := Kept.refl s
  cases c with
  | mmDense r => exact keptOut_runArray hs fun _ _ _ => kept_productBody
  | mmSparse24 r => exact keptOut_runArray hs fun _ _ _ => kept_productBody
  | mmCsr r => exact keptOut_runArray hs fun _ _ _ => kept_productBody
  | mmRough r => exact keptOut_runArray hs fun _ _ _ => kept_roughBody
  | mmFinish r => exact keptOut_runArray hs fun _ _ _ => kept_finishBody
  | mmAccRead r => exact keptOut_runArray hs fun _ _ _ => kept_accReadBody
  | mmAccWrite r => exact keptOut_runArray hs fun _ _ _ => kept_accWriteBody
  | mmDrain r => exact keptOut_runArray hs fun _ _ _ => kept_drainBody
  | veElementwise r => exact keptOut_runBody hs fun _ _ _ => kept_elementwiseBody
  | veReduce r => exact keptOut_runBody hs fun _ _ _ => kept_reduceBody
  | veSoftmax r => exact keptOut_runBody hs fun _ _ _ => kept_softmaxBody
  | veSoftmaxBwd r => exact keptOut_runBody hs fun _ _ _ => kept_softmaxBwdBody
  | veNorm r => exact keptOut_runBody hs fun _ _ _ => kept_normBody
  | veNormBwd r => exact keptOut_runBody hs fun _ _ _ => kept_normBwdBody
  | veSumPartials r => exact keptOut_runBody hs fun _ _ _ => kept_sumPartialsBody
  | veKnotFix r => exact keptOut_runBody hs fun _ _ _ => kept_knotFixBody
  | veAmax r => exact keptOut_runBody hs fun _ _ _ => kept_amaxBody
  | veQuantize r => exact keptOut_runBody hs fun _ _ _ => kept_quantizeBody
  | veTopkMerge r => exact keptOut_runBody hs fun _ _ _ => kept_topkMergeBody
  | veOptStep r => exact keptOut_runBody hs fun _ _ _ => kept_optStepBody
  | ceCopy r => exact keptOut_runBody hs fun _ _ _ => kept_copyBody
  | copyCompressPair24 r => exact keptOut_runForm hs fun _ _ _ => kept_pair24Body
  | copyCompressRows r => exact keptOut_runForm hs fun _ _ _ => kept_rowsBody
  | copyCompressRoute r => exact keptOut_runForm hs fun _ _ _ => kept_routeBody
  | copyCompressActive r => exact keptOut_runForm hs fun _ _ _ => kept_activeBody
  | ceTranspose r => exact keptOut_runBody hs fun _ _ _ => kept_transposeBody
  | ceGather r => exact keptOut_runBody hs fun _ _ _ => kept_moveLines
  | ceScatter r => exact keptOut_runBody hs fun _ _ _ => kept_moveLines
  | ceFill r => exact keptOut_runBody hs fun _ _ _ => kept_fillBody
  | fePut r => exact keptOut_beginXfer hs
  | feGet r => exact keptOut_beginXfer hs
  | feAllreduce r => exact keptOut_runColl hs fun _ _ => kept_goAllreduce
  | alltoallDispatch r => exact keptOut_runColl hs fun _ _ => kept_goDispatch
  | alltoallCombine r => exact keptOut_runColl hs fun _ _ => kept_goCombine
  | feWindowOpen r => exact keptOut_runBody hs fun _ _ _ => kept_windowOpenBody
  | feWindowClose r => exact keptOut_runBody hs fun _ _ _ => kept_windowCloseBody
  | feRelay r => exact keptOut_execFeRelay s r
  | syWait r => exact keptOut_runBody hs fun _ _ _ => kept_onlyEnds
  | sySignal r => exact keptOut_execSySignal s r
  | syFence r => exact keptOut_runBody hs fun _ _ _ => kept_onlyEnds
  | syPodBarrier r => exact keptOut_runColl hs fun _ _ => kept_goBarrier
  | mgQuery r => exact keptOut_runBody hs fun _ _ _ => kept_queryBody
  | mgPowerDomain r => exact keptOut_execMgPowerDomain s r
  | reserveHbm r => exact keptOut_runQuota hs fun _ _ _ => kept_reserveBody
  | reserveBench r => exact keptOut_runQuota hs fun _ _ _ => kept_reserveBody
  | freeHbm r => exact keptOut_runQuota hs fun _ _ _ => kept_freeBody
  | freeBench r => exact keptOut_runQuota hs fun _ _ _ => kept_freeBody
  | limitQueue r => exact keptOut_runQuota hs fun _ _ _ => kept_limitBody
  | limitFunc r => exact keptOut_runQuota hs fun _ _ _ => kept_limitBody
  | tallyRange r => exact keptOut_runQuota hs fun _ _ _ => kept_tallyRangeBody
  | mgPowerCap r => exact keptOut_runBody hs fun _ _ _ => kept_powerCapBody
  | snapshotSave r => exact keptOut_execSnapshotSave s r
  | snapshotRestore r => exact keptOut_execSnapshotRestore s r
  | mgStreamBind r => exact keptOut_runBody hs fun _ _ _ => kept_onlyEnds
  | mgPatternLoad r => exact keptOut_runBody hs fun _ _ _ => kept_patternBody
  | mgKeepWrite r => exact keptOut_runBody hs fun _ _ _ => kept_keepBody
  | mgFwStage r => exact keptOut_execMgFwStage s r
  | mgFwActivate r readBack => exact keptOut_execMgFwActivate s r readBack
  | mgFwConfirm r => exact keptOut_runBody hs fun _ _ _ => kept_fwConfirmBody
  | fenceUnit r => exact keptOut_runFence hs fun _ _ _ => kept_fenceBody
  | unfenceUnit r pass => exact keptOut_runFence hs fun _ _ _ => kept_unfenceBody
  | packetAccept q host => exact keptOut_execPacketAccept s q host
  | commandStart r => exact keptOut_execCommandStart s r
  | commandComplete r => exact keptOut_execCommandComplete s r
  | replyWrite q => exact keptOut_execReplyWrite s q
  | sqTailDoorbell rq q value => exact keptOut_hostRow (kept_bar0WriteAt hs)
  | stqHeadDoorbell rq q value => exact keptOut_hostRow (kept_bar0WriteAt hs)
  | queueEnable rq q value => exact keptOut_hostRow (kept_bar0WriteAt hs)
  | queueReset rq q value => exact keptOut_hostRow (kept_bar0WriteAt hs)
  | queueResetForce rq q value => exact keptOut_hostRow (kept_bar0WriteAt hs)
  | queueResume rq q value => exact keptOut_hostRow (kept_bar0WriteAt hs)
  | tallyWrite rq idx value => exact keptOut_hostRow (kept_bar0WriteAt hs)
  | keepRegisterWrite rq idx value => exact keptOut_pfWrite hs
  | engReset rq mask => exact keptOut_pfWrite hs
  | engineResetDone cls => exact keptOut_when (hs.same rfl rfl rfl rfl rfl rfl)
  | perfFreeze rq freeze => exact keptOut_pfWrite hs
  | perfClear rq => exact keptOut_pfWrite hs
  | vlogRelease rq head => exact keptOut_pfWrite hs
  | tripClear rq => exact keptOut_pfWrite hs
  | regionEntryWrite rq lathe k value => exact keptOut_pfWrite hs
  | bar2WinWrite rq f base => exact keptOut_pfWrite hs
  | qstatWrite rq q value => exact keptOut_hostRow (kept_bar0WriteAt hs)
  | timestampLatchRead rq => exact keptOut_hostRow (kept_bar0ReadAt hs)
  | registerWrite rq offset size value => exact keptOut_hostRow (kept_bar0WriteAt hs)
  | bar2Read rq offset len => exact keptOut_execBar2Read s rq offset len
  | bar2Write rq offset bytes => exact keptOut_execBar2Write s rq offset bytes
  | vfFunctionLevelReset f => exact keptOut_ite keptOut_notNow (keptOut_hostRow (kept_vfReset hs))
  | pfFunctionLevelReset => exact keptOut_hostRow (kept_pfReset hs)
  | vfEnableClear => exact keptOut_execVfEnableClear s
  | d3hotEntry f => exact keptOut_ite keptOut_notNow (keptOut_hostRow (kept_setFunc hs))
  | d0Return f => exact keptOut_ite keptOut_notNow (keptOut_hostRow (kept_flushMsix (kept_setFunc hs)))
  | busMasterEnableChange f on => exact keptOut_ite keptOut_notNow (keptOut_hostRow (kept_flushMsix (kept_setFunc hs)))
  | bar2Resize f log2GiB => exact keptOut_ite keptOut_notNow (keptOut_hostRow (kept_setFunc hs))
  | ideStreamExit stream => exact keptOut_unless (hs.same rfl rfl rfl rfl rfl rfl)
  | ideKm m stream => exact keptOut_execIdeKm s m stream
  | doeDiscovery index => exact keptOut_hostRow (kept_emit hs)
  | getVersion m => exact keptOut_spdmRow hs fun _ => kept_spdmFixed
  | getCapabilities m => exact keptOut_spdmRow hs fun _ h => kept_spdmFixed (kept_nextFree h)
  | negotiateAlgorithms m => exact keptOut_spdmRow hs fun _ => kept_spdmFixed
  | getDigests m => exact keptOut_spdmRow hs fun _ => kept_spdmPlain
  | getCertificate m slot => exact keptOut_execGetCertificate s m slot
  | challenge m slot => exact keptOut_spdmRow hs fun _ => kept_spdmSignedPlain
  | getMeasurements m signed => exact keptOut_execGetMeasurements s m signed
  | keyExchange m slot => exact keptOut_execKeyExchange s m slot
  | finish m session => exact keptOut_execFinish s m session
  | heartbeat m => exact keptOut_spdmRow hs fun _ => kept_inSession
  | keyUpdate m => exact keptOut_spdmRow hs fun _ => kept_inSession
  | endSession m => exact keptOut_execEndSession s m
  | chunkSend m => exact keptOut_spdmRow hs fun _ => kept_spdmPlain
  | chunkGet m => exact keptOut_spdmRow hs fun _ => kept_spdmPlain
  | getPqSig m => exact keptOut_execGetPqSig s m
  | recoveryStage block data => exact keptOut_execRecoveryStage s block data
  | recoveryActivate readBack => exact keptOut_execRecoveryActivate s readBack
  | setdasa addr => exact keptOut_takeAddr hs
  | entdaa addr => exact keptOut_takeAddr hs
  | readTelemetry => exact keptOut_mctpRow (kept_emit hs)
  | readId => exact keptOut_mctpRow (kept_emit hs)
  | identify => exact keptOut_mctpRow (kept_emit (kept_startIdentify hs))
  | powerOn vinDv slotId => exact keptOut_unless (hs.same rfl rfl rfl rfl rfl rfl)
  | perstDeassert st => exact keptOut_execPerstDeassert s st
  | perstAssert => exact keptOut_execPerstAssert s
  | hotReset st => exact keptOut_restart hs
  | pcieLinkLoss st => exact keptOut_restart hs
  | pwrEnFall => exact keptOut_execPwrEnFall s
  | powerShutdown cause => exact keptOut_execPowerShutdown s cause
  | padIdentifyTouch => exact keptOut_padRow hs (kept_startIdentify hs)
  | padHold3s => exact keptOut_padRow hs (kept_emit hs)
  | padQuiesceRelease => exact keptOut_padRow hs (kept_quiesceAll hs)
  | padSelftestRequest => exact keptOut_padRow hs (kept_askTest hs)
  | padSelftestDone st => exact keptOut_execPadSelftestDone s st
  | identifyExpiry => exact keptOut_unless (hs.same rfl rfl rfl rfl rfl rfl)
  | frameReceive port fec message => exact keptOut_execFrameReceive s port fec message
  | linkFlit port flit => exact keptOut_execLinkFlit s port flit
  | replayLimitRetrain port => exact keptOut_execReplayLimitRetrain s port
  | helloFlit port h => exact keptOut_execHelloFlit s port h
  | routeFlit port news => exact keptOut_execRouteFlit s port news
  | routeRecompute => exact keptOut_execRouteRecompute s
  | writePacket p => exact keptOut_execWritePacket s p
  | readPacket p => exact keptOut_execReadPacket s p
  | dataPacket p => exact keptOut_execDataPacket s p
  | respPacket p => exact keptOut_execRespPacket s p
  | collPacket p => exact keptOut_execCollPacket s p
  | relayPacket p => exact keptOut_execRelayPacket s p
  | replyPacket p => exact keptOut_execReplyPacket s p
  | retransmitTimeout dst txn => exact keptOut_execRetransmitTimeout s dst txn
  | laneFailure port whole => exact keptOut_execLaneFailure s port whole
  | cablePull port => exact keptOut_execCablePull s port
  | cableInsert port => exact keptOut_execCableInsert s port
  | portQuiesced port => exact keptOut_when (kept_setPort hs)
  | portRejoinTimer port => exact keptOut_when (kept_startTraining hs)
  | fabricWindowTick => exact kept_pump (kept_setFab hs)
  | bridgeCrcFail => exact keptOut_unless (kept_setFab hs)
  | bridgeRetrain => exact keptOut_unless (kept_setFab hs)
  | bridgeRetrainFail => exact keptOut_unless (kept_setDevEvent (kept_cutDomain (kept_setFab hs)))
  | governorSample x => exact keptOut_unless (kept_govern (kept_setPower (kept_setPower hs)))
  | hotTimer => exact keptOut_unless (kept_raiseHeat (kept_setPower (kept_setPower hs)))
  | thermalTrip => exact keptOut_unless (kept_raiseHeat (kept_tripAll (kept_setPower hs)))
  | domainDrainDone d => exact keptOut_execDomainDrainDone s d
  | domainDrainTimeout d addr => exact keptOut_execDomainDrainTimeout s d addr
  | domainOnComplete d => exact keptOut_execDomainOnComplete s d
  | patrolScrub addr found => exact keptOut_unless (kept_scrub (kept_arise hs))
  | benchScrub lathe row found => exact keptOut_unless (kept_scrub (kept_arise hs))
  | watchdogExpiry => exact keptOut_execWatchdogExpiry s
  | spindleStep x => exact keptOut_execSpindleStep s x
  | chuckSwap spindle => exact keptOut_execChuckSwap s spindle
  | groupRescale x => exact keptOut_execGroupRescale s x
  | tileDrain spindle set => exact keptOut_execTileDrain s spindle set
  | bar0Read rq offset size => exact keptOut_hostRow (kept_bar0ReadAt hs)
  | portTrainingComplete port whole => exact keptOut_execPortTrainingComplete s port whole

end

/-- Whatever a step answers keeps what the state has. -/
theorem kept_of_step {s t : State} (h : step s = .next t) : ∃ rest, Kept { s with pending := rest } t := by
  unfold step at h
  split at h
  · obtain rfl : idle s = t := by simpa using h
    exact ⟨s.pending, kept_ite ((Kept.refl s).same rfl rfl rfl rfl rfl rfl) (.refl s)⟩
  · next c rest _ =>
    have hk := keptOut_exec { s with pending := rest } c
    rw [h] at hk
    exact ⟨rest, hk⟩

end Sys2Proof.Machine

open Sys2Proof.Machine

/-- Settles O3: `Kept` says it of each row. -/
theorem stepKeepsMemoryCanonical : Obligations.StepKeepsMemoryCanonical := by
  unfold Obligations.StepKeepsMemoryCanonical
  intro s t hs h
  obtain ⟨_, hk⟩ := kept_of_step h
  exact ⟨hk.dev hs.1, hk.host hs.2⟩

/-- Settles O4: `Kept` says it of each row. -/
theorem keepRegisterEndurance : Obligations.KeepRegisterEndurance := by
  unfold Obligations.KeepRegisterEndurance
  intro s t i h
  obtain ⟨_, hk⟩ := kept_of_step h
  exact ⟨hk.wear i, fun hne => (hk.worn i hne).symm⟩

/-- Settles O5: `Kept` says it of each row, of states whose shadow does not name the register. -/
theorem antiRollbackVersionNeverFalls : Obligations.AntiRollbackVersionNeverFalls := by
  unfold Obligations.AntiRollbackVersionNeverFalls
  intro s t hs h
  obtain ⟨_, hk⟩ := kept_of_step h
  exact ⟨hk.version hs, hk.spares hs⟩

/-- Settles O6: `Kept` says it of each row. -/
theorem noRowTouchesTheQueue : Obligations.NoRowTouchesTheQueue := by
  unfold Obligations.NoRowTouchesTheQueue
  intro c s t h
  have hk := keptOut_exec s c
  rw [h] at hk
  exact hk.pending

end

section
/-!
Conversion to a float format (R29, R64). Without its sign a code is a number; the magnitude that its fields give rises
strictly with it, by the weight of its last place, up to the largest finite one. A rounded magnitude is packed into the code
that has its value. Every value of the format at or above a binade is a multiple of the binade's last place, so that a
nearest multiple is a nearest value.
-/

namespace Sys2Proof.Machine

/-! ### Magnitudes -/

/-- The weight of the last place at an exponent field of 1 or above (R29). -/
def fieldExp (sh : FpShape) (x : Nat) : Int := (x : Int) - sh.bias - sh.mb

/-- The significand of a code without its sign: no hidden bit at exponent field 0. -/
def fpSig (sh : FpShape) (n : Nat) : Nat := if n / 2 ^ sh.mb = 0 then n % 2 ^ sh.mb else 2 ^ sh.mb + n % 2 ^ sh.mb

/-- The weight of its last place: that of exponent field 1 for a field of 0. -/
def fpExp (sh : FpShape) (n : Nat) : Int := fieldExp sh (max (n / 2 ^ sh.mb) 1)

/-- The magnitude that the fields of a code give. -/
def fpMag (sh : FpShape) (n : Nat) : Rat := (fpSig sh n : Rat) * 2 ^ fpExp sh n

/-- A weight one higher counts twice. -/
theorem mul_zpow_succ (q : Rat) (e : Int) : q * 2 ^ (e + 1) = 2 * q * 2 ^ e := by
  rw [zpow_add_one₀ two_ne_zero]; ring

section
variable (sh : FpShape)

theorem fieldExp_succ (x : Nat) : fieldExp sh (x + 1) = fieldExp sh x + 1 := by
  unfold fieldExp; push_cast; ring

theorem fpSig_add {x m : Nat} (hx : 1 ≤ x) (hm : m < 2 ^ sh.mb) : fpSig sh (x * 2 ^ sh.mb + m) = 2 ^ sh.mb + m := by
  have hdiv : (x * 2 ^ sh.mb + m) / 2 ^ sh.mb = x := by
    rw [Nat.add_comm, Nat.add_mul_div_right _ _ (Nat.two_pow_pos _), Nat.div_eq_of_lt hm, zero_add]
  have hmod : (x * 2 ^ sh.mb + m) % 2 ^ sh.mb = m := by
    rw [Nat.add_comm, Nat.add_mul_mod_self_right, Nat.mod_eq_of_lt hm]
  rw [fpSig, hdiv, hmod, if_neg (by omega)]

theorem fpExp_add {x m : Nat} (hx : 1 ≤ x) (hm : m < 2 ^ sh.mb) : fpExp sh (x * 2 ^ sh.mb + m) = fieldExp sh x := by
  have hdiv : (x * 2 ^ sh.mb + m) / 2 ^ sh.mb = x := by
    rw [Nat.add_comm, Nat.add_mul_div_right _ _ (Nat.two_pow_pos _), Nat.div_eq_of_lt hm, zero_add]
  rw [fpExp, hdiv, max_eq_left hx]

/-- The magnitude of a full significand. -/
theorem fpMag_add {x m : Nat} (hx : 1 ≤ x) (hm : m < 2 ^ sh.mb) :
    fpMag sh (x * 2 ^ sh.mb + m) = ((2 ^ sh.mb + m : Nat) : Rat) * 2 ^ fieldExp sh x := by
  rw [fpMag, fpSig_add sh hx hm, fpExp_add sh hx hm]

/-- The magnitude of a significand without its hidden bit. -/
theorem fpMag_of_lt {m : Nat} (hm : m < 2 ^ sh.mb) : fpMag sh m = (m : Rat) * 2 ^ fieldExp sh 1 := by
  simp [fpMag, fpSig, fpExp, Nat.div_eq_of_lt hm, Nat.mod_eq_of_lt hm]

/-- The fields of a code without its sign: a short significand, or an exponent field and the mantissa. -/
theorem mag_cases (n : Nat) : n < 2 ^ sh.mb ∨ ∃ x m, 1 ≤ x ∧ m < 2 ^ sh.mb ∧ n = x * 2 ^ sh.mb + m := by
  obtain h | h := lt_or_ge n (2 ^ sh.mb)
  · exact .inl h
  · exact .inr ⟨n / 2 ^ sh.mb, n % 2 ^ sh.mb, (Nat.one_le_div_iff (Nat.two_pow_pos _)).mpr h,
      Nat.mod_lt _ (Nat.two_pow_pos _), (Nat.div_add_mod' _ _).symm⟩

/-- The next code is one last place higher. -/
theorem fpMag_succ (n : Nat) : fpMag sh (n + 1) = fpMag sh n + 2 ^ fpExp sh n := by
  obtain h | ⟨x, m, hx, hm, rfl⟩ := mag_cases sh n
  · have hexp : fpExp sh n = fieldExp sh 1 := by simp [fpExp, Nat.div_eq_of_lt h]
    rw [fpMag_of_lt sh h, hexp]
    obtain hlt | heq := Nat.lt_or_eq_of_le (Nat.succ_le_of_lt h)
    · rw [fpMag_of_lt sh hlt]; push_cast; ring
    · have hnext : n + 1 = 1 * 2 ^ sh.mb + 0 := by omega
      have hsum : ((n : Rat) + 1) = 2 ^ sh.mb := by exact_mod_cast heq
      rw [hnext, fpMag_add sh le_rfl (Nat.two_pow_pos _)]
      push_cast; rw [← hsum]; ring
  · rw [fpMag_add sh hx hm, fpExp_add sh hx hm, Nat.add_assoc]
    obtain hlt | heq := Nat.lt_or_eq_of_le (Nat.succ_le_of_lt hm)
    · rw [fpMag_add sh hx hlt]; push_cast; ring
    · have hnext : x * 2 ^ sh.mb + (m + 1) = (x + 1) * 2 ^ sh.mb + 0 := by rw [Nat.add_mul]; omega
      have hsum : ((m : Rat) + 1) = 2 ^ sh.mb := by exact_mod_cast heq
      rw [hnext, fpMag_add sh (by omega) (Nat.two_pow_pos _), fieldExp_succ, mul_zpow_succ]
      push_cast; rw [← hsum]; ring

theorem fpMag_strictMono : StrictMono (fpMag sh) :=
  strictMono_nat_of_lt_succ fun n => by rw [fpMag_succ]; exact lt_add_of_pos_right _ (by positivity)

theorem fpMag_zero : fpMag sh 0 = 0 := by simp [fpMag_of_lt sh (Nat.two_pow_pos _)]

theorem fpMag_nonneg (n : Nat) : 0 ≤ fpMag sh n := by unfold fpMag; positivity

end

/-! ### The largest finite magnitude -/

/-- A format with at least four exponent fields and a mantissa. -/
def FpShape.Sound (sh : FpShape) : Prop := 2 ≤ sh.eb ∧ 1 ≤ sh.mb

theorem FpShape.Sound.pow_bounds {sh : FpShape} (h : sh.Sound) :
    4 ≤ 2 ^ sh.eb ∧ 2 ≤ 2 ^ sh.mb ∧ 2 ^ (sh.mb + 1) = 2 * 2 ^ sh.mb ∧ 2 ^ (sh.mb + sh.eb) = 2 ^ sh.eb * 2 ^ sh.mb :=
  ⟨Nat.pow_le_pow_right (n := 2) two_pos h.1, Nat.pow_le_pow_right (n := 2) two_pos h.2, pow_succ' 2 _,
    by rw [Nat.pow_add, Nat.mul_comm]⟩

theorem sound_of_fpShape {f : Fmt} {sh : FpShape} (h : fpShape f = some sh) :
    sh.Sound ∧ fmtBits f = sh.mb + sh.eb + 1 := by
  cases f <;> simp only [fpShape, Option.some.injEq, reduceCtorEq] at h <;> subst h <;> exact ⟨⟨by decide, by decide⟩, rfl⟩

/-- The code without a sign of the largest finite magnitude (R29). -/
def topMag (sh : FpShape) : Nat :=
  match sh.top with
  | .ieee => (2 ^ sh.eb - 2) * 2 ^ sh.mb + (2 ^ sh.mb - 1)
  | .nanOnly => (2 ^ sh.eb - 1) * 2 ^ sh.mb + (2 ^ sh.mb - 2)
  | .none => (2 ^ sh.eb - 1) * 2 ^ sh.mb + (2 ^ sh.mb - 1)

theorem topMag_lt {sh : FpShape} (hs : sh.Sound) : topMag sh < 2 ^ (sh.mb + sh.eb) := by
  obtain ⟨h4, h2, -, hall⟩ := hs.pow_bounds
  have hfield (x : Nat) (hx : x + 1 ≤ 2 ^ sh.eb) : x * 2 ^ sh.mb + 2 ^ sh.mb ≤ 2 ^ sh.eb * 2 ^ sh.mb := by
    rw [← Nat.succ_mul]; exact Nat.mul_le_mul_right _ hx
  rw [hall, topMag]
  split
  · have := hfield (2 ^ sh.eb - 2) (by omega); omega
  · have := hfield (2 ^ sh.eb - 1) (by omega); omega
  · have := hfield (2 ^ sh.eb - 1) (by omega); omega

theorem fpMag_topMag {sh : FpShape} (hs : sh.Sound) : fpMag sh (topMag sh) = fpMax sh := by
  obtain ⟨h4, h2, hmb, -⟩ := hs.pow_bounds
  have hcast1 : ((2 ^ sh.eb - 1 : Nat) : Int) = 2 ^ sh.eb - 1 := by rw [Nat.cast_sub (by omega)]; push_cast; rfl
  have hcast2 : ((2 ^ sh.eb - 2 : Nat) : Int) = 2 ^ sh.eb - 2 := by rw [Nat.cast_sub (by omega)]; push_cast; rfl
  unfold topMag fpMax
  cases sh.top with
  | ieee =>
    have hsig : 2 ^ sh.mb + (2 ^ sh.mb - 1) = 2 ^ (sh.mb + 1) - 1 := by omega
    simp only [fpMag_add sh (show 1 ≤ 2 ^ sh.eb - 2 by omega) (show 2 ^ sh.mb - 1 < 2 ^ sh.mb by omega), hsig,
      fieldExp, hcast2, pow2_eq_zpow]
    exact mul_comm _ _
  | nanOnly =>
    have hsig : 2 ^ sh.mb + (2 ^ sh.mb - 2) = 2 ^ (sh.mb + 1) - 2 := by omega
    simp only [fpMag_add sh (show 1 ≤ 2 ^ sh.eb - 1 by omega) (show 2 ^ sh.mb - 2 < 2 ^ sh.mb by omega), hsig,
      fieldExp, hcast1, pow2_eq_zpow]
    exact mul_comm _ _
  | none =>
    have hsig : 2 ^ sh.mb + (2 ^ sh.mb - 1) = 2 ^ (sh.mb + 1) - 1 := by omega
    simp only [fpMag_add sh (show 1 ≤ 2 ^ sh.eb - 1 by omega) (show 2 ^ sh.mb - 1 < 2 ^ sh.mb by omega), hsig,
      fieldExp, hcast1, pow2_eq_zpow]
    exact mul_comm _ _

theorem fpMag_le_fpMax_iff {sh : FpShape} (hs : sh.Sound) (n : Nat) : fpMag sh n ≤ fpMax sh ↔ n ≤ topMag sh := by
  rw [← fpMag_topMag hs]
  exact (fpMag_strictMono sh).le_iff_le

/-! ### The value of a code -/

/-- A code without its sign. -/
def magOf (sh : FpShape) (c : Nat) : Nat := c % 2 ^ (sh.mb + sh.eb)

/-- The sign of a code. -/
def fpNeg (sh : FpShape) (c : Nat) : Bool := bit c (sh.mb + sh.eb)

/-- A magnitude with a sign. -/
def signed (neg : Bool) (a : Rat) : Rat := if neg then -a else a

theorem abs_signed (neg : Bool) {a : Rat} (h : 0 ≤ a) : |signed neg a| = a := by
  cases neg <;> simp [signed, abs_of_nonneg h]

theorem signed_abs (x : Rat) : signed (decide (x < 0)) |x| = x := by
  obtain h | h := lt_or_ge x 0
  · simp [signed, h, abs_of_neg h]
  · simp [signed, not_lt.mpr h, abs_of_nonneg h]

theorem elemExt_num (neg : Bool) (q : Nat) (e : Int) : elemExt (.num neg q e) = .fin (signed neg ((q : Rat) * 2 ^ e)) := by
  cases neg <;> simp [elemExt, signed]

section
variable {sh : FpShape}

theorem manField_eq (c : Nat) : bits c 0 sh.mb = magOf sh c % 2 ^ sh.mb := by
  rw [bits, Nat.shiftRight_zero, magOf, Nat.mod_mod_of_dvd _ (pow_dvd_pow 2 (Nat.le_add_right _ _))]

theorem expField_eq (c : Nat) : bits c sh.mb sh.eb = magOf sh c / 2 ^ sh.mb := by
  rw [bits, Nat.shiftRight_eq_div_pow, magOf, Nat.pow_add, Nat.mod_mul_right_div_self]

theorem magOf_lt (c : Nat) : magOf sh c < 2 ^ (sh.mb + sh.eb) := Nat.mod_lt _ (Nat.two_pow_pos _)

/-- A code holds a number exactly up to the largest finite magnitude. -/
theorem magOf_le_topMag_iff (hs : sh.Sound) (c : Nat) : magOf sh c ≤ topMag sh ↔
    ¬(sh.top = .ieee ∧ bits c sh.mb sh.eb = 2 ^ sh.eb - 1)
    ∧ ¬(sh.top = .nanOnly ∧ bits c sh.mb sh.eb = 2 ^ sh.eb - 1 ∧ bits c 0 sh.mb = 2 ^ sh.mb - 1) := by
  obtain ⟨h4, h2, -, hall⟩ := hs.pow_bounds
  have hlt := magOf_lt (sh := sh) c
  have hdiv := Nat.div_add_mod' (magOf sh c) (2 ^ sh.mb)
  have hmod := Nat.mod_lt (magOf sh c) (Nat.two_pow_pos sh.mb)
  rw [manField_eq, expField_eq]
  rw [hall] at hlt
  generalize magOf sh c = n at *
  generalize n % 2 ^ sh.mb = m at *
  have hx : n / 2 ^ sh.mb < 2 ^ sh.eb := Nat.div_lt_of_lt_mul (by rwa [Nat.mul_comm])
  generalize n / 2 ^ sh.mb = x at *
  subst hdiv
  have hle (y : Nat) (hy : x ≤ y) : x * 2 ^ sh.mb ≤ y * 2 ^ sh.mb := Nat.mul_le_mul_right _ hy
  have hge (y : Nat) (hy : y + 1 ≤ x) : y * 2 ^ sh.mb + 2 ^ sh.mb ≤ x * 2 ^ sh.mb := by
    rw [← Nat.succ_mul]; exact Nat.mul_le_mul_right _ hy
  unfold topMag
  cases sh.top with
  | ieee =>
    simp only [true_and, reduceCtorEq, false_and, not_false_iff, and_true]
    obtain h | h := Nat.lt_or_ge (2 ^ sh.eb - 2) x
    · have := hge _ h; omega
    · have := hle _ h; omega
  | nanOnly =>
    simp only [true_and, reduceCtorEq, false_and, not_false_iff]
    obtain h | h := Nat.eq_or_lt_of_le (Nat.le_sub_one_of_lt hx)
    · rw [h]; omega
    · have := hle _ (Nat.le_sub_one_of_lt h)
      have := Nat.mul_le_mul_right (2 ^ sh.mb) h
      rw [Nat.succ_mul] at this
      omega
  | none =>
    simp only [reduceCtorEq, false_and, not_false_iff, and_self, iff_true]
    have := hle _ (Nat.le_sub_one_of_lt hx)
    omega

/-- Where a code holds a number, its parts are those of its magnitude. -/
theorem fpDecode_of_number {c : Nat} (hi : ¬(sh.top = .ieee ∧ bits c sh.mb sh.eb = 2 ^ sh.eb - 1))
    (hn : ¬(sh.top = .nanOnly ∧ bits c sh.mb sh.eb = 2 ^ sh.eb - 1 ∧ bits c 0 sh.mb = 2 ^ sh.mb - 1)) :
    fpDecode sh c = .num (fpNeg sh c) (fpSig sh (magOf sh c)) (fpExp sh (magOf sh c)) := by
  rw [fpDecode, if_neg hi, if_neg hn]
  simp only [manField_eq, expField_eq, fpSig, fpExp, fieldExp, fpNeg]
  obtain hx | hx := Nat.eq_zero_or_pos (magOf sh c / 2 ^ sh.mb)
  · simp [hx]
  · simp only [hx.ne', if_false, max_eq_left (Nat.one_le_iff_ne_zero.mpr hx.ne')]

theorem floatVal_eq_fin_iff (hs : sh.Sound) (c : Nat) (w : Rat) :
    floatVal sh c = .fin w ↔ magOf sh c ≤ topMag sh ∧ w = signed (fpNeg sh c) (fpMag sh (magOf sh c)) := by
  rw [magOf_le_topMag_iff hs]
  by_cases hi : sh.top = .ieee ∧ bits c sh.mb sh.eb = 2 ^ sh.eb - 1
  · rw [floatVal, fpDecode, if_pos hi]
    split
    · cases bit c (sh.mb + sh.eb) <;> simp [hi, elemExt, infOf]
    · simp [hi, elemExt]
  by_cases hn : sh.top = .nanOnly ∧ bits c sh.mb sh.eb = 2 ^ sh.eb - 1 ∧ bits c 0 sh.mb = 2 ^ sh.mb - 1
  · rw [floatVal, fpDecode, if_neg hi, if_pos hn]
    simp [hn, elemExt]
  rw [floatVal, fpDecode_of_number hi hn, elemExt_num, fpMag, Ext.fin.injEq, eq_comm]
  exact (and_iff_right ⟨hi, hn⟩).symm

end

/-! ### Packing a significand -/

/-- The code without a sign of significand `m` at weight `2^l`. -/
def packMag (sh : FpShape) (m : Nat) (l : Int) : Nat := (l + sh.mb + sh.bias).toNat * 2 ^ sh.mb + m - 2 ^ sh.mb

/-- A significand that a format holds at a weight, or the power of two above the full ones (R64). -/
structure Packable (sh : FpShape) (m : Nat) (l : Int) : Prop where
  least : fieldExp sh 1 ≤ l
  full : 2 ^ sh.mb ≤ m ∨ l = fieldExp sh 1
  le : m ≤ 2 ^ (sh.mb + 1)

section
variable {sh : FpShape} {m : Nat} {l : Int}

/-- A weight is that of an exponent field. -/
theorem Packable.weight (h : Packable sh m l) :
    ∃ k : Nat, 1 ≤ k ∧ l = fieldExp sh k ∧ (l + sh.mb + sh.bias).toNat = k := by
  have hl := h.least
  refine ⟨(l + sh.mb + sh.bias).toNat, ?_, ?_, rfl⟩ <;> simp only [fieldExp] at * <;> omega

theorem fpPack_eq (h : Packable sh m l) (neg : Bool) :
    fpPack sh neg m l = b2n neg * 2 ^ (sh.mb + sh.eb) + packMag sh m l := by
  obtain ⟨k, hk, rfl, hnat⟩ := h.weight
  have hcarry : (fieldExp sh k + 1 + sh.mb + sh.bias).toNat = k + 1 := by simp only [fieldExp]; omega
  have hmul : 2 ^ sh.mb ≤ k * 2 ^ sh.mb := Nat.le_mul_of_pos_left _ hk
  have hpow : 2 ^ (sh.mb + 1) = 2 * 2 ^ sh.mb := pow_succ' 2 sh.mb
  simp only [fpPack, packMag, hnat, hcarry]
  split
  · obtain hfull | hone := h.full
    · omega
    · obtain rfl : k = 1 := by simp only [fieldExp] at hone; omega
      omega
  · split
    · rw [Nat.add_mul]; omega
    · omega

/-- The packed code has the magnitude that was packed. -/
theorem fpMag_packMag (h : Packable sh m l) : fpMag sh (packMag sh m l) = (m : Rat) * 2 ^ l := by
  obtain ⟨k, hk, rfl, hnat⟩ := h.weight
  have hpow : 2 ^ (sh.mb + 1) = 2 * 2 ^ sh.mb := pow_succ' 2 sh.mb
  have hle := h.le
  rw [packMag, hnat]
  obtain hlt | hge := Nat.lt_or_ge m (2 ^ sh.mb)
  · obtain hfull | hone := h.full
    · omega
    · obtain rfl : k = 1 := by simp only [fieldExp] at hone; omega
      rw [Nat.one_mul, Nat.add_sub_cancel_left, fpMag_of_lt sh hlt]
  obtain ⟨d, rfl⟩ := Nat.exists_eq_add_of_le hge
  rw [← Nat.add_assoc, Nat.add_right_comm, Nat.add_sub_cancel]
  obtain hd | rfl := Nat.lt_or_eq_of_le (show d ≤ 2 ^ sh.mb by omega)
  · exact fpMag_add sh hk hd
  · rw [← Nat.succ_mul, ← Nat.add_zero (k.succ * 2 ^ sh.mb), fpMag_add sh (by omega) (Nat.two_pow_pos _), Nat.succ_eq_add_one,
      fieldExp_succ, mul_zpow_succ]
    push_cast; ring

/-- A code with a sign and a magnitude within the range, taken apart. -/
theorem parts_of_code (hs : sh.Sound) (neg : Bool) {n : Nat} (hn : n ≤ topMag sh) :
    magOf sh (b2n neg * 2 ^ (sh.mb + sh.eb) + n) = n ∧ fpNeg sh (b2n neg * 2 ^ (sh.mb + sh.eb) + n) = neg := by
  have hlt : n < 2 ^ (sh.mb + sh.eb) := hn.trans_lt (topMag_lt hs)
  constructor
  · rw [magOf, Nat.add_comm, Nat.add_mul_mod_self_right, Nat.mod_eq_of_lt hlt]
  · rw [fpNeg, bit, bits, Nat.shiftRight_eq_div_pow, Nat.add_comm, Nat.add_mul_div_right _ _ (Nat.two_pow_pos _),
      Nat.div_eq_of_lt hlt]
    cases neg <;> rfl

/-- A code is its sign and its magnitude. -/
theorem code_of_parts {c : Nat} (hc : c < 2 ^ (sh.mb + sh.eb + 1)) :
    b2n (fpNeg sh c) * 2 ^ (sh.mb + sh.eb) + magOf sh c = c := by
  have hdiv : c / 2 ^ (sh.mb + sh.eb) < 2 := Nat.div_lt_of_lt_mul (by rwa [← Nat.pow_succ])
  have hneg : b2n (fpNeg sh c) = c / 2 ^ (sh.mb + sh.eb) := by
    rw [fpNeg, bit, bits, Nat.shiftRight_eq_div_pow]
    generalize c / 2 ^ (sh.mb + sh.eb) = d at hdiv
    obtain rfl | rfl : d = 0 ∨ d = 1 := by omega
    · rfl
    · rfl
  rw [hneg, magOf, Nat.div_add_mod']

theorem floatVal_fpPack (hs : sh.Sound) (h : Packable sh m l) (hmax : (m : Rat) * 2 ^ l ≤ fpMax sh) (neg : Bool) :
    floatVal sh (fpPack sh neg m l) = .fin (signed neg ((m : Rat) * 2 ^ l)) := by
  have hn : packMag sh m l ≤ topMag sh := by rwa [← fpMag_le_fpMax_iff hs, fpMag_packMag h]
  obtain ⟨hmag, hneg⟩ := parts_of_code hs neg hn
  rw [fpPack_eq h, floatVal_eq_fin_iff hs, hmag, hneg, fpMag_packMag h]
  exact ⟨hn, rfl⟩

end

/-! ### Rounding to the last place of a magnitude -/

section
variable (sh : FpShape) {a : Rat}

/-- A magnitude in units of its last place: it has `mb + 1` bits before the point, and at the least weight fewer. -/
theorem fpLsb_bounds (ha : 0 ≤ a) : fieldExp sh 1 ≤ fpLsb sh a ∧ a < (2 ^ (sh.mb + 1) : Nat) * 2 ^ fpLsb sh a
    ∧ ((2 ^ sh.mb : Nat) * 2 ^ fpLsb sh a ≤ a ∨ fpLsb sh a = fieldExp sh 1) := by
  obtain rfl | hpos := ha.eq_or_lt
  · have hz : fpLsb sh 0 = fieldExp sh 1 := by simp [fpLsb, fieldExp]
    exact ⟨hz.ge, by positivity, .inr hz⟩
  obtain ⟨hlo, hhi⟩ := zpow_ilog2_le_and_lt hpos
  have hl : fpLsb sh a = max (ilog2 a - sh.mb) (fieldExp sh 1) := by
    simp only [fpLsb, hpos.ne', if_false, fieldExp]; omega
  have hpow (k : Nat) (e : Int) : ((2 ^ k : Nat) : Rat) * 2 ^ e = 2 ^ (k + e) := by
    rw [zpow_add₀ two_ne_zero]; push_cast; rfl
  refine ⟨by omega, hhi.trans_le ?_, ?_⟩
  · rw [hpow]
    exact zpow_le_zpow_right₀ one_le_two (by push_cast; omega)
  · obtain h | h := max_choice (ilog2 a - sh.mb) (fieldExp sh 1)
    · left
      rwa [hpow, hl, h, add_sub_cancel]
    · exact .inr (hl.trans h)

/-- A value of the format is a multiple of a weight, or less than a full significand of it. -/
theorem fpMag_multiple_or_lt (n : Nat) (l : Int) :
    (∃ k : Nat, fpMag sh n = k * 2 ^ l) ∨ (l ≠ fieldExp sh 1 ∧ fpMag sh n < (2 ^ sh.mb : Nat) * 2 ^ l) := by
  have hexp : fieldExp sh 1 ≤ fpExp sh n := by simp only [fpExp, fieldExp]; omega
  obtain hle | hlt := le_or_gt l (fpExp sh n)
  · obtain ⟨d, hd⟩ := Int.le.dest hle
    refine .inl ⟨fpSig sh n * 2 ^ d, ?_⟩
    rw [fpMag, ← hd, zpow_add₀ two_ne_zero, zpow_natCast]
    push_cast; ring
  · have hsig : fpSig sh n < 2 * 2 ^ sh.mb := by
      have := Nat.mod_lt n (Nat.two_pow_pos sh.mb)
      rw [fpSig]; split <;> omega
    refine .inr ⟨by omega, ?_⟩
    calc fpMag sh n < ((2 * 2 ^ sh.mb : Nat) : Rat) * 2 ^ fpExp sh n := by
          unfold fpMag; gcongr
      _ = (2 ^ sh.mb : Nat) * 2 ^ (fpExp sh n + 1) := by rw [mul_zpow_succ]; push_cast; ring
      _ ≤ (2 ^ sh.mb : Nat) * 2 ^ l := by
          gcongr
          · exact one_le_two
          · omega

/-- No natural number lies nearer than the rounded one. -/
theorem abs_rndMag_sub_le (ha : 0 ≤ a) (k : Nat) : |(rndMag a : Rat) - a| ≤ |(k : Rat) - a| := by
  obtain ⟨hle, hlt⟩ := rndMag_near ha
  have hnear : |(rndMag a : Rat) - a| ≤ 1 / 2 := abs_le.mpr ⟨by linarith, by linarith⟩
  obtain h | rfl | h := lt_trichotomy k (rndMag a)
  · have : (k : Rat) + 1 ≤ rndMag a := by exact_mod_cast h
    exact hnear.trans (le_abs.mpr (.inr (by linarith)))
  · exact le_rfl
  · have : (rndMag a : Rat) + 1 ≤ k := by exact_mod_cast h
    exact hnear.trans (le_abs.mpr (.inl (by linarith)))

/-- The magnitude that `a` is rounded to (R64). -/
def fpNear (a : Rat) : Rat := (rndMag (a / 2 ^ fpLsb sh a) : Rat) * 2 ^ fpLsb sh a

/-- No multiple of the last place lies nearer than the rounded magnitude. -/
theorem abs_fpNear_sub_le_multiple (ha : 0 ≤ a) (k : Nat) : |fpNear sh a - a| ≤ |(k : Rat) * 2 ^ fpLsb sh a - a| := by
  have hpos : (0 : Rat) < 2 ^ fpLsb sh a := by positivity
  have hscale (q : Rat) : |q * 2 ^ fpLsb sh a - a| = |q - a / 2 ^ fpLsb sh a| * 2 ^ fpLsb sh a := by
    rw [← abs_of_pos hpos, ← abs_mul, abs_of_pos hpos, sub_mul, div_mul_cancel₀ a hpos.ne']
  rw [fpNear, hscale, hscale]
  exact mul_le_mul_of_nonneg_right (abs_rndMag_sub_le (by positivity) k) hpos.le

/-- No value of the format lies nearer than the rounded magnitude: one that is no multiple of the last place lies below
the binade of `a`. -/
theorem abs_fpNear_sub_le (ha : 0 ≤ a) (n : Nat) : |fpNear sh a - a| ≤ |fpMag sh n - a| := by
  obtain ⟨k, hk⟩ | ⟨hl, hlt⟩ := fpMag_multiple_or_lt sh n (fpLsb sh a)
  · rw [hk]
    exact abs_fpNear_sub_le_multiple sh ha k
  · have hbinade := (fpLsb_bounds sh ha).2.2.resolve_right hl
    refine (abs_fpNear_sub_le_multiple sh ha (2 ^ sh.mb)).trans ?_
    rw [abs_of_nonpos (sub_nonpos.mpr hbinade), abs_of_nonpos (sub_nonpos.mpr (hlt.le.trans hbinade))]
    linarith

theorem packable_round (ha : 0 ≤ a) : Packable sh (rndMag (a / 2 ^ fpLsb sh a)) (fpLsb sh a) := by
  have hpos : (0 : Rat) < 2 ^ fpLsb sh a := by positivity
  obtain ⟨hleast, hlt, hfull⟩ := fpLsb_bounds sh ha
  have hhi : a / 2 ^ fpLsb sh a < (2 ^ (sh.mb + 1) : Nat) := (div_lt_iff₀ hpos).mpr hlt
  refine ⟨hleast, hfull.imp_left fun h => ?_, ?_⟩
  · exact (rndMag_mem_of_mem ((le_div_iff₀ hpos).mpr h) hhi).1
  · exact (rndMag_mem_of_mem (lo := 0) (by simpa using by positivity) hhi).2

variable {sh}

/-- Within the range a magnitude is rounded to one within the range. -/
theorem fpNear_le_fpMax (hs : sh.Sound) (ha : 0 ≤ a) (hmax : a ≤ fpMax sh) : fpNear sh a ≤ fpMax sh := by
  have hpos : (0 : Rat) < 2 ^ fpLsb sh a := by positivity
  obtain ⟨k, hk⟩ | ⟨hl, hlt⟩ := fpMag_multiple_or_lt sh (topMag sh) (fpLsb sh a)
  · rw [fpMag_topMag hs] at hk
    rw [hk] at hmax ⊢
    have hle : (rndMag (a / 2 ^ fpLsb sh a) : Rat) < (k + 1 : Nat) := by
      have := (rndMag_near (a := a / 2 ^ fpLsb sh a) (by positivity)).1
      have := (div_le_iff₀ hpos).mpr hmax
      push_cast; linarith
    rw [fpNear]
    gcongr
    exact Nat.lt_succ_iff.mp (by exact_mod_cast hle)
  · rw [fpMag_topMag hs] at hlt
    exact absurd ((fpLsb_bounds sh ha).2.2.resolve_right hl) (not_le.mpr (hmax.trans_lt hlt))

end

/-! ### The code that a number within the range converts to -/

theorem quantFin_eq_fpPack {f : Fmt} {sh : FpShape} (hf : fpShape f = some sh) {x : Rat} (hx : |x| ≤ fpMax sh) :
    quantFin f [] .near x 1 = fpPack sh (decide (x < 0)) (rndMag (|x| / 2 ^ fpLsb sh |x|)) (fpLsb sh |x|) := by
  have hmax : qmaxOf f = fpMax sh := by
    cases f <;> simp only [fpShape, reduceCtorEq] at hf <;> simp only [qmaxOf, fpShape, hf]
  have hclamp : ¬ fpMax sh < |x| := not_lt.mpr hx
  cases f <;> simp only [fpShape, reduceCtorEq] at hf <;>
    simp only [quantFin, fpShape, hf, hmax, div_one, rabs_eq_abs, hclamp, if_false, fpRound, roundUnits, pow2_eq_zpow]

/-- The converted number is the rounded magnitude with the number's sign. -/
theorem floatVal_quantFin {f : Fmt} {sh : FpShape} (hf : fpShape f = some sh) {x : Rat} (hx : |x| ≤ fpMax sh) :
    floatVal sh (quantFin f [] .near x 1) = .fin (signed (decide (x < 0)) (fpNear sh |x|)) := by
  obtain ⟨hs, -⟩ := sound_of_fpShape hf
  rw [quantFin_eq_fpPack hf hx]
  exact floatVal_fpPack hs (packable_round sh (abs_nonneg x)) (fpNear_le_fpMax hs (abs_nonneg x) hx) _

theorem abs_signed_sub_signed (neg : Bool) (a b : Rat) : |signed neg a - signed neg b| = |a - b| := by
  cases neg
  · rfl
  · simp only [signed, if_true, ← abs_neg (-a - -b)]
    congr 1; ring

end Sys2Proof.Machine

open Sys2Proof.Machine

/-- Settles O30: the error of the conversion is that of the magnitude, of which no value of the format lies nearer. -/
theorem conversionIsToNearest : Obligations.ConversionIsToNearest := by
  unfold Obligations.ConversionIsToNearest
  intro f sh x hf hx
  obtain ⟨hs, -⟩ := sound_of_fpShape hf
  simp only [rabs_eq_abs] at hx ⊢
  refine ⟨_, floatVal_quantFin hf hx, fun c w hw => ?_⟩
  obtain ⟨-, rfl⟩ := (floatVal_eq_fin_iff hs c w).mp hw
  set v := signed (fpNeg sh c) (fpMag sh (magOf sh c))
  have hmag : |v| = fpMag sh (magOf sh c) := abs_signed _ (fpMag_nonneg sh _)
  have hsign := abs_signed_sub_signed (decide (x < 0)) (fpNear sh |x|) |x|
  rw [signed_abs] at hsign
  calc |signed (decide (x < 0)) (fpNear sh |x|) - x|
      = |fpNear sh |x| - abs x| := hsign
    _ ≤ |fpMag sh (magOf sh c) - abs x| := abs_fpNear_sub_le sh (abs_nonneg x) _
    _ = |abs v - abs x| := by rw [hmag]
    _ ≤ |v - x| := abs_abs_sub_abs_le v x

/-- Settles O29: the value of a code is its own nearest one, and the magnitude and the sign of a value other than −0 tell
its code. -/
theorem floatCodesRoundTrip : Obligations.FloatCodesRoundTrip := by
  unfold Obligations.FloatCodesRoundTrip
  intro f sh c x hf hc hx hne
  obtain ⟨hs, hbits⟩ := sound_of_fpShape hf
  obtain ⟨htop, hval⟩ := (floatVal_eq_fin_iff hs c x).mp hx
  have hcode := code_of_parts (sh := sh) (hbits ▸ hc)
  have hmag : |x| = fpMag sh (magOf sh c) := hval ▸ abs_signed _ (fpMag_nonneg sh _)
  have hmax : |x| ≤ fpMax sh := by rwa [hmag, fpMag_le_fpMax_iff hs]
  have hpack := packable_round sh (abs_nonneg x)
  have hnear : fpNear sh |x| = |x| := by
    have := abs_fpNear_sub_le sh (abs_nonneg x) (magOf sh c)
    rw [← hmag, sub_self, abs_zero] at this
    exact sub_eq_zero.mp (abs_nonpos_iff.mp this)
  have hsame : packMag sh (rndMag (|x| / 2 ^ fpLsb sh |x|)) (fpLsb sh |x|) = magOf sh c :=
    (fpMag_strictMono sh).injective ((fpMag_packMag hpack).trans (hnear.trans hmag))
  have hneg : decide (x < 0) = fpNeg sh c := by
    cases hsign : fpNeg sh c with
    | false => simp [hval, hsign, signed, fpMag_nonneg]
    | true =>
      have hpos : 0 < magOf sh c := Nat.pos_of_ne_zero fun h0 => hne (by rw [← hcode, hsign, h0]; simp [b2n])
      have := fpMag_strictMono sh hpos
      rw [fpMag_zero] at this
      simpa [hval, hsign, signed] using this
  rw [quantFin_eq_fpPack hf hmax, fpPack_eq hpack, hsame, hneg, hcode]

end

section
/-!
I48 entries (R105, R106) and canonical signed digits (R72). An integer is packed into 56 bits or into the infinity of its
sign; a magnitude's digits are those of the next magnitude, one place up, with the digit of its last place behind them.
-/

namespace Sys2Proof.Machine

/-! ### I48 entries -/

/-- A 56-bit integer, packed and read again. -/
theorem i48Ext_pack_of_mem {z : Int} (hlo : -(2 ^ 55 : Int) ≤ z) (hhi : z ≤ 2 ^ 55 - 1) :
    i48Ext (z % (2 ^ 56 : Nat)).toNat = .fin (z : Rat) ∧ bits (z % (2 ^ 56 : Nat)).toNat 56 2 = 0 := by
  obtain ⟨n, hn⟩ := Int.eq_ofNat_of_zero_le (Int.emod_nonneg z (b := (2 ^ 56 : Nat)) (by decide))
  have hlt := Int.emod_lt_of_pos z (b := (2 ^ 56 : Nat)) (by decide)
  rw [hn, Int.toNat_natCast]
  have htag : bits n 56 2 = 0 := by
    rw [bits, Nat.shiftRight_eq_div_pow, Nat.div_eq_of_lt (by omega), Nat.zero_mod]
  have hsext : sext 56 n = z := by
    unfold sext
    split <;> omega
  exact ⟨by simp [i48Ext, htag, hsext], htag⟩

theorem i48Pack_intCast (z : Int) : i48Pack (.fin (z : Rat))
    = if -(2 ^ 55 : Int) ≤ z ∧ z ≤ 2 ^ 55 - 1 then (z % (2 ^ 56 : Nat)).toNat else if z < 0 then 2 * 2 ^ 56 else 2 ^ 56 := by
  simp only [i48Pack, rfloor_eq_floor, Int.floor_intCast]

theorem i48Range_intCast (z : Int) : i48Range (.fin (z : Rat))
    = if -(2 ^ 47 : Int) ≤ z ∧ z ≤ 2 ^ 47 - 1 then (.fin (z : Rat), false) else (infOf (decide (z < 0)), true) := by
  simp only [i48Range, rfloor_eq_floor, Int.floor_intCast, Int.cast_lt_zero]

/-- An add of two integers packs their sum; OVERFLOW tells that it has become an infinity. -/
theorem accAdd_i48 {w : Nat} {v : Int} (hw : i48Ext w = .fin (v : Rat)) (x : Int) :
    accAdd .i48 w (.fin (x : Rat))
      = (i48Pack (.fin ((v + x : Int) : Rat)), flagIf fOverflow (bits (i48Pack (.fin ((v + x : Int) : Rat))) 56 2 != 0)) := by
  simp only [accAdd, accVal, hw, extAdd, accPack, Bool.or_self, flagIf, Bool.false_eq_true, if_false, BitVec.zero_or]
  push_cast
  rfl

theorem accRead_i48 {w : Nat} {v : Int} (hw : i48Ext w = .fin (v : Rat)) (e : Int) :
    accRead .i48 e w = ((extMul (.fin (pow2 e)) (i48Range (.fin (v : Rat))).1).1,
      flagIf fOverflow (i48Range (.fin (v : Rat))).2) := by
  simp only [accRead, hw]

/-- A power of two times an infinity is that infinity. -/
theorem extMul_pow2_infOf (e : Int) (neg : Bool) : (extMul (.fin (pow2 e)) (infOf neg)).1 = infOf neg := by
  have hpos : (0 : Rat) < pow2 e := by rw [pow2_eq_zpow]; positivity
  cases neg <;> simp only [infOf, Bool.false_eq_true, if_false, if_true, extMul, hpos.ne', hpos, not_lt.mpr hpos.le,
    decide_true, decide_false]

/-! ### Canonical signed digits -/

/-- What is left of a magnitude once the digit of its last place is taken, one place up. -/
def csdNext (x : Nat) : Nat := if x % 4 = 3 then (x + 1) / 2 else x / 2

/-- The digit of a magnitude's last place, at `pos`: none, or of the sign that leaves an even rest. -/
def csdLast (x pos : Nat) : List (Bool × Nat) := if x % 2 = 1 then [(decide (x % 4 = 3), pos)] else []

theorem csdGo_succ_acc (n x pos : Nat) (acc : List (Bool × Nat)) :
    csdGo (n + 1) x pos acc = csdGo n (csdNext x) (pos + 1) (csdLast x pos ++ acc) := by
  obtain h | h | h : x % 2 = 0 ∨ x % 4 = 1 ∨ x % 4 = 3 := by omega
  · have h3 : ¬ x % 4 = 3 := by omega
    simp [csdGo, csdNext, csdLast, h, h3]
  · have h2 : x % 2 = 1 := by omega
    have hhalf : (x - 1) / 2 = x / 2 := by omega
    simp [csdGo, csdNext, csdLast, h, h2, hhalf]
  · have h2 : x % 2 = 1 := by omega
    simp [csdGo, csdNext, csdLast, h, h2]

theorem csdGo_acc (n x pos : Nat) (acc : List (Bool × Nat)) : csdGo n x pos acc = csdGo n x pos [] ++ acc := by
  induction n generalizing x pos acc with
  | zero => rfl
  | succ n ih => rw [csdGo_succ_acc, csdGo_succ_acc, ih, ih (acc := csdLast x pos ++ [])]; simp

theorem csdGo_succ (n x pos : Nat) : csdGo (n + 1) x pos [] = csdGo n (csdNext x) (pos + 1) [] ++ csdLast x pos := by
  rw [csdGo_succ_acc, csdGo_acc, List.append_nil]

/-- What a digit adds. -/
def digitVal (d : Bool × Nat) : Int := if d.1 then -2 ^ d.2 else 2 ^ d.2

theorem digitsVal_append (a b : List (Bool × Nat)) : digitsVal (a ++ b) = digitsVal a + digitsVal b := by
  have hfold (l : List (Bool × Nat)) (z : Int) :
      l.foldl (fun a d => if d.1 then a - 2 ^ d.2 else a + 2 ^ d.2) z = z + (l.map digitVal).sum := by
    induction l generalizing z with
    | nil => simp
    | cons d l ih =>
      rw [List.foldl_cons, ih, List.map_cons, List.sum_cons, digitVal]
      split <;> ring
  simp only [digitsVal, hfold, List.map_append, List.sum_append, zero_add]

/-- A magnitude is its rest, one place up, with the digit of its last place. -/
theorem digitsVal_csdLast (x pos : Nat) :
    (csdNext x : Int) * 2 ^ (pos + 1) + digitsVal (csdLast x pos) = (x : Int) * 2 ^ pos := by
  have hval : 2 * (csdNext x : Int) + (if x % 4 = 3 then -1 else if x % 2 = 1 then 1 else 0) = x := by
    unfold csdNext
    split
    · omega
    · split <;> omega
  have hdig : digitsVal (csdLast x pos) = (if x % 4 = 3 then -1 else if x % 2 = 1 then 1 else 0) * 2 ^ pos := by
    unfold csdLast
    split
    · split <;> simp [digitsVal, *]
    · rw [if_neg (by omega)]; simp [digitsVal]
  rw [hdig, ← hval]; ring

/-- Each place of fuel halves the bound on the magnitude, so that none is left in the end. -/
theorem digitsVal_csdGo {n x : Nat} (h : 2 * x ≤ 2 ^ n) (pos : Nat) : digitsVal (csdGo n x pos []) = (x : Int) * 2 ^ pos := by
  induction n generalizing x pos with
  | zero =>
    obtain rfl : x = 0 := by omega
    simp [csdGo, digitsVal]
  | succ n ih =>
    have hnext : 2 * csdNext x ≤ 2 ^ n := by
      have hpow : 2 ^ (n + 1) = 2 * 2 ^ n := pow_succ' 2 n
      cases n with
      | zero => unfold csdNext; split <;> omega
      | succ k =>
        have hpow' : 2 ^ (k + 1) = 2 * 2 ^ k := pow_succ' 2 k
        unfold csdNext; split <;> omega
    rw [csdGo_succ, digitsVal_append, ih hnext, digitsVal_csdLast]

/-- Digits stand from the given place on, and those of an even magnitude above it. -/
theorem le_of_mem_csdGo {n x pos : Nat} {d : Bool × Nat} (h : d ∈ csdGo n x pos []) : pos + (1 - x % 2) ≤ d.2 := by
  induction n generalizing x pos with
  | zero => cases h
  | succ n ih =>
    rw [csdGo_succ, List.mem_append] at h
    obtain h | h := h
    · have := ih h; omega
    · unfold csdLast at h
      split at h
      · obtain rfl := List.mem_singleton.mp h
        dsimp only; omega
      · cases h

/-- After an odd magnitude comes an even one, so that the places of two digits differ by two or more. -/
theorem pairwise_csdGo (n x pos : Nat) : (csdGo n x pos []).Pairwise fun d e => e.2 + 2 ≤ d.2 := by
  induction n generalizing x pos with
  | zero => exact .nil
  | succ n ih =>
    rw [csdGo_succ, List.pairwise_append]
    refine ⟨ih _ _, ?_, fun d hd e he => ?_⟩
    · unfold csdLast; split <;> simp
    · unfold csdLast at he
      split at he
      · obtain rfl := List.mem_singleton.mp he
        have heven : csdNext x % 2 = 0 := by unfold csdNext; split <;> omega
        have := le_of_mem_csdGo hd
        dsimp only; omega
      · cases he

/-- A magnitude of up to 2^k has a digit for each two places; an even one starts a place later. -/
theorem length_csdGo_le {n x k : Nat} (h : x ≤ 2 ^ k) (pos : Nat) :
    (csdGo n x pos []).length ≤ (k + 1) / 2 + if x % 2 = 1 ∧ k % 2 = 0 then 1 else 0 := by
  induction n generalizing x k pos with
  | zero => exact Nat.zero_le _
  | succ n ih =>
    rw [csdGo_succ, List.length_append]
    have hlast : (csdLast x pos).length = x % 2 := by unfold csdLast; split <;> simp <;> omega
    have heven : x % 2 = 1 → csdNext x % 2 = 0 := by unfold csdNext; split <;> omega
    rw [hlast]
    cases k with
    | zero =>
      have hnext : csdNext x ≤ 2 ^ 0 ∧ csdNext x % 2 = 0 := by unfold csdNext; split <;> omega
      have := ih hnext.1 (pos + 1)
      rw [if_neg (by omega)] at this
      split <;> omega
    | succ k =>
      have hpow : 2 ^ (k + 1) = 2 * 2 ^ k := pow_succ' 2 k
      have hnext : csdNext x ≤ 2 ^ k := by unfold csdNext; split <;> omega
      have := ih hnext (pos + 1)
      split at this <;> split <;> omega

theorem lt_two_pow_bitLen (m : Nat) : m < 2 ^ bitLen m := by
  unfold bitLen
  split
  · next h => simp [h]
  · exact Nat.lt_log2_self

end Sys2Proof.Machine

open Sys2Proof.Machine

/-- Settles O25, by where the sum and the value stand to the 56 and the 48 bits. -/
theorem i48AddAndRead : Obligations.I48AddAndRead := by
  unfold Obligations.I48AddAndRead
  intro w v x e hw
  rw [accAdd_i48 hw, accRead_i48 hw, i48Pack_intCast, i48Range_intCast]
  refine ⟨fun hlo hhi => ?_, fun h => ?_, fun h => ?_, fun hlo hhi => ?_, fun h => ?_, fun h => ?_⟩
  · obtain ⟨hext, htag⟩ := i48Ext_pack_of_mem hlo hhi
    rw [if_pos ⟨hlo, hhi⟩, htag]
    exact ⟨hext, rfl⟩
  · rw [if_neg (by omega), if_neg (by omega)]
    exact ⟨by decide, by decide, by decide⟩
  · rw [if_neg (by omega), if_pos (by omega)]
    exact ⟨by decide, by decide, by decide⟩
  · rw [if_pos ⟨hlo, hhi⟩]
    rfl
  · rw [if_neg (by omega), extMul_pow2_infOf, decide_eq_false (by omega)]
    rfl
  · rw [if_neg (by omega), extMul_pow2_infOf, decide_eq_true (by omega)]
    rfl

/-- Settles O28, by induction on the places. -/
theorem signedDigitsDenoteTheMagnitude : Obligations.SignedDigitsDenoteTheMagnitude := by
  unfold Obligations.SignedDigitsDenoteTheMagnitude
  intro m
  refine ⟨?_, pairwise_csdGo _ _ _, fun n hn => ?_⟩
  · have h : 2 * m ≤ 2 ^ (bitLen m + 1) := by
      have := lt_two_pow_bitLen m
      rw [pow_succ']; omega
    rw [csd, digitsVal_csdGo h, pow_zero, mul_one]
  · have := length_csdGo_le (n := bitLen m + 1) hn.le 0
    rw [csd]
    split at this <;> omega

end

section
/-!
The step and the state after reset (R460, R520), and what stands in records, rows and rings: the fields of a reply and of a
log entry (R329, R498), a committed bench row (R151), the status ring after a reply (R308, R333), and the violation log after
an entry (R499, R500).
-/

namespace Sys2Proof.Machine

/-! ### Fields of a record -/

theorem bits_eq_div_mod (w lo n : Nat) : bits w lo n = w / 2 ^ lo % 2 ^ n := by
  rw [bits, Nat.shiftRight_eq_div_pow]

/-- The number that a reply is: every field at its place, below the next one's. -/
theorem replyWord_toNat {q tag dup st fl code addr kind remote : Nat} (hq : q < 64) (htag : tag < 8192) (hdup : dup < 2)
    (hst : st < 256) (hfl : fl < 256) (hcode : code < 256) (haddr : addr < 2 ^ 48) (hkind : kind < 4) (hremote : remote < 64) :
    (replyWord q tag dup st fl code addr kind remote).toNat
      = tag + dup * 2 ^ 13 + st * 2 ^ 16 + fl * 2 ^ 24 + code * 2 ^ 32 + q * 2 ^ 40 + (if kind = 0 then 0 else addr) * 2 ^ 64
        + kind * 2 ^ 112 + (if kind = 3 then remote else 0) * 2 ^ 120 := by
  have ha : (if kind = 0 then 0 else addr) < 2 ^ 48 := by split <;> omega
  have hr : (if kind = 3 then remote else 0) < 64 := by split <;> omega
  rw [replyWord, BitVec.toNat_ofNat, Nat.mod_eq_of_lt hq, Nat.mod_eq_of_lt htag, Nat.mod_eq_of_lt hdup, Nat.mod_eq_of_lt hst,
    Nat.mod_eq_of_lt hfl, Nat.mod_eq_of_lt hcode, Nat.mod_eq_of_lt haddr, Nat.mod_eq_of_lt (hkind.trans (by decide)),
    Nat.mod_eq_of_lt hremote]
  generalize (if kind = 0 then 0 else addr) = a at ha ⊢
  generalize (if kind = 3 then remote else 0) = r at hr ⊢
  exact Nat.mod_eq_of_lt (by omega)

/-- The number that a log entry is. -/
theorem logWord_toNat (time : BitVec 64) {x : LogRec} (haddr : x.addr < 2 ^ 48) (hkind : x.kind < 16) (hcode : x.code < 256)
    (hsource : x.source < 8) (hfunc : x.func < 32) (hqueue : x.queue < 64) (hremote : x.remote < 64) (htag : x.tag < 8192)
    (hopcode : x.opcode < 256) (hdetail : x.detail < 2 ^ 32) :
    (logWord time x).toNat
      = time.toNat + x.addr * 2 ^ 64 + x.kind * 2 ^ 112 + x.code * 2 ^ 120 + x.source * 2 ^ 128 + x.func * 2 ^ 136
        + x.queue * 2 ^ 144 + x.remote * 2 ^ 152 + x.tag * 2 ^ 160 + x.opcode * 2 ^ 176 + x.detail * 2 ^ 192 := by
  have htime := time.isLt
  rw [logWord, BitVec.toNat_ofNat, Nat.mod_eq_of_lt haddr, Nat.mod_eq_of_lt hkind, Nat.mod_eq_of_lt hcode,
    Nat.mod_eq_of_lt hsource, Nat.mod_eq_of_lt hfunc, Nat.mod_eq_of_lt hqueue, Nat.mod_eq_of_lt hremote,
    Nat.mod_eq_of_lt htag, Nat.mod_eq_of_lt hopcode, Nat.mod_eq_of_lt hdetail]
  exact Nat.mod_eq_of_lt (by omega)

/-! ### Bench rows -/

theorem memByte_rowCommit {s : State} (h : memWf s.mems.dev = true) (row off a : Nat) (bytes : List Byte) :
    memByte (rowCommit s row off bytes).mems.dev a
      = if row + off ≤ a ∧ a < row + off + bytes.length then bytes.getD (a - (row + off)) 0#8
        else if row ≤ a ∧ a < row + 512 then 0#8 else memByte s.mems.dev a := by
  rw [rowCommit, memByte_memWrite _ _ _ (memWf_memClear _ _ h), memByte_memClear]

/-! ### Interrupts and the log -/

/-- An interrupt is a message that goes out, or a pending bit. -/
theorem raiseMsix_eq (s : State) (fn v : Nat) : raiseMsix s fn v
    = { s with pcie := { s.pcie with pba := (raiseMsix s fn v).pcie.pba }, out := (raiseMsix s fn v).out } := by
  unfold raiseMsix
  split <;> rfl

/-- A device event is its bit, and an interrupt. -/
theorem setDevEvent_eq (s : State) (m : BitVec 4) : setDevEvent s m
    = { s with
        glob := { s.glob with devEvent := s.glob.devEvent ||| m }
        pcie := { s.pcie with pba := (setDevEvent s m).pcie.pba }, out := (setDevEvent s m).out } := by
  unfold setDevEvent
  dsimp only
  split
  · rfl
  · rw [raiseMsix_eq]

/-- What an entry leaves of the log. -/
def loggedFaults (s : State) (x : LogRec) : Faults :=
  if s.faults.vFill = 256 then { s.faults with lost := satInc s.faults.lost }
  else { s.faults with
    vlog := tput 0#256 s.faults.vlog s.faults.vTail.toNat (logWord s.glob.timestamp x)
    vTail := s.faults.vTail + 1#8, vFill := s.faults.vFill + 1 }

/-- An entry touches the log, the event of a lost one, and an interrupt. -/
theorem vlogAdd_eq (s : State) (x : LogRec) : vlogAdd s x
    = { s with
        faults := loggedFaults s x
        glob := { s.glob with devEvent := (vlogAdd s x).glob.devEvent }
        pcie := { s.pcie with pba := (vlogAdd s x).pcie.pba }, out := (vlogAdd s x).out } := by
  unfold vlogAdd loggedFaults
  split
  · dsimp only
    split
    · rw [setDevEvent_eq]
    · rfl
  · dsimp only
    split
    · rw [raiseMsix_eq]
    · rfl

theorem vlogAdd_faults (s : State) (x : LogRec) : (vlogAdd s x).faults = loggedFaults s x := by rw [vlogAdd_eq]

/-! ### The status ring -/

/-- The queue as a reply of status `st` leaves it (R308, R333). -/
def afterReply (v : Queue) (st : Nat) : Queue :=
  let wrap := v.stqTail.toNat + 1 = 2 ^ v.stqLog2.toNat
  { v with
    stqTail := if wrap then 0#16 else v.stqTail + 1#16
    phase := if wrap then !v.phase else v.phase
    halted := v.halted || (v.haltOnErr && decide (0x10 ≤ st)) }

theorem getQ_of_head_eq {s t : State} (h : t.head = s.head) (q : Nat) : getQ t q = getQ s q := by
  simp only [getQ, h]

/-- A reply changes the pointers of its own queue, whatever ring it is written to. -/
theorem getQ_writeReply (s : State) (q : Nat) (w : BitVec 128) (irq : Bool) (p : Nat) :
    getQ (writeReply s q w irq) p = if q = p then afterReply (getQ s q) (bits w.toNat 16 8) else getQ s p := by
  have hring (b : Bool) (a : Nat) (bytes : List Byte) (fn : Nat) :
      (if b then ringWrite s a bytes else hostWrite s fn a bytes false).head = s.head := by
    split
    · exact ringWrite_head s a bytes
    · rfl
  unfold writeReply
  dsimp only
  split
  · rw [getQ_of_head_eq (raiseMsix_head _ _ _), getQ_setQ, getQ_of_head_eq (hring _ _ _ _)]
    rfl
  · rw [getQ_setQ, getQ_of_head_eq (hring _ _ _ _)]
    rfl

end Sys2Proof.Machine

open Sys2Proof Sys2Proof.Machine

/-- Settles O1, by the two cases of `step`. -/
theorem stepRunsFrontCommand : Obligations.StepRunsFrontCommand := by
  unfold Obligations.StepRunsFrontCommand
  intro c rest s h
  rw [step, h]

/-- Settles O2, by the two cases of `step` and of `idle`. -/
theorem emptyQueueCountsTime : Obligations.EmptyQueueCountsTime := by
  unfold Obligations.EmptyQueueCountsTime
  intro s h
  have hidle : step s = .next (idle s) := by rw [step, h]
  exact ⟨fun hup => hidle.trans (congrArg _ (if_pos hup)), fun hup => hidle.trans (congrArg _ (if_neg (by simp [hup])))⟩

/-- Settles O7, by what `State.reset` holds: its tables are empty. -/
theorem resetState : Obligations.ResetState := by
  unfold Obligations.ResetState
  refine ⟨⟨rfl, rfl⟩, ?_, rfl, fun _ => rfl, fun _ => rfl, fun _ _ => rfl, fun _ => rfl, fun _ => rfl, fun _ => ⟨rfl, rfl⟩,
    fun _ => rfl, rfl, rfl, rfl, rfl, rfl, rfl⟩
  rintro vs ⟨⟩

/-- Settles O9: no field of a record reaches into the next one's bits. -/
theorem recordFieldsReadBack : Obligations.RecordFieldsReadBack := by
  unfold Obligations.RecordFieldsReadBack
  constructor
  · intro q tag dup st fl code addr kind remote hq htag hdup hst hfl hcode haddr hkind hremote
    simp only [replyWord_toNat hq htag hdup hst hfl hcode haddr hkind hremote, bits_eq_div_mod]
    have ha : (if kind = 0 then 0 else addr) < 2 ^ 48 := by split <;> omega
    have hr : (if kind = 3 then remote else 0) < 64 := by split <;> omega
    generalize (if kind = 0 then 0 else addr) = a at ha ⊢
    generalize (if kind = 3 then remote else 0) = r at hr ⊢
    omega
  · intro time x haddr hkind hcode hsource hfunc hqueue hremote htag hopcode hdetail
    have htime := time.isLt
    simp only [logWord_toNat time haddr hkind hcode hsource hfunc hqueue hremote htag hopcode hdetail,
      bits_eq_div_mod]
    omega

/-- Settles O16, by what a reply leaves of its queue. -/
theorem replyAdvancesTheRing : Obligations.ReplyAdvancesTheRing := by
  unfold Obligations.ReplyAdvancesTheRing
  intro q s w irq v u
  have hu : u = afterReply v (bits w.toNat 16 8) := (getQ_writeReply s q w irq q).trans (if_pos rfl)
  rw [hu, afterReply]
  refine ⟨fun h => ?_, fun h => ?_, fun hhalt hst => ?_, fun h => ?_, fun p hp => ?_, writeReply_head_ops s q w irq,
    fun t ht => ?_⟩
  · simp [h]
  · simp [h]
  · simp [hhalt, hst]
  · obtain hhalt | hst := h
    · simp [hhalt]
    · simp [not_le.mpr hst]
  · rw [getQ_writeReply, if_neg hp.symm]
  · simp [mayAccept, acceptable, ht]

/-- Settles O24, by what a commit leaves of a byte. -/
theorem shortRowWriteIsZeroFilled : Obligations.ShortRowWriteIsZeroFilled := by
  unfold Obligations.ShortRowWriteIsZeroFilled
  intro s row off a bytes hs hlen t
  simp only [t, memByte_rowCommit hs.1]
  refine ⟨fun hlo hhi => ?_, fun hlo hhi hout => ?_, fun hout => ?_⟩
  · rw [if_pos ⟨hlo, hhi⟩]
  · rw [if_neg (by omega), if_pos ⟨hlo, hhi⟩]
  · rw [if_neg (by omega), if_neg (by omega)]

/-- Settles O54, by whether the log is full. -/
theorem violationLogRing : Obligations.ViolationLogRing := by
  unfold Obligations.ViolationLogRing
  intro s x hfill hring t
  have hf : t.faults = loggedFaults s x := vlogAdd_faults s x
  have ht : t = vlogAdd s x := rfl
  refine ⟨fun h => ?_, fun h => ?_, ?_, ?_, ?_, ?_, ?_, ?_, ?_⟩
  · rw [hf, loggedFaults, if_neg h.ne]
    exact ⟨rfl, rfl, (tget_tput _ _ _ _ _).trans (if_pos rfl), fun i hi => (tget_tput _ _ _ _ _).trans (if_neg hi.symm), rfl⟩
  · rw [hf, loggedFaults, if_pos h]
    exact ⟨h, rfl, rfl, rfl⟩
  · rw [hf, loggedFaults]
    split
    · exact hfill
    · exact Nat.lt_of_le_of_ne hfill ‹_›
  · rw [hf, loggedFaults]
    split
    · exact hring
    · dsimp only
      rw [hring, BitVec.add_assoc]
      congr 1
      exact (BitVec.ofNat_add ..).symm
  all_goals rw [ht, vlogAdd_eq]

/-- Settles O34, by where the power asked for stands to the two limits. -/
theorem powerCapIsClamped : Obligations.PowerCapIsClamped := by
  unfold Obligations.PowerCapIsClamped
  intro s o h x
  refine ⟨fun hlt => ?_, fun hgt => ?_, fun hlo hhi => ?_, rfl, rfl, rfl, rfl, rfl⟩
  · have hcap : max 190 (min 450 (pcWatts o)) = 190 := by omega
    exact ⟨congrArg (BitVec.ofNat 16) hcap, by simp [x, powerCapBody, setCap, flagIf, hlt]⟩
  · have hcap : max 190 (min 450 (pcWatts o)) = 450 := by omega
    exact ⟨congrArg (BitVec.ofNat 16) hcap, by simp [x, powerCapBody, setCap, flagIf, hgt]⟩
  · have hcap : max 190 (min 450 (pcWatts o)) = pcWatts o := by omega
    refine ⟨?_, by simp [x, powerCapBody, setCap, flagIf, not_lt.mpr hlo, not_lt.mpr hhi]⟩
    simp only [x, powerCapBody, setCap, hcap, BitVec.toNat_ofNat]
    exact Nat.mod_eq_of_lt (by omega)

end

section
/-!
The life of a command, beyond its refusals: acceptance of a packet whose tag is free (R307, R314, R327, R409), what holds a
start back (R311, R318, R319, R324), a start after its last check (R313, R315), and completion (R308, R316, R317).
-/

namespace Sys2Proof.Machine

/-! ### Acceptance (R307, R327, R409) -/

section
variable {q w : Nat} {h : HostReply} {s t : State} (ha : mayAccept (heard s q h) q = true)
  (hr : readPacket (heard s q h) q h = (t, .ok w))
include ha hr

theorem execPacketAccept_of_tag_free (hrel : relayOf (heard s q h) q = none)
    (hf : (findOp (passHead t q) q (bits w 8 13)).isSome = false) :
    exec (.packetAccept q h) s
      = .next (enterOp (passHead t q) { mkOp q w with relayed := headRelayed (heard s q h) q } h) := by
  show execPacketAccept q h s = _
  simp only [heard] at ha hrel hr
  simp [execPacketAccept, ha, hrel, readThenTake_of_readPacket _ hr, hf, heard]

theorem execPacketAccept_of_relay {r : Relay} (hrel : relayOf (heard s q h) q = some r) :
    exec (.packetAccept q h) s = .next (relaySend (passHead t q) r w) := by
  show execPacketAccept q h s = _
  simp only [heard] at ha hrel hr
  simp [execPacketAccept, ha, hrel, readThenTake_of_readPacket _ hr]

end

/-! ### An operation as its descriptor stands in memory now -/

/-- The start of an operation fills in its descriptor: its queue, tag and packet stay. -/
def SameKey (p o : Op) : Prop := p.q = o.q ∧ p.tag = o.tag ∧ p.packet = o.packet

theorem SameKey.refl (o : Op) : SameKey o o := ⟨rfl, rfl, rfl⟩

theorem SameKey.trans {a b c : Op} (h : SameKey a b) (h' : SameKey b c) : SameKey a c :=
  ⟨h.1.trans h'.1, h.2.1.trans h'.2.1, h.2.2.trans h'.2.2⟩

theorem peeked_same (s : State) (o : Op) (h : HostReply) : SameKey (peeked s o h) o ∧ (peeked s o h).phase = o.phase := by
  unfold peeked
  split
  · exact ⟨.refl o, rfl⟩
  · split <;> exact ⟨⟨rfl, rfl, rfl⟩, rfl⟩

@[simp] theorem peeked_q (s : State) (o : Op) (h : HostReply) : (peeked s o h).q = o.q := (peeked_same s o h).1.1

@[simp] theorem peeked_packet (s : State) (o : Op) (h : HostReply) : (peeked s o h).packet = o.packet :=
  (peeked_same s o h).1.2.2

@[simp] theorem peeked_phase (s : State) (o : Op) (h : HostReply) : (peeked s o h).phase = o.phase := (peeked_same s o h).2

@[simp] theorem opCode_peeked (s : State) (o : Op) (h : HostReply) : opCode (peeked s o h) = opCode o := by
  simp only [opCode, peeked_packet]

@[simp] theorem pFence_peeked (s : State) (o : Op) (h : HostReply) : pFence (peeked s o h) = pFence o := by
  simp only [pFence, peeked_packet]

/-! ### Wait entries (R311, R324) -/

theorem waitHolds_of_head_eq {s t : State} (h : t.head = s.head) (o : Op) (i : Nat) : waitHolds t o i = waitHolds s o i := by
  have hg : getTally t = getTally s := funext fun j => by simp only [getTally, h]
  unfold waitHolds
  rw [hg]

theorem waitsHold_of_head_eq {s t : State} (h : t.head = s.head) (o : Op) : waitsHold t o = waitsHold s o := by
  have hw : waitHolds t o = waitHolds s o := funext (waitHolds_of_head_eq h o)
  simp only [waitsHold, hw]

@[simp] theorem waitsHold_peeked (m s : State) (o : Op) (h : HostReply) : waitsHold m (peeked s o h) = waitsHold m o := by
  have hentry : waitEntry (peeked s o h) = waitEntry o := funext fun i => by simp only [waitEntry, peeked_packet]
  have hn : pNWait (peeked s o h) = pNWait o := by simp only [pNWait, peeked_packet]
  have hany : pWaitAny (peeked s o h) = pWaitAny o := by simp only [pWaitAny, peeked_packet]
  have hw : waitHolds m (peeked s o h) = waitHolds m o := funext fun i => by
    unfold waitHolds
    rw [hentry]
  unfold waitsHold
  rw [hn, hany, hw]

theorem earlier_of_head_eq {s t : State} (h : t.head = s.head) (o : Op) : earlier t o = earlier s o := by
  simp only [earlier, h]

/-- Without `wait_any` every entry holds. -/
theorem waitHolds_of_waitsHold_all {s : State} {o : Op} (h : waitsHold s o = true) (hany : pWaitAny o = false) {i : Nat}
    (hi : i < pNWait o) : waitHolds s o i = true := by
  simp only [waitsHold, hany, Bool.false_and, Bool.false_eq_true, if_false, List.all_eq_true, List.mem_range] at h
  exact h i hi

/-- With `wait_any` some entry holds. -/
theorem exists_waitHolds_of_waitsHold_any {s : State} {o : Op} (h : waitsHold s o = true) (hany : pWaitAny o = true)
    (hn : pNWait o ≠ 0) : ∃ i, i < pNWait o ∧ waitHolds s o i = true := by
  simpa [waitsHold, hany, hn] using h

theorem waitHolds_ge {s : State} {o : Op} {i : Nat} (h : waitHolds s o i = true) (hop : bits (waitEntry o i) 16 2 = 0) :
    (getTally s (bits (waitEntry o i) 0 12) - BitVec.ofNat 32 (bits (waitEntry o i) 32 32)).toNat < 2 ^ 31 := by
  simpa only [waitHolds, hop, decide_eq_true_eq] using h

theorem waitHolds_eq {s : State} {o : Op} {i : Nat} (h : waitHolds s o i = true) (hop : bits (waitEntry o i) 16 2 = 1) :
    getTally s (bits (waitEntry o i) 0 12) = BitVec.ofNat 32 (bits (waitEntry o i) 32 32) := by
  simpa only [waitHolds, hop, beq_iff_eq] using h

/-! ### What a start shows (R314, R318) -/

/-- A row of a start that answers a next state was let start. -/
theorem mayStart_of_execCommandStart {r : OpRef} {s t : State} {o : Op} (hf : findOp s r.q r.tag = some o)
    (h : exec (.commandStart r) s = .next t) : mayStart (heard s r.q r.host) o r.host = true := by
  have hf' : findOp (heard s r.q r.host) r.q r.tag = some o := (findOp_of_head_eq (mergeHost_head s _ _) _ _).trans hf
  by_contra hm
  have hx : execCommandStart r s = notNow := by
    unfold execCommandStart
    simp only [heard] at hf' hm
    simp only [hf', Bool.not_eq_true] at hm ⊢
    rw [hm]
    rfl
  exact absurd (hx.symm.trans h) nofun

/-- What `startable` asks, and of the earlier operations of its own queue. -/
theorem startable_asks {s : State} {o : Op} {h : HostReply} (hs : startable s o h = true) :
    o.phase = .accepted ∧ waitsHold s o = true
      ∧ ∀ p ∈ earlier s o, p.q = o.q → heldBySame s (peeked s p h) (peeked s o h) = false := by
  simp only [startable, Bool.and_eq_true, beq_iff_eq, List.all_eq_true, List.mem_map, Bool.not_eq_true'] at hs
  obtain ⟨⟨⟨⟨hphase, hwait⟩, -⟩, hbefore⟩, -⟩ := hs
  refine ⟨hphase, hwait, fun p hp hq => ?_⟩
  have hheld := (hbefore _ ⟨p, hp, rfl⟩).1
  rwa [if_pos (by simpa using hq)] at hheld

/-- The reasons for which an earlier operation of the same queue holds one back. -/
theorem heldBySame_eq_false {s : State} {p o : Op} (h : heldBySame s p o = false) :
    pFence o = false ∧ opCode o ≠ 0x52 ∧ opCode p ≠ 0x52
      ∧ (classOf (opCode p) = classOf (opCode o) → p.phase ≠ .accepted)
      ∧ (opCode p = 0x50 → p.phase = .accepted → waitsHold s p = true) ∧ setsHold s p o = false := by
  simp only [heldBySame, Bool.or_eq_false_iff] at h
  obtain ⟨⟨⟨⟨⟨⟨hclass, hfence⟩, ho⟩, hp⟩, hwait⟩, hsets⟩, -⟩ := h
  refine ⟨hfence, by simpa using ho, by simpa using hp, fun hc ha => ?_, fun hc ha => ?_, hsets⟩
  · simp [hc, ha] at hclass
  · simpa [hc, ha] using hwait

/-! ### What a start leaves of its operation (R313, R315) -/

@[simp] theorem readAll_head (s : State) (rs : List (Nat × Nat)) : (readAll s rs).1.head = s.head := by
  induction rs generalizing s with
  | nil => rfl
  | cons x rest ih =>
    have hg := guardUnits_head s (unitsOf x.1 x.2)
    simp only [readAll]
    split
    · rfl
    · split
      · next h => rwa [h] at hg
      · next h =>
        rw [h] at hg
        refine (ih _).trans ?_
        split
        · exact (countHbm_head _ _ _).trans hg
        · exact hg

@[simp] theorem readPtr_head (s : State) (o : Op) (h : HostReply) (host : Bool) (a n : Nat) :
    (readPtr s o h host a n).1.head = s.head := by
  have hr := readAll_head s [(a, n)]
  unfold readPtr
  split
  · split <;> rfl
  · split
    · next hx => rwa [hx] at hr
    · next hx => rwa [hx] at hr

@[simp] theorem useCores_head (s : State) (ws : List CoreWord) : (useCores s ws).1.head = s.head := by
  induction ws generalizing s with
  | nil => rfl
  | cons w ws ih =>
    simp only [useCores]
    split
    · exact useCore_head s w
    · exact (ih _).trans (useCore_head s w)

/-- A start under way: the headstock's section stands as it did, and the operation has kept its queue, tag and packet. -/
def Start.Follows (x : Start) (s : State) (o : Op) : Prop := x.s.head = s.head ∧ ∀ p, x.res = .ok p → SameKey p o

variable {x : Start} {s : State} {o : Op}

theorem Start.Follows.check (hx : x.Follows s o) (c : State → Op → Chk) : (x.check c).Follows s o := by
  unfold Start.check
  split
  · exact hx
  · split
    · exact ⟨hx.1, nofun⟩
    · exact hx

theorem Start.Follows.read (hx : x.Follows s o) (h : HostReply) (want : Op → Option (Bool × Nat × Nat)) {put : Op → Nat → Op}
    (hput : ∀ p w, SameKey (put p w) p) : (x.read h want put).Follows s o := by
  unfold Start.read
  split
  · exact hx
  · next p hp =>
    split
    · exact hx
    · next host a n _ =>
      have hr := (readPtr_head x.s p h host a n).trans hx.1
      split
      · next heq => rw [heq] at hr; exact ⟨hr, nofun⟩
      · next w heq =>
        rw [heq] at hr
        refine ⟨hr, fun p' hp' => ?_⟩
        obtain rfl : put p w = p' := by simpa using hp'
        exact (hput p w).trans (hx.2 p hp)

theorem Start.Follows.core (hx : x.Follows s o) (ws : State → Op → List CoreWord) : (x.core ws).Follows s o := by
  unfold Start.core
  split
  · exact hx
  · next p hp =>
    have hr := (useCores_head x.s (ws x.s p)).trans hx.1
    split
    · next heq => rw [heq] at hr; exact ⟨hr, nofun⟩
    · next heq => rw [heq] at hr; exact ⟨hr, fun p' hp' => hx.2 p' (hp.trans hp')⟩

theorem Start.Follows.headers (hx : x.Follows s o) : x.headers.Follows s o := by
  unfold Start.headers
  split
  · exact hx
  · next p hp =>
    have hr := (readAll_head x.s (if formD (opCode p) then headerRanges p else [])).trans hx.1
    split
    · next heq => rw [heq] at hr; exact ⟨hr, nofun⟩
    · next heq => rw [heq] at hr; exact ⟨hr, fun p' hp' => hx.2 p' (hp.trans hp')⟩

theorem startOp_follows (s : State) (o : Op) (h : HostReply) : (startOp s o h).Follows s o := by
  have hbegin : Start.Follows ⟨s, 0#8, .ok (withDefaults s o)⟩ s o := by
    refine ⟨rfl, fun p hp => ?_⟩
    obtain rfl : withDefaults s o = p := by simpa using hp
    exact ⟨withDefaults_q s o, withDefaults_tag s o, withDefaults_packet s o⟩
  have hdesc := ((((((hbegin.core fun _ o => coreOfPacket o).check checkPacket).check checkRelayed).check
    fun _ o => if formD (opCode o) then checkDescPtr o else .ok ()).read h
    (fun o => if formD (opCode o) then some (descHost o, descPtr o, 256) else none)
    (put := fun o w => { o with desc := w }) fun _ _ => ⟨rfl, rfl, rfl⟩).check
    fun _ o => if formD (opCode o) then checkDescReserved o else .ok ()).check
    fun s o => if formD (opCode o) then checkRelayed s o else .ok ()
  have haux := (hdesc.check fun _ o => if formD (opCode o) then checkAuxPtr o else .ok ()).read h
    (fun o => if formD (opCode o) && fAuxMask o ≠ 0 then some (fAuxHost o, fAuxPtr o, 256) else none)
    (put := fun o w => { o with aux := w }) fun _ _ => ⟨rfl, rfl, rfl⟩
  have hcount := (haux.check fun _ o => if formD (opCode o) && readsM o then checkMPtr o else .ok ()).read h
    (fun o => if formD (opCode o) && readsM o then some (false, fMPtr o, 4) else none)
    (put := fun o w => { o with mCount := some w }) fun _ _ => ⟨rfl, rfl, rfl⟩
  exact (hcount.headers.check checkCommand).core coreOfCommand

/-! ### The last of a start -/

/-- A started collective may take a new place; the operations in flight stay, and so does its key. -/
theorem replaceColl_same (s : State) (o : Op) : (replaceColl s o).1.head.ops = s.head.ops ∧ SameKey (replaceColl s o).2 o := by
  unfold replaceColl
  split
  · exact ⟨rfl, .refl o⟩
  · unfold placeColl
    dsimp only
    split <;> exact ⟨rfl, ⟨rfl, rfl, rfl⟩⟩

theorem findOp_of_ops_eq {s t : State} (h : t.head.ops = s.head.ops) (q tag : Nat) : findOp t q tag = findOp s q tag := by
  simp only [findOp, h]

@[simp] theorem noteStart_head (s : State) (o : Op) : (noteStart s o).head = s.head := by
  unfold noteStart
  split <;> rfl

/-- The state in which a command has started, its flags joined with `f`. -/
def started (s : State) (p : Op) (f : BitVec 8) : State :=
  putOp (replaceColl s p).1 { (replaceColl s p).2 with phase := .started, flags := p.flags ||| f }

theorem findOp_started {s : State} {o p : Op} {q tag : Nat} (hf : findOp s q tag = some o) (hp : SameKey p o) (f : BitVec 8) :
    ∃ u, findOp (noteStart (started s p f) o) q tag = some u ∧ u.phase = .started ∧ u.packet = o.packet := by
  obtain ⟨hops, hkey⟩ := replaceColl_same s p
  obtain ⟨hq, htag, hpacket⟩ := hkey.trans hp
  refine ⟨_, (findOp_of_head_eq (noteStart_head _ o) q tag).trans
    (findOp_putOp_same ((findOp_of_ops_eq hops q tag).trans hf) ?_ ?_), rfl, ?_⟩
  · exact hq
  · exact htag
  · exact hpacket

theorem execCommandStart_of_startOp_ok {r : OpRef} {s : State} {o p : Op} (hf : findOp s r.q r.tag = some o)
    (hm : mayStart (heard s r.q r.host) o r.host = true) {x : Start}
    (hxe : startOp (takeService (heard s r.q r.host) r.q) o r.host = x) (hx : x.res = .ok p)
    (hpar : parityHit x.s p = none) (hdraw : (opDraws p && !opDraws o) = false)
    (hact : opCode o = 0x69 → s.firm.activating = none) :
    exec (.commandStart r) s = .next (noteStart (started x.s p x.flags) o) := by
  have hf' : findOp (heard s r.q r.host) r.q r.tag = some o := (findOp_of_head_eq (mergeHost_head s _ _) _ _).trans hf
  have hfirm : (heard s r.q r.host).firm = s.firm := by simp only [heard, mergeHost]; split <;> rfl
  have hfree : (decide (opCode o = 0x69) && (heard s r.q r.host).firm.activating.isSome) = false := by
    by_cases hc : opCode o = 0x69 <;> simp [hc, hfirm, hact]
  show execCommandStart r s = _
  simp only [heard] at hf' hm hxe hfree
  simp [execCommandStart, hf', hm, hxe, hx, hpar, hdraw, hfree, started, -Bool.and_eq_true]

/-! ### Completion (R308, R316, R317) -/

theorem findOp_delOp_same (s : State) (q tag : Nat) : findOp (delOp s q tag) q tag = none := by
  refine List.find?_eq_none.mpr fun o ho hk => ?_
  have hne := (List.mem_filter.mp ho).2
  simp_all

end Sys2Proof.Machine

open Sys2Proof Sys2Proof.Machine

/-- Settles O10, by whether the queue feeds a relay. -/
theorem acceptanceEntersThePacket : Obligations.AcceptanceEntersThePacket := by
  unfold Obligations.AcceptanceEntersThePacket
  intro q h s t w u ha hr
  exact ⟨execPacketAccept_of_tag_free ha hr, fun r => execPacketAccept_of_relay ha hr⟩

/-- Settles O12: the checks keep the headstock's section and the operation's key, so that the operation which starts is the
one that was accepted. -/
theorem startAfterEveryCheck : Obligations.StartAfterEveryCheck := by
  unfold Obligations.StartAfterEveryCheck
  intro r s o p hf hm x hx hpar hdraw hact
  obtain ⟨hhead, hkey⟩ := startOp_follows (takeService (heard s r.q r.host) r.q) o r.host
  have hfound : findOp x.s r.q r.tag = some o := by
    rw [← hf, findOp_of_head_eq hhead]
    simp [findOp, takeService, heard]
  obtain ⟨u, hu⟩ := findOp_started hfound (hkey p hx) x.flags
  exact ⟨_, u, execCommandStart_of_startOp_ok hf hm rfl hx hpar hdraw hact, hu⟩

/-- Settles O13, by what a start that was let start shows. -/
theorem startsAreOrdered : Obligations.StartsAreOrdered := by
  unfold Obligations.StartsAreOrdered
  intro r s t o hf hx m
  have hhead : (heard s r.q r.host).head = s.head := mergeHost_head s _ _
  have hmay := mayStart_of_execCommandStart hf hx
  simp only [mayStart, Bool.and_eq_true, List.all_eq_true, Bool.not_eq_true', List.any_eq_false, beq_iff_eq] at hmay
  obtain ⟨hstart, hturn⟩ := hmay
  obtain ⟨hphase, hwait, hheld⟩ := startable_asks hstart
  rw [waitsHold_of_head_eq hhead] at hwait
  refine ⟨hphase, fun q hq p hp hpq => ?_, fun hany i => waitHolds_of_waitsHold_all hwait hany,
    exists_waitHolds_of_waitsHold_any hwait, fun i hi => ⟨waitHolds_ge hi, waitHolds_eq hi⟩, fun p hp hpq => ?_⟩
  · simpa [hpq, m] using hturn q (by rwa [← hhead] at hq) p hp
  · have h := heldBySame_eq_false (hheld p (by rwa [earlier_of_head_eq hhead]) hpq)
    simpa [waitsHold_of_head_eq hhead, m] using h

/-- Settles O15, by the cases of the two rows. -/
theorem completionReleasesTheTag : Obligations.CompletionReleasesTheTag := by
  unfold Obligations.CompletionReleasesTheTag
  constructor
  · intro r s o hf hphase hwait
    have hrow : exec (.commandComplete r) s
        = .next (if replyWaits (finishOp s o) r.q r.tag then finishOp s o else delOp (finishOp s o) r.q r.tag) := by
      show execCommandComplete r s = _
      simp [execCommandComplete, hf, hphase, hwait]
    exact ⟨fun h => ⟨by simp [hrow, h], findOp_delOp_same _ _ _⟩, fun h => by simp [hrow, h]⟩
  · intro q s w irq rest hdef hroom hbad written
    have hrow : exec (.replyWrite q) s
        = .next (endReset (if bit w.toNat 13 then written else delOp written q (bits w.toNat 0 13)) q) := by
      show execReplyWrite q s = _
      simp [execReplyWrite, hdef, hroom, hbad, written]
    exact ⟨fun h => by simp [hrow, h], fun h => by simp [hrow, h]⟩

end

section
/-!
The rows of a started command, by engine: the Matrix Engine's, whose accumulators are guarded first (R116, R118, R488, R489),
the Vector Engine's, the Copy Engine's (R427), and the headstock's, with the parts of a snapshot (R509 to R512).
-/

namespace Sys2Proof.Machine

/-! ### Rows that run a body -/

/-- Only four opcodes write host memory (R427). -/
theorem heldByD3_eq_false {s : State} {o : Op} {c : Nat} (h : opCode o = c) (h30 : c ≠ 0x30) (h35 : c ≠ 0x35) (h60 : c ≠ 0x60)
    (h64 : c ≠ 0x64) : heldByD3 s o = false := by
  subst h
  have hw : writesHost o = false := by
    unfold writesHost
    split
    · contradiction
    · contradiction
    · contradiction
    · contradiction
    · rfl
  simp [heldByD3, hw]

/-- A started command of any other opcode runs its body whatever the power states are. -/
theorem runBody_of_started_free {code : Nat} {body : State → Op → HostReply → Res} {r : OpRef} {s : State} {o : Op}
    (h : Started s r code o) (h30 : code ≠ 0x30 := by decide) (h35 : code ≠ 0x35 := by decide)
    (h60 : code ≠ 0x60 := by decide) (h64 : code ≠ 0x64 := by decide) :
    runBody code body r s = .next (ran body r s o) :=
  runBody_of_started h (heldByD3_eq_false h.2.2 h30 h35 h60 h64)

theorem runForm_of_started {form : Nat} {body : State → Op → HostReply → Res} {r : OpRef} {s : State} {o : Op}
    (h : Started s r 0x31 o) (hform : ccForm o = form) : runForm form body r s = .next (ran body r s o) := by
  simp [runForm, h.1, hform, runBody_of_started_free h]

theorem runQuota_of_started {op : Nat} {body : State → Op → HostReply → Res} {r : OpRef} {s : State} {o : Op}
    (h : Started s r 0x62 o) (hop : quOp o = op) : runQuota op body r s = .next (ran body r s o) := by
  simp [runQuota, h.1, hop, runBody_of_started_free h]

theorem runFence_of_started {fence : Bool} {body : State → Op → HostReply → Res} {r : OpRef} {s : State} {o : Op}
    (h : Started s r 0x6B o) (hfence : isFence o = fence) : runFence fence body r s = .next (ran body r s o) := by
  simp [runFence, h.1, hfence, runBody_of_started_free h]

/-! ### The Matrix Engine's rows (R116, R118, R488) -/

@[simp] theorem rewindOn_head (s : State) (o : Op) : (rewindOn s o).head = s.head := rfl

@[simp] theorem rewindOn_mems (s : State) (o : Op) : (rewindOn s o).mems = s.mems := rfl

@[simp] theorem dropAcc_head (s : State) (i : Nat) (p : Nat → Bool) : (dropAcc s i p).head = s.head := rfl

@[simp] theorem dropBegun_head (s : State) (o : Op) : (dropBegun s o).head = s.head := by
  unfold dropBegun
  split
  · rfl
  · split
    iterate 4
      split
      · rfl
      · exact foldl_keeps State.head (fun t i => dropAcc_head t i _) _ _
    · exact foldl_keeps State.head (fun t i => dropAcc_head t i _) _ _
    · rfl

@[simp] theorem guardAcc_head (s : State) (ws : List (Nat × Nat)) : (guardAcc s ws).1.head = s.head := by
  induction ws generalizing s with
  | nil => rfl
  | cons x ws ih =>
    unfold guardAcc
    split
    · exact ih s
    · exact ih _
    · rfl

/-- With no error in the stores there is nothing to drop, and no accumulator word to guard. -/
theorem guardAcc_dropBegun_of_no_upsets {s : State} {o : Op} (h : s.mems.upsets = []) :
    guardAcc (dropBegun s o) (accMet s o) = (s, 0#8, none) := by
  simp [dropBegun, accMet, guardAcc, h]

/-- Whether the open sets are what a Matrix Engine command asks for (R116, R118); an empty command asks for none. -/
def setsFor (s : State) (o : Op) : Except Fail Unit := if o.mCount = some 0 then .ok () else checkSets s o

/-- The row once its accumulator words are guarded: the command ends on one that cannot be corrected, or its body runs. -/
def afterGuard (code : Nat) (body : State → Op → HostReply → Res) (r : OpRef) (o : Op) (x : State × BitVec 8 × Option (Nat × Nat)) :
    Out :=
  match x with
  | (s, f, some x) => .next (accEnd s o f x.1 x.2)
  | (s, f, none) => runBody code (fun s o h => let x := body s o h; { x with flags := f ||| x.flags }) r s

section
variable {code : Nat} {body : State → Op → HostReply → Res} {r : OpRef} {s : State} {o : Op} (h : Started s r code o)
include h

theorem runArray_of_sets_error {e : Fail} (he : setsFor (rewindOn s o) o = .error e) :
    runArray code body r s = .next (endFail (rewindOn s o) o 0#8 e) := by
  obtain ⟨hf, hp, hc⟩ := h
  simp only [setsFor] at he
  simp [runArray, hf, hp, hc, he]

theorem runArray_of_sets_ok (he : setsFor (rewindOn s o) o = .ok ()) :
    runArray code body r s
      = afterGuard code body r o (guardAcc (dropBegun (rewindOn s o) o) (accMet (rewindOn s o) o)) := by
  obtain ⟨hf, hp, hc⟩ := h
  simp only [setsFor] at he
  simp only [runArray, hf, hp, hc, he, ne_eq, not_true_eq_false, decide_false]
  rfl

end

/-- A Matrix Engine row completes, whatever the stores hold. -/
theorem arrayRow_of_runArray {c : Instr} {code : Nat} {body : State → Op → HostReply → Res} {r : OpRef} {s : State} {o : Op}
    (hrow : exec c s = runArray code body r s)
    (hfree : ∀ t, t.head = s.head → opCode o = code → heldByD3 t o = false) : ArrayRow c code body r s o := by
  intro h
  obtain ⟨hf, hp, hc⟩ := h
  have h : Started s r code o := ⟨hf, hp, hc⟩
  constructor
  · rw [Runs, hrow]
    cases he : setsFor (rewindOn s o) o with
    | error e => exact ⟨_, runArray_of_sets_error h he⟩
    | ok =>
      rw [runArray_of_sets_ok h he]
      have hg := (guardAcc_head (dropBegun (rewindOn s o) o) (accMet (rewindOn s o) o)).trans (dropBegun_head _ o)
      match hx : guardAcc (dropBegun (rewindOn s o) o) (accMet (rewindOn s o) o) with
      | (_, _, some _) => exact ⟨_, rfl⟩
      | (t, f, none) =>
        rw [hx] at hg
        have ht : Started t r code o := ⟨(findOp_of_head_eq hg _ _).trans hf, hp, hc⟩
        rw [afterGuard]
        exact ⟨_, runBody_of_started ht (hfree t hg hc)⟩
  · intro hups
    have hrun (he : setsFor (rewindOn s o) o = .ok ()) : exec c s = .next (ran body r (rewindOn s o) o) := by
      have ht : Started (rewindOn s o) r code o := ⟨hf, hp, hc⟩
      rw [hrow, runArray_of_sets_ok h he, guardAcc_dropBegun_of_no_upsets (s := rewindOn s o) hups, afterGuard,
        runBody_of_started ht (hfree _ rfl hc)]
      simp [ran]
    refine ⟨fun hor => hrun ?_, fun e hm he => ?_⟩
    · obtain hm | hok := hor
      · simp [setsFor, hm]
      · by_cases hm : o.mCount = some 0
        · simp [setsFor, hm]
        · simp [setsFor, hm, hok]
    · rw [hrow]
      exact runArray_of_sets_error h (by simp [setsFor, hm, he])

/-! ### The headstock's rows -/

/-- The started activation that is under way is the one its operation names. -/
theorem activator_of_started {r : OpRef} {s : State} {o : Op} (h : Started s r 0x69 o)
    (hact : s.firm.activating = some (r.q, r.tag)) : activator s = some o := by
  obtain ⟨hf, hp, hc⟩ := h
  simp only [findOp, List.find?_eq_some_iff_append] at hf
  obtain ⟨hkey, as, bs, hops, has⟩ := hf
  simp only [activator, hact, Option.bind_some, List.find?_eq_some_iff_append]
  refine ⟨by simpa [hp, hc] using hkey, as, bs, hops, fun a ha => ?_⟩
  have hno := has a ha
  simp_all

theorem execMgFwActivate_of_started {r : OpRef} {s : State} {o : Op} (h : Started s r 0x69 o)
    (hact : s.firm.activating = some (r.q, r.tag)) (b : Bool) :
    exec (.mgFwActivate r b) s = .next (activateRow s (some o) b) := by
  obtain ⟨hq, htag⟩ := findOp_key h.1
  show execMgFwActivate r b s = _
  simp [execMgFwActivate, hact, activator_of_started h hact, hq, htag]

theorem execMgFwActivate_alone {r : OpRef} {s : State} (hact : s.firm.activating.isSome = true) (hnone : activator s = none)
    (b : Bool) : exec (.mgFwActivate r b) s = .next (activateRow s none b) := by
  show execMgFwActivate r b s = _
  simp [execMgFwActivate, Option.isNone_iff_eq_none, Option.isSome_iff_ne_none.mp hact, hnone]

theorem execMgFwStage_of_started {r : OpRef} {s : State} {o : Op} (h : Started s r 0x68 o)
    (hdue : (stagesDue s).head? = some (r.q, r.tag)) : exec (.mgFwStage r) s = .next (ran stageBody r s o) := by
  obtain ⟨rest, hrest⟩ := List.head?_eq_some_iff.mp hdue
  show execMgFwStage r s = _
  simp [execMgFwStage, hrest, runBody_of_started_free h]

theorem execSySignal_of_started {r : OpRef} {s : State} {o : Op} (h : Started s r 0x51 o) :
    exec (.sySignal r) s = .next (endOk (applySignals s o) { o with signalled := true } 0#8) := by
  obtain ⟨hf, hp, hc⟩ := h
  show execSySignal r s = _
  simp [execSySignal, hf, hp, hc]

/-! ### Snapshots (R509 to R512) -/

section
variable {r : OpRef} {s : State} {o : Op}

theorem execSnapshotSave_whole (h : Started s r 0x64 o) (hs : snRestore o = false) (hj : snapOf s o.q o.tag = none)
    (hw : wayOf s o ≠ .peer) (hd : heldByD3 s o = false) : exec (.snapshotSave r) s = .next (ran saveBody r s o) := by
  have hrun := runBody_of_started (body := saveBody) h hd
  obtain ⟨hf, hp, hc⟩ := h
  show execSnapshotSave r s = _
  simp [execSnapshotSave, hf, hp, hc, hs, hj, hw, hrun]

theorem execSnapshotSave_begin (h : Started s r 0x64 o) (hs : snRestore o = false) (hj : snapOf s o.q o.tag = none)
    (hw : wayOf s o = .peer) : exec (.snapshotSave r) s = beginSave s o := by
  obtain ⟨hf, hp, hc⟩ := h
  show execSnapshotSave r s = _
  simp [execSnapshotSave, hf, hp, hc, hs, hj, hw]

theorem beginSave_runs (hb : pdOn s dBridge = true) (hr : s.fab.routesDue = false) (hcut : peerCut s o = none) :
    ∃ t, beginSave s o = .next t := by
  simp [beginSave, hb, hr, hcut]

theorem execSnapshotRestore_local (h : Started s r 0x64 o) (hs : snRestore o = true) (hw : wayOf s o ≠ .peer) :
    exec (.snapshotRestore r) s = .next (localPart s o ((snapOf s o.q o.tag).getD (newRestore o)) r.host) := by
  obtain ⟨hf, hp, hc⟩ := h
  show execSnapshotRestore r s = _
  cases hway : wayOf s o with
  | host => simp [execSnapshotRestore, hf, hp, hc, hs, hway]
  | own => simp [execSnapshotRestore, hf, hp, hc, hs, hway]
  | peer => exact absurd hway hw

theorem execSnapshotRestore_begin (h : Started s r 0x64 o) (hs : snRestore o = true) (hj : snapOf s o.q o.tag = none)
    (hw : wayOf s o = .peer) (hr : s.fab.routesDue = false) (hcut : peerCut s o = none) :
    exec (.snapshotRestore r) s
      = .next (beginPart (putOp s { o with phase := .waiting }) { o with phase := .waiting } (newRestore o)) := by
  obtain ⟨hf, hp, hc⟩ := h
  show execSnapshotRestore r s = _
  simp [execSnapshotRestore, hf, hp, hc, hs, hj, hw, beginRestore, hr, hcut]

variable {j : SnapJob} (hf : findOp s r.q r.tag = some o) (hp : o.phase = .waiting) (hc : opCode o = 0x64)
  (hj : snapOf s o.q o.tag = some j) (hw : wayOf s o = .peer)

include hf hp hc hj in
theorem execSnapshotSave_on (hs : snRestore o = false) : exec (.snapshotSave r) s = saveOn s o j := by
  show execSnapshotSave r s = _
  simp [execSnapshotSave, hf, hp, hc, hs, hj]

include hf hp hc hj hw in
theorem execSnapshotRestore_on (hs : snRestore o = true) : exec (.snapshotRestore r) s = restoreOn s o j := by
  show execSnapshotRestore r s = _
  simp [execSnapshotRestore, hf, hp, hc, hs, hj, hw]

theorem saveOn_runs (hx : xferOpen s o.q o.tag = false) : ∃ t, saveOn s o j = .next t := by
  simp only [saveOn, hx, Bool.false_eq_true, if_false]
  split
  · exact ⟨_, rfl⟩
  · split
    · split
      · exact ⟨_, rfl⟩
      · split <;> exact ⟨_, rfl⟩
    · exact ⟨_, rfl⟩

theorem restoreOn_runs (hx : xferOpen s o.q o.tag = false) : ∃ t, restoreOn s o j = .next t := by
  simp only [restoreOn, hx, Bool.false_eq_true, if_false]
  split
  · exact ⟨_, rfl⟩
  · split
    · split <;> exact ⟨_, rfl⟩
    · exact ⟨_, rfl⟩

end

theorem snapshotRows : SnapshotRows := by
  intro r s o
  refine ⟨fun h => ⟨execSnapshotSave_whole h, execSnapshotRestore_local h, fun hw hj hr hcut => ⟨fun hs hb => ?_, fun hs => ?_⟩⟩,
    fun j hf hp hc hj hw hx => ⟨fun hs => ?_, fun hs => ?_⟩⟩
  · have hrow := execSnapshotSave_begin h hs hj hw
    exact ⟨by rw [Runs, hrow]; exact beginSave_runs hb hr hcut, hrow⟩
  · exact execSnapshotRestore_begin h hs hj hw hr hcut
  · have hrow := execSnapshotSave_on hf hp hc hj hs
    exact ⟨by rw [Runs, hrow]; exact saveOn_runs hx, hrow⟩
  · have hrow := execSnapshotRestore_on hf hp hc hj hw hs
    exact ⟨by rw [Runs, hrow]; exact restoreOn_runs hx, hrow⟩

end Sys2Proof.Machine

open Sys2Proof Sys2Proof.Machine

/-- Settles O17: each row is `runArray`, and no Matrix Engine command writes host memory. -/
theorem matrixRowsComplete : Obligations.MatrixRowsComplete := by
  unfold Obligations.MatrixRowsComplete
  intro r s o
  refine ⟨?_, ?_, ?_, ?_, ?_, ?_, ?_, ?_⟩
  all_goals
    exact arrayRow_of_runArray rfl fun t _ hc => heldByD3_eq_false hc (by decide) (by decide) (by decide) (by decide)

/-- Settles O18: each row is `runBody`, and no Vector Engine command writes host memory. -/
theorem vectorRowsComplete : Obligations.VectorRowsComplete := by
  unfold Obligations.VectorRowsComplete
  intro r s o
  refine ⟨?_, ?_, ?_, ?_, ?_, ?_, ?_, ?_, ?_, ?_, ?_, ?_⟩
  all_goals exact fun h => runBody_of_started_free h

/-- Settles O19: each row is `runBody`, and of the Copy Engine's commands only the copy and the fill write host memory. -/
theorem copyRowsComplete : Obligations.CopyRowsComplete := by
  unfold Obligations.CopyRowsComplete
  intro r s o
  exact ⟨fun h hd => runBody_of_started h hd, fun h hform => runForm_of_started h hform,
    fun h hform => runForm_of_started h hform, fun h hform => runForm_of_started h hform,
    fun h hform => runForm_of_started h hform, fun h => runBody_of_started_free h, fun h => runBody_of_started_free h,
    fun h => runBody_of_started_free h, fun h hd => runBody_of_started h hd⟩

/-- Settles O32, row by row: most are `runBody`, and the others are cases of their own definitions. -/
theorem headstockRowsComplete : Obligations.HeadstockRowsComplete := by
  unfold Obligations.HeadstockRowsComplete
  refine ⟨snapshotRows, fun r s o => ⟨fun h => runBody_of_started_free h, execSySignal_of_started,
    fun h => runBody_of_started_free h, fun h => runBody_of_started_free h, fun h => runBody_of_started_free h,
    fun h => runBody_of_started_free h, fun h hd => runBody_of_started h hd,
    fun h hop => runQuota_of_started h hop, fun h hop => runQuota_of_started h hop, fun h hop => runQuota_of_started h hop,
    fun h hop => runQuota_of_started h hop, fun h hop => runQuota_of_started h hop, fun h hop => runQuota_of_started h hop,
    fun h hop => runQuota_of_started h hop, fun h => runBody_of_started_free h, fun h => runBody_of_started_free h,
    fun h => runBody_of_started_free h, execMgFwStage_of_started, fun b h hact => execMgFwActivate_of_started h hact b,
    fun b hact hnone => execMgFwActivate_alone hact hnone b, fun h => runBody_of_started_free h,
    fun h hfence => runFence_of_started h hfence, fun b h hfence => runFence_of_started h hfence⟩⟩

end

section
/-!
The host's accesses (R444, R565, R566): what a write and a read of a register do that no rule refuses, where no error waits in
the stores; then the rows of the registers that have one of their own (R304 to R308, R436, R479, R500, R502, R524, R536, R579,
R583), and the requests to BAR2 that are refused (R334, R445).
-/

namespace Sys2Proof.Machine

/-! ### Stores without an error (R490, R491) -/

section
variable {s : State} (hups : s.mems.upsets = [])
include hups

theorem coreBits_of_no_upsets (w : CoreWord) : coreBits s w = [] := by simp [coreBits, hups]

theorem coreBad_of_no_upsets (w : CoreWord) : coreBad s w = false := by simp [coreBad, coreBits_of_no_upsets hups]

theorem useCore_of_no_upsets (w : CoreWord) : useCore s w = s := by simp [useCore, coreBits_of_no_upsets hups]

theorem regionBad_of_no_upsets (l k : Nat) : regionBad s l k = false := by simp [regionBad, hups]

theorem setUpsets_of_no_upsets : setUpsets s [] = s := by rw [← hups]; rfl

theorem freshTally_of_no_upsets (i : Nat) : freshTally s i = s := by
  simp [freshTally, coreBad_of_no_upsets hups, hups, setUpsets_of_no_upsets hups]

theorem storeFault_of_no_upsets (r : Option Reg) (off : Nat) (write : Bool) : storeFault s r off write = none := by
  unfold storeFault
  split <;> simp [regionBad_of_no_upsets hups, coreBad_of_no_upsets hups]

theorem touchReg_of_no_upsets (r : Option Reg) (write : Bool) : touchReg s r write = s := by
  unfold touchReg
  split
  · simp [freshTally_of_no_upsets hups, useCore_of_no_upsets hups]
  · exact useCore_of_no_upsets hups _
  · simp [regionBad_of_no_upsets hups]
  · split
    · exact useCore_of_no_upsets hups _
    · rfl
  · rfl

theorem touchBar0_of_no_upsets (rq : Req) (off size : Nat) (write : Bool) : touchBar0 s rq off size write = s := by
  simp [touchBar0, touchReg_of_no_upsets hups]

end

/-! ### A write that no rule refuses (R444, R565) -/

variable {s t : State} {rq : Req} {off n q : Nat} {g : Reg}

/-- A region's entry is served by its own domain, and the east half's by the die bridge too (R18, R149). -/
def EntryServed (s : State) (g : Reg) (write : Bool) : Prop :=
  ∀ l k w, g = .region l k w → pdServes s write (l / 2) = true ∧ (l < 64 ∨ pdServes s write dBridge = true)

theorem entryServed_of_not_region {write : Bool} (h : ∀ l k w, g ≠ .region l k w) : EntryServed s g write :=
  fun l k w hg => absurd hg (h l k w)

theorem bar0Refused_write_eq_none (h : Reaches s rq 0 off n) (hown : Owns s rq g) (hn : n = 4 ∨ n = 8) (hal : off % n = 0)
    (hg : regAt rq.fn (off / 4 * 4) = some g) (hserved : EntryServed s g true) : bar0Refused s rq off n true = none := by
  obtain ⟨-, hready, -, hpoison, hide, -⟩ := h
  have hsize : ¬(¬n = 4 ∧ ¬n = 8) := by omega
  have hmay : ¬(¬rq.fn = 0 ∧ g.ownBy s rq.fn = false) := by
    obtain hfn | hits := hown
    · simp [hfn]
    · simp [hits]
  cases g with
  | region l k w =>
    obtain ⟨hl, hb⟩ := hserved l k w rfl
    simp [bar0Refused, hg, hready, hsize, hal, hmay, hide, hpoison, hl, hb]
  | _ => simp [bar0Refused, hg, hready, hsize, hal, hmay, hide, hpoison]

/-- A register is written whole, with what the request gives its part of it. -/
theorem bar0WriteAt_of_reg (h : Reaches s rq 0 off n) (hown : Owns s rq g) (hn : n = 4 ∨ n = 8) (hal : off % n = 0)
    (hg : regAt rq.fn (off / 4 * 4) = some g) (hserved : EntryServed s g true) (hpair : n = 4 ∨ g.narrow = false)
    (v : BitVec 64) : bar0WriteAt s rq off n v = writeReg s rq g off (wholeWord s g off n v.toNat) := by
  have hrefused := bar0Refused_write_eq_none h hown hn hal hg hserved
  obtain ⟨-, -, hun, -, -, hups⟩ := h
  have hfault : bar0Fault s rq off n true = none := by simp [bar0Fault, hrefused, storeFault_of_no_upsets hups]
  have hn8 : g.narrow = true → n ≠ 8 := by
    obtain h4 | hnar := hpair
    · omega
    · simp [hnar]
  unfold bar0WriteAt
  simp only [hun, hfault, touchBar0_of_no_upsets hups, hg, Bool.false_eq_true, if_false]
  cases g with
  | seed k => exact if_neg (hn8 rfl)
  | keep k => exact if_neg (hn8 rfl)
  | _ => rfl

theorem hostRow_write (h : Reaches s rq 0 off n) (hown : Owns s rq g) (hn : n = 4 ∨ n = 8) (hal : off % n = 0)
    (hg : regAt rq.fn (off / 4 * 4) = some g) (hserved : EntryServed s g true) (hpair : n = 4 ∨ g.narrow = false)
    (v : BitVec 64) : hostRow s (bar0WriteAt s rq off n v) = .next (writeReg s rq g off (wholeWord s g off n v.toNat)) := by
  rw [hostRow_of_cfgUp h.1, bar0WriteAt_of_reg h hown hn hal hg hserved hpair]

/-! ### The words that a write gives -/

theorem bits_of_lt {w k : Nat} (h : w < 2 ^ k) : bits w 0 k = w := by
  rw [bits_eq_div_mod, Nat.pow_zero, Nat.div_one, Nat.mod_eq_of_lt h]

theorem wholeWord_narrow {v : Nat} (hg : g.narrow = true) (hv : v < 2 ^ 32) : wholeWord s g off n v = v := by
  simp only [wholeWord, hg, if_true, Nat.mod_eq_of_lt hv]

theorem wholeWord_eight {v : Nat} (hg : g.narrow = false) (hv : v < 2 ^ 64) : wholeWord s g off 8 v = v := by
  simp only [wholeWord, hg, if_true, Bool.false_eq_true, if_false, Nat.mod_eq_of_lt hv]

/-- A 4-byte write of the low half gives the low bits. -/
theorem bits_wholeWord_low {v k : Nat} (hg : g.narrow = false) (hoff : off % 8 = 0) (hk : k ≤ 32) (hv : v < 2 ^ k) :
    bits (wholeWord s g off 4 v) 0 k = v := by
  have h32 : v < 2 ^ 32 := hv.trans_le (Nat.pow_le_pow_right two_pos hk)
  have hdvd : keepPart s g / 2 ^ 32 * 2 ^ 32 = 2 ^ k * (keepPart s g / 2 ^ 32 * 2 ^ (32 - k)) := by
    rw [← Nat.pow_sub_mul_pow 2 hk]; ring
  rw [wholeWord, hg, if_neg Bool.false_ne_true, if_neg (by decide), if_pos hoff, Nat.mod_eq_of_lt h32, bits_eq_div_mod,
    Nat.pow_zero, Nat.div_one, hdvd, Nat.add_mul_mod_self_left, Nat.mod_eq_of_lt hv]

theorem setWidth_toNat_of_le {k m : Nat} (x : BitVec k) (h : k ≤ m) : (x.setWidth m).toNat = x.toNat := by
  rw [BitVec.toNat_setWidth, Nat.mod_eq_of_lt (x.isLt.trans_le (Nat.pow_le_pow_right two_pos h))]

/-! ### Where registers stand (R568, R570, R577) -/

/-- The registers of a queue's block, in either kind of function. -/
theorem regAt_queueOff {fn c : Nat} (hq : q < 64) (hc : c < 0x1000) (h4 : c % 4 = 0) :
    regAt fn ((queueOff fn q + c) / 4 * 4) = queueReg q c := by
  unfold regAt queueOff
  split
  · have ha : (0x10_0000 + 0x1000 * q + c) / 4 * 4 = 0x10_0000 + (0x1000 * q + c) := by omega
    have hdiv : (0x10_0000 + (0x1000 * q + c) - 0x10_0000) / 0x1000 = q := by omega
    have hmod : (0x10_0000 + (0x1000 * q + c)) % 0x1000 = c := by omega
    rw [ha, pfReg]
    rw [hdiv, hmod]
    iterate 9 rw [if_neg (by omega)]
    rw [if_pos (by omega)]
  · have ha : (0 + 0x1000 * q + c) / 4 * 4 = 0x1000 * q + c := by omega
    have hdiv : (0x1000 * q + c) / 0x1000 = q := by omega
    have hmod : (0x1000 * q + c) % 0x1000 = c := by omega
    rw [ha, vfReg, hdiv, hmod, if_pos (by omega)]

theorem queueOff_mod (fn q : Nat) : queueOff fn q % 0x1000 = 0 := by
  unfold queueOff
  split <;> omega

theorem regAt_tallyOff {fn i : Nat} (hi : i < 4096) : regAt fn (tallyOff fn i / 4 * 4) = some (.tally i) := by
  unfold regAt tallyOff
  split
  · have ha : (0x18_0000 + 8 * i) / 4 * 4 = 0x18_0000 + 8 * i := by omega
    have hk : (0x18_0000 + 8 * i) / 8 - 0x3_0000 = i := by omega
    rw [ha, pfReg]
    rw [hk]
    iterate 12 rw [if_neg (by omega)]
    rw [if_pos (by omega)]
  · have ha : (0x8_0000 + 8 * i) / 4 * 4 = 0x8_0000 + 8 * i := by omega
    have hk : (0x8_0000 + 8 * i) / 8 - 0x1_0000 = i := by omega
    rw [ha, vfReg]
    rw [hk]
    iterate 3 rw [if_neg (by omega)]
    rw [if_pos (by omega)]

theorem tallyOff_mod (fn i : Nat) : tallyOff fn i % 8 = 0 := by
  unfold tallyOff
  split <;> omega

theorem regAt_bar2Win {f : Nat} (hf : f < 17) : regAt 0 ((0x1100 + 8 * f) / 4 * 4) = some (.bar2Win f) := by
  have ha : (0x1100 + 8 * f) / 4 * 4 = 0x1100 + 8 * f := by omega
  have hk : (0x1100 + 8 * f) / 8 - 0x220 = f := by omega
  rw [ha, regAt, if_pos rfl, pfReg]
  rw [if_pos (by omega), lowReg]
  iterate 5 rw [if_neg (by omega)]
  rw [if_pos (by omega), hk]

theorem regAt_keepAddr {i : Nat} (hi : i < 128) : regAt 0 (keepAddr i / 4 * 4) = some (.keep i) := by
  have ha : keepAddr i / 4 * 4 = 0x6000 + 4 * i := by unfold keepAddr; omega
  have hk : (0x6000 + 4 * i - 0x6000) / 4 = i := by omega
  rw [ha, regAt, if_pos rfl, pfReg]
  rw [if_pos (by omega), lowReg]
  iterate 12 rw [if_neg (by omega)]
  rw [if_pos (by omega), hk]

theorem regAt_region {l k : Nat} (hl : l < 128) (hk : k < 64) :
    regAt 0 ((0x20_0000 + 0x400 * l + 0x10 * k) / 4 * 4) = some (.region l k 0) := by
  have ha : (0x20_0000 + 0x400 * l + 0x10 * k) / 4 * 4 = 0x20_0000 + (0x400 * l + 0x10 * k) := by omega
  have hdiv : (0x20_0000 + (0x400 * l + 0x10 * k) - 0x20_0000) / 0x400 = l := by omega
  have hmod : (0x20_0000 + (0x400 * l + 0x10 * k) - 0x20_0000) % 0x400 / 16 = k := by omega
  have hw : (0x20_0000 + (0x400 * l + 0x10 * k)) / 8 % 2 = 0 := by omega
  rw [ha, regAt, if_pos rfl, pfReg]
  rw [hdiv, hmod, hw]
  iterate 14 rw [if_neg (by omega)]
  rw [if_pos (by omega)]

/-! ### The rows of a queue's registers (R304 to R308, R525, R579) -/

/-- A write at place `c` of a queue's block. -/
theorem hostRow_queueWrite {c : Nat} (hq : q < 64) (h : Reaches s rq 0 (queueOff rq.fn q + c) n) (hown : Owns s rq g)
    (hn : n = 4 ∨ n = 8) (hc : c < 0x1000) (hal : c % n = 0) (hg : queueReg q c = some g)
    (hregion : ∀ l k w, g ≠ .region l k w) (hpair : n = 4 ∨ g.narrow = false) (v : BitVec 64) :
    hostRow s (bar0WriteAt s rq (queueOff rq.fn q + c) n v)
      = .next (writeReg s rq g (queueOff rq.fn q + c) (wholeWord s g (queueOff rq.fn q + c) n v.toNat)) := by
  have hoff := queueOff_mod rq.fn q
  have hal' : (queueOff rq.fn q + c) % n = 0 := by obtain rfl | rfl := hn <;> omega
  have h4 : c % 4 = 0 := by obtain rfl | rfl := hn <;> omega
  exact hostRow_write h hown hn hal' ((regAt_queueOff hq hc h4).trans hg) (entryServed_of_not_region hregion) hpair v

section
variable (hq : q < 64) (h : Reaches s rq 0 (queueOff rq.fn q) 0x1000) (hown : Owns s rq (.sqcfg q))
include hq h hown

theorem exec_sqTailDoorbell (i : BitVec 16) (hi : i.toNat < 2 ^ (getQ s q).sqLog2.toNat) :
    exec (.sqTailDoorbell rq q i) s = .next (modQ s q fun v => { v with sqTail := i }) := by
  have hi32 : i.toNat < 2 ^ 32 := i.isLt.trans (by decide)
  refine (hostRow_queueWrite hq (reaches_of_within h (by omega) (by omega)) (g := .sqTail q) hown (.inl rfl) (by decide)
    (by decide) rfl nofun (.inl rfl) _).trans ?_
  rw [setWidth_toNat_of_le i (by decide), wholeWord_narrow rfl hi32]
  simp [writeReg, writeSqTail, bits_of_lt i.isLt, hi.not_ge]

theorem exec_stqHeadDoorbell (i : BitVec 16) (hi : i.toNat < 2 ^ (getQ s q).stqLog2.toNat) :
    exec (.stqHeadDoorbell rq q i) s
      = .next (releaseCopies (setQ s q { getQ s q with stqHead := i }) q
          ((i.toNat + 2 ^ (getQ s q).stqLog2.toNat - (getQ s q).stqHead.toNat) % 2 ^ (getQ s q).stqLog2.toNat)) := by
  have hi32 : i.toNat < 2 ^ 32 := i.isLt.trans (by decide)
  refine (hostRow_queueWrite hq (reaches_of_within h (by omega) (by omega)) (g := .stqHead q) hown (.inl rfl) (by decide)
    (by decide) rfl nofun (.inl rfl) _).trans ?_
  rw [setWidth_toNat_of_le i (by decide), wholeWord_narrow rfl hi32]
  simp [writeReg, writeStqHead, bits_of_lt i.isLt, hi.not_ge]

/-- Every row that writes SQCFG writes its whole word. -/
theorem hostRow_sqcfg (w : BitVec 64) :
    hostRow s (bar0WriteAt s rq (queueOff rq.fn q) 8 w) = .next (writeSqcfg s rq q (queueOff rq.fn q) w.toNat) := by
  refine (hostRow_queueWrite (c := 0) hq (reaches_of_within h (by omega) (by omega)) hown (.inr rfl) (by decide)
    (by decide) rfl nofun (.inr rfl) w).trans ?_
  rw [wholeWord_eight rfl w.isLt]
  rfl

end

/-- A queue that goes into service (R306): it starts anew, its collectives' counts and expert maps are forgotten, and it may
have passed to another function with that function's limits. -/
theorem writeSqcfg_of_enable {w off : Nat} (hs : sqcfgSound (getQ s q) (sqcfgOf (getQ s q) (rq.fn == 0) w) = true)
    (hon : bit w 0 = true) (hoff : (getQ s q).enable = false) :
    writeSqcfg s rq q off w
      = setQ (forgetColls (assignQueue s q (getQ s q) (sqcfgOf (getQ s q) (rq.fn == 0) w)) q) q
          (startQueue (sqcfgOf (getQ s q) (rq.fn == 0) w)) := by
  simp [writeSqcfg, hs, hon, hoff]

theorem exec_qstatWrite (hq : q < 64) (h : Reaches s rq 0 (queueOff rq.fn q + 0x30) 4) (hown : Owns s rq (.qstat q))
    (v : BitVec 32) (hsign : bit v.toNat 31 = false) (hexp : bits v.toNat 23 8 ≠ 255) :
    exec (.qstatWrite rq q v) s = .next (modQ s q fun x => { x with amax := v }) := by
  have hmod := queueOff_mod rq.fn q
  have hw : bits (wholeWord s (.qstat q) (queueOff rq.fn q + 0x30) 4 v.toNat) 0 32 = v.toNat :=
    bits_wholeWord_low rfl (by omega) (le_refl 32) v.isLt
  refine (hostRow_queueWrite hq h hown (.inl rfl) (by decide) (by decide) rfl nofun (.inl rfl) _).trans ?_
  rw [setWidth_toNat_of_le v (by decide)]
  simp [writeReg, writeQstat, hw, hsign, hexp]

theorem exec_tallyWrite {i : Nat} (hi : i < 4096) (h : Reaches s rq 0 (tallyOff rq.fn i) 4) (hown : Owns s rq (.tally i))
    (v : BitVec 32) : exec (.tallyWrite rq i v) s = .next (setTally s i v) := by
  have hmod := tallyOff_mod rq.fn i
  refine (hostRow_write h hown (.inl rfl) (by omega) (regAt_tallyOff hi) (entryServed_of_not_region nofun) (.inl rfl)
    _).trans ?_
  rw [setWidth_toNat_of_le v (by decide)]
  simp [writeReg, bits_wholeWord_low (s := s) (g := .tally i) rfl hmod (le_refl 32) v.isLt]

/-! ### The rows of the physical function's registers -/

/-- A write of the log's head releases the entries up to it (R500). -/
theorem writeVlogPtr_faults {x : BitVec 8} {w : Nat} (rq : Req) (off : Nat) (hw : bits w 0 8 = x.toNat)
    (hx : released s x.toNat ≤ s.faults.vFill) :
    (writeVlogPtr s rq off w).faults = { s.faults with vHead := x, vFill := s.faults.vFill - released s x.toNat } := by
  have hrel : released s w = released s x.toNat := by simp only [released, hw, bits_of_lt x.isLt]
  simp only [writeVlogPtr, hrel, hw, if_neg hx.not_gt]
  split
  · rw [raiseMsix_eq]
    simp
  · simp

section
variable (hfn : rq.fn = 0)
include hfn

theorem pfWrite_of_reg {v : Nat} (h : Reaches s rq 0 off n) (hn : n = 4 ∨ n = 8) (hal : off % n = 0)
    (hg : regAt 0 (off / 4 * 4) = some g) (hserved : EntryServed s g true) (hpair : n = 4 ∨ g.narrow = false)
    (hv : v < 2 ^ 64) : pfWrite rq off n v s = .next (writeReg s rq g off (wholeWord s g off n v)) := by
  have hw : (BitVec.ofNat 64 v).toNat = v := by rw [BitVec.toNat_ofNat, Nat.mod_eq_of_lt hv]
  rw [pfWrite, hostRow_write h (.inl hfn) hn hal (by rwa [hfn]) hserved hpair, hw]

theorem exec_perfFreeze (h : Reaches s rq 0 0x2_0000 8) (b : Bool) :
    exec (.perfFreeze rq b) s = .next { s with perf := { s.perf with freeze := b } } := by
  have hv : b2n b < 2 ^ 64 := by cases b <;> decide
  refine (pfWrite_of_reg hfn h (.inr rfl) rfl rfl (entryServed_of_not_region nofun) (.inr rfl) hv).trans ?_
  rw [wholeWord_eight rfl hv]
  cases b <;> rfl

theorem exec_perfClear (h : Reaches s rq 0 0x2_0000 8) : exec (.perfClear rq) s = .next { s with perf := ⟨s.perf.freeze, [], []⟩ } := by
  have hv : b2n s.perf.freeze + 2 < 2 ^ 64 := by cases s.perf.freeze <;> decide
  refine (pfWrite_of_reg hfn h (.inr rfl) rfl rfl (entryServed_of_not_region nofun) (.inr rfl) hv).trans ?_
  rw [wholeWord_eight rfl hv]
  have hfreeze : bit (b2n s.perf.freeze + 2) 0 = s.perf.freeze := by cases s.perf.freeze <;> rfl
  have hclear : bit (b2n s.perf.freeze + 2) 1 = true := by cases s.perf.freeze <;> rfl
  simp [writeReg, writePerfCtl, hfreeze, hclear]

theorem exec_engReset (h : Reaches s rq 0 0x1008 4) (m : BitVec 4) : exec (.engReset rq m) s = .next (writeGctl s m.toNat) := by
  have hm := m.isLt
  refine (pfWrite_of_reg (g := .gctl) hfn h (.inl rfl) rfl rfl (entryServed_of_not_region nofun) (.inl rfl)
    (by omega)).trans ?_
  have hkeep : keepPart s .gctl = 0 := rfl
  have hw : wholeWord s .gctl 0x1008 4 m.toNat = m.toNat := by
    rw [wholeWord, if_neg (by decide), if_neg (by decide), if_pos rfl, hkeep]
    omega
  rw [hw, writeReg]

theorem exec_vlogRelease (h : Reaches s rq 0 0x3010 4) (x : BitVec 8) (hx : released s x.toNat ≤ s.faults.vFill) :
    ∃ t, exec (.vlogRelease rq x) s = .next t
      ∧ t.faults = { s.faults with vHead := x, vFill := s.faults.vFill - released s x.toNat } := by
  have hlt := x.isLt
  have hw : bits (wholeWord s .vlogPtr 0x3010 4 x.toNat) 0 8 = x.toNat := bits_wholeWord_low rfl rfl (by decide) hlt
  exact ⟨_, pfWrite_of_reg (g := .vlogPtr) hfn h (.inl rfl) rfl rfl (entryServed_of_not_region nofun) (.inl rfl) (by omega),
    writeVlogPtr_faults rq 0x3010 hw hx⟩

theorem exec_tripClear (h : Reaches s rq 0 0x2018 8) :
    exec (.tripClear rq) s = .next (setPower s { s.power with trip := s.power.trip && decide (95 ≤ hottest s 0 32) }) := by
  refine (pfWrite_of_reg hfn h (.inr rfl) rfl rfl (entryServed_of_not_region nofun) (.inr rfl) (by decide)).trans ?_
  have hpeak : bits (2 ^ 34) 16 8 = 0 := by decide
  have htrip : bit (2 ^ 34) 34 = true := by decide
  have hcold : (!decide (hottest s 0 32 < 95)) = decide (95 ≤ hottest s 0 32) := by rw [← decide_not]; simp
  rw [wholeWord_eight rfl (by decide)]
  simp only [writeReg, writeThermStat, hpeak, htrip, if_true, Bool.true_and, hcold]

theorem exec_bar2WinWrite {f : Nat} (hf : f < 17) (h : Reaches s rq 0 (0x1100 + 8 * f) 4) (b : BitVec 32)
    (hb : b.toNat ≤ 383) :
    exec (.bar2WinWrite rq f b) s
      = .next { s with glob := { s.glob with bar2Win := tput 0#9 s.glob.bar2Win f (BitVec.ofNat 9 b.toNat) } } := by
  have hw := bits_wholeWord_low (s := s) (g := .bar2Win f) (off := 0x1100 + 8 * f) rfl (by omega) (by decide)
    (show b.toNat < 2 ^ 9 by omega)
  refine (pfWrite_of_reg hfn h (.inl rfl) (by omega) (regAt_bar2Win hf) (entryServed_of_not_region nofun) (.inl rfl)
    (by omega)).trans ?_
  simp [writeReg, writeBar2Win, hw, hb.not_gt]

theorem exec_keepRegisterWrite {i : Nat} (hi : i < 128) (h : Reaches s rq 0 (keepAddr i) 4) (v : BitVec 32)
    (hk : keepWrite s i v = .ok t) : exec (.keepRegisterWrite rq i v) s = .next t := by
  have hv := v.isLt
  refine (pfWrite_of_reg hfn h (.inl rfl) (by unfold keepAddr; omega) (regAt_keepAddr hi) (entryServed_of_not_region nofun)
    (.inl rfl) (by omega)).trans ?_
  rw [wholeWord_narrow rfl hv]
  simp [writeReg, writeKeep, hk]

theorem exec_regionEntryWrite {l k : Nat} (hl : l < 128) (hk : k < 64)
    (h : Reaches s rq 0 (0x20_0000 + 0x400 * l + 0x10 * k) 8) (v : BitVec 64) (hserves : pdServes s true (l / 2) = true)
    (heast : l < 64 ∨ pdServes s true dBridge = true) (hw : regionWrite s l k v.toNat = some t) :
    exec (.regionEntryWrite rq l k v) s = .next t := by
  have hserved : EntryServed s (.region l k 0) true := by
    rintro l' k' w ⟨⟩
    exact ⟨hserves, heast⟩
  refine (pfWrite_of_reg hfn h (.inr rfl) (by omega) (regAt_region hl hk) hserved (.inr rfl) v.isLt).trans ?_
  rw [wholeWord_eight rfl v.isLt]
  simp [writeReg, writeRegion, hw]

/-- A register whose every write is ignored. -/
theorem exec_registerWrite_of_ignored (h : Reaches s rq 0 off 8) (hal : off % 8 = 0) (hg : regAt 0 (off / 4 * 4) = some g)
    (hregion : ∀ l k w, g ≠ .region l k w) (hnar : g.narrow = false) (hro : ∀ w, writeReg s rq g off w = s) (v : BitVec 64) :
    exec (.registerWrite rq off 8 v) s = .next s := by
  refine (hostRow_write h (.inl hfn) (.inr rfl) hal (by rwa [hfn]) (entryServed_of_not_region hregion) (.inr hnar) v).trans ?_
  rw [hro]

end

/-- The bits of DEV_EVENT that a written word leaves (R502). -/
theorem devEvent_cleared (d : BitVec 4) (v : BitVec 64) :
    d &&& ~~~(BitVec.ofNat 4 v.toNat &&& ~~~eCoreFault) = d &&& (eCoreFault ||| ~~~(v.setWidth 4)) := by
  have hv : BitVec.ofNat 4 v.toNat = v.setWidth 4 := by rw [BitVec.ofNat_toNat]
  rw [hv, BitVec.not_and, BitVec.not_not, BitVec.or_comm]

/-! ### Reads (R461, R565, R566) -/

/-- A read answers with the register's bytes, and may set the latch of TIMESTAMP. -/
theorem readReg_state (s : State) (g : Reg) (off size : Nat) (next : Option Reg) :
    (readReg s g off size next).2 = { s with glob := { s.glob with tsLatch := (readReg s g off size next).2.glob.tsLatch } } := by
  unfold readReg
  dsimp only
  split
  · rfl
  · split
    · split <;> rfl
    · rfl

theorem readReg_whole (hg : g.narrow = false) (next : Option Reg) : readReg s g off 8 next = (leBytes 8 (regWord s g).toNat, s) := by
  simp [readReg, hg]

/-- A read that no rule refuses, with no error in the stores, changes the latch and what has been sent. -/
theorem bar0ReadAt_state (hups : s.mems.upsets = []) (hfault : bar0Fault s rq off n false = none) :
    bar0ReadAt s rq off n = { s with
      out := (bar0ReadAt s rq off n).out
      glob := { s.glob with tsLatch := (bar0ReadAt s rq off n).glob.tsLatch } } := by
  unfold bar0ReadAt
  dsimp only
  rw [touchBar0_of_no_upsets hups, hfault]
  split
  · rfl
  · cases regAt rq.fn (off / 4 * 4) with
    | none => rfl
    | some g =>
      dsimp only
      rw [readReg_state]
      rfl

/-! ### Refused requests to BAR2 (R445) -/

theorem hostLog_mems (s : State) (rq : Req) (write : Bool) (e : Fail) : (hostLog s rq write e).mems = s.mems := by
  rw [hostLog, vlogAdd_eq]

theorem execBar2Read_of_fault {a : Nat} {e : Fail} (hup : s.glob.cfgUp = true) (hun : unsupportedNow s rq.fn = false)
    (hin : inBar2 s rq.fn a n = true) (he : bar2Fault s rq (bar2Addr s rq.fn a) n false = some e) :
    exec (.bar2Read rq a n) s = .next (hostAbort s rq e) := by
  show execBar2Read rq a n s = _
  simp [execBar2Read, hin, hun, hostRow_of_cfgUp hup, bar2ReadAt, he]

theorem execBar2Write_of_fault {a : Nat} {bytes : List Byte} {e : Fail} (hup : s.glob.cfgUp = true)
    (hun : unsupportedNow s rq.fn = false) (hin : inBar2 s rq.fn a bytes.length = true)
    (he : bar2Fault s rq (bar2Addr s rq.fn a) bytes.length true = some e) :
    exec (.bar2Write rq a bytes) s = .next (hostLog s rq true e) := by
  show execBar2Write rq a bytes s = _
  simp [execBar2Write, hin, hun, hostRow_of_cfgUp hup, bar2WriteAt, he]

end Sys2Proof.Machine

open Sys2Proof Sys2Proof.Machine

/-- Settles O42: a whole read is the register's word, and any read's state is `readReg`'s. -/
theorem registerReads : Obligations.RegisterReads := by
  unfold Obligations.RegisterReads
  constructor
  · rintro s rq off g ⟨hup, -, hun, -, -, hups⟩ hal hg hnar hfault
    have hg' : regAt rq.fn (off / 4 * 4) = some g := by rwa [show off / 4 * 4 = off by omega]
    exact (hostRow_of_cfgUp hup _).trans (congrArg _ (bar0ReadAt_of_readReg hun hfault (touchBar0_of_no_upsets hups rq off 8 false)
      hg' (readReg_whole hnar)))
  · intro s t rq off size hups hfault hx
    have hrow : hostRow s (bar0ReadAt s rq off size) = .next t := hx
    unfold hostRow at hrow
    split at hrow
    · obtain rfl : bar0ReadAt s rq off size = t := by simpa using hrow
      exact bar0ReadAt_state hups hfault
    · exact absurd hrow nofun

/-- Settles O45: the doorbells, and the cases of a write of SQCFG. -/
theorem queueRegisterWrites : Obligations.QueueRegisterWrites := by
  unfold Obligations.QueueRegisterWrites
  intro s rq q w i hq h hown v n
  have hrow := hostRow_sqcfg hq h hown w
  refine ⟨exec_sqTailDoorbell hq h hown i, exec_stqHeadDoorbell hq h hown i, fun hs hon hoff => ?_, fun hs hon hen => ⟨?_, rfl⟩,
    fun hs hoff hen hres => ?_, fun hs hoff hen hres => ?_⟩
  · exact hrow.trans (congrArg _ (writeSqcfg_of_enable hs hon hoff))
  · exact hrow.trans (by simp [writeSqcfg, v, n, hs, hon, hen])
  · exact hrow.trans (by simp [writeSqcfg, v, n, hs, hoff, hen, hres])
  · exact hrow.trans (by simp [writeSqcfg, v, n, hs, hoff, hen, hres])

/-- Settles O46: the queue is `startQueue` of what the write asks for, and the rest of the row touches limits, counts and
maps. -/
theorem enabledQueueStartsAtZero : Obligations.EnabledQueueStartsAtZero := by
  unfold Obligations.EnabledQueueStartsAtZero
  intro s rq q w hq h hown hs hon hoff
  refine ⟨_, (hostRow_sqcfg hq h hown w).trans (congrArg _ (writeSqcfg_of_enable hs hon hoff)), ?_⟩
  unfold assignQueue
  split
  all_goals
    simp [startQueue, forgetColls, setLimits, getQ_setQ]
    simp +contextual [getQ, eq_comm]

/-- Settles O47, register by register. -/
theorem globalRegisterWrites : Obligations.GlobalRegisterWrites := by
  unfold Obligations.GlobalRegisterWrites
  intro s rq hfn
  exact ⟨fun h => ⟨exec_perfFreeze hfn h, exec_perfClear hfn h⟩, fun m h => exec_engReset hfn h m,
    fun x h hx => exec_vlogRelease hfn h x hx, fun h => ⟨_, exec_tripClear hfn h, rfl⟩⟩

/-- Settles O48, register by register. -/
theorem indexedRegisterWrites : Obligations.IndexedRegisterWrites := by
  unfold Obligations.IndexedRegisterWrites
  refine ⟨fun s rq hfn => ⟨fun f b hf h hb => exec_bar2WinWrite hfn hf h b hb,
    fun i v t hi h hk => exec_keepRegisterWrite hfn hi h v hk,
    fun l k v t hl hk h hserves heast hw => exec_regionEntryWrite hfn hl hk h v hserves heast hw⟩,
    fun s rq q v hq h hown => ⟨exec_qstatWrite hq h hown v, rfl⟩⟩

/-- Settles O49: at each of the offsets stands a register that `writeReg` leaves alone. -/
theorem readOnlyAndStickyBits : Obligations.ReadOnlyAndStickyBits := by
  unfold Obligations.ReadOnlyAndStickyBits
  intro s rq hfn
  constructor
  · intro off v h hoff
    simp only [List.mem_cons, List.not_mem_nil, or_false] at hoff
    rcases hoff with rfl | rfl | rfl | rfl | rfl | rfl | rfl | rfl | rfl | rfl | rfl | rfl | rfl | rfl | rfl | rfl | rfl | rfl
      | rfl | rfl | rfl | rfl
    all_goals exact exec_registerWrite_of_ignored hfn h rfl rfl (by nofun) rfl (fun _ => rfl) v
  · intro v h
    refine ⟨_, (hostRow_write (g := .devEvent) h (.inl hfn) (.inr rfl) rfl (by rw [hfn]; rfl) (entryServed_of_not_region nofun) (.inr rfl) v), ?_⟩
    rw [wholeWord_eight rfl v.isLt]
    exact ⟨devEvent_cleared s.glob.devEvent v, rfl⟩

/-- Settles O53, by the refusal's branch of each access. -/
theorem refusedWindowAccesses : Obligations.RefusedWindowAccesses := by
  unfold Obligations.RefusedWindowAccesses
  intro s rq off n bytes e hup hun
  exact ⟨fun hin he => ⟨execBar2Read_of_fault hup hun hin he, hostLog_mems s rq false e⟩,
    fun hin he => ⟨execBar2Write_of_fault hup hun hin he, hostLog_mems s rq true e⟩⟩

end

section
/-!
What the guards of the stores, the counters and the logs leave of a state (R484 to R492, R498 to R502). `beside` is a state
without them, and each shared operation on them keeps it; likewise `steady` is what the end of a command, its signals aside,
leaves of the headstock's tallies and reservations and of the pins.
-/

namespace Sys2Proof.Machine

/-- A state beside device memory with its latent errors, the fault and performance counters with the log, the events and
interrupts, and what has been sent. -/
def beside (s : State) : State :=
  { s with
    mems := { s.mems with dev := [], poison := [], upsets := [] }
    faults := State.reset.faults, perf := State.reset.perf, out := [], freeIdx := 0
    glob := { s.glob with devEvent := 0#4 }, pcie := { s.pcie with pba := [] } }

@[simp] theorem beside_emit (s : State) (m : Msg) : beside (emit s m) = beside s := rfl

@[simp] theorem beside_nextFree (s : State) : beside (nextFree s) = beside s := rfl

@[simp] theorem beside_raiseMsix (s : State) (fn v : Nat) : beside (raiseMsix s fn v) = beside s := by
  rw [raiseMsix_eq]
  rfl

@[simp] theorem beside_setDevEvent (s : State) (m : BitVec 4) : beside (setDevEvent s m) = beside s := by
  rw [setDevEvent_eq]
  rfl

@[simp] theorem beside_vlogAdd (s : State) (x : LogRec) : beside (vlogAdd s x) = beside s := by
  rw [vlogAdd_eq]
  rfl

@[simp] theorem beside_countCorr (s : State) (hbm : Bool) (addr kind : Nat) : beside (countCorr s hbm addr kind) = beside s := rfl

@[simp] theorem beside_countUncorr (s : State) (hbm : Bool) : beside (countUncorr s hbm) = beside s := rfl

@[simp] theorem beside_setUpsets (s : State) (us : List Upset) : beside (setUpsets s us) = beside s := rfl

@[simp] theorem beside_dropUpset (s : State) (u : Nat) : beside (dropUpset s u) = beside s := rfl

@[simp] theorem beside_poisonAt (s : State) (u : Nat) : beside (poisonAt s u) = beside s := rfl

@[simp] theorem beside_correctRow (s : State) (row : Nat) : beside (correctRow s row).1 = beside s :=
  foldl_keeps beside (f := fun s w => countCorr s false w 1) (fun s w => beside_countCorr s false w 1) (softWords s row) s

@[simp] theorem beside_guardUnit (s : State) (u : Nat) : beside (guardUnit s u).1 = beside s := by
  simp only [guardUnit]
  split
  · split
    · exact beside_countUncorr s true
    · split <;> simp
  · split <;> simp

@[simp] theorem beside_guardUnits (s : State) (us : List Nat) : beside (guardUnits s us).1 = beside s := by
  induction us generalizing s with
  | nil => rfl
  | cons u r ih =>
    have hu := beside_guardUnit s u
    simp only [guardUnits]
    split
    · next h => rwa [h] at hu
    · next h => rw [h] at hu; exact (ih _).trans hu

@[simp] theorem beside_countHbm (s : State) (write : Bool) (us : List Nat) : beside (countHbm s write us) = beside s := by
  unfold countHbm
  split <;> rfl

@[simp] theorem beside_hbmWrite (s : State) (a : Nat) (bytes : List Byte) : beside (hbmWrite s a bytes).1 = beside s := by
  simp only [hbmWrite]
  split
  · rfl
  · split
    · next h => exact (congrArg (beside ·.1) h).symm.trans (beside_guardUnits s _)
    · next h =>
      refine Eq.trans ?_ ((congrArg (beside ·.1) h).symm.trans (beside_guardUnits s _))
      exact (beside_countHbm _ _ _).trans (beside_countHbm _ _ _)

@[simp] theorem beside_rowCommit (s : State) (row off : Nat) (bytes : List Byte) :
    beside (rowCommit s row off bytes) = beside s := rfl

@[simp] theorem beside_rowAccumulate (s : State) (row off wmode : Nat) (bytes : List Byte) :
    beside (rowAccumulate s row off wmode bytes).1 = beside s := by
  have hg := beside_guardUnit s row
  unfold rowAccumulate
  split
  · next h => rwa [h] at hg
  · next h => rw [h] at hg; exact (beside_rowCommit _ _ _ _).trans hg

@[simp] theorem beside_ringWrite (s : State) (a : Nat) (bytes : List Byte) : beside (ringWrite s a bytes) = beside s := by
  have hw := beside_hbmWrite s a bytes
  unfold ringWrite
  split
  · next h => rwa [h] at hw
  · next h => rw [h] at hw; exact (beside_vlogAdd _ _).trans hw

@[simp] theorem beside_ringGuard (s : State) (q : Nat) : beside (ringGuard s q).1 = beside s := by
  simp only [ringGuard]
  split
  · exact beside_guardUnits s _
  · rfl

@[simp] theorem beside_coreFault (s : State) : beside (coreFault s) = beside s := by simp [coreFault]

@[simp] theorem beside_useCore (s : State) (w : CoreWord) : beside (useCore s w) = beside s := by
  unfold useCore
  split <;> simp

@[simp] theorem beside_readAll (s : State) (rs : List (Nat × Nat)) : beside (readAll s rs).1 = beside s := by
  induction rs generalizing s with
  | nil => rfl
  | cons x rest ih =>
    have hg := beside_guardUnits s (unitsOf x.1 x.2)
    simp only [readAll]
    split
    · rfl
    · split
      · next h => rwa [h] at hg
      · next h =>
        rw [h] at hg
        refine (ih _).trans ?_
        split
        · exact (beside_countHbm _ _ _).trans hg
        · exact hg

@[simp] theorem beside_writeAll (s : State) (ws : List (Nat × List Byte)) : beside (writeAll s ws).1 = beside s := by
  induction ws generalizing s with
  | nil => rfl
  | cons x rest ih =>
    have hw := beside_hbmWrite s x.1 x.2
    simp only [writeAll]
    split
    · next h => rwa [h] at hw
    · next h => rw [h] at hw; exact (ih _).trans hw

/-! ### What ends a command leaves -/

/-- The pins, and of the headstock's section the tallies and the reservations. -/
def steady (s : State) : Pins × SMap (BitVec 32) × List Reservation := (s.pins, s.head.tallies, s.head.reservations)

theorem steady_of_beside {s t : State} (h : beside t = beside s) : steady t = steady s := (congrArg steady h :)

@[simp] theorem steady_vlogAdd (s : State) (x : LogRec) : steady (vlogAdd s x) = steady s := steady_of_beside (beside_vlogAdd s x)

@[simp] theorem steady_raiseMsix (s : State) (fn v : Nat) : steady (raiseMsix s fn v) = steady s :=
  steady_of_beside (beside_raiseMsix s fn v)

@[simp] theorem steady_setDevEvent (s : State) (m : BitVec 4) : steady (setDevEvent s m) = steady s :=
  steady_of_beside (beside_setDevEvent s m)

@[simp] theorem steady_ringWrite (s : State) (a : Nat) (bytes : List Byte) : steady (ringWrite s a bytes) = steady s :=
  steady_of_beside (beside_ringWrite s a bytes)

@[simp] theorem steady_ringGuard (s : State) (q : Nat) : steady (ringGuard s q).1 = steady s :=
  steady_of_beside (beside_ringGuard s q)

@[simp] theorem steady_emit (s : State) (m : Msg) : steady (emit s m) = steady s := rfl

@[simp] theorem steady_setFab (s : State) (f : Fabric) : steady (setFab s f) = steady s := rfl

@[simp] theorem steady_setOps (s : State) (os : List Op) : steady (setOps s os) = steady s := rfl

@[simp] theorem steady_putOp (s : State) (o : Op) : steady (putOp s o) = steady s := rfl

@[simp] theorem steady_setQ (s : State) (q : Nat) (v : Queue) : steady (setQ s q v) = steady s := rfl

@[simp] theorem steady_modQ (s : State) (q : Nat) (f : Queue → Queue) : steady (modQ s q f) = steady s := rfl

@[simp] theorem steady_dropJobs (s : State) (q tag : Nat) : steady (dropJobs s q tag) = steady s := rfl

@[simp] theorem steady_endFail (s : State) (o : Op) (f : BitVec 8) (e : Fail) : steady (endFail s o f e) = steady s := by
  simp [endFail]

/-! Replies. -/

@[simp] theorem steady_writeReply (s : State) (q : Nat) (w : BitVec 128) (irq : Bool) :
    steady (writeReply s q w irq) = steady s := by
  have hring (b : Bool) (a : Nat) (bytes : List Byte) (fn : Nat) :
      steady (if b then ringWrite s a bytes else hostWrite s fn a bytes false) = steady s := by
    split
    · exact steady_ringWrite s a bytes
    · rfl
  unfold writeReply
  dsimp only
  split
  · rw [steady_raiseMsix, steady_setQ, hring]
  · rw [steady_setQ, hring]

@[simp] theorem steady_deferReply (s : State) (q : Nat) (w : BitVec 128) (irq : Bool) :
    steady (deferReply s q w irq) = steady s := rfl

@[simp] theorem steady_postReply (s : State) (q : Nat) (w : BitVec 128) (irq : Bool) : steady (postReply s q w irq) = steady s := by
  have hg := steady_ringGuard s q
  unfold postReply
  split
  · split
    · next h => rw [h] at hg; exact (steady_writeReply _ _ _ _).trans hg
    · next h => rw [h] at hg; simpa using hg
  · rfl

/-! The fabric's sending. -/

@[simp] theorem steady_sendFlits (s : State) (p n : Nat) (fs : List Nat) : steady (sendFlits s p n fs) = steady s := by
  induction n generalizing s fs with
  | zero => rfl
  | succ n ih =>
    unfold sendFlits
    split
    · rfl
    · exact (ih _ _).trans rfl

@[simp] theorem steady_returnCredit (s : State) (p : Nat) : steady (returnCredit s p) = steady s := by
  simp only [returnCredit]
  split <;> rfl

@[simp] theorem steady_freeBuffer (s : State) (k : Packet) : steady (freeBuffer s k) = steady s := by
  simp only [freeBuffer]
  split
  · rfl
  · split
    · exact steady_returnCredit _ _
    · rfl

@[simp] theorem steady_freePassed (s : State) (k : Packet) : steady (freePassed s k) = steady s := by
  unfold freePassed
  split
  · rfl
  · exact steady_freeBuffer s _

@[simp] theorem steady_putPacket (s : State) (p : Nat) (k : Packet) : steady (putPacket s p k) = steady s := by
  have hport (v : Port) : steady (setPort s p v) = steady s := rfl
  simp [putPacket, hport]

@[simp] theorem steady_drainGo (xs : List (Option Nat × Packet)) (blocked : List (Nat × Nat × Bool))
    (kept : List (Option Nat × Packet)) (s : State) : steady (drainGo xs blocked kept s) = steady s := by
  induction xs generalizing blocked kept s with
  | nil => rfl
  | cons x r ih =>
    simp only [drainGo]
    split
    · split
      · exact ih _ _ _
      · exact (ih _ _ _).trans (steady_freePassed s _)
    · split
      · exact ih _ _ _
      · exact (ih _ _ _).trans (steady_putPacket s _ _)

@[simp] theorem steady_drain (s : State) : steady (drain s) = steady s := steady_drainGo _ _ _ s

@[simp] theorem steady_queueOut (s : State) (x : Option Nat × Packet) : steady (queueOut s x) = steady s := by
  unfold queueOut
  split <;> rfl

@[simp] theorem steady_sendPacket (s : State) (p : Packet) : steady (sendPacket s p) = steady s :=
  (steady_drain _).trans (steady_queueOut s _)

@[simp] theorem steady_sendTracked (s : State) (q tag : Nat) (p : Packet) (a n : Nat) :
    steady (sendTracked s q tag p a n) = steady s := by
  simp [sendTracked, takeTxn]

@[simp] theorem steady_sendControl (s : State) (r : Relay) (ctl : Nat) : steady (sendControl s r ctl) = steady s := by
  unfold sendControl
  dsimp only
  split
  · exact steady_sendTracked _ _ _ _ _ _
  · rfl

@[simp] theorem steady_sendRoute (s : State) (n : RouteNews) : steady (sendRoute s n) = steady s := by
  have hqueue : steady (((List.range 6).filter fun p => takesTraffic (getPort s p)).foldl (fun s p => queueOut s (some p, mkPacket
      { kind := kRoute, vc := 3, src := devId s, dst := (getPort s p).nbrId.toNat } (routeBytes n))) s) = steady s :=
    foldl_keeps steady (fun t p => steady_queueOut t _) _ s
  exact (steady_drain _).trans hqueue

@[simp] theorem steady_returnReply (s : State) (q : Nat) (w : BitVec 128) (irq : Bool) : steady (returnReply s q w irq) = steady s := by
  unfold returnReply
  split
  · exact steady_sendPacket s _
  · rfl

@[simp] theorem steady_giveReply (s : State) (q : Nat) (w : BitVec 128) (irq : Bool) : steady (giveReply s q w irq) = steady s := by
  unfold giveReply
  dsimp only
  split
  · simp
  · simp

/-! An operation that is stopped. -/

@[simp] theorem steady_mixRange (s : State) (j : SnapJob) (x : Section) : steady (mixRange s j x) = steady s := by
  unfold mixRange
  split <;> rfl

@[simp] theorem steady_freePairs (s : State) (p : Nat → Bool) : steady (freePairs s p) = steady s := rfl

@[simp] theorem steady_cutSnap (s : State) (q tag : Nat) : steady (cutSnap s q tag) = steady s := by
  unfold cutSnap
  split
  · dsimp only
    split
    · exact steady_mixRange s _ _
    · rfl
  · rfl

@[simp] theorem steady_collCast (s : State) (c : Coll) (b : CollBody) : steady (collCast s c b) = steady s := by
  refine foldl_keeps steady (fun t d => ?_) _ s
  unfold collSend
  simp

@[simp] theorem steady_tellPlace (s : State) (o : Op) : steady (tellPlace s o) = steady s := by
  unfold tellPlace
  split
  · rfl
  · exact foldl_keeps steady (fun t _ => steady_setFab t _) _ s

@[simp] theorem steady_dropFabric (s : State) (q tag : Nat) : steady (dropFabric s q tag) = steady s := by
  have hcast (t : State) (cs : List Coll) :
      steady (cs.foldl (fun s c => collCast s c (.failed cRemoteError none)) t) = steady t :=
    foldl_keeps steady (fun t c => steady_collCast t c _) cs t
  unfold dropFabric
  dsimp only
  split
  · split
    · rw [steady_tellPlace, hcast, steady_setFab, steady_cutSnap]
    · rw [hcast, steady_setFab, steady_cutSnap]
  · rw [hcast, steady_setFab, steady_cutSnap]

@[simp] theorem steady_stopWith (s : State) (o : Op) (f : BitVec 8) (e : Fail) : steady (stopWith s o f e) = steady s := by
  simp [stopWith]

@[simp] theorem steady_abortOps (s : State) (p : Op → Bool) : steady (abortOps s p) = steady s := by
  refine foldl_keeps steady (fun t o => ?_) _ s
  unfold abortOp
  split
  · rfl
  · exact steady_stopWith t o _ _

/-! ### Signals change tallies -/

/-- What stays when signals are applied too: the pins and the reservations. -/
def steadier (s : State) : Pins × List Reservation := ((steady s).1, (steady s).2.2)

theorem steadier_of_steady {s t : State} (h : steady t = steady s) : steadier t = steadier s := by rw [steadier, h]; rfl

@[simp] theorem steadier_applySignals (s : State) (o : Op) : steadier (applySignals s o) = steadier s := by
  have hcore (t : State) (w : CoreWord) : steadier (useCore t w) = steadier t :=
    steadier_of_steady (steady_of_beside (beside_useCore t w))
  refine foldl_keeps steadier (fun t i => ?_) _ s
  dsimp only
  split
  · rfl
  · split
    · exact steadier_of_steady (steady_of_beside (beside_coreFault t))
    · split
      · exact hcore t _
      · exact hcore t _
      · exact hcore t _

end Sys2Proof.Machine
end

section
/-!
Power, stops and starts (R424, R426, R517 to R520, R593 to R596): what a stop and a start leave of the pins, the tallies and the
reservations; then the scrubbers and the governor (R463 to R466, R478 to R480, R487, R488).
-/

namespace Sys2Proof.Machine

/-! ### A stop (R517 to R519) -/

@[simp] theorem steady_stopReply (s : State) (q : Nat) (w : BitVec 128) (irq : Bool) : steady (stopReply s q w irq) = steady s := by
  unfold stopReply
  split
  · exact steady_writeReply s q w irq
  · rfl

@[simp] theorem stopReply_head_ops (s : State) (q : Nat) (w : BitVec 128) (irq : Bool) :
    (stopReply s q w irq).head.ops = s.head.ops := by
  unfold stopReply
  split
  · exact writeReply_head_ops s q w irq
  · rfl

@[simp] theorem steady_stopDeferred (s : State) (q : Nat) : steady (stopDeferred s q) = steady s :=
  foldl_keeps steady (fun t (d : BitVec 128 × Bool) => steady_stopReply t q d.1 d.2) _ s

@[simp] theorem stopDeferred_head_ops (s : State) (q : Nat) : (stopDeferred s q).head.ops = s.head.ops :=
  foldl_keeps (·.head.ops) (fun t (d : BitVec 128 × Bool) => stopReply_head_ops t q d.1 d.2) _ s

@[simp] theorem steady_stopRelay (s : State) (r : Relay) : steady (stopRelay s r) = steady s :=
  foldl_keeps steady (fun t _ => (steady_stopReply _ _ _ _).trans (steady_vlogAdd t _)) _ s

theorem steadier_stopOp (s : State) (o : Op) : steadier (stopOp s o) = steadier s := by
  have hend : steady (if o.phase = .ended then s
      else endFail (cutSnap s o.q o.tag) o 0#8 (snapFail s o (failPlain cAborted))) = steady s := by
    split
    · rfl
    · simp
  unfold stopOp
  dsimp only
  split
  · exact steadier_of_steady hend
  · next p _ =>
    have hsignal (t : State) :
        steadier (if !p.signalled && (p.status ≤ 1 || pSigAlways p) then applySignals t p else t) = steadier t := by
      split
      · exact steadier_applySignals t p
      · rfl
    split
    · rw [hsignal, steadier_of_steady hend]
    · rw [steadier_of_steady (steady_stopReply _ _ _ _), hsignal, steadier_of_steady hend]

theorem pins_of_steadier {s t : State} (h : steadier t = steadier s) : t.pins = s.pins := congrArg Prod.fst h

theorem reservations_of_steadier {s t : State} (h : steadier t = steadier s) :
    t.head.reservations = s.head.reservations := congrArg Prod.snd h

theorem tallies_of_steady {s t : State} (h : steady t = steady s) : t.head.tallies = s.head.tallies := congrArg (·.2.1) h

/-- A stop ends replies that waited, commands and relayed packets; only the commands' signals change tallies. -/
theorem stopAll_steady (s : State) :
    steadier (stopAll s) = steadier s ∧ (s.head.ops = [] → steady (stopAll s) = steady s) := by
  have hdrop (t : State) : steady ((List.range 64).foldl
      (fun s q => if (getQ s q).deferred.isEmpty then s else modQ s q fun v => { v with deferred := [] }) t) = steady t := by
    refine foldl_keeps steady (fun u q => ?_) _ t
    split <;> rfl
  have hrelay (rs : List Relay) (t : State) : steady (rs.foldl stopRelay t) = steady t :=
    foldl_keeps steady (fun u r => steady_stopRelay u r) rs t
  unfold stopAll
  extract_lets g s1 s2 s3 s4
  have h2 : steady s2 = steady s := foldl_keeps steady (fun t q => steady_stopDeferred t q) _ s1
  have hops : s2.head.ops = s.head.ops := foldl_keeps (·.head.ops) (fun t q => stopDeferred_head_ops t q) _ s1
  have h4 : steady s4 = steady (s2.head.ops.foldl stopOp s2) := (hdrop s3).trans (hrelay _ _)
  clear_value s4 s3 s2
  constructor
  · have hcommands : steadier (s2.head.ops.foldl stopOp s2) = steadier s2 :=
      foldl_keeps steadier (fun u o => steadier_stopOp u o) _ s2
    exact (steadier_of_steady h4).trans (hcommands.trans (steadier_of_steady h2))
  · intro hnone
    rw [hops, hnone] at h4
    exact h4.trans h2

@[simp] theorem stopAll_pins (s : State) : (stopAll s).pins = s.pins := pins_of_steadier (stopAll_steady s).1

/-- Where no command is in flight, a stop changes no tally (R521). -/
theorem stopAll_tallies_of_no_ops {s : State} (h : s.head.ops = []) : (stopAll s).head.tallies = s.head.tallies :=
  tallies_of_steady ((stopAll_steady s).2 h)

/-! ### The firmware's records and keep registers -/

/-- A state beside its firmware and global registers. -/
def besideFirm (s : State) : State := { s with firm := State.reset.firm, glob := State.reset.glob, freeIdx := 0 }

theorem steady_of_besideFirm {s t : State} (h : besideFirm t = besideFirm s) : steady t = steady s := (congrArg steady h :)

@[simp] theorem besideFirm_setFirm (s : State) (f : Firm) : besideFirm (setFirm s f) = besideFirm s := rfl

@[simp] theorem besideFirm_writeRecord (s : State) (f : Journal → Journal) : besideFirm (writeRecord s f) = besideFirm s := rfl

@[simp] theorem besideFirm_storeKeep (s : State) (i : Nat) (v : BitVec 32) : besideFirm (storeKeep s i v) = besideFirm s := by
  unfold storeKeep
  split <;> rfl

@[simp] theorem besideFirm_restoreKeeps (s : State) : besideFirm (restoreKeeps s) = besideFirm s := by
  unfold restoreKeeps
  split
  · rfl
  · next vs _ =>
    have h : besideFirm (vs.foldl (fun s p => storeKeep s p.1 p.2) s) = besideFirm s :=
      foldl_keeps besideFirm (fun t (p : Nat × BitVec 32) => besideFirm_storeKeep t p.1 p.2) _ s
    generalize vs.foldl (fun s p => storeKeep s p.1 p.2) s = t at h ⊢
    exact h

@[simp] theorem besideFirm_restoreImage (s : State) (wdog : Bool) : besideFirm (restoreImage s wdog) = besideFirm s := by
  unfold restoreImage
  dsimp only
  split
  · exact (besideFirm_restoreKeeps _).trans rfl
  · rfl

@[simp] theorem besideFirm_firstStart (s : State) : besideFirm (firstStart s) = besideFirm s := rfl

@[simp] theorem besideFirm_actOnPhase (s : State) (awaited : Bool) : besideFirm (actOnPhase s awaited) = besideFirm s := by
  unfold actOnPhase
  split
  · split <;> rfl
  · rfl
  · rfl
  · exact besideFirm_restoreImage s _
  · exact besideFirm_restoreImage s _
  · exact besideFirm_restoreImage s _
  · rfl
  · rfl

theorem besideFirm_takeShadow (old s : State) : besideFirm (takeShadow old s) = besideFirm s := rfl

@[simp] theorem besideFirm_migrate (s : State) : besideFirm (migrate s) = besideFirm s := by
  have hstore (n : Nat) : besideFirm (storeLayout s n) = besideFirm s :=
    (besideFirm_storeKeep _ _ _).trans (foldl_keeps besideFirm (fun t i => besideFirm_storeKeep t i _) _ s)
  unfold migrate
  dsimp only
  split
  · rfl
  · exact (besideFirm_takeShadow _ _).trans (hstore _)

@[simp] theorem besideFirm_loaderStart (s : State) : besideFirm (loaderStart s) = besideFirm s := by
  unfold loaderStart
  extract_lets g s1 awaited f1 s2 s3 s4 f4 s5
  have h3 : besideFirm s3 = besideFirm s := besideFirm_actOnPhase s2 awaited
  have h4 : besideFirm s4 = besideFirm s := by
    unfold s4
    split
    · exact h3
    · exact (besideFirm_restoreImage s3 false).trans h3
  have h5 : besideFirm s5 = besideFirm s := h4
  clear_value s5
  split
  · split
    · exact (besideFirm_migrate s5).trans h5
    · exact h5
  · exact h5

@[simp] theorem besideFirm_noteBase (s : State) : besideFirm (noteBase s) = besideFirm s := by
  unfold noteBase
  dsimp only
  split <;> rfl

/-! ### A start (R514, R518, R520) -/

@[simp] theorem steady_setPort (s : State) (p : Nat) (v : Port) : steady (setPort s p v) = steady s := rfl

@[simp] theorem steady_setPd (s : State) (d : Nat) (v : PdState) : steady (setPd s d v) = steady s := rfl

@[simp] theorem steady_leaveRoutes (s : State) (p : Nat) : steady (leaveRoutes s p) = steady s := by
  unfold leaveRoutes
  split
  · simp [linkChange, putLink]
  · rfl

@[simp] theorem steady_startTraining (s : State) (p : Nat) : steady (startTraining s p) = steady s := by
  unfold startTraining
  dsimp only
  split <;> simp

@[simp] theorem steady_startPorts (s : State) (warm : Bool) : steady (startPorts s warm) = steady s := by
  refine foldl_keeps steady (fun t p => ?_) _ s
  dsimp only
  split
  · rfl
  · split
    · simp
    · rfl

@[simp] theorem steady_loseSpindle (s : State) (i : Nat) : steady (loseSpindle s i) = steady s := by
  unfold loseSpindle markLost
  dsimp only
  split <;> rfl

theorem steady_reported (s : State) (auto : Bool) (l : Nat) : steady (if auto then autoReport s l else s) = steady s := by
  split
  · simp [autoReport]
  · rfl

@[simp] theorem steady_fenceLathe (s : State) (l : Nat) (auto : Bool) : steady (fenceLathe s l auto) = steady s := by
  have hlose (t : State) : steady ((List.range 64).foldl (fun t i => loseSpindle t (64 * l + i)) t) = steady t :=
    foldl_keeps steady (fun u i => steady_loseSpindle u _) _ t
  unfold fenceLathe
  dsimp only
  split
  · rfl
  · rw [steady_abortOps, hlose, steady_reported]
    rfl

@[simp] theorem steady_fenceSpindle (s : State) (i : Nat) (auto : Bool) : steady (fenceSpindle s i auto) = steady s := by
  unfold fenceSpindle
  split
  · rfl
  · extract_lets d t1 t2 hit t3
    have h3 : steady t3 = steady s := by
      rw [steady_abortOps, steady_loseSpindle]
      exact steady_reported t1 auto _
    split
    · exact (steady_fenceLathe t3 _ true).trans h3
    · exact h3

@[simp] theorem steady_selfTest (s : State) (st : StartIn) : steady (selfTest s st) = steady s := by
  have hspindles (is : List Nat) (t : State) : steady (is.foldl (fun s i => fenceSpindle s i true) t) = steady t :=
    foldl_keeps steady (fun u i => steady_fenceSpindle u i true) is t
  have hlathes (ls : List Nat) (t : State) : steady (ls.foldl (fun s l => fenceLathe s l true) t) = steady t :=
    foldl_keeps steady (fun u l => steady_fenceLathe u l true) ls t
  unfold selfTest
  extract_lets s1 before sp s2 s3 n
  have h3 : steady s3 = steady s := by rw [hlathes, hspindles]; rfl
  exact h3

@[simp] theorem steady_startUp (s : State) (st : StartIn) (warm : Bool) : steady (startUp s st warm) = steady s := by
  have hloader (t : State) : steady (loaderStart t) = steady t := steady_of_besideFirm (besideFirm_loaderStart t)
  have hbase (t : State) : steady (noteBase t) = steady t := steady_of_besideFirm (besideFirm_noteBase t)
  have hglob (t : State) (g : Glob) : steady { t with glob := g } = steady t := rfl
  have hcap (t : State) (w : Nat) : steady (setCap t w).1 = steady t := rfl
  unfold startUp
  extract_lets g0 s1 s2 g2 s3 s4 s5 s6
  have h5 : steady s5 = steady s := (steady_startPorts s4 warm).trans (hloader s1)
  split
  · exact h5
  · have h6 : steady s6 = steady s := ((hbase _).trans (steady_selfTest s5 st)).trans h5
    exact h6

theorem startUp_tallies (s : State) (st : StartIn) (warm : Bool) : (startUp s st warm).head.tallies = s.head.tallies :=
  tallies_of_steady (steady_startUp s st warm)

theorem warmStart_tallies (s : State) (st : StartIn) : (warmStart s st).head.tallies = s.head.tallies :=
  startUp_tallies (warmState s) st true

/-- A reset with the link, where no command is in flight. -/
theorem restart_tallies {s t : State} {st : StartIn} (hops : s.head.ops = []) (h : restart st s = .next t) :
    t.head.tallies = s.head.tallies := by
  unfold restart at h
  split at h
  · exact absurd h nofun
  · obtain rfl : warmStart _ st = t := by simpa using h
    rw [warmStart_tallies]
    exact stopAll_tallies_of_no_ops hops

theorem perstAssert_tallies {s t : State} (hops : s.head.ops = []) (h : exec .perstAssert s = .next t) :
    t.head.tallies = s.head.tallies := by
  have hrow : execPerstAssert s = .next t := h
  unfold execPerstAssert at hrow
  dsimp only at hrow
  split at hrow
  · exact absurd hrow nofun
  · split at hrow
    · obtain rfl : _ = t := by simpa using hrow
      rfl
    · obtain rfl : stopAll _ = t := by simpa using hrow
      exact stopAll_tallies_of_no_ops hops

theorem warmDeassert_tallies {s t : State} {st : StartIn} (hwarm : s.glob.coldPending = false)
    (h : exec (.perstDeassert st) s = .next t) : t.head.tallies = s.head.tallies := by
  have hrow : execPerstDeassert st s = .next t := h
  unfold execPerstDeassert at hrow
  dsimp only at hrow
  split at hrow
  · exact absurd hrow nofun
  · rw [hwarm, if_neg Bool.false_ne_true] at hrow
    obtain rfl : warmStart _ st = t := by simpa using hrow
    exact warmStart_tallies _ st

theorem getTally_addTally (s : State) (i j n : Nat) : getTally (addTally s i n) j
    = if i = j then BitVec.ofNat 32 ((getTally s i).toNat + n) else getTally s j := by
  rw [addTally, getTally_setTally, BitVec.ofNat_add, BitVec.ofNat_toNat, BitVec.setWidth_eq]

theorem getTally_of_tallies_eq {s t : State} (h : t.head.tallies = s.head.tallies) (i : Nat) : getTally t i = getTally s i := by
  rw [getTally, getTally, h]

/-! ### A loss of power (R594) -/

/-- Tearing the record under way writes it to the journal's ring, and nothing else. -/
theorem tearRecord_eq (s : State) : tearRecord s = { s with firm := { s.firm with ring := (tearRecord s).firm.ring } } := by
  unfold tearRecord
  split <;> rfl

theorem tearRecord_of_idle {s : State} (h : s.firm.activating = none) : tearRecord s = s := by simp [tearRecord, h]

theorem powerShutdown_eq {s t : State} {c : ShutdownCause} (h : exec (.powerShutdown c) s = .next t) :
    t = { powerLoss s with pins := { (powerLoss s).pins with shutdown := true } } := by
  have hrow : execPowerShutdown c s = .next t := h
  unfold execPowerShutdown at hrow
  split at hrow
  · exact absurd hrow nofun
  · simpa using hrow.symm

theorem pwrEnFall_eq {s t : State} (h : exec .pwrEnFall s = .next t) :
    t = { (if s.pins.railsUp then powerLoss s else s) with
      pins := { (if s.pins.railsUp then powerLoss s else s).pins with pwrEn := false } } := by
  have hrow : execPwrEnFall s = .next t := h
  unfold execPwrEnFall at hrow
  split at hrow
  · exact absurd hrow nofun
  · simpa using hrow.symm

/-! ### The governor (R464 to R466) -/

/-- The rail moves to no more than V_MAX, where it did not stand above it. -/
theorem nextRail_le_vmax {s : State} (hold : s.power.coreMv.toNat ≤ s.power.vmaxMv.toNat) (hmin : 450 ≤ s.power.vmaxMv.toNat) :
    nextRail s ≤ s.power.vmaxMv.toNat := by
  unfold nextRail
  dsimp only
  rw [Nat.min_eq_left hold]
  split
  · exact hmin
  · split
    · have hmod := Nat.mod_lt (Config.freeNat s.freeIdx) (y := max 1 (min (cdiv (s.power.coreMv.toNat - 450) 5)
        ((s.power.coreMv.toNat - 450) / 5 + 1))) (by omega)
      omega
    · split
      · exact Nat.min_le_left _ _
      · exact hold

theorem govern_coreMv_le {s : State} (hold : s.power.coreMv.toNat ≤ s.power.vmaxMv.toNat) (hmin : 450 ≤ s.power.vmaxMv.toNat) :
    (govern s).power.coreMv.toNat ≤ s.power.vmaxMv.toNat := by
  refine le_trans ?_ (nextRail_le_vmax hold hmin)
  exact (BitVec.toNat_ofNat _ _).trans_le (Nat.mod_le _ _)

@[simp] theorem raiseMsix_power (s : State) (fn v : Nat) : (raiseMsix s fn v).power = s.power := by rw [raiseMsix_eq]

theorem raiseHeat_power (s : State) (was : Bool) : (raiseHeat s was).power = s.power := by
  unfold raiseHeat
  split
  · rfl
  · exact raiseMsix_power _ _ _

/-! ### The scrubbers (R487, R488) -/

/-- The symbol of a sector, and the bit of a bench word, that an error makes wrong. -/
def symbolAt (a : Nat) (x : Upset) : Option Nat := match x with | .hbm b k => if b = a then some k else none | _ => none
def bitAt (w : Nat) (x : Upset) : Option Nat := match x with | .bench b k => if b = w then some k else none | _ => none

theorem wrongSymbols_eq (s : State) (a : Nat) : wrongSymbols s a = (s.mems.upsets.filterMap (symbolAt a)).dedup := rfl

theorem wrongBits_eq (s : State) (w : Nat) : wrongBits s w = (s.mems.upsets.filterMap (bitAt w)).dedup := rfl

/-- The unit at an address, with no latent error in it. -/
def Sound (s : State) (a : Nat) : Prop := s.mems.poison.contains a = false ∧ ∀ x ∈ s.mems.upsets, upsetIn a x = false

theorem arise_of_sound {s : State} {a : Nat} (h : Sound s a) :
    arise s a .clean = s
      ∧ arise s a .correctable = nextFree (setUpsets s (newUpset s a 0 :: s.mems.upsets))
      ∧ arise s a .uncorrectable = nextFree (setUpsets s (newUpset s a 0 :: newUpset s a 1 :: s.mems.upsets)) := by
  have hany : ¬s.mems.upsets.any (upsetIn a) = true := by simpa using h.2
  exact ⟨if_neg hany, if_neg hany, if_neg hany⟩

/-! A sector of HBM. -/

theorem filterMap_symbolAt_of_sound {s : State} {a : Nat} (h : Sound s a) : s.mems.upsets.filterMap (symbolAt a) = [] := by
  rw [List.filterMap_eq_nil_iff]
  intro x hx
  have hno := h.2 x hx
  unfold symbolAt
  split
  · next b k =>
    rw [if_neg]
    rintro rfl
    simp [upsetIn] at hno
  · rfl

/-- Latent errors elsewhere stay when those of a unit go. -/
theorem filter_not_upsetIn_of_sound {s : State} {a : Nat} (h : Sound s a) :
    s.mems.upsets.filter (fun x => !upsetIn a x) = s.mems.upsets :=
  List.filter_eq_self.mpr fun x hx => by simp [h.2 x hx]

section
variable {s : State} {a : Nat} (hhbm : isHbm a = true) (h : Sound s a)
include hhbm h

theorem scrub_clean_sector : scrub (arise s a .clean) a = s := by
  rw [(arise_of_sound h).1]
  have hw : wrongSymbols s a = [] := by rw [wrongSymbols_eq, filterMap_symbolAt_of_sound h]; rfl
  have hg : guardUnit s a = (s, 0#8, none) := by
    simp only [guardUnit, hhbm, h.1, hw, if_true, Bool.false_eq_true, if_false]
  simp only [scrub, hg]

theorem scrub_correctable_sector : scrub (arise s a .correctable) a = nextFree (countCorr s true a 0) := by
  rw [(arise_of_sound h).2.1]
  have hnew : newUpset s a 0 = .hbm a (Config.freeNat s.freeIdx % 32) := if_pos hhbm
  rw [hnew]
  have hw (t : State) (ht : t.mems.upsets = .hbm a (Config.freeNat s.freeIdx % 32) :: s.mems.upsets) :
      wrongSymbols t a = [Config.freeNat s.freeIdx % 32] := by
    simp [wrongSymbols_eq, ht, symbolAt, filterMap_symbolAt_of_sound h]
  have hdrop : (Upset.hbm a (Config.freeNat s.freeIdx % 32) :: s.mems.upsets).filter (fun x => !upsetIn a x) = s.mems.upsets := by
    rw [List.filter_cons_of_neg (by simp [upsetIn]), filter_not_upsetIn_of_sound h]
  generalize hk : Config.freeNat s.freeIdx % 32 = k at hw hdrop ⊢
  have hp := h.1
  have hg : guardUnit (nextFree (setUpsets s (.hbm a k :: s.mems.upsets))) a
      = (dropUpset (countCorr (nextFree (setUpsets s (.hbm a k :: s.mems.upsets))) true a 0) a, fCorrected, none) := by
    have hp' : (nextFree (setUpsets s (.hbm a k :: s.mems.upsets))).mems.poison.contains a = false := hp
    simp only [guardUnit, hhbm, hp', hw (nextFree (setUpsets s (.hbm a k :: s.mems.upsets))) rfl, if_true, Bool.false_eq_true,
      if_false]
  rw [scrub, hg]
  show setUpsets _ ((Upset.hbm a k :: s.mems.upsets).filter fun x => !upsetIn a x) = _
  rw [hdrop]
  rfl

theorem scrub_uncorrectable_sector :
    scrub (arise s a .uncorrectable) a = scrubLog (poisonAt (nextFree (countUncorr s true)) a) a := by
  rw [(arise_of_sound h).2.2]
  have hnew (k : Nat) : newUpset s a k = .hbm a (Config.freeNat s.freeIdx % 32 + k) := if_pos hhbm
  rw [hnew, hnew]
  generalize Config.freeNat s.freeIdx % 32 = k
  have hw (t : State) (ht : t.mems.upsets = .hbm a (k + 0) :: .hbm a (k + 1) :: s.mems.upsets) : wrongSymbols t a = [k, k + 1] := by
    simp [wrongSymbols_eq, ht, symbolAt, filterMap_symbolAt_of_sound h]
  have hdrop : (Upset.hbm a (k + 0) :: .hbm a (k + 1) :: s.mems.upsets).filter (fun x => !upsetIn a x) = s.mems.upsets := by
    rw [List.filter_cons_of_neg (by simp [upsetIn]), List.filter_cons_of_neg (by simp [upsetIn]), filter_not_upsetIn_of_sound h]
  generalize hus : Upset.hbm a (k + 0) :: .hbm a (k + 1) :: s.mems.upsets = us at hw hdrop ⊢
  have hg : guardUnit (nextFree (setUpsets s us)) a
      = (poisonAt (dropUpset (countUncorr (nextFree (setUpsets s us)) true) a) a, 0#8, some (failAt cEcc a)) := by
    have hp : (nextFree (setUpsets s us)).mems.poison.contains a = false := h.1
    simp only [guardUnit, hhbm, hp, hw (nextFree (setUpsets s us)) rfl, if_true, Bool.false_eq_true, if_false]
  rw [scrub, hg]
  show scrubLog (poisonAt (setUpsets _ (us.filter fun x => !upsetIn a x)) a) a = _
  rw [hdrop]
  rfl

end

/-! A row of a bench. -/

theorem mem_rowWords {a w : Nat} : w ∈ rowWords a ↔ ∃ i, i < 64 ∧ a + 8 * i = w := by simp [rowWords]

theorem rowWords_nodup (a : Nat) : (rowWords a).Nodup :=
  List.Nodup.map (fun i j h => by simpa using h) List.nodup_range

/-- The only word of a row with a property. -/
theorem filter_rowWords_eq_singleton {a w : Nat} {p : Nat → Bool} (hw : w ∈ rowWords a) (hp : ∀ v ∈ rowWords a, p v = (v == w)) :
    (rowWords a).filter p = [w] := by
  rw [List.filter_congr hp, List.filter_beq, List.count_eq_one_of_mem (rowWords_nodup a) hw]
  rfl

section
variable {s : State} {a : Nat} (hbench : isHbm a = false) (hal : a % 512 = 0) (h : Sound s a)
include hbench hal h

/-- An error in some word of a row without errors does not lie in the row. -/
theorem not_mem_rowWords_of_sound {w b : Nat} (hx : Upset.bench w b ∈ s.mems.upsets) : w ∉ rowWords a := by
  intro hw
  obtain ⟨i, hi, rfl⟩ := mem_rowWords.mp hw
  have hno := h.2 _ hx
  have hrow : (a + 8 * i) / 512 * 512 = a := by omega
  simp [upsetIn, hbench, hrow] at hno

theorem filterMap_bitAt_of_sound {w : Nat} (hw : w ∈ rowWords a) : s.mems.upsets.filterMap (bitAt w) = [] := by
  rw [List.filterMap_eq_nil_iff]
  intro x hx
  unfold bitAt
  split
  · rw [if_neg]
    rintro rfl
    exact not_mem_rowWords_of_sound hbench hal h hx hw
  · rfl

/-- The errors of the row, when new ones have arisen in one of its words. -/
theorem wrongBits_of_arisen {t : State} {w v : Nat} (bs : List Nat) (hbs : bs.Nodup)
    (ht : t.mems.upsets = bs.map (.bench w ·) ++ s.mems.upsets) (hv : v ∈ rowWords a) :
    wrongBits t v = if v = w then bs else [] := by
  rw [wrongBits_eq, ht, List.filterMap_append, filterMap_bitAt_of_sound hbench hal h hv, List.append_nil, List.filterMap_map]
  split
  · next heq =>
    have hsome : bitAt v ∘ (Upset.bench w ·) = some := funext fun b => by simp [bitAt, heq]
    rw [hsome, List.filterMap_some, List.dedup_eq_self.mpr hbs]
  · next hne =>
    have hnone : bitAt v ∘ (Upset.bench w ·) = fun _ => none := funext fun b => by simp [bitAt, Ne.symm hne]
    rw [hnone]
    simp

/-- The words that a row's correction reaches hold none of the errors elsewhere. -/
theorem filter_corrected_of_sound {ws : List Nat} (hws : ws ⊆ rowWords a) :
    s.mems.upsets.filter (fun x => match x with | .bench b _ => !ws.contains b | _ => true) = s.mems.upsets := by
  refine List.filter_eq_self.mpr fun x hx => ?_
  split
  · simpa using fun hb => not_mem_rowWords_of_sound hbench hal h hx (hws hb)
  · rfl

theorem scrub_clean_row : scrub (arise s a .clean) a = s := by
  rw [(arise_of_sound h).1]
  have hbits (v : Nat) (hv : v ∈ rowWords a) : wrongBits s v = [] := by rw [wrongBits_eq, filterMap_bitAt_of_sound hbench hal h hv]; rfl
  have hsoft : softWords s a = [] := List.filter_eq_nil_iff.mpr fun v hv => by simp [hbits v hv]
  have hhard : hardRow s a = false := List.any_eq_false.mpr fun v hv => by simp [hbits v hv]
  have hcorr : correctRow s a = (s, 0#8) := by
    rw [correctRow, hsoft]
    exact Prod.ext (congrArg (setUpsets s) (filter_corrected_of_sound hbench hal h (List.nil_subset _))) rfl
  have hg : guardUnit s a = (s, 0#8, none) := by
    simp only [guardUnit, hbench, hcorr, h.1, hhard, Bool.or_self, Bool.false_eq_true, if_false]
  rw [scrub, hg]

theorem scrub_correctable_row :
    scrub (arise s a .correctable) a = nextFree (countCorr s false (a + 8 * (Config.freeNat s.freeIdx % 64)) 1) := by
  rw [(arise_of_sound h).2.1]
  have hnew : newUpset s a 0 = .bench (a + 8 * (Config.freeNat s.freeIdx % 64)) (Config.freeNat s.freeIdx / 64 % 64 + 0) :=
    if_neg (by simp [hbench])
  have hw : a + 8 * (Config.freeNat s.freeIdx % 64) ∈ rowWords a := mem_rowWords.mpr ⟨_, Nat.mod_lt _ (by decide), rfl⟩
  rw [hnew]
  generalize a + 8 * (Config.freeNat s.freeIdx % 64) = w at hw ⊢
  generalize Config.freeNat s.freeIdx / 64 % 64 + 0 = b
  let t := nextFree (setUpsets s (.bench w b :: s.mems.upsets))
  have hbits (v : Nat) (hv : v ∈ rowWords a) : wrongBits t v = if v = w then [b] else [] :=
    wrongBits_of_arisen hbench hal h [b] (List.nodup_singleton b) rfl hv
  have hsoft : softWords t a = [w] := filter_rowWords_eq_singleton hw fun v hv => by
    rw [hbits v hv]
    by_cases hvw : v = w <;> simp [hvw]
  have hhard : hardRow t a = false := List.any_eq_false.mpr fun v hv => by
    rw [hbits v hv]
    split <;> simp
  have hdrop : t.mems.upsets.filter (fun x => match x with | .bench b _ => !([w].contains b) | _ => true) = s.mems.upsets := by
    show (Upset.bench w b :: s.mems.upsets).filter _ = _
    rw [List.filter_cons_of_neg (by simp), filter_corrected_of_sound hbench hal h (List.cons_subset.mpr ⟨hw, List.nil_subset _⟩)]
  have hcorr : correctRow t a = (setUpsets (countCorr t false w 1) s.mems.upsets, fCorrected) := by
    rw [correctRow, hsoft]
    exact Prod.ext (congrArg (setUpsets (countCorr t false w 1)) hdrop) rfl
  have hp : t.mems.poison.contains a = false := h.1
  have hg : guardUnit t a = (setUpsets (countCorr t false w 1) s.mems.upsets, fCorrected, none) := by
    simp only [guardUnit, hbench, hcorr, hp, hhard, Bool.or_self, Bool.false_eq_true, if_false]
  show scrub t a = _
  rw [scrub, hg]
  rfl

theorem scrub_uncorrectable_row : ∃ t, scrub (arise s a .uncorrectable) a = scrubLog (countUncorr t false) a
    ∧ t = nextFree { s with mems := { s.mems with upsets := t.mems.upsets } } ∧ hardRow t a = true := by
  rw [(arise_of_sound h).2.2]
  have hnew (k : Nat) : newUpset s a k
      = .bench (a + 8 * (Config.freeNat s.freeIdx % 64)) (Config.freeNat s.freeIdx / 64 % 64 + k) := if_neg (by simp [hbench])
  have hw : a + 8 * (Config.freeNat s.freeIdx % 64) ∈ rowWords a := mem_rowWords.mpr ⟨_, Nat.mod_lt _ (by decide), rfl⟩
  rw [hnew, hnew]
  generalize a + 8 * (Config.freeNat s.freeIdx % 64) = w at hw ⊢
  generalize Config.freeNat s.freeIdx / 64 % 64 = b
  let t := nextFree (setUpsets s (.bench w (b + 0) :: .bench w (b + 1) :: s.mems.upsets))
  have hbits (v : Nat) (hv : v ∈ rowWords a) : wrongBits t v = if v = w then [b + 0, b + 1] else [] :=
    wrongBits_of_arisen hbench hal h [b + 0, b + 1] (by simp) rfl hv
  have hsoft : softWords t a = [] := List.filter_eq_nil_iff.mpr fun v hv => by
    rw [hbits v hv]
    split <;> simp
  have hhard : hardRow t a = true := List.any_eq_true.mpr ⟨w, hw, by simp [hbits w hw]⟩
  have hcorr : correctRow t a = (t, 0#8) := by
    rw [correctRow, hsoft]
    refine Prod.ext (congrArg (setUpsets t) (List.filter_eq_self.mpr fun x _ => ?_)) rfl
    split <;> rfl
  have hg : guardUnit t a = (countUncorr t false, 0#8, some (failAt cEcc a)) := by
    simp only [guardUnit, hbench, hcorr, hhard, Bool.or_true, Bool.false_eq_true, if_false, if_true]
  refine ⟨t, ?_, rfl, hhard⟩
  show scrub t a = _
  rw [scrub, hg]

end

end Sys2Proof.Machine

open Sys2Proof Sys2Proof.Machine

/-- Settles O31: the frames of a stop and of a start, and what `addTally` and `setTally` write. -/
theorem tallyRules : Obligations.TallyRules := by
  unfold Obligations.TallyRules
  refine ⟨fun _ => rfl, fun _ _ => rfl, fun s t st i hops h => getTally_of_tallies_eq ?_ i, fun s i j n => getTally_addTally s i j n,
    fun s i j v => getTally_setTally s i j v, fun s rq i v hi h hown => exec_tallyWrite hi h hown v⟩
  obtain h | h | h | ⟨hwarm, h⟩ := h
  · exact perstAssert_tallies hops h
  · exact restart_tallies hops h
  · exact restart_tallies hops h
  · exact warmDeassert_tallies hwarm h

/-- Settles O57, by the branches of each row; a stop leaves the pins as they are. -/
theorem startsAndStops : Obligations.StartsAndStops := by
  unfold Obligations.StartsAndStops
  intro s st
  refine ⟨fun v id hen hup hperst hlo hhi => ?_, fun hperst hup => ⟨fun hcold => ?_, fun hcold => ?_⟩, fun hperst => ?_,
    fun hperst hcfg => ?_⟩
  · refine ⟨_, if_neg ?_, rfl, rfl, rfl, rfl⟩
    simp [hen, hup, hperst, hlo, hhi]
  · show execPerstDeassert st s = _
    simp [execPerstDeassert, hperst, hup, hcold]
  · show execPerstDeassert st s = _
    simp [execPerstDeassert, hperst, hup, hcold]
  · cases hup : s.pins.railsUp
    · exact ⟨_, (if_neg (by simp [hperst])).trans (if_pos (by simp [hup])), rfl⟩
    · exact ⟨_, (if_neg (by simp [hperst])).trans (if_neg (by simp [hup])), by rw [stopAll_pins]⟩
  · have hrow : restart st s = .next (warmStart (stopAll { s with glob := { s.glob with cfgUp := false } }) st) := by
      simp [restart, hperst, hcfg]
    exact ⟨hrow, hrow⟩

/-- Settles O58: either row is `powerLoss` of the state, which reads the flash regions, the keep registers and the torn
record. -/
theorem powerLossKeepsTheKeepRegisters : Obligations.PowerLossKeepsTheKeepRegisters := by
  unfold Obligations.PowerLossKeepsTheKeepRegisters
  intro s t c
  have hlost (p : Pins) (hp : p.railsUp = false) (ht : t = { powerLoss s with pins := p }) :
      t.pins.railsUp = false ∧ t.firm.keep = s.firm.keep ∧ t.firm.wear = s.firm.wear ∧ t.firm.staged = s.firm.staged
      ∧ t.firm.running = s.firm.running ∧ t.firm.rollback = s.firm.rollback ∧ t.firm.shadow = s.firm.shadow
      ∧ (s.firm.activating = none → t.firm.ring = s.firm.ring)
      ∧ t.firm.ring = (tearRecord s).firm.ring
      ∧ t.mems.dev = [] ∧ t.mems.poison = [] ∧ t.dies = State.reset.dies ∧ t.head = State.reset.head
      ∧ t.faults = State.reset.faults ∧ t.glob.ready = false := by
    have htear := tearRecord_eq s
    subst ht
    refine ⟨hp, ?_, ?_, ?_, ?_, ?_, ?_, fun hidle => ?_, rfl, rfl, rfl, rfl, rfl, rfl, rfl⟩
    · exact (congrArg (·.firm.keep) htear :)
    · exact (congrArg (·.firm.wear) htear :)
    · exact (congrArg (·.firm.staged) htear :)
    · exact (congrArg (·.firm.running) htear :)
    · exact (congrArg (·.firm.rollback) htear :)
    · exact (congrArg (·.firm.shadow) htear :)
    · exact (congrArg (·.firm.ring) (tearRecord_of_idle hidle) :)
  refine ⟨fun hup => ⟨_, if_neg (by simp [hup])⟩, fun hen => ⟨_, if_neg (by simp [hen])⟩, ?_, fun h => ?_, fun h => ?_⟩
  · rintro (h | ⟨hup, h⟩)
    · exact hlost _ rfl (powerShutdown_eq h)
    · have ht := pwrEnFall_eq h
      rw [if_pos hup] at ht
      exact hlost _ rfl ht
  · rw [powerShutdown_eq h]
  · rw [pwrEnFall_eq h]

/-- Settles O59: the governor's rail is bounded by V_MAX, and each scrubber's cases are those of the unit it reads. -/
theorem heatAndScrubRowsComplete : Obligations.HeatAndScrubRowsComplete := by
  unfold Obligations.HeatAndScrubRowsComplete
  intro s
  refine ⟨fun hup x => ?_, fun hot => ?_, fun hreach => ?_, fun a hready hon hhbm hp hclean => ?_,
    fun l row hup hcold hserved hl hrow => ?_, fun hdue hup => ?_⟩
  · refine ⟨_, if_neg (by simp [hup]), rfl, rfl, rfl, fun hold hmin => ?_⟩
    exact govern_coreMv_le hold hmin
  · refine ⟨_, if_neg (by simpa [Option.isSome_iff_ne_none] using hot), ?_⟩
    rw [raiseHeat_power]
    exact ⟨rfl, rfl⟩
  · exact if_neg (by simp [hreach])
  · have hrow (f : Finding) : exec (.patrolScrub a f) s = .next (scrub (arise s a f) a) := if_neg (by simp [hready, hon])
    have h : Sound s a := ⟨hp, hclean⟩
    exact ⟨(hrow _).trans (by rw [scrub_clean_sector hhbm h]), (hrow _).trans (by rw [scrub_correctable_sector hhbm h]),
      (hrow _).trans (by rw [scrub_uncorrectable_sector hhbm h])⟩
  · intro a hp hclean
    have hexec (f : Finding) : exec (.benchScrub l row f) s = .next (scrub (arise s a f) a) :=
      if_neg (by simp [hup, hcold, hserved])
    have h : Sound s a := ⟨hp, hclean⟩
    have ha : a = 0x1000_0000_0000 + l * 0x20_0000 + 512 * row := rfl
    have hal : a % 512 = 0 := by omega
    have hbench : isHbm a = false := decide_eq_false (by unfold hbmEnd; omega)
    obtain ⟨t, hscrub, ht, hhard⟩ := scrub_uncorrectable_row hbench hal h
    exact ⟨(hexec _).trans (by rw [scrub_clean_row hbench hal h]), (hexec _).trans (by rw [scrub_correctable_row hbench hal h]),
      t, (hexec _).trans (by rw [hscrub]), ht, hhard⟩
  · exact ⟨_, if_neg (by simp [hdue, hup]), rfl⟩

end

section
/-!
Resets of a function and its controls (R427 to R432, R436, R503, R558), and the reads and writes of BAR2 that no rule refuses
(R438, R439): what the stores do where no error waits to be found.
-/

namespace Sys2Proof.Machine

/-! ### The stores where no error waits to be found (R193 to R200) -/

/-- No error waits in the stores and no unit of them is marked. -/
def Clean (s : State) : Prop := s.mems.upsets = [] ∧ s.mems.poison = []

theorem wrongSymbols_of_clean {s : State} (h : Clean s) (u : Nat) : wrongSymbols s u = [] := by
  unfold wrongSymbols
  rw [h.1]
  rfl

theorem wrongBits_of_clean {s : State} (h : Clean s) (w : Nat) : wrongBits s w = [] := by
  unfold wrongBits
  rw [h.1]
  rfl

theorem softWords_of_clean {s : State} (h : Clean s) (row : Nat) : softWords s row = [] := by
  simp [softWords, wrongBits_of_clean h]

theorem setUpsets_of_clean {s : State} (h : Clean s) : setUpsets s [] = s := by
  unfold setUpsets
  rw [← h.1]

theorem correctRow_of_clean {s : State} (h : Clean s) (row : Nat) : correctRow s row = (s, 0#8) := by
  simp [correctRow, softWords_of_clean h, h.1, setUpsets_of_clean h, flagIf]

theorem guardUnit_of_clean {s : State} (h : Clean s) (u : Nat) : guardUnit s u = (s, 0#8, none) := by
  unfold guardUnit
  split
  · simp [h.2, wrongSymbols_of_clean h]
  · simp [h.2, hardRow, wrongBits_of_clean h, correctRow_of_clean h]

theorem guardUnits_of_clean {s : State} (h : Clean s) (us : List Nat) : guardUnits s us = (s, 0#8, none) := by
  induction us with
  | nil => rfl
  | cons u r ih => simp [guardUnits, guardUnit_of_clean h, ih]

@[simp] theorem countHbm_mems (s : State) (write : Bool) (us : List Nat) : (countHbm s write us).mems = s.mems := by
  unfold countHbm
  split <;> rfl

@[simp] theorem countHbm_out (s : State) (write : Bool) (us : List Nat) : (countHbm s write us).out = s.out := by
  unfold countHbm
  split <;> rfl

theorem devRead_of_clean {s : State} (h : Clean s) {a n : Nat} (hserved : refusedIn s false a n = none) :
    devRead s a n = (s, 0#8, .ok (devBytes s a n)) := by
  simp [devRead, hserved, guardUnits_of_clean h]

/-- A write to HBM that its domain serves: the stores with the bytes written, beside the counts of the sectors. -/
def wrote (s : State) (a : Nat) (bytes : List Byte) : State :=
  let us := unitsOf a bytes.length
  let t := countHbm (countHbm s false (us.filter fun u => !coversUnit a bytes.length u)) true us
  { t with mems := { s.mems with dev := memWrite s.mems.dev a bytes } }

theorem hbmWrite_of_clean {s : State} (h : Clean s) {a : Nat} {bytes : List Byte}
    (hserved : refusedIn s true a bytes.length = none) : hbmWrite s a bytes = (wrote s a bytes, 0#8, none) := by
  obtain ⟨hups, hpoison⟩ := id h
  simp only [hbmWrite, hserved, guardUnits_of_clean h, countHbm_mems, hups, hpoison, List.filter_nil, wrote]

@[simp] theorem wrote_mems (s : State) (a : Nat) (bytes : List Byte) :
    (wrote s a bytes).mems = { s.mems with dev := memWrite s.mems.dev a bytes } := rfl

/-! ### BAR2 (R438, R439) -/

theorem refusedIn_of_bar2Fault {s : State} {rq : Req} {a n : Nat} {write : Bool} (h : bar2Fault s rq a n write = none) :
    refusedIn s write a n = none := by
  unfold bar2Fault at h
  split at h
  · exact absurd h nofun
  · split at h
    · exact absurd h nofun
    · split at h
      · exact absurd h nofun
      · split at h
        · exact absurd h nofun
        · assumption

theorem bar2ReadAt_of_clean {s : State} (h : Clean s) {rq : Req} {a n : Nat} (hfault : bar2Fault s rq a n false = none) :
    bar2ReadAt s rq a n = emit (countHbm s false (unitsOf a n)) (.completion rq.fn (devBytes s a n)) := by
  simp [bar2ReadAt, hfault, devRead_of_clean h (refusedIn_of_bar2Fault hfault)]

theorem bar2WriteAt_of_clean {s : State} (h : Clean s) {rq : Req} {a : Nat} {bytes : List Byte}
    (hfault : bar2Fault s rq a bytes.length true = none) : bar2WriteAt s rq a bytes = wrote s a bytes := by
  simp [bar2WriteAt, hfault, hbmWrite_of_clean h (refusedIn_of_bar2Fault hfault)]

theorem exec_bar2Read {s : State} {rq : Req} {off n : Nat} (hup : s.glob.cfgUp = true) (hun : unsupportedNow s rq.fn = false)
    (hin : inBar2 s rq.fn off n = true) :
    exec (.bar2Read rq off n) s = .next (bar2ReadAt s rq (bar2Addr s rq.fn off) n) := by
  show execBar2Read rq off n s = _
  simp [execBar2Read, hin, hun, hostRow_of_cfgUp hup]

theorem exec_bar2Write {s : State} {rq : Req} {off : Nat} {bytes : List Byte} (hup : s.glob.cfgUp = true)
    (hun : unsupportedNow s rq.fn = false) (hin : inBar2 s rq.fn off bytes.length = true) :
    exec (.bar2Write rq off bytes) s = .next (bar2WriteAt s rq (bar2Addr s rq.fn off) bytes) := by
  show execBar2Write rq off bytes s = _
  simp [execBar2Write, hin, hun, hostRow_of_cfgUp hup]

/-! ### A reset of a function (R428 to R432) -/

theorem steadier_finishOp (s : State) (o : Op) : steadier (finishOp s o) = steadier s := by
  unfold finishOp
  refine (steadier_of_steady (steady_giveReply _ _ _ _)).trans ?_
  split
  · exact (steadier_of_steady (steady_putOp _ _)).trans (steadier_applySignals s o)
  · rfl

@[simp] theorem steady_endRelays (s : State) (q : Nat) : steady (endRelays s q) = steady s := by
  have hreplies (r : Relay) (xs : List (Nat × Nat × Nat)) (t : State) : steady (xs.foldl (fun s x =>
      postReply (relayLog s r cAborted x) q (replyWord q x.1 0 cAborted 0 x.2.1 0 0 0) false) t) = steady t :=
    foldl_keeps steady (fun u (x : Nat × Nat × Nat) => (steady_postReply _ _ _ _).trans (steady_vlogAdd u _)) xs t
  have hends (rs : List Relay) (t : State) : steady (rs.foldl (fun s r =>
      sendControl (r.awaiting.foldl (fun s x =>
        postReply (relayLog s r cAborted x) q (replyWord q x.1 0 cAborted 0 x.2.1 0 0 0) false) s) r 2) t) = steady t :=
    foldl_keeps steady (fun u r => (steady_sendControl _ _ _).trans (hreplies r r.awaiting u)) rs t
  unfold endRelays
  extract_lets mine s1 src s2
  have h2 : steady s2 = steady s := hends mine s
  split
  · exact (steady_sendRoute s2 _).trans h2
  · exact h2

theorem steady_endReset (s : State) (q : Nat) : steady (endReset s q) = steady s := steady_modQ s q _

theorem steady_unbindOf (s : State) (p : Nat → Bool) : steady (unbindOf s p) = steady s := rfl

theorem steady_freeSetsOf (s : State) (p : Nat → Bool) : steady (freeSetsOf s p) = steady s := rfl

theorem steadier_resetQueue (s : State) (q : Nat) : steadier (resetQueue s q) = steadier s := by
  unfold resetQueue
  extract_lets s1 s2 s3 s4 s5
  have h5 : steadier s5 = steadier s4 := steadier_of_steady ((steady_unbindOf _ _).trans (steady_freeSetsOf s4 _))
  have h1 : steadier s1 = steadier s := steadier_of_steady
    ((steady_modQ _ _ _).trans (foldl_keeps steady (fun t o => steady_stopWith t o _ _) _ s))
  have h2 : steadier s2 = steadier s1 := foldl_keeps steadier (fun t o => steadier_finishOp t o) _ s1
  have h4 : steadier s4 = steadier s2 := steadier_of_steady ((steady_endRelays s3 q).trans (steady_setOps s2 _))
  exact (steadier_of_steady ((steady_endReset _ q).trans (steady_modQ s5 q _))).trans (h5.trans (h4.trans (h2.trans h1)))

theorem steadier_flrQueue (keepFunc : Bool) (s : State) (q : Nat) : steadier (flrQueue keepFunc s q) = steadier s :=
  (steadier_resetQueue _ q).trans (steadier_of_steady (steady_modQ s q _))

@[simp] theorem steady_closeWindowsOf (s : State) (qs : List Nat) : steady (closeWindowsOf s qs) = steady s :=
  foldl_keeps steady (fun t i => (rfl : steady (closeWindow t i) = steady t)) _ s

/-- Of the reservations a function's reset frees its own. -/
theorem vfReset_reservations (s : State) (f : Nat) :
    (vfReset s f).head.reservations = s.head.reservations.filter fun x => x.func ≠ f := by
  have hqueues : steadier (closeWindowsOf ((queuesOf s f).foldl (flrQueue true) s) (queuesOf s f)) = steadier s :=
    (steadier_of_steady (steady_closeWindowsOf _ _)).trans (foldl_keeps steadier (fun t q => steadier_flrQueue true t q) _ s)
  exact congrArg (List.filter _) (reservations_of_steadier hqueues)

theorem vfReset_bar2Win (s : State) (f : Nat) : tget 0#9 (vfReset s f).glob.bar2Win f = 0#9 := by
  unfold vfReset
  exact (tget_tput 0#9 0#9 f f _).trans (if_pos rfl)

theorem next_of_hostRow {s k t : State} (h : hostRow s k = .next t) : t = k := by
  unfold hostRow at h
  split at h
  · exact (Host.Outcome.next.inj h).symm
  · exact absurd h nofun

/-! ### Interrupts that Bus Master Enable held back (R449) -/

theorem flushMsix_of_none_pending {s : State} (h : s.pcie.pba = []) (f : Nat) : flushMsix s f = s := by
  simp [flushMsix, h]

theorem getFunc_toD3hot_and_back (s : State) (f g : Nat) :
    getFunc (setFunc (setFunc s f { getFunc s f with d3hot := true }) f
      { getFunc (setFunc s f { getFunc s f with d3hot := true }) f with d3hot := false }) g
      = if f = g then { getFunc s f with d3hot := false } else getFunc s g := by
  simp only [getFunc_setFunc, if_true]
  split <;> rfl

end Sys2Proof.Machine

open Sys2Proof Sys2Proof.Machine

/-- Settles O50: each row is the reset itself; a queue's reset leaves the reservations, which the function's reset then
filters. -/
theorem resetRowsComplete : Obligations.ResetRowsComplete := by
  unfold Obligations.ResetRowsComplete
  refine ⟨fun s => ⟨fun f hpos hle hvf hup => ?_, fun hup => hostRow_of_cfgUp hup _, fun hup => ⟨_, hostRow_of_cfgUp hup _, rfl⟩,
    fun c hbusy => if_pos hbusy⟩, fun s t f => ⟨fun hx => ?_, fun hx => ?_⟩⟩
  · have hnot : ¬ (f = 0 || 16 < f || !s.pcie.vfEnable) = true := by simp [hvf]; omega
    exact (if_neg hnot).trans (hostRow_of_cfgUp hup _)
  · have hrow : execVfFunctionLevelReset f s = .next t := hx
    unfold execVfFunctionLevelReset at hrow
    split at hrow
    · exact absurd hrow nofun
    · rw [next_of_hostRow hrow]
      exact ⟨vfReset_reservations s f, vfReset_bar2Win s f⟩
  · rw [next_of_hostRow (k := pfReset s) hx]
    exact ⟨rfl, rfl, rfl, rfl, rfl⟩

/-- Settles O51: each control sets its field of the function; with none pending, no interrupt follows. -/
theorem functionControlsComplete : Obligations.FunctionControlsComplete := by
  unfold Obligations.FunctionControlsComplete
  refine ⟨fun s f hup => ⟨fun hd => ?_, fun hd => ?_, fun on hon => ?_, fun n hn => ?_, fun i hi => ?_⟩, fun s t u f hpba hin hout => ?_⟩
  · exact (if_neg (by simp [hd])).trans (hostRow_of_cfgUp hup _)
  · exact (if_neg (by simp [hd])).trans (hostRow_of_cfgUp hup _)
  · exact (if_neg (by simpa using hon)).trans (hostRow_of_cfgUp hup _)
  · exact (if_neg (by omega)).trans (hostRow_of_cfgUp hup _)
  · exact if_neg (by simp [hi])
  · have hentry : execD3hotEntry f s = .next t := hin
    have hreturn : execD0Return f t = .next u := hout
    unfold execD3hotEntry at hentry
    unfold execD0Return at hreturn
    split at hentry
    · exact absurd hentry nofun
    next hd =>
    obtain rfl := next_of_hostRow hentry
    split at hreturn
    · exact absurd hreturn nofun
    obtain rfl := (next_of_hostRow hreturn).trans (flushMsix_of_none_pending (by exact hpba) f)
    refine ⟨fun g => ?_, rfl⟩
    rw [getFunc_toD3hot_and_back]
    split
    next hfg =>
      subst hfg
      rw [← Bool.eq_false_iff.mpr hd]
    · rfl

/-- Settles O52: where no error waits, a read answers with the bytes of the memory and a write is one write of them. -/
theorem hbmWindowAccesses : Obligations.HbmWindowAccesses := by
  unfold Obligations.HbmWindowAccesses
  intro s rq off bytes n a hcanon hup hun _ _ hups hpoison
  have hclean : Clean s := ⟨hups, hpoison⟩
  constructor
  · intro hin hfault
    refine ⟨_, (exec_bar2Read hup hun hin).trans (congrArg _ (bar2ReadAt_of_clean hclean hfault)), countHbm_mems s _ _, ?_⟩
    simp only [emit, countHbm_out]
    rfl
  · intro hin hfault
    refine ⟨_, (exec_bar2Write hup hun hin).trans (congrArg _ (bar2WriteAt_of_clean hclean hfault)), rfl, ?_⟩
    rw [wrote_mems]
    exact memByte_memWrite _ _ _ hcanon.1

end

section
/-!
The responder of attestation requests (R448 to R452, R563, R564) and the module's own interfaces (R560, R590, R591, R599 to
R602).
-/

namespace Sys2Proof.Machine

/-! ### SPDM requests (R448 to R452) -/

/-- A state beside the responder, the PCI Express controls, the choices left free and what the device has sent. -/
def besideSpdm (s : State) : State :=
  { s with spdmDoe := State.reset.spdmDoe, spdmMctp := State.reset.spdmMctp, pcie := State.reset.pcie, freeIdx := 0, out := [] }

@[simp] theorem besideSpdm_setSpdm (s : State) (v : Transport) (x : Spdm) : besideSpdm (setSpdm s v x) = besideSpdm s := by
  cases v <;> rfl

@[simp] theorem setSpdm_out (s : State) (v : Transport) (x : Spdm) : (setSpdm s v x).out = s.out := by cases v <;> rfl

/-- A request's effect: one message goes out, and only the responder and the PCI Express controls may change. -/
def Answers (s t : State) : Prop := besideSpdm t = besideSpdm s ∧ ∃ x, t.out = s.out ++ [x]

theorem answers_emit (s : State) (x : Msg) : Answers s (emit s x) := ⟨rfl, x, rfl⟩

theorem answers_emit_nextFree (s : State) (x : Msg) : Answers s (emit (nextFree s) x) := ⟨rfl, x, rfl⟩

theorem Answers.after {s t u : State} (h : Answers t u) (hb : besideSpdm t = besideSpdm s) (ho : t.out = s.out) : Answers s u := by
  obtain ⟨hu, x, hx⟩ := h
  exact ⟨hu.trans hb, x, by rw [hx, ho]⟩

theorem Answers.setSpdm {s t : State} (h : Answers s t) (v : Transport) (x : Spdm) : Answers s (setSpdm t v x) := by
  obtain ⟨ht, y, hy⟩ := h
  exact ⟨(besideSpdm_setSpdm t v x).trans ht, y, (setSpdm_out t v x).trans hy⟩

theorem answers_spdmRefuse (s : State) (m : SpdmReq) (code : Nat) : Answers s (spdmRefuse s m code) := answers_emit s _

theorem answers_spdmPlain (s : State) (m : SpdmReq) (code : Nat) : Answers s (spdmPlain s m code) := by
  unfold spdmPlain
  split
  · exact answers_spdmRefuse s m _
  · exact answers_emit_nextFree s _

theorem answers_spdmSigned (s : State) (m : SpdmReq) (code : Nat) (body : List Byte) : Answers s (spdmSigned s m code body) :=
  (answers_emit _ _).after (besideSpdm_setSpdm _ _ _) (setSpdm_out _ _ _)

theorem answers_spdmSignedPlain (s : State) (m : SpdmReq) (slot code : Nat) : Answers s (spdmSignedPlain s m slot code) := by
  unfold spdmSignedPlain
  split
  · exact answers_spdmRefuse s m _
  split
  · exact answers_spdmRefuse s m _
  · exact (answers_spdmSigned (nextFree s) m code _).after rfl rfl

theorem answers_spdmFixed (s : State) (m : SpdmReq) (code : Nat) (body : List Byte) : Answers s (spdmFixed s m code body) := by
  unfold spdmFixed
  split
  · exact answers_spdmRefuse s m _
  · exact answers_emit s _

theorem answers_inSession (s : State) (m : SpdmReq) (code : Nat) : Answers s (inSession s m code) := by
  unfold inSession
  split
  · exact answers_spdmRefuse s m _
  · exact answers_spdmPlain s m code

/-- A row that answers each request that its transport carries, outside recovery, and leaves the rest in any case. -/
def Answered (m : SpdmReq) (c : Instr) : Prop :=
  (∀ s, viaUp s m.via = true → s.firm.recovery = false → ∃ t x, exec c s = .next t ∧ t.out = s.out ++ [x])
  ∧ ∀ s t, exec c s = .next t → besideSpdm t = besideSpdm s

theorem answered_of_spdmRow {m : SpdmReq} {c : Instr} (k : State → State → State)
    (hrow : ∀ s, exec c s = spdmRow m s (k s)) (hk : ∀ s u, Answers u (k s u)) : Answered m c := by
  have hall (s : State) : Answers s (k s (setSpdm s m.via { getSpdm s m.via with pending := none })) :=
    (hk s _).after (besideSpdm_setSpdm _ _ _) (setSpdm_out _ _ _)
  constructor
  · intro s hvia hrec
    obtain ⟨-, x, hx⟩ := hall s
    exact ⟨_, x, (hrow s).trans (by simp [spdmRow, hvia, hrec]), hx⟩
  · intro s t hx
    rw [hrow, spdmRow] at hx
    split at hx
    · exact absurd hx nofun
    split at hx
    · rw [← Host.Outcome.next.inj hx]
    · rw [← Host.Outcome.next.inj hx]
      exact (hall s).1

section
variable (m : SpdmReq)

theorem answered_getVersion : Answered m (.getVersion m) :=
  answered_of_spdmRow (fun _ u => spdmFixed u m 0x04 versionBytes) (fun _ => rfl) fun _ u => answers_spdmFixed u m _ _

theorem answered_getCapabilities : Answered m (.getCapabilities m) :=
  answered_of_spdmRow (fun _ u => spdmFixed (nextFree u) m 0x61 (capabilityBytes (Config.spdmBody u.freeIdx m.body)))
    (fun _ => rfl) fun _ u => (answers_spdmFixed (nextFree u) m _ _).after rfl rfl

theorem answered_negotiateAlgorithms : Answered m (.negotiateAlgorithms m) :=
  answered_of_spdmRow (fun _ u => spdmFixed u m 0x63 algorithmBytes) (fun _ => rfl) fun _ u => answers_spdmFixed u m _ _

theorem answered_getDigests : Answered m (.getDigests m) :=
  answered_of_spdmRow (fun _ u => spdmPlain u m 0x01) (fun _ => rfl) fun _ u => answers_spdmPlain u m _

theorem answered_heartbeat : Answered m (.heartbeat m) :=
  answered_of_spdmRow (fun _ u => inSession u m 0x68) (fun _ => rfl) fun _ u => answers_inSession u m _

theorem answered_keyUpdate : Answered m (.keyUpdate m) :=
  answered_of_spdmRow (fun _ u => inSession u m 0x69) (fun _ => rfl) fun _ u => answers_inSession u m _

theorem answered_endSession : Answered m (.endSession m) := by
  refine answered_of_spdmRow _ (fun s => Eq.refl (execEndSession m s)) fun _ u => ?_
  dsimp only
  split
  · exact (answers_inSession u m _).setSpdm _ _
  · exact answers_inSession u m _

theorem answered_chunkSend : Answered m (.chunkSend m) :=
  answered_of_spdmRow (fun _ u => spdmPlain u m 0x05) (fun _ => rfl) fun _ u => answers_spdmPlain u m _

theorem answered_chunkGet : Answered m (.chunkGet m) :=
  answered_of_spdmRow (fun _ u => spdmPlain u m 0x06) (fun _ => rfl) fun _ u => answers_spdmPlain u m _

/-- The effect of GET_PQ_SIG, given the signature that was pending when it arrived (R450, R451). -/
def pqSigGiven (m : SpdmReq) (p : Option PendingSig) (u : State) : State :=
  if !sessionOk u m then spdmRefuse u m 0x02
  else
    match vendorPayload Config.vendorId.toNat m.body with
    | none => spdmRefuse u m 0x07
    | some x => emit u (.spdm m.via 0x7E (vendorReply Config.vendorId.toNat (pqAnswer p m.session x)))

theorem answered_getPqSig : Answered m (.getPqSig m) := by
  refine answered_of_spdmRow (fun s => pqSigGiven m (getSpdm s m.via).pending) (fun _ => rfl) fun s u => ?_
  unfold pqSigGiven
  split
  · exact answers_spdmRefuse u m _
  split
  · exact answers_spdmRefuse u m _
  · exact answers_emit u _

theorem answered_getCertificate (n : Nat) : Answered m (.getCertificate m n) := by
  refine answered_of_spdmRow _ (fun s => Eq.refl (execGetCertificate m n s)) fun s u => ?_
  split
  · exact answers_spdmRefuse u m _
  split
  · exact answers_spdmRefuse u m _
  · exact answers_emit u _

theorem answered_challenge (n : Nat) : Answered m (.challenge m n) :=
  answered_of_spdmRow (fun _ u => spdmSignedPlain u m n 0x03) (fun _ => rfl) fun _ u => answers_spdmSignedPlain u m n _

theorem answered_getMeasurements (b : Bool) : Answered m (.getMeasurements m b) := by
  refine answered_of_spdmRow _ (fun s => Eq.refl (execGetMeasurements m b s)) fun s u => ?_
  dsimp only
  split
  · exact answers_spdmRefuse u m _
  split
  · exact answers_spdmRefuse u m _
  split
  · exact answers_spdmSigned u m _ _
  · exact answers_emit u _

theorem answered_keyExchange (n : Nat) : Answered m (.keyExchange m n) := by
  refine answered_of_spdmRow _ (fun s => Eq.refl (execKeyExchange m n s)) fun s u => ?_
  dsimp only
  split
  · exact (answers_spdmSignedPlain u m n _).setSpdm _ _
  · exact answers_spdmSignedPlain u m n _

theorem answered_finish (n : Nat) : Answered m (.finish m n) := by
  refine answered_of_spdmRow _ (fun s => Eq.refl (execFinish m n s)) fun s u => ?_
  dsimp only
  split
  · exact (answers_emit_nextFree _ _).after (besideSpdm_setSpdm _ _ _) (setSpdm_out _ _ _)
  · exact answers_spdmRefuse u m _

theorem answered_ideKm (n : Nat) : Answered m (.ideKm m n) := by
  refine answered_of_spdmRow _ (fun s => Eq.refl (execIdeKm m n s)) fun s u => ?_
  dsimp only
  split
  · exact answers_spdmRefuse u m _
  split
  · exact answers_spdmRefuse u m _
  split
  · exact answers_spdmRefuse u m _
  · exact (answers_emit_nextFree _ _).after rfl rfl

theorem besideSpdm_of_doeDiscovery {s t : State} {n : Nat} (h : exec (.doeDiscovery n) s = .next t) :
    besideSpdm t = besideSpdm s := by
  rw [next_of_hostRow (k := emit s (.doe (doeAnswer s n))) h]
  rfl

end

/-- The requests of attestation without an operand of their own. -/
def plainRequests (m : SpdmReq) : List Instr :=
  [.getVersion m, .getCapabilities m, .negotiateAlgorithms m, .getDigests m, .heartbeat m, .keyUpdate m, .endSession m,
    .chunkSend m, .chunkGet m, .getPqSig m]

theorem answered_of_plainRequests {m : SpdmReq} {c : Instr} (h : c ∈ plainRequests m) : Answered m c := by
  simp only [plainRequests, List.mem_cons, List.not_mem_nil, or_false] at h
  obtain rfl | rfl | rfl | rfl | rfl | rfl | rfl | rfl | rfl | rfl := h
  · exact answered_getVersion m
  · exact answered_getCapabilities m
  · exact answered_negotiateAlgorithms m
  · exact answered_getDigests m
  · exact answered_heartbeat m
  · exact answered_keyUpdate m
  · exact answered_endSession m
  · exact answered_chunkSend m
  · exact answered_chunkGet m
  · exact answered_getPqSig m

/-! ### Images in recovery (R547, R548, R560) -/

theorem storeKeep_images (s : State) (i : Nat) (v : BitVec 32) :
    ((storeKeep s i v).firm.running, (storeKeep s i v).firm.rollback) = (s.firm.running, s.firm.rollback) := by
  unfold storeKeep
  split <;> rfl

theorem restoreKeeps_images (s : State) :
    ((restoreKeeps s).firm.running, (restoreKeeps s).firm.rollback) = (s.firm.running, s.firm.rollback) := by
  unfold restoreKeeps
  split
  · rfl
  next vs _ =>
    exact foldl_keeps (fun t => (t.firm.running, t.firm.rollback)) (fun t (p : Nat × BitVec 32) => storeKeep_images t p.1 p.2) vs s

/-- A restored image is the rollback region's, in both regions. -/
theorem restoreImage_images (s : State) (wdog : Bool) : ((restoreImage s wdog).firm.running, (restoreImage s wdog).firm.rollback)
    = (s.firm.rollback, s.firm.rollback) := by
  unfold restoreImage
  dsimp only
  split
  · exact restoreKeeps_images _
  · rfl

theorem besideFirm_readBackRow (s : State) (b : Bool) : besideFirm (readBackRow s b).1 = besideFirm s := by
  cases b
  · exact besideFirm_restoreImage s false
  · rfl

/-- The state of an activation in recovery as its image is read back. -/
def bothWritten (s : State) (x : Image) : State :=
  setFirm (writeRecord s fun j => { j with phase := .writing, comp := 0#3, rbValid := true })
    { (writeRecord s fun j => { j with phase := .writing, comp := 0#3, rbValid := true }).firm with running := x, rollback := x }

theorem activateBoth_of_ok {s : State} {x : Image} (h : activateCheck s = .ok x) (b : Bool) : activateBoth s b
    = if b then (commitRow (enterPhase (bothWritten s x) .verified), none) else (restoreImage (bothWritten s x) false, some rejected) := by
  unfold activateBoth
  rw [h]
  cases b <;> rfl

theorem exec_recoveryActivate_of_ok {s : State} {x : Image} (hup : s.glob.cfgUp = true) (hrec : s.firm.recovery = true)
    (h : activateCheck s = .ok x) (b : Bool) : exec (.recoveryActivate b) s
    = .next (if b then emit (commitRow (enterPhase (bothWritten s x) .verified)) (.recovery 2 0)
        else emit (restoreImage (bothWritten s x) false) (.recovery 2 cFwRejected)) := by
  show execRecoveryActivate b s = _
  unfold execRecoveryActivate recoveryRow
  rw [activateBoth_of_ok h, if_pos (by simp [hup, hrec])]
  cases b <;> rfl

theorem restoreImage_out (s : State) (wdog : Bool) : (restoreImage s wdog).out = s.out :=
  (congrArg State.out (besideFirm_restoreImage s wdog) :)

theorem commitRow_out (s : State) : (commitRow s).out = s.out := rfl

/-! ### The module's interfaces (R590, R591, R601, R602) -/

theorem takeAddr_of_free {s : State} (hup : i3cUp s = true) (hfree : s.pins.i3cAddr = none) (a : BitVec 7) :
    takeAddr s a = .next (emit { s with pins := { s.pins with i3cAddr := some a } } (.i3cAck a)) := by
  simp [takeAddr, hup, hfree]

theorem padRow_of_acts {s : State} (hen : s.pins.pwrEn = true) (hready : s.glob.ready = true) (k : State) :
    padRow s k = .next k := by simp [padRow, padActs, hen, hready]

theorem padRow_of_not_acts {s : State} (h : s.pins.pwrEn = false ∨ s.glob.ready = false) (k : State) : padRow s k = .next s := by
  have hacts : padActs s = false := by
    unfold padActs
    rcases h with h | h
    · rw [h, Bool.false_and]
    · rw [h, Bool.and_false]
  simp [padRow, hacts]

theorem padSelftestDone_ends {s : State} (h : s.glob.padTest = true) (st : StartIn) :
    ∃ t, exec (.padSelftestDone st) s = .next t ∧ t.glob.selftest = false ∧ t.glob.padTest = false :=
  ⟨_, if_neg (by simp [h]), rfl, rfl⟩

end Sys2Proof.Machine

open Sys2Proof Sys2Proof.Machine

/-- Settles O55, request by request: each is `spdmRow` of an effect that sends one message. -/
theorem attestationRowsAnswer : Obligations.AttestationRowsAnswer := by
  unfold Obligations.AttestationRowsAnswer
  constructor
  · intro s m hvia hrec
    exact ⟨fun c hc => (answered_of_plainRequests hc).1 s hvia hrec, fun n => (answered_getCertificate m n).1 s hvia hrec,
      fun n => (answered_challenge m n).1 s hvia hrec, fun b => (answered_getMeasurements m b).1 s hvia hrec,
      fun n => (answered_keyExchange m n).1 s hvia hrec, fun n => (answered_finish m n).1 s hvia hrec,
      fun n => (answered_ideKm m n).1 s hvia hrec, fun hup i => hostRow_of_cfgUp hup _⟩
  · intro s t m n b c hc hx
    have hsame : besideSpdm t = besideSpdm s := by
      change c ∈ plainRequests m ++ [.getCertificate m n, .challenge m n, .getMeasurements m b, .keyExchange m n, .finish m n,
        .ideKm m n, .doeDiscovery n] at hc
      obtain hc | hc := List.mem_append.mp hc
      · exact (answered_of_plainRequests hc).2 s t hx
      simp only [List.mem_cons, List.not_mem_nil, or_false] at hc
      obtain rfl | rfl | rfl | rfl | rfl | rfl | rfl := hc
      · exact (answered_getCertificate m n).2 s t hx
      · exact (answered_challenge m n).2 s t hx
      · exact (answered_getMeasurements m b).2 s t hx
      · exact (answered_keyExchange m n).2 s t hx
      · exact (answered_finish m n).2 s t hx
      · exact (answered_ideKm m n).2 s t hx
      · exact besideSpdm_of_doeDiscovery hx
    exact ⟨(congrArg State.mems hsame :), (congrArg State.dies hsame :), (congrArg State.head hsame :),
      (congrArg State.fab hsame :), (congrArg State.power hsame :), (congrArg State.faults hsame :),
      (congrArg State.firm hsame :), (congrArg State.glob hsame :), (congrArg State.pins hsame :),
      (congrArg State.perf hsame :), (congrArg State.face hsame :), (congrArg State.snap hsame :)⟩

/-- Settles O56, interface by interface. -/
theorem moduleRowsAnswer : Obligations.ModuleRowsAnswer := by
  unfold Obligations.ModuleRowsAnswer
  refine ⟨fun s => ⟨fun hup hfree a => ⟨takeAddr_of_free hup hfree a, takeAddr_of_free hup hfree a⟩,
      fun hvia => ⟨if_pos hvia, if_pos hvia, if_pos hvia⟩, rfl,
      fun h => if_neg (by simp [Option.isNone_eq_false_iff.mpr h])⟩,
    fun s => ⟨fun hen hready => ⟨padRow_of_acts hen hready _, padRow_of_acts hen hready _, padRow_of_acts hen hready _,
        padRow_of_acts hen hready _⟩,
      fun h => ⟨padRow_of_not_acts h _, padRow_of_not_acts h _, padRow_of_not_acts h _, padRow_of_not_acts h _⟩,
      fun htest st => padSelftestDone_ends htest st,
      fun s k d hup hrec => ⟨if_pos (by simp [hup, hrec]), fun b => ⟨fun e he => ?_, fun x hx => ?_⟩⟩⟩⟩
  · refine (if_pos (by simp [hup, hrec])).trans (congrArg _ ?_)
    simp only [activateBoth, he]
    rfl
  · refine ⟨_, exec_recoveryActivate_of_ok hup hrec hx b, ?_⟩
    cases b
    · obtain ⟨hrun, hroll⟩ := Prod.mk.inj (restoreImage_images (bothWritten s x) false)
      have hout := restoreImage_out (bothWritten s x) false
      refine ⟨hrun, hroll, ?_, nofun⟩
      generalize restoreImage (bothWritten s x) false = t at hout ⊢
      exact congrArg (· ++ [Msg.recovery 2 cFwRejected]) hout
    · have hout := commitRow_out (enterPhase (bothWritten s x) .verified)
      exact ⟨rfl, rfl, congrArg (· ++ [Msg.recovery 2 0]) hout, fun _ => rfl⟩

end

section
/-!
Power domains that switch (R473, R477, R479), the fabric's commands as they begin (R367, R369, R394, R405 to R410, R414 to R420),
and the packets that arrive for this device (R384, R385, R395, R403 to R413).
-/

namespace Sys2Proof.Machine

/-! ### Commands of the fabric -/

theorem findOp_countXfer (s : State) (q tag : Nat) : findOp (countXfer s) q tag = findOp s q tag := rfl

section
variable {r : OpRef} {s : State} {o : Op}

/-- A transfer of a started command, before it is known where its peer is. -/
theorem beginXfer_of_started {code : Nat} (h : Started s r code o) (put : Bool) : beginXfer put code r s
    = if fpPeer o = devId (countXfer s) then .next (ownXfer put (xferInfo s o) (countXfer s) o)
      else if (countXfer s).fab.routesDue then notNow
      else if (routeTo (countXfer s) (fpPeer o)).isNone then .next (endFail (countXfer s) o 0#8 (failAt cLinkDown (fpLocal o)))
      else if routeCut (countXfer s) (fpPeer o) then .next (endFail (countXfer s) o 0#8 (failAt cDomainOff (fpLocal o)))
      else .next (issueXfer put (xferInfo s o) (countXfer s) o) := by
  obtain ⟨hf, hph, hcode⟩ := h
  simp [beginXfer, hf, hph, hcode]

theorem beginXfer_own {code : Nat} (h : Started s r code o) (put : Bool) (hown : fpPeer o = devId (countXfer s)) :
    beginXfer put code r s = .next (ownXfer put (xferInfo s o) (countXfer s) o) :=
  (beginXfer_of_started h put).trans (if_pos hown)

theorem beginXfer_peer {code : Nat} (h : Started s r code o) (put : Bool) (hpeer : fpPeer o ≠ devId (countXfer s))
    (hdue : s.fab.routesDue = false) (hroute : (routeTo (countXfer s) (fpPeer o)).isSome = true)
    (hcut : routeCut (countXfer s) (fpPeer o) = false) :
    beginXfer put code r s = .next (issueXfer put (xferInfo s o) (countXfer s) o) := by
  have hdue' : (countXfer s).fab.routesDue = false := hdue
  rw [beginXfer_of_started h put, if_neg hpeer, hdue', hcut, Option.isNone_eq_false_iff.mpr hroute]
  rfl

theorem runColl_of_started {code : Nat} {want : Op → Bool} (go : State → Op → State) (h : Started s r code o)
    (hwant : want o = true) (hdue : s.fab.routesDue = false) : runColl code want go r s = .next (pump (go s o)) := by
  obtain ⟨hf, hph, hcode⟩ := h
  simp [runColl, hf, hph, hcode, hwant, hdue]

theorem execFeRelay_of_started (h : Started s r 0x46 o) (hen : frEnable o = true) : exec (.feRelay r) s
    = if frTarget o = devId s then .next (endFail s o 0#8 badPacket)
      else if s.fab.routesDue then notNow
      else if (routeTo s (frTarget o)).isNone then .next (endFail s o 0#8 (failPlain cLinkDown))
      else if routeCut s (frTarget o) then .next (endFail s o 0#8 eastCut)
      else if 1024 ≤ unanswered s (frTarget o) then notNow
      else .next (relayAsk s o) := by
  obtain ⟨hf, hph, hcode⟩ := h
  show execFeRelay r s = _
  simp [execFeRelay, hf, hph, hcode, hen]

/-- A relay that the die bridge cuts off ends with 0x23 (R18, R394). -/
theorem ended_of_eastCut (h : Started s r 0x46 o) : ∃ u, findOp (endFail s o 0#8 eastCut) r.q r.tag = some u
    ∧ u.phase = .ended ∧ u.status = 0x23 := ⟨_, findOp_endFail h.1 0#8 eastCut, rfl, rfl⟩

theorem feRelay_asks (h : Started s r 0x46 o) (hen : frEnable o = true) (hpeer : frTarget o ≠ devId s)
    (hdue : s.fab.routesDue = false) (hroute : (routeTo s (frTarget o)).isSome = true) :
    (routeCut s (frTarget o) = false → unanswered s (frTarget o) < 1024 → exec (.feRelay r) s = .next (relayAsk s o))
    ∧ (routeCut s (frTarget o) = true → exec (.feRelay r) s = .next (endFail s o 0#8 eastCut)) := by
  have hrow := (execFeRelay_of_started h hen).trans (if_neg hpeer)
  rw [hdue, Option.isNone_eq_false_iff.mpr hroute] at hrow
  refine ⟨fun hcut hroom => ?_, fun hcut => ?_⟩
  · rw [hrow, hcut]
    exact if_neg hroom.not_ge
  · rw [hrow, hcut]
    rfl

theorem feRelay_ends_of_none (h : Started s r 0x46 o) (hen : frEnable o = false) (hnone : relayOf s (frSrc o) = none) :
    exec (.feRelay r) s = .next (endOk s o 0#8) := by
  obtain ⟨hf, hph, hcode⟩ := h
  show execFeRelay r s = _
  simp [execFeRelay, hf, hph, hcode, hen, hnone]

theorem feRelay_stops {x : Relay} (h : Started s r 0x46 o) (hen : frEnable o = false) (hx : relayOf s (frSrc o) = some x)
    (hnone : x.awaiting = []) (hdue : s.fab.routesDue = false) :
    (routeCut s x.target = false → exec (.feRelay r) s = .next (relayStop s o x))
    ∧ (routeCut s x.target = true → exec (.feRelay r) s = .next (endFail s o 0#8 eastCut)) := by
  obtain ⟨hf, hph, hcode⟩ := h
  show (_ → execFeRelay r s = _) ∧ (_ → execFeRelay r s = _)
  constructor <;> intro hcut <;> simp [execFeRelay, hf, hph, hcode, hen, hx, hnone, hdue, hcut]

end

/-! ### A packet that arrives (R384, R385, R395) -/

section
variable {p : Packet} {s : State}

theorem arrive_of_delivered {k : Nat} (h : Delivered s p k) (take : State → Out) : arrive k p s take = freeAfter p (take s) := by
  obtain ⟨hon, hkind, hhops, hdst, he2e, hlen⟩ := h
  simp [arrive, hon, hkind, hhops, hdst, he2e, hlen]

theorem again_of_fresh (h : Fresh s p) (f : State → Out) : again p s f = f s := by
  have h' : s.fab.seen.find? (fun x => x.1 = hSrc p.hdr && x.2.1 = hTxn p.hdr) = none := h
  simp only [again, h']

theorem again_of_seen {x : Nat × Nat × Nat × Nat}
    (h : s.fab.seen.find? (fun x => x.1 = hSrc p.hdr && x.2.1 = hTxn p.hdr) = some x) (f : State → Out) :
    again p s f = .next (respond s (hSrc p.hdr) (hTxn p.hdr) x.2.2.1 x.2.2.2) := by
  have hx := List.find?_some h
  simp only [Bool.and_eq_true, decide_eq_true_eq] at hx
  simp only [again, h]
  rw [hx.1, hx.2]

theorem exec_writePacket (h : Delivered s p kWrite) (hnew : Fresh s p)
    (hwait : regionWaits s (hSrc p.hdr) (hWin p.hdr) (readXfer p.hdr) = false) :
    let x := remoteWrite s (hSrc p.hdr) (hWin p.hdr) (hOff p.hdr) (hMode p.hdr) (p.data.take (hLen p.hdr)) (readXfer p.hdr)
    exec (.writePacket p) s = .next (freeBuffer (answerTo x.1 p.hdr x.2.1 x.2.2) p) := by
  show execWritePacket p s = _
  unfold execWritePacket
  rw [arrive_of_delivered h, again_of_fresh hnew]
  dsimp only
  rw [hwait]
  rfl

/-- A packet of a transaction that is complete is answered again (R395). -/
theorem exec_seen {x : Nat × Nat × Nat × Nat} (h : Delivered s p kWrite ∨ Delivered s p kRead)
    (hx : s.fab.seen.find? (fun x => x.1 = hSrc p.hdr && x.2.1 = hTxn p.hdr) = some x) :
    exec (if hKind p.hdr = kWrite then .writePacket p else .readPacket p) s
      = .next (freeBuffer (respond s (hSrc p.hdr) (hTxn p.hdr) x.2.2.1 x.2.2.2) p) := by
  rcases h with h | h
  · rw [if_pos h.2.1]
    show execWritePacket p s = _
    unfold execWritePacket
    rw [arrive_of_delivered h, again_of_seen hx]
    rfl
  · rw [if_neg (by rw [h.2.1]; decide)]
    show execReadPacket p s = _
    unfold execReadPacket
    rw [arrive_of_delivered h, again_of_seen hx]
    rfl

theorem exec_readPacket (h : Delivered s p kRead) (hnew : Fresh s p) {u : State} {f : BitVec 8} {res : Except Fail (List Byte)}
    (hx : remoteRead s (hSrc p.hdr) (hWin p.hdr) (hOff p.hdr) (hLen p.hdr) (readXfer p.hdr) = (u, f, res)) :
    (∀ b, res = .ok b → exec (.readPacket p) s = .next (freeBuffer (sendPacket u (mkPacket
      { kind := kData, vc := 1, src := devId s, dst := hSrc p.hdr, txn := hTxn p.hdr, body := answer 0 f } b)) p))
    ∧ ∀ e, res = .error e → exec (.readPacket p) s = .next (freeBuffer (answerTo u p.hdr f (some e)) p) := by
  have hrow : exec (.readPacket p) s = execReadPacket p s := rfl
  unfold execReadPacket at hrow
  rw [arrive_of_delivered h, again_of_fresh hnew] at hrow
  dsimp only at hrow
  rw [hx] at hrow
  constructor
  · rintro b rfl
    exact hrow
  · rintro e rfl
    exact hrow

theorem exec_dataPacket_of_none (h : Delivered s p kData) (hnone : sentFor s p = none) :
    exec (.dataPacket p) s = .next (freeBuffer s p) := by
  show execDataPacket p s = _
  unfold execDataPacket
  rw [arrive_of_delivered h, hnone]
  rfl

/-- The landing of the data that a packet of an `FE.GET` brings. -/
def landData (s : State) (p : Packet) (x : Sent) (o : Op) : Land :=
  landGet s o x.local_ (p.data.take x.len) (decide (fpLocal o < x.local_) && landed s x.q x.tag (x.local_ - 1))
    (decide (x.local_ + x.len < fpLocal o + fpLen o) && landed s x.q x.tag (x.local_ + x.len))

theorem exec_dataPacket_of_snap (h : Delivered s p kData) {x : Sent} {o : Op} {j : SnapJob} (hx : sentFor s p = some x)
    (ho : findOp (dropSent s x) x.q x.tag = some o) (hj : snapOf (dropSent s x) x.q x.tag = some j) :
    exec (.dataPacket p) s = .next (freeBuffer (pump (addOpFlags
      { dropSent s x with snap := some (j.take x.local_ (p.data.take x.len)) } x.q x.tag (hFlags p.hdr))) p) := by
  show execDataPacket p s = _
  unfold execDataPacket
  rw [arrive_of_delivered h, hx]
  dsimp only
  rw [ho]
  dsimp only
  rw [hj]
  rfl

theorem exec_dataPacket (h : Delivered s p kData) {x : Sent} {o : Op} (hx : sentFor s p = some x)
    (ho : findOp (dropSent s x) x.q x.tag = some o) (hj : snapOf (dropSent s x) x.q x.tag = none) {l : Land}
    (hl : landData (dropSent s x) p x o = l) :
    (l.err = none → exec (.dataPacket p) s
      = .next (freeBuffer (settleXfer (pump (addOpFlags l.s x.q x.tag (l.flags ||| hFlags p.hdr))) x.q x.tag) p))
    ∧ ∀ e, l.err = some e → exec (.dataPacket p) s
      = .next (freeBuffer (settleXfer (markFail l.s x.q x.tag (l.flags ||| hFlags p.hdr) e) x.q x.tag) p) := by
  have hrow : exec (.dataPacket p) s = execDataPacket p s := rfl
  unfold execDataPacket at hrow
  rw [arrive_of_delivered h, hx] at hrow
  dsimp only at hrow
  rw [ho] at hrow
  dsimp only at hrow
  rw [hj] at hrow
  dsimp only at hrow
  unfold landData at hl
  rw [hl] at hrow
  constructor
  · intro he
    rw [hrow, he]
    rfl
  · intro e he
    rw [hrow, he]
    rfl

theorem exec_respPacket_of_none (h : Delivered s p kResp) (hnone : sentFor s p = none) :
    exec (.respPacket p) s = .next (freeBuffer s p) := by
  show execRespPacket p s = _
  unfold execRespPacket
  rw [arrive_of_delivered h, hnone]
  rfl

/-- The answer to a packet of a command that is still there, when no collective's packet is answered. -/
theorem exec_respPacket (h : Delivered s p kResp) {x : Sent} {o : Op} (hx : sentFor s p = some x)
    (ho : findOp (dropSent s x) x.q x.tag = some o) (hkind : hKind x.packet.hdr ≠ kColl) :
    exec (.respPacket p) s = freeAfter p (
      if opCode o = 0x46 && o.phase = .waiting && x.packet.data.isEmpty then .next (relaySetUp (dropSent s x) o p.hdr)
      else if hKind x.packet.hdr = kRelay then .next (pump (relayAnswered (dropSent s x) x p.hdr))
      else if hStatus p.hdr = 0 then .next (settleXfer (pump (addOpFlags (dropSent s x) x.q x.tag (hFlags p.hdr))) x.q x.tag)
      else .next (settleXfer (markFail (dropSent s x) x.q x.tag (hFlags p.hdr)
        (remoteFail (hSrc p.hdr) (hStatus p.hdr) (hAddr p.hdr))) x.q x.tag)) := by
  show execRespPacket p s = _
  unfold execRespPacket
  rw [arrive_of_delivered h, hx]
  dsimp only
  rw [if_neg hkind, ho]

/-- A row that runs, however the state stands. -/
def AlwaysRuns (f : State → Out) : Prop := ∀ s, ∃ t, f s = .next t

theorem alwaysRuns_again {f : State → Out} (h : AlwaysRuns f) (p : Packet) : AlwaysRuns (again p · f) := by
  intro s
  unfold again
  dsimp only
  split
  · exact ⟨_, rfl⟩
  · exact h s

/-- The command that a relay's control packet asks for runs. -/
theorem relayCommand_runs (p : Packet) (s : State) (dq sq : Nat) : ∃ t, relayCommand p s dq sq = .next t := by
  unfold relayCommand
  dsimp only
  split
  · refine alwaysRuns_again (fun u => ?_) p s
    split
    · exact ⟨_, rfl⟩
    · exact ⟨_, rfl⟩
  · exact alwaysRuns_again (fun u => ⟨_, rfl⟩) p s
  · exact alwaysRuns_again (fun u => ⟨_, rfl⟩) p s

theorem exec_relayPacket (h : Delivered s p kRelay) (hnew : Fresh s p) (hsome : hFlits p.hdr ≠ 0) {v : Queue} {dq slot : Nat}
    (hdq : bits (hColl p.hdr) 6 6 = dq) (hv : getQ s dq = v) (hslot : v.sqTail.toNat = slot) (hen : v.enable = true)
    (hin : s.fab.relaysIn.contains ⟨dq, hSrc p.hdr, bits (hColl p.hdr) 0 6⟩ = true)
    (hroom : sqUsed v < 2 ^ v.sqLog2.toNat - 1) :
    exec (.relayPacket p) s = .next (freeBuffer (respond (modQ (ringWrite s (v.sqBase.toNat + 64 * slot) (p.data.take 64)) dq
      fun v => { v with
        sqTail := ringAdd v.sqTail 1 v.sqLog2.toNat, relaySlots := slot :: v.relaySlots.filter (· ≠ slot) })
      (hSrc p.hdr) (hTxn p.hdr) 0 slot) p) := by
  show execRelayPacket p s = _
  unfold execRelayPacket
  rw [arrive_of_delivered h]
  dsimp only
  rw [if_neg hsome, again_of_fresh hnew, hdq, hv, hslot, hen, hin, if_neg (by simp), if_neg hroom.not_ge]
  rfl

theorem exec_collPacket (h : Delivered s p kColl) (hnew : Fresh s p)
    (hlets : shareLets s (queueFunc s (readColl p).queue) ((routeTo s (readColl p).src).getD 0) (collCost p) = true) :
    exec (.collPacket p) s = .next (freeBuffer (pump (respond (collDeliver (charge s (queueFunc s (readColl p).queue)
      ((routeTo s (readColl p).src).getD 0) (collCost p)) (readColl p)) (hSrc p.hdr) (hTxn p.hdr) 0 0)) p) := by
  show execCollPacket p s = _
  unfold execCollPacket
  rw [arrive_of_delivered h, again_of_fresh hnew]
  dsimp only
  rw [hlets]
  rfl

end

end Sys2Proof.Machine

open Sys2Proof Sys2Proof.Machine

/-- Settles O35, branch by branch of the command and of a switch's three ends. -/
theorem powerDomainSwitches : Obligations.PowerDomainSwitches := by
  unfold Obligations.PowerDomainSwitches
  constructor
  · rintro r s o src ⟨hf, hph, hcode⟩ hpd
    have hrow : exec (.mgPowerDomain r) s = if src = wantedPd o then .next (endOk s o 0#8)
        else if wantedPd o = .on && s.power.trip && trippable (mpDomain o) then
          .next (endFail s o 0#8 (domainFail (mpDomain o)))
        else .next (beginSwitch (putOp s { o with phase := .waiting }) (mpDomain o) src (wantedPd o) o.q o.tag) := by
      show execMgPowerDomain r s = _
      simp only [execMgPowerDomain, hf, hpd]
      exact if_neg (by simp [hph, hcode])
    refine ⟨fun h => hrow.trans (if_pos h), fun h htrip => ?_, fun h htrip => ?_⟩
    · exact hrow.trans ((if_neg h).trans (if_pos (by simpa [and_assoc] using htrip)))
    · exact hrow.trans ((if_neg h).trans (if_neg (by simpa [and_assoc] using htrip)))
  · intro d s src tgt q tag hpd
    have hdone : exec (.domainDrainDone d) s = if (src = .on || (src = .retain && tgt = .off)) && !portWaits s d then
        .next (endSwitch (enterPd s d src tgt) q tag none) else notNow := by
      show execDomainDrainDone d s = _
      simp only [execDomainDrainDone, hpd]
    have hon : exec (.domainOnComplete d) s = if src = .on || (src = .retain && tgt = .off) then notNow
        else .next (endSwitch (enterPd s d src tgt) q tag none) := by
      show execDomainOnComplete d s = _
      simp only [execDomainOnComplete, hpd]
    have hlate (a : Nat) (h : src = .on) : exec (.domainDrainTimeout d a) s = if 72 ≤ d && d < 78 then
        .next (endSwitch (if (getPort (setPd s d (.settled .on)) (d - 72)).state = .quiescing then
          linkChange (setPort (setPd s d (.settled .on)) (d - 72)
            { getPort (setPd s d (.settled .on)) (d - 72) with state := .up }) (d - 72) true
          else setPd s d (.settled .on)) q tag (some (failPlain cDomainOff)))
        else .next (endSwitch (setPd s d (.settled .on)) q tag (some (failAt cDomainOff a))) := by
      subst h
      show execDomainDrainTimeout d a s = _
      unfold execDomainDrainTimeout
      rw [hpd]
    refine ⟨fun h hwait => hdone.trans (if_pos (by simpa [hwait] using h)), fun h => hon.trans (if_neg (by simpa using h)),
      fun a hsrc hd => (hlate a hsrc).trans (if_neg (by simp; omega)), fun a hsrc => ?_⟩
    rw [Runs, hlate a hsrc]
    split
    · exact ⟨_, rfl⟩
    · exact ⟨_, rfl⟩

/-- Settles O36, command by command. -/
theorem fabricCommandsBegin : Obligations.FabricCommandsBegin := by
  unfold Obligations.FabricCommandsBegin
  refine ⟨fun r s o => ⟨fun h hown => beginXfer_own h true hown, fun h hown => beginXfer_own h false hown,
      fun h hpeer hdue hroute hcut => beginXfer_peer h true hpeer hdue hroute hcut,
      fun h hpeer hdue hroute hcut => beginXfer_peer h false hpeer hdue hroute hcut⟩,
    fun r s o hdue => ⟨fun h => runColl_of_started goAllreduce h rfl hdue,
      fun h hbit => runColl_of_started goDispatch h (by simp [hbit]) hdue, fun h hbit => runColl_of_started goCombine h hbit hdue,
      fun h => runColl_of_started goBarrier h rfl hdue⟩,
    fun r s o h => ⟨fun hen hpeer hdue hroute => ?_, fun hen hnone => feRelay_ends_of_none h hen hnone,
      fun x hen hx hnone hdue => ?_⟩⟩
  · obtain ⟨hask, hcut⟩ := feRelay_asks h hen hpeer hdue hroute
    exact ⟨hask, fun hc => ⟨_, (ended_of_eastCut h).choose, hcut hc, (ended_of_eastCut h).choose_spec⟩⟩
  · obtain ⟨hstop, hcut⟩ := feRelay_stops h hen hx hnone hdue
    exact ⟨hstop, fun hc => ⟨_, (ended_of_eastCut h).choose, hcut hc, (ended_of_eastCut h).choose_spec⟩⟩

/-- Settles O37, packet by packet. -/
theorem packetsArrive : Obligations.PacketsArrive := by
  unfold Obligations.PacketsArrive
  intro p s took
  refine ⟨fun h hnew hwait => exec_writePacket h hnew hwait, fun h hnew => exec_readPacket h hnew rfl, fun x h hx => exec_seen h hx,
    fun h => ⟨fun hnone => exec_dataPacket_of_none h hnone, fun x o hx ho => ?_⟩,
    fun h => ⟨fun hnone => exec_respPacket_of_none h hnone, fun x o hx ho => ⟨fun hput hkind => ?_, fun hrelay hkind hph hnil => ?_⟩⟩,
    fun h hnone => ?_, fun h hnew hsome => ?_, fun h => ⟨fun hnone => ?_, fun r hr htarget hdst => ?_⟩, fun h hnew => ?_⟩
  · exact ⟨fun hj => (exec_dataPacket h hx ho hj rfl).1, fun e hj => (exec_dataPacket h hx ho hj rfl).2 e,
      fun j hj => exec_dataPacket_of_snap h hx ho hj⟩
  · have hrow := exec_respPacket h hx ho (by rw [hkind]; decide)
    rw [if_neg (by simp [hput]), if_neg (by rw [hkind]; decide)] at hrow
    refine ⟨fun hst => ?_, fun hst => ?_⟩
    · rw [hrow, if_pos hst]
      rfl
    · rw [hrow, if_neg hst]
      rfl
  · have hrow := exec_respPacket h hx ho (by rw [hkind]; decide)
    rw [if_pos (by simp [hrelay, hph, hnil])] at hrow
    exact hrow
  · obtain ⟨t, ht⟩ := relayCommand_runs p s (bits (hColl p.hdr) 6 6) (bits (hColl p.hdr) 0 6)
    refine ⟨t, ?_, ht⟩
    show execRelayPacket p s = _
    unfold execRelayPacket
    rw [arrive_of_delivered h]
    dsimp only
    rw [if_pos hnone, ht]
    rfl
  · exact fun hen hin hroom => exec_relayPacket h hnew hsome rfl rfl rfl hen hin hroom
  · show execReplyPacket p s = _
    unfold execReplyPacket
    rw [arrive_of_delivered h]
    dsimp only
    rw [hnone]
    rfl
  · intro w left
    have hrow : exec (.replyPacket p) s = execReplyPacket p s := rfl
    unfold execReplyPacket at hrow
    rw [arrive_of_delivered h] at hrow
    dsimp only at hrow
    rw [hr] at hrow
    dsimp only at hrow
    rw [if_neg (by simp [htarget, hdst])] at hrow
    refine ⟨fun hleft => ?_, fun hleft => ?_⟩
    · rw [hrow, if_neg hleft]
      rfl
    · rw [hrow, if_pos hleft]
      rfl
  · exact fun hlets => exec_collPacket h hnew hlets

end

section
/-!
Routes, retransmission and the die bridge (R342, R393 to R395, R497): what sending and failing packets leave of the route table.
-/

namespace Sys2Proof.Machine

/-! ### The route table (R393) -/

/-- The route table, and whether a recomputation of it is due. -/
def routing (s : State) : List (Nat × Nat) × Bool := (s.fab.routes, s.fab.routesDue)

theorem routing_of_beside {s t : State} (h : beside t = beside s) : routing t = routing s := (congrArg routing h :)

@[simp] theorem routing_vlogAdd (s : State) (x : LogRec) : routing (vlogAdd s x) = routing s := routing_of_beside (beside_vlogAdd s x)

@[simp] theorem routing_emit (s : State) (m : Msg) : routing (emit s m) = routing s := rfl

@[simp] theorem routing_setPort (s : State) (p : Nat) (v : Port) : routing (setPort s p v) = routing s := rfl

@[simp] theorem routing_putOp (s : State) (o : Op) : routing (putOp s o) = routing s := rfl

@[simp] theorem routing_endOk (s : State) (o : Op) (f : BitVec 8) : routing (endOk s o f) = routing s := rfl

@[simp] theorem routing_endFail (s : State) (o : Op) (f : BitVec 8) (e : Fail) : routing (endFail s o f e) = routing s :=
  routing_vlogAdd _ _

/-! Sending. -/

@[simp] theorem routing_sendFlits (s : State) (p n : Nat) (fs : List Nat) : routing (sendFlits s p n fs) = routing s := by
  induction n generalizing s fs with
  | zero => rfl
  | succ n ih =>
    unfold sendFlits
    split
    · rfl
    · exact (ih _ _).trans rfl

@[simp] theorem routing_returnCredit (s : State) (p : Nat) : routing (returnCredit s p) = routing s := by
  simp only [returnCredit]
  split <;> rfl

@[simp] theorem routing_freeBuffer (s : State) (k : Packet) : routing (freeBuffer s k) = routing s := by
  simp only [freeBuffer]
  split
  · rfl
  · split
    · exact routing_returnCredit _ _
    · rfl

@[simp] theorem routing_freePassed (s : State) (k : Packet) : routing (freePassed s k) = routing s := by
  unfold freePassed
  split
  · rfl
  · exact routing_freeBuffer s _

@[simp] theorem routing_putPacket (s : State) (p : Nat) (k : Packet) : routing (putPacket s p k) = routing s := by
  simp [putPacket]

@[simp] theorem routing_drainGo (xs : List (Option Nat × Packet)) (blocked : List (Nat × Nat × Bool))
    (kept : List (Option Nat × Packet)) (s : State) : routing (drainGo xs blocked kept s) = routing s := by
  induction xs generalizing blocked kept s with
  | nil => rfl
  | cons x r ih =>
    simp only [drainGo]
    split
    · split
      · exact ih _ _ _
      · exact (ih _ _ _).trans (routing_freePassed s _)
    · split
      · exact ih _ _ _
      · exact (ih _ _ _).trans (routing_putPacket s _ _)

@[simp] theorem routing_drain (s : State) : routing (drain s) = routing s := routing_drainGo _ _ _ s

@[simp] theorem routing_sendPacket (s : State) (p : Packet) : routing (sendPacket s p) = routing s := by
  refine (routing_drain _).trans ?_
  unfold queueOut
  split <;> rfl

@[simp] theorem routing_sendTracked (s : State) (q tag : Nat) (p : Packet) (a n : Nat) :
    routing (sendTracked s q tag p a n) = routing s := (routing_sendPacket _ _).trans rfl

@[simp] theorem routing_charge (s : State) (f p : Nat) (c : Nat × Nat) : routing (charge s f p c) = routing s := by
  unfold charge
  split <;> rfl

@[simp] theorem routing_addOpFlags (s : State) (q tag : Nat) (f : BitVec 8) : routing (addOpFlags s q tag f) = routing s := by
  unfold addOpFlags
  split <;> rfl

@[simp] theorem routing_markFail (s : State) (q tag : Nat) (f : BitVec 8) (e : Fail) :
    routing (markFail s q tag f e) = routing s := by
  unfold markFail
  split
  · split <;> rfl
  · rfl

@[simp] theorem routing_settleXfer (s : State) (q tag : Nat) : routing (settleXfer s q tag) = routing s := by
  unfold settleXfer
  split
  · rfl
  split
  · split
    · split
      · rfl
      · exact routing_endFail _ _ _ _
    · rfl
  · rfl

@[simp] theorem beside_devRead (s : State) (a n : Nat) : beside (devRead s a n).1 = beside s := by
  unfold devRead
  split
  · rfl
  · have hg := beside_guardUnits s (unitsOf a n)
    split
    · next h => rw [h] at hg; exact hg
    · next h => rw [h] at hg; exact hg

@[simp] theorem beside_srcDev (a : Nat) (s : State) (off n : Nat) : beside (srcDev a s off n).1 = beside s := by
  have hread := beside_devRead s (a + off) n
  unfold srcDev
  dsimp only
  split
  · rfl
  split
  · split
    · rfl
    · split <;> rfl
  split
  · next h =>
    rw [h] at hread
    dsimp only
    split
    · exact (beside_countHbm _ _ _).trans hread
    · exact hread
  · exact hread

@[simp] theorem routing_pieceBytes (s : State) (x : Piece) : routing (pieceBytes s x).1 = routing s := by
  unfold pieceBytes
  split
  · rfl
  · exact routing_of_beside (beside_srcDev _ s 0 _)

@[simp] theorem routing_sendPiece (s : State) (x : Piece) : routing (sendPiece s x) = routing s := by
  have hread := routing_pieceBytes s x
  unfold sendPiece
  split
  · exact routing_sendTracked _ _ _ _ _ _
  split
  · next h =>
    rw [h] at hread
    rw [routing_settleXfer, routing_markFail, hread]
  · next h =>
    rw [h] at hread
    rw [routing_sendTracked, routing_addOpFlags, hread]

@[simp] theorem routing_pumpOne (s : State) (x : Piece) : routing (pumpOne s x) = routing s := by
  unfold pumpOne
  split
  · dsimp only
    split
    · rfl
    · rw [routing_sendPiece, routing_charge]
      rfl
  · rfl

@[simp] theorem routing_resendOne (s : State) (x : Sent) : routing (resendOne s x) = routing s := by
  unfold resendOne
  split
  · dsimp only
    split
    · rfl
    · rw [routing_sendPacket, routing_charge]
      rfl
  · rfl

@[simp] theorem routing_pump (s : State) : routing (pump s) = routing s :=
  (foldl_keeps routing (fun t x => routing_pumpOne t x) _ _).trans (foldl_keeps routing (fun t x => routing_resendOne t x) _ s)

/-! Replies. -/

@[simp] theorem routing_writeReply (s : State) (q : Nat) (w : BitVec 128) (irq : Bool) :
    routing (writeReply s q w irq) = routing s := by
  have hring (b : Bool) (a : Nat) (bytes : List Byte) (fn : Nat) :
      routing (if b then ringWrite s a bytes else hostWrite s fn a bytes false) = routing s := by
    split
    · exact routing_of_beside (beside_ringWrite s a bytes)
    · rfl
  unfold writeReply
  dsimp only
  split
  · exact (routing_of_beside (beside_raiseMsix _ _ _)).trans (hring _ _ _ _)
  · exact hring _ _ _ _

@[simp] theorem routing_postReply (s : State) (q : Nat) (w : BitVec 128) (irq : Bool) :
    routing (postReply s q w irq) = routing s := by
  have hg := routing_of_beside (beside_ringGuard s q)
  unfold postReply
  split
  · split
    · next h => rw [h] at hg; exact (routing_writeReply _ _ _ _).trans hg
    · next h => rw [h] at hg; exact (routing_vlogAdd _ _).trans hg
  · rfl

@[simp] theorem routing_giveReply (s : State) (q : Nat) (w : BitVec 128) (irq : Bool) :
    routing (giveReply s q w irq) = routing s := by
  unfold giveReply
  dsimp only
  split
  · unfold returnReply
    split
    · exact (routing_sendPacket _ _).trans (routing_postReply s q w irq)
    · exact routing_postReply s q w irq
  · exact routing_postReply s q w irq

/-! Failing. -/

@[simp] theorem routing_collCast (s : State) (c : Coll) (b : CollBody) : routing (collCast s c b) = routing s :=
  foldl_keeps routing (fun t d => (rfl : routing (collSend t c d b) = routing t)) _ s

@[simp] theorem routing_cutSnap (s : State) (q tag : Nat) : routing (cutSnap s q tag) = routing s := by
  unfold cutSnap
  split
  · dsimp only
    split
    · unfold mixRange
      split <;> rfl
    · rfl
  · rfl

theorem routing_tellPlace (s : State) (o : Op) : routing (tellPlace s o) = routing s := by
  unfold tellPlace
  split
  · rfl
  · exact foldl_keeps routing (fun t (d : Nat × Nat) => by rfl) _ s

@[simp] theorem routing_dropFabric (s : State) (q tag : Nat) : routing (dropFabric s q tag) = routing s := by
  have hcast (t : State) (cs : List Coll) :
      routing (cs.foldl (fun s c => collCast s c (.failed cRemoteError none)) t) = routing t :=
    foldl_keeps routing (fun t c => routing_collCast t c _) cs t
  unfold dropFabric
  extract_lets s1 mine f s2 s3
  have h3 : routing s3 = routing s := (hcast s2 mine).trans (routing_cutSnap s q tag)
  split
  · split
    · exact (routing_tellPlace s3 _).trans h3
    · exact h3
  · exact h3

@[simp] theorem routing_failFabricOp (s : State) (q tag : Nat) (f : BitVec 8) (e : Fail) :
    routing (failFabricOp s q tag f e) = routing s := by
  unfold failFabricOp
  split
  · split
    · exact (routing_endFail _ _ _ _).trans (routing_dropFabric s _ _)
    · rfl
  · rfl

@[simp] theorem routing_failColl (s : State) (c : Coll) (e : Fail) (tell : Option CollBody) :
    routing (failColl s c e tell) = routing s := by
  cases tell with
  | none => exact routing_failFabricOp _ _ _ _ _
  | some b => exact (routing_collCast _ c b).trans (routing_failFabricOp _ _ _ _ _)

@[simp] theorem routing_failRelay (s : State) (r : Relay) (code : Nat) : routing (failRelay s r code) = routing s :=
  foldl_keeps routing (fun t (_ : Nat × Nat × Nat) => (routing_giveReply _ _ _ _).trans (routing_vlogAdd t _)) _ s

@[simp] theorem routing_endToward (s : State) (p : Nat → Bool) (f : Fail → Fail) (code : Nat) :
    routing (endToward s p f code) = routing s := by
  unfold endToward
  extract_lets s1 lost s2 s3
  have h1 : routing s1 = routing s := foldl_keeps routing (fun t c => routing_failColl t c _ _) _ s
  have h2 : routing s2 = routing s1 := foldl_keeps routing (fun t (x : Nat × Nat) => routing_failFabricOp t _ _ _ _) _ s1
  have h3 : routing s3 = routing s2 := foldl_keeps routing (fun t r => routing_failRelay t r code) _ s2
  exact h3.trans (h2.trans h1)

/-- The routes after a recomputation are the new ones, and none is due (R393). -/
theorem routeRecompute_routing {s : State} (h : s.fab.routesDue = true) :
    ∃ t, exec .routeRecompute s = .next t ∧ routing t = (newRoutes s, false) := by
  refine ⟨_, if_neg (by simp [h]), ?_⟩
  simp only [routing_pump, routing_drain, routing_endToward]
  rfl

/-! ### Retransmission (R395) -/

theorem execRetransmitTimeout_of_sent {s : State} {dst txn : Nat} {x : Sent}
    (hx : s.fab.sent.find? (fun x => x.dst = dst && x.txn = txn) = some x) (hdue : s.fab.routesDue = false)
    (hroute : (routeTo s dst).isSome = true) (hsent : x.due = false) : exec (.retransmitTimeout dst txn) s
    = if x.tries < 4 then .next (pump (putSent s { x with tries := x.tries + 1, due := true })) else .next (pump (giveUp s x)) := by
  show execRetransmitTimeout dst txn s = _
  simp only [execRetransmitTimeout, hx]
  exact if_neg (by simp [hdue, hsent, Option.isNone_eq_false_iff.mpr hroute])

end Sys2Proof.Machine

open Sys2Proof Sys2Proof.Machine

/-- Settles O39: nothing that a recomputation sends or ends touches the new table, and the other rows have one branch each. -/
theorem fabricTimersRun : Obligations.FabricTimersRun := by
  unfold Obligations.FabricTimersRun
  refine ⟨fun s => ⟨fun h => ?_, rfl, fun hoff hrails => if_neg (by simp [hoff, hrails]),
    fun hoff hlimit => ⟨if_neg (by simp [hoff, hlimit]), if_neg (by simp [hoff, hlimit])⟩⟩,
    fun dst txn s x hx hdue hroute hsent => ?_⟩
  · obtain ⟨t, hrow, ht⟩ := routeRecompute_routing h
    exact ⟨t, hrow, congrArg Prod.fst ht, congrArg Prod.snd ht⟩
  · have hrow := execRetransmitTimeout_of_sent hx hdue hroute hsent
    refine ⟨fun htries => hrow.trans (if_pos htries), ?_⟩
    rw [Runs, hrow]
    split
    · exact ⟨_, rfl⟩
    · exact ⟨_, rfl⟩

end

section
/-!
The ports (R382 to R386, R393): what sending and the return of credit leave of a port and of the rest, and the packets that are
passed on or discarded (R384 to R386).
-/

namespace Sys2Proof.Machine

/-! ### Sending leaves all but the link's own fields -/

/-- A port without the fields that sending a frame or freeing a buffer changes. -/
def Port.core (v : Port) : Port := { v with sendSeq := 0#12, sent := [], rxTaken := [], rxHeld := [] }

/-- A port without its credits too. -/
def Port.face (v : Port) : Port := { v.core with credits := [] }

/-- A state beside its ports and what it has sent. -/
def besidePorts (s : State) : State := { s with fab := { s.fab with ports := [] }, out := [] }

/-- Every port keeps its core, and the state what stands beside the ports. -/
def SameCore (s t : State) : Prop := besidePorts t = besidePorts s ∧ ∀ j, (getPort t j).core = (getPort s j).core

theorem SameCore.refl (s : State) : SameCore s s := ⟨rfl, fun _ => rfl⟩

theorem SameCore.trans {s t u : State} (h : SameCore s t) (h' : SameCore t u) : SameCore s u :=
  ⟨h'.1.trans h.1, fun j => (h'.2 j).trans (h.2 j)⟩

theorem sameCore_emit (s : State) (m : Msg) : SameCore s (emit s m) := ⟨rfl, fun _ => rfl⟩

theorem sameCore_setPort {s : State} {p : Nat} {v : Port} (h : v.core = (getPort s p).core) : SameCore s (setPort s p v) := by
  refine ⟨rfl, fun j => ?_⟩
  rw [getPort_setPort]
  split
  next hp => rw [h, hp]
  · rfl

theorem sameCore_setLink (s : State) (p : Nat) (seq : BitVec 12) (sent : List Nat) (taken : SMap (BitVec 16))
    (held : List (List Nat × Bool)) : SameCore s (setPort s p { getPort s p with
      sendSeq := seq, sent := sent, rxTaken := taken, rxHeld := held }) := sameCore_setPort rfl

theorem sameCore_sendFrame (s : State) (p : Nat) (fs : List Nat) : SameCore s (sendFrame s p fs) :=
  (sameCore_emit s _).trans (sameCore_setLink _ _ _ _ _ _)

theorem sameCore_sendFlits (s : State) (p n : Nat) (fs : List Nat) : SameCore s (sendFlits s p n fs) := by
  induction n generalizing s fs with
  | zero => exact .refl s
  | succ n ih =>
    unfold sendFlits
    split
    · exact .refl s
    · exact (sameCore_sendFrame s p _).trans (ih _ _)

theorem sameCore_returnCredit (s : State) (p : Nat) : SameCore s (returnCredit s p) := by
  unfold returnCredit
  dsimp only
  split
  · exact .refl s
  · exact (sameCore_setLink _ _ _ _ _ _).trans (sameCore_sendFrame _ _ _)

theorem sameCore_freeBuffer (s : State) (k : Packet) : SameCore s (freeBuffer s k) := by
  unfold freeBuffer
  dsimp only
  split
  · exact .refl s
  split
  · exact (sameCore_setLink _ _ _ _ _ _).trans (sameCore_returnCredit _ _)
  · exact .refl s

theorem sameCore_freePassed (s : State) (k : Packet) : SameCore s (freePassed s k) := by
  unfold freePassed
  split
  · exact .refl s
  · exact sameCore_freeBuffer s _

/-! ### Sending takes credit (R386) -/

/-- Every port keeps its face, and no channel of it has more credit. -/
def Spends (s t : State) : Prop :=
  ∀ j, (getPort t j).face = (getPort s j).face ∧ ∀ c, tget 0#16 (getPort t j).credits c ≤ tget 0#16 (getPort s j).credits c

theorem Spends.refl (s : State) : Spends s s := fun _ => ⟨rfl, fun _ => BitVec.le_refl _⟩

theorem Spends.trans {s t u : State} (h : Spends s t) (h' : Spends t u) : Spends s u :=
  fun j => ⟨(h' j).1.trans (h j).1, fun c => BitVec.le_trans ((h' j).2 c) ((h j).2 c)⟩

theorem SameCore.spends {s t : State} (h : SameCore s t) : Spends s t := fun j => by
  have hcredits : (getPort t j).credits = (getPort s j).credits := (congrArg Port.credits (h.2 j) :)
  refine ⟨congrArg (fun v : Port => { v with credits := [] }) (h.2 j), fun c => ?_⟩
  rw [hcredits]
  exact BitVec.le_refl _

theorem spends_of_ports_eq {s t : State} (h : t.fab.ports = s.fab.ports) : Spends s t := fun j => by
  have hport : getPort t j = getPort s j := by rw [getPort, getPort, h]
  rw [hport]
  exact ⟨rfl, fun _ => BitVec.le_refl _⟩

/-- The credit that a packet takes is there: none wraps. -/
theorem spends_takeCredit {s : State} {p c n : Nat} (h : hasCredit s p c n = true) : Spends s (setPort s p { getPort s p with
    credits := tput 0#16 (getPort s p).credits c (tget 0#16 (getPort s p).credits c - BitVec.ofNat 16 n) }) := fun j => by
  have hn : n ≤ (tget 0#16 (getPort s p).credits c).toNat := by simpa [hasCredit] using h
  rw [getPort_setPort]
  split
  next hp =>
    subst hp
    refine ⟨rfl, fun d => ?_⟩
    rw [tget_tput]
    split
    next hd =>
      subst hd
      generalize tget 0#16 (getPort s p).credits c = x at hn ⊢
      bv_omega
    · exact BitVec.le_refl _
  · exact ⟨rfl, fun _ => BitVec.le_refl _⟩

theorem spends_putPacket {s : State} {p : Nat} {k : Packet} (h : hasCredit s p (hVc k.hdr) (flitCount k) = true) :
    Spends s (putPacket s p k) :=
  (spends_takeCredit h).trans
    (((sameCore_sendFlits _ _ _ _).trans (sameCore_emit _ _)).trans (sameCore_freePassed _ _)).spends

theorem spends_drainGo (xs : List (Option Nat × Packet)) (blocked : List (Nat × Nat × Bool)) (kept : List (Option Nat × Packet))
    (s : State) : Spends s (drainGo xs blocked kept s) := by
  induction xs generalizing blocked kept s with
  | nil => exact spends_of_ports_eq rfl
  | cons x r ih =>
    simp only [drainGo]
    split
    · split
      · exact ih _ _ _
      · exact (sameCore_freePassed s _).spends.trans (ih _ _ _)
    · split
      · exact ih _ _ _
      next hgo =>
        rw [Bool.or_eq_true, not_or, Bool.not_eq_true', Bool.not_eq_false] at hgo
        exact (spends_putPacket hgo.2).trans (ih _ _ _)

theorem spends_drain (s : State) : Spends s (drain s) := spends_drainGo _ _ _ s

theorem spends_queueOut (s : State) (x : Option Nat × Packet) : Spends s (queueOut s x) := by
  unfold queueOut
  split
  · exact .refl s
  · exact spends_of_ports_eq rfl

theorem spends_sendRoute (s : State) (n : RouteNews) : Spends s (sendRoute s n) := by
  have hqueue (ps : List Nat) : ∀ t, Spends t (ps.foldl (fun s p => queueOut s (some p, mkPacket
      { kind := kRoute, vc := 3, src := devId s, dst := (getPort s p).nbrId.toNat } (routeBytes n))) t) := by
    induction ps with
    | nil => exact .refl
    | cons p r ih => exact fun t => (spends_queueOut t _).trans (ih _)
  exact ((hqueue _ s).trans (spends_drain _)).trans (sameCore_emit _ _).spends

/-! ### Packets for another device, and discarded ones (R384, R385) -/

theorem arrive_passing {p : Packet} {s : State} {k : Nat} (hon : onFabric s = true) (hkind : hKind p.hdr = k)
    {take : State → Out} {c : Instr} (hrow : exec c s = arrive k p s take) :
    (hHops p.hdr = 16 → exec c s = .next (freeBuffer (countDiscard s (hSrc p.hdr)) p))
    ∧ (hHops p.hdr ≠ 16 → hDst p.hdr ≠ devId s →
        exec c s = .next (sendPacket s { p with hdr := setBits p.hdr 25 5 (hHops p.hdr + 1) }))
    ∧ (hHops p.hdr ≠ 16 → hDst p.hdr = devId s → e2eOf p.hdr p.data ≠ hE2e p.hdr →
        exec c s = .next (freeBuffer (countDiscard s (hSrc p.hdr)) p)) := by
  have hrow : exec c s = if hHops p.hdr = 16 then .next (freeBuffer (countDiscard s (hSrc p.hdr)) p)
      else if hDst p.hdr ≠ devId s then .next (sendPacket s { p with hdr := setBits p.hdr 25 5 (hHops p.hdr + 1) })
      else if e2eOf p.hdr p.data ≠ hE2e p.hdr || cdiv p.data.length 64 ≠ hFlits p.hdr then
        .next (freeBuffer (countDiscard s (hSrc p.hdr)) p)
      else freeAfter p (take s) := hrow.trans (if_neg (by simp [hkind, hon]))
  refine ⟨fun hhops => hrow.trans (if_pos hhops), fun hhops hdst => hrow.trans ((if_neg hhops).trans (if_pos hdst)),
    fun hhops hdst he2e => hrow.trans ((if_neg hhops).trans ((if_neg (not_not.mpr hdst)).trans (if_pos ?_)))⟩
  simp [he2e]

end Sys2Proof.Machine

open Sys2Proof Sys2Proof.Machine

/-- Settles O38: sending takes only credit that is there, and each kind of packet goes through `arrive`. -/
theorem passingPackets : Obligations.PassingPackets := by
  unfold Obligations.PassingPackets
  refine ⟨fun s port c => (spends_drain s port).2 c, fun p s c hon hc => ?_⟩
  simp only [List.mem_cons, List.not_mem_nil, or_false, Prod.mk.injEq] at hc
  obtain ⟨rfl, hk⟩ | ⟨rfl, hk⟩ | ⟨rfl, hk⟩ | ⟨rfl, hk⟩ | ⟨rfl, hk⟩ | ⟨rfl, hk⟩ | ⟨rfl, hk⟩ := hc
  · exact arrive_passing hon hk (Eq.refl (execWritePacket p s))
  · exact arrive_passing hon hk (Eq.refl (execReadPacket p s))
  · exact arrive_passing hon hk (Eq.refl (execDataPacket p s))
  · exact arrive_passing hon hk (Eq.refl (execRespPacket p s))
  · exact arrive_passing hon hk (Eq.refl (execCollPacket p s))
  · exact arrive_passing hon hk (Eq.refl (execRelayPacket p s))
  · exact arrive_passing hon hk (Eq.refl (execReplyPacket p s))

end

section
/-!
Frames that arrive at a port and the slots that it takes (R382 to R384, R386), and the rows of a port (R380, R383, R386 to R400).
-/

namespace Sys2Proof.Machine

/-! ### Frames (R382 to R384) -/

/-- A packet that is held changes no more of its port than the flits under way and the packets in the buffers. -/
theorem getPort_holdPacket (s : State) (p : Nat) :
    ∃ a b, getPort (holdPacket s p) p = { getPort s p with rxFlits := a, rxHeld := b } := by
  unfold holdPacket
  dsimp only
  split
  · exact ⟨_, _, rfl⟩
  · exact ⟨_, _, (getPort_setPort _ _ _ _).trans (if_pos rfl)⟩

theorem holdPacket_out (s : State) (p : Nat) : (holdPacket s p).out = s.out := by
  unfold holdPacket
  dsimp only
  split <;> rfl

/-- What a port keeps while it takes a frame's slots: the number expected, and that no replay is awaited. -/
def Port.awaits (v : Port) : BitVec 12 × Bool := (v.expSeq, v.discarding)

theorem awaits_eq {v : Port} {x : BitVec 12 × Bool} (h : v.awaits = x) : v.expSeq = x.1 ∧ v.discarding = x.2 := Prod.ext_iff.mp h

theorem awaits_holdPacket (s : State) (p : Nat) : (getPort (holdPacket s p) p).awaits = (getPort s p).awaits := by
  obtain ⟨a, b, h⟩ := getPort_holdPacket s p
  rw [h]
  rfl

theorem awaits_setPort {s : State} {p : Nat} {v : Port} {x : BitVec 12 × Bool} (h : v.awaits = x) :
    (getPort (setPort s p v) p).awaits = x := by
  rw [getPort_setPort, if_pos rfl, h]

theorem awaits_takeFlit (s : State) (p flit : Nat) : (getPort (takeFlit p s flit) p).awaits = (getPort s p).awaits := by
  unfold takeFlit
  extract_lets v w w1 w2 w3 s2
  split
  · split
    · exact awaits_setPort rfl
    · exact (awaits_holdPacket _ p).trans (awaits_setPort rfl)
  split
  · rfl
  have h2 : w3.awaits = (getPort s p).awaits := by
    unfold w3
    split <;> rfl
  have hs2 : (getPort s2 p).awaits = (getPort s p).awaits := awaits_setPort (by
    split
    · exact h2
    · exact h2)
  split
  · exact hs2
  · exact (awaits_holdPacket _ p).trans hs2

/-- A data flit of the packet under way is one fewer to come. -/
theorem takeFlit_rxLeft {s : State} {p : Nat} (flit : Nat) (h : 0 < (getPort s p).rxLeft) :
    (getPort (takeFlit p s flit) p).rxLeft = (getPort s p).rxLeft - 1
      ∧ (getPort (takeFlit p s flit) p).rxDrop = (getPort s p).rxDrop := by
  unfold takeFlit
  extract_lets v w w1 w2 w3 s2
  rw [if_pos h]
  split
  · rw [getPort_setPort, if_pos rfl]
    exact ⟨rfl, rfl⟩
  · obtain ⟨a, b, hp⟩ := getPort_holdPacket (emit (setPort s p { w with rxFlits := flit :: v.rxFlits }) (.deliver p flit)) p
    have hset : getPort (emit (setPort s p { w with rxFlits := flit :: v.rxFlits }) (.deliver p flit)) p
        = { w with rxFlits := flit :: v.rxFlits } := (getPort_setPort _ _ _ _).trans (if_pos rfl)
    rw [hp, hset]
    exact ⟨rfl, rfl⟩

theorem takeFlit_out {s : State} {p : Nat} (flit : Nat) (h : 0 < (getPort s p).rxLeft) :
    (takeFlit p s flit).out = if (getPort s p).rxDrop then s.out else s.out ++ [.deliver p flit] := by
  unfold takeFlit
  extract_lets v w w1 w2 w3 s2
  rw [if_pos h]
  split
  · rfl
  · exact holdPacket_out _ p

/-- The data flits of one packet that a frame brings: each is one fewer to come, and each is delivered unless they are
discarded. -/
theorem takeFlits_of_rxLeft {p : Nat} (fs : List Nat) : ∀ {s : State}, fs.length ≤ (getPort s p).rxLeft →
    (getPort (fs.foldl (takeFlit p) s) p).rxLeft = (getPort s p).rxLeft - fs.length
    ∧ ((getPort s p).rxDrop = false → (fs.foldl (takeFlit p) s).out = s.out ++ fs.map (.deliver p)) := by
  induction fs with
  | nil => exact fun _ => ⟨rfl, fun _ => (List.append_nil _).symm⟩
  | cons f r ih =>
    intro s hlen
    rw [List.length_cons] at hlen
    obtain ⟨hleft, hdrop⟩ := takeFlit_rxLeft f (show 0 < (getPort s p).rxLeft by omega)
    obtain ⟨hl, ho⟩ := ih (s := takeFlit p s f) (by omega)
    refine ⟨?_, fun hd => ?_⟩
    · rw [List.foldl_cons, hl, hleft, List.length_cons]
      omega
    · rw [List.foldl_cons, ho (hdrop.trans hd), takeFlit_out f (by omega), hd]
      simp

theorem awaits_takeFlits {p : Nat} (fs : List Nat) (s : State) :
    (getPort (fs.foldl (takeFlit p) s) p).awaits = (getPort s p).awaits :=
  foldl_keeps (fun t => (getPort t p).awaits) (fun t f => awaits_takeFlit t p f) fs s

theorem returnCredit_out (s : State) (p : Nat) : s.out <+: (returnCredit s p).out := by
  unfold returnCredit
  dsimp only
  split
  · exact List.prefix_rfl
  · exact List.prefix_append _ _

theorem awaits_of_core {v w : Port} (h : w.core = v.core) : w.awaits = v.awaits := (congrArg Port.awaits h :)

/-- The slots of a frame. -/
def slots (m : Nat) : List Nat := (List.range 20).map fun i => bits m (512 * i) 512

/-- Flits taken in turn, and the credit of those that left the buffers returned. -/
theorem takeFlits_returnCredit (s : State) (p : Nat) (fs : List Nat) :
    (getPort (returnCredit (fs.foldl (takeFlit p) s) p) p).awaits = (getPort s p).awaits
    ∧ (fs.length ≤ (getPort s p).rxLeft →
        (getPort (returnCredit (fs.foldl (takeFlit p) s) p) p).rxLeft = (getPort s p).rxLeft - fs.length
        ∧ ((getPort s p).rxDrop = false → s.out ++ fs.map (.deliver p) <+: (returnCredit (fs.foldl (takeFlit p) s) p).out)) := by
  have hcore := (sameCore_returnCredit (fs.foldl (takeFlit p) s) p).2 p
  refine ⟨(awaits_of_core hcore).trans (awaits_takeFlits fs s), fun hlen => ?_⟩
  obtain ⟨hleft, hout⟩ := takeFlits_of_rxLeft fs hlen
  refine ⟨(congrArg Port.rxLeft hcore :).trans hleft, fun hdrop => ?_⟩
  rw [← hout hdrop]
  exact returnCredit_out _ p

theorem takeFrame_eq (s : State) (p m : Nat) : takeFrame s p m = returnCredit ((slots m).foldl (takeFlit p)
    (setPort s p { getPort s p with expSeq := (getPort s p).expSeq + 1#12, discarding := false })) p := rfl

theorem slots_map {α : Type} (f : Nat → α) (m : Nat) :
    (slots m).map f = (List.range 20).map fun i => f (bits m (512 * i) 512) := List.map_map

theorem slots_length (m : Nat) : (slots m).length = 20 := by simp [slots]

/-- A frame in order: the number expected rises, and 20 data flits of the packet under way are delivered. -/
theorem takeFrame_inOrder (s : State) (p m : Nat) :
    (getPort (takeFrame s p m) p).awaits = ((getPort s p).expSeq + 1#12, false)
    ∧ (20 ≤ (getPort s p).rxLeft → (getPort (takeFrame s p m) p).rxLeft = (getPort s p).rxLeft - 20
      ∧ ((getPort s p).rxDrop = false → s.out ++ (slots m).map (.deliver p) <+: (takeFrame s p m).out)) := by
  have htaken := takeFlits_returnCredit
    (setPort s p { getPort s p with expSeq := (getPort s p).expSeq + 1#12, discarding := false }) p (slots m)
  rwa [← takeFrame_eq, getPort_setPort, if_pos rfl, slots_length] at htaken

theorem frameGood_eq (n m : Nat) : frameGood (.corrected n) m = decide (crc16 1283 m = bits m 10264 16) := Bool.true_and _

/-- Counting corrected codewords changes no more of its port than their count. -/
theorem getPort_countFec (s : State) (p : Nat) (fec : Fec) : ∃ a, getPort (countFec s p fec) p = { getPort s p with fecCorr := a } := by
  cases fec with
  | corrected n => exact ⟨_, (getPort_setPort _ _ _ _).trans (if_pos rfl)⟩
  | uncorrectable => exact ⟨_, rfl⟩

theorem countFec_out (s : State) (p : Nat) (fec : Fec) : (countFec s p fec).out = s.out := by cases fec <;> rfl

/-- A request for a replay delivers nothing and changes neither the number expected nor the count. -/
theorem askReplay_keeps (s : State) (p : Nat) : (getPort (askReplay s p) p).expSeq = (getPort s p).expSeq
    ∧ (getPort (askReplay s p) p).discard = (getPort s p).discard
    ∧ ∃ l, (askReplay s p).out = s.out ++ l ∧ ∀ x ∈ l, ∀ f, x ≠ .deliver p f := by
  unfold askReplay
  extract_lets v s1
  have hport : getPort s1 p = { v with discarding := true, replays := (s.glob.timestamp :: v.replays).take 64 } :=
    (getPort_setPort _ _ _ _).trans (if_pos rfl)
  have hexp : (getPort s1 p).expSeq = v.expSeq := by rw [hport]
  have hdiscard : (getPort s1 p).discard = v.discard := by rw [hport]
  have hout : s1.out = s.out := rfl
  clear_value s1
  have hcore := ((sameCore_sendFrame s1 p [nakFlit (devId s1) v.nbrId.toNat v.expSeq.toNat]).trans
    (sameCore_emit _ (.nak p v.expSeq))).2 p
  refine ⟨(congrArg Port.expSeq hcore :).trans hexp, (congrArg Port.discard hcore :).trans hdiscard, ?_⟩
  exact ⟨[_, .nak p v.expSeq], (List.append_assoc _ _ _).trans (by rw [← hout]; rfl), by simp⟩

/-- A frame that is discarded is counted and delivers nothing; the number expected stays. -/
theorem discardFrame_counts (s : State) (p : Nat) (ask : Bool) :
    (getPort (discardFrame s p ask) p).expSeq = (getPort s p).expSeq
    ∧ (getPort (discardFrame s p ask) p).discard = satInc (getPort s p).discard
    ∧ ∃ l, (discardFrame s p ask).out = s.out ++ l ∧ ∀ x ∈ l, ∀ f, x ≠ .deliver p f := by
  have hcount : getPort (countFrame s p) p = { getPort s p with discard := satInc (getPort s p).discard } :=
    (getPort_setPort _ _ _ _).trans (if_pos rfl)
  have hexp : (getPort (countFrame s p) p).expSeq = (getPort s p).expSeq := by rw [hcount]
  have hdiscard : (getPort (countFrame s p) p).discard = satInc (getPort s p).discard := by rw [hcount]
  cases ask with
  | false => exact ⟨hexp, hdiscard, [], (List.append_nil _).symm, nofun⟩
  | true =>
    obtain ⟨hexp', hdiscard', hout⟩ := askReplay_keeps (countFrame s p) p
    exact ⟨hexp'.trans hexp, hdiscard'.trans hdiscard, hout⟩

theorem execFrameReceive_of_carries {p : Nat} {s : State} (h : carries (getPort s p) = true) (fec : Fec) (m : Nat) :
    exec (.frameReceive p fec m) s = .next (
      if frameGood fec m = false then discardFrame (countFec s p fec) p true
      else if bits m 10240 12 ≠ (getPort (countFec s p fec) p).expSeq.toNat then
        discardFrame (countFec s p fec) p (!(getPort (countFec s p fec) p).discarding)
      else takeFrame (countFec s p fec) p m) := by
  show execFrameReceive p fec m s = _
  unfold execFrameReceive
  rw [if_neg (by simp [h])]
  cases frameGood fec m <;> rfl

/-- A header of a reserved kind is discarded with the data flits that it announces (R384). -/
theorem getPort_takeFlit_reserved {s : State} {p flit : Nat} (hkind : 11 ≤ hKind flit) (hleft : (getPort s p).rxLeft = 0) :
    (takeFlit p s flit).out = s.out ∧ (getPort (takeFlit p s flit) p).discard = satInc (getPort s p).discard
    ∧ (getPort (takeFlit p s flit) p).rxLeft = hFlits flit ∧ (getPort (takeFlit p s flit) p).rxDrop = true := by
  have hidle : hKind flit ≠ kIdle := by
    intro h
    rw [h] at hkind
    exact absurd hkind (by decide)
  unfold takeFlit
  extract_lets v w w1 w2 w3 s2
  have hdrop : w1.rxDrop = true := by simp [w1, hkind]
  have hw3 : w3 = { w2 with rxFlits := [] } := if_pos hdrop
  have hs2 : s2 = setPort s p (countKind w3) := congrArg (setPort s p) (if_pos hkind)
  have hport : getPort s2 p = countKind w3 := by rw [hs2, getPort_setPort, if_pos rfl]
  have hdrop3 : w3.rxDrop = true := by
    rw [hw3]
    exact hdrop
  rw [if_neg (show ¬ 0 < v.rxLeft by simp [v, hleft]), if_neg hidle, if_pos hdrop3, hport]
  refine ⟨by rw [hs2]; rfl, ?_⟩
  rw [hw3]
  exact ⟨rfl, rfl, hdrop⟩

end Sys2Proof.Machine

open Sys2Proof Sys2Proof.Machine

/-- Settles O40: a frame is discarded, or in order, and then its 20 slots are taken one by one. -/
theorem frameDelivery : Obligations.FrameDelivery := by
  unfold Obligations.FrameDelivery
  refine ⟨fun port m fec s h => execFrameReceive_of_carries h fec m, fun port m n s h => ⟨fun hcrc hseq => ?_, fun fec hbad => ?_⟩,
    fun port flit s hkind hleft => ?_⟩
  · have hrow := execFrameReceive_of_carries h (.corrected n) m
    obtain ⟨a, hport⟩ := getPort_countFec s port (.corrected n)
    rw [frameGood_eq, if_neg (by simp [hcrc]), if_neg (by rw [hport]; exact not_not.mpr hseq)] at hrow
    obtain ⟨hawaits, htaken⟩ := takeFrame_inOrder (countFec s port (.corrected n)) port m
    rw [hport] at hawaits htaken
    rw [countFec_out] at htaken
    obtain ⟨hexp, hdiscarding⟩ := awaits_eq hawaits
    refine ⟨_, hrow, hexp, hdiscarding, fun h20 => (htaken h20).1, fun h20 hdrop => ?_⟩
    exact slots_map (Msg.deliver port) m ▸ (htaken h20).2 hdrop
  · have hrow := execFrameReceive_of_carries h fec m
    obtain ⟨a, hport⟩ := getPort_countFec s port fec
    have hdiscard (ask : Bool) (ht : exec (.frameReceive port fec m) s = .next (discardFrame (countFec s port fec) port ask)) :
        ∃ t, exec (.frameReceive port fec m) s = .next t ∧ (getPort t port).expSeq = (getPort s port).expSeq
          ∧ (getPort t port).discard = satInc (getPort s port).discard
          ∧ ∀ x ∈ t.out.drop s.out.length, ∀ f, x ≠ .deliver port f := by
      obtain ⟨hexp, hcount, l, hl, hnone⟩ := discardFrame_counts (countFec s port fec) port ask
      rw [hport] at hexp hcount
      rw [countFec_out] at hl
      exact ⟨_, ht, hexp, hcount, by rw [hl, List.drop_left]; exact hnone⟩
    by_cases hgood : frameGood fec m = false
    · exact hdiscard true (hrow.trans (congrArg _ (if_pos hgood)))
    · have hseq := hbad.resolve_left hgood
      refine hdiscard _ (hrow.trans (congrArg _ ((if_neg hgood).trans (if_pos ?_))))
      rw [hport]
      exact hseq
  · intro t
    obtain ⟨hout, hcount, hannounced, hdrop⟩ := getPort_takeFlit_reserved hkind hleft
    refine ⟨hout, hcount, hannounced, hdrop, fun f hpos => ?_⟩
    have hleft' : 0 < (getPort t port).rxLeft := lt_of_lt_of_eq hpos hannounced.symm
    exact ⟨(takeFlit_out f hleft').trans ((if_pos hdrop).trans hout),
      (takeFlit_rxLeft f hleft').1.trans (congrArg (· - 1) hannounced)⟩

end

section
/-!
The rows of a port (R380, R383, R386 to R400): what leaving the routes, training and going down do to it.
-/

namespace Sys2Proof.Machine

/-! ### A port's own changes -/

theorem getPort_setPort_same (s : State) (p : Nat) (v : Port) : getPort (setPort s p v) p = v :=
  (getPort_setPort s p p v).trans (if_pos rfl)

theorem spends_linkChange (s : State) (p : Nat) (live : Bool) : Spends s (linkChange s p live) :=
  (spends_of_ports_eq rfl).trans (spends_sendRoute _ _)

theorem spends_leaveRoutes (s : State) (p : Nat) : Spends s (leaveRoutes s p) := by
  unfold leaveRoutes
  split
  · exact spends_linkChange s p false
  · exact .refl s

/-- What a change of the port, then news of its link, leave of it. -/
theorem face_of_spends {s t : State} {p : Nat} {v : Port} (h : Spends (setPort s p v) t) : (getPort t p).face = v.face := by
  rw [(h p).1, getPort_setPort_same]

theorem state_of_face {v w : Port} (h : w.face = v.face) : w.state = v.state := (congrArg Port.state h :)

theorem cable_of_face {v w : Port} (h : w.face = v.face) : w.cable = v.cable := (congrArg Port.cable h :)

theorem portDown_port (s : State) (p : Nat) :
    (getPort (portDown s p) p).state = .down ∧ (getPort (portDown s p) p).cable = (getPort s p).cable := by
  have h := face_of_spends (spends_leaveRoutes
    (setPort s p { (getPort s p).quiet with state := .down, downs := satInc (getPort s p).downs }) p)
  exact ⟨(state_of_face h :), (cable_of_face h :)⟩

theorem startTraining_port (s : State) (p : Nat) :
    (getPort (startTraining s p) p).state = (if portEnabled s p then .training else .disabled)
    ∧ (getPort (startTraining s p) p).cable = (getPort s p).cable := by
  unfold startTraining
  extract_lets v on src s1
  have h := face_of_spends (spends_leaveRoutes (setPort s p { v.quiet with state := if on then .training else .disabled }) p)
  have hstate : (getPort s1 p).state = if on then .training else .disabled := (state_of_face h :)
  have hcable : (getPort s1 p).cable = v.cable := (cable_of_face h :)
  clear_value s1
  rw [← hstate, ← hcable]
  split
  · exact ⟨rfl, rfl⟩
  · exact ⟨rfl, rfl⟩

/-! ### LINK flits (R386) -/

/-- The credits of a port once a LINK flit has returned some. -/
def credited (v : Port) (f : Nat) : SMap (BitVec 16) :=
  (List.range 4).foldl (fun t c => tput 0#16 t c (tget 0#16 t c + BitVec.ofNat 16 (bits f (160 + 16 * c) 16))) v.credits

theorem tget_credited (v : Port) (f : Nat) {c : Nat} (h : c < 4) :
    tget 0#16 (credited v f) c = tget 0#16 v.credits c + BitVec.ofNat 16 (bits f (160 + 16 * c) 16) := by
  have hrange : List.range 4 = [0, 1, 2, 3] := rfl
  unfold credited
  rw [hrange]
  obtain rfl | rfl | rfl | rfl : c = 0 ∨ c = 1 ∨ c = 2 ∨ c = 3 := by omega
  all_goals simp [tget_tput]

theorem exec_linkFlit {s : State} {p : Nat} (h : carries (getPort s p) = true) (f : Nat) :
    let u := setPort s p { getPort s p with credits := credited (getPort s p) f }
    exec (.linkFlit p f) s
      = .next (drain (if bit f 236 then replay u p (framesFrom (bits f 224 12) (getPort s p).sent) else u)) :=
  if_neg (by simp [h])

/-! ### HELLO (R389, R397, R400) -/

/-- Whether a HELLO names the pod that the port trained in. -/
def samePod (v : Port) (h : Hello) : Bool := decide (v.podAt.toNat = h.podId % 2 ^ 32) && h.podId % 2 ^ 32 != 0

/-- Whether a HELLO comes from the neighbour that the pod's shape has at the port. -/
def rightWire (v : Port) (p : Nat) (h : Hello) : Bool :=
  let shape := bits v.posAt.toNat 8 2
  shape == h.shape % 4 && shape != 0 && h.devId == nbrDev shape (bits v.posAt.toNat 0 6) p && h.port == nbrPortOf shape p

/-- A state after a HELLO has been judged, of which the port has heard its neighbour. -/
structure Judged (s t : State) (p : Nat) (h : Hello) : Prop where
  nbrId : (getPort t p).nbrId = BitVec.ofNat 6 h.devId
  nbrPod : (getPort t p).nbrPod = BitVec.ofNat 32 h.podId
  pod : samePod (getPort s p) h = false → (getPort t p).state = .isolated ∧ (getPort t p).podMismatch = true
  wire : rightWire (getPort s p) p h = false → (getPort t p).state = .isolated ∧ (getPort t p).miswired = true

theorem helloFlit_judged {s : State} {p : Nat} (hc : carries (getPort s p) = true) (h : Hello) :
    ∃ t, exec (.helloFlit p h) s = .next t ∧ Judged s t p h := by
  show ∃ t, execHelloFlit p h s = .next t ∧ _
  unfold execHelloFlit
  extract_lets v shape own pod wired e told s1 s2 src heard
  have hpod : samePod v h = pod := rfl
  have hwired : rightWire v p h = wired := rfl
  have hid : heard.nbrId = BitVec.ofNat 6 h.devId := rfl
  have hnbr : heard.nbrPod = BitVec.ofNat 32 h.podId := rfl
  clear_value heard src s2 s1
  rw [if_neg (show ¬ (!carries v) = true by simp [v, hc])]
  by_cases hbad : (!pod || !wired) = true
  · rw [if_pos hbad]
    have hface := face_of_spends (spends_leaveRoutes
      (setPort s2 p { heard with state := .isolated, podMismatch := !pod, miswired := !wired }) p)
    exact ⟨_, rfl, {
      nbrId := (congrArg Port.nbrId hface :).trans hid
      nbrPod := (congrArg Port.nbrPod hface :).trans hnbr
      pod := fun hno => ⟨(congrArg Port.state hface :), (congrArg Port.podMismatch hface :).trans (by rw [← hpod, hno]; rfl)⟩
      wire := fun hno => ⟨(congrArg Port.state hface :), (congrArg Port.miswired hface :).trans (by rw [← hwired, hno]; rfl)⟩ }⟩
  · rw [if_neg hbad]
    rw [Bool.or_eq_true, not_or, Bool.not_eq_true', Bool.not_eq_true', Bool.not_eq_false, Bool.not_eq_false] at hbad
    obtain ⟨hpodOk, hwiredOk⟩ := hbad
    have hgood {t : State} {v : Port} (hface : (getPort t p).face = v.face) (hv : v.nbrId = heard.nbrId ∧ v.nbrPod = heard.nbrPod) :
        Judged s t p h :=
      { nbrId := (congrArg Port.nbrId hface :).trans (hv.1.trans hid)
        nbrPod := (congrArg Port.nbrPod hface :).trans (hv.2.trans hnbr)
        pod := fun hno => absurd (hno.symm.trans (hpod.trans hpodOk)) nofun
        wire := fun hno => absurd (hno.symm.trans (hwired.trans hwiredOk)) nofun }
    split
    · exact ⟨_, rfl, hgood (face_of_spends (spends_linkChange (setPort s2 p { heard with state := .up }) p true)) ⟨rfl, rfl⟩⟩
    · exact ⟨_, rfl, hgood (congrArg Port.face (getPort_setPort_same s2 p heard)) ⟨rfl, rfl⟩⟩

theorem samePod_eq_false {v : Port} {h : Hello} (hno : h.podId % 2 ^ 32 = 0 ∨ v.podAt.toNat ≠ h.podId % 2 ^ 32) :
    samePod v h = false := by
  unfold samePod
  rcases hno with hno | hno
  · rw [hno]
    simp
  · rw [decide_eq_false hno, Bool.false_and]

theorem rightWire_eq_false {v : Port} {p : Nat} {h : Hello} (hno : let shape := bits v.posAt.toNat 8 2
      shape = 0 ∨ shape ≠ h.shape % 4 ∨ h.devId ≠ nbrDev shape (bits v.posAt.toNat 0 6) p ∨ h.port ≠ nbrPortOf shape p) :
    rightWire v p h = false := by
  unfold rightWire
  rcases hno with hno | hno | hno | hno
  · rw [hno]
    simp
  · simp [hno]
  · simp [hno]
  · simp [hno]

/-! ### ROUTE flits (R393, R397) -/

theorem devId_of_sameCore {s t : State} (h : SameCore s t) : devId t = devId s := by
  have hcarries : carries ∘ getPort t = carries ∘ getPort s := funext fun j => (congrArg carries (h.2 j) :)
  have hpos (j : Nat) : (getPort t j).posAt = (getPort s j).posAt := (congrArg Port.posAt (h.2 j) :)
  have htrained : (trained t).posAt = (trained s).posAt := by
    unfold trained
    rw [List.find?_map, List.find?_map, hcarries]
    cases (List.range 6).find? (carries ∘ getPort s) with
    | none => exact hpos 0
    | some j => exact hpos j
  unfold devId posWord
  rw [htrained]

@[simp] theorem routing_sendRoute (s : State) (n : RouteNews) : routing (sendRoute s n) = routing s := by
  have hqueue (t : State) (x : Option Nat × Packet) : routing (queueOut t x) = routing t := by
    unfold queueOut
    split <;> rfl
  exact (routing_drain _).trans (foldl_keeps routing (fun t p => hqueue t _) _ s)

theorem sendRoute_out_getLast (s : State) (n : RouteNews) : (sendRoute s n).out.getLast? = some (.route n) :=
  List.getLast?_concat ..

/-- News of another device's link, which the device did not know, makes a recomputation due and is passed on; its own
announcement follows only where news of an own link is wrong. -/
theorem routeFlit_passes {s : State} {p : Nat} (hst : (getPort s p).state = .up ∨ (getPort s p).state = .quiescing)
    (n : RouteNews) : ∃ t, exec (.routeFlit p n) s = .next t
      ∧ ((∃ x ∈ n.links, x.dev ≠ devId s ∧ liveLink s x.dev x.port ≠ x.live) →
          t.fab.routesDue = true
          ∧ ((∀ x ∈ n.links, x.dev = devId s → liveLink s x.dev x.port = x.live) → t.out.getLast? = some (.route n))) := by
  show ∃ t, execRouteFlit p n s = .next t ∧ _
  unfold execRouteFlit
  extract_lets v s1 others fresh wrong s2 s3 s4 src s5
  have h1 : SameCore s s1 := by
    unfold s1
    split
    · exact (sameCore_setLink s p _ _ _ _).trans (sameCore_returnCredit _ p)
    · exact .refl s
  have hdev : devId s1 = devId s := devId_of_sameCore h1
  have hlive (d q : Nat) : liveLink s1 d q = liveLink s d q := (congrArg (liveLink · d q) h1.1 :)
  rw [if_neg (by rcases hst with hst | hst <;> simp [v, hst])]
  refine ⟨_, rfl, fun hnews => ?_⟩
  have hfresh : fresh = true := by
    obtain ⟨x, hx, hother, hdiff⟩ := hnews
    simp only [fresh, Bool.or_eq_true]
    refine .inl (.inl (List.any_eq_true.mpr ⟨x, List.mem_filter.mpr ⟨hx, by simpa [hdev] using hother⟩, ?_⟩))
    simpa [hlive] using hdiff
  have h5 : s5 = sendRoute (setFab s4 { s4.fab with routesDue := true }) n := if_pos hfresh
  have hdue : s5.fab.routesDue = true := by
    rw [h5]
    exact congrArg Prod.snd (routing_sendRoute (setFab s4 { s4.fab with routesDue := true }) n)
  have hlast : s5.out.getLast? = some (.route n) := by
    rw [h5]
    exact sendRoute_out_getLast _ n
  refine ⟨?_, fun hown => ?_⟩
  · split
    · exact hdue
    · exact (congrArg Prod.snd (routing_sendRoute s5 _)).trans hdue
  · have hright : wrong.isEmpty = true := by
      have hnone : n.links.filter (fun x => x.dev = devId s1 && liveLink s1 x.dev x.port != x.live) = [] := by
        refine List.filter_eq_nil_iff.mpr fun x hx => ?_
        simp only [hdev, hlive, Bool.and_eq_true, decide_eq_true_eq, bne_iff_ne]
        exact fun hbad => hbad.2 (hown x hx hbad.1)
      simp only [wrong, wrongNews, hnone]
      rfl
    rw [if_pos hright]
    exact hlast

/-! ### Lanes, cables and training (R380, R398 to R400) -/

theorem laneFailure_of_lost {s : State} {p : Nat} {w : BitVec 8} (hc : carries (getPort s p) = true)
    (hw : w &&& (getPort s p).lanesUp ≠ (getPort s p).lanesUp) :
    (∀ x, usableLanes w = some x → exec (.laneFailure p w) s = .next (startTraining s p))
    ∧ (usableLanes w = none → exec (.laneFailure p w) s = .next (portDown s p)) := by
  have hrow : exec (.laneFailure p w) s = execLaneFailure p w s := rfl
  unfold execLaneFailure at hrow
  dsimp only at hrow
  rw [if_neg (by simp [hc, hw])] at hrow
  constructor
  · intro x hx
    rw [hrow, hx]
  · intro hnone
    rw [hrow, hnone]

theorem cablePull_pulls {s : State} {p : Nat} (h : (getPort s p).cable = true) : ∃ t, exec (.cablePull p) s = .next t
    ∧ (getPort t p).cable = false ∧ ((getPort s p).state ≠ .disabled → (getPort t p).state = .down) := by
  show ∃ t, execCablePull p s = .next t ∧ _
  unfold execCablePull
  dsimp only
  rw [if_neg (by simp [h])]
  obtain ⟨hdown, hcable⟩ := portDown_port (setPort s p { getPort s p with cable := false }) p
  rw [getPort_setPort_same] at hcable
  split
  next hst =>
    refine ⟨_, rfl, ?_, fun hno => absurd hst hno⟩
    rw [getPort_setPort_same]
  next hst =>
    refine ⟨_, rfl, ?_, fun _ => ?_⟩
    · rw [getPort_setPort_same]
    · rw [getPort_setPort_same]
      exact hst
  · refine ⟨_, rfl, ?_, fun _ => ?_⟩
    · rw [getPort_setPort_same]
    · rw [getPort_setPort_same]
  · exact ⟨_, rfl, hcable, fun _ => hdown⟩

theorem cableInsert_trains {s : State} {p : Nat} (h : (getPort s p).cable = false) : ∃ t, exec (.cableInsert p) s = .next t
    ∧ (getPort t p).cable = true
    ∧ (mayTrain s p = true → (getPort s p).state = .down → (getPort t p).state = .training) := by
  obtain ⟨hstate, hcable⟩ := startTraining_port (setPort s p { getPort s p with cable := true }) p
  rw [getPort_setPort_same] at hcable
  have hmay : mayTrain (setPort s p { getPort s p with cable := true }) p = mayTrain s p := rfl
  show ∃ t, execCableInsert p s = .next t ∧ _
  unfold execCableInsert
  dsimp only
  rw [if_neg (by simp [h])]
  split
  next htrain =>
    rw [hmay, Bool.and_eq_true, mayTrain, Bool.and_eq_true] at htrain
    exact ⟨_, rfl, hcable, fun _ _ => hstate.trans (if_pos htrain.1.1)⟩
  next hno =>
    refine ⟨_, rfl, ?_, fun hm hdown => absurd ?_ hno⟩
    · rw [getPort_setPort_same]
    · rw [hmay, hm, hdown]
      rfl

/-- Of a port that has just been set, sending a frame leaves the state and the lanes. -/
theorem framesSent_port {s : State} {p : Nat} {v : Port} {fs : List Nat} {m : Msg} {x : PortState × BitVec 8 × Bool}
    (hv : (v.state, v.lanesUp, v.laneDegraded) = x) :
    (getPort (emit (sendFrame (setPort s p v) p fs) m) p).state = x.1
    ∧ (getPort (emit (sendFrame (setPort s p v) p fs) m) p).lanesUp = x.2.1
    ∧ (getPort (emit (sendFrame (setPort s p v) p fs) m) p).laneDegraded = x.2.2 := by
  have hcore : (getPort (emit (sendFrame (setPort s p v) p fs) m) p).core = v.core := by
    rw [((sameCore_sendFrame (setPort s p v) p fs).trans (sameCore_emit _ m)).2 p, getPort_setPort_same]
  subst hv
  exact ⟨(congrArg Port.state hcore :), (congrArg Port.lanesUp hcore :), (congrArg Port.laneDegraded hcore :)⟩

theorem portTrainingComplete_ends {s : State} {p : Nat} (h : (getPort s p).state = .training) (w : BitVec 8) :
    ∃ t, exec (.portTrainingComplete p w) s = .next t
      ∧ (usableLanes w = none → (getPort t p).state = .down)
      ∧ ∀ l half, usableLanes w = some (l, half) → (getPort t p).state = .hello ∧ (getPort t p).lanesUp = l
          ∧ (getPort t p).laneDegraded = half := by
  show ∃ t, execPortTrainingComplete p w s = .next t ∧ _
  unfold execPortTrainingComplete
  dsimp only
  rw [if_neg (not_not.mpr h)]
  split
  next hnone => exact ⟨_, rfl, fun _ => (portDown_port s p).1, fun l half hl => absurd (hnone.symm.trans hl) nofun⟩
  next lanes degraded hlanes =>
    refine ⟨_, rfl, fun hnone => absurd (hlanes.symm.trans hnone) nofun, fun l half hl => ?_⟩
    obtain ⟨rfl, rfl⟩ := Prod.mk.inj (Option.some.inj (hlanes.symm.trans hl))
    exact framesSent_port rfl

end Sys2Proof.Machine

open Sys2Proof Sys2Proof.Machine

/-- Settles O41, row by row. -/
theorem portRowsComplete : Obligations.PortRowsComplete := by
  unfold Obligations.PortRowsComplete
  intro port s
  refine ⟨fun h f => ⟨setPort s port { getPort s port with credits := credited (getPort s port) f }, fun c hc => ?_, rfl, rfl, exec_linkFlit h f⟩, fun h hlimit => if_pos (by simp [h, hlimit]),
    fun hc h => ?_, fun hst n => routeFlit_passes hst n, fun hc w hw => laneFailure_of_lost hc hw, cablePull_pulls,
    cableInsert_trains, portTrainingComplete_ends, fun hst hon hdue hbusy => if_pos (by simp [hst, hon, hdue, hbusy]),
    fun hst hcame hcable => if_pos (by simp [hst, hcame, hcable])⟩
  · rw [getPort_setPort_same]
    exact tget_credited (getPort s port) f hc
  · obtain ⟨t, hrow, hjudged⟩ := helloFlit_judged hc h
    exact ⟨t, hrow, fun hno => hjudged.pod (samePod_eq_false hno), fun hno => hjudged.wire (rightWire_eq_false hno),
      hjudged.nbrId, hjudged.nbrPod⟩

end

section
/-!
Copies and fills (R150 to R154, R363, R364): the pieces of a transfer, what each stores, and the bytes that stay.
-/

namespace Sys2Proof.Machine

/-! ### Pieces -/

/-- Pieces that cover a range of offsets, one after the other. -/
def Covers (b : Nat) : Nat → List (Nat × Nat) → Prop
  | k, [] => k = b
  | k, (off, n) :: r => off = k ∧ 0 < n ∧ off + n ≤ b ∧ Covers b (off + n) r

theorem cutAt_zero (base unit fuel off : Nat) : cutAt base unit fuel off 0 = [] := by cases fuel <;> rfl

theorem covers_cutAt {base unit : Nat} (hu : 0 < unit) : ∀ (fuel off len : Nat),
    len + (base + off) % unit ≤ fuel * unit → Covers (off + len) off (cutAt base unit fuel off len) := by
  intro fuel
  induction fuel with
  | zero =>
    intro off len h
    show off = off + len
    omega
  | succ fuel ih =>
    intro off len h
    unfold cutAt
    split
    next hlen => exact hlen ▸ rfl
    next hlen =>
      have hmod : (base + off) % unit < unit := Nat.mod_lt _ hu
      rw [Nat.succ_mul] at h
      rcases Nat.lt_or_ge (unit - (base + off) % unit) len with hmore | hlast
      · have hend : (base + (off + (unit - (base + off) % unit))) % unit = 0 := by
          refine Nat.mod_eq_zero_of_dvd ⟨(base + off) / unit + 1, ?_⟩
          have hdiv := Nat.div_add_mod (base + off) unit
          rw [Nat.mul_add, Nat.mul_one]
          omega
        have hrest := ih (off + (unit - (base + off) % unit)) (len - (unit - (base + off) % unit)) (by omega)
        rw [show off + (unit - (base + off) % unit) + (len - (unit - (base + off) % unit)) = off + len by omega] at hrest
        rw [Nat.min_eq_right hmore.le]
        exact ⟨rfl, by omega, by omega, hrest⟩
      · rw [Nat.min_eq_left hlast]
        dsimp only
        rw [Nat.sub_self, cutAt_zero]
        exact ⟨rfl, by omega, le_rfl, rfl⟩

theorem Covers.append {b c : Nat} : ∀ {ps qs : List (Nat × Nat)} {k : Nat}, Covers b k ps → Covers c b qs → b ≤ c →
    Covers c k (ps ++ qs)
  | [], _, _, h, h', _ => h ▸ h'
  | _ :: _, _, _, ⟨hoff, hpos, hle, h⟩, h', hbc => ⟨hoff, hpos, hle.trans hbc, h.append h' hbc⟩

/-- The fuel of a whole cut is enough. -/
theorem covers_cut (base off len unit : Nat) (hu : 0 < unit) : Covers (off + len) off (cutAt base unit (len / unit + 2) off len) := by
  refine covers_cutAt hu _ off len ?_
  have hmod : (base + off) % unit < unit := Nat.mod_lt _ hu
  have hdiv := Nat.div_add_mod len unit
  have hlen : len % unit < unit := Nat.mod_lt _ hu
  rw [Nat.add_mul, Nat.mul_comm]
  omega

theorem covers_pieces (d : Dst) (len : Nat) : Covers len 0 (pieces d len) := by
  have hwhole (base unit : Nat) (hu : 0 < unit) : Covers len 0 (cutAt base unit (len / unit + 2) 0 len) := by
    simpa using covers_cut base 0 len unit hu
  unfold pieces
  split
  next a =>
    split
    next h =>
      rw [Bool.and_eq_true, decide_eq_true_eq] at h
      have hfirst := covers_cut a 0 (regionBase - a) 512 (by omega)
      have hsecond := covers_cut a (regionBase - a) (len - (regionBase - a)) 16 (by omega)
      rw [Nat.zero_add] at hfirst
      rw [show regionBase - a + (len - (regionBase - a)) = len by omega] at hsecond
      exact hfirst.append hsecond (by omega)
    · refine hwhole _ _ ?_
      split
      · omega
      · split <;> omega
  · exact hwhole _ _ (by omega)
  · exact hwhole _ _ (by omega)

theorem Covers.mem {b : Nat} : ∀ {ps : List (Nat × Nat)} {k : Nat}, Covers b k ps → ∀ p ∈ ps, 0 < p.2 ∧ p.1 + p.2 ≤ b
  | _ :: _, _, ⟨_, hpos, hle, h⟩, p, hp => by
    rcases List.mem_cons.mp hp with rfl | hp
    · exact ⟨hpos, hle⟩
    · exact h.mem p hp

/-! ### A transfer into HBM where no error waits -/

/-- Domains 64 to 79 are ON: the stacks of HBM and the die bridge. -/
def HbmOn (s : State) : Prop := ∀ d, 64 ≤ d → d < 80 → pdOn s d = true

theorem pdServes_of_pdOn {s : State} {d : Nat} (h : pdOn s d = true) (write : Bool) : pdServes s write d = true := by
  cases write with
  | true => exact h
  | false =>
    have hpd : pd s d = .settled .on := eq_of_beq h
    simp [pdServes, hpd, readsServed]

theorem addrServed_of_hbm {s : State} (h : HbmOn s) (write : Bool) {a : Nat} (ha : a < hbmEnd) : addrServed s write a = true := by
  have hstack : a / stackBytes < 8 := Nat.div_lt_of_lt_mul (by rw [hbmEnd] at ha; rw [stackBytes]; omega)
  unfold addrServed
  rw [if_pos (by simpa [isHbm] using ha)]
  generalize a / stackBytes = q at hstack ⊢
  rw [pdServes_of_pdOn (h _ (by omega) (by omega)),
    pdServes_of_pdOn (h dBridge (by decide) (by decide)), Bool.or_true]
  rfl

theorem refusedIn_of_hbm {s : State} (h : HbmOn s) (write : Bool) {a n : Nat} (ha : a + n ≤ hbmEnd) :
    refusedIn s write a n = none := by
  unfold refusedIn
  rw [List.findSome?_eq_none_iff]
  intro u hu
  have hlt : u < hbmEnd := by
    unfold unitsOf at hu
    split at hu
    · exact absurd hu (List.not_mem_nil)
    next hn =>
      dsimp only at hu
      obtain ⟨i, hi, rfl⟩ := List.mem_map.mp hu
      rw [List.mem_range] at hi
      have hle : a / unitSize a + i ≤ (a + n - 1) / unitSize a := by
        have := Nat.div_le_div_right (c := unitSize a) (show a ≤ a + n - 1 by omega)
        omega
      have := (Nat.mul_le_mul_right (unitSize a) hle).trans (Nat.div_mul_le_self (a + n - 1) (unitSize a))
      omega
  rw [if_pos (addrServed_of_hbm h write hlt)]

theorem rangeFault_of_hbm {a n : Nat} (ha : a + n ≤ hbmEnd) (hn : 0 < n) : rangeFault a n = none := by
  unfold rangeFault
  dsimp only
  rw [if_neg (by omega), if_pos (by simp; omega), if_pos ha]

/-- A transfer of which the bytes below offset `k` have been stored, as `byte` gives them, where no error waits. -/
structure Landed (s : State) (dst : Nat) (byte : Nat → Byte) (k : Nat) (x : Land) : Prop where
  err : x.err = none
  flags : x.flags = 0#8
  clean : Clean x.s
  power : x.s.power = s.power
  ops : x.s.head.ops = s.head.ops
  wf : memWf x.s.mems.dev = true
  dev : ∀ a, memByte x.s.mems.dev a = if dst ≤ a ∧ a < dst + k then byte (a - dst) else memByte s.mems.dev a

/-- A source whose bytes are `byte`, wherever a transfer into HBM stands: it reads, and counts, but changes no store. -/
def Gives (s : State) (dst len : Nat) (byte : Nat → Byte) (src : State → Nat → Nat → State × BitVec 8 × Except Fail (List Byte)) :
    Prop :=
  ∀ x k n, Landed s dst byte k x → 0 < n → k + n ≤ len → ∃ u bytes, src x.s k n = (u, 0#8, .ok bytes)
    ∧ u.mems = x.s.mems ∧ u.power = x.s.power ∧ u.head = x.s.head
    ∧ bytes.length = n ∧ ∀ i, i < n → bytes.getD i 0#8 = byte (k + i)

theorem hbmOn_of_power {s t : State} (h : t.power = s.power) (hon : HbmOn s) : HbmOn t := fun d hlo hhi => by
  have := hon d hlo hhi
  unfold pdOn pd at this ⊢
  rwa [h]

@[simp] theorem countHbm_power (s : State) (write : Bool) (us : List Nat) : (countHbm s write us).power = s.power := by
  unfold countHbm
  split <;> rfl

@[simp] theorem wrote_power (s : State) (a : Nat) (bytes : List Byte) : (wrote s a bytes).power = s.power := by simp [wrote]

@[simp] theorem wrote_head (s : State) (a : Nat) (bytes : List Byte) : (wrote s a bytes).head = s.head := by simp [wrote]

/-- One piece more is stored. -/
theorem Landed.write {s : State} {dst k : Nat} {byte : Nat → Byte} {x : Land} (h : Landed s dst byte k x) {u : State}
    (hmems : u.mems = x.s.mems) (hpower : u.power = x.s.power) (hhead : u.head = x.s.head) {bytes : List Byte}
    (hbytes : ∀ i, i < bytes.length → bytes.getD i 0#8 = byte (k + i)) :
    Landed s dst byte (k + bytes.length) { x with s := wrote u (dst + k) bytes, flags := 0#8 } where
  err := h.err
  flags := rfl
  clean := by
    obtain ⟨hups, hpoison⟩ := h.clean
    exact ⟨by rw [wrote_mems, hmems]; exact hups, by rw [wrote_mems, hmems]; exact hpoison⟩
  power := by rw [wrote_power, hpower, h.power]
  ops := by rw [wrote_head, hhead, h.ops]
  wf := by
    rw [wrote_mems, hmems]
    exact memWf_memWrite _ _ h.wf
  dev := fun a => by
    rw [wrote_mems, hmems]
    refine (memByte_memWrite (dst + k) a bytes h.wf).trans ?_
    rw [h.dev]
    split
    next hin =>
      rw [if_pos (by omega), hbytes _ (by omega), show k + (a - (dst + k)) = a - dst by omega]
    next hout =>
      split
      · rw [if_pos (by omega)]
      · rw [if_neg (by omega)]

theorem landPiece_of_clean {x : Land} {dst k wmode len : Nat} {bytes : List Byte} (hclean : Clean x.s) (hon : HbmOn x.s)
    (hpos : 0 < bytes.length) (hend : dst + k + bytes.length ≤ hbmEnd) :
    landPiece (.dev dst) wmode len x k bytes = { x with s := wrote x.s (dst + k) bytes, flags := x.flags ||| 0#8 } := by
  unfold landPiece
  dsimp only
  rw [rangeFault_of_hbm hend hpos]
  dsimp only
  rw [if_pos (by simp [isHbm]; omega), hbmWrite_of_clean hclean (refusedIn_of_hbm hon true hend)]

theorem landAll_of_clean {s : State} {dst len wmode : Nat} {byte : Nat → Byte}
    {src : State → Nat → Nat → State × BitVec 8 × Except Fail (List Byte)} (hon : HbmOn s) (hend : dst + len ≤ hbmEnd)
    (hsrc : Gives s dst len byte src) :
    ∀ {ps : List (Nat × Nat)} {k : Nat} {x : Land}, Covers len k ps → Landed s dst byte k x →
      ∃ y, Landed s dst byte len y ∧ landAll (.dev dst) wmode len src ps x = y.count 2
  | [], _, x, hk, h => ⟨x, hk ▸ h, rfl⟩
  | (off, n) :: r, k, x, ⟨hoff, hpos, hle, hrest⟩, h => by
    subst hoff
    obtain ⟨u, bytes, hread, hmems, hpower, hhead, hlen, hbytes⟩ := hsrc x off n h hpos hle
    subst hlen
    have hclean : Clean u := by
      unfold Clean
      rw [hmems]
      exact h.clean
    have hflags : x.flags ||| 0#8 = 0#8 := by rw [h.flags]; rfl
    have hpiece := landPiece_of_clean (x := { x with s := u, flags := x.flags ||| 0#8 }) (wmode := wmode) (len := len) hclean
      (hbmOn_of_power (hpower.trans h.power) hon) hpos (show dst + off + bytes.length ≤ hbmEnd by omega)
    have hstored := h.write hmems hpower hhead hbytes
    obtain ⟨y, hy, hall⟩ := landAll_of_clean hon hend hsrc hrest hstored
    refine ⟨y, hy, ?_⟩
    rw [← hall, landAll, hread]
    dsimp only
    rw [hpiece, hflags]
    dsimp only
    rw [h.err]
    rfl

/-! ### The sources of a copy and a fill -/

/-- Byte `i` of a repeated 32-bit value. -/
def fillByte (v i : Nat) : Byte := BitVec.ofNat 8 (v >>> (8 * (i % 4)))

theorem gives_srcFill (s : State) (dst len v : Nat) : Gives s dst len (fillByte v) (srcFill v) := fun x k n _ _ _ => by
  refine ⟨x.s, _, rfl, rfl, rfl, rfl, by simp, fun i hi => ?_⟩
  rw [List.getD_eq_getElem?_getD]
  simp [hi, fillByte]

theorem gives_srcDev {s : State} {src dst len : Nat} (hon : HbmOn s) (hend : src + len ≤ hbmEnd)
    (hapart : src + len ≤ dst ∨ dst + len ≤ src) :
    Gives s dst len (fun i => memByte s.mems.dev (src + i)) (srcDev src) := fun x k n h hpos hle => by
  have hserved := refusedIn_of_hbm (hbmOn_of_power h.power hon) false (show src + k + n ≤ hbmEnd by omega)
  refine ⟨countHbm x.s false (unitsOf (src + k) n), devBytes x.s (src + k) n, ?_, by simp, by simp, by simp, by simp [devBytes], fun i hi => ?_⟩
  · unfold srcDev
    dsimp only
    rw [rangeFault_of_hbm (by omega) hpos]
    dsimp only
    rw [if_neg (by simp [isTable]; rw [hbmEnd] at hend; rw [regionBase]; omega), devRead_of_clean h.clean hserved]
    dsimp only
    rw [if_pos (by simp [isHbm]; omega)]
  · rw [List.getD_eq_getElem?_getD]
    simp only [devBytes, List.getElem?_map, List.getElem?_range hi, Option.map_some, Option.getD_some, devByte]
    rw [h.dev, if_neg (by omega), Nat.add_assoc]

/-! ### The rows -/

@[simp] theorem mergeHost_mems_dev (s : State) (fn : Nat) (h : HostReply) : (mergeHost s fn h).mems.dev = s.mems.dev := by
  cases h <;> rfl

@[simp] theorem mergeHost_power (s : State) (fn : Nat) (h : HostReply) : (mergeHost s fn h).power = s.power := by cases h <;> rfl

theorem clean_mergeHost {s : State} (h : Clean s) (fn : Nat) (reply : HostReply) : Clean (mergeHost s fn reply) := by
  cases reply <;> exact h

/-- A transfer begins with nothing stored. -/
theorem landed_zero {s : State} (hclean : Clean s) (hwf : memWf s.mems.dev = true) (dst : Nat) (byte : Nat → Byte)
    (tally tunit : Nat) : Landed s dst byte 0 { s := s, tally := tally, tunit := tunit } where
  err := rfl
  flags := rfl
  clean := hclean
  power := rfl
  ops := rfl
  wf := hwf
  dev := fun a => (if_neg (by omega)).symm

/-- What a transfer leaves of device memory, and how its command ends. -/
def Stores (s t : State) (r : OpRef) (o : Op) (dst len : Nat) (byte : Nat → Byte) (a : Nat) : Prop :=
  ∃ u, findOp t r.q r.tag = some u ∧ u.phase = .ended ∧ u.flags = o.flags ∧ u.status ≤ 1
    ∧ memByte t.mems.dev a = if dst ≤ a ∧ a < dst + len then byte (a - dst) else memByte s.mems.dev a

theorem count_eq (x : Land) (u : Nat) : ∃ t, x.count u = { x with s := t } ∧ t.mems = x.s.mems ∧ t.head.ops = x.s.head.ops := by
  unfold Land.count
  split
  · exact ⟨_, rfl, rfl, rfl⟩
  · exact ⟨_, rfl, rfl, rfl⟩

theorem stores_of_landed {s : State} {r : OpRef} {o : Op} {dst len : Nat} {byte : Nat → Byte} {y : Land}
    (hf : findOp s r.q r.tag = some o) (hy : Landed s dst byte len y) (a : Nat) :
    Stores s (endWith (y.count 2).s o (y.count 2).flags (y.count 2).err) r o dst len byte a := by
  obtain ⟨t, ht, hmems, hops⟩ := count_eq y 2
  rw [ht]
  dsimp only
  rw [hy.err, hy.flags]
  have hfind : findOp t r.q r.tag = some o := (findOp_of_ops_eq (hops.trans hy.ops) r.q r.tag).trans hf
  refine ⟨_, findOp_endOk hfind 0#8, rfl, BitVec.or_zero, okStatus_le_one _, ?_⟩
  show memByte t.mems.dev a = _
  rw [hmems]
  exact hy.dev a

/-- A transfer of a started command into HBM, where no error waits, stores what its source gives. -/
theorem stores_of_landAll {s : State} {r : OpRef} {o : Op} {dst len wmode tally tunit : Nat} {byte : Nat → Byte}
    {src : State → Nat → Nat → State × BitVec 8 × Except Fail (List Byte)} {ps : List (Nat × Nat)}
    (hf : findOp s r.q r.tag = some o) (hwf : memWf s.mems.dev = true) (hclean : Clean s) (hon : HbmOn s)
    (hend : dst + len ≤ hbmEnd) (hsrc : Gives s dst len byte src) (hps : Covers len 0 ps) (a : Nat) {x : Land}
    (hx : landAll (.dev dst) wmode len src ps { s := s, tally := tally, tunit := tunit } = x) :
    Stores s (endWith x.s o x.flags x.err) r o dst len byte a := by
  obtain ⟨y, hy, hall⟩ := landAll_of_clean (wmode := wmode) hon hend hsrc hps (landed_zero hclean hwf dst byte tally tunit)
  rw [← hx, hall]
  exact stores_of_landed hf hy a

theorem stores_copy {r : OpRef} {s : State} {o : Op} (hwf : memWf s.mems.dev = true) (hclean : Clean s) (hon : HbmOn s)
    (h : Started s r 0x30 o) (hsh : cpSrcHost o = false) (hdh : cpDstHost o = false) (hsr : cpSrcRegion o = false)
    (hdr : cpDstRegion o = false) (hsend : cpSrc o + cpLen o ≤ hbmEnd) (hdend : cpDst o + cpLen o ≤ hbmEnd)
    (hapart : cpSrc o + cpLen o ≤ cpDst o ∨ cpDst o + cpLen o ≤ cpSrc o) (a : Nat) :
    Stores s (ran copyBody r s o) r o (cpDst o) (cpLen o) (fun i => memByte s.mems.dev (cpSrc o + i)) a := by
  have hfind : findOp (mergeHost s (opFunc s o) r.host) r.q r.tag = some o :=
    (findOp_of_head_eq (mergeHost_head s _ _) r.q r.tag).trans h.1
  unfold Stores ran copyBody cpPieces cpSource cpDest
  dsimp only
  simp only [hsh, hdh, hsr, hdr, Bool.false_and, Bool.false_eq_true, if_false]
  rw [← mergeHost_mems_dev s (opFunc s o) r.host] at hwf ⊢
  have hon' := hbmOn_of_power (mergeHost_power s (opFunc s o) r.host) hon
  exact stores_of_landAll hfind hwf (clean_mergeHost hclean _ _) hon' hdend (gives_srcDev hon' hsend hapart) (covers_pieces _ _) a rfl

theorem stores_fill {r : OpRef} {s : State} {o : Op} (hwf : memWf s.mems.dev = true) (hclean : Clean s) (hon : HbmOn s)
    (h : Started s r 0x35 o) (hdh : flDstHost o = false) (hend : flDst o + flLen o ≤ hbmEnd) (a : Nat) :
    Stores s (ran fillBody r s o) r o (flDst o) (flLen o) (fillByte (flValue o)) a := by
  have hfind : findOp (mergeHost s (opFunc s o) r.host) r.q r.tag = some o :=
    (findOp_of_head_eq (mergeHost_head s _ _) r.q r.tag).trans h.1
  unfold Stores ran fillBody flDest
  dsimp only
  simp only [hdh, Bool.false_eq_true, if_false]
  rw [← mergeHost_mems_dev s (opFunc s o) r.host] at hwf ⊢
  have hon' := hbmOn_of_power (mergeHost_power s (opFunc s o) r.host) hon
  exact stores_of_landAll hfind hwf (clean_mergeHost hclean _ _) hon' hend (gives_srcFill _ _ _ _) (covers_pieces _ _) a rfl

end Sys2Proof.Machine

open Sys2Proof Sys2Proof.Machine

/-- Settles O22: a transfer lands piece by piece, and each piece is one write of the source's bytes. -/
theorem copyAndFillMoveTheBytes : Obligations.CopyAndFillMoveTheBytes := by
  unfold Obligations.CopyAndFillMoveTheBytes
  rintro r s o a ⟨hwf, -⟩ hups hpoison hon
  have hclean : Clean s := ⟨hups, hpoison⟩
  refine ⟨fun h hsh hdh hsr hdr hsend hdend hapart => ?_, fun h hdh hend => ?_⟩
  · have hfree : heldByD3 s o = false := by simp [heldByD3, writesHost, h.2.2, show bit o.packet (352 + 133) = false from hdh]
    obtain ⟨u, hu⟩ := stores_copy hwf hclean hon h hsh hdh hsr hdr hsend hdend hapart a
    exact ⟨_, u, runBody_of_started h hfree, hu⟩
  · have hfree : heldByD3 s o = false := by simp [heldByD3, writesHost, h.2.2, show bit o.packet (352 + 84) = false from hdh]
    obtain ⟨u, hu⟩ := stores_fill hwf hclean hon h hdh hend a
    exact ⟨_, u, runBody_of_started h hfree, hu⟩

end

section
/-!
The frame of a fill (R150 to R154, R364): the bytes of both memories outside what it stores.
-/

namespace Sys2Proof.Machine

/-! ### What stays at an address -/

/-- A byte of device memory that is as it was, where that memory is in its canonical form; and host memory is as it was. -/
structure KeepsByte (a : Nat) (s t : State) : Prop where
  wf : memWf s.mems.dev = true → memWf t.mems.dev = true
  byte : memWf s.mems.dev = true → memByte t.mems.dev a = memByte s.mems.dev a
  host : t.mems.host = s.mems.host

theorem KeepsByte.of_mems_eq {a : Nat} {s t : State} (hdev : t.mems.dev = s.mems.dev) (hhost : t.mems.host = s.mems.host) :
    KeepsByte a s t := ⟨fun h => by rwa [hdev], fun _ => by rw [hdev], hhost⟩

theorem KeepsByte.refl (a : Nat) (s : State) : KeepsByte a s s := .of_mems_eq rfl rfl

theorem KeepsByte.trans {a : Nat} {s t u : State} (h : KeepsByte a s t) (h' : KeepsByte a t u) : KeepsByte a s u where
  wf := fun hs => h'.wf (h.wf hs)
  byte := fun hs => (h'.byte (h.wf hs)).trans (h.byte hs)
  host := h'.host.trans h.host

/-- The bytes of both memories. -/
def stores (s : State) : List Host.Cell × List Host.Cell := (s.mems.dev, s.mems.host)

theorem KeepsByte.of_stores_eq {a : Nat} {s t : State} (h : stores t = stores s) : KeepsByte a s t :=
  .of_mems_eq (congrArg Prod.fst h) (congrArg Prod.snd h)

/-! Looking for errors changes no byte (R193 to R200). -/

@[simp] theorem stores_correctRow (s : State) (row : Nat) : stores (correctRow s row).1 = stores s :=
  foldl_keeps stores (fun t w => (rfl : stores (countCorr t false w 1) = stores t)) _ s

@[simp] theorem stores_guardUnit (s : State) (u : Nat) : stores (guardUnit s u).1 = stores s := by
  unfold guardUnit
  split
  · split
    · rfl
    · split <;> rfl
  · dsimp only
    split
    · exact stores_correctRow s u
    · exact stores_correctRow s u

@[simp] theorem stores_guardUnits (s : State) (us : List Nat) : stores (guardUnits s us).1 = stores s := by
  induction us generalizing s with
  | nil => rfl
  | cons u r ih =>
    have hunit := stores_guardUnit s u
    unfold guardUnits
    split
    next h => rw [h] at hunit; exact hunit
    next h => rw [h] at hunit; exact (ih _).trans hunit

/-! ### Landing -/

theorem keepsByte_hbmWrite {s : State} {a x : Nat} {bytes : List Byte} (hout : a < x ∨ x + bytes.length ≤ a) :
    KeepsByte a s (hbmWrite s x bytes).1 := by
  unfold hbmWrite
  extract_lets n us part
  split
  · exact .refl a s
  · have hguard := stores_guardUnits s part
    split
    next h => rw [h] at hguard; exact .of_stores_eq hguard
    next u f h =>
      rw [h] at hguard
      have hcount : stores (countHbm (countHbm u false part) true us) = stores s := by
        unfold stores
        rw [countHbm_mems, countHbm_mems]
        exact hguard
      generalize countHbm (countHbm u false part) true us = t at hcount
      refine (KeepsByte.of_stores_eq hcount).trans ⟨memWf_memWrite _ _, fun hwf => ?_, rfl⟩
      exact (memByte_memWrite _ _ _ hwf).trans (if_neg (by omega))

theorem keepsByte_rowCommit {s : State} {a row off : Nat} {bytes : List Byte} (hrow : a < row ∨ row + 512 ≤ a)
    (hout : a < row + off ∨ row + off + bytes.length ≤ a) : KeepsByte a s (rowCommit s row off bytes) where
  wf := fun h => memWf_memWrite _ _ (memWf_memClear _ _ h)
  byte := fun h => by rw [memByte_rowCommit h, if_neg (by omega), if_neg (by omega)]
  host := rfl

theorem stores_count (x : Land) (u : Nat) : stores (x.count u).s = stores x.s := by
  obtain ⟨t, ht, hmems, -⟩ := count_eq x u
  rw [ht]
  unfold stores
  rw [hmems]

/-- A whole row is stored. -/
theorem keepsByte_landRow {x : Land} {a y : Nat} {bytes : List Byte} (hrow : a < y / 512 * 512 ∨ y / 512 * 512 + 512 ≤ a)
    (hout : a < y ∨ y + bytes.length ≤ a) : KeepsByte a x.s (landRow x 0 y bytes).s := by
  have hy : y / 512 * 512 + y % 512 = y := by omega
  unfold landRow
  split
  · exact .refl a _
  · dsimp only
    rw [if_pos rfl]
    exact (keepsByte_rowCommit hrow (by rwa [hy])).trans (.of_stores_eq (stores_count _ 1))

theorem stores_landEntry (x : Land) (l k a : Nat) (bytes : List Byte) : stores (landEntry x l k a bytes).s = stores x.s := by
  have hwrite {s t : State} {v : Nat} (h : regionWrite s l k v = some t) : stores t = stores s := by
    unfold regionWrite at h
    split at h
    · split at h
      · rw [← Option.some.inj h]
        rfl
      · exact absurd h nofun
    · rw [← Option.some.inj h]
      rfl
  unfold landEntry
  dsimp only
  split
  · rfl
  split
  · rfl
  split
  next h => exact hwrite h
  · rfl

/-- Whether an address lies outside what a fill of `len` bytes at `dst` stores: its bytes in HBM, its rows in a bench. -/
def Outside (dst len a : Nat) : Prop :=
  (isHbm dst = true → dst + len ≤ benchBase ∧ (a < dst ∨ dst + len ≤ a))
  ∧ (isHbm dst = false → a < dst / 512 * 512 ∨ (dst + len + 511) / 512 * 512 ≤ a)

/-- An address that lies in a memory, but not in HBM, lies in a bench or the region table. -/
theorem benchBase_le_of_rangeFault {a n : Nat} (h : ∀ y, rangeFault a n ≠ some y) (hn : 0 < n) (hno : isHbm a = false) :
    benchBase ≤ a := by
  have hhbm : ¬ a < hbmEnd := by simpa [isHbm] using hno
  have hregion : benchBase ≤ regionBase := by decide
  by_contra hlow
  refine h a ?_
  unfold rangeFault
  dsimp only
  rw [if_neg (by omega), if_neg (by simp [hhbm]), if_neg (by simp; omega)]

/-- The row of an address of the fill is one of the rows that the fill stores. -/
theorem row_outside {dst len a y : Nat} (h : a < dst / 512 * 512 ∨ (dst + len + 511) / 512 * 512 ≤ a) (hlo : dst ≤ y)
    (hhi : y < dst + len) : a < y / 512 * 512 ∨ y / 512 * 512 + 512 ≤ a := by
  have hfirst : dst / 512 ≤ y / 512 := Nat.div_le_div_right hlo
  have hlast : y / 512 + 1 ≤ (dst + len + 511) / 512 := by omega
  rcases h with h | h
  · exact .inl (h.trans_le (Nat.mul_le_mul_right 512 hfirst))
  · have hrow := Nat.mul_le_mul_right 512 hlast
    rw [Nat.add_mul, Nat.one_mul] at hrow
    exact .inr (hrow.trans h)

theorem keepsByte_landPiece {x : Land} {dst len a off : Nat} {bytes : List Byte} (hout : Outside dst len a)
    (hpos : 0 < bytes.length) (hle : off + bytes.length ≤ len) : KeepsByte a x.s (landPiece (.dev dst) 0 len x off bytes).s := by
  obtain ⟨hhbm, hrows⟩ := hout
  have hbytes : a < dst + off ∨ dst + off + bytes.length ≤ a := by
    cases hdst : isHbm dst with
    | true =>
      obtain ⟨-, h⟩ := hhbm hdst
      omega
    | false =>
      have h := hrows hdst
      omega
  unfold landPiece
  dsimp only
  split
  · exact .refl a _
  next hin =>
  split
  · have hwrite := keepsByte_hbmWrite (s := x.s) hbytes
    split
    next h => rw [h] at hwrite; exact hwrite
    next h => rw [h] at hwrite; exact hwrite
  next hno =>
  split
  · split
    · exact .refl a _
    · exact .of_stores_eq (stores_landEntry _ _ _ _ _)
  · refine keepsByte_landRow ?_ hbytes
    cases hdst : isHbm dst with
    | true =>
      have hpast : dst + len ≤ dst + off :=
        (hhbm hdst).1.trans (benchBase_le_of_rangeFault hin hpos (Bool.eq_false_iff.mpr hno))
      omega
    | false => exact row_outside (hrows hdst) (by omega) (by omega)

/-! ### A whole transfer -/

/-- A transfer keeps what its source and each of its pieces keep. -/
theorem landAll_induct {P : State → Prop} {d : Dst} {wmode len : Nat}
    {src : State → Nat → Nat → State × BitVec 8 × Except Fail (List Byte)} (hcount : ∀ x : Land, P x.s → P (x.count 2).s)
    (hsrc : ∀ s off n, P s → P (src s off n).1) {ps : List (Nat × Nat)}
    (hpiece : ∀ x : Land, ∀ p ∈ ps, ∀ s t f bytes, src s p.1 p.2 = (t, f, .ok bytes) → P x.s →
      P (landPiece d wmode len x p.1 bytes).s) :
    ∀ {x : Land}, P x.s → P (landAll d wmode len src ps x).s := by
  induction ps with
  | nil => exact fun h => hcount _ h
  | cons p r ih =>
    intro x h
    obtain ⟨off, n⟩ := p
    have hread := hsrc x.s off n h
    unfold landAll
    split
    next hx => rw [hx] at hread; exact hread
    next u f bytes hx =>
      rw [hx] at hread
      have hlanded : P (landPiece d wmode len { x with s := u, flags := x.flags ||| f } off bytes).s :=
        hpiece _ (off, n) List.mem_cons_self _ _ _ _ hx hread
      dsimp only
      split
      · exact hlanded
      · exact ih (fun y p hp => hpiece y p (List.mem_cons_of_mem _ hp)) hlanded

theorem srcFill_length {v off n : Nat} {s t : State} {f : BitVec 8} {bytes : List Byte}
    (h : srcFill v s off n = (t, f, .ok bytes)) : bytes.length = n := by
  simp only [srcFill, Prod.mk.injEq, Except.ok.injEq] at h
  obtain ⟨-, -, rfl⟩ := h
  simp

theorem keepsByte_fillDev {s : State} {dst len v a tally tunit : Nat} (hout : Outside dst len a) : KeepsByte a s
    (landAll (.dev dst) 0 len (srcFill v) (pieces (.dev dst) len) { s := s, tally := tally, tunit := tunit }).s := by
  refine landAll_induct (P := KeepsByte a s) (fun x h => h.trans (.of_stores_eq (stores_count x 2))) (fun t off n h => h) ?_ (.refl a s)
  intro x p hp t u f bytes hread h
  obtain ⟨hpos, hle⟩ := (covers_pieces (.dev dst) len).mem p hp
  have hlen := srcFill_length hread
  exact h.trans (keepsByte_landPiece hout (by omega) (by omega))

/-! ### A fill of host memory -/

/-- Device memory as it was, and a byte of host memory, where that memory is in its canonical form. -/
structure KeepsHostByte (a : Nat) (s t : State) : Prop where
  wf : memWf s.mems.host = true → memWf t.mems.host = true
  byte : memWf s.mems.host = true → memByte t.mems.host a = memByte s.mems.host a
  dev : t.mems.dev = s.mems.dev

theorem KeepsHostByte.of_stores_eq {a : Nat} {s t : State} (h : stores t = stores s) : KeepsHostByte a s t := by
  obtain ⟨hdev, hhost⟩ := Prod.mk.inj h
  exact ⟨fun h => by rwa [hhost], fun _ => by rw [hhost], hdev⟩

theorem KeepsHostByte.trans {a : Nat} {s t u : State} (h : KeepsHostByte a s t) (h' : KeepsHostByte a t u) :
    KeepsHostByte a s u where
  wf := fun hs => h'.wf (h.wf hs)
  byte := fun hs => (h'.byte (h.wf hs)).trans (h.byte hs)
  dev := h'.dev.trans h.dev

theorem keepsHostByte_landPiece {x : Land} {fn b len a off : Nat} {bytes : List Byte}
    (hout : a < hostKey fn b ∨ hostKey fn b + len ≤ a) (hle : off + bytes.length ≤ len) :
    KeepsHostByte a x.s (landPiece (.host fn b) 0 len x off bytes).s := by
  have hkey : hostKey fn (b + off) = hostKey fn b + off := by unfold hostKey; omega
  unfold landPiece
  dsimp only
  split
  · refine ⟨memWf_memWrite _ _, fun hwf => ?_, rfl⟩
    refine (memByte_memWrite _ _ _ hwf).trans (if_neg ?_)
    rw [hkey]
    omega
  · exact .of_stores_eq rfl

theorem keepsHostByte_fillHost {s : State} {fn b len v a tally tunit : Nat}
    (hout : a < hostKey fn b ∨ hostKey fn b + len ≤ a) : KeepsHostByte a s
    (landAll (.host fn b) 0 len (srcFill v) (pieces (.host fn b) len) { s := s, tally := tally, tunit := tunit }).s := by
  refine landAll_induct (P := KeepsHostByte a s) (fun x h => h.trans (.of_stores_eq (stores_count x 2))) (fun t off n h => h) ?_
    (.of_stores_eq rfl)
  intro x p hp t u f bytes hread h
  obtain ⟨-, hle⟩ := (covers_pieces (.host fn b) len).mem p hp
  have hlen := srcFill_length hread
  exact h.trans (keepsHostByte_landPiece hout (by omega))

/-! ### The row -/

theorem stores_endWith (s : State) (o : Op) (f : BitVec 8) (e : Option Fail) : stores (endWith s o f e) = stores s := by
  cases e with
  | none => rfl
  | some e =>
    unfold stores endWith endFail
    dsimp only
    rw [vlogAdd_eq]
    rfl

/-- What a fill leaves of the stores, from the state with what the host answered. -/
theorem stores_execCeFill {r : OpRef} {s t : State} {o : Op} (h : Started s r 0x35 o) (hx : exec (.ceFill r) s = .next t) :
    stores t = stores (fillBody (heard s r.q r.host) o r.host).s := by
  have hrow : runBody 0x35 fillBody r s = .next t := hx
  have hq : o.q = r.q := (findOp_key h.1).1
  have hfree : heldByD3 s o = false := by
    by_contra hheld
    rw [runBody, h.1] at hrow
    simp [hheld] at hrow
    exact absurd hrow nofun
  rw [runBody_of_started h hfree] at hrow
  rw [← Host.Outcome.next.inj hrow]
  unfold ran
  dsimp only
  rw [stores_endWith, opFunc, hq]
  rfl

theorem fillBody_of_host {o : Op} (h : flDstHost o = true) (s : State) (reply : HostReply) : (fillBody s o reply).s
    = (landAll (.host (opFunc s o) (flDst o)) 0 (flLen o) (srcFill (flValue o)) (pieces (.host (opFunc s o) (flDst o)) (flLen o))
        { s := s, tally := flTally o, tunit := flTunit o }).s := by
  unfold fillBody flDest
  rw [if_pos h]

theorem fillBody_of_dev {o : Op} (h : flDstHost o = false) (s : State) (reply : HostReply) : (fillBody s o reply).s
    = (landAll (.dev (flDst o)) 0 (flLen o) (srcFill (flValue o)) (pieces (.dev (flDst o)) (flLen o))
        { s := s, tally := flTally o, tunit := flTunit o }).s := by
  unfold fillBody flDest
  rw [h]
  rfl

theorem inl_lt (o : Op) (lo n : Nat) : inl o lo n < 2 ^ n := Nat.mod_lt _ (Nat.two_pow_pos n)

/-- No fill that begins in HBM reaches the benches. -/
theorem fill_below_benches {o : Op} (h : isHbm (flDst o) = true) : flDst o + flLen o ≤ benchBase := by
  have hlen : flLen o < 2 ^ 36 := inl_lt o 48 36
  have hlow : flDst o < hbmEnd := by simpa [isHbm] using h
  have hroom : hbmEnd + 2 ^ 36 ≤ benchBase := by decide
  exact (Nat.add_le_add hlow.le hlen.le).trans hroom

theorem outside_of_fill {o : Op} {a : Nat} (hhbm : isHbm (flDst o) = true → a < flDst o ∨ flDst o + flLen o ≤ a)
    (hrows : isHbm (flDst o) = false → a < flDst o / 512 * 512 ∨ (flDst o + flLen o + 511) / 512 * 512 ≤ a) :
    Outside (flDst o) (flLen o) a := ⟨fun h => ⟨fill_below_benches h, hhbm h⟩, hrows⟩

end Sys2Proof.Machine

open Sys2Proof Sys2Proof.Machine

/-- Settles O23: each piece of a fill writes within it, a bench row whole. -/
theorem fillFrame : Obligations.FillFrame := by
  unfold Obligations.FillFrame
  intro r s t o a ⟨hwfDev, hwfHost⟩ h hx first host
  obtain ⟨hdev, hhost⟩ := Prod.mk.inj (stores_execCeFill h hx)
  have hkept : Kept s (heard s r.q r.host) := kept_mergeHost (Kept.refl s)
  have hmdev : (heard s r.q r.host).mems.dev = s.mems.dev := mergeHost_mems_dev _ _ _
  have hfn : opFunc (heard s r.q r.host) o = opFunc s o :=
    congrArg (fun v : Queue => v.func.toNat) (getQ_of_head_eq (mergeHost_head s _ _) o.q)
  refine ⟨fun hh => ?_, fun hh => ?_⟩
  · rw [hdev, hhost, fillBody_of_host hh, hfn]
    have hbeyond := keepsHostByte_fillHost (s := heard s r.q r.host) (fn := opFunc s o) (b := flDst o) (len := flLen o)
      (v := flValue o) (tally := flTally o) (tunit := flTunit o) (a := first + flLen o) (.inr le_rfl)
    exact ⟨by rw [hbeyond.dev, hmdev], fun hout => (keepsHostByte_fillHost hout).byte (hkept.host hwfHost)⟩
  · rw [hdev, hhost, fillBody_of_dev hh]
    have hkeeps {b : Nat} (hout : Outside (flDst o) (flLen o) b) := keepsByte_fillDev (s := heard s r.q r.host)
      (v := flValue o) (tally := flTally o) (tunit := flTunit o) hout
    have hbeyond : Outside (flDst o) (flLen o) ((flDst o + flLen o + 511) / 512 * 512) :=
      outside_of_fill (fun _ => .inr (by omega)) (fun _ => .inr le_rfl)
    refine ⟨by rw [(hkeeps hbeyond).host], fun hhbm hout => ?_, fun hno hout => ?_⟩
    · rw [(hkeeps (outside_of_fill (fun _ => hout) fun hno => absurd (hhbm.symm.trans hno) nofun)).byte (hkept.dev hwfDev), hmdev]
    · rw [(hkeeps (outside_of_fill (fun hhbm => absurd (hhbm.symm.trans hno) nofun) fun _ => hout)).byte (hkept.dev hwfDev), hmdev]

end

section
/-!
Where a Matrix Engine command ends before its body: a state in which `MM.FINISH` finds no open set of its queue (R116, R118),
and takes no answer of the host.
-/

namespace Sys2Proof.Machine

theorem endFail_host (s : State) (o : Op) (f : BitVec 8) (e : Fail) : (endFail s o f e).mems.host = s.mems.host :=
  (congrArg (·.mems.host) (beside_vlogAdd _ _) :)

/-- A started `MM.FINISH` of queue 0. -/
def lateFinish : Op := { mkOp 0 0x14 with phase := .started }

/-- A state in which it waits for its row, and no set is open. -/
def finishWithoutSet : State := { State.reset with head := { State.reset.head with ops := [lateFinish] } }

theorem started_finishWithoutSet (reply : HostReply) : Started finishWithoutSet ⟨0, 0, reply⟩ 0x14 lateFinish := by
  have hop : findOp finishWithoutSet 0 0 = some lateFinish := by decide
  have hcode : opCode lateFinish = 0x14 := by decide
  exact ⟨hop, rfl, hcode⟩

/-- Its row ends it with an error, whatever the host answers. -/
theorem exec_mmFinish_finishWithoutSet (reply : HostReply) : exec (.mmFinish ⟨0, 0, reply⟩) finishWithoutSet
    = .next (endFail (rewindOn finishWithoutSet lateFinish) lateFinish 0#8 (noOpenSet (rewindOn finishWithoutSet lateFinish) lateFinish)) :=
  runArray_of_sets_error (body := finishBody) (started_finishWithoutSet reply) rfl

end Sys2Proof.Machine

open Sys2Proof Sys2Proof.Machine

/-- Refutes O20: a Matrix Engine row whose open sets are not what its command needs ends the command without taking the host's
answer, so host memory is not what it is after that answer: `MM.FINISH` with no open set, and an answer of one cell. -/
theorem not_engineRowsLeaveTheRest : ¬ Obligations.EngineRowsLeaveTheRest := by
  unfold Obligations.EngineRowsLeaveTheRest
  intro h
  obtain ⟨hhost, -⟩ := (h ⟨0, 0, .data [(0, 1#8)]⟩ _ _ _ (exec_mmFinish_finishWithoutSet (.data [(0, 1#8)]))).2 (by simp) rfl
  rw [endFail_host] at hhost
  have hnone : (rewindOn finishWithoutSet lateFinish).mems.host = [] := rfl
  have hone : (heard finishWithoutSet 0 (.data [(0, 1#8)])).mems.host ≠ [] := by decide
  exact hone (hhost.symm.trans hnone)

end

section
/-!
The spindle's own steps (R73 to R80, R95, R122, R206): what they leave of a spindle, and of a state beside it.
-/

namespace Sys2Proof.Machine

/-! ### What the steps leave -/

/-- Ending rounds changes the states of the two sets alone. -/
theorem endRounds_eq (w : Work) (j : Job) (done : Bool) (sp : Spindle) :
    ∃ a b, endRounds w j done sp = { sp with set0 := a, set1 := b } := by
  unfold endRounds
  refine List.foldlRecOn (motive := fun x => ∃ a b, x = { sp with set0 := a, set1 := b }) _ _ ?_ ?_
  · exact ⟨_, _, rfl⟩
  rintro _ ⟨a, b, rfl⟩ e -
  dsimp only
  split
  · unfold setSetState
    split <;> exact ⟨_, _, rfl⟩
  · exact ⟨a, b, rfl⟩

theorem moveVec_eq (s : State) (w : Work) (c : Chuck) (ci : Nat) (sp : Spindle) (v : Tile × Nat × Nat) :
    ∃ rs ms ds, moveVec s w c ci sp v = { sp with regs := rs, resids := ms, drain := ds } := by
  unfold moveVec
  refine List.foldlRecOn (motive := fun x => ∃ rs ms ds, x = { sp with regs := rs, resids := ms, drain := ds }) _ _ ?_ ?_
  · exact ⟨_, _, _, rfl⟩
  rintro _ ⟨rs, ms, ds, rfl⟩ e -
  exact ⟨_, _, _, rfl⟩

/-- Finished vectors move registers, and leave the rest of the spindle. -/
theorem finishVecs_eq {s : State} {w : Work} {c : Chuck} {ci a b : Nat} {sp x : Spindle} (h : finishVecs s w c ci a b sp = some x) :
    ∃ rs ms ds, x = { sp with regs := rs, resids := ms, drain := ds } := by
  unfold finishVecs at h
  split at h
  · exact ⟨_, _, _, (Option.some.inj h).symm⟩
  split at h
  · exact absurd h nofun
  · rw [← Option.some.inj h]
    refine List.foldlRecOn (motive := fun x => ∃ rs ms ds, x = { sp with regs := rs, resids := ms, drain := ds }) _ _ ?_ ?_
    · exact ⟨_, _, _, rfl⟩
    rintro _ ⟨rs, ms, ds, rfl⟩ v -
    obtain ⟨rs', ms', ds', hv⟩ := moveVec_eq s w c ci { sp with regs := rs, resids := ms, drain := ds } v
    exact ⟨rs', ms', ds', hv⟩

/-- Vectors wait to be finished only behind registers of the draining set (R95). -/
theorem isSome_finishVecs {s : State} {w : Work} {c : Chuck} {ci a b : Nat} {sp : Spindle}
    (h : c.last = false ∨ b ≤ a ∨ sp.drain = []) : (finishVecs s w c ci a b sp).isSome = true := by
  unfold finishVecs
  split
  · rfl
  · next hlast =>
    obtain hl | hl | hl := h
    · simp [hl] at hlast
    · simp [hl] at hlast
    · simp [hl]

@[simp] theorem getSpindle_setSpindle_same (s : State) (i : Nat) (v : Spindle) : getSpindle (setSpindle s i v) i = v := by
  rw [getSpindle_setSpindle, if_pos rfl]

theorem perfAdd_eq (s : State) (l i n : Nat) : ∃ p, perfAdd s l i n = { s with perf := p } := by
  unfold perfAdd
  split <;> exact ⟨_, rfl⟩

theorem perfFree_eq (s : State) (is ls : List Nat) : ∃ p n, perfFree s is ls = { s with perf := p, freeIdx := n } := by
  unfold perfFree
  split
  · exact ⟨_, _, rfl⟩
  · refine List.foldlRecOn (motive := fun x => ∃ p n, x = { s with perf := p, freeIdx := n }) _ _ ?_ ?_
    · exact ⟨_, _, rfl⟩
    rintro _ ⟨p, n, rfl⟩ k -
    obtain ⟨p', h⟩ := perfAdd_eq { s with perf := p, freeIdx := n } k.1 k.2 (Config.freeNat n)
    exact ⟨p', n + 1, by rw [h]⟩

@[simp] theorem perfAdd_mems (s : State) (l i n : Nat) : (perfAdd s l i n).mems = s.mems := by
  obtain ⟨p, h⟩ := perfAdd_eq s l i n
  rw [h]

@[simp] theorem perfFree_mems (s : State) (is ls : List Nat) : (perfFree s is ls).mems = s.mems := by
  obtain ⟨p, n, h⟩ := perfFree_eq s is ls
  rw [h]

@[simp] theorem getSpindle_perfFree (s : State) (is ls : List Nat) (i : Nat) : getSpindle (perfFree s is ls) i = getSpindle s i := by
  obtain ⟨p, n, h⟩ := perfFree_eq s is ls
  rw [h]
  rfl

@[simp] theorem addOpFlags_mems (s : State) (q tag : Nat) (f : BitVec 8) : (addOpFlags s q tag f).mems = s.mems := by
  unfold addOpFlags
  split <;> rfl

@[simp] theorem getSpindle_addOpFlags (s : State) (q tag : Nat) (f : BitVec 8) (i : Nat) :
    getSpindle (addOpFlags s q tag f) i = getSpindle s i := by
  unfold addOpFlags
  split <;> rfl

@[simp] theorem takeTails_mems (s : State) (o : Op) (x : Mm) (l : Nat) (c : Chuck) (t : State) :
    (takeTails s o x l c t).mems = t.mems := by
  unfold takeTails
  simp only [List.foldl_cons, List.foldl_nil]
  split <;> split <;> rfl

/-- A set begun anew drops errors of the stores, and leaves device and host memory. -/
theorem freshSet_bytes (w : Work) (c : Chuck) (j j' : Job) (s : State) :
    (freshSet w c j j' s).mems.dev = s.mems.dev ∧ (freshSet w c j j' s).mems.host = s.mems.host := by
  unfold freshSet
  split
  · split <;> exact ⟨rfl, rfl⟩
  · exact ⟨rfl, rfl⟩

theorem countStep_mems (w : Work) (empty : Bool) (before after : Stand) (j : Job) (s : State) :
    (countStep w empty before after j s).2.mems = s.mems := by simp [countStep]

/-- A round that begins leaves the count of chucks. -/
theorem chuck_beginRound {s : State} {w : Work} {round : Nat} {j j' : Job} {sp sp' : Spindle}
    (h : beginRound s w round j sp = some (j', sp')) : j'.chuck = j.chuck := by
  unfold beginRound at h
  split at h
  · dsimp only at h
    split at h <;> exact (congrArg (·.1.chuck) (Option.some.inj h)).symm
  · exact absurd h nofun

theorem chuck_enterChuck {s : State} {w : Work} {c : Chuck} {j j' : Job} {sp sp' : Spindle}
    (h : enterChuck s w c j sp = some (j', sp')) : j'.chuck = j.chuck := by
  unfold enterChuck at h
  split at h
  · exact chuck_beginRound h
  · exact (congrArg (·.1.chuck) (Option.some.inj h)).symm

/-! ### A step (R73 to R80) -/

theorem stepCompletes : StepCompletes := by
  intro a s w c hw sp j fs st g p feed v st' sp' a0 b0 hc hrow hlane hmay
  have hgo : (decide (16 ≤ a.row) || decide (sliverCols w.o ≤ a.errLane) || !mayStep (w.steps fs) st g) = false := by
    simp [hrow, hlane, hmay]
  have hexec : exec (.spindleStep a) s = execSpindleStep a s := rfl
  unfold execSpindleStep at hexec
  simp only [hw] at hexec
  rw [hc] at hexec
  dsimp only at hexec
  rw [if_neg (ne_true_of_eq_false hgo)] at hexec
  refine ⟨fun lane hbad => ?_, fun hbad x hx => ?_, fun h => isSome_finishVecs h⟩
  · rw [hbad] at hexec
    exact hexec
  · rw [hbad] at hexec
    dsimp only at hexec
    rw [hx] at hexec
    refine ⟨_, hexec, ?_⟩
    obtain ⟨b, d, hround⟩ := endRounds_eq w (countStep w (noDigits w.o feed g) st st' j (settleRail s w.o (w.lathe / 2))).1
      (decide ((w.steps fs).length ≤ b0)) x
    obtain ⟨rs, ms, ds, rfl⟩ := finishVecs_eq hx
    rw [hround, getSpindle_setSpindle, if_pos rfl]
    exact ⟨rfl, rfl, rfl, rfl, rfl, countStep_mems _ _ _ _ _ _⟩

/-! ### The registers of a step (R73, R74, R254) -/

/-- A fold that rewrites a run of keys rewrites each one once. -/
theorem tget_foldl_run {α : Type} [DecidableEq α] (d : α) (base : Nat) (f : Nat → α → α) (n k : Nat) (m : SMap α) :
    tget d ((List.range n).foldl (fun m j => tput d m (base + j) (f j (tget d m (base + j)))) m) k
      = if base ≤ k ∧ k < base + n then f (k - base) (tget d m k) else tget d m k := by
  induction n generalizing k with
  | zero => simp
  | succ n ih =>
    rw [List.range_succ, List.foldl_append, List.foldl_cons, List.foldl_nil, tget_tput, ih, ih]
    obtain rfl | hk := Decidable.eq_or_ne (base + n) k
    · simp
    · have hrange : base ≤ k ∧ k < base + (n + 1) ↔ base ≤ k ∧ k < base + n := by omega
      simp only [hk, if_false, hrange]

theorem stepAddsTheTreeSum : StepAddsTheTreeSum := by
  intro w feed v g t lane err sp base sp'
  have hregs (n : Nat) : tget 0 sp'.regs n = if base ≤ n ∧ n < base + sliverCols w.o
      then reg48 (tget 0 sp.regs n + treeSum w sp feed g t (n - base) + if n - base = lane then err else 0) else tget 0 sp.regs n :=
    tget_foldl_run 0 base (fun k x => reg48 (x + treeSum w sp feed g t k + if k = lane then err else 0)) _ n sp.regs
  have hresids (n : Nat) : tget 0 sp'.resids n = if base ≤ n ∧ n < base + sliverCols w.o
      then (tget 0 sp.resids n + treeRes w sp feed g t (n - base)) % 7 else tget 0 sp.resids n :=
    tget_foldl_run 0 base (fun k x => (x + treeRes w sp feed g t k) % 7) _ n sp.resids
  refine ⟨fun k hk => ?_, fun n hn => ?_, rfl, rfl, rfl⟩
  · have hin : base ≤ base + k ∧ base + k < base + sliverCols w.o := by omega
    rw [hregs, hresids, if_pos hin, if_pos hin, Nat.add_sub_cancel_left]
    exact ⟨rfl, rfl⟩
  · have hout : ¬(base ≤ n ∧ n < base + sliverCols w.o) := fun ⟨hlo, hhi⟩ => hn (n - base) (by omega) (by omega)
    rw [hregs, hresids, if_neg hout, if_neg hout]
    exact ⟨rfl, rfl⟩

/-! ### A chuck swap (R76, R122) -/

theorem swapCompletes : SwapCompletes := by
  intro i s u u' w c j sp f hw j0 sp0 hc hspent henter hready
  have hexec : exec (.chuckSwap i) s = execChuckSwap i s := rfl
  unfold execChuckSwap at hexec
  simp only [hw] at hexec
  rw [hc] at hexec
  dsimp only at hexec
  have hgo : ¬(!w.spent s j0 sp0) = true := by simp [hspent]
  rw [if_neg hgo, henter, hready] at hexec
  dsimp only at hexec
  refine ⟨fun e hg => ?_, fun x hg hx => ?_⟩
  · rw [hg] at hexec
    exact hexec
  · rw [hg] at hexec
    dsimp only at hexec
    rw [hx] at hexec
    refine ⟨_, hexec, ?_⟩
    obtain ⟨b, d, hround⟩ := endRounds_eq w { j with chuck := j.chuck + 1 } (w.spent u' { j with chuck := j.chuck + 1 } x) x
    obtain ⟨rs, ms, ds, hvecs⟩ := finishVecs_eq hx
    obtain ⟨hdev, hhost⟩ := freshSet_bytes w c j0 j (perfFree u' [3, 5] [w.lathe])
    have hmems (v : Spindle) (t : State) : (setSpindle t i v).mems = t.mems := rfl
    simp only [addOpFlags_mems, getSpindle_addOpFlags, getSpindle_setSpindle_same, hmems, takeTails_mems]
    rw [hround, hvecs]
    refine ⟨hdev.trans (congrArg _ (perfFree_mems _ _ _)), hhost.trans (congrArg _ (perfFree_mems _ _ _)), rfl, rfl, ?_⟩
    exact congrArg (fun n => some (n + 1)) (chuck_enterChuck henter)

/-! ### A rescale (R81 to R88) -/

theorem guardAcc_of_no_upsets {s : State} (h : s.mems.upsets = []) (ws : List (Nat × Nat)) : guardAcc s ws = (s, 0#8, none) := by
  induction ws with
  | nil => rfl
  | cons x ws ih =>
    have hright : accWrong s x.1 x.2 = [] := by simp [accWrong, h]
    unfold guardAcc
    rw [hright]
    exact ih

theorem setTileEntry_drain (sp : Spindle) (f : AccFmt) (slot e v : Nat) : (setTileEntry sp f slot e v).drain = sp.drain := by
  unfold setTileEntry
  split <;> rfl

theorem addDelivered_drain (f : AccFmt) (sp : Spindle) (key slot e : Nat) (lastExt : Bool) (g : GroupRes) (v : Ext) :
    (addDelivered f sp key slot e lastExt g v).1.drain = sp.drain := by
  unfold addDelivered
  split
  · rfl
  · exact setTileEntry_drain _ _ _ _ _

theorem rescaleInto_drain (w : Work) (c : Chuck) (t : Tile) (a : RescaleArgs) (set : Nat) (bound : Bool) (r : Int) (sp : Spindle) :
    (rescaleInto w c t a set bound r sp).1.drain = sp.drain.filter fun z => z.key != 256 * a.slot + a.entry := by
  unfold rescaleInto
  dsimp only
  split
  · rfl
  · exact addDelivered_drain _ _ _ _ _ _ _ _

/-- An I48 or a C64 entry takes a delivered value at once (R104, R105). -/
theorem addDelivered_acc {f : AccFmt} (h : f = .i48 ∨ f = .c64) (sp : Spindle) (key slot e : Nat) (lastExt : Bool) (g : GroupRes)
    (v : Ext) : (addDelivered f sp key slot e lastExt g v).1.acc
      = tput 0#64 sp.acc (256 * slot + e) (BitVec.ofNat 64 (accAdd f (tileEntry sp f slot e) v).1) := by
  obtain rfl | rfl := h <;> rfl

theorem rescaleCompletes : RescaleCompletes := by
  intro a s w y c set tile hw sp key bound r hy hc hset htile
  have hexec : exec (.groupRescale a) s = execGroupRescale a s := rfl
  unfold execGroupRescale at hexec
  simp only [hw] at hexec
  rw [hy] at hexec
  dsimp only at hexec
  rw [hc] at hexec
  dsimp only at hexec
  rw [hset, htile] at hexec
  dsimp only at hexec
  refine ⟨fun hcheck hres => ?_, fun hres hup => ?_⟩
  · have hbad : (checksResidue w.o && res7 r != y.res) = true := by simp [hcheck, hres]
    rw [if_pos hbad] at hexec
    exact hexec
  · have hgood : ¬(checksResidue w.o && res7 r != y.res) = true := by
      obtain h | h := hres <;> simp [h]
    rw [if_neg hgood, guardAcc_of_no_upsets hup] at hexec
    refine ⟨_, hexec, ?_⟩
    dsimp only
    generalize w.spent s (jobFor w.o (getSpindle s a.spindle)) _ = done
    obtain ⟨b, d, hround⟩ := endRounds_eq w (jobFor w.o sp) done (rescaleInto w c tile a set bound r sp).1
    have hmems (v : Spindle) : (setSpindle s a.spindle v).mems = s.mems := rfl
    simp only [addOpFlags_mems, perfFree_mems, hmems, getSpindle_addOpFlags, getSpindle_perfFree, getSpindle_setSpindle_same]
    rw [hround]
    refine ⟨trivial, fun z hz => ?_, fun hbound hacc => ?_⟩
    · change z ∈ (rescaleInto w c tile a set bound r sp).1.drain at hz
      rw [rescaleInto_drain] at hz
      simpa using hz
    · change (tget 0#64 (rescaleInto w c tile a set bound r sp).1.acc _ = _)
        ∧ ∀ n, _ → tget 0#64 (rescaleInto w c tile a set bound r sp).1.acc n = _
      unfold rescaleInto
      rw [hbound]
      dsimp only
      rw [if_neg Bool.false_ne_true, addDelivered_acc hacc]
      refine ⟨?_, fun n hn => ?_⟩
      · rw [tget_tput, if_pos rfl]
        rfl
      · rw [tget_tput, if_neg (Ne.symm hn)]

/-! ### An operation that has ended stays ended -/

/-- The operation of a key has ended. -/
def HasEnded (s : State) (q tag : Nat) : Prop := ∃ u, findOp s q tag = some u ∧ u.phase = .ended

theorem hasEnded_of_head {s t : State} {q tag : Nat} (h : HasEnded s q tag) (hd : t.head = s.head) : HasEnded t q tag := by
  obtain ⟨u, hf, hp⟩ := h
  exact ⟨u, (findOp_of_head_eq hd q tag).trans hf, hp⟩

/-- An error ends the operation of its key, however that one has changed since. -/
theorem hasEnded_endFail_same {s : State} {o p : Op} (h : findOp s o.q o.tag = some p) (f : BitVec 8) (e : Fail) :
    HasEnded (endFail s o f e) o.q o.tag := by
  have hd : findOp (dropJobs s o.q o.tag) o.q o.tag = some p := (findOp_of_head_eq (dropJobs_head s _ _) _ _).trans h
  obtain ⟨hq, htag⟩ := findOp_key h
  unfold endFail
  refine hasEnded_of_head ?_ (vlogAdd_head _ _)
  refine ⟨_, findOp_putOp_same hd ?_ ?_, rfl⟩
  · exact hq.symm
  · exact htag.symm

theorem hasEnded_endFail {s : State} {q tag : Nat} (h : HasEnded s q tag) (o : Op) (f : BitVec 8) (e : Fail) :
    HasEnded (endFail s o f e) q tag := by
  obtain ⟨u, hf, hp⟩ := h
  have hd : findOp (dropJobs s o.q o.tag) q tag = some u := (findOp_of_head_eq (dropJobs_head s _ _) _ _).trans hf
  refine hasEnded_of_head ?_ (vlogAdd_head _ _)
  refine ⟨_, (findOp_putOp _ _ _ _).trans (congrArg _ hd), ?_⟩
  dsimp only
  split
  · rfl
  · exact hp

theorem cutSnap_head (s : State) (q tag : Nat) : (cutSnap s q tag).head = s.head := by
  unfold cutSnap
  split
  · dsimp only
    split
    · unfold mixRange
      split <;> rfl
    · rfl
  · rfl

theorem collCast_head (s : State) (c : Coll) (b : CollBody) : (collCast s c b).head = s.head :=
  foldl_keeps State.head (f := fun s d => collSend s c d b) (fun _ _ => rfl) _ s

theorem dropFabric_head (s : State) (q tag : Nat) : (dropFabric s q tag).head = s.head := by
  have hcast (t : State) (cs : List Coll) : (cs.foldl (fun s c => collCast s c (.failed cRemoteError none)) t).head = t.head :=
    foldl_keeps State.head (fun t c => collCast_head t c _) cs t
  unfold dropFabric
  dsimp only
  repeat' split
  · exact (tellPlace_head _ _).trans ((hcast _ _).trans (cutSnap_head s q tag))
  all_goals exact (hcast _ _).trans (cutSnap_head s q tag)

theorem hasEnded_abortOps {s : State} {q tag : Nat} (h : HasEnded s q tag) (p : Op → Bool) : HasEnded (abortOps s p) q tag := by
  refine List.foldlRecOn (motive := fun t => HasEnded t q tag) _ _ h fun t ht o _ => ?_
  unfold abortOp
  split
  · exact ht
  · exact hasEnded_endFail (hasEnded_of_head ht (dropFabric_head t o.q o.tag)) o _ _

theorem loseSpindle_head (s : State) (i : Nat) : (loseSpindle s i).head = s.head := by
  unfold loseSpindle markLost
  dsimp only
  split <;> rfl

theorem autoReport_head (s : State) (auto : Bool) (l : Nat) : (if auto then autoReport s l else s).head = s.head := by
  split
  · simp [autoReport]
  · rfl

theorem hasEnded_fenceLathe {s : State} {q tag : Nat} (h : HasEnded s q tag) (l : Nat) (auto : Bool) :
    HasEnded (fenceLathe s l auto) q tag := by
  have hlose (t : State) : ((List.range 64).foldl (fun t i => loseSpindle t (64 * l + i)) t).head = t.head :=
    foldl_keeps State.head (fun t i => loseSpindle_head t _) _ t
  unfold fenceLathe
  split
  · exact h
  · extract_lets d t u hit v
    have hv : v.head = s.head := (hlose u).trans (autoReport_head t auto l)
    clear_value v
    exact hasEnded_abortOps (hasEnded_of_head h hv) _

theorem hasEnded_fenceSpindle {s : State} {q tag : Nat} (h : HasEnded s q tag) (i : Nat) (auto : Bool) :
    HasEnded (fenceSpindle s i auto) q tag := by
  unfold fenceSpindle
  split
  · exact h
  · extract_lets d t u hit v
    have hv : HasEnded v q tag := hasEnded_abortOps (hasEnded_of_head h ((loseSpindle_head u i).trans (autoReport_head t auto _))) _
    split
    · exact hasEnded_fenceLathe hv _ true
    · exact hv

/-- An accumulator word that cannot be corrected ends the command (R489). -/
theorem hasEnded_accEnd {s : State} {o p : Op} (h : findOp s o.q o.tag = some p) (f : BitVec 8) (i key : Nat) :
    HasEnded (accEnd s o f i key) o.q o.tag := by
  have hnote {t : State} (ht : HasEnded t o.q o.tag) : HasEnded (noteAccErr t i) o.q o.tag := by
    unfold noteAccErr
    dsimp only
    split
    · exact hasEnded_fenceSpindle ht i true
    · exact hasEnded_of_head ht rfl
  unfold accEnd
  refine hnote ?_
  generalize ({ failAt cEcc (latheBase (i / 64)) with detail := _ } : Fail) = e
  split
  · exact hasEnded_of_head (hasEnded_endFail_same h f _) (loseSpindle_head _ _)
  · exact hasEnded_endFail_same h f _

/-! ### The drain of a set (R122, R123, R206) -/

/-- What a spindle works on is a command in flight. -/
theorem findOp_of_workOn {s : State} {i : Nat} {w : Work} (h : workOn s i = some w) : ∃ p, findOp s w.o.q w.o.tag = some p := by
  obtain ⟨o, ho, rfl⟩ := Option.map_eq_some_iff.mp h
  have hmem : o ∈ s.head.ops := by
    unfold runningOn at ho
    dsimp only at ho
    split at ho
    · next hf => exact List.mem_of_mem_filter (Option.some.inj ho ▸ List.mem_of_find?_eq_some hf)
    · exact List.mem_of_mem_filter (List.mem_of_mem_head? ho)
  exact Option.isSome_iff_exists.mp (List.find?_isSome.mpr ⟨o, hmem, by simp⟩)

theorem writeAll_head (s : State) (ws : List (Nat × List Byte)) : (writeAll s ws).1.head = s.head :=
  (congrArg (·.head) (beside_writeAll s ws) :)

theorem write_head (a : Acc) {f : State → State × BitVec 8 × Option Fail} (h : ∀ t, (f t).1.head = t.head) :
    (a.write f).s.head = a.s.head := by
  unfold Acc.write
  split
  · rfl
  · exact h a.s

theorem emitConv_head (o : Op) (a : Acc) (r : Rect) (cs : List (List Conv)) : (emitConv o a r cs).s.head = a.s.head := by
  have hout : (a.write fun s => writeOutputs s o r cs).s.head = a.s.head := by
    refine write_head a fun t => ?_
    unfold writeOutputs
    split
    · rfl
    · exact writeAll_head t _
  unfold emitConv
  dsimp only
  split
  · exact hout
  · unfold Acc.keep
    split <;> exact hout

theorem drainWrite_head (s0 : State) (w : Work) (g : Seg) (a : Acc) (h : Held) : (drainWrite s0 w g a h).s.head = a.s.head := by
  unfold drainWrite
  dsimp only
  repeat' split
  · exact write_head a fun t => writeAll_head t _
  · exact emitConv_head _ _ _ _
  · exact write_head a fun t => writeAll_head t _
  · exact emitConv_head _ _ _ _

theorem spillPass_head (w : Work) (g : Seg) (set : Nat) (s : State) : (spillPass w g set s).head = s.head := by
  unfold spillPass
  refine foldl_keeps State.head (fun t y => ?_) _ s
  unfold spillTile
  refine foldl_keeps State.head (fun u r => ?_) _ t
  rfl

/-- Tiles that are read through the epilogue, written as partials or spilled leave the operations. -/
theorem drained_ops (w : Work) (g : Seg) (set : Nat) (hs : List Held) (s : State) :
    (if g.final then (hs.foldl (drainWrite s w g) { s := s }).res w.o.q else ⟨spillPass w g set s, 0#8, none⟩ : Res).s.head.ops
      = s.head.ops := by
  split
  · exact congrArg (·.ops) (foldl_keeps (·.s.head) (fun a h => drainWrite_head s w g a h) hs ({ s := s } : Acc))
  · exact congrArg (·.ops) (spillPass_head w g set s)

theorem getSetState_freeSet (sp : Spindle) (set : Nat) : getSetState (freeSet sp set) set = .free := by
  unfold freeSet getSetState
  dsimp only
  repeat' split
  all_goals rfl

theorem drainCompletes : DrainCompletes := by
  intro i set s w g hw hg hstate
  have hexec : exec (.tileDrain i set) s = execTileDrain i set s := rfl
  unfold execTileDrain at hexec
  simp only [hw] at hexec
  rw [hg] at hexec
  dsimp only at hexec
  rw [if_neg (not_not.mpr hstate)] at hexec
  obtain ⟨p, hp⟩ := findOp_of_workOn hw
  have hguard := guardAcc_head s (drainWords s w g set)
  split at hexec
  · next u f y hx =>
    rw [hx] at hguard
    exact ⟨_, hexec, .inr (hasEnded_accEnd ((findOp_of_head_eq hguard _ _).trans hp) f i y.2)⟩
  · next u f hx =>
    rw [hx] at hguard
    dsimp only at hexec hguard
    split at hexec
    · next e he =>
      have hops := (drained_ops w g set (g.tiles.map fun t => ⟨i, set, t⟩) u).trans (congrArg (·.ops) hguard)
      exact ⟨_, hexec, .inr (hasEnded_endFail_same ((findOp_of_ops_eq hops _ _).trans hp) _ e)⟩
    · refine ⟨_, hexec, .inl ?_⟩
      rw [getSpindle_addOpFlags, getSpindle_setSpindle_same]
      exact getSetState_freeSet _ set

end Sys2Proof.Machine

open Sys2Proof Sys2Proof.Machine

/-- Settles O60, by each of the spindle's rows on its own: a step's registers by a fold over their keys, a swap, a rescale and a
drain by what they leave of the spindle. -/
theorem spindleStepsComplete : Obligations.SpindleStepsComplete :=
  ⟨stepCompletes, stepAddsTheTreeSum, swapCompletes, rescaleCompletes, drainCompletes⟩

end
